-- ==== Sys2Proof/Word.lean ====
section
/-! DEFINITION. The word types of the FG4 and their plainest arithmetic (spec/00_scope.md, conventions). -/

namespace Sys2Proof

/-- One byte of the gauge area or of a sample frame. -/
abbrev Byte := BitVec 8
/-- A 16-bit count: ring indices, sequences, details, hit counts. -/
abbrev Half := BitVec 16
/-- A 32-bit word of the memory bus, and the 32-bit counters. -/
abbrev Word := BitVec 32
/-- A 24-bit byte address of the memory bus. -/
abbrev Addr := BitVec 24
/-- One of the four lines L0 to L3. -/
abbrev LineId := Fin 4
/-- One of the five rings: P0 to P3 are 0 to 3, the notice ring N is 4 (R74). -/
abbrev RingId := Fin 5
/-- One of the eight watch windows W0 to W7. -/
abbrev WindowId := Fin 8
/-- One of the five status pages: L0 to L3 are 0 to 3, the part status page is 4 (the cyclic order of R86). -/
abbrev PageId := Fin 5

end Sys2Proof
end

