-- ==== Sys2Proof/Syntax.lean ====
section
/-! DEFINITION. The commands of the FG4: one constructor per row of spec/opcode_table.json. -/

namespace Sys2Proof

/-- The events the part takes, one constructor per row of spec/opcode_table.json.
Line, window and pin operands name the unit; `err` and `data` are what memory answers on the downstream port
(DERR and DD, R118); `tag` and `operand` are bytes 0 and 2 of a command word (R179). -/
inductive Instr where
  /-- PORn becomes asserted (R133). -/
  | powerOnResetAssert
  /-- PORn is released; the straps and the TRIP pins (bit n for line n) are sampled (R27, R134). -/
  | powerOnResetRelease (gaBase : Byte) (trips : BitVec 4)
  /-- BRST becomes asserted (R131). -/
  | busResetAssert
  /-- BRST is released (R132). -/
  | busResetRelease
  /-- The millisecond counter advances (R99). -/
  | millisecondAdvance
  /-- The phase timer of a line reaches the phase length; `coilLo` is the level of COIL_LOn then (R3, R14). -/
  | phaseEnd (line : LineId) (coilLo : Bool)
  /-- The 2 ticks of ALL_OFF_HOLD have run (R18). -/
  | shutdownHoldEnd (line : LineId)
  /-- COIL_HIn becomes asserted (R13). -/
  | coilHiAssert (line : LineId)
  /-- COIL_HIn becomes deasserted (R17). -/
  | coilHiDeassert (line : LineId)
  /-- TRIPn changes to `level` (R15). -/
  | tripPinChange (line : LineId) (level : Bool)
  /-- A debounce of TRIPn completes (R15). -/
  | tripDebounceComplete (line : LineId)
  /-- The restart delay timer reaches 0 (R20). -/
  | restartDelayExpiry (line : LineId)
  /-- A frame ends on the sample link; `bits` are the bits received, in order (R29, R30). -/
  | frameArrival (line : LineId) (bits : List Bool)
  /-- The silence timer reaches silence_ticks (R33). -/
  | silenceTimerExpiry (line : LineId)
  /-- The timer of a watch window reaches 0 (R168). -/
  | windowExpiry (window : WindowId)
  /-- The MP takes a host request (R119). -/
  | hostRequestTaken (addr : Addr) (write : Bool) (be : BitVec 4) (data : Word)
  /-- The forwarded host access on the port completes (R122). -/
  | hostForwardedCompletion (err : Bool) (data : Word)
  /-- The forwarded write of `data` to the captured word at `offset` completes OK (R139). -/
  | capturedWrite (offset : Half) (be : BitVec 4) (data : Word)
  /-- The forwarded full-word write of `data` to the Rd word of `ring` completes OK (R84). -/
  | rdCapture (ring : RingId) (data : Word)
  /-- The fresh read of the activity summary word completes OK with `data` (R128). -/
  | activitySummaryRead (data : Word)
  /-- A host access discarded by bus reset completes (R131). -/
  | discardedAccessCompletion (err : Bool) (data : Word)
  /-- The CU takes COMMIT_LINE (R152). -/
  | commitLine (tag operand : Byte)
  /-- The CU takes COMMIT_CAL (R154). -/
  | commitCal (tag operand : Byte)
  /-- The CU takes COMMIT_WINDOWS (R155). -/
  | commitWindows (tag operand : Byte)
  /-- The CU takes COMMIT_DELIVERY (R156). -/
  | commitDelivery (tag operand : Byte)
  /-- The CU takes LOAD (R159). -/
  | load (tag operand : Byte)
  /-- The CU takes START (R21). -/
  | start (tag operand : Byte)
  /-- The CU takes STOP (R22). -/
  | stop (tag operand : Byte)
  /-- The CU takes HALT (R23). -/
  | halt (tag operand : Byte)
  /-- The CU takes RESTART (R24). -/
  | restart (tag operand : Byte)
  /-- The CU takes CLEAR_TOTAL (R49). -/
  | clearTotal (tag operand : Byte)
  /-- The CU takes FREEZE (R158). -/
  | freeze (tag operand : Byte)
  /-- The CU takes a full-word command write whose code is not in Table 8-1 (R148). -/
  | unknownCommand (tag code operand : Byte)
  /-- The CU takes a command-slot write with fewer than four byte enables (R148). -/
  | partialCommandWrite (be : BitVec 4) (data : Word)
  /-- The waiting arming request takes effect (R79). -/
  | armingTakesEffect
  /-- The DE is granted the port for an index reset write (R81). -/
  | indexResetWrite
  /-- An index reset write completes (R81). -/
  | indexResetWriteComplete (err : Bool)
  /-- The DE is granted the port and begins a profile record or notice entry (R82). -/
  | recordStart
  /-- A word of a record completes (R82). -/
  | recordWordComplete (err : Bool)
  /-- The W word write of a record completes (R82). -/
  | wWordWriteComplete (err : Bool)
  /-- The DE is granted the port and begins a status page (R87). -/
  | pageWriteStart
  /-- A word of a status page completes (R87). -/
  | pageWordComplete (err : Bool)
  /-- The DE is granted the port for the command status word (R89). -/
  | commandStatusWrite
  /-- The command status write completes (R89). -/
  | commandStatusWriteComplete (err : Bool)
  /-- The DE is granted the port for a fresh-word refresh (R90). -/
  | freshWordRefresh
  /-- A fresh-word refresh completes (R90). -/
  | freshWordRefreshComplete (err : Bool)
  /-- The DE is granted the port for the next read of a load (R91). -/
  | loadRead
  /-- A load read completes (R160). -/
  | loadReadComplete (err : Bool) (data : Word)
  /-- A receiver in WAIT_IDLE observes SFRn deasserted (R29). -/
  | linkWaitIdleExit (line : LineId)
  deriving DecidableEq, Repr

end Sys2Proof
end

