-- ==== Sys2Proof/Config.lean ====
section
/-! DEFINITION. What the manual leaves to chance: the free values. Nothing can evaluate them (log 9, 10). -/

namespace Sys2Proof

/-- Where two events fall together inside one action and the manual says that either may be taken first
(R12, R101), the n-th such choice is this free value; the step supplies n from the counter `free` of its state. -/
opaque Config.eitherFirst : Nat → Bool

end Sys2Proof
end

