-- ==== Sys2Proof/Machine/Sections.lean ====
section
/-! DEFINITION. The configuration sections as bytes: the place, default and range of every field
(spec/10_gauge_area_and_link_formats.md, R177, R178; spec/08, R151). -/

namespace Sys2Proof.Machine

/-- A copy of one configuration section: 256 bytes (R140). -/
abbrev Bytes := Vector Byte 256

/-- The section whose first bytes are `l`, the rest 0 (R143: bytes that hold no field are 0 by default). -/
def sectionOf (l : List Byte) : Bytes :=
  ⟨⟨(l ++ List.replicate 256 0).take 256⟩, by
    rw [List.size_toArray, List.length_take, List.length_append, List.length_replicate]; omega⟩

/-- An unsigned one-byte field (R177). -/
def u8 (b : Bytes) (i : Nat) : Nat := (b[i]?.getD 0).toNat
/-- An unsigned two-byte field, little-endian (R177). -/
def u16 (b : Bytes) (i : Nat) : Nat := u8 b i + 256 * u8 b (i + 1)
/-- An unsigned four-byte field, little-endian (R177). -/
def u32 (b : Bytes) (i : Nat) : Nat := u16 b i + 65536 * u16 b (i + 2)
/-- A signed two-byte field in two's complement (R177). -/
def s16 (b : Bytes) (i : Nat) : Int :=
  if u16 b i < 32768 then (u16 b i : Int) else (u16 b i : Int) - 65536
/-- A flag field: 1 is set (R177). Validation keeps other codes out of a live copy (log 34). -/
def flag (b : Bytes) (i : Nat) : Bool := u8 b i == 1

/-- The bytes of a two-byte field, lowest first. -/
def le16 (n : Nat) : List Byte := [BitVec.ofNat 8 n, BitVec.ofNat 8 (n / 256)]
/-- The bytes of a four-byte field, lowest first. -/
def le32 (n : Nat) : List Byte := le16 n ++ le16 (n / 65536)

/-! ## Line section (Table 10-1) -/

def halfTicks (b : Bytes) : Nat := u16 b 0x00
def settleTicks (b : Bytes) : Nat := u16 b 0x02
def gapTicks (b : Bytes) : Nat := u16 b 0x04
def driveDuty (b : Bytes) : Nat := u8 b 0x06
def coilHiEnable (b : Bytes) : Bool := flag b 0x07
def openCoilEnable (b : Bytes) : Bool := flag b 0x08
def tripEnable (b : Bytes) : Bool := flag b 0x09
/-- 0 ALL_OFF, 1 LOWER_CLAMP, 2 UPPER_CLAMP (R18). -/
def shutdownStateCode (b : Bytes) : Nat := u8 b 0x0A
/-- Restart mode AUTO is code 0, MANUAL code 1 (R20). -/
def restartAuto (b : Bytes) : Bool := u8 b 0x0B == 0
def restartDelayMs (b : Bytes) : Nat := u16 b 0x0C
def attemptLimit (b : Bytes) : Nat := u8 b 0x0E
/-- The trip debounce in milliseconds: codes 0 to 3 stand for 0, 1, 8 and 64 ms (R15). -/
def tripDebounceMs (b : Bytes) : Nat :=
  if u8 b 0x0F == 0 then 0 else if u8 b 0x0F == 1 then 1 else if u8 b 0x0F == 2 then 8 else 64
/-- Trip polarity: set when active high (R15). -/
def tripActiveHigh (b : Bytes) : Bool := flag b 0x10
/-- Reconstruction mode ALLOW_SINGLE is code 1, PAIRED_ONLY code 0 (R28). -/
def allowSingle (b : Bytes) : Bool := flag b 0x11
def rejectLimit (b : Bytes) : Nat := u8 b 0x12
def minWindowSamples (b : Bytes) : Nat := u8 b 0x13
def spikeLimit (b : Bytes) : Nat := u32 b 0x14
def silenceTicks (b : Bytes) : Nat := u16 b 0x18
def stillThreshold (b : Bytes) : Nat := u16 b 0x1A
def minValidBands (b : Bytes) : Nat := u8 b 0x1C
def alarmOnShutdown (b : Bytes) : Bool := flag b 0x1D
def alarmOnUnattended (b : Bytes) : Bool := flag b 0x1E

/-- A zone definition (R59, Table 10-2). `test` is the code of Table 3-1: BELOW 0, STILL 1, SPREAD 2. -/
structure ZoneDef where
  enable : Bool
  bandLo : Nat
  bandHi : Nat
  test : Nat
  limit : Int
  lookback : Nat
  persist : Nat
  clear : Nat
  alarm : Bool
  deriving DecidableEq, Repr

/-- The definition of zone `z` in a line section. -/
def zoneDef (b : Bytes) (z : Nat) : ZoneDef :=
  let o := 0x20 + 16 * z
  { enable := flag b o, bandLo := u8 b (o + 1), bandHi := u8 b (o + 2), test := u8 b (o + 3),
    limit := s16 b (o + 4), lookback := u8 b (o + 6), persist := u8 b (o + 7), clear := u8 b (o + 8),
    alarm := flag b (o + 9) }

/-! ## Calibration of one line (Table 10-3) -/

def gain (b : Bytes) (k : Nat) : Nat := u16 b (2 * k)
def weight (b : Bytes) (k : Nat) : Nat := u8 b (0x0C + k)
def area (b : Bytes) : Nat := u16 b 0x12

/-! ## Window section (Table 10-4) -/

/-- A watch window definition (R165). -/
structure WindowDef where
  base : Nat
  exponent : Nat
  enable : Bool
  matchRead : Bool
  matchWrite : Bool
  guard : Bool
  /-- Expiry action: set for UNATTENDED (code 1), clear for NOTICE (code 0). -/
  unattendedAction : Bool
  timeoutMs : Nat
  deriving DecidableEq, Repr

/-- The definition of window `w` in a window section. -/
def windowDef (b : Bytes) (w : Nat) : WindowDef :=
  let o := 0x20 * w
  { base := u32 b o, exponent := u8 b (o + 4), enable := flag b (o + 5), matchRead := flag b (o + 6),
    matchWrite := flag b (o + 7), guard := flag b (o + 8), unattendedAction := flag b (o + 9),
    timeoutMs := u16 b (o + 10) }

/-- An address lies in a window: base to base + 2^k − 1 (R165). -/
def WindowDef.covers (d : WindowDef) (addr : Nat) : Bool :=
  decide (d.base ≤ addr) && decide (addr < d.base + 2 ^ d.exponent)

/-! ## Delivery section (Table 10-5) -/

/-- Bytes of one record of a ring: 48 for a profile ring, 16 for the notice ring (R78). -/
def recordSize (r : Nat) : Nat := if r < 4 then 48 else 16

def ringEnable (b : Bytes) (r : Nat) : Bool := flag b (16 * r)
def ringPriority (b : Bytes) (r : Nat) : Nat := u8 b (16 * r + 1)
def ringBatch (b : Bytes) (r : Nat) : Nat := u8 b (16 * r + 2)
def ringBase (b : Bytes) (r : Nat) : Nat := u16 b (16 * r + 4)
def ringCapacity (b : Bytes) (r : Nat) : Nat := u16 b (16 * r + 6)
def attentionThreshold (b : Bytes) : Nat := u8 b 0x50
def patience (b : Bytes) : Nat := u8 b 0x51
/-- The level of kind code `c`, 1 to 20 (R102). -/
def kindLevel (b : Bytes) (c : Nat) : Nat := u8 b (0x54 + c - 1)

/-! ## Defaults (R143) -/

def defaultZone : List Byte := [0, 0, 0, 0] ++ le16 0 ++ [8, 4, 4, 0, 0, 0, 0, 0, 0, 0]

def defaultLine : Bytes :=
  sectionOf (le16 2000 ++ le16 600 ++ le16 20 ++ [128, 1, 1, 1, 0, 0] ++ le16 2000 ++ [3, 2, 0, 1, 4, 16]
    ++ le32 20000 ++ le16 200 ++ le16 150 ++ [3, 1, 1, 0]
    ++ defaultZone ++ defaultZone ++ defaultZone ++ defaultZone)

def defaultCal : Bytes :=
  sectionOf (le16 1000 ++ le16 1000 ++ le16 1000 ++ le16 1000 ++ le16 1000 ++ le16 1000
    ++ [1, 1, 1, 1, 1, 1] ++ le16 1000)

def defaultWindow : List Byte := le32 0 ++ [2, 0, 0, 0, 0, 0] ++ le16 0 ++ List.replicate 20 0

def defaultWindows : Bytes := sectionOf ((List.replicate 8 defaultWindow).flatten)

def defaultRing (cap : Nat) (prio : Byte) : List Byte := [0, prio, 0, 0] ++ le16 0 ++ le16 cap ++ List.replicate 8 0

/-- The default levels of the twenty kinds, kind code 1 first (R100). -/
def defaultLevels : List Byte := [6, 3, 7, 3, 7, 5, 2, 4, 1, 4, 5, 2, 3, 4, 2, 2, 6, 7, 3, 3]

def defaultDelivery : Bytes :=
  sectionOf (defaultRing 8 4 ++ defaultRing 8 4 ++ defaultRing 8 4 ++ defaultRing 8 4 ++ defaultRing 16 0
    ++ [4, 8, 0, 0] ++ defaultLevels)

/-! ## Validation (R151) -/

def inRange (lo n hi : Nat) : Bool := decide (lo ≤ n) && decide (n ≤ hi)
def inRangeInt (lo n hi : Int) : Bool := decide (lo ≤ n) && decide (n ≤ hi)

/-- One test of a commit: the offset of the field it is named at, and whether the field passes. -/
abbrev FieldTest := Nat × Bool

/-- The limit range of a zone by its test kind (R59). -/
def limitInRange (d : ZoneDef) : Bool :=
  if d.test == 0 then inRangeInt (-8000) d.limit 8000
  else if d.test == 1 then inRangeInt 1 d.limit 255
  else inRangeInt (-16000) d.limit 16000

def zoneTests (b : Bytes) (z : Nat) : List FieldTest :=
  let o := 0x20 + 16 * z
  let d := zoneDef b z
  [(o, inRange 0 (u8 b o) 1), (o + 1, inRange 0 d.bandLo 5),
   (o + 2, inRange 0 d.bandHi 5 && decide (d.bandLo ≤ d.bandHi)), (o + 3, inRange 0 d.test 2),
   (o + 4, limitInRange d), (o + 6, inRange 1 d.lookback 16), (o + 7, inRange 1 d.persist 255),
   (o + 8, inRange 1 d.clear 255), (o + 9, inRange 0 (u8 b (o + 9)) 1)]

/-- The tests of a line section, in the order of their offsets (Table 10-1, R151). -/
def lineTests (b : Bytes) : List FieldTest :=
  [(0x00, inRange 200 (halfTicks b) 20000),
   (0x02, decide (20 ≤ settleTicks b) && decide (settleTicks b + 40 ≤ halfTicks b)),
   (0x04, inRange 2 (gapTicks b) 500), (0x06, inRange 1 (driveDuty b) 255),
   (0x07, inRange 0 (u8 b 0x07) 1), (0x08, inRange 0 (u8 b 0x08) 1), (0x09, inRange 0 (u8 b 0x09) 1),
   (0x0A, inRange 0 (u8 b 0x0A) 2), (0x0B, inRange 0 (u8 b 0x0B) 1),
   (0x0C, inRange 1 (restartDelayMs b) 60000), (0x0E, inRange 1 (attemptLimit b) 7),
   (0x0F, inRange 0 (u8 b 0x0F) 3), (0x10, inRange 0 (u8 b 0x10) 1), (0x11, inRange 0 (u8 b 0x11) 1),
   (0x12, inRange 0 (rejectLimit b) 15), (0x13, inRange 8 (minWindowSamples b) 255),
   (0x14, inRange 1 (spikeLimit b) 8388607), (0x18, inRange 50 (silenceTicks b) 5000),
   (0x1A, inRange 1 (stillThreshold b) 8000), (0x1C, inRange 1 (minValidBands b) 6),
   (0x1D, inRange 0 (u8 b 0x1D) 1), (0x1E, inRange 0 (u8 b 0x1E) 1)]
  ++ (List.range 4).flatMap (zoneTests b)

/-- The tests of a calibration (Table 10-3). A weight has the whole range of its byte. -/
def calTests (b : Bytes) : List FieldTest :=
  (List.range 6).map (fun k => (2 * k, inRange 1 (gain b k) 65535)) ++ [(0x12, inRange 1 (area b) 65535)]

def windowTests (b : Bytes) (w : Nat) : List FieldTest :=
  let o := 0x20 * w
  let d := windowDef b w
  [(o, inRange 0 d.base 0xFFFFFF && decide (d.base % 2 ^ d.exponent = 0)), (o + 4, inRange 2 d.exponent 24),
   (o + 5, inRange 0 (u8 b (o + 5)) 1), (o + 6, inRange 0 (u8 b (o + 6)) 1),
   (o + 7, inRange 0 (u8 b (o + 7)) 1), (o + 8, inRange 0 (u8 b (o + 8)) 1),
   (o + 9, inRange 0 (u8 b (o + 9)) 1)]

/-- The tests of a window section (Table 10-4). A timeout has the whole range of its two bytes. -/
def windowsTests (b : Bytes) : List FieldTest := (List.range 8).flatMap (windowTests b)

/-- The end of a ring's region, exclusive (R78). -/
def ringEnd (b : Bytes) (r : Nat) : Nat := ringBase b r + ringCapacity b r * recordSize r

/-- Two enabled rings whose regions overlap (R151, R178). The rules do not say whether a region of no bytes, of an enabled
ring whose staged capacity is 0, overlaps a region that its base lies strictly inside: that it does, so that the
refusal names that base and not the capacity, is the model's choice (log 36). -/
def regionsOverlap (b : Bytes) (q r : Nat) : Bool :=
  ringEnable b q && ringEnable b r && decide (ringBase b q < ringEnd b r) && decide (ringBase b r < ringEnd b q)

def ringCapacities (r : Nat) : List Nat :=
  if r < 4 then [8, 16, 32, 64, 128, 256, 512] else [16, 32, 64, 128, 256]

/-- The tests named at a ring's base: a multiple of 16, the region of an enabled ring within ring space, no
overlap with a lower-coded ring (R151). The rules do not say whether a region of no bytes, of an enabled ring whose
staged capacity is 0, lies within ring space when its base does not: that it lies there exactly when its base does, so
that a base below 0x2000 is refused at the base and not at the capacity, is the model's choice (log 40). -/
def ringBaseOk (b : Bytes) (r : Nat) : Bool :=
  decide (ringBase b r % 16 = 0)
    && (!ringEnable b r || (decide (0x2000 ≤ ringBase b r) && decide (ringEnd b r ≤ 0x10000)))
    && (List.range r).all (fun q => !regionsOverlap b q r)

def ringTests (b : Bytes) (r : Nat) : List FieldTest :=
  [(16 * r, inRange 0 (u8 b (16 * r)) 1)]
  ++ (if r < 4 then [(16 * r + 1, inRange 1 (ringPriority b r) 7)] else [])
  ++ [(16 * r + 4, ringBaseOk b r), (16 * r + 6, (ringCapacities r).contains (ringCapacity b r))]

/-- The tests of a delivery section (Table 10-5). A batch count has the whole range of its byte. -/
def deliveryTests (b : Bytes) : List FieldTest :=
  (List.range 5).flatMap (ringTests b)
  ++ [(0x50, inRange 1 (attentionThreshold b) 7), (0x51, inRange 1 (patience b) 64)]
  ++ (List.range 20).map (fun i => (0x54 + i, inRange 0 (u8 b (0x54 + i)) 7))

/-- The offset of the first failing test; the tests stand in rising order of offset, so it is the lowest. -/
def firstFailure (ts : List FieldTest) : Option Nat :=
  (ts.find? (fun t => !t.2)).map (·.1)

/-- The field code of a field at an offset of its section (R151). -/
def fieldCode (off : Nat) : Half := BitVec.ofNat 16 (0x0100 + off)

end Sys2Proof.Machine
end

