-- ==== Sys2Proof/Machine/State.lean ====
section
/-! DEFINITION. The state of the FG4, block by block, as plain data, and its value after power-on reset. -/

namespace Sys2Proof.Machine

/-! ## Line Sequencer (R1) -/

/-- The line states of Table 1-1. -/
inductive LineState where
  | off | priming | running | stopping | shutdown
  deriving DecidableEq, Repr

/-- The phases of the excitation cycle, in their order (R3). -/
inductive Phase where
  | leadGap | pSettle | pWindow | midGap | nSettle | nWindow
  deriving DecidableEq, Repr

/-- How a bridge switch is driven; `modulated` stands for the whole of its 4-tick periods (R5). -/
inductive SwitchDrive where
  | off | on | modulated
  deriving DecidableEq, Repr

/-- The four switches of an H-bridge. -/
structure Bridge where
  lu : SwitchDrive
  ll : SwitchDrive
  ru : SwitchDrive
  rl : SwitchDrive
  deriving DecidableEq, Repr

/-- The shutdown stage; meaningful in SHUTDOWN only (R1). -/
inductive Stage where
  | allOffHold | clamped
  deriving DecidableEq, Repr

/-- The shutdown causes of Table 1-1. -/
inductive Cause where
  | coilHi | openCoil | trip | software
  deriving DecidableEq, Repr

/-- The causes present; OPEN_COIL is never held as present (R12, R14). -/
structure Causes where
  coilHi : Bool
  trip : Bool
  software : Bool
  deriving DecidableEq, Repr

/-- What a cycle start fixes of the timing settings (R7). -/
structure CycleLengths where
  half : Nat
  settle : Nat
  gap : Nat
  duty : Nat
  deriving DecidableEq, Repr

/-- A debounce in progress: the level the pin holds, and the increments of the millisecond counter still to
come (R15). -/
structure Debounce where
  target : Bool
  remaining : Nat
  deriving DecidableEq, Repr

/-- The Line Sequencer of one line (R1). -/
structure Sequencer where
  state : LineState
  phase : Option Phase
  phaseTimer : Option Nat
  lengths : Option CycleLengths
  producing : Bool
  bridge : Bridge
  stage : Stage
  holdTicks : Nat
  recorded : Option Cause
  causes : Causes
  profileSincePriming : Bool
  attempts : BitVec 3
  lockout : Bool
  restartTimer : Option Nat
  tripLevel : Bool
  debounce : Option Debounce
  deriving DecidableEq, Repr

/-! ## Sample Reconstruction Unit (R28) -/

/-- The link receiver's states (R29). -/
inductive RxState where
  | waitIdle | idle | receiving
  deriving DecidableEq, Repr

/-- The qualities of a band result (R42). -/
inductive Quality where
  | paired | singleP | singleN | clipped | spoiled | noData | noOffset
  deriving DecidableEq, Repr

/-- What the SRU fixes at a cycle start (R34). -/
structure CycleParams where
  allowSingle : Bool
  spikeLimit : Nat
  rejectLimit : Nat
  minSamples : Nat
  minValidBands : Nat
  gains : Vector Nat 6
  weights : Vector Nat 6
  area : Nat
  timestamp : Word
  cycleLength : Nat
  deriving DecidableEq, Repr

/-- The accumulators of one band in one window (R28). -/
structure Accum where
  seen : Nat
  accepted : Nat
  rejected : Nat
  sum : Int
  deriving DecidableEq, Repr

/-- The accumulators of one half's window, and the not-accumulating mark of a PRIMING cycle (R35). -/
structure WindowAcc where
  bands : Vector Accum 6
  muted : Bool
  deriving DecidableEq, Repr

/-- A half result of one band (R38). -/
inductive HalfResult where
  | good (mean : Int) | spoiled | noData
  deriving DecidableEq, Repr

/-- An electrode offset with its valid mark (R41). -/
structure Offset where
  value : Int
  valid : Bool
  deriving DecidableEq, Repr

/-- The Sample Reconstruction Unit of one line (R28). -/
structure Sru where
  rx : RxState
  rxBits : List Bool
  rxCount : Nat
  expect : Option (BitVec 4)
  silence : Option Nat
  episode : Bool
  params : Option CycleParams
  accP : WindowAcc
  accN : WindowAcc
  halvesP : Option (Vector HalfResult 6)
  offsets : Vector Offset 6
  sequence : Half
  forward : BitVec 64
  reverse : BitVec 64
  forwardRem : Nat
  reverseRem : Nat
  untotalized : Word
  frameErrors : Word
  frameGaps : Word
  silences : Word
  deriving DecidableEq, Repr

/-! ## Grid and Zone Unit (R52) -/

/-- The zone states of Table 3-1. -/
inductive ZoneState where
  | clear | pending | tripped | recovering
  deriving DecidableEq, Repr

/-- A zone record (R52). -/
structure ZoneRec where
  state : ZoneState
  count : Nat
  deriving DecidableEq, Repr

/-- A band's result in a profile or grid column; an invalid band has no velocity (R42, R55). -/
structure BandResult where
  quality : Quality
  velocity : Option Int
  deriving DecidableEq, Repr

/-- A column of the profile grid; the mean is absent when INVALID (R55). -/
structure Column where
  sequence : Half
  bands : Vector BandResult 6
  mean : Option Int
  deriving DecidableEq, Repr

/-- The attendance of the part (R171). -/
inductive Attendance where
  | attended | unattended
  deriving DecidableEq, Repr

/-- The Grid and Zone Unit of one line (R52). -/
structure Gzu where
  grid : List Column
  still : Vector (BitVec 8) 6
  zones : Vector ZoneRec 4
  lineCopy : LineState
  attCopy : Attendance
  lalm : Bool
  deriving DecidableEq, Repr

/-- The three units of one line slice. -/
structure Line where
  ls : Sequencer
  sru : Sru
  gzu : Gzu
  deriving DecidableEq, Repr

/-! ## Delivery Engine (R74) -/

/-- A profile as the GZU passes it on (R45, R53). -/
structure Profile where
  sequence : Half
  line : LineId
  allowSingle : Bool
  stoppingFinal : Bool
  anyClipped : Bool
  timestamp : Word
  bands : Vector BandResult 6
  mean : Option Int
  flow : Int
  accepted : Nat
  rejected : Nat
  zones : Vector ZoneState 4
  deriving DecidableEq, Repr

/-- A queued profile with its dropped_before (R75). -/
structure Staged where
  profile : Profile
  before : Word
  deriving DecidableEq, Repr

/-- The staging queue of a line, head first, and the line's delivery counts (R74). -/
structure Staging where
  queue : List Staged
  carried : Word
  delivered : Word
  dropped : Word
  faulted : Word
  deriving DecidableEq, Repr

/-- A ring descriptor (R74). -/
structure RingDesc where
  armed : Bool
  base : Nat
  capacity : Nat
  faulted : Bool
  w : Half
  rd : Half
  resetOut : Bool
  priority : Nat
  batch : Nat
  countdown : Nat
  deriving DecidableEq, Repr

/-- The marks of a status page (R74). -/
structure PageMark where
  dirty : Bool
  faulted : Bool
  deriving DecidableEq, Repr

/-- The two fresh words of the part status page (R90). -/
inductive FreshWord where
  | milliseconds | activity
  deriving DecidableEq, Repr

/-- An accepted delivery section that waits to take effect (R79, R156). -/
structure Arming where
  bytes : Bytes
  tag : Byte
  taken : Byte
  deriving DecidableEq, Repr

/-- The in-flight marker with the content fixed at the start, and the number of its words that have completed.
A record's slot starts at gauge area offset `slot`; a page's words carry their gauge area offsets (R82, R87). -/
inductive Flight where
  | record (ring : RingId) (slot : Nat) (words : List Word) (done : Nat)
  | page (page : PageId) (words : List (Nat × Word)) (done : Nat)
  deriving DecidableEq, Repr

/-- The Delivery Engine (R74). `fresh` lists the refreshes asked for and not yet issued, oldest first. -/
structure De where
  staging : Vector Staging 4
  rings : Vector RingDesc 5
  pages : Vector PageMark 5
  statusDirty : Bool
  fresh : List FreshWord
  arming : Option Arming
  flight : Option Flight
  lastPage : Option PageId
  deriving DecidableEq, Repr

/-! ## Notice Unit (R98) -/

/-- The twenty notice kinds (R100). -/
inductive Kind where
  | zoneTrip | zoneClear | lineShutdown | lineRestarted | restartLockout | sampleLoss | frameGap | profileDrop
  | batch | windowExpired | unattended | attended | guardHit | ringIndex | configApplied | loadDone | loadFault
  | deliveryFault | busReset | freezeSet
  deriving DecidableEq, Repr

/-- A notice source (R98). -/
inductive Source where
  | line (l : LineId) | part
  deriving DecidableEq, Repr

/-- An entry: the offer or a backlog entry (R98). -/
structure Entry where
  kind : Kind
  source : Source
  level : Nat
  count : Nat
  detail : Half
  first : Word
  last : Word
  deriving DecidableEq, Repr

/-- The late part of a backlog entry in flight (R108). -/
structure Late where
  count : Nat
  detail : Half
  level : Nat
  first : Word
  last : Word
  deriving DecidableEq, Repr

/-- A backlog entry with its in-flight mark and late part (R98, R106, R108). -/
structure BacklogEntry where
  entry : Entry
  inFlight : Bool
  late : Option Late
  deriving DecidableEq, Repr

/-- The offer, waiting or in flight (R103, R104). -/
structure Offer where
  entry : Entry
  inFlight : Bool
  deriving DecidableEq, Repr

/-- The Notice Unit (R98). The level table and the attention threshold are read from the live delivery section. -/
structure Nu where
  ms : Word
  offer : Option Offer
  backlog : List BacklogEntry
  outstanding : List Nat
  sequence : Half
  attn : Bool
  deriving DecidableEq, Repr

/-! ## Memory Path (R116) -/

/-- A captured section (R142). -/
inductive SectionId where
  | line (l : LineId) | cal (l : LineId) | windows | delivery
  deriving DecidableEq, Repr

/-- The capture target of a forwarded write (R119). -/
inductive CaptureTarget where
  | none | captured (s : SectionId) | commandSlot | readIndex (r : RingId)
  deriving DecidableEq, Repr

/-- The stage of an upstream request (R116). -/
inductive RequestStage where
  | held | refreshing | waiting | onPort
  deriving DecidableEq, Repr

/-- One access of a bus port: address, direction, byte enables, write data. -/
structure Access where
  addr : Addr
  write : Bool
  be : BitVec 4
  data : Word
  deriving DecidableEq, Repr

/-- The upstream request in hand. Its disposition is FORWARD, since a suppressed write stands in no stage;
`refreshed` is the activity flags that its refresh wrote with OK (R116, R119, R128). -/
structure Request where
  access : Access
  target : CaptureTarget
  fresh : Option FreshWord
  stage : RequestStage
  refreshed : Option Byte
  deriving DecidableEq, Repr

/-- What an access of the DE is for. `overtaken` marks an index reset write whose ring an arming has since
unarmed or reset again (R81). -/
inductive DeKind where
  | recordWord | wWord | pageWord | commandStatus
  | refresh (word : FreshWord) (value : Word)
  | indexReset (ring : RingId) (overtaken : Bool)
  | loadRead (offset : Nat)
  deriving DecidableEq, Repr

/-- The downstream port (R116). A host access is kept, or discarded by bus reset (R131). -/
inductive Port where
  | free
  | host (kept : Bool) (access : Access)
  | de (kind : DeKind) (access : Access)
  deriving DecidableEq, Repr

/-- A completion given upstream: UERR, and UD for a read (R117). -/
structure UpCompletion where
  err : Bool
  data : Option Word
  deriving DecidableEq, Repr

/-- The Memory Path (R116). `resetCounted` is clear for a BRST assertion found at PORn release, which is not
counted (R132); `completion` is the upstream completion given last, until the next request (R117). -/
structure Mp where
  request : Option Request
  port : Port
  passed : Nat
  inReset : Bool
  resetCounted : Bool
  resets : Word
  completion : Option UpCompletion
  deriving DecidableEq, Repr

/-! ## Watch Unit (R164, R138) -/

/-- The window states (R164). -/
inductive WindowState where
  | idle | watching | expired
  deriving DecidableEq, Repr

/-- A watch window's state (R164). -/
structure Window where
  state : WindowState
  timer : Option Nat
  active : Bool
  matched : Bool
  guardHits : Half
  deriving DecidableEq, Repr

/-- The Watch Unit: windows, attendance, owned hit counts of classes 8 to 13, gauge area base straps
(R164, R138, R134). -/
structure Wu where
  windows : Vector Window 8
  attendance : Attendance
  ownedHits : Vector Half 6
  base : Byte
  deriving DecidableEq, Repr

/-! ## Command Unit (R147) -/

/-- The CU states (R147). -/
inductive CuState where
  | init | idle | loading
  deriving DecidableEq, Repr

/-- The results of Table 8-2. -/
inductive CmdResult where
  | accepted | pending | applied | loaded | loadFailed
  | refusedBusy | refusedRange | refusedState | refusedFrozen | refusedUnknown
  deriving DecidableEq, Repr

/-- A pending copy with its pending mark (R147). -/
structure Pending where
  bytes : Bytes
  tag : Byte
  taken : Byte
  deriving DecidableEq, Repr

/-- The copies of a line's section and calibration, and their live tags (R142, R147). -/
structure LineCopies where
  stagedLine : Bytes
  pendingLine : Option Pending
  liveLine : Bytes
  lineTag : Byte
  stagedCal : Bytes
  pendingCal : Option Pending
  liveCal : Bytes
  calTag : Byte
  deriving DecidableEq, Repr

/-- The last-command record (R147). -/
structure CmdRecord where
  tag : Byte
  code : Byte
  result : CmdResult
  detail : Half
  taken : Byte
  deriving DecidableEq, Repr

/-- What the command of the last-command record made (R147, R149). -/
inductive Owner where
  | none | pendingLine (l : LineId) | pendingCal (l : LineId) | arming | load
  deriving DecidableEq, Repr

/-- A load in progress: its section code, the gauge area offset its list starts at, the offsets still to be
read, and the load buffer as bytes from that start (R159). -/
structure Load where
  code : Nat
  start : Nat
  left : List Nat
  buffer : List Byte
  deriving DecidableEq, Repr

/-- The Command Unit (R147). -/
structure Cu where
  state : CuState
  ready : Bool
  lines : Vector LineCopies 4
  stagedWindows : Bytes
  liveWindows : Bytes
  windowTag : Byte
  stagedDelivery : Bytes
  liveDelivery : Bytes
  deliveryTag : Byte
  frozen : Bool
  record : CmdRecord
  owner : Owner
  load : Option Load
  loadFaults : Half
  initLeft : List PageId
  deriving DecidableEq, Repr

/-! ## The part -/

/-- The input pins whose level the part looks at later than at the event that changes them. -/
structure Pins where
  por : Bool
  brst : Bool
  coilHi : Vector Bool 4
  coilLo : Vector Bool 4
  trip : Vector Bool 4
  deriving DecidableEq, Repr

/-- The tick counter, and the ticks since the millisecond counter last advanced (spec/00_scope.md, Time). -/
structure Clock where
  tick : Word
  sinceMs : Nat
  deriving DecidableEq, Repr

/-- The state of the part: its blocks, its pins and clock, the counter of free values used (log 27), the mark that
the port, FREE by the end of a host access, stands for the request presented with that end (the model's own, log 38),
and the queue of commands that wait, first in first out. -/
structure State where
  lines : Vector Line 4
  cu : Cu
  de : De
  nu : Nu
  mp : Mp
  wu : Wu
  pins : Pins
  clock : Clock
  free : Nat
  awaited : Bool
  pending : List Instr
  deriving DecidableEq, Repr

/-- Nothing in the manual stops the part with a fault: every command has an effect in every state, so there is
no fault to raise. -/
inductive Fault where
  deriving DecidableEq, Repr

/-- Why a command has no meaning. -/
inductive Refusal where
  /-- Raised by `exec` alone, for a command whose meaning is not written; no command is so refused. Safe. -/
  | notModelled (mnemonic : String)
  deriving DecidableEq, Repr

/-! ## Reset (R1, R28, R52, R74, R98, R116, R147, R164) -/

def Bridge.allOff : Bridge := { lu := .off, ll := .off, ru := .off, rl := .off }
def Causes.empty : Causes := { coilHi := false, trip := false, software := false }
def Accum.empty : Accum := { seen := 0, accepted := 0, rejected := 0, sum := 0 }
/-- Accumulators with nothing in them. They are so at PORn release and after a cycle abandoned (R28, R39), and there the
not-accumulating mark of R35 is clear: R28 lists no value for the mark and R39 names none, so that is the model's
choice (log 39). A window that opens sets the mark anew. -/
def WindowAcc.empty : WindowAcc := { bands := Vector.replicate 6 .empty, muted := false }

/-- The LS at PORn release, the TRIPn level sampled then being `trip` (R1, R27). -/
def Sequencer.reset (trip : Bool) : Sequencer :=
  { state := .off, phase := none, phaseTimer := none, lengths := none, producing := false, bridge := .allOff,
    stage := .clamped, holdTicks := 0, recorded := none, causes := .empty, profileSincePriming := false,
    attempts := 0, lockout := false, restartTimer := none, tripLevel := trip, debounce := none }

/-- The SRU at PORn release (R28). -/
def Sru.reset : Sru :=
  { rx := .waitIdle, rxBits := [], rxCount := 0, expect := none, silence := none, episode := false,
    params := none, accP := .empty, accN := .empty, halvesP := none,
    offsets := Vector.replicate 6 { value := 0, valid := false }, sequence := 0, forward := 0, reverse := 0,
    forwardRem := 0, reverseRem := 0, untotalized := 0, frameErrors := 0, frameGaps := 0, silences := 0 }

/-- The GZU at PORn release (R52, R72). -/
def Gzu.reset : Gzu :=
  { grid := [], still := Vector.replicate 6 0, zones := Vector.replicate 4 { state := .clear, count := 0 },
    lineCopy := .off, attCopy := .attended, lalm := false }

def Line.reset (trip : Bool) : Line := { ls := .reset trip, sru := .reset, gzu := .reset }

def Staging.reset : Staging := { queue := [], carried := 0, delivered := 0, dropped := 0, faulted := 0 }

/-- An unarmed ring (R74); the items that have a meaning only while it is armed are 0 (log 19). -/
def RingDesc.unarmed : RingDesc :=
  { armed := false, base := 0, capacity := 0, faulted := false, w := 0, rd := 0, resetOut := false,
    priority := 0, batch := 0, countdown := 0 }

/-- The DE at PORn release (R74, R97). -/
def De.reset : De :=
  { staging := Vector.replicate 4 .reset, rings := Vector.replicate 5 .unarmed,
    pages := Vector.replicate 5 { dirty := true, faulted := false }, statusDirty := true, fresh := [],
    arming := none, flight := none, lastPage := none }

/-- The NU at PORn release (R98, R115). -/
def Nu.reset : Nu :=
  { ms := 0, offer := none, backlog := [], outstanding := [], sequence := 0, attn := false }

/-- The MP at PORn release, BRST then being `brst` (R116, R133). -/
def Mp.reset (brst : Bool) : Mp :=
  { request := none, port := .free, passed := 0, inReset := brst, resetCounted := false, resets := 0,
    completion := none }

def Window.reset : Window := { state := .idle, timer := none, active := false, matched := false, guardHits := 0 }

/-- The WU at PORn release, the straps then being `base` (R164, R145, R134). -/
def Wu.reset (base : Byte) : Wu :=
  { windows := Vector.replicate 8 .reset, attendance := .attended, ownedHits := Vector.replicate 6 0, base := base }

def LineCopies.reset : LineCopies :=
  { stagedLine := defaultLine, pendingLine := none, liveLine := defaultLine, lineTag := 0,
    stagedCal := defaultCal, pendingCal := none, liveCal := defaultCal, calTag := 0 }

/-- The CU at PORn release (R147, R143). -/
def Cu.reset : Cu :=
  { state := .init, ready := false, lines := Vector.replicate 4 .reset, stagedWindows := defaultWindows,
    liveWindows := defaultWindows, windowTag := 0, stagedDelivery := defaultDelivery,
    liveDelivery := defaultDelivery, deliveryTag := 0, frozen := false,
    record := { tag := 0, code := 0, result := .accepted, detail := 0, taken := 0 }, owner := .none,
    load := none, loadFaults := 0, initLeft := [0, 1, 2, 3, 4] }

/-- The part at PORn release, from the pins, the straps, the free-value counter and the waiting commands. -/
def State.powerOn (pins : Pins) (base : Byte) (free : Nat) (pending : List Instr) : State :=
  { lines := Vector.ofFn fun l => .reset pins.trip[l], cu := .reset, de := .reset, nu := .reset,
    mp := .reset pins.brst, wu := .reset base, pins := pins, clock := { tick := 0, sinceMs := 0 },
    free := free, awaited := false, pending := pending }

/-- The pin levels of State.reset: PORn released, BRST and the coil comparators deasserted, TRIPn high, which is
inactive at the default polarity (DESIGN CHOICE, log 12). -/
def Pins.reset : Pins :=
  { por := false, brst := false, coilHi := Vector.replicate 4 false, coilLo := Vector.replicate 4 false,
    trip := Vector.replicate 4 true }

/-- The part right after power-on reset, with straps 0 (DESIGN CHOICE, log 12) and no command waiting. -/
def State.reset : State := State.powerOn Pins.reset 0 0 []

end Sys2Proof.Machine
end

