-- ==== Sys2Proof/Machine/Ops.lean ====
section
/-! DEFINITION. The named reads and writes of State, saturating counts, dirty marks, and codes of tables. -/

namespace Sys2Proof.Machine

/-! ## Counts -/

/-- Add n, staying at the largest value of the width (spec/00_scope.md: "saturates"). -/
def satAdd {w : Nat} (x : BitVec w) (n : Nat) : BitVec w :=
  if x.toNat + n < 2 ^ w then x + BitVec.ofNat w n else BitVec.allOnes w

/-- Add one, saturating. -/
def satInc {w : Nat} (x : BitVec w) : BitVec w := satAdd x 1

/-- A count that stays at 255 (R98, R105). -/
def satCount (n : Nat) : Nat := min n 255

/-- Replace one element of a fixed row of like things by a function of it. -/
def modAt {α : Type} {n : Nat} (v : Vector α n) (i : Fin n) (f : α → α) : Vector α n := v.set i (f v[i])

/-! ## Lines -/

def State.modLine (s : State) (l : LineId) (f : Line → Line) : State := { s with lines := modAt s.lines l f }
def State.ls (s : State) (l : LineId) : Sequencer := s.lines[l].ls
def State.sru (s : State) (l : LineId) : Sru := s.lines[l].sru
def State.gzu (s : State) (l : LineId) : Gzu := s.lines[l].gzu
def State.modLs (s : State) (l : LineId) (f : Sequencer → Sequencer) : State :=
  s.modLine l fun x => { x with ls := f x.ls }
def State.modSru (s : State) (l : LineId) (f : Sru → Sru) : State :=
  s.modLine l fun x => { x with sru := f x.sru }
def State.modGzu (s : State) (l : LineId) (f : Gzu → Gzu) : State :=
  s.modLine l fun x => { x with gzu := f x.gzu }

/-! ## Command Unit -/

def State.modCu (s : State) (f : Cu → Cu) : State := { s with cu := f s.cu }
def State.copies (s : State) (l : LineId) : LineCopies := s.cu.lines[l]
def State.modCopies (s : State) (l : LineId) (f : LineCopies → LineCopies) : State :=
  s.modCu fun c => { c with lines := modAt c.lines l f }
/-- The live line section of a line (R142). -/
def State.liveLine (s : State) (l : LineId) : Bytes := (s.copies l).liveLine
/-- The live calibration of a line (R142). -/
def State.liveCal (s : State) (l : LineId) : Bytes := (s.copies l).liveCal
/-- The live delivery section (R142). -/
def State.liveDelivery (s : State) : Bytes := s.cu.liveDelivery
/-- The live definition of a watch window (R164). -/
def State.windowDef (s : State) (w : WindowId) : WindowDef := Machine.windowDef s.cu.liveWindows w.val

/-! ## Delivery Engine -/

def State.modDe (s : State) (f : De → De) : State := { s with de := f s.de }
def State.ring (s : State) (r : RingId) : RingDesc := s.de.rings[r]
def State.modRing (s : State) (r : RingId) (f : RingDesc → RingDesc) : State :=
  s.modDe fun d => { d with rings := modAt d.rings r f }
def State.staging (s : State) (l : LineId) : Staging := s.de.staging[l]
def State.modStaging (s : State) (l : LineId) (f : Staging → Staging) : State :=
  s.modDe fun d => { d with staging := modAt d.staging l f }
def State.page (s : State) (p : PageId) : PageMark := s.de.pages[p]
def State.modPage (s : State) (p : PageId) (f : PageMark → PageMark) : State :=
  s.modDe fun d => { d with pages := modAt d.pages p f }

/-- The part status page. -/
def partPage : PageId := 4
/-- The line status page of a line. -/
def linePage (l : LineId) : PageId := l.castSucc
/-- The notice ring N. -/
def noticeRing : RingId := 4
/-- The profile ring of a line. -/
def profileRing (l : LineId) : RingId := l.castSucc
/-- The line whose profile ring a ring is, or none for N (R74). -/
def ringLine (r : RingId) : Option LineId := if h : r.val < 4 then some ⟨r.val, h⟩ else none

/-- Mark a status page dirty (R87: marking a dirty page again has no further effect). -/
def State.markPage (s : State) (p : PageId) : State := s.modPage p fun m => { m with dirty := true }
def State.markLine (s : State) (l : LineId) : State := s.markPage (linePage l)
def State.markPart (s : State) : State := s.markPage partPage
/-- Mark the command status dirty (R89). -/
def State.markStatus (s : State) : State := s.modDe fun d => { d with statusDirty := true }

/-- W − Rd mod 65,536 (R84). -/
def RingDesc.fill (d : RingDesc) : Nat := (d.w - d.rd).toNat
/-- Capacity minus fill (R84). -/
def RingDesc.space (d : RingDesc) : Nat := d.capacity - d.fill
/-- A ring can take a record: armed, not FAULTED, no index reset outstanding, space (R82). -/
def RingDesc.canTake (d : RingDesc) : Bool :=
  d.armed && !d.faulted && !d.resetOut && decide (0 < d.space)

/-! ## Notice Unit, Memory Path, Watch Unit -/

def State.modNu (s : State) (f : Nu → Nu) : State := { s with nu := f s.nu }
def State.modMp (s : State) (f : Mp → Mp) : State := { s with mp := f s.mp }
def State.modWu (s : State) (f : Wu → Wu) : State := { s with wu := f s.wu }
def State.window (s : State) (w : WindowId) : Window := s.wu.windows[w]
def State.modWindow (s : State) (w : WindowId) (f : Window → Window) : State :=
  s.modWu fun u => { u with windows := modAt u.windows w f }

/-- The address of a gauge area offset: base straps × 0x10000 plus the offset (R134). -/
def State.areaAddr (s : State) (off : Nat) : Addr := BitVec.ofNat 24 (s.wu.base.toNat * 65536 + off)

/-- Take the next free value: which of two events is first where the manual leaves it open (log 9, 10). -/
def State.eitherFirst (s : State) : Bool := Config.eitherFirst s.free
def State.usedFree (s : State) : State := { s with free := s.free + 1 }

/-! ## Codes -/

/-- Table 1-1. -/
def LineState.code : LineState → Nat
  | .off => 0 | .priming => 1 | .running => 2 | .stopping => 3 | .shutdown => 4

/-- Table 1-1. -/
def Cause.code : Cause → Nat
  | .coilHi => 1 | .openCoil => 2 | .trip => 3 | .software => 4

/-- The code of a recorded cause, 0 for none (Table 1-1). -/
def causeCode : Option Cause → Nat
  | none => 0
  | some c => c.code

/-- R42. -/
def Quality.code : Quality → Nat
  | .paired => 0 | .singleP => 1 | .singleN => 2 | .clipped => 3 | .spoiled => 4 | .noData => 5 | .noOffset => 6

/-- The valid qualities (R42). -/
def Quality.valid : Quality → Bool
  | .paired | .singleP | .singleN | .clipped => true
  | .spoiled | .noData | .noOffset => false

/-- Table 3-1. -/
def ZoneState.code : ZoneState → Nat
  | .clear => 0 | .pending => 1 | .tripped => 2 | .recovering => 3

/-- R100. -/
def Kind.code : Kind → Nat
  | .zoneTrip => 1 | .zoneClear => 2 | .lineShutdown => 3 | .lineRestarted => 4 | .restartLockout => 5
  | .sampleLoss => 6 | .frameGap => 7 | .profileDrop => 8 | .batch => 9 | .windowExpired => 10
  | .unattended => 11 | .attended => 12 | .guardHit => 13 | .ringIndex => 14 | .configApplied => 15
  | .loadDone => 16 | .loadFault => 17 | .deliveryFault => 18 | .busReset => 19 | .freezeSet => 20

/-- R100: L0 to L3 are 0 to 3, PART is 4. -/
def Source.code : Source → Nat
  | .line l => l.val
  | .part => 4

/-- R147. -/
def CuState.code : CuState → Nat
  | .init => 0 | .idle => 1 | .loading => 2

/-- Table 8-2. -/
def CmdResult.code : CmdResult → Nat
  | .accepted => 0 | .pending => 1 | .applied => 2 | .loaded => 3 | .loadFailed => 4
  | .refusedBusy => 8 | .refusedRange => 9 | .refusedState => 10 | .refusedFrozen => 11 | .refusedUnknown => 12

/-- R164. -/
def WindowState.code : WindowState → Nat
  | .idle => 0 | .watching => 1 | .expired => 2

/-- R164. -/
def Attendance.code : Attendance → Nat
  | .attended => 0 | .unattended => 1

/-- A driven line: PRIMING, RUNNING or STOPPING (R2). -/
def LineState.driven : LineState → Bool
  | .priming | .running | .stopping => true
  | .off | .shutdown => false

end Sys2Proof.Machine
end

