-- ==== Sys2Proof/Machine/Flags.lean ====
section
/-! DEFINITION. The part's derived levels: ATTN (R112), LALM (R68), the debounced TRIP state (R15), the attendance
(R171). Each is computed from its terms and re-evaluated where the rules say. -/

namespace Sys2Proof.Machine

/-! ## ATTN (R112, R113) -/

def Nu.outstandingTerm (n : Nu) (threshold : Nat) : Bool := n.outstanding.any fun lv => decide (threshold ≤ lv)
/-- The levels a backlog entry stands for: its own, and its late part's while it is in flight (log 28). -/
def BacklogEntry.levels (b : BacklogEntry) : List Nat :=
  match b.late with
  | none => [b.entry.level]
  | some t => [b.entry.level, t.level]

def Nu.backlogTerm (n : Nu) (threshold : Nat) : Bool :=
  (match n.offer with | some o => decide (threshold ≤ o.entry.level) | none => false)
    || n.backlog.any fun b => b.levels.any fun lv => decide (threshold ≤ lv)
def State.faultTerm (s : State) : Bool := (s.ring noticeRing).faulted

/-- The three terms of R112 together. -/
def State.attnTerms (s : State) : Bool :=
  let t := attentionThreshold s.liveDelivery
  s.nu.outstandingTerm t || s.nu.backlogTerm t || s.faultTerm

/-- Re-evaluate ATTN: its terms, held deasserted while BRST is asserted (R112, R113). -/
def State.reevalAttn (s : State) : State :=
  s.modNu fun n => { n with attn := !s.pins.brst && s.attnTerms }

/-! ## Debounced TRIP state (R15) -/

/-- The debounced TRIP state of a line is active: its level equals the live active level. -/
def State.tripActive (s : State) (l : LineId) : Bool :=
  (s.ls l).tripLevel == tripActiveHigh (s.liveLine l)

/-- COIL_HI is enabled and its condition holds (R12, R13). -/
def State.coilHiHolds (s : State) (l : LineId) : Bool := coilHiEnable (s.liveLine l) && s.pins.coilHi[l]
/-- TRIP is enabled and its condition holds (R12, R15). -/
def State.tripHolds (s : State) (l : LineId) : Bool := tripEnable (s.liveLine l) && s.tripActive l

/-! ## LALM (R68) -/

def ZoneState.alarming : ZoneState → Bool
  | .tripped | .recovering => true
  | .clear | .pending => false

/-- The zone term: an enabled alarm zone is TRIPPED or RECOVERING (R68). -/
def State.zoneTerm (s : State) (l : LineId) : Bool :=
  (List.finRange 4).any fun z =>
    let d := zoneDef (s.liveLine l) z.val
    d.enable && d.alarm && (s.gzu l).zones[z].state.alarming

/-- The shutdown term (R68). -/
def State.shutdownTerm (s : State) (l : LineId) : Bool :=
  (s.gzu l).lineCopy == .shutdown && alarmOnShutdown (s.liveLine l)

/-- The attendance term (R68). -/
def State.attendanceTerm (s : State) (l : LineId) : Bool :=
  (s.gzu l).attCopy == .unattended && alarmOnUnattended (s.liveLine l)

/-- LALMn from its three terms (R68). -/
def State.lalmTerms (s : State) (l : LineId) : Bool :=
  s.zoneTerm l || s.shutdownTerm l || s.attendanceTerm l

/-- Re-evaluate LALMn (R69). -/
def State.reevalLalm (s : State) (l : LineId) : State :=
  s.modGzu l fun g => { g with lalm := s.lalmTerms l }

/-! ## Attendance (R171) -/

/-- A window holds the part UNATTENDED: enabled, action UNATTENDED, EXPIRED. -/
def State.holdsUnattended (s : State) (w : WindowId) : Bool :=
  (s.windowDef w).enable && (s.windowDef w).unattendedAction && (s.window w).state == .expired

/-- The windows that hold the part UNATTENDED, lowest first. -/
def State.unattendedWindows (s : State) : List WindowId :=
  (List.finRange 8).filter fun w => s.holdsUnattended w

/-- The attendance as R171 derives it. -/
def State.derivedAttendance (s : State) : Attendance :=
  if s.unattendedWindows.isEmpty then .attended else .unattended

end Sys2Proof.Machine
end

