-- ==== Sys2Proof/Machine/Formats.lean ====
section
/-! DEFINITION. What the part writes into memory, byte by byte: status pages, records, notice entries, the command
status word (spec/10), and which pages a change of the state makes dirty. -/

namespace Sys2Proof.Machine

/-! ## Fields -/

/-- A one-byte field. -/
def byteOf (n : Nat) : Byte := BitVec.ofNat 8 n
/-- The bytes of an eight-byte field, lowest first. -/
def le64 (n : Nat) : List Byte := le32 n ++ le32 (n / 4294967296)
/-- A signed two-byte field in two's complement. -/
def leInt16 (i : Int) : List Byte := le16 (BitVec.ofInt 16 i).toNat
/-- A signed four-byte field in two's complement. -/
def leInt32 (i : Int) : List Byte := le32 (BitVec.ofInt 32 i).toNat
/-- Bytes that hold no field are written as 0 (R180). -/
def zeroBytes (n : Nat) : List Byte := List.replicate n 0

/-- A number from flags, the first flag in bit 0. -/
def bitsOf : List Bool → Nat
  | [] => 0
  | b :: rest => b.toNat + 2 * bitsOf rest

/-- One word from four bytes, the lowest address first. -/
def wordOf (a b c d : Byte) : Word :=
  BitVec.ofNat 32 (a.toNat + 256 * b.toNat + 65536 * c.toNat + 16777216 * d.toNat)

/-- Bytes as words, the lowest address first. -/
def wordsOf : List Byte → List Word
  | a :: b :: c :: d :: rest => wordOf a b c d :: wordsOf rest
  | _ => []

/-! ## Line status page (Tables 10-7 and 10-8) -/

/-- A grid column, 24 bytes (Table 10-8); an absent velocity or mean is shown as 0. -/
def columnBytes (c : Column) : List Byte :=
  le16 c.sequence.toNat ++ leInt16 (c.mean.getD 0)
    ++ c.bands.toList.flatMap (fun b => leInt16 (b.velocity.getD 0))
    ++ c.bands.toList.map (fun b => byteOf b.quality.code)
    ++ [byteOf c.mean.isSome.toNat, 0]

/-- The causes present as a byte: bit code − 1 (Table 10-7). -/
def Causes.byte (c : Causes) : Nat := bitsOf [c.coilHi, false, c.trip, c.software]

/-- A pending tag, 0 when absent (Table 10-7). -/
def pendingTag (p : Option Pending) : Byte :=
  match p with
  | some x => x.tag
  | none => 0

/-- The bytes of the line status page of a line (Table 10-7). -/
def State.lineBytes (s : State) (l : LineId) : List Byte :=
  let ls := s.ls l
  let sru := s.sru l
  let gzu := s.gzu l
  let cop := s.copies l
  let stg := s.staging l
  [byteOf ls.state.code, byteOf (causeCode ls.recorded), byteOf ls.causes.byte, byteOf ls.attempts.toNat,
   byteOf ls.lockout.toNat, byteOf (s.tripActive l).toNat, byteOf ls.restartTimer.isSome.toNat,
   byteOf sru.episode.toNat, cop.lineTag, cop.calTag,
   byteOf (bitsOf [cop.pendingLine.isSome, cop.pendingCal.isSome]), pendingTag cop.pendingLine,
   pendingTag cop.pendingCal, byteOf gzu.lalm.toNat,
   byteOf (bitsOf [s.zoneTerm l, s.shutdownTerm l, s.attendanceTerm l]), byteOf stg.queue.length]
  ++ le32 sru.frameErrors.toNat ++ le32 sru.frameGaps.toNat ++ le32 sru.silences.toNat
  ++ le32 sru.untotalized.toNat ++ le64 sru.forward.toNat ++ le64 sru.reverse.toNat ++ le16 sru.sequence.toNat
  ++ [byteOf (bitsOf (sru.offsets.toList.map (·.valid))), byteOf gzu.grid.length]
  ++ gzu.still.toList ++ zeroBytes 2
  ++ gzu.zones.toList.flatMap (fun z => [byteOf z.state.code, byteOf z.count])
  ++ le32 stg.carried.toNat ++ le32 stg.delivered.toNat ++ le32 stg.dropped.toNat ++ le32 stg.faulted.toNat
  ++ sru.offsets.toList.flatMap (fun o => leInt32 o.value) ++ zeroBytes 20
  ++ gzu.grid.flatMap columnBytes ++ zeroBytes (24 * (16 - gzu.grid.length))

/-! ## Part status page (Table 10-6) -/

/-- The highest level of the backlog (R114; log 28). -/
def Nu.highestBacklog (n : Nu) : Nat := (n.backlog.flatMap (·.levels)).foldr max 0
/-- The highest level of the outstanding list (R114). -/
def Nu.highestOutstanding (n : Nu) : Nat := n.outstanding.foldr max 0

/-- The standing of a ring as the part status page shows it (R88). -/
def State.ringBytes (s : State) (r : RingId) : List Byte :=
  let d := s.ring r
  [byteOf (bitsOf [ringEnable s.liveDelivery r.val, d.armed, d.faulted]), 0]
    ++ le16 d.w.toNat ++ le16 d.rd.toNat ++ zeroBytes 2

/-- The last-command record as the part status page copies it (R179). -/
def CmdRecord.bytes (r : CmdRecord) : List Byte :=
  [r.tag, r.code, byteOf r.result.code, r.taken] ++ le16 r.detail.toNat

/-- The section code of the load in progress, 0xFF when none (Table 10-6). -/
def Cu.loadByte (c : Cu) : Byte :=
  match c.load with
  | some x => byteOf x.code
  | none => 0xFF

/-- The bytes of the part status page from 0x08 on; the two fresh words before them are written apart (R87). -/
def State.partBytes (s : State) : List Byte :=
  let t := attentionThreshold s.liveDelivery
  [byteOf s.cu.state.code, byteOf s.cu.ready.toNat, byteOf s.cu.frozen.toNat, s.cu.loadByte]
  ++ le16 s.cu.loadFaults.toNat ++ [s.cu.windowTag, s.cu.deliveryTag] ++ le32 s.mp.resets.toNat
  ++ [byteOf s.wu.attendance.code, byteOf s.nu.attn.toNat,
      byteOf (bitsOf [s.nu.outstandingTerm t, s.nu.backlogTerm t, s.faultTerm]), byteOf t,
      byteOf s.nu.backlog.length, byteOf s.nu.highestBacklog, byteOf s.nu.highestOutstanding,
      byteOf (bitsOf (false :: (List.finRange 4).map fun l => (s.page (linePage l)).faulted))]
  ++ le16 s.nu.sequence.toNat ++ zeroBytes 2
  ++ s.wu.windows.toList.map (fun w => byteOf w.state.code)
  ++ s.wu.windows.toList.flatMap (fun w => le16 w.guardHits.toNat)
  ++ s.wu.ownedHits.toList.flatMap (fun h => le16 h.toNat)
  ++ (List.range 20).map (fun i => byteOf (kindLevel s.liveDelivery (i + 1)))
  ++ s.cu.record.bytes ++ zeroBytes 2
  ++ (List.finRange 5).flatMap (fun r => s.ringBytes r) ++ zeroBytes 120

/-- The bytes of a status page, the fresh words left out (R87). -/
def State.pageBytes (s : State) (p : PageId) : List Byte :=
  match ringLine p with
  | some l => s.lineBytes l
  | none => s.partBytes

/-- The gauge area offset of the first byte of `pageBytes` (Tables 10-6 and 10-7). -/
def pageStart (p : PageId) : Nat :=
  match ringLine p with
  | some l => 0x1000 + 512 * l.val
  | none => 0x0008

/-- Words with their offsets, from an offset on. -/
def placeWords (start : Nat) (ws : List Word) : List (Nat × Word) :=
  ws.zipIdx.map fun x => (start + 4 * x.2, x.1)

/-! ## Fresh words (R90, R180) -/

/-- The gauge area offset of a fresh word (Table 10-6). -/
def FreshWord.offset : FreshWord → Nat
  | .milliseconds => 0x0000
  | .activity => 0x0004

/-- The activity flags as a byte, bit n for Wn (R167). -/
def State.activityFlags (s : State) : Byte := byteOf (bitsOf (s.wu.windows.toList.map (·.active)))

/-- The value a refresh of a fresh word writes (R90, R180). -/
def State.freshValue (s : State) (w : FreshWord) : Word :=
  match w with
  | .milliseconds => s.nu.ms
  | .activity => BitVec.ofNat 32 s.activityFlags.toNat

/-- The snapshot of a status page: its words with their offsets. The first write of the part status page carries
the two fresh words as well (R87, R96; log 16). -/
def State.pageSnapshot (s : State) (p : PageId) (withFresh : Bool) : List (Nat × Word) :=
  (if withFresh then
    [(FreshWord.milliseconds.offset, s.freshValue .milliseconds),
     (FreshWord.activity.offset, s.freshValue .activity)]
   else []) ++ placeWords (pageStart p) (wordsOf (s.pageBytes p))

/-! ## Records (Tables 10-9 and 10-10) -/

/-- A profile record, 48 bytes (R181, Table 10-9). -/
def Staged.bytes (g : Staged) : List Byte :=
  let p := g.profile
  let zone (i : Nat) : Nat := ((p.zones.toList.map ZoneState.code).getD i 0)
  le16 p.sequence.toNat
  ++ [byteOf p.line.val, byteOf p.allowSingle.toNat,
      byteOf (bitsOf [p.stoppingFinal, p.anyClipped, p.mean.isSome]),
      byteOf (zone 0 + 4 * zone 1 + 16 * zone 2 + 64 * zone 3)]
  ++ le16 p.accepted ++ le16 p.rejected ++ leInt16 (p.mean.getD 0) ++ le32 p.timestamp.toNat ++ leInt32 p.flow
  ++ p.bands.toList.flatMap (fun b => leInt16 (b.velocity.getD 0))
  ++ p.bands.toList.map (fun b => byteOf b.quality.code) ++ zeroBytes 2
  ++ le32 g.before.toNat ++ zeroBytes 4

/-- A notice entry, 16 bytes (Table 10-10). -/
def Entry.bytes (e : Entry) (seq : Half) : List Byte :=
  [byteOf e.kind.code, byteOf e.source.code, byteOf e.level, byteOf e.count]
  ++ le16 seq.toNat ++ le16 e.detail.toNat ++ le32 e.first.toNat ++ le32 e.last.toNat

/-! ## Command status word (R179) -/

/-- The command code field: the code for 1 to 11, 0 for the power-on record, 15 for any other code. A record with
code 0 is the power-on record exactly when its result is ACCEPTED, since every write with code 0 is refused. -/
def CmdRecord.codeField (r : CmdRecord) : Nat :=
  if 1 ≤ r.code.toNat ∧ r.code.toNat ≤ 11 then r.code.toNat
  else if r.code = 0 ∧ r.result = .accepted then 0
  else 15

/-- The command status word (R179). -/
def CmdRecord.word (r : CmdRecord) : Word :=
  BitVec.ofNat 32 (r.tag.toNat + 256 * r.taken.toNat + 65536 * r.result.code + 1048576 * r.codeField
    + 16777216 * min r.detail.toNat 255)

/-! ## Dirty pages -/

/-- An item on a status page differs between two states (R25, R50, R71, R88, R114, R163, R175; log 26). -/
def State.pageDiffers (before after : State) (p : PageId) : Bool := before.pageBytes p != after.pageBytes p

end Sys2Proof.Machine
end

