-- ==== Sys2Proof/Machine/Operands.lean ====
section
/-! DEFINITION. What the commands carry: the fields of a command word, the bytes of a captured write, the words of a
load, the bits of a sample frame (spec/07 R139, spec/08 R148 and R150, spec/02 R30 and R31). -/

namespace Sys2Proof.Machine

/-! ## Bytes of a word -/

/-- Byte i of a word, byte 0 at the lowest address. -/
def wordByte (w : Word) (i : Nat) : Byte := BitVec.ofNat 8 (w.toNat / 256 ^ i)

/-- All four byte enables are asserted: a full-word write (spec/00_scope.md, Memory). -/
def fullWord (be : BitVec 4) : Bool := be == 0xF#4

/-- The bytes a write with byte enables brings to four bytes held (R139). -/
def mergeByte (be : BitVec 4) (data : Word) (i : Nat) (held : Byte) : Byte :=
  if be.getLsbD i then wordByte data i else held

/-- Merge a write of the word at `off` into bytes held from offset 0 on (R139). -/
def mergeBytes (held : List Byte) (off : Nat) (be : BitVec 4) (data : Word) : List Byte :=
  held.mapIdx fun i b => if off ≤ i ∧ i < off + 4 then mergeByte be data (i - off) b else b

/-- Merge a write of the word at `off` into a section copy (R139). -/
def mergeSection (held : Bytes) (off : Nat) (be : BitVec 4) (data : Word) : Bytes :=
  held.mapFinIdx fun i b _ => if off ≤ i ∧ i < off + 4 then mergeByte be data (i - off) b else b

/-! ## Command words (R148, R179) -/

def cmdTag (data : Word) : Byte := wordByte data 0
def cmdCode (data : Word) : Byte := wordByte data 1
def cmdOperand (data : Word) : Byte := wordByte data 2

/-- Byte i of a partial write: 0 in the place of each byte not written (R148). -/
def writtenByte (be : BitVec 4) (data : Word) (i : Nat) : Byte := mergeByte be data i 0

/-- The codes of Table 8-1. -/
def knownCode (code : Byte) : Bool := decide (1 ≤ code.toNat) && decide (code.toNat ≤ 11)

/-- The operand is out of range for the command (R150). -/
def operandOut (code operand : Byte) : Bool :=
  let c := code.toNat
  if c = 5 then decide (10 < operand.toNat)
  else if c = 3 ∨ c = 4 ∨ c = 11 then false
  else decide (3 < operand.toNat)

/-- The line an operand in range names. -/
def operandLine (operand : Byte) : LineId := Fin.ofNat 4 operand.toNat

/-- The command is COMMIT_CAL, CLEAR_TOTAL, or a LOAD of a calibration section (R148). -/
def touchesCalibration (code operand : Byte) : Bool :=
  let c := code.toNat
  c == 2 || c == 10 || (c == 5 && decide (4 ≤ operand.toNat) && decide (operand.toNat ≤ 7))

/-! ## Loads (R150, R159) -/

/-- The gauge area offset at which a section code's words start (R150). -/
def loadStart (code : Nat) : Nat :=
  if code ≤ 3 then 0x0400 + 256 * code
  else if code ≤ 7 then 0x0800 + 256 * (code - 4)
  else if code = 8 then 0x0300
  else 0x0200

/-- The number of words a load reads (R159). -/
def loadWords (code : Nat) (frozen : Bool) : Nat :=
  if code ≤ 9 then 64 else if frozen then 384 else 640

/-- The word offsets of a load in ascending order (R159). -/
def loadOffsets (code : Nat) (frozen : Bool) : List Nat :=
  (List.range (loadWords code frozen)).map fun i => loadStart code + 4 * i

/-! ## Sample frames (R30, R31) -/

/-- A good frame: its sequence, six samples and six overrange marks (R31). -/
structure Frame where
  seq : BitVec 4
  samples : Vector Int 6
  overrange : Vector Bool 6
  deriving DecidableEq, Repr

/-- A number from bits, the most significant first. -/
def numberOf (bits : List Bool) : Nat := bits.foldl (fun a b => 2 * a + b.toNat) 0

/-- Byte i of a frame: bits fill each byte from its most significant bit (R29). -/
def frameByte (bits : List Bool) (i : Nat) : Nat := numberOf ((bits.drop (8 * i)).take 8)

/-- One bit of the CRC-8 with generator x⁸+x²+x+1 (R30). -/
def crcBit (reg : Byte) (bit : Bool) : Byte :=
  if reg.msb != bit then (reg <<< 1) ^^^ 0x07#8 else reg <<< 1

/-- The CRC-8 of bits in the order received, with initial register 0 and no final inversion (R30). -/
def crc8 (bits : List Bool) : Byte := bits.foldl crcBit 0

/-- A signed 24-bit count in two's complement, most significant byte first (R31). -/
def sampleAt (bits : List Bool) (k : Nat) : Int :=
  let n := numberOf ((bits.drop (8 * (1 + 3 * k))).take 24)
  if n < 8388608 then (n : Int) else (n : Int) - 16777216

/-- The frame that `bits` form when `count` bits were received, if it is a good frame (R30). -/
def goodFrame (bits : List Bool) (count : Nat) : Option Frame :=
  if count = 168 ∧ frameByte bits 0 ≤ 15 ∧ (crc8 (bits.take 160)).toNat = frameByte bits 20 then
    some { seq := BitVec.ofNat 4 (frameByte bits 0), samples := Vector.ofFn fun k => sampleAt bits k.val,
           overrange := Vector.ofFn fun k => (frameByte bits 19).testBit k.val }
  else none

end Sys2Proof.Machine
end

