-- ==== Sys2Proof/Machine/Notices.lean ====
section
/-! DEFINITION. The Notice Unit: raising, the offer, the backlog, the outstanding list (spec/05). -/

namespace Sys2Proof.Machine

/-- A backlog entry stands for this pair of kind and source (R98). -/
def BacklogEntry.isPair (b : BacklogEntry) (k : Kind) (src : Source) : Bool :=
  b.entry.kind == k && b.entry.source == src

/-- Merge an event into an entry that is not in flight (R105). -/
def Entry.merge (e : Entry) (level : Nat) (detail : Half) (now : Word) : Entry :=
  { e with count := satCount (e.count + 1), last := now, detail := detail, level := level }

/-- Merge an event into the late part of an entry in flight (R108). -/
def mergeLate (late : Option Late) (level : Nat) (detail : Half) (now : Word) : Late :=
  match late with
  | none => { count := 1, detail := detail, level := level, first := now, last := now }
  | some t => { t with count := satCount (t.count + 1), detail := detail, level := level, last := now }

/-- Merge an event into a backlog entry of its pair (R105). -/
def BacklogEntry.merge (b : BacklogEntry) (level : Nat) (detail : Half) (now : Word) : BacklogEntry :=
  if b.inFlight then { b with late := some (mergeLate b.late level detail now) }
  else { b with entry := b.entry.merge level detail now }

/-- An entry that stands for one event (R103, R105). -/
def freshEntry (k : Kind) (src : Source) (level : Nat) (detail : Half) (now : Word) : Entry :=
  { kind := k, source := src, level := level, count := 1, detail := detail, first := now, last := now }

/-- Merge a recorded event into the backlog (R105). -/
def mergeBacklog (bl : List BacklogEntry) (k : Kind) (src : Source) (level : Nat) (detail : Half) (now : Word) :
    List BacklogEntry :=
  if bl.any (·.isPair k src) then
    bl.map fun b => if b.isPair k src then b.merge level detail now else b
  else bl ++ [{ entry := freshEntry k src level detail now, inFlight := false, late := none }]

/-- The condition of the offer row of R103. -/
def State.offerFree (s : State) : Bool :=
  s.nu.offer.isNone && s.nu.backlog.isEmpty && (s.ring noticeRing).canTake

/-- The disposition of a recorded event (R103). -/
def State.dispose (s : State) (k : Kind) (src : Source) (level : Nat) (detail : Half) : State :=
  if s.offerFree then
    s.modNu fun n => { n with offer := some { entry := freshEntry k src level detail n.ms, inFlight := false } }
  else
    s.modNu fun n => { n with backlog := mergeBacklog n.backlog k src level detail n.ms }

/-- The level the live table gives a kind (R101). -/
def State.levelOf (s : State) (k : Kind) : Nat := kindLevel s.liveDelivery k.code

/-- Raise a notice (R101): not recorded at level 0, else disposed of and ATTN re-evaluated. -/
def State.raise (s : State) (k : Kind) (src : Source) (detail : Nat) : State :=
  if s.levelOf k = 0 then s
  else (s.dispose k src (s.levelOf k) (BitVec.ofNat 16 detail)).reevalAttn

/-! ## Draining (R106) -/

/-- Drain order: highest level, then lower kind code, then source in the order L0 to L3, PART (R106). -/
def Entry.before (a b : Entry) : Bool :=
  decide (b.level < a.level)
    || (a.level == b.level
        && (decide (a.kind.code < b.kind.code)
            || (a.kind.code == b.kind.code && decide (a.source.code < b.source.code))))

/-- The entry that comes first in drain order. -/
def firstToDrain : List BacklogEntry → Option BacklogEntry
  | [] => none
  | b :: rest =>
    match firstToDrain rest with
    | none => some b
    | some c => if c.entry.before b.entry then some c else some b

/-- The backlog entry the NU would hand over: first among those not in flight (R106). -/
def Nu.nextBacklog (n : Nu) : Option BacklogEntry := firstToDrain (n.backlog.filter fun b => !b.inFlight)

/-- The entry the NU hands to the DE: the standing offer, else the first backlog entry (R104, R106). -/
def Nu.nextEntry (n : Nu) : Option Entry :=
  match n.offer with
  | some o => some o.entry
  | none => n.nextBacklog.map (·.entry)

/-- Mark the entry handed over as in flight (R104, R106). -/
def Nu.takeFlight (n : Nu) : Nu :=
  match n.offer with
  | some o => { n with offer := some { o with inFlight := true } }
  | none =>
    match n.nextBacklog with
    | none => n
    | some c =>
      { n with backlog := n.backlog.map fun b =>
          if b.isPair c.entry.kind c.entry.source then { b with inFlight := true } else b }

/-! ## The end of a write (R107 to R109) -/

/-- The level of the entry in flight: the offer's, or a backlog entry's. -/
def Nu.flightLevel (n : Nu) : Option Nat :=
  match n.offer with
  | some o => if o.inFlight then some o.entry.level else none
  | none => (n.backlog.find? (·.inFlight)).map (·.entry.level)

/-- A backlog entry with its late part as its content (R108). -/
def BacklogEntry.fromLate (b : BacklogEntry) (t : Late) : BacklogEntry :=
  { entry := { b.entry with count := t.count, detail := t.detail, level := t.level, first := t.first, last := t.last },
    inFlight := false, late := none }

/-- What stays of a backlog entry when a write is delivered (R108). -/
def BacklogEntry.afterDelivery (b : BacklogEntry) : Option BacklogEntry :=
  if b.inFlight then b.late.map b.fromLate else some b

/-- What a backlog entry becomes when its write faults (R108). -/
def BacklogEntry.afterFault (b : BacklogEntry) : BacklogEntry :=
  if b.inFlight then
    match b.late with
    | none => { b with inFlight := false }
    | some t =>
      { entry := { b.entry with count := satCount (b.entry.count + t.count), detail := t.detail, level := t.level,
                                last := t.last },
        inFlight := false, late := none }
  else b

/-- Return an offer to the backlog (R109): joined with the entry of its pair, whose events came later. -/
def returnOffer (bl : List BacklogEntry) (o : Entry) : List BacklogEntry :=
  if bl.any (·.isPair o.kind o.source) then
    bl.map fun b =>
      if b.isPair o.kind o.source then
        { b with entry := { b.entry with count := satCount (o.count + b.entry.count), first := o.first } }
      else b
  else bl ++ [{ entry := o, inFlight := false, late := none }]

/-- A notice entry is delivered (R107). -/
def State.entryDelivered (s : State) : State :=
  (s.modNu fun n =>
    { n with
      outstanding := n.outstanding ++ n.flightLevel.toList
      sequence := n.sequence + 1
      offer := match n.offer with | some o => if o.inFlight then none else some o | none => none
      backlog := n.backlog.filterMap (·.afterDelivery) }).reevalAttn.markPart

/-- A notice entry is handed back after a fault of its write (R109). -/
def State.entryReturned (s : State) : State :=
  (s.modNu fun n =>
    match n.offer with
    | some o =>
      if o.inFlight then { n with offer := none, backlog := returnOffer n.backlog o.entry }
      else { n with backlog := n.backlog.map (·.afterFault) }
    | none => { n with backlog := n.backlog.map (·.afterFault) }).reevalAttn.markPart

/-- A waiting offer is merged back when the notice ring can no longer take it (R104). -/
def State.returnWaitingOffer (s : State) : State :=
  (s.modNu fun n =>
    match n.offer with
    | some o => if o.inFlight then n else { n with offer := none, backlog := returnOffer n.backlog o.entry }
    | none => n).reevalAttn

/-- Software has consumed c entries of the notice ring (R110). -/
def State.consumed (s : State) (c : Nat) : State :=
  (s.modNu fun n => { n with outstanding := n.outstanding.drop c }).reevalAttn

end Sys2Proof.Machine
end

