-- ==== Sys2Proof/Machine/Windows.lean ====
section
/-! DEFINITION. The Watch Unit: word classes, dispositions, suppression reports, matching, timers, attendance
(spec/07, spec/09). -/

namespace Sys2Proof.Machine

/-! ## Attendance (R171, R172) -/

/-- The WU reports the attendance to the GZU of a line, which re-evaluates LALM (R69). -/
def State.reportAttendance (s : State) (l : LineId) : State :=
  (s.modGzu l fun g => { g with attCopy := s.wu.attendance }).reevalLalm l

def State.reportAttendanceAll (s : State) : State :=
  (List.finRange 4).foldl (fun t l => t.reportAttendance l) s

/-- Re-derive the attendance; a change raises UNATTENDED or ATTENDED with the window number given and is reported
to the GZU of every line (R172). -/
def State.rederiveAttendance (s : State) (detail : Nat) : State :=
  match s.wu.attendance, s.derivedAttendance with
  | .attended, .unattended =>
    (((s.modWu fun u => { u with attendance := .unattended }).raise .unattended .part detail).reportAttendanceAll).markPart
  | .unattended, .attended =>
    (((s.modWu fun u => { u with attendance := .attended }).raise .attended .part detail).reportAttendanceAll).markPart
  | .attended, .attended => s
  | .unattended, .unattended => s

/-- The lowest-numbered window of a list, as a notice detail. -/
def lowestWindow (ws : List WindowId) : Nat :=
  match ws with
  | [] => 0
  | w :: _ => w.val

/-! ## Timers and expiry (R168) -/

/-- A window expires: EXPIRED, timer stopped, WINDOW_EXPIRED raised (R168). -/
def State.expireWindow (s : State) (w : WindowId) : State :=
  (s.modWindow w fun x => { x with state := .expired, timer := none }).raise .windowExpired .part w.val

/-- A running timer whose next decrement brings it to 0. -/
def Window.lastMs (x : Window) : Bool :=
  match x.timer with
  | some n => decide (n ≤ 1)
  | none => false

/-- One decrement of a running timer (R168). -/
def Window.countDown (x : Window) : Window := { x with timer := x.timer.map (· - 1) }

/-- The windows given expire in their order, and the attendance is re-derived; an UNATTENDED notice names the
lowest of them whose action is UNATTENDED (R168, R172). -/
def State.expireAll (s : State) (ws : List WindowId) : State :=
  (ws.foldl (fun t w => t.expireWindow w) s).rederiveAttendance
    (lowestWindow (ws.filter fun w => (s.windowDef w).enable && (s.windowDef w).unattendedAction))

/-- One advance of the millisecond counter at the WU (R168). A timer loaded with timeout_ms 1 by an access or a commit
taken before the advance expires at this advance: R168's decrement to 0, where R169's example of an access taken first
has no expiry; that R168 holds for 1 is the model's choice (log 37). -/
def State.advanceWindows (s : State) : State :=
  let due := (List.finRange 8).filter fun w => (s.window w).lastMs
  (s.modWu fun u => { u with windows := u.windows.map (·.countDown) }).expireAll due

/-! ## Matching (R166) -/

/-- A request matches a window (R166). -/
def State.matchesWindow (s : State) (addr : Nat) (write : Bool) (w : WindowId) : Bool :=
  let d := s.windowDef w
  d.enable && d.covers addr && (if write then d.matchWrite else d.matchRead)

/-- The timer of a window loaded with its timeout; a timeout of 0 means none (R165, R168). -/
def loadTimer (timeoutMs : Nat) : Option Nat := if timeoutMs = 0 then none else some timeoutMs

/-- The effects of a match on a window (R166). -/
def matchWindow (timeoutMs : Nat) (x : Window) : Window :=
  { x with active := true, matched := true, timer := loadTimer timeoutMs,
           state := if x.state = .expired then .watching else x.state }

/-- Match a request against every enabled window, then re-derive the attendance; an ATTENDED notice names the
lowest window that held the part UNATTENDED before (R166, R172). -/
def State.matchAll (s : State) (addr : Nat) (write : Bool) : State :=
  let hits := (List.finRange 8).filter fun w => s.matchesWindow addr write w
  (hits.foldl (fun t w => t.modWindow w (matchWindow (s.windowDef w).timeoutMs)) s).rederiveAttendance
    (lowestWindow s.unattendedWindows)

/-! ## Word classes (R135, R136) -/

/-- The class of a word of the gauge area (R135). -/
inductive WordClass where
  | owned (code : Nat) | captured (s : SectionId) | commandSlot | readIndex (r : RingId) | passThrough
  deriving DecidableEq, Repr

/-- Gauge area offset of the W word of a ring (R78). -/
def wWordOffset (r : RingId) : Nat := 0x0C00 + 16 * r.val
/-- Gauge area offset of the Rd word of a ring (R78). -/
def rdWordOffset (r : RingId) : Nat := 0x0C04 + 16 * r.val

/-- An offset lies in the region of an armed ring: the owned-field map (R136). -/
def RingDesc.owns (d : RingDesc) (size off : Nat) : Bool :=
  d.armed && decide (d.base ≤ off) && decide (off < d.base + d.capacity * size)

def State.inArmedRegion (s : State) (off : Nat) : Bool :=
  (List.finRange 5).any fun r => (s.ring r).owns (recordSize r.val) off

/-- The class of the word at a gauge area offset (Table 7-1). -/
def State.wordClass (s : State) (off : Nat) : WordClass :=
  if off < 0x100 then .owned 8
  else if off < 0x104 then .commandSlot
  else if off < 0x108 then .owned 9
  else if off < 0x200 then .passThrough
  else if off < 0x300 then .captured .delivery
  else if off < 0x400 then .captured .windows
  else if off < 0x800 then .captured (.line (Fin.ofNat 4 ((off - 0x400) / 256)))
  else if off < 0xC00 then .captured (.cal (Fin.ofNat 4 ((off - 0x800) / 256)))
  else if off < 0xC50 then
    let r := Fin.ofNat 5 ((off - 0xC00) / 16)
    if off % 16 < 4 then .owned 10 else if off % 16 < 8 then .readIndex r else .passThrough
  else if off < 0x1000 then .passThrough
  else if off < 0x1800 then .owned 11
  else if off < 0x2000 then .passThrough
  else if s.inArmedRegion off then .owned 12
  else .passThrough

/-- The gauge area offset of an address, or none outside the area (R134). -/
def State.areaOffset (s : State) (addr : Addr) : Option Nat :=
  if addr.toNat / 65536 = s.wu.base.toNat then some (addr.toNat % 65536) else none

/-- The class of the word an address lies in; an access outside the area has none of its own and passes
through (R134). -/
def State.addrClass (s : State) (addr : Addr) : WordClass :=
  match s.areaOffset addr with
  | none => .passThrough
  | some off => s.wordClass off

/-! ## Dispositions (R137) -/

/-- The owned-field or frozen-calibration cause of a write, as its class code (R137, R138). -/
def State.ownedCause (s : State) (addr : Addr) : Option Nat :=
  match s.addrClass addr with
  | .owned c => some c
  | .captured (.cal _) => if s.cu.frozen then some 13 else none
  | .captured (.line _) | .captured .windows | .captured .delivery => none
  | .commandSlot | .readIndex _ | .passThrough => none

/-- A guard window that covers an address (R170). -/
def State.guards (s : State) (addr : Addr) (w : WindowId) : Bool :=
  (s.windowDef w).enable && (s.windowDef w).guard && (s.windowDef w).covers addr.toNat

def State.guardWindows (s : State) (addr : Addr) : List WindowId :=
  (List.finRange 8).filter fun w => s.guards addr w

/-- A host write is given SUPPRESS (R137). -/
def State.suppresses (s : State) (addr : Addr) : Bool :=
  (s.ownedCause addr).isSome || !(s.guardWindows addr).isEmpty

/-- The capture target of a forwarded write (R137). -/
def State.targetOf (s : State) (addr : Addr) : CaptureTarget :=
  match s.addrClass addr with
  | .captured sec => .captured sec
  | .commandSlot => .commandSlot
  | .readIndex r => .readIndex r
  | .owned _ => .none
  | .passThrough => .none

/-- The fresh word an address names (R127, R180). -/
def State.freshOf (s : State) (addr : Addr) : Option FreshWord :=
  match s.areaOffset addr with
  | none => none
  | some off => if off < 4 then some .milliseconds else if off < 8 then some .activity else none

/-! ## Suppression reports (R138, R170) -/

/-- Count an owned hit of a class code 8 to 13 and raise its GUARD_HIT. -/
def State.reportOwned (s : State) (code : Nat) : State :=
  (s.modWu fun u => { u with ownedHits := modAt u.ownedHits (Fin.ofNat 6 (code - 8)) satInc }).raise
    .guardHit .part code

/-- Count a guard hit of a window and raise its GUARD_HIT. -/
def State.reportGuard (s : State) (w : WindowId) : State :=
  (s.modWindow w fun x => { x with guardHits := satInc x.guardHits }).raise .guardHit .part w.val

/-- Report every suppression cause of a write, the owned field or freeze first, then the windows in order. -/
def State.reportSuppression (s : State) (addr : Addr) : State :=
  (s.guardWindows addr).foldl (fun t w => t.reportGuard w)
    (match s.ownedCause addr with
     | some c => s.reportOwned c
     | none => s)

/-! ## Activity summary (R167) -/

/-- A refresh of the activity summary word is issued: the matched-since-refresh marks are cleared (R167). -/
def State.clearMatched (s : State) : State :=
  s.modWu fun u => { u with windows := u.windows.map fun x => { x with matched := false } }

/-- A fresh read of the activity summary word succeeded: each flag the value reported is cleared unless a match
was taken since (R167). -/
def State.clearReported (s : State) (v : Byte) : State :=
  s.modWu fun u =>
    { u with windows := Vector.ofFn fun w : WindowId =>
        let x := u.windows[w]
        if v.getLsbD w.val && !x.matched then { x with active := false } else x }

/-! ## Committing the window section (R173) -/

/-- What a commit makes of a window, from its old and new definitions (R173). -/
def commitWindow (old new : WindowDef) (x : Window) : Window :=
  let same := decide (old = new)
  { state := if new.enable then .watching else .idle
    timer := if new.enable then loadTimer new.timeoutMs else none
    active := x.active && new.enable && same
    matched := x.matched
    guardHits := if same then x.guardHits else 0 }

/-- Treat every window by its old and new definition, the new section being live already, and re-derive the
attendance once; an ATTENDED notice names the lowest window that held the part UNATTENDED before (R173, R172). -/
def State.applyWindows (s : State) (old : Bytes) (heldBefore : List WindowId) : State :=
  (s.modWu fun u =>
    { u with windows := Vector.ofFn fun w : WindowId =>
        commitWindow (Machine.windowDef old w.val) (s.windowDef w) u.windows[w] }).rederiveAttendance
    (lowestWindow heldBefore)

end Sys2Proof.Machine
end

