-- ==== Sys2Proof/Machine/Sampling.lean ====
section
/-! DEFINITION. The Sample Reconstruction Unit: frames, windows, half results, bands, mean, flow, totals
(spec/02). -/

namespace Sys2Proof.Machine

/-! ## Judging samples (R37) -/

/-- A sample stands too far from the mean of those accepted, by the exact comparison of R37. -/
def isSpike (limit : Nat) (a : Accum) (x : Int) : Bool :=
  decide (((limit * a.accepted : Nat) : Int) < ((x * (a.accepted : Int) - a.sum).natAbs : Int))

def Accum.accept (a : Accum) (x : Int) : Accum :=
  { a with seen := a.seen + 1, accepted := a.accepted + 1, sum := a.sum + x }

def Accum.reject (a : Accum) : Accum := { a with seen := a.seen + 1, rejected := a.rejected + 1 }

/-- Judge one sample of a band (R37). -/
def Accum.judge (a : Accum) (limit : Nat) (overrange : Bool) (x : Int) : Accum :=
  if overrange then a.reject
  else if a.accepted < 8 then a.accept x
  else if isSpike limit a x then a.reject
  else a.accept x

/-- Judge the six samples of a frame, each against its own accumulators (R37). -/
def WindowAcc.take (w : WindowAcc) (limit : Nat) (f : Frame) : WindowAcc :=
  { w with bands := Vector.ofFn fun k => w.bands[k].judge limit f.overrange[k] f.samples[k] }

/-- The window takes frames: it is not marked as not accumulating and has seen fewer than 65,535 frames (R36). -/
def WindowAcc.open (w : WindowAcc) : Bool := !w.muted && w.bands.all fun a => decide (a.seen < 65535)

/-! ## Frame arrival (R29, R30, R32, R33, R36) -/

/-- The missing frames between a good frame and the one before it (R32). -/
def framesMissing (expect : Option (BitVec 4)) (seq : BitVec 4) : Nat :=
  match expect with
  | none => 0
  | some e => if seq = e then 15 else (seq - e).toNat - 1

/-- Sequence tracking (R32). -/
def State.trackSequence (s : State) (l : LineId) (seq : BitVec 4) : State :=
  let missing := framesMissing (s.sru l).expect seq
  let s1 := s.modSru l fun u => { u with expect := some seq, frameGaps := satAdd u.frameGaps missing }
  if missing = 0 then s1 else (s1.raise .frameGap (.line l) missing).markLine l

/-- A good frame on a driven line restarts the silence timer and ends an episode (R33). -/
def State.frameHeard (s : State) (l : LineId) : State :=
  if (s.ls l).state.driven then s.modSru l fun u => { u with silence := some 0, episode := false } else s

/-- The good frame is accumulated into the window that is open (R36). -/
def State.accumulate (s : State) (l : LineId) (f : Frame) : State :=
  match (s.ls l).state, (s.ls l).phase, (s.sru l).params with
  | .running, some .pWindow, some p | .stopping, some .pWindow, some p =>
    if (s.sru l).accP.open then s.modSru l fun u => { u with accP := u.accP.take p.spikeLimit f } else s
  | .running, some .nWindow, some p | .stopping, some .nWindow, some p =>
    if (s.sru l).accN.open then s.modSru l fun u => { u with accN := u.accN.take p.spikeLimit f } else s
  | _, _, _ => s

/-- A frame error (R30). -/
def State.frameError (s : State) (l : LineId) : State :=
  (s.modSru l fun u => { u with frameErrors := satInc u.frameErrors }).markLine l

/-- A frame arrival at the SRU (R30). -/
def State.takeFrame (s : State) (l : LineId) (bits : List Bool) (count : Nat) : State :=
  match goodFrame bits count with
  | none => s.frameError l
  | some f => ((s.trackSequence l f.seq).frameHeard l).accumulate l f

/-- The receiver goes to IDLE with no bits held (R29). -/
def State.receiverIdle (s : State) (l : LineId) : State :=
  s.modSru l fun u => { u with rx := .idle, rxBits := [], rxCount := 0 }

/-- A frame ends: SFRn is deasserted after these bits (R29). A frame whose assertion began before PORn release
is not taken (log 15). -/
def State.frameEnds (s : State) (l : LineId) (bits : List Bool) : State :=
  match (s.sru l).rx with
  | .waitIdle => s.receiverIdle l
  | .idle => (s.receiverIdle l).takeFrame l (bits.take 168) bits.length
  | .receiving =>
    (s.receiverIdle l).takeFrame l (((s.sru l).rxBits ++ bits).take 168) ((s.sru l).rxCount + bits.length)

/-- The silence timer reaches silence_ticks: a silence episode begins (R33). -/
def State.silenceBegins (s : State) (l : LineId) : State :=
  ((s.modSru l fun u => { u with silence := none, episode := true, silences := satInc u.silences }).raise
    .sampleLoss (.line l) 0).markLine l

/-! ## Cycle reports (R34, R35, R38, R39) -/

/-- The cycle parameters fixed at a cycle start (R34). -/
def cycleParams (line cal : Bytes) (timestamp : Word) (length : Nat) : CycleParams :=
  { allowSingle := allowSingle line, spikeLimit := spikeLimit line, rejectLimit := rejectLimit line,
    minSamples := minWindowSamples line, minValidBands := minValidBands line,
    gains := Vector.ofFn fun k => gain cal k.val, weights := Vector.ofFn fun k => weight cal k.val,
    area := area cal, timestamp := timestamp, cycleLength := length }

/-- Window open, P: empty the accumulators, discard P half results that remain (R35). -/
def Sru.openP (u : Sru) (priming : Bool) : Sru :=
  { u with accP := { WindowAcc.empty with muted := priming }, halvesP := none }

/-- Window open, N (R35). -/
def Sru.openN (u : Sru) (priming : Bool) : Sru := { u with accN := { WindowAcc.empty with muted := priming } }

/-- The half result of a band (R38). -/
def halfResult (p : CycleParams) (a : Accum) : HalfResult :=
  if a.seen < p.minSamples then .noData
  else if a.accepted < p.minSamples then .spoiled
  else if p.rejectLimit * a.seen < a.rejected * 16 then .spoiled
  else .good (a.sum.tdiv a.accepted)

def halfResults (p : CycleParams) (w : WindowAcc) : Vector HalfResult 6 := w.bands.map (halfResult p)

/-- Window close, P: the half results are kept until the cycle end (R38). -/
def Sru.closeP (u : Sru) : Sru :=
  match u.params with
  | some p => { u with halvesP := some (halfResults p u.accP) }
  | none => u

/-- Cycle abandoned (R39). -/
def Sru.abandon (u : Sru) : Sru := { u with accP := .empty, accN := .empty, halvesP := none }

/-- Entry to PRIMING at the SRU: offsets invalid (R41), silence timer from 0 (R33). -/
def Sru.prime (u : Sru) : Sru :=
  { u with offsets := u.offsets.map (fun o => { o with valid := false }), silence := some 0, episode := false }

/-- Entry to OFF or SHUTDOWN at the SRU: the silence timer stops and an episode ends (R33). -/
def Sru.rest (u : Sru) : Sru := { u with silence := none, episode := false }

/-! ## Band reconstruction (R40 to R42) -/

/-- The raw value and quality of a band from its half results (R40). -/
def combine (single : Bool) (o : Offset) (p n : HalfResult) : Option Int × Quality :=
  match p, n with
  | .good mp, .good mn => (some ((mp - mn).tdiv 2), .paired)
  | .good mp, other =>
    if single then (if o.valid then (some (mp - o.value), .singleP) else (none, .noOffset))
    else (none, if other = .spoiled then .spoiled else .noData)
  | other, .good mn =>
    if single then (if o.valid then (some (o.value - mn), .singleN) else (none, .noOffset))
    else (none, if other = .spoiled then .spoiled else .noData)
  | .spoiled, .spoiled => (none, .spoiled)
  | _, _ => (none, .noData)

/-- The velocity of a raw value, clipped at ±8000 (R42). -/
def velocityOf (gain : Nat) (raw : Int) (q : Quality) : BandResult :=
  let v := (raw * gain).tdiv 65536
  if 8000 < v then { quality := .clipped, velocity := some 8000 }
  else if v < -8000 then { quality := .clipped, velocity := some (-8000) }
  else { quality := q, velocity := some v }

/-- The band result (R40, R42). -/
def bandResult (single : Bool) (gain : Nat) (o : Offset) (p n : HalfResult) : BandResult :=
  match combine single o p n with
  | (some raw, q) => velocityOf gain raw q
  | (none, q) => { quality := q, velocity := none }

/-- The offset after the band's result: replaced when both halves are GOOD (R41; log 22). -/
def nextOffset (o : Offset) (p n : HalfResult) : Offset :=
  match p, n with
  | .good mp, .good mn => { value := (mp + mn).tdiv 2, valid := true }
  | _, _ => o

/-! ## Mean, flow, totals (R43, R44, R47, R48) -/

/-- Weight and velocity of each band that counts: a valid quality and a weight greater than 0 (R43, R60). -/
def contributors (weights : List Nat) (bands : List BandResult) : List (Nat × Int) :=
  (weights.zip bands).filterMap fun x =>
    match x.2.velocity with
    | some v => if x.2.quality.valid ∧ 0 < x.1 then some (x.1, v) else none
    | none => none

/-- Σ(w × v) ÷ Σ(w), rounded toward zero, over bands of weight greater than 0. -/
def weightedMean (c : List (Nat × Int)) : Option Int :=
  if c.isEmpty then none
  else some (((c.map fun x => (x.1 : Int) * x.2).sum).tdiv ((c.map (·.1)).sum : Nat))

/-- The mean velocity of a profile; none when INVALID (R43). -/
def profileMean (p : CycleParams) (bands : Vector BandResult 6) : Option Int :=
  let c := contributors p.weights.toList bands.toList
  if p.minValidBands ≤ c.length then weightedMean c else none

/-- The flow, 0 when the mean is INVALID (R44). -/
def profileFlow (p : CycleParams) (mean : Option Int) : Int :=
  match mean with
  | some m => (m * p.area * 36).tdiv 10000
  | none => 0

/-- The volume numerator of a profile (R47). -/
def volumeNumerator (p : CycleParams) (mean : Int) (rem : Nat) : Nat := mean.natAbs * p.area * p.cycleLength + rem

/-- Update the totals at a profile (R47, R48). -/
def Sru.addVolume (u : Sru) (p : CycleParams) (mean : Option Int) : Sru :=
  match mean with
  | none => { u with untotalized := satInc u.untotalized }
  | some m =>
    if 0 < m then
      let v := volumeNumerator p m u.forwardRem
      { u with forward := satAdd u.forward (v / 1000000), forwardRem := v % 1000000 }
    else if m < 0 then
      let v := volumeNumerator p m u.reverseRem
      { u with reverse := satAdd u.reverse (v / 1000000), reverseRem := v % 1000000 }
    else u

/-- CLEAR_TOTAL at the SRU (R49). -/
def Sru.clearTotals (u : Sru) : Sru :=
  { u with forward := 0, reverse := 0, forwardRem := 0, reverseRem := 0, untotalized := 0 }

/-! ## The profile (R45, R46) -/

/-- The six half results of a half that has none: NO_DATA. -/
def noHalves : Vector HalfResult 6 := Vector.replicate 6 .noData

/-- The sum of a count over bands and halves, saturating at 65,535 (R45). -/
def sampleTotal (f : Accum → Nat) (p n : WindowAcc) : Nat :=
  min 65535 ((p.bands.toList.map f).sum + (n.bands.toList.map f).sum)

/-- The profile of a cycle, its zone states still to be attached by the GZU (R45, R53). -/
def Sru.formProfile (u : Sru) (p : CycleParams) (l : LineId) (stopping : Bool) : Profile :=
  let hp := u.halvesP.getD noHalves
  let hn := halfResults p u.accN
  let bands := Vector.ofFn fun k : Fin 6 => bandResult p.allowSingle p.gains[k] u.offsets[k] hp[k] hn[k]
  let mean := profileMean p bands
  { sequence := u.sequence, line := l, allowSingle := p.allowSingle, stoppingFinal := stopping,
    anyClipped := bands.any (fun b => b.quality == .clipped), timestamp := p.timestamp, bands := bands,
    mean := mean, flow := profileFlow p mean,
    accepted := sampleTotal (·.accepted) u.accP u.accN, rejected := sampleTotal (·.rejected) u.accP u.accN,
    zones := Vector.replicate 4 .clear }

/-- What the SRU becomes when it produces that profile (R41, R45 to R48). -/
def Sru.afterProfile (u : Sru) (p : CycleParams) : Sru :=
  let hp := u.halvesP.getD noHalves
  let hn := halfResults p u.accN
  let bands := Vector.ofFn fun k : Fin 6 => bandResult p.allowSingle p.gains[k] u.offsets[k] hp[k] hn[k]
  { u.addVolume p (profileMean p bands) with
    offsets := Vector.ofFn fun k => nextOffset u.offsets[k] hp[k] hn[k]
    sequence := u.sequence + 1
    halvesP := none }

end Sys2Proof.Machine
end

