-- ==== Sys2Proof/Machine/Grid.lean ====
section
/-! DEFINITION. The Grid and Zone Unit: the profile grid, still counts, zone tests and states, the line alarm; and
the staging queue the profile joins (spec/03; spec/04 R75, R76). -/

namespace Sys2Proof.Machine

/-! ## Grid and still counts (R54 to R57) -/

/-- The column a profile makes (R55). -/
def columnOf (p : Profile) : Column := { sequence := p.sequence, bands := p.bands, mean := p.mean }

/-- Append a column; a full grid loses its oldest (R54). -/
def appendColumn (grid : List Column) (c : Column) : List Column :=
  (if 16 ≤ grid.length then grid.drop 1 else grid) ++ [c]

/-- The still count of a band after a profile (R57). -/
def nextStill (threshold : Nat) (count : BitVec 8) (b : BandResult) : BitVec 8 :=
  match b.velocity with
  | some v => if b.quality.valid then (if v.natAbs < threshold then satInc count else 0) else count
  | none => count

/-! ## Zone tests (R60 to R63) -/

/-- The outcome of a zone test (section 3.5). -/
inductive TestOutcome where
  | holds | fails | notEvaluable
  deriving DecidableEq, Repr

/-- The bands of a zone out of six, lowest first. -/
def zoneBands {α : Type} (d : ZoneDef) (l : List α) : List α := (l.take (d.bandHi + 1)).drop d.bandLo

/-- The zone value of a column, if it has one (R60). -/
def zoneValue (d : ZoneDef) (weights : List Nat) (c : Column) : Option Int :=
  weightedMean (contributors (zoneBands d weights) (zoneBands d c.bands.toList))

/-- The velocity of band B5 when its quality is valid (R63). -/
def topVelocity (c : Column) : Option Int :=
  let b := c.bands[5]
  if b.quality.valid then b.velocity else none

/-- The lag of a column, if it contributes to a SPREAD test (R63). -/
def columnLag (d : ZoneDef) (weights : List Nat) (c : Column) : Option Int :=
  match topVelocity c, zoneValue d weights c with
  | some t, some v => some (t - v)
  | _, _ => none

/-- The K newest columns of a grid that has at least K (R61). -/
def newestColumns (grid : List Column) (k : Nat) : Option (List Column) :=
  if grid.length < k then none else some (grid.drop (grid.length - k))

/-- A test that averages over the contributing columns of the lookback: `test` says of their sum and number
whether it holds (R61, R63). -/
def averageTest (grid : List Column) (k : Nat) (value : Column → Option Int) (test : Int → Int → Bool) :
    TestOutcome :=
  match newestColumns grid k with
  | none => .notEvaluable
  | some cols =>
    let vs := cols.filterMap value
    if vs.length < (k + 1) / 2 then .notEvaluable
    else if test vs.sum vs.length then .holds else .fails

/-- Every band of the zone has stood still for at least limit profiles (R62). -/
def stillTest (d : ZoneDef) (still : List (BitVec 8)) : TestOutcome :=
  if (zoneBands d still).all fun n => decide (d.limit ≤ (n.toNat : Int)) then .holds else .fails

/-- The test of a zone (R61 to R63). -/
def zoneTest (d : ZoneDef) (weights : List Nat) (grid : List Column) (still : List (BitVec 8)) : TestOutcome :=
  if d.test = 0 then
    averageTest grid d.lookback (zoneValue d weights) fun sum n => decide (sum < d.limit * n)
  else if d.test = 1 then stillTest d still
  else averageTest grid d.lookback (columnLag d weights) fun sum n => decide (d.limit * n < sum)

/-! ## Zone states (R64) -/

/-- What an evaluation reports to the Notice Unit (R66). -/
inductive ZoneEvent where
  | none | trip | clear
  deriving DecidableEq, Repr

/-- PENDING with a new count, then the persist check (R64). -/
def persistCheck (d : ZoneDef) (count : Nat) : ZoneRec × ZoneEvent :=
  if d.persist ≤ count then ({ state := .tripped, count := 0 }, .trip)
  else ({ state := .pending, count := count }, .none)

/-- RECOVERING with a new count, then the clear check (R64). -/
def clearCheck (d : ZoneDef) (count : Nat) : ZoneRec × ZoneEvent :=
  if d.clear ≤ count then ({ state := .clear, count := 0 }, .clear)
  else ({ state := .recovering, count := count }, .none)

/-- The move of an enabled zone at an evaluation (R64). -/
def zoneMove (d : ZoneDef) (z : ZoneRec) (o : TestOutcome) : ZoneRec × ZoneEvent :=
  match o, z.state with
  | .notEvaluable, _ => (z, .none)
  | .holds, .clear => persistCheck d 1
  | .holds, .pending => persistCheck d (z.count + 1)
  | .holds, .tripped | .holds, .recovering => ({ state := .tripped, count := 0 }, .none)
  | .fails, .clear | .fails, .pending => ({ state := .clear, count := 0 }, .none)
  | .fails, .tripped => clearCheck d 1
  | .fails, .recovering => clearCheck d (z.count + 1)

/-- Raise what an evaluation reports (R66): reason NORMAL is 0. -/
def State.raiseZone (s : State) (l : LineId) (z : Fin 4) (e : ZoneEvent) : State :=
  match e with
  | .none => s
  | .trip => s.raise .zoneTrip (.line l) z.val
  | .clear => s.raise .zoneClear (.line l) z.val

/-- Set a zone record of a line. -/
def State.setZone (s : State) (l : LineId) (z : Fin 4) (r : ZoneRec) : State :=
  s.modGzu l fun g => { g with zones := modAt g.zones z fun _ => r }

/-- Evaluate one zone at a profile (R64, R65). -/
def State.evalZone (s : State) (l : LineId) (z : Fin 4) : State :=
  let d := zoneDef (s.liveLine l) z.val
  if d.enable then
    let weights := (List.range 6).map (weight (s.liveCal l))
    let m := zoneMove d (s.gzu l).zones[z] (zoneTest d weights (s.gzu l).grid (s.gzu l).still.toList)
    (s.setZone l z m.1).raiseZone l z m.2
  else s

/-! ## Staging queue (R75, R76) -/

/-- Add a dropped or lost profile's count and itself to a dropped_before, modulo 2^32. -/
def passOn (before : Word) (lost : Staged) : Word := before + (lost.before + 1)

/-- Drop the oldest queued profile that is not in flight (R76). -/
def dropOldest (headInFlight : Bool) (q : List Staged) : List Staged :=
  match headInFlight, q with
  | true, h :: x :: y :: rest => h :: { y with before := passOn y.before x } :: rest
  | false, x :: y :: rest => { y with before := passOn y.before x } :: rest
  | _, _ => q

/-- The record in flight is one of this ring. -/
def State.ringInFlight (s : State) (r : RingId) : Bool :=
  match s.de.flight with
  | some (.record q _ _ _) => q == r
  | _ => false

/-- A profile joins the tail of its line's queue (R75). -/
def Staging.place (g : Staging) (p : Profile) : Staging :=
  if g.queue.isEmpty then { g with queue := [{ profile := p, before := g.carried }], carried := 0 }
  else { g with queue := g.queue ++ [{ profile := p, before := 0 }] }

/-- A join to a queue that holds 4 drops a profile first and raises PROFILE_DROP (R76). -/
def State.dropStaged (s : State) (l : LineId) : State :=
  let s1 := s.modStaging l fun g =>
    { g with queue := dropOldest (s.ringInFlight (profileRing l)) g.queue, dropped := g.dropped + 1 }
  s1.raise .profileDrop (.line l) ((s1.staging l).dropped.toNat % 65536)

/-- A profile is passed on to its line's staging queue (R75, R76). -/
def State.stagingJoin (s : State) (l : LineId) (p : Profile) : State :=
  ((if 4 ≤ (s.staging l).queue.length then s.dropStaged l else s).modStaging l fun g => g.place p).markLine l

/-! ## A profile at the GZU (R53) -/

/-- Steps 1 and 2 of R53: the column and the still counts. -/
def Gzu.takeColumn (g : Gzu) (threshold : Nat) (p : Profile) : Gzu :=
  { g with grid := appendColumn g.grid (columnOf p)
           still := Vector.ofFn fun k => nextStill threshold g.still[k] p.bands[k] }

/-- The GZU takes a profile (R53). -/
def State.takeProfile (s : State) (l : LineId) (p : Profile) : State :=
  let s1 := s.modGzu l fun g => g.takeColumn (stillThreshold (s.liveLine l)) p
  let s2 := (List.finRange 4).foldl (fun t z => t.evalZone l z) s1
  let s3 := (s2.reevalLalm l).markLine l
  s3.stagingJoin l { p with zones := (s3.gzu l).zones.map (·.state) }

/-! ## Line state and settings (R56, R67, R69) -/

/-- Entry to PRIMING at the GZU: the grid and still counts are emptied, the zones kept (R56). -/
def Gzu.prime (g : Gzu) : Gzu := { g with grid := [], still := Vector.replicate 6 0 }

/-- The LS reports its line state to the GZU, which re-evaluates LALM (R25, R69). -/
def State.reportLineState (s : State) (l : LineId) : State :=
  ((s.modGzu l fun g => { g with lineCopy := (s.ls l).state }).reevalLalm l).markLine l

/-- Reset a zone whose definition changed (R67): reason RECONFIGURED is 1. -/
def State.resetZone (s : State) (l : LineId) (z : Fin 4) : State :=
  let s1 := if (s.gzu l).zones[z].state.alarming then s.raise .zoneClear (.line l) (z.val + 256) else s
  s1.setZone l z { state := .clear, count := 0 }

/-- Compare each zone's definition with the one live before and reset those that changed (R67). -/
def State.resetZones (s : State) (l : LineId) (old : Bytes) : State :=
  (List.finRange 4).foldl
    (fun t z => if zoneDef old z.val = zoneDef (s.liveLine l) z.val then t else t.resetZone l z) s

end Sys2Proof.Machine
end

