-- ==== Sys2Proof/Machine/Sequencing.lean ====
section
/-! DEFINITION. The Line Sequencer: cycles, transfers, shutdown, restart, line commands (spec/01; spec/08 R153). -/

namespace Sys2Proof.Machine

/-! ## Switches (R5, R18) -/

/-- The switches in a phase (R5). -/
def Phase.bridge : Phase → Bridge
  | .leadGap | .midGap => .allOff
  | .pSettle | .pWindow => { lu := .on, ll := .off, ru := .off, rl := .modulated }
  | .nSettle | .nWindow => { lu := .off, ll := .modulated, ru := .on, rl := .off }

/-- The switches of a shutdown state code once CLAMPED (R18). -/
def clampBridge (code : Nat) : Bridge :=
  if code = 0 then .allOff
  else if code = 1 then { lu := .off, ll := .on, ru := .off, rl := .on }
  else { lu := .on, ll := .off, ru := .on, rl := .off }

/-- The length of a phase in ticks (R3). -/
def CycleLengths.phaseLength (c : CycleLengths) : Phase → Nat
  | .leadGap | .midGap => c.gap
  | .pSettle | .nSettle => c.settle
  | .pWindow | .nWindow => c.half - c.settle

/-- The cycle length (R3). -/
def CycleLengths.total (c : CycleLengths) : Nat := 2 * c.gap + 2 * c.half

/-- Enter a phase: its timer from 0, its switches (R3, R5). -/
def Sequencer.enterPhase (q : Sequencer) (p : Phase) : Sequencer :=
  { q with phase := some p, phaseTimer := some 0, bridge := p.bridge }

/-- The cycle ends with no phase, all switches off (R16, R22). -/
def Sequencer.noPhase (q : Sequencer) : Sequencer :=
  { q with phase := none, phaseTimer := none, bridge := .allOff }

/-! ## Restart delay (R20) -/

def Causes.isEmpty (c : Causes) : Bool := !c.coilHi && !c.trip && !c.software

/-- The restart delay conditions (R20). -/
def State.restartConditions (s : State) (l : LineId) : Bool :=
  (s.ls l).state == .shutdown && restartAuto (s.liveLine l) && !(s.ls l).lockout && (s.ls l).causes.isEmpty

/-- Start the timer when the conditions hold and it is stopped; stop it when one fails (R20). -/
def State.reexamTimer (s : State) (l : LineId) : State :=
  s.modLs l fun q =>
    { q with restartTimer :=
        if s.restartConditions l then some (q.restartTimer.getD (restartDelayMs (s.liveLine l))) else none }

/-! ## Settings that become live (R26, R153) -/

/-- The clamp change of R18: from CLAMPED back to ALL_OFF_HOLD with all switches off. -/
def Sequencer.changeClamp (q : Sequencer) : Sequencer :=
  match q.stage with
  | .clamped => { q with stage := .allOffHold, holdTicks := 0, bridge := .allOff }
  | .allOffHold => q

/-- The sources present in SHUTDOWN: each enabled source whose condition holds; SOFTWARE is kept (R17, R26). -/
def State.refreshCauses (s : State) (l : LineId) : State :=
  s.modLs l fun q => { q with causes := { q.causes with coilHi := s.coilHiHolds l, trip := s.tripHolds l } }

/-- The LS acts on a new live line section, `old` being the one before (R26). -/
def State.lsApply (s : State) (l : LineId) (old : Bytes) : State :=
  if (s.ls l).state = .shutdown then
    let s1 := s.refreshCauses l
    let s2 := if shutdownStateCode old = shutdownStateCode (s.liveLine l) then s1 else s1.modLs l (·.changeClamp)
    s2.reexamTimer l
  else s

/-- The last-command record's result becomes APPLIED when the record still belongs to `o` (R149). -/
def State.appliedTo (s : State) (o : Owner) : State :=
  if s.cu.owner = o then
    ((s.modCu fun c => { c with record := { c.record with result := .applied, detail := 0 }, owner := .none }).markStatus).markPart
  else s

/-- Steps 1 to 4 of a transfer, for the line section (R153). -/
def State.applyLine (s : State) (l : LineId) (new : Bytes) (tag : Byte) : State :=
  let s1 := s.modCopies l fun c => { c with liveLine := new, pendingLine := none, lineTag := tag }
  let s2 := s1.lsApply l (s.liveLine l)
  let s3 := (s2.resetZones l (s.liveLine l)).reevalLalm l
  (s3.raise .configApplied (.line l) tag.toNat).markLine l

/-- Steps 1 to 4 of a transfer, for the calibration (R153). -/
def State.applyCal (s : State) (l : LineId) (new : Bytes) (tag : Byte) : State :=
  let s1 := s.modCopies l fun c => { c with liveCal := new, pendingCal := none, calTag := tag }
  (s1.raise .configApplied (.line l) tag.toNat).markLine l

/-- The transfer of a pending line section, if there is one (R8, R153). -/
def State.transferLine (s : State) (l : LineId) : State :=
  match (s.copies l).pendingLine with
  | none => s
  | some p => (s.applyLine l p.bytes p.tag).appliedTo (.pendingLine l)

/-- The transfer of a pending calibration, if there is one (R8, R153). -/
def State.transferCal (s : State) (l : LineId) : State :=
  match (s.copies l).pendingCal with
  | none => s
  | some p => (s.applyCal l p.bytes p.tag).appliedTo (.pendingCal l)

/-- The transfer the LS requests at an application moment: the line section first (R8, R153). -/
def State.transfer (s : State) (l : LineId) : State := (s.transferLine l).transferCal l

/-! ## Shutdown entry (R16) -/

/-- Steps 1 to 3 of R16 at the LS. -/
def Sequencer.shutdown (q : Sequencer) (cause : Cause) (coilHi trip : Bool) : Sequencer :=
  { q.noPhase with
    state := .shutdown, stage := .allOffHold, holdTicks := 0, recorded := some cause
    causes := { coilHi := coilHi, trip := trip, software := cause == .software } }

/-- Step 6 of R16: count an attempt, and set lockout at the attempt limit (R19). -/
def State.countAttempt (s : State) (l : LineId) : State :=
  if (s.ls l).profileSincePriming then s
  else
    let n := satInc (s.ls l).attempts
    let s1 := s.modLs l fun q => { q with attempts := n }
    if attemptLimit (s.liveLine l) ≤ n.toNat then
      (s1.modLs l fun q => { q with lockout := true }).raise .restartLockout (.line l) n.toNat
    else s1

/-- Shutdown entry (R16). -/
def State.shutdownEntry (s : State) (l : LineId) (cause : Cause) : State :=
  let s1 := (s.modLs l fun q => q.shutdown cause (s.coilHiHolds l) (s.tripHolds l)).modSru l (·.abandon)
  let s2 := s1.raise .lineShutdown (.line l) cause.code
  let s3 := ((s2.transfer l).countAttempt l).reexamTimer l
  (s3.modSru l (·.rest)).reportLineState l

/-- A source that acts on a driven line (R12). Where both hold, either may be taken first (log 9). -/
def State.actSources (s : State) (l : LineId) : State :=
  if (s.ls l).state.driven then
    match s.coilHiHolds l, s.tripHolds l with
    | false, false => s
    | true, false => s.shutdownEntry l .coilHi
    | false, true => s.shutdownEntry l .trip
    | true, true => s.usedFree.shutdownEntry l (if s.eitherFirst then .coilHi else .trip)
  else s

/-! ## Cycle start and PRIMING (R7, R10) -/

/-- The cycle lengths and drive_duty a cycle start fixes from the live line section (R7). -/
def cycleLengths (b : Bytes) : CycleLengths :=
  { half := halfTicks b, settle := settleTicks b, gap := gapTicks b, duty := driveDuty b }

/-- Steps 2 to 4 of R7 at the LS; `b` is the live line section. -/
def Sequencer.startCycle (q : Sequencer) (b : Bytes) : Sequencer :=
  { q.enterPhase .leadGap with
    lengths := some (cycleLengths b)
    producing := q.state == .running }

/-- The cycle start (R7), with the cycle parameters of the SRU (R34). A source that holds acts after it
(`actSources`; R13, R15, R26; log 17). -/
def State.cycleStart (s : State) (l : LineId) : State :=
  let s1 := s.transfer l
  let b := s1.liveLine l
  let s2 := s1.modLs l fun q => q.startCycle b
  s2.modSru l fun u =>
    { u with params := some (cycleParams b (s1.liveCal l) s.clock.tick (cycleLengths b).total) }

/-- The LS on entry to PRIMING, before its cycle start (R10). -/
def Sequencer.prime (q : Sequencer) : Sequencer :=
  { q.noPhase with state := .priming, profileSincePriming := false, stage := .clamped, holdTicks := 0,
                   restartTimer := none }

/-- Entry to PRIMING (R10). -/
def State.enterPriming (s : State) (l : LineId) : State :=
  let s1 := ((s.modLs l (·.prime)).modSru l (·.prime)).modGzu l (·.prime)
  (s1.reportLineState l).cycleStart l

/-- The LS on entry to OFF (R11, R19, R22). -/
def Sequencer.off (q : Sequencer) : Sequencer :=
  { q.noPhase with state := .off, stage := .clamped, holdTicks := 0, attempts := 0, restartTimer := none }

/-- Entry to OFF (R8, R11, R22). -/
def State.enterOff (s : State) (l : LineId) : State :=
  let s1 := (s.modLs l (·.off)).modSru l (·.rest)
  (s1.transfer l).reportLineState l

/-! ## Phase end (R3, R9, R11, R14) -/

/-- A profile is to be produced at the cycle end (R9). -/
def Sequencer.yields (q : Sequencer) : Bool := q.producing && (q.state == .running || q.state == .stopping)

/-- The cycle end at the SRU and GZU when it calls for a profile (R45, R53), and what it sets at the LS (R19). -/
def State.produce (s : State) (l : LineId) : State :=
  match (s.sru l).params with
  | none => s
  | some p =>
    let prof := (s.sru l).formProfile p l ((s.ls l).state == .stopping)
    let s1 := (s.modSru l fun u => u.afterProfile p).markLine l
    (s1.takeProfile l prof).modLs l fun q => { q with profileSincePriming := true, attempts := 0 }

/-- The cycle end (R9): with a profile, or with the halves discarded (R45). -/
def State.closeCycle (s : State) (l : LineId) : State :=
  if (s.ls l).yields then s.produce l else s.modSru l fun u => { u with halvesP := none }

/-- What follows the cycle end (R3, R10, R11). -/
def State.afterCycle (s : State) (l : LineId) : State :=
  match (s.ls l).state with
  | .stopping => s.enterOff l
  | .priming =>
    (((s.modLs l fun q => { q with state := .running }).reportLineState l).cycleStart l).actSources l
  | .running => (s.cycleStart l).actSources l
  | .off | .shutdown => s

/-- COIL_LO acts at the end of a settle phase (R14). -/
def State.openCoilActs (s : State) (l : LineId) (coilLo : Bool) : Bool := coilLo && openCoilEnable (s.liveLine l)

/-- A phase ends (R3, R9, R14). A line with no phase has none to end (log 1). -/
def State.endPhase (s : State) (l : LineId) (coilLo : Bool) : State :=
  let priming := (s.ls l).state == .priming
  match (s.ls l).phase with
  | none => s
  | some .leadGap => s.modLs l (·.enterPhase .pSettle)
  | some .pSettle =>
    if s.openCoilActs l coilLo then s.shutdownEntry l .openCoil
    else (s.modLs l (·.enterPhase .pWindow)).modSru l (·.openP priming)
  | some .pWindow => (s.modSru l (·.closeP)).modLs l (·.enterPhase .midGap)
  | some .midGap => s.modLs l (·.enterPhase .nSettle)
  | some .nSettle =>
    if s.openCoilActs l coilLo then s.shutdownEntry l .openCoil
    else (s.modLs l (·.enterPhase .nWindow)).modSru l (·.openN priming)
  | some .nWindow => ((s.modLs l fun q => { q with bridge := .allOff }).closeCycle l).afterCycle l

/-! ## SHUTDOWN (R17, R18, R20) -/

/-- The 2 ticks of ALL_OFF_HOLD have run (R18). -/
def State.endHold (s : State) (l : LineId) : State :=
  if (s.ls l).state = .shutdown ∧ (s.ls l).stage = .allOffHold then
    s.modLs l fun q =>
      { q with stage := .clamped, holdTicks := 0, bridge := clampBridge (shutdownStateCode (s.liveLine l)) }
  else s

/-- The restart delay expires (R20). -/
def State.autoRestart (s : State) (l : LineId) : State :=
  if (s.ls l).state = .shutdown ∧ (s.ls l).restartTimer.isSome then
    ((s.enterPriming l).raise .lineRestarted (.line l) 0).actSources l
  else s

/-- COIL_HIn has changed: COIL_HI acts on a driven line, or joins or leaves the causes present in SHUTDOWN, with
the restart delay (R13, R17). -/
def State.coilHiChanged (s : State) (l : LineId) : State :=
  if (s.ls l).state = .shutdown then
    (s.modLs l fun q => { q with causes := { q.causes with coilHi := s.coilHiHolds l } }).reexamTimer l
  else if (s.ls l).state.driven ∧ s.coilHiHolds l then s.shutdownEntry l .coilHi
  else s

/-- COIL_HIn takes a level (R13, R17). A change to the level it has is no event (log 30). -/
def State.setCoilHi (s : State) (l : LineId) (level : Bool) : State :=
  if s.pins.coilHi[l] = level then s
  else { s with pins := { s.pins with coilHi := modAt s.pins.coilHi l fun _ => level } }.coilHiChanged l

/-! ## TRIP (R15) -/

/-- The debounced TRIP state may have changed: TRIP acts on a driven line, or joins or leaves the causes present in
SHUTDOWN, with the restart delay (R15, R17). -/
def State.tripChanged (s : State) (l : LineId) : State :=
  if (s.ls l).state = .shutdown then
    (s.modLs l fun q => { q with causes := { q.causes with trip := s.tripHolds l } }).reexamTimer l
  else if (s.ls l).state.driven ∧ s.tripHolds l then s.shutdownEntry l .trip
  else s

/-- The debounced level becomes `level` and no debounce is in progress (R15). -/
def State.setTripLevel (s : State) (l : LineId) (level : Bool) : State :=
  (s.modLs l fun q => { q with tripLevel := level, debounce := none }).tripChanged l

/-- The debounce in progress completes (R15). -/
def State.completeDebounce (s : State) (l : LineId) : State :=
  match (s.ls l).debounce with
  | some d => s.setTripLevel l d.target
  | none => s

/-- A debounce whose last increment has passed completes before the pin moves again (R15; log 32). -/
def State.completeDue (s : State) (l : LineId) : State :=
  match (s.ls l).debounce with
  | some d => if d.remaining = 0 then s.setTripLevel l d.target else s
  | none => s

/-- TRIPn has its new level: a debounce begins, or is abandoned, or with debounce 0 the level follows at once. -/
def State.followTrip (s : State) (l : LineId) (level : Bool) : State :=
  if level = (s.ls l).tripLevel then s.modLs l fun q => { q with debounce := none }
  else if tripDebounceMs (s.liveLine l) = 0 then s.setTripLevel l level
  else s.modLs l fun q =>
    { q with debounce := some { target := level, remaining := tripDebounceMs (s.liveLine l) } }

/-- TRIPn takes a level (R15). A change to the level it has is no event (log 30). -/
def State.setTrip (s : State) (l : LineId) (level : Bool) : State :=
  if s.pins.trip[l] = level then s
  else
    let s1 := s.completeDue l
    { s1 with pins := { s1.pins with trip := modAt s1.pins.trip l fun _ => level } }.followTrip l level

/-! ## The millisecond counter at the LS (R15, R20, R99) -/

/-- One advance of the millisecond counter at a line. -/
def Sequencer.advanceMs (q : Sequencer) : Sequencer :=
  { q with restartTimer := q.restartTimer.map (· - 1)
           debounce := q.debounce.map fun d => { d with remaining := d.remaining - 1 } }

def State.advanceLines (s : State) : State :=
  { s with lines := s.lines.map fun x => { x with ls := x.ls.advanceMs } }

/-! ## Line commands (R21 to R24) -/

/-- What a line command answers: its result and detail (R157). -/
structure Answer where
  result : CmdResult
  detail : Half
  deriving DecidableEq, Repr

def accepted : Answer := { result := .accepted, detail := 0 }

/-- REFUSED_STATE with the line state code as detail (R157). -/
def State.refusedState (s : State) (l : LineId) : Answer :=
  { result := .refusedState, detail := BitVec.ofNat 16 (s.ls l).state.code }

/-- START (R21). -/
def State.startLine (s : State) (l : LineId) : State × Answer :=
  match (s.ls l).state with
  | .off => ((s.enterPriming l).actSources l, accepted)
  | .stopping => ((s.modLs l fun q => { q with state := .running }).reportLineState l, accepted)
  | .priming | .running | .shutdown => (s, s.refusedState l)

/-- STOP (R22). -/
def State.stopLine (s : State) (l : LineId) : State × Answer :=
  match (s.ls l).state with
  | .running => ((s.modLs l fun q => { q with state := .stopping }).reportLineState l, accepted)
  | .priming => ((s.modSru l (·.abandon)).enterOff l, accepted)
  | .shutdown =>
    ((s.modLs l fun q => { q with causes := .empty, recorded := none, lockout := false }).enterOff l, accepted)
  | .off | .stopping => (s, accepted)

/-- HALT (R23). -/
def State.haltLine (s : State) (l : LineId) : State × Answer :=
  match (s.ls l).state with
  | .priming | .running | .stopping => (s.shutdownEntry l .software, accepted)
  | .shutdown =>
    ((s.modLs l fun q => { q with causes := { q.causes with software := true } }).reexamTimer l, accepted)
  | .off => (s, s.refusedState l)

/-- RESTART (R24). -/
def State.restartLine (s : State) (l : LineId) : State × Answer :=
  match (s.ls l).state with
  | .shutdown =>
    if (s.ls l).causes.coilHi then (s, { result := .refusedState, detail := BitVec.ofNat 16 Cause.coilHi.code })
    else if (s.ls l).causes.trip then (s, { result := .refusedState, detail := BitVec.ofNat 16 Cause.trip.code })
    else
      let s1 := s.modLs l fun q =>
        { q with causes := { q.causes with software := false }, attempts := 0, lockout := false }
      (((s1.enterPriming l).raise .lineRestarted (.line l) 1).actSources l, accepted)
  | .off | .priming | .running | .stopping => (s, s.refusedState l)

end Sys2Proof.Machine
end

