-- ==== Sys2Proof/Machine/Commands.lean ====
section
/-! DEFINITION. The Command Unit: taking a command, commits, freeze, loads, captured writes, the end of
initialization (spec/07 R139 to R142, spec/08, spec/09 R173). -/

namespace Sys2Proof.Machine

/-! ## The last-command record (R147 to R149) -/

/-- What a command answers: result and detail, and what it made (R148). -/
structure Reply where
  result : CmdResult
  detail : Half
  owner : Owner
  deriving DecidableEq, Repr

/-- A reply that made nothing. -/
def reply (r : CmdResult) (detail : Nat) : Reply := { result := r, detail := BitVec.ofNat 16 detail, owner := .none }

/-- The reply of a commit, CLEAR_TOTAL, FREEZE or LOAD that has acted: ACCEPTED or PENDING, with what the command made.
R148 leaves the detail to the command's own rule, and R49, R152, R154 to R159 give these none: that it is 0 is the
model's choice (log 41, DESIGN CHOICE). -/
def actedReply (r : CmdResult) (owner : Owner) : Reply := { result := r, detail := 0, owner := owner }

/-- The taken count of the command being taken (R148). -/
def Cu.nextTaken (c : Cu) : Byte := c.record.taken + 1

/-- Set the last-command record and its owner at a taking (R148). -/
def State.setRecord (s : State) (tag code : Byte) (r : Reply) : State :=
  ((s.modCu fun c =>
    { c with record := { tag := tag, code := code, result := r.result, detail := r.detail, taken := c.nextTaken },
             owner := r.owner }).markStatus).markPart

/-- A commit fails validation: REFUSED_RANGE with the lowest failing field code (R151). -/
def rangeReply (off : Nat) : Reply := { result := .refusedRange, detail := fieldCode off, owner := .none }

/-! ## Line and calibration commits (R152, R154) -/

/-- A committed copy is live at once: the line is OFF or SHUTDOWN (R152). -/
def State.appliesAtOnce (s : State) (l : LineId) : Bool := !(s.ls l).state.driven

/-- COMMIT_LINE past the checks of R148 (R152; its detail log 41). -/
def State.commitLine (s : State) (tag : Byte) (l : LineId) : State × Reply :=
  let staged := (s.copies l).stagedLine
  match firstFailure (lineTests staged) with
  | some off => (s, rangeReply off)
  | none =>
    if s.appliesAtOnce l then (s.applyLine l staged tag, actedReply .accepted .none)
    else
      ((s.modCopies l fun c =>
          { c with pendingLine := some { bytes := staged, tag := tag, taken := s.cu.nextTaken } }).markLine l,
       actedReply .pending (.pendingLine l))

/-- COMMIT_CAL past the checks of R148 (R154; its detail log 41). -/
def State.commitCal (s : State) (tag : Byte) (l : LineId) : State × Reply :=
  let staged := (s.copies l).stagedCal
  match firstFailure (calTests staged) with
  | some off => (s, rangeReply off)
  | none =>
    if s.appliesAtOnce l then (s.applyCal l staged tag, actedReply .accepted .none)
    else
      ((s.modCopies l fun c =>
          { c with pendingCal := some { bytes := staged, tag := tag, taken := s.cu.nextTaken } }).markLine l,
       actedReply .pending (.pendingCal l))

/-! ## Window and delivery commits (R155, R156) -/

/-- The staged window section becomes live with its tag (R155). -/
def State.liveWindowsFrom (s : State) (tag : Byte) : State :=
  s.modCu fun c => { c with liveWindows := c.stagedWindows, windowTag := tag }

/-- The WU acts on the window section made live and the CU raises CONFIG_APPLIED. Where the commit returns the part
to ATTENDED, the two blocks' notices may be taken in either order (R101; log 10). -/
def State.windowsLive (s : State) (tag : Byte) : State :=
  let held := s.unattendedWindows
  let old := s.cu.liveWindows
  let s1 := s.liveWindowsFrom tag
  let applied (t : State) : State := t.raise .configApplied .part tag.toNat
  let worked (t : State) : State := t.applyWindows old held
  if s.wu.attendance = .unattended then
    if s.eitherFirst then worked (applied s1.usedFree) else applied (worked s1.usedFree)
  else applied (worked s1)

/-- COMMIT_WINDOWS past the checks of R148 (R155; its detail log 41). -/
def State.commitWindows (s : State) (tag : Byte) : State × Reply :=
  match firstFailure (windowsTests s.cu.stagedWindows) with
  | some off => (s, rangeReply off)
  | none => ((s.windowsLive tag).markPart, actedReply .accepted .none)

/-- COMMIT_DELIVERY past the checks of R148: the staged copy is handed to the DE as an arming request, in place of
one that waits (R79, R156; its detail log 41). -/
def State.commitDelivery (s : State) (tag : Byte) : State × Reply :=
  match firstFailure (deliveryTests s.cu.stagedDelivery) with
  | some off => (s, rangeReply off)
  | none =>
    (s.modDe fun d =>
        { d with arming := some { bytes := s.cu.stagedDelivery, tag := tag, taken := s.cu.nextTaken } },
     actedReply .accepted .arming)

/-! ## Line commands, totals, freeze (R157, R158) -/

/-- A line command's answer as a reply (R157). -/
def answered (a : State × Answer) : State × Reply :=
  (a.1, { result := a.2.result, detail := a.2.detail, owner := .none })

/-- CLEAR_TOTAL past the checks of R148 (R49; its detail log 41). -/
def State.clearTotal (s : State) (l : LineId) : State × Reply :=
  ((s.modSru l (·.clearTotals)).markLine l, actedReply .accepted .none)

/-- The calibration copies of a line at a FREEZE: staged from live, pending discarded (R158, R182). -/
def LineCopies.freeze (c : LineCopies) : LineCopies := { c with stagedCal := c.liveCal, pendingCal := none }

/-- Mark the line status pages that lose a pending mark (R158). -/
def State.markPendingCals (s : State) : State :=
  (List.finRange 4).foldl (fun t l => if (s.copies l).pendingCal.isSome then t.markLine l else t) s

/-- FREEZE past the checks of R148 (R158; its detail log 41). -/
def State.freeze (s : State) : State × Reply :=
  if s.cu.frozen then (s, actedReply .accepted .none)
  else
    let s1 := s.markPendingCals.modCu fun c => { c with frozen := true, lines := c.lines.map (·.freeze) }
    ((s1.raise .freezeSet .part 0).markPart, actedReply .accepted .none)

/-! ## Loads (R159 to R161) -/

/-- The staged bytes a section code covers, in ascending order of offset (R150, R159). -/
def Cu.stagedBytes (c : Cu) (code : Nat) (frozen : Bool) : List Byte :=
  let line (l : LineId) := c.lines[l].stagedLine.toList
  let cal (l : LineId) := c.lines[l].stagedCal.toList
  if code ≤ 3 then line (Fin.ofNat 4 code)
  else if code ≤ 7 then cal (Fin.ofNat 4 (code - 4))
  else if code = 8 then c.stagedWindows.toList
  else if code = 9 then c.stagedDelivery.toList
  else
    c.stagedDelivery.toList ++ c.stagedWindows.toList ++ (List.finRange 4).flatMap line
      ++ (if frozen then [] else (List.finRange 4).flatMap cal)

/-- LOAD past the checks of R148 (R159; its detail log 41). -/
def State.startLoad (s : State) (code : Nat) : State × Reply :=
  ((s.modCu fun c =>
      { c with state := .loading
               load := some { code := code, start := loadStart code, left := loadOffsets code c.frozen,
                              buffer := c.stagedBytes code c.frozen } }).markPart,
   actedReply .accepted .load)

/-- The section that 256 buffer bytes from `i` on hold. -/
def sectionAt (buffer : List Byte) (i : Nat) : Bytes := sectionOf ((buffer.drop i).take 256)

/-- Replace the staged copy of every section a load covers with the buffer's words for it (R161). -/
def Cu.takeBuffer (c : Cu) (load : Load) : Cu :=
  let buf := load.buffer
  if load.code ≤ 3 then
    { c with lines := modAt c.lines (Fin.ofNat 4 load.code) fun x => { x with stagedLine := sectionAt buf 0 } }
  else if load.code ≤ 7 then
    { c with lines := modAt c.lines (Fin.ofNat 4 (load.code - 4)) fun x => { x with stagedCal := sectionAt buf 0 } }
  else if load.code = 8 then { c with stagedWindows := sectionAt buf 0 }
  else if load.code = 9 then { c with stagedDelivery := sectionAt buf 0 }
  else
    { c with
      stagedDelivery := sectionAt buf 0
      stagedWindows := sectionAt buf 256
      lines := Vector.ofFn fun l : LineId =>
        { c.lines[l] with
          stagedLine := sectionAt buf (512 + 256 * l.val)
          stagedCal := if buf.length ≤ 1536 then c.lines[l].stagedCal else sectionAt buf (1536 + 256 * l.val) } }

/-- The load's result when the last-command record still belongs to it (R149). -/
def Cu.loadResult (c : Cu) (r : CmdResult) (detail : Nat) : Cu :=
  if c.owner = .load then
    { c with record := { c.record with result := r, detail := BitVec.ofNat 16 detail }, owner := .none }
  else c

/-- Mark the command status when the last-command record still belongs to the load (R149). -/
def State.markLoadStatus (s : State) : State := if s.cu.owner = .load then s.markStatus else s

/-- The last offset has been read: the load completes (R161). -/
def State.loadDone (s : State) (load : Load) : State :=
  let s1 := s.markLoadStatus.modCu fun c =>
    { (c.takeBuffer load).loadResult .loaded (load.buffer.length / 4) with state := .idle, load := none }
  (s1.raise .loadDone .part load.code).markPart

/-- A load read ends with ERR: the load is abandoned (R161). -/
def State.loadAbandoned (s : State) (load : Load) (off : Nat) : State :=
  let s1 := s.markLoadStatus.modCu fun c =>
    { c.loadResult .loadFailed off with state := .idle, load := none, loadFaults := satInc c.loadFaults }
  (s1.raise .loadFault .part load.code).markPart

/-- The word read replaces the word at its offset in the buffer, and the offset leaves the list (R160). -/
def Load.take (x : Load) (off : Nat) (data : Word) : Load :=
  { x with left := x.left.filter (· != off), buffer := mergeBytes x.buffer (off - x.start) 0xF#4 data }

/-- A load read completes at the CU (R160, R161). -/
def State.loadRead (s : State) (off : Nat) (err : Bool) (data : Word) : State :=
  match s.cu.load with
  | none => s
  | some x =>
    if err then s.loadAbandoned x off
    else if (x.take off data).left.isEmpty then s.loadDone (x.take off data)
    else s.modCu fun c => { c with load := some (x.take off data) }

/-! ## Captured writes (R139, R160) -/

/-- The gauge area offset at which a captured section starts (Table 7-1). -/
def SectionId.start : SectionId → Nat
  | .delivery => 0x0200
  | .windows => 0x0300
  | .line l => 0x0400 + 256 * l.val
  | .cal l => 0x0800 + 256 * l.val

/-- Merge a write into the staged copy of its section; `i` is the word's offset within the section (R139). -/
def Cu.mergeStaged (c : Cu) (sec : SectionId) (i : Nat) (be : BitVec 4) (data : Word) : Cu :=
  match sec with
  | .delivery => { c with stagedDelivery := mergeSection c.stagedDelivery i be data }
  | .windows => { c with stagedWindows := mergeSection c.stagedWindows i be data }
  | .line l => { c with lines := modAt c.lines l fun x => { x with stagedLine := mergeSection x.stagedLine i be data } }
  | .cal l => { c with lines := modAt c.lines l fun x => { x with stagedCal := mergeSection x.stagedCal i be data } }

/-- Merge a write at a gauge area offset into the load buffer when the word is on the load's list (R160). -/
def Load.capture (x : Load) (off : Nat) (be : BitVec 4) (data : Word) : Load :=
  if x.start ≤ off then { x with buffer := mergeBytes x.buffer (off - x.start) be data } else x

/-- A captured write at a gauge area offset (R139, R160). -/
def State.capture (s : State) (sec : SectionId) (off : Nat) (be : BitVec 4) (data : Word) : State :=
  s.modCu fun c =>
    { c.mergeStaged sec (off - sec.start) be data with load := c.load.map fun x => x.capture off be data }

/-! ## Taking a command (R148) -/

/-- The first of the checks two to five of R148 that applies. -/
def State.refusal (s : State) (code operand : Byte) : Option Reply :=
  if s.cu.state ≠ .idle then some (reply .refusedBusy s.cu.state.code)
  else if !knownCode code then some (reply .refusedUnknown code.toNat)
  else if operandOut code operand then some (reply .refusedRange 0)
  else if touchesCalibration code operand && s.cu.frozen then some (reply .refusedFrozen 0)
  else none

/-- The command itself, past the checks of R148 (Table 8-1). -/
def State.runCommand (s : State) (tag code operand : Byte) : State × Reply :=
  let l := operandLine operand
  match code.toNat with
  | 1 => s.commitLine tag l
  | 2 => s.commitCal tag l
  | 3 => s.commitWindows tag
  | 4 => s.commitDelivery tag
  | 5 => s.startLoad operand.toNat
  | 6 => answered (s.startLine l)
  | 7 => answered (s.stopLine l)
  | 8 => answered (s.haltLine l)
  | 9 => answered (s.restartLine l)
  | 10 => s.clearTotal l
  | 11 => s.freeze
  | n => (s, reply .refusedUnknown n)

/-- Take a full-word command (R148). -/
def State.takeCommand (s : State) (tag code operand : Byte) : State :=
  match s.refusal code operand with
  | some r => s.setRecord tag code r
  | none => (s.runCommand tag code operand).1.setRecord tag code (s.runCommand tag code operand).2

/-- Answer a partial write: REFUSED_UNKNOWN with detail PARTIAL (R148). -/
def State.takePartial (s : State) (be : BitVec 4) (data : Word) : State :=
  s.setRecord (writtenByte be data 0) (writtenByte be data 1) (reply .refusedUnknown 0x0100)

/-- A command write handed to the CU (R141, R148). -/
def State.takeCommandWrite (s : State) (be : BitVec 4) (data : Word) : State :=
  if fullWord be then s.takeCommand (cmdTag data) (cmdCode data) (cmdOperand data) else s.takePartial be data

/-! ## The end of initialization (R162) -/

/-- An initial page write has ended; with the last, the CU enters IDLE and sets the ready flag (R162). -/
def State.pageEnded (s : State) (p : PageId) : State :=
  if s.cu.state = .init then
    if (s.cu.initLeft.filter (· != p)).isEmpty then
      (s.modCu fun c => { c with initLeft := [], state := .idle, ready := true }).markPart
    else s.modCu fun c => { c with initLeft := c.initLeft.filter (· != p) }
  else s

end Sys2Proof.Machine
end

