-- ==== Sys2Proof/Machine/Arbiter.lean ====
section
/-! DEFINITION. Who has the downstream port: holds, the engine order, the access a grant to the Delivery Engine places on
the port, and the arbiter (spec/06; spec/04 R81 to R91). -/

namespace Sys2Proof.Machine

/-! ## Holds (R125, R126) -/

/-- The words of a status page in flight, the fresh words left out (R125). -/
def inPage (p : PageId) (off : Nat) : Bool :=
  match ringLine p with
  | some l => decide (0x1000 + 512 * l.val ≤ off) && decide (off < 0x1000 + 512 * l.val + 512)
  | none => decide (0x0008 ≤ off) && decide (off < 0x0100)

/-- The word at an offset is the W word of a ring. -/
def isWWord (r : RingId) (off : Nat) : Bool := decide (wWordOffset r ≤ off) && decide (off < wWordOffset r + 4)

/-- The write in flight covers the word at an offset (R83, R125). -/
def Flight.covers (f : Flight) (off : Nat) : Bool :=
  match f with
  | .record r slot words _ => (decide (slot ≤ off) && decide (off < slot + 4 * words.length)) || isWWord r off
  | .page p _ _ => inPage p off

/-- The hold test of a word (R125). -/
def State.holdTest (s : State) (addr : Addr) : Bool :=
  match s.areaOffset addr with
  | none => false
  | some off =>
    (match s.de.flight with | some f => f.covers off | none => false)
      || (List.finRange 5).any fun r => (s.ring r).resetOut && isWWord r off

/-- Replace the request in hand. -/
def State.setRequest (s : State) (r : Option Request) : State := s.modMp fun m => { m with request := r }

/-- A request the hold test is applied to: a read other than a fresh read (R125). -/
def Request.holdable (r : Request) : Bool := !r.access.write && r.fresh.isNone

/-- Apply the hold test again to a WAITING read (R125). -/
def State.retestRead (s : State) : State :=
  match s.mp.request with
  | some r =>
    if r.stage = .waiting ∧ r.holdable ∧ s.holdTest r.access.addr then s.setRequest (some { r with stage := .held })
    else s
  | none => s

/-- Release a HELD read that the test no longer covers (R126). -/
def State.releaseHeld (s : State) : State :=
  match s.mp.request with
  | some r =>
    if r.stage = .held ∧ !s.holdTest r.access.addr then s.setRequest (some { r with stage := .waiting }) else s
  | none => s

/-! ## Engine order (R86) -/

/-- An item of the engine order, or the next word of the write in flight (R86). -/
inductive DeWork where
  | fresh (w : FreshWord)
  | flightWord
  | indexReset (r : RingId)
  | commandStatus
  | loadRead (off : Nat)
  | notice (e : Entry)
  | profile (l : LineId) (g : Staged)
  | page (p : PageId)
  deriving DecidableEq, Repr

/-- A waiting arming request takes effect when no record or page is in flight (R79). -/
def State.armingDue (s : State) : Bool := s.de.arming.isSome && s.de.flight.isNone

/-- The lowest-coded ring whose index reset is outstanding (R81). -/
def State.nextIndexReset (s : State) : Option RingId := (List.finRange 5).find? fun r => (s.ring r).resetOut

/-- The next read of a load (R91). -/
def Cu.nextLoadRead (c : Cu) : Option Nat :=
  match c.load with
  | some x => x.left.head?
  | none => none

/-- The notice entry the NU offers, when the notice ring can take it (R82, R104, R106). -/
def State.nextNotice (s : State) : Option Entry :=
  if (s.ring noticeRing).canTake then s.nu.nextEntry else none

/-- The head of a line's queue, when its ring can take it (R82). -/
def State.lineRecord (s : State) (l : LineId) : Option (LineId × Staged) :=
  if (s.ring (profileRing l)).canTake then (s.staging l).queue.head?.map fun g => (l, g) else none

/-- Of two lines with a record, the later one only when its record priority is higher (R86 item 6). -/
def State.betterRecord (s : State) (best : Option (LineId × Staged)) (l : LineId) : Option (LineId × Staged) :=
  match best, s.lineRecord l with
  | none, x => x
  | some b, none => some b
  | some b, some x =>
    if (s.ring (profileRing b.1)).priority < (s.ring (profileRing x.1)).priority then some x else some b

/-- The profile record to begin (R86 item 6). -/
def State.nextProfile (s : State) : Option (LineId × Staged) := (List.finRange 4).foldl s.betterRecord none

/-- The cyclic order of the pages from the one after the page last begun (R86 item 7). -/
def pageRotation (last : Option PageId) : List PageId :=
  match last with
  | none => [0, 1, 2, 3, 4]
  | some p => [p + 1, p + 2, p + 3, p + 4, p]

/-- The status page to begin: dirty and not FAULTED, in rotation (R86 item 7). -/
def State.nextPage (s : State) : Option PageId :=
  (pageRotation s.de.lastPage).find? fun p => (s.page p).dirty && !(s.page p).faulted

/-- Items 5 to 7 of the engine order, which a waiting arming request withholds (R86). -/
def State.nextBeginning (s : State) : Option DeWork :=
  if s.de.arming.isSome then none
  else
    match s.nextNotice, s.nextProfile, s.nextPage with
    | some e, _, _ => some (.notice e)
    | none, some g, _ => some (.profile g.1 g.2)
    | none, none, some p => some (.page p)
    | none, none, none => none

/-- The next access of the DE (R86). -/
def State.deNext (s : State) : Option DeWork :=
  match s.de.fresh with
  | w :: _ => some (.fresh w)
  | [] =>
    if s.de.flight.isSome then some .flightWord
    else
      match s.nextIndexReset with
      | some r => some (.indexReset r)
      | none =>
        if s.de.statusDirty then some .commandStatus
        else
          match s.cu.nextLoadRead with
          | some off => some (.loadRead off)
          | none => s.nextBeginning

/-! ## The access of a grant to the DE (R81, R82, R86 to R91, R130) -/

/-- Put an access of the DE on the port; a grant to the DE sets the passed-over count to 0 (R130). -/
def State.putDe (s : State) (kind : DeKind) (a : Access) : State :=
  s.modMp fun m => { m with port := .de kind a, passed := 0 }

/-- A full-word write of the DE at a gauge area offset (R95). -/
def State.deWrite (s : State) (off : Nat) (data : Word) : Access :=
  { addr := s.areaAddr off, write := true, be := 0xF#4, data := data }

/-- A read of the DE at a gauge area offset (R91). -/
def State.deRead (s : State) (off : Nat) : Access :=
  { addr := s.areaAddr off, write := false, be := 0xF#4, data := 0 }

/-- The value a delivery writes to a ring's W word: W + 1 in the low 16 bits (R78, R82). -/
def RingDesc.nextW (d : RingDesc) : Word := (d.w + 1).setWidth 32

/-- Put the next word of the write in flight on the port (R82, R87). -/
def State.putFlightWord (s : State) : State :=
  match s.de.flight with
  | none => s
  | some (.record r slot words done) =>
    match words[done]? with
    | some w => s.putDe .recordWord (s.deWrite (slot + 4 * done) w)
    | none => s.putDe .wWord (s.deWrite (wWordOffset r) (s.ring r).nextW)
  | some (.page _ words done) =>
    match words[done]? with
    | some w => s.putDe .pageWord (s.deWrite w.1 w.2)
    | none => s

/-- The gauge area offset of the slot of index W of a ring (R78). -/
def RingDesc.slot (d : RingDesc) (r : RingId) : Nat := d.base + d.w.toNat % d.capacity * recordSize r.val

/-- Begin a write that is in flight from now on: its first word goes on the port (R82, R87, R125). -/
def State.beginFlight (s : State) (f : Flight) : State :=
  ((s.modDe fun d => { d with flight := some f }).putFlightWord).retestRead

/-- Begin a notice entry: the NU marks it in flight (R82, R104, R106, R107). -/
def State.beginNotice (s : State) (e : Entry) : State :=
  (s.modNu (·.takeFlight)).beginFlight
    (.record noticeRing ((s.ring noticeRing).slot noticeRing) (wordsOf (e.bytes s.nu.sequence)) 0)

/-- Begin a profile record (R82). -/
def State.beginProfile (s : State) (l : LineId) (g : Staged) : State :=
  s.beginFlight (.record (profileRing l) ((s.ring (profileRing l)).slot (profileRing l)) (wordsOf g.bytes) 0)

/-- The first write of the part status page carries the fresh words (R87, R96). -/
def State.firstPartWrite (s : State) (p : PageId) : Bool := p == partPage && s.cu.initLeft.contains p

/-- Begin a status page: snapshot, mark clean (R87). -/
def State.beginPage (s : State) (p : PageId) : State :=
  let snap := s.pageSnapshot p (s.firstPartWrite p)
  ((s.modPage p fun m => { m with dirty := false }).modDe fun d => { d with lastPage := some p }).beginFlight
    (.page p snap 0)

/-- The gauge area offset of the command status word (R179). -/
def statusOffset : Nat := 0x0104

/-- Issue the command status word with the values current, and mark it clean (R89). -/
def State.issueStatus (s : State) : State :=
  (s.putDe .commandStatus (s.deWrite statusOffset s.cu.record.word)).modDe fun d => { d with statusDirty := false }

/-- Issue a refresh of a fresh word with the value of now; for the activity summary word the WU clears the
matched-since-refresh marks (R90, R167). -/
def State.issueRefresh (s : State) (w : FreshWord) : State :=
  let v := s.freshValue w
  let s1 := (s.putDe (.refresh w v) (s.deWrite w.offset v)).modDe fun d => { d with fresh := d.fresh.drop 1 }
  match w with
  | .activity => s1.clearMatched
  | .milliseconds => s1

/-- The grant of the port to the DE for its chosen work: the access is on the port at once, and a record or page it begins
is in flight from then on (R129, R130). -/
def State.beginWork (s : State) : DeWork → State
  | .fresh w => s.issueRefresh w
  | .flightWord => (s.modMp fun m => { m with passed := 0 }).putFlightWord
  | .indexReset r => s.putDe (.indexReset r false) (s.deWrite (wWordOffset r) 0)
  | .commandStatus => s.issueStatus
  | .loadRead off => s.putDe (.loadRead off) (s.deRead off)
  | .notice e => s.beginNotice e
  | .profile l g => s.beginProfile l g
  | .page p => s.beginPage p

/-! ## The arbiter (R129, R130) -/

/-- The host claimant: a WAITING request (R129). -/
def State.hostClaims (s : State) : Bool :=
  match s.mp.request with
  | some r => r.stage == .waiting
  | none => false

/-- Put the request in hand on the port (R122). -/
def State.grantHost (s : State) (passed : Nat) : State :=
  s.modMp fun m =>
    match m.request with
    | some r => { m with request := some { r with stage := .onPort }, port := .host true r.access, passed := passed }
    | none => m

/-- Grant the port to the DE: the choice of R86 is made at the grant (R129, R130). -/
def State.grantDe (s : State) : State :=
  match s.deNext with
  | some w => s.beginWork w
  | none => s

/-- Grant a FREE port by the table of R130. An arming that is due comes before the grant (R79, R121; log 7). -/
def State.arbitrate (s : State) : State :=
  match s.mp.port with
  | .free =>
    if s.armingDue then s
    else
      match s.hostClaims, s.deNext with
      | true, none => s.grantHost s.mp.passed
      | true, some _ =>
        if s.mp.passed < patience s.liveDelivery then s.grantHost (s.mp.passed + 1) else s.grantDe
      | false, some _ => s.grantDe
      | false, none => s
  | .host _ _ | .de _ _ => s

/-- A FREE port is the DE's when it claims: no arming is due, and no host claimant wins (R130; log 7). -/
def State.deWins (s : State) : Bool :=
  match s.mp.port with
  | .free => !s.armingDue && (!s.hostClaims || decide (patience s.liveDelivery ≤ s.mp.passed))
  | .host _ _ | .de _ _ => false

/-- The port is the DE's, and this is the work it has next (R86, R130). -/
def State.deMay (s : State) (w : DeWork) : Bool := s.deWins && s.deNext == some w

end Sys2Proof.Machine
end

