-- ==== Sys2Proof/Machine/Path.lean ====
section
/-! DEFINITION. The Memory Path: host requests, their taking and their completion, bus reset (spec/06). -/

namespace Sys2Proof.Machine

/-- The port becomes FREE (R118). -/
def State.freePort (s : State) : State := s.modMp fun m => { m with port := .free }

/-! ## Taking a request (R119, R120, R125, R127) -/

/-- The MP takes requests: none in hand, NORMAL (R117). -/
def State.takesRequests (s : State) : Bool := s.mp.request.isNone && !s.mp.inReset

/-- Complete the request upstream; the MP then holds none (R117). -/
def State.completeUp (s : State) (err : Bool) (data : Option Word) : State :=
  s.modMp fun m => { m with request := none, completion := some { err := err, data := data } }

/-- Ask the DE for a refresh of a fresh word (R127; log 8). -/
def State.askRefresh (s : State) (w : FreshWord) : State :=
  s.modDe fun d => { d with fresh := if d.fresh.contains w then d.fresh else d.fresh ++ [w] }

/-- Place a request that is not suppressed in its stage (R119). -/
def State.placeRequest (s : State) (a : Access) : State :=
  if a.write then
    s.setRequest (some { access := a, target := s.targetOf a.addr, fresh := none, stage := .waiting, refreshed := none })
  else
    match s.freshOf a.addr with
    | some w =>
      (s.setRequest (some { access := a, target := .none, fresh := some w, stage := .refreshing,
                            refreshed := none })).askRefresh w
    | none =>
      s.setRequest (some { access := a, target := .none, fresh := none,
                           stage := if s.holdTest a.addr then .held else .waiting, refreshed := none })

/-- Take a request: classify it, report a suppression, match it against the windows, then suppress it or place it in its
stage (R119, R120, R130, R138, R166; log 11). -/
def State.takeRequest (s : State) (a : Access) : State :=
  let s1 := s.modMp fun m => { m with completion := none }
  if a.write ∧ s.suppresses a.addr then
    ((s1.reportSuppression a.addr).matchAll a.addr.toNat a.write).completeUp false none
  else (s1.matchAll a.addr.toNat a.write).placeRequest a

/-! ## Rd captures (R84, R183) -/

/-- The notice source of a ring: its line, or PART for N (R84). -/
def ringSource (r : RingId) : Source :=
  match ringLine r with
  | some l => .line l
  | none => .part

/-- The number of records an Rd capture would consume (R84). -/
def RingDesc.advance (d : RingDesc) (newRd : Half) : Nat := (newRd - d.rd).toNat

/-- An Rd capture (R84). -/
def State.captureRd (s : State) (r : RingId) (newRd : Half) : State :=
  let d := s.ring r
  if !d.armed then s
  else if d.advance newRd ≤ d.fill then
    let s1 := (s.modRing r fun x => { x with rd := newRd }).markPart
    if r = noticeRing then s1.consumed (d.advance newRd) else s1
  else s.raise .ringIndex (ringSource r) r.val

/-! ## Completion of a forwarded access (R122 to R124, R128) -/

/-- Hand a write completed OK to the block that captures it (R123). -/
def State.handOver (s : State) (r : Request) : State :=
  match r.target with
  | .none => s
  | .captured sec =>
    match s.areaOffset r.access.addr with
    | some off => s.capture sec (off / 4 * 4) r.access.be r.access.data
    | none => s
  | .commandSlot => s.takeCommandWrite r.access.be r.access.data
  | .readIndex ring =>
    if fullWord r.access.be then s.captureRd ring (r.access.data.setWidth 16) else s

/-- After a fresh read of the activity summary word was completed OK, the WU clears the flags reported (R128). -/
def State.afterFreshRead (s : State) (r : Request) : State :=
  match r.refreshed with
  | some v => s.clearReported v
  | none => s

/-- The kept host access on the port completes, and the port is FREE (R118, R122, R123, R124). -/
def State.completeHost (s : State) (err : Bool) (data : Word) : State :=
  match s.mp.port, s.mp.request with
  | .host true _, some r =>
    if r.stage = .onPort then
      let s1 := if r.access.write ∧ !err then s.handOver r else s
      let s2 := (s1.freePort).completeUp err (if r.access.write then none else some data)
      if err ∨ r.access.write then s2 else s2.afterFreshRead r
    else s
  | _, _ => s

/-- The kept host access on the port is this write, captured to this target. -/
def State.writeOnPort (s : State) (target : CaptureTarget) (be : BitVec 4) (data : Word) : Bool :=
  match s.mp.port, s.mp.request with
  | .host true _, some r =>
    r.stage == .onPort && r.access.write && r.target == target && r.access.be == be && r.access.data == data
  | _, _ => false

/-- The kept host access on the port is a full-word command with these fields. -/
def State.commandOnPort (s : State) (tag code operand : Byte) : Bool :=
  match s.mp.port, s.mp.request with
  | .host true _, some r =>
    r.stage == .onPort && r.access.write && r.target == .commandSlot && fullWord r.access.be
      && cmdTag r.access.data == tag && cmdCode r.access.data == code && cmdOperand r.access.data == operand
  | _, _ => false

/-- The write of a command word completes OK: the CU takes it, and its completion goes upstream (R123, R148). -/
def State.commandStep (s : State) (tag code operand : Byte) : State :=
  if s.commandOnPort tag code operand then s.completeHost false 0 else s

/-- A captured write at an offset completes OK (R139). -/
def State.capturedStep (s : State) (off : Half) (be : BitVec 4) (data : Word) : State :=
  match s.mp.request with
  | some r =>
    match r.target with
    | .captured sec =>
      if s.writeOnPort (.captured sec) be data ∧ s.areaOffset r.access.addr = some off.toNat then
        s.completeHost false 0
      else s
    | .none | .commandSlot | .readIndex _ => s
  | none => s

/-- A full-word write of an Rd word completes OK (R84). -/
def State.rdStep (s : State) (r : RingId) (data : Word) : State :=
  if s.writeOnPort (.readIndex r) 0xF#4 data then s.completeHost false 0 else s

/-- The kept host access on the port is a fresh read of the activity summary word. -/
def State.activityOnPort (s : State) : Bool :=
  match s.mp.port, s.mp.request with
  | .host true _, some r => r.stage == .onPort && !r.access.write && r.fresh == some .activity
  | _, _ => false

/-- The fresh read of the activity summary word completes OK (R128). -/
def State.activityStep (s : State) (data : Word) : State :=
  if s.activityOnPort then s.completeHost false data else s

/-- A partial write of the command slot completes OK (R148). -/
def State.partialStep (s : State) (be : BitVec 4) (data : Word) : State :=
  if s.writeOnPort .commandSlot be data ∧ !fullWord be then s.completeHost false 0 else s

/-- A discarded host access completes: delivered to nobody (R131). -/
def State.completeDiscarded (s : State) : State :=
  match s.mp.port with
  | .host false _ => s.freePort
  | .host true _ | .free | .de _ _ => s

/-! ## Bus reset (R113, R131, R132) -/

/-- Mark a host access on the port discarded (R131). -/
def Port.discard : Port → Port
  | .host _ a => .host false a
  | .free => .free
  | .de k a => .de k a

/-- BRST becomes asserted (R131, R113). -/
def State.assertBrst (s : State) : State :=
  if s.pins.brst then s
  else
    (({ s with pins := { s.pins with brst := true } }).modMp fun m =>
      { m with request := none, port := m.port.discard, inReset := true, resetCounted := true,
               completion := none }).reevalAttn

/-- The bus reset is counted and raises BUS_RESET, unless its assertion was found at PORn release (R132). -/
def State.countReset (s : State) : State :=
  if s.mp.resetCounted then
    ((s.modMp fun m => { m with resets := satInc m.resets }).markPart).raise .busReset .part 0
  else s

/-- BRST is released (R132, R113). -/
def State.releaseBrst (s : State) : State :=
  if s.pins.brst then
    ((({ s with pins := { s.pins with brst := false } }).modMp fun m => { m with inReset := false }).reevalAttn).countReset
  else s

end Sys2Proof.Machine
end

