-- ==== Sys2Proof/Machine/Delivery.lean ====
section
/-! DEFINITION. The Delivery Engine: arming, the rows that grant it a FREE port, and the completions and faults of its
accesses (spec/04). -/

namespace Sys2Proof.Machine

/-! ## Arming (R79, R80, R121, R156) -/

/-- A ring armed and reset (R80). R74 gives priority, batch count and countdown to P0 to P3 only, and R140 gives ring N no
such fields: that N's items take the bytes at the fields' places is the model's choice (log 35), and nothing reads
them. -/
def armReset (b : Bytes) (r : RingId) : RingDesc :=
  { armed := true, base := ringBase b r.val, capacity := ringCapacity b r.val, faulted := false, w := 0, rd := 0,
    resetOut := true, priority := ringPriority b r.val, batch := ringBatch b r.val,
    countdown := ringBatch b r.val }

/-- A ring kept (R80); ring N's priority, batch count and countdown as at `armReset` (log 35). -/
def RingDesc.keep (d : RingDesc) (b : Bytes) (r : RingId) : RingDesc :=
  { d with priority := ringPriority b r.val, batch := ringBatch b r.val, countdown := ringBatch b r.val }

/-- An armed ring is kept by an arming that enables it: not FAULTED, geometry unchanged (R80). -/
def RingDesc.kept (d : RingDesc) (b : Bytes) (r : RingId) : Bool :=
  d.armed && !d.faulted && decide (d.base = ringBase b r.val) && decide (d.capacity = ringCapacity b r.val)

/-- What an arming makes of a ring (R80). -/
def armRing (b : Bytes) (r : RingId) (d : RingDesc) : RingDesc :=
  if !ringEnable b r.val then .unarmed else if d.kept b r then d.keep b r else armReset b r

/-- An index reset write on the port whose ring the arming unarms or resets again is overtaken (R81). -/
def Port.overtake (p : Port) (b : Bytes) (rings : Vector RingDesc 5) : Port :=
  match p with
  | .de (.indexReset r o) a => .de (.indexReset r (o || !(ringEnable b r.val && rings[r].kept b r))) a
  | .free | .host _ _ | .de _ _ => p

/-- The DE applies the section: rings, page marks (R79, R80). -/
def De.arm (d : De) (b : Bytes) : De :=
  { d with rings := Vector.ofFn fun r : RingId => armRing b r d.rings[r]
           pages := d.pages.map fun _ => { dirty := true, faulted := false }
           arming := none }

/-- The NU is told of the notice ring: an arming that does not keep it empties the outstanding list, and one that
disables it returns a waiting offer to the backlog (R80, R104, R110). -/
def State.armNotices (s : State) (b : Bytes) (before : RingDesc) : State :=
  let emptied := if ringEnable b 4 && before.kept b noticeRing then s else s.modNu fun n => { n with outstanding := [] }
  if ringEnable b 4 then emptied else emptied.returnWaitingOffer

/-- A WAITING write that the arming makes owned is suppressed (R121). -/
def State.rewriteOwned (s : State) : State :=
  match s.mp.request with
  | some r =>
    if r.stage = .waiting ∧ r.access.write ∧ s.suppresses r.access.addr then
      (s.reportSuppression r.access.addr).completeUp false none
    else s
  | none => s

/-- The arming suppresses the WAITING write (R121). -/
def State.armingSuppresses (s : State) : Bool :=
  match s.mp.request with
  | some r => r.stage == .waiting && r.access.write && s.suppresses r.access.addr
  | none => false

/-- The CU hears of the arming: CONFIG_APPLIED and APPLIED (R149, R156). -/
def State.armingApplied (s : State) (tag : Byte) : State :=
  (s.raise .configApplied .part tag.toNat).appliedTo .arming

/-- The arming request takes effect (R79). Where it also suppresses a WAITING write, the notices of the WU and of the
CU may be taken in either order (R101; log 10). A read held for an index reset whose mark the arming clears is released
at the arming, also where its write, overtaken, is still on the port (R81, R126; log 33). -/
def State.takeArming (s : State) : State :=
  match s.de.arming with
  | none => s
  | some a =>
    if s.de.flight.isSome then s
    else
      let s1 := (s.modMp fun m => { m with port := m.port.overtake a.bytes s.de.rings }).modDe fun d => d.arm a.bytes
      let s2 := s1.modCu fun c => { c with liveDelivery := a.bytes, deliveryTag := a.tag }
      let s3 := (s2.armNotices a.bytes (s.ring noticeRing)).reevalAttn
      let s4 :=
        if s3.armingSuppresses then
          if s.eitherFirst then (s3.usedFree.rewriteOwned).armingApplied a.tag
          else (s3.usedFree.armingApplied a.tag).rewriteOwned
        else s3.armingApplied a.tag
      s4.releaseHeld.retestRead

/-! ## The rows of a grant to the DE at a FREE port (R81, R82, R86, R87, R89, R90, R91; log 6) -/

/-- Begin a record, when one is the next work and the port is the DE's (R82, R86). -/
def State.startRecord (s : State) : State :=
  match s.deNext with
  | some (.notice e) => if s.deWins then s.beginWork (.notice e) else s
  | some (.profile l g) => if s.deWins then s.beginWork (.profile l g) else s
  | _ => s

/-- Begin a status page, when one is the next work and the port is the DE's (R86, R87). -/
def State.startPage (s : State) : State :=
  match s.deNext with
  | some (.page p) => if s.deWins then s.beginWork (.page p) else s
  | _ => s

/-- Issue an index reset write, when one is the next work and the port is the DE's (R81). -/
def State.startIndexReset (s : State) : State :=
  match s.deNext with
  | some (.indexReset r) => if s.deWins then s.beginWork (.indexReset r) else s
  | _ => s

/-- Issue the command status word, when it is the next work and the port is the DE's (R89). -/
def State.startStatus (s : State) : State :=
  if s.deMay .commandStatus then s.beginWork .commandStatus else s

/-- Issue a fresh-word refresh, when one is the next work and the port is the DE's (R90). -/
def State.startRefresh (s : State) : State :=
  match s.deNext with
  | some (.fresh w) => if s.deWins then s.beginWork (.fresh w) else s
  | _ => s

/-- Issue the next read of a load, when it is the next work and the port is the DE's (R91). -/
def State.startLoadRead (s : State) : State :=
  match s.deNext with
  | some (.loadRead off) => if s.deWins then s.beginWork (.loadRead off) else s
  | _ => s

/-! ## The end of a record (R82, R85, R92, R93) -/

/-- No record or page is in flight any more. -/
def State.endFlight (s : State) : State := s.modDe fun d => { d with flight := none }

/-- The batch countdown after a delivery: with a batch count of 0 none is kept (R85). -/
def RingDesc.served (d : RingDesc) : RingDesc :=
  if d.batch = 0 then d
  else if d.countdown ≤ 1 then { d with countdown := d.batch }
  else { d with countdown := d.countdown - 1 }

/-- The delivery raises BATCH (R85). -/
def RingDesc.batchDue (d : RingDesc) : Bool := decide (0 < d.batch) && decide (d.countdown ≤ 1)

/-- W advances by one (R82). -/
def State.advanceW (s : State) (r : RingId) : State := s.modRing r fun d => { d with w := d.w + 1 }

/-- A profile record is delivered (R82, R85). -/
def State.profileDelivered (s : State) (l : LineId) : State :=
  let r := profileRing l
  let due := (s.ring r).batchDue
  let s1 := (s.advanceW r).modRing r (·.served)
  let s2 := s1.modStaging l fun g => { g with queue := g.queue.drop 1, delivered := g.delivered + 1 }
  let s3 := if due then s2.raise .batch (.line l) (s2.ring r).w.toNat else s2
  (s3.markLine l).markPart

/-- A record is delivered (R82, R107). -/
def State.deliver (s : State) (r : RingId) : State :=
  match ringLine r with
  | some l => s.endFlight.profileDelivered l
  | none => ((s.endFlight.advanceW r).entryDelivered)

/-- The head profile is lost: its count and itself pass to the next, or to the carried drops (R92). -/
def Staging.loseHead (g : Staging) : Staging :=
  match g.queue with
  | [] => g
  | x :: [] => { g with queue := [], carried := passOn g.carried x, faulted := g.faulted + 1 }
  | x :: y :: rest =>
    { g with queue := { y with before := passOn y.before x } :: rest, faulted := g.faulted + 1 }

/-- A ring becomes FAULTED. -/
def State.faultRing (s : State) (r : RingId) : State := s.modRing r fun d => { d with faulted := true }

/-- A write of a record completes with ERR; `detail` is 1 for a record word and 2 for the W word (R92, R93). -/
def State.recordFault (s : State) (r : RingId) (detail : Nat) : State :=
  match ringLine r with
  | some l =>
    let s1 := ((s.endFlight.faultRing r).modStaging l (·.loseHead)).raise .deliveryFault (.line l) detail
    (s1.markLine l).markPart
  | none => ((s.endFlight.faultRing r).entryReturned)

/-- One more word of the write in flight has completed. -/
def Flight.step : Flight → Flight
  | .record r slot words done => .record r slot words (done + 1)
  | .page p words done => .page p words (done + 1)

/-- A record word completes (R82). -/
def State.endRecordWord (s : State) (err : Bool) : State :=
  match s.mp.port, s.de.flight with
  | .de .recordWord _, some (.record r slot words done) =>
    if err then (s.freePort.recordFault r 1).releaseHeld
    else s.freePort.modDe fun d => { d with flight := some (Flight.record r slot words done).step }
  | _, _ => s

/-- The W word write of a record completes (R82). -/
def State.endWWord (s : State) (err : Bool) : State :=
  match s.mp.port, s.de.flight with
  | .de .wWord _, some (.record r _ _ _) =>
    if err then (s.freePort.recordFault r 2).releaseHeld else (s.freePort.deliver r).releaseHeld
  | _, _ => s

/-! ## The end of a page word (R87, R94, R162) -/

/-- The detail of DELIVERY_FAULT for a status page (R94). -/
def pageFaultDetail (p : PageId) : Nat := if p = partPage then 16 else 17 + p.val

/-- A word of a status page completes with ERR (R94). -/
def State.pageFault (s : State) (p : PageId) : State :=
  let s1 := (s.endFlight.modPage p fun _ => { dirty := true, faulted := true }).raise .deliveryFault .part
    (pageFaultDetail p)
  (if p = partPage then s1 else s1.markPart).pageEnded p

/-- A status page word completes (R87). -/
def State.endPageWord (s : State) (err : Bool) : State :=
  match s.mp.port, s.de.flight with
  | .de .pageWord _, some (.page p words done) =>
    if err then (s.freePort.pageFault p).releaseHeld
    else if done + 1 < words.length then
      s.freePort.modDe fun d => { d with flight := some (Flight.page p words done).step }
    else ((s.freePort.endFlight).pageEnded p).releaseHeld
  | _, _ => s

/-! ## Other completions (R81, R94, R127, R160) -/

/-- An index reset write not overtaken completes with ERR (R92, R93; log 21). -/
def State.indexResetFault (s : State) (r : RingId) : State :=
  match ringLine r with
  | some l => (((s.faultRing r).raise .deliveryFault (.line l) 2).markLine l).markPart
  | none => ((s.faultRing r).returnWaitingOffer).markPart

/-- An index reset write completes (R81). -/
def State.endIndexReset (s : State) (err : Bool) : State :=
  match s.mp.port with
  | .de (.indexReset r overtaken) _ =>
    if overtaken then s.freePort
    else
      let s1 := s.freePort.modRing r fun d => { d with resetOut := false }
      (if err then s1.indexResetFault r else s1).releaseHeld
  | _ => s

/-- The command status write completes (R94). -/
def State.endStatus (s : State) (err : Bool) : State :=
  match s.mp.port with
  | .de .commandStatus _ =>
    if err then s.freePort.raise .deliveryFault .part 32 else s.freePort
  | _ => s

/-- The detail of DELIVERY_FAULT for a fresh word (R94). -/
def freshFaultDetail : FreshWord → Nat
  | .milliseconds => 33
  | .activity => 34

/-- What a refresh tells its read: the activity flags it wrote with OK (R127, R128). -/
def refreshedFlags (w : FreshWord) (v : Word) (err : Bool) : Option Byte :=
  match w with
  | .activity => if err then none else some (v.setWidth 8)
  | .milliseconds => none

/-- Release the fresh read whose refresh has completed, unless its own refresh is still to be issued (R127). -/
def State.releaseFresh (s : State) (w : FreshWord) (v : Word) (err : Bool) : State :=
  match s.mp.request with
  | some r =>
    if r.stage = .refreshing ∧ r.fresh = some w ∧ !s.de.fresh.contains w then
      s.setRequest (some { r with stage := .waiting, refreshed := refreshedFlags w v err })
    else s
  | none => s

/-- A fresh-word refresh completes (R90, R94, R127). -/
def State.endRefresh (s : State) (err : Bool) : State :=
  match s.mp.port with
  | .de (.refresh w v) _ =>
    let s1 := if err then s.freePort.raise .deliveryFault .part (freshFaultDetail w) else s.freePort
    s1.releaseFresh w v err
  | _ => s

/-- A load read completes (R91, R160). -/
def State.endLoadRead (s : State) (err : Bool) (data : Word) : State :=
  match s.mp.port with
  | .de (.loadRead off) _ => s.freePort.loadRead off err data
  | _ => s

end Sys2Proof.Machine
end

