-- ==== Sys2Proof/Machine/Action.lean ====
section
/-! DEFINITION. One action of the part: what took place at once before it, the status pages it changes, and the grant of
a port it makes FREE (R79, R118, R130; spec/04 R88). -/

namespace Sys2Proof.Machine

/-! ## The end of an action -/

/-- A kept host access that was on the port has ended, and the port is FREE. -/
def Port.hostEnded (before after : Port) : Bool :=
  match before, after with
  | .host true _, .free => true
  | _, _ => false

/-- The host presents its next request with this completion: it is the command that waits next (log 38). -/
def State.requestWaits (s : State) : Bool :=
  match s.pending with
  | .hostRequestTaken _ _ _ _ :: _ => true
  | _ => false

/-- Close an action that began in `before`: mark dirty every status page an item of which has changed since (log 26),
and note whether the port, FREE by the end of a kept host access, stands for the request presented with it (log 38). -/
def State.markChanged (before s : State) : State :=
  { s with
    awaited := before.mp.port.hostEnded s.mp.port && s.requestWaits
    de := { s.de with pages := Vector.ofFn fun p : PageId =>
      let m := s.de.pages[p]
      { m with dirty := m.dirty || before.pageDiffers s p } } }

/-! ## What took place at once before a command (R79, R130) -/

/-- An arming request takes effect at once when no record or page is in flight, and otherwise at the completion of the
one in flight (R79, R156): every command but the row of the arming finds it taken (log 7). A port that stands for a
request presented with a completion goes on standing for it (log 38). -/
def State.armed (s : State) : State :=
  if s.armingDue then { s.markChanged s.takeArming with awaited := s.awaited } else s

/-- A claim that stands on a FREE port was granted when it appeared (R130): every command but the row of its own grant
finds it so (log 6), after an arming that was due. A port that stands for a request presented with a completion waits
for it (log 38). -/
def State.claimed (s : State) : State := if s.awaited then s.armed else s.armed.arbitrate

/-! ## One action of the part -/

/-- The port has become FREE in the action that began in `before`, and is granted in it (R118, R130); only for a request
presented with the completion does the grant wait (log 38). -/
def State.grantFreed (before s : State) : State :=
  if before.mp.port ≠ .free ∧ !s.awaited then s.arbitrate else s

/-- One action of the part: while PORn is asserted no event acts (R27, R133); otherwise the state after it, with
every status page whose items changed marked dirty, and a port that it made FREE granted. What was due or claimed
before came first. -/
def State.act (s : State) (f : State → State) : Host.Outcome State Fault Refusal :=
  .next (if s.pins.por then s else s.claimed.grantFreed (s.claimed.markChanged (f s.claimed)))

/-- One action in which a host request may appear or be let through while the port is FREE: it ends with the grant
(R119, R121, R130). -/
def State.actClaim (s : State) (f : State → State) : Host.Outcome State Fault Refusal :=
  .next (if s.pins.por then s else (s.claimed.markChanged (f s.claimed)).arbitrate)

/-- The grant of a claim that the DE has on a FREE port, in the step of its own row (R130; log 6); an arming that is due
came first (R79). -/
def State.actStart (s : State) (f : State → State) : Host.Outcome State Fault Refusal :=
  .next (if s.pins.por then s else f s.armed)

/-- The arming that is due, in the step of its own row; it ends with the grant (R79, R121, R130). -/
def State.actArming (s : State) : Host.Outcome State Fault Refusal :=
  .next (if s.pins.por then s else (s.markChanged s.takeArming).arbitrate)

end Sys2Proof.Machine
end

