-- ==== Sys2Proof/Machine/Resets.lean ====
section
/-! DEFINITION. Commands: power-on reset and bus reset. -/

namespace Sys2Proof.Machine

/-- The pin levels change while PORn is asserted; otherwise the event acts. The part holds no state under PORn, and
its pins keep following their levels (R27, R133; log 13). -/
def State.actPins (s : State) (pins : Pins) (f : State → State) : Host.Outcome State Fault Refusal :=
  if s.pins.por then .next { s with pins := pins } else s.act f

/-- POWER_ON_RESET_ASSERT: every block holds its reset values, all switches off, both ports idle (R27, R51, R72, R97,
R115, R133, R145, R163, R176; log 13). -/
def execPowerOnResetAssert (s : State) : Host.Outcome State Fault Refusal :=
  .next (State.powerOn { s.pins with por := true } s.wu.base s.free s.pending)

/-- POWER_ON_RESET_RELEASE: straps and trip pins are sampled, the counters start, every block takes its initial state
(R27, R134). A release without an assertion is no event (log 1). -/
def execPowerOnResetRelease (gaBase : Byte) (trips : BitVec 4) (s : State) : Host.Outcome State Fault Refusal :=
  .next
    (if s.pins.por then
      State.powerOn { s.pins with por := false, trip := Vector.ofFn fun l : LineId => trips.getLsbD l.val } gaBase
        s.free s.pending
    else s)

/-- BUS_RESET_ASSERT (R131, R113). -/
def execBusResetAssert (s : State) : Host.Outcome State Fault Refusal :=
  s.actPins { s.pins with brst := true } (·.assertBrst)

/-- BUS_RESET_RELEASE (R132, R113). -/
def execBusResetRelease (s : State) : Host.Outcome State Fault Refusal :=
  s.actPins { s.pins with brst := false } (·.releaseBrst)

end Sys2Proof.Machine
end

