-- ==== Sys2Proof/Machine/LineEvents.lean ====
section
/-! DEFINITION. Commands: the millisecond counter, phases, pins, the sample link, timers of lines and windows. -/

namespace Sys2Proof.Machine

/-- The millisecond counter advances at the NU, at every LS and at the WU (R99). -/
def State.advanceMs (s : State) : State :=
  let s1 := { s with clock := { s.clock with sinceMs := 0 } }.modNu fun n => { n with ms := n.ms + 1 }
  s1.advanceLines.advanceWindows

/-- MILLISECOND_ADVANCE (R99, R15, R20, R168). -/
def execMillisecondAdvance (s : State) : Host.Outcome State Fault Refusal := s.act (·.advanceMs)

/-- Record the level of COIL_LOn (log 14). -/
def Pins.withCoilLo (p : Pins) (line : LineId) (level : Bool) : Pins :=
  { p with coilLo := modAt p.coilLo line fun _ => level }

/-- PHASE_END (R3, R9, R14). -/
def execPhaseEnd (line : LineId) (coilLo : Bool) (s : State) : Host.Outcome State Fault Refusal :=
  s.act fun t => { t with pins := t.pins.withCoilLo line coilLo }.endPhase line coilLo

/-- SHUTDOWN_HOLD_END (R18). -/
def execShutdownHoldEnd (line : LineId) (s : State) : Host.Outcome State Fault Refusal := s.act (·.endHold line)

/-- COIL_HI_ASSERT (R13). -/
def execCoilHiAssert (line : LineId) (s : State) : Host.Outcome State Fault Refusal :=
  s.actPins { s.pins with coilHi := modAt s.pins.coilHi line fun _ => true } (·.setCoilHi line true)

/-- COIL_HI_DEASSERT (R13, R17). -/
def execCoilHiDeassert (line : LineId) (s : State) : Host.Outcome State Fault Refusal :=
  s.actPins { s.pins with coilHi := modAt s.pins.coilHi line fun _ => false } (·.setCoilHi line false)

/-- TRIP_PIN_CHANGE (R15). -/
def execTripPinChange (line : LineId) (level : Bool) (s : State) : Host.Outcome State Fault Refusal :=
  s.actPins { s.pins with trip := modAt s.pins.trip line fun _ => level } (·.setTrip line level)

/-- TRIP_DEBOUNCE_COMPLETE (R15). -/
def execTripDebounceComplete (line : LineId) (s : State) : Host.Outcome State Fault Refusal :=
  s.act (·.completeDebounce line)

/-- RESTART_DELAY_EXPIRY (R20). -/
def execRestartDelayExpiry (line : LineId) (s : State) : Host.Outcome State Fault Refusal :=
  s.act (·.autoRestart line)

/-- FRAME_ARRIVAL (R29, R30). -/
def execFrameArrival (line : LineId) (bits : List Bool) (s : State) : Host.Outcome State Fault Refusal :=
  s.act (·.frameEnds line bits)

/-- The silence timer runs and no episode is in progress (R33). -/
def Sru.silenceRuns (u : Sru) : Bool := u.silence.isSome && !u.episode

/-- SILENCE_TIMER_EXPIRY (R33). -/
def execSilenceTimerExpiry (line : LineId) (s : State) : Host.Outcome State Fault Refusal :=
  s.act fun t => if (t.sru line).silenceRuns then t.silenceBegins line else t

/-- WINDOW_EXPIRY: the running timer of a window reaches 0 (R168, R172). -/
def execWindowExpiry (window : WindowId) (s : State) : Host.Outcome State Fault Refusal :=
  s.act fun t => if (t.window window).timer.isSome then t.expireAll [window] else t

/-- LINK_WAIT_IDLE_EXIT (R29). -/
def execLinkWaitIdleExit (line : LineId) (s : State) : Host.Outcome State Fault Refusal :=
  s.act fun t => if (t.sru line).rx = .waitIdle then t.receiverIdle line else t

end Sys2Proof.Machine
end

