-- ==== Sys2Proof/Machine/HostAccesses.lean ====
section
/-! DEFINITION. Commands: the host's requests and their completions. -/

namespace Sys2Proof.Machine

/-- HOST_REQUEST_TAKEN (R117, R119). -/
def execHostRequestTaken (addr : Addr) (write : Bool) (be : BitVec 4) (data : Word) (s : State) :
    Host.Outcome State Fault Refusal :=
  s.actClaim fun t =>
    if t.takesRequests then t.takeRequest { addr := addr, write := write, be := be, data := data } else t

/-- HOST_FORWARDED_COMPLETION: the kept host access on the port ends, whatever its target (R122 to R124, R128;
log 5). -/
def execHostForwardedCompletion (err : Bool) (data : Word) (s : State) : Host.Outcome State Fault Refusal :=
  s.act (·.completeHost err data)

/-- CAPTURED_WRITE (R123, R139, R160). -/
def execCapturedWrite (offset : Half) (be : BitVec 4) (data : Word) (s : State) :
    Host.Outcome State Fault Refusal :=
  s.act (·.capturedStep offset be data)

/-- RD_CAPTURE (R84, R123, R183). -/
def execRdCapture (ring : RingId) (data : Word) (s : State) : Host.Outcome State Fault Refusal :=
  s.act (·.rdStep ring data)

/-- ACTIVITY_SUMMARY_READ (R128, R167). -/
def execActivitySummaryRead (data : Word) (s : State) : Host.Outcome State Fault Refusal :=
  s.act (·.activityStep data)

/-- DISCARDED_ACCESS_COMPLETION: memory's answer goes to nobody (R131). -/
def execDiscardedAccessCompletion (_err : Bool) (_data : Word) (s : State) : Host.Outcome State Fault Refusal :=
  s.act (·.completeDiscarded)

end Sys2Proof.Machine
end

