-- ==== Sys2Proof/Machine/CommandRows.lean ====
section
/-! DEFINITION. Commands of the command slot: the write of a command word completes OK and the CU takes it (R123, R141,
R148). -/

namespace Sys2Proof.Machine

/-- COMMIT_LINE, code 1 (R152). -/
def execCommitLine (tag operand : Byte) (s : State) : Host.Outcome State Fault Refusal :=
  s.act (·.commandStep tag 1 operand)

/-- COMMIT_CAL, code 2 (R154). -/
def execCommitCal (tag operand : Byte) (s : State) : Host.Outcome State Fault Refusal :=
  s.act (·.commandStep tag 2 operand)

/-- COMMIT_WINDOWS, code 3 (R155, R173). -/
def execCommitWindows (tag operand : Byte) (s : State) : Host.Outcome State Fault Refusal :=
  s.act (·.commandStep tag 3 operand)

/-- COMMIT_DELIVERY, code 4 (R156). -/
def execCommitDelivery (tag operand : Byte) (s : State) : Host.Outcome State Fault Refusal :=
  s.act (·.commandStep tag 4 operand)

/-- LOAD, code 5 (R159). -/
def execLoad (tag operand : Byte) (s : State) : Host.Outcome State Fault Refusal :=
  s.act (·.commandStep tag 5 operand)

/-- START, code 6 (R21). -/
def execStart (tag operand : Byte) (s : State) : Host.Outcome State Fault Refusal :=
  s.act (·.commandStep tag 6 operand)

/-- STOP, code 7 (R22). -/
def execStop (tag operand : Byte) (s : State) : Host.Outcome State Fault Refusal :=
  s.act (·.commandStep tag 7 operand)

/-- HALT, code 8 (R23). -/
def execHalt (tag operand : Byte) (s : State) : Host.Outcome State Fault Refusal :=
  s.act (·.commandStep tag 8 operand)

/-- RESTART, code 9 (R24). -/
def execRestart (tag operand : Byte) (s : State) : Host.Outcome State Fault Refusal :=
  s.act (·.commandStep tag 9 operand)

/-- CLEAR_TOTAL, code 10 (R49). -/
def execClearTotal (tag operand : Byte) (s : State) : Host.Outcome State Fault Refusal :=
  s.act (·.commandStep tag 10 operand)

/-- FREEZE, code 11 (R158, R182). -/
def execFreeze (tag operand : Byte) (s : State) : Host.Outcome State Fault Refusal :=
  s.act (·.commandStep tag 11 operand)

/-- UNKNOWN_COMMAND: a full-word command write with a code outside Table 8-1 (R148). -/
def execUnknownCommand (tag code operand : Byte) (s : State) : Host.Outcome State Fault Refusal :=
  s.act fun t => if knownCode code then t else t.commandStep tag code operand

/-- PARTIAL_COMMAND_WRITE (R148). -/
def execPartialCommandWrite (be : BitVec 4) (data : Word) (s : State) : Host.Outcome State Fault Refusal :=
  s.act (·.partialStep be data)

end Sys2Proof.Machine
end

