-- ==== Sys2Proof/Machine/EngineEvents.lean ====
section
/-! DEFINITION. Commands: the Delivery Engine's grants and completions. -/

namespace Sys2Proof.Machine

/-- ARMING_TAKES_EFFECT (R79, R80). -/
def execArmingTakesEffect (s : State) : Host.Outcome State Fault Refusal :=
  if s.armingDue then s.actArming else s.act id

/-- INDEX_RESET_WRITE (R81). -/
def execIndexResetWrite (s : State) : Host.Outcome State Fault Refusal := s.actStart (·.startIndexReset)

/-- INDEX_RESET_WRITE_COMPLETE (R81, R92, R93). -/
def execIndexResetWriteComplete (err : Bool) (s : State) : Host.Outcome State Fault Refusal :=
  s.act (·.endIndexReset err)

/-- RECORD_START (R82). -/
def execRecordStart (s : State) : Host.Outcome State Fault Refusal := s.actStart (·.startRecord)

/-- RECORD_WORD_COMPLETE (R82, R92, R93). -/
def execRecordWordComplete (err : Bool) (s : State) : Host.Outcome State Fault Refusal :=
  s.act (·.endRecordWord err)

/-- W_WORD_WRITE_COMPLETE (R82, R85, R92, R93, R107). -/
def execWWordWriteComplete (err : Bool) (s : State) : Host.Outcome State Fault Refusal :=
  s.act (·.endWWord err)

/-- PAGE_WRITE_START (R87). -/
def execPageWriteStart (s : State) : Host.Outcome State Fault Refusal := s.actStart (·.startPage)

/-- PAGE_WORD_COMPLETE (R87, R94, R162). -/
def execPageWordComplete (err : Bool) (s : State) : Host.Outcome State Fault Refusal :=
  s.act (·.endPageWord err)

/-- COMMAND_STATUS_WRITE (R89, R179). -/
def execCommandStatusWrite (s : State) : Host.Outcome State Fault Refusal := s.actStart (·.startStatus)

/-- COMMAND_STATUS_WRITE_COMPLETE (R94). -/
def execCommandStatusWriteComplete (err : Bool) (s : State) : Host.Outcome State Fault Refusal :=
  s.act (·.endStatus err)

/-- FRESH_WORD_REFRESH (R90). -/
def execFreshWordRefresh (s : State) : Host.Outcome State Fault Refusal := s.actStart (·.startRefresh)

/-- FRESH_WORD_REFRESH_COMPLETE (R90, R94, R127). -/
def execFreshWordRefreshComplete (err : Bool) (s : State) : Host.Outcome State Fault Refusal :=
  s.act (·.endRefresh err)

/-- LOAD_READ (R91). -/
def execLoadRead (s : State) : Host.Outcome State Fault Refusal := s.actStart (·.startLoadRead)

/-- LOAD_READ_COMPLETE (R160, R161). -/
def execLoadReadComplete (err : Bool) (data : Word) (s : State) : Host.Outcome State Fault Refusal :=
  s.act (·.endLoadRead err data)

end Sys2Proof.Machine
end

