-- ==== Sys2Proof/Machine/Clocking.lean ====
section
/-! DEFINITION. What the part does by itself when no command waits: the next event of its own that is due, or a tick
(spec/00_scope.md, Time; log 2). -/

namespace Sys2Proof.Machine

/-! ## Events that are due -/

/-- The DE begins its next work when the port is the DE's (R86, R130). -/
def State.dueStart (s : State) : Option Instr :=
  match s.deNext with
  | none => none
  | some w =>
    if s.deMay w then
      match w with
      | .fresh _ => some .freshWordRefresh
      | .flightWord => none
      | .indexReset _ => some .indexResetWrite
      | .commandStatus => some .commandStatusWrite
      | .loadRead _ => some .loadRead
      | .notice _ => some .recordStart
      | .profile _ _ => some .recordStart
      | .page _ => some .pageWriteStart
    else none

/-- The phase timer has reached the phase length (R3). -/
def Sequencer.phaseDue (q : Sequencer) : Bool :=
  match q.phase, q.phaseTimer, q.lengths with
  | some p, some n, some c => decide (c.phaseLength p ≤ n)
  | _, _, _ => false

/-- The 2 ticks of ALL_OFF_HOLD have run (R16, R18). -/
def Sequencer.holdDue (q : Sequencer) : Bool :=
  q.state == .shutdown && q.stage == .allOffHold && decide (2 ≤ q.holdTicks)

/-- A timer that has reached 0. -/
def timerZero (t : Option Nat) : Bool := t == some 0

/-- The silence timer has reached the live silence_ticks (R33). -/
def State.silenceDue (s : State) (l : LineId) : Bool :=
  match (s.sru l).silence with
  | some n => !(s.sru l).episode && decide (silenceTicks (s.liveLine l) ≤ n)
  | none => false

/-- The first event due at a line: debounce, restart delay, hold, silence, phase end (log 2). -/
def State.lineDue (s : State) (l : LineId) : Option Instr :=
  let q := s.ls l
  if timerZero (q.debounce.map (·.remaining)) then some (.tripDebounceComplete l)
  else if timerZero q.restartTimer then some (.restartDelayExpiry l)
  else if q.holdDue then some (.shutdownHoldEnd l)
  else if s.silenceDue l then some (.silenceTimerExpiry l)
  else if q.phaseDue then some (.phaseEnd l s.pins.coilLo[l])
  else none

/-- The event of the part's own that is due next, in a fixed order (log 2). -/
def State.dueEvent (s : State) : Option Instr :=
  if s.armingDue then some .armingTakesEffect
  else
    match s.dueStart with
    | some c => some c
    | none =>
      if 100 ≤ s.clock.sinceMs then some .millisecondAdvance
      else (List.finRange 4).findSome? s.lineDue

/-- The FREE port has a claimant: with no row of its own due, a WAITING request or the word of a write in flight, which
only a state that no run reaches leaves to be granted (R130; log 31). -/
def State.grantDue (s : State) : Bool :=
  match s.mp.port with
  | .free => !s.armingDue && (s.hostClaims || s.deNext.isSome)
  | .host _ _ | .de _ _ => false

/-! ## A tick -/

/-- One tick at the LS: the phase timer and the hold (R3, R16). -/
def Sequencer.tick (q : Sequencer) : Sequencer :=
  { q with phaseTimer := q.phaseTimer.map (· + 1)
           holdTicks := if q.state = .shutdown ∧ q.stage = .allOffHold then q.holdTicks + 1 else q.holdTicks }

/-- One tick at a line: with the silence timer (R33). -/
def Line.tick (x : Line) : Line :=
  { x with ls := x.ls.tick, sru := { x.sru with silence := x.sru.silence.map (· + 1) } }

/-- One tick of the part: the tick counter, and the counts that count ticks. -/
def State.tick (s : State) : State :=
  { s with clock := { tick := s.clock.tick + 1, sinceMs := s.clock.sinceMs + 1 }, lines := s.lines.map (·.tick),
           awaited := false }

end Sys2Proof.Machine
end

