-- ==== Sys2Proof/Machine/Dispatch.lean ====
section
/-! DEFINITION. The effect of a command on everything but the queue: one arm per constructor of Instr. -/

namespace Sys2Proof.Machine

def exec (i : Instr) (s : State) : Host.Outcome State Fault Refusal :=
  match i with
  | .powerOnResetAssert => Sys2Proof.Machine.execPowerOnResetAssert s
  | .powerOnResetRelease gaBase trips => Sys2Proof.Machine.execPowerOnResetRelease gaBase trips s
  | .busResetAssert => Sys2Proof.Machine.execBusResetAssert s
  | .busResetRelease => Sys2Proof.Machine.execBusResetRelease s
  | .millisecondAdvance => Sys2Proof.Machine.execMillisecondAdvance s
  | .phaseEnd line coilLo => Sys2Proof.Machine.execPhaseEnd line coilLo s
  | .shutdownHoldEnd line => Sys2Proof.Machine.execShutdownHoldEnd line s
  | .coilHiAssert line => Sys2Proof.Machine.execCoilHiAssert line s
  | .coilHiDeassert line => Sys2Proof.Machine.execCoilHiDeassert line s
  | .tripPinChange line level => Sys2Proof.Machine.execTripPinChange line level s
  | .tripDebounceComplete line => Sys2Proof.Machine.execTripDebounceComplete line s
  | .restartDelayExpiry line => Sys2Proof.Machine.execRestartDelayExpiry line s
  | .frameArrival line bits => Sys2Proof.Machine.execFrameArrival line bits s
  | .silenceTimerExpiry line => Sys2Proof.Machine.execSilenceTimerExpiry line s
  | .windowExpiry window => Sys2Proof.Machine.execWindowExpiry window s
  | .hostRequestTaken addr write be data => Sys2Proof.Machine.execHostRequestTaken addr write be data s
  | .hostForwardedCompletion err data => Sys2Proof.Machine.execHostForwardedCompletion err data s
  | .capturedWrite offset be data => Sys2Proof.Machine.execCapturedWrite offset be data s
  | .rdCapture ring data => Sys2Proof.Machine.execRdCapture ring data s
  | .activitySummaryRead data => Sys2Proof.Machine.execActivitySummaryRead data s
  | .discardedAccessCompletion err data => Sys2Proof.Machine.execDiscardedAccessCompletion err data s
  | .commitLine tag operand => Sys2Proof.Machine.execCommitLine tag operand s
  | .commitCal tag operand => Sys2Proof.Machine.execCommitCal tag operand s
  | .commitWindows tag operand => Sys2Proof.Machine.execCommitWindows tag operand s
  | .commitDelivery tag operand => Sys2Proof.Machine.execCommitDelivery tag operand s
  | .load tag operand => Sys2Proof.Machine.execLoad tag operand s
  | .start tag operand => Sys2Proof.Machine.execStart tag operand s
  | .stop tag operand => Sys2Proof.Machine.execStop tag operand s
  | .halt tag operand => Sys2Proof.Machine.execHalt tag operand s
  | .restart tag operand => Sys2Proof.Machine.execRestart tag operand s
  | .clearTotal tag operand => Sys2Proof.Machine.execClearTotal tag operand s
  | .freeze tag operand => Sys2Proof.Machine.execFreeze tag operand s
  | .unknownCommand tag code operand => Sys2Proof.Machine.execUnknownCommand tag code operand s
  | .partialCommandWrite be data => Sys2Proof.Machine.execPartialCommandWrite be data s
  | .armingTakesEffect => Sys2Proof.Machine.execArmingTakesEffect s
  | .indexResetWrite => Sys2Proof.Machine.execIndexResetWrite s
  | .indexResetWriteComplete err => Sys2Proof.Machine.execIndexResetWriteComplete err s
  | .recordStart => Sys2Proof.Machine.execRecordStart s
  | .recordWordComplete err => Sys2Proof.Machine.execRecordWordComplete err s
  | .wWordWriteComplete err => Sys2Proof.Machine.execWWordWriteComplete err s
  | .pageWriteStart => Sys2Proof.Machine.execPageWriteStart s
  | .pageWordComplete err => Sys2Proof.Machine.execPageWordComplete err s
  | .commandStatusWrite => Sys2Proof.Machine.execCommandStatusWrite s
  | .commandStatusWriteComplete err => Sys2Proof.Machine.execCommandStatusWriteComplete err s
  | .freshWordRefresh => Sys2Proof.Machine.execFreshWordRefresh s
  | .freshWordRefreshComplete err => Sys2Proof.Machine.execFreshWordRefreshComplete err s
  | .loadRead => Sys2Proof.Machine.execLoadRead s
  | .loadReadComplete err data => Sys2Proof.Machine.execLoadReadComplete err data s
  | .linkWaitIdleExit line => Sys2Proof.Machine.execLinkWaitIdleExit line s

end Sys2Proof.Machine
end

