-- ==== Sys2Proof/Machine/Step.lean ====
section
/-! DEFINITION. One step: the command at the front of the queue, or on an empty queue the part's own next event or a
tick (log 2). -/

namespace Sys2Proof.Machine

/-- What the part does when no command waits (log 2): nothing under PORn (log 29), else the event due, else the grant
due, else a tick. -/
def idle (s : State) : Host.Outcome State Fault Refusal :=
  if s.pins.por then .next s
  else
    match s.dueEvent with
    | some c => exec c s
    | none => if s.grantDue then .next s.arbitrate else .next s.tick

/-- One step. -/
def step (s : State) : Host.Outcome State Fault Refusal :=
  match s.pending with
  | c :: rest => exec c { s with pending := rest }
  | [] => idle s

/-- The command that a word spells is put at the front of the queue; a word that spells none changes nothing. -/
def State.withFetchWord (s : State) (nbits w : Nat) : State :=
  match decodeTableWord nbits w with
  | some c => { s with pending := c :: s.pending }
  | none => s

end Sys2Proof.Machine
end

