-- ==== Sys2Proof/Safety.lean ====
section
/-! DEFINITION. What the statements about the machine speak of: what an event leaves as it was, that a notice is
recorded, and the laws of the device that join its blocks. -/

namespace Sys2Proof

open Machine

/-! ## What an event leaves as it was -/

/-- The part is out of power-on reset. -/
def awake (s : State) : Prop := s.pins.por = false

/-- No line but `l` differs. -/
def otherLinesKept (l : LineId) (s t : State) : Prop := ∀ k : LineId, k ≠ l → t.lines[k] = s.lines[k]

/-- Of the Delivery Engine at most dirty marks of status pages differ. -/
def deKept (s t : State) : Prop :=
  t.de = { s.de with pages := t.de.pages } ∧ ∀ p : PageId, (t.page p).faulted = (s.page p).faulted

/-- Of the Delivery Engine at most dirty marks of status pages and of the command status differ. -/
def deKeptButStatus (s t : State) : Prop :=
  t.de = { s.de with pages := t.de.pages, statusDirty := t.de.statusDirty }
    ∧ ∀ p : PageId, (t.page p).faulted = (s.page p).faulted

/-- The pins, the clock, the free-value counter and the queue are as they were. -/
def outsideKept (s t : State) : Prop :=
  t.pins = s.pins ∧ t.clock = s.clock ∧ t.free = s.free ∧ t.pending = s.pending

/-- The copies and load of the Command Unit are as they were; the record may differ. -/
def cuKeptButRecord (s t : State) : Prop := t.cu = { s.cu with record := t.cu.record, owner := t.cu.owner }

/-- A line status page or the part status page is marked dirty. -/
def isDirty (s : State) (p : PageId) : Prop := (s.page p).dirty = true

/-! ## Notices -/

/-- An entry of the backlog stands for the latest event of its pair (R105, R108). -/
def Machine.BacklogEntry.tells (b : BacklogEntry) (k : Kind) (src : Source) (detail : Half) (now : Word) : Prop :=
  b.entry.kind = k ∧ b.entry.source = src ∧
    ((b.inFlight = false ∧ b.entry.detail = detail ∧ b.entry.last = now)
      ∨ (b.inFlight = true ∧ ∃ t, b.late = some t ∧ t.detail = detail ∧ t.last = now))

/-- A notice is recorded: as the offer, or in the backlog entry of its pair (R103, R105). -/
def records (n : Nu) (k : Kind) (src : Source) (detail : Half) (now : Word) : Prop :=
  (∃ o, n.offer = some o ∧ o.entry.kind = k ∧ o.entry.source = src ∧ o.entry.detail = detail ∧ o.entry.last = now)
    ∨ ∃ b, b ∈ n.backlog ∧ b.tells k src detail now

/-- A notice raised in an event is recorded unless its kind's level is 0 (R101). -/
def raisedIn (s t : State) (k : Kind) (src : Source) (detail : Half) : Prop :=
  s.levelOf k ≠ 0 → records t.nu k src detail s.nu.ms

/-- No notice of the kind has been raised: the entries of the kind, as offer or in the backlog, are as they were. -/
def notRaised (s t : State) (k : Kind) : Prop :=
  (∀ b : BacklogEntry, b.entry.kind = k → (b ∈ t.nu.backlog ↔ b ∈ s.nu.backlog))
    ∧ ∀ o : Offer, o.entry.kind = k → (t.nu.offer = some o ↔ s.nu.offer = some o)

/-! ## Watch windows and attendance -/

/-- A window holds the part UNATTENDED: enabled, with action UNATTENDED, EXPIRED (R171). -/
def holdsPart (s : State) (w : WindowId) : Prop :=
  (s.windowDef w).enable = true ∧ (s.windowDef w).unattendedAction = true ∧ (s.window w).state = .expired

/-- An action on the windows has re-derived the attendance: UNATTENDED exactly while a window holds the part so. A
change is in the copy of every GZU and marks the part status page dirty; without one no attendance notice is raised and
no GZU is told (R171, R172). -/
def attendanceFollows (s t : State) : Prop :=
  (t.wu.attendance = .unattended ↔ ∃ w : WindowId, holdsPart t w)
    ∧ (t.wu.attendance ≠ s.wu.attendance →
        isDirty t partPage ∧ ∀ l : LineId, (t.gzu l).attCopy = t.wu.attendance)
    ∧ (t.wu.attendance = s.wu.attendance →
        notRaised s t .unattended ∧ notRaised s t .attended ∧ ∀ l : LineId, (t.gzu l) = (s.gzu l))

/-- At a return to ATTENDED the notice names the lowest-numbered of the windows that held the part UNATTENDED before
(R172). -/
def attendedAgain (s t : State) : Prop :=
  s.wu.attendance = .unattended → t.wu.attendance = .attended →
    ∀ w : WindowId, holdsPart s w → (∀ v : WindowId, v < w → ¬holdsPart s v) →
      raisedIn s t .attended .part (BitVec.ofNat 16 w.val)

/-- A host request matches a window: enabled, the address in its range, its direction selected (R165, R166). -/
def matchedBy (s : State) (addr : Addr) (write : Bool) (w : WindowId) : Prop :=
  (s.windowDef w).enable = true ∧ (s.windowDef w).base ≤ addr.toNat
    ∧ addr.toNat < (s.windowDef w).base + 2 ^ (s.windowDef w).exponent
    ∧ (write = true → (s.windowDef w).matchWrite = true) ∧ (write = false → (s.windowDef w).matchRead = true)

/-- The windows after a request was matched (R166): of a window it matches the activity flag and the
matched-since-refresh mark are set, the timer is reloaded and EXPIRED becomes WATCHING; every other is as it was. The
guard hit counts are not spoken of. -/
def windowsMatched (s t : State) (addr : Addr) (write : Bool) : Prop :=
  ∀ w : WindowId,
    (matchedBy s addr write w → (t.window w) = {
        state := if (s.window w).state = .expired then .watching else (s.window w).state
        timer := if (s.windowDef w).timeoutMs = 0 then none else some (s.windowDef w).timeoutMs
        active := true, matched := true, guardHits := (t.window w).guardHits })
    ∧ (¬matchedBy s addr write w → (t.window w) = { s.window w with guardHits := (t.window w).guardHits })

/-- The timer of a window reaches 0 at the next advance of the millisecond counter (R168). -/
def lastMillisecond (s : State) (w : WindowId) : Prop := ∃ n, (s.window w).timer = some n ∧ n ≤ 1

/-- A window that expires at the next advance and whose action is then UNATTENDED (R168, R172). -/
def expiresUnattended (s : State) (w : WindowId) : Prop :=
  lastMillisecond s w ∧ (s.windowDef w).enable = true ∧ (s.windowDef w).unattendedAction = true

/-! ## Line excitation -/

/-- The phase after a phase within a cycle (R3). -/
def phaseAfter : Phase → Option Phase
  | .leadGap => some .pSettle
  | .pSettle => some .pWindow
  | .pWindow => some .midGap
  | .midGap => some .nSettle
  | .nSettle => some .nWindow
  | .nWindow => none

/-- A phase at whose end COIL_LO is sampled (R14). -/
def isSettle (p : Phase) : Prop := p = .pSettle ∨ p = .nSettle

/-- The line section that is live after the transfer of an application moment: the pending one, if any (R8). -/
def lineAfter (s : State) (l : LineId) : Bytes :=
  match (s.copies l).pendingLine with
  | some p => p.bytes
  | none => s.liveLine l

/-- Neither COIL_HI nor TRIP would act on the line under the line section that is live after a transfer. -/
def quietLine (s : State) (l : LineId) : Prop :=
  ¬(coilHiEnable (lineAfter s l) = true ∧ s.pins.coilHi[l] = true)
    ∧ ¬(tripEnable (lineAfter s l) = true ∧ (s.ls l).tripLevel = tripActiveHigh (lineAfter s l))

/-- No copy of the line waits to become live. -/
def nothingPending (s : State) (l : LineId) : Prop :=
  (s.copies l).pendingLine = none ∧ (s.copies l).pendingCal = none

/-- The transfer of an application moment (R8, R153): each pending copy of the line is live with its tag and no longer
pending, and CONFIG_APPLIED is raised with the tag; a copy with none pending is kept. Of two transfers the detail
recorded last is the calibration's. -/
def transferred (s t : State) (l : LineId) : Prop :=
  (∀ p, (s.copies l).pendingLine = some p →
      t.liveLine l = p.bytes ∧ (t.copies l).lineTag = p.tag
      ∧ ((s.copies l).pendingCal = none → raisedIn s t .configApplied (.line l) (p.tag.setWidth 16)))
    ∧ ((s.copies l).pendingLine = none →
      t.liveLine l = s.liveLine l ∧ (t.copies l).lineTag = (s.copies l).lineTag)
    ∧ (∀ p, (s.copies l).pendingCal = some p →
      t.liveCal l = p.bytes ∧ (t.copies l).calTag = p.tag
      ∧ raisedIn s t .configApplied (.line l) (p.tag.setWidth 16))
    ∧ ((s.copies l).pendingCal = none → t.liveCal l = s.liveCal l ∧ (t.copies l).calTag = (s.copies l).calTag)
    ∧ nothingPending t l ∧ (t.copies l).stagedLine = (s.copies l).stagedLine
    ∧ (t.copies l).stagedCal = (s.copies l).stagedCal
    ∧ (∀ k : LineId, k ≠ l → (t.copies k) = (s.copies k))
    ∧ t.cu = { s.cu with lines := t.cu.lines, record := t.cu.record, owner := t.cu.owner }

/-- The last-command record at a transfer (R149): when it still belongs to the commit whose copy has become live it
reads APPLIED with the command status dirty, else it is kept. -/
def recordFollows (s t : State) (l : LineId) : Prop :=
  let applied := ((s.copies l).pendingLine ≠ none ∧ s.cu.owner = .pendingLine l)
    ∨ ((s.copies l).pendingCal ≠ none ∧ s.cu.owner = .pendingCal l)
  (applied → t.cu.record = { s.cu.record with result := .applied, detail := 0 } ∧ t.cu.owner = .none
      ∧ t.de.statusDirty = true)
    ∧ (¬applied → t.cu.record = s.cu.record ∧ t.cu.owner = s.cu.owner ∧ t.de.statusDirty = s.de.statusDirty)

/-- The definition of a zone changed with the live line section while the zone, its record then `r`, was TRIPPED or
RECOVERING (R67). -/
def zoneIsReset (s t : State) (l : LineId) (z : Fin 4) (r : ZoneRec) : Prop :=
  zoneDef (s.liveLine l) z.val ≠ zoneDef (t.liveLine l) z.val ∧ (r.state = .tripped ∨ r.state = .recovering)

/-- The zones after a change of the live line section that found them as `before` (R67): a zone whose definition
changed is CLEAR with its count 0, every other is kept, and each of them that was TRIPPED or RECOVERING raises
ZONE_CLEAR with reason RECONFIGURED, of several in zone order, so that the detail recorded last, zone + 256, is the
highest's. -/
def zonesReset (s t : State) (l : LineId) (before : Fin 4 → ZoneRec) : Prop :=
  (∀ z : Fin 4, (t.gzu l).zones[z] =
      if zoneDef (s.liveLine l) z.val = zoneDef (t.liveLine l) z.val then before z else { state := .clear, count := 0 })
    ∧ ∀ z : Fin 4, zoneIsReset s t l z (before z) → (∀ y : Fin 4, z < y → ¬zoneIsReset s t l y (before y)) →
        raisedIn s t .zoneClear (.line l) (BitVec.ofNat 16 (z.val + 256))

/-- A zone whose definition changed with the live line section is CLEAR, with ZONE_CLEAR of reason RECONFIGURED where it
was TRIPPED or RECOVERING; every other is kept; and no zone reset so, no ZONE_CLEAR is raised (R67). -/
def zonesFollow (s t : State) (l : LineId) : Prop :=
  zonesReset s t l (fun z => (s.gzu l).zones[z])
    ∧ ((∀ z : Fin 4, ¬zoneIsReset s t l z (s.gzu l).zones[z]) → notRaised s t .zoneClear)

/-- The cycle lengths and drive_duty of the live line section (R7). -/
def liveLengths (t : State) (l : LineId) : CycleLengths :=
  { half := halfTicks (t.liveLine l), settle := settleTicks (t.liveLine l), gap := gapTicks (t.liveLine l),
    duty := driveDuty (t.liveLine l) }

/-- The SRU holds the parameters of a cycle that starts now with the live settings (R34). -/
def paramsFixed (s t : State) (l : LineId) : Prop :=
  ∃ p, (t.sru l).params = some p ∧ p.timestamp = s.clock.tick
    ∧ p.cycleLength = 2 * gapTicks (t.liveLine l) + 2 * halfTicks (t.liveLine l)
    ∧ p.allowSingle = allowSingle (t.liveLine l) ∧ p.spikeLimit = spikeLimit (t.liveLine l)
    ∧ p.rejectLimit = rejectLimit (t.liveLine l) ∧ p.minSamples = minWindowSamples (t.liveLine l)
    ∧ p.minValidBands = minValidBands (t.liveLine l) ∧ p.area = area (t.liveCal l)
    ∧ ∀ k : Fin 6, p.gains[k] = gain (t.liveCal l) k.val ∧ p.weights[k] = weight (t.liveCal l) k.val

/-- The line stands at the start of a cycle, after its transfer and with the settings then live (R7, R8, R34). -/
def atCycleStart (s t : State) (l : LineId) : Prop :=
  (t.ls l).phase = some .leadGap ∧ (t.ls l).phaseTimer = some 0 ∧ (t.ls l).bridge = Bridge.allOff
    ∧ (t.ls l).lengths = some (liveLengths t l) ∧ paramsFixed s t l ∧ transferred s t l

/-- The line has just entered PRIMING (R10, R41, R33, R56). -/
def hasPrimed (s t : State) (l : LineId) : Prop :=
  (t.ls l).state = .priming ∧ atCycleStart s t l ∧ (t.ls l).producing = false
    ∧ (t.ls l).profileSincePriming = false ∧ (t.ls l).restartTimer = none
    ∧ (∀ k : Fin 6, (t.sru l).offsets[k] = { (s.sru l).offsets[k] with valid := false })
    ∧ (t.sru l).silence = some 0 ∧ (t.sru l).episode = false ∧ (t.sru l).sequence = (s.sru l).sequence
    ∧ (t.gzu l).grid = [] ∧ (∀ k : Fin 6, (t.gzu l).still[k] = 0)
    ∧ zonesFollow s t l ∧ (t.gzu l).lineCopy = .priming

/-- The causes present at a shutdown entry: each enabled source whose condition holds under the settings now live, and
SOFTWARE for a HALT (R16). -/
def causesAt (t : State) (l : LineId) (cause : Cause) : Causes :=
  { coilHi := coilHiEnable (t.liveLine l) && t.pins.coilHi[l]
    trip := tripEnable (t.liveLine l) && (t.ls l).tripLevel == tripActiveHigh (t.liveLine l)
    software := cause == .software }

/-- The restart attempts after a shutdown entry from `q`: one more unless the line had produced a profile, and at
most 7 (R16, R19). -/
def attemptsAfter (q : Sequencer) : BitVec 3 :=
  if q.profileSincePriming then q.attempts else if q.attempts = 7 then 7 else q.attempts + 1

/-- The shutdown entry from `q` reaches the live attempt limit (R16, R19). -/
def reachesLimit (q : Sequencer) (t : State) (l : LineId) : Bool :=
  !q.profileSincePriming && decide (attemptLimit (t.liveLine l) ≤ (attemptsAfter q).toNat)

/-- The restart delay timer after a shutdown entry from `q`: it runs when the live restart mode is AUTO with neither
lockout nor a cause present (R20). -/
def timerAfter (q : Sequencer) (t : State) (l : LineId) : Option Nat :=
  if restartAuto (t.liveLine l) = true ∧ (t.ls l).lockout = false
      ∧ (t.ls l).causes = { coilHi := false, trip := false, software := false }
  then some (q.restartTimer.getD (restartDelayMs (t.liveLine l))) else none

/-- The line has taken shutdown entry with a cause, its LS standing as `q` when the source acted (R16, R19, R20, R39).
The settings of steps 6 and 7 are those live after the transfer of step 5. That the mark of R35 is clear in the emptied
windows is the model's choice (log 39). -/
def shutDownFrom (q : Sequencer) (s t : State) (l : LineId) (cause : Cause) : Prop :=
  (t.ls l) = { q with
      state := .shutdown, phase := none, phaseTimer := none, bridge := Bridge.allOff, stage := .allOffHold
      holdTicks := 0, recorded := some cause, causes := causesAt t l cause, attempts := attemptsAfter q
      lockout := q.lockout || reachesLimit q t l, restartTimer := timerAfter q t l
      tripLevel := (t.ls l).tripLevel, debounce := (t.ls l).debounce }
    ∧ raisedIn s t .lineShutdown (.line l) (BitVec.ofNat 16 cause.code)
    ∧ (reachesLimit q t l = true → raisedIn s t .restartLockout (.line l) ((attemptsAfter q).setWidth 16))
    ∧ (t.sru l).accP = WindowAcc.empty ∧ (t.sru l).accN = WindowAcc.empty ∧ (t.sru l).halvesP = none
    ∧ (t.sru l).silence = none ∧ (t.sru l).episode = false ∧ (t.gzu l).lineCopy = .shutdown
    ∧ transferred s t l

/-- A driven line has taken shutdown entry with a cause, and no profile comes of its cycle (R16). -/
def hasShutDown (s t : State) (l : LineId) (cause : Cause) : Prop :=
  shutDownFrom (s.ls l) s t l cause
    ∧ (t.sru l) = { s.sru l with accP := (t.sru l).accP, accN := (t.sru l).accN, halvesP := none, silence := none,
                                 episode := false }
    ∧ (t.gzu l) = { s.gzu l with zones := (t.gzu l).zones, lineCopy := .shutdown, lalm := (t.gzu l).lalm }
    ∧ zonesFollow s t l ∧ deKeptButStatus s t

/-- The debounced TRIP level of the line and its debounce are as they were. -/
def tripKept (s t : State) (l : LineId) : Prop :=
  (t.ls l).tripLevel = (s.ls l).tripLevel ∧ (t.ls l).debounce = (s.ls l).debounce

/-- TRIP acts at this debounced level: enabled, and the level active (R12, R15). -/
def tripActsAt (s : State) (l : LineId) (level : Bool) : Prop :=
  tripEnable (s.liveLine l) = true ∧ level = tripActiveHigh (s.liveLine l)

/-- The debounced TRIP level of a line in SHUTDOWN has become `level`: TRIP joins or leaves the causes present, and the
restart delay timer runs exactly when its conditions hold, on from its count where it ran (R15, R17, R20). -/
def tripJoins (s t : State) (l : LineId) (level : Bool) : Prop :=
  (t.ls l) = { s.ls l with
      tripLevel := level, debounce := none, restartTimer := (t.ls l).restartTimer, causes := (t.ls l).causes }
    ∧ (t.ls l).causes = { (s.ls l).causes with
        trip := tripEnable (s.liveLine l) && level == tripActiveHigh (s.liveLine l) }
    ∧ (t.ls l).restartTimer =
        if restartAuto (s.liveLine l) = true ∧ (s.ls l).lockout = false
            ∧ (t.ls l).causes = { coilHi := false, trip := false, software := false }
        then some ((s.ls l).restartTimer.getD (restartDelayMs (s.liveLine l))) else none

/-- Of the line nothing but its LS differs, and of the CU and the DE at most dirty marks of status pages. -/
def onlySequencer (s t : State) (l : LineId) : Prop :=
  (t.sru l) = (s.sru l) ∧ (t.gzu l) = (s.gzu l) ∧ t.cu = s.cu ∧ deKept s t

/-- A source that holds under the settings now live is the cause: COIL_HI or TRIP, and where both hold either one
(R12, R13, R15; log 9). -/
def sourceHolds (t : State) (l : LineId) (cause : Cause) : Prop :=
  (cause = .coilHi ∧ coilHiEnable (t.liveLine l) = true ∧ t.pins.coilHi[l] = true)
    ∨ (cause = .trip ∧ tripEnable (t.liveLine l) = true
        ∧ (t.ls l).tripLevel = tripActiveHigh (t.liveLine l))

/-- The line has started a cycle, its LS standing as `q` with the cycle's lengths, and a source that holds has at once
shut it down (R13, R15, R21, R26). -/
def shutAtStart (q : Sequencer) (s t : State) (l : LineId) : Prop :=
  paramsFixed s t l ∧ tripKept s t l
    ∧ ∃ cause, sourceHolds t l cause ∧ shutDownFrom { q with lengths := some (liveLengths t l) } s t l cause

/-- The line has entered PRIMING, its LS standing as `q` before, and a source that holds has at once shut it down
(R10, R13, R15, R21). -/
def shutAtPriming (q : Sequencer) (s t : State) (l : LineId) : Prop :=
  shutAtStart { q with profileSincePriming := false, producing := false, restartTimer := none } s t l
    ∧ (∀ k : Fin 6, (t.sru l).offsets[k] = { (s.sru l).offsets[k] with valid := false })
    ∧ (t.sru l).sequence = (s.sru l).sequence
    ∧ (t.gzu l).grid = [] ∧ (∀ k : Fin 6, (t.gzu l).still[k] = 0) ∧ zonesFollow s t l
    ∧ (t.staging l) = (s.staging l)

/-- The line has entered OFF (R11, R22). -/
def isOff (t : State) (l : LineId) : Prop :=
  (t.ls l).state = .off ∧ (t.ls l).phase = none ∧ (t.ls l).phaseTimer = none ∧ (t.ls l).bridge = Bridge.allOff
    ∧ (t.ls l).attempts = 0 ∧ (t.ls l).restartTimer = none ∧ (t.sru l).silence = none
    ∧ (t.gzu l).lineCopy = .off

/-- A profile joins the tail of its line's queue (R75); from a queue of 4 the oldest profile not in flight is dropped,
its count and itself are passed on to the next, and PROFILE_DROP is raised with the low 16 bits of the dropped count
(R76). -/
def joinsQueue (s t : State) (l : LineId) (g : Staged) : Prop :=
  let q := (s.staging l).queue
  let next (x y : Staged) : Staged := { y with before := y.before + (x.before + 1) }
  (q = [] → g.before = (s.staging l).carried ∧ (t.staging l) = { s.staging l with queue := [g], carried := 0 })
    ∧ (q ≠ [] → g.before = 0)
    ∧ (q ≠ [] → q.length < 4 → (t.staging l) = { s.staging l with queue := q ++ [g] })
    ∧ (4 ≤ q.length →
      (∀ x y rest, q = x :: y :: rest → s.ringInFlight (profileRing l) = false →
        (t.staging l) = { s.staging l with
          queue := next x y :: rest ++ [g], dropped := (s.staging l).dropped + 1 })
      ∧ (∀ h x y rest, q = h :: x :: y :: rest → s.ringInFlight (profileRing l) = true →
        (t.staging l) = { s.staging l with
          queue := h :: next x y :: rest ++ [g], dropped := (s.staging l).dropped + 1 })
      ∧ raisedIn s t .profileDrop (.line l) (((s.staging l).dropped + 1).setWidth 16))

/-- The still count of a band after a profile (R57): one more, at most 255, when the band is valid and slower than
still_threshold; 0 when it is valid and not slower; kept when it is not valid. -/
def stillFollows (threshold : Nat) (b : BandResult) (old new : BitVec 8) : Prop :=
  (∀ v, b.quality.valid = true → b.velocity = some v →
      (v.natAbs < threshold → new.toNat = min 255 (old.toNat + 1)) ∧ (threshold ≤ v.natAbs → new = 0))
    ∧ (b.quality.valid = false → new = old)

/-- What the evaluation of an enabled zone makes of it at a profile, by the grid with the profile's column and the still
counts that include it (R53 step 3, R64); `t` holds both, `s` the zone and the settings live at the evaluation. -/
def zoneVerdict (s t : State) (l : LineId) (z : Fin 4) : ZoneRec × ZoneEvent :=
  zoneMove (zoneDef (s.liveLine l) z.val) (s.gzu l).zones[z]
    (zoneTest (zoneDef (s.liveLine l) z.val) ((List.range 6).map (weight (s.liveCal l))) (t.gzu l).grid
      (t.gzu l).still.toList)

/-- The record of a zone after its evaluation; a disabled zone is not evaluated (R64, R65). -/
def zoneAfter (s t : State) (l : LineId) (z : Fin 4) : ZoneRec :=
  if (zoneDef (s.liveLine l) z.val).enable = true then (zoneVerdict s t l z).1 else (s.gzu l).zones[z]

/-- The GZU has taken the profile of a cycle end (R53): the column is appended, the still counts follow, each zone is
as its evaluation left it, with its notice, and the queued profile carries the zone states; a zone whose definition then
changed with the live line section is CLEAR, with its notice (R54, R57, R64, R66, R67). -/
def profileTaken (s t : State) (l : LineId) (p : Profile) (g : Staged) : Prop :=
  let trips (z : Fin 4) : Prop := (zoneDef (s.liveLine l) z.val).enable = true ∧ (zoneVerdict s t l z).2 = .trip
  let clears (z : Fin 4) : Prop := (zoneDef (s.liveLine l) z.val).enable = true ∧ (zoneVerdict s t l z).2 = .clear
  let noneReset : Prop := ∀ z : Fin 4, ¬zoneIsReset s t l z (zoneAfter s t l z)
  (t.gzu l).grid = appendColumn (s.gzu l).grid (columnOf p)
    ∧ (∀ k : Fin 6, stillFollows (stillThreshold (s.liveLine l)) p.bands[k] (s.gzu l).still[k] (t.gzu l).still[k])
    ∧ (∀ z : Fin 4, g.profile.zones[z] = (zoneAfter s t l z).state)
    ∧ zonesReset s t l (zoneAfter s t l)
    ∧ (∀ z : Fin 4, trips z → (∀ y : Fin 4, z < y → ¬trips y) →
        raisedIn s t .zoneTrip (.line l) (BitVec.ofNat 16 z.val))
    ∧ ((∀ z : Fin 4, ¬trips z) → notRaised s t .zoneTrip)
    ∧ (∀ z : Fin 4, clears z → (∀ y : Fin 4, z < y → ¬clears y) → noneReset →
        raisedIn s t .zoneClear (.line l) (BitVec.ofNat 16 z.val))
    ∧ ((∀ z : Fin 4, ¬clears z) → noneReset → notRaised s t .zoneClear)

/-! ## Sample frames (R29 to R31) -/

/-- Bit `j` of byte `n` of a frame, bit 0 the least significant: the bits fill each byte from its most significant bit,
and the bytes in order from byte 0 (R29). -/
def frameBit (bits : List Bool) (n j : Nat) : Bool := bits.getD (8 * n + (7 - j)) false

/-- The remainder, of 8 bits, of the division by x⁸ + x² + x + 1 (0x107) after one more bit of the message (R30). -/
def remainderStep (r : Nat) (bit : Bool) : Nat :=
  let x := 2 * r ^^^ (if bit then 256 else 0)
  if 256 ≤ x then x ^^^ 0x107 else x

/-- The CRC-8 of bits in the order received: generator x⁸ + x² + x + 1, initial register 0, no final inversion (R30). -/
def remainderOf (bits : List Bool) : Nat := bits.foldl remainderStep 0

/-- 168 bits are a good frame with this content (R30, R31): the sequence, byte 0, lies in 0 to 15; the check byte, byte
20, is the CRC-8 of bytes 0 to 19; the six samples stand in bytes 1 to 18, B0 first, each in two's complement with its
most significant byte first; and bit k of byte 19 marks the sample of band k as overrange. -/
def isGoodFrame (bits : List Bool) (f : Frame) : Prop :=
  (∀ j, 4 ≤ j → j < 8 → frameBit bits 0 j = false) ∧ (∀ j, j < 4 → f.seq.getLsbD j = frameBit bits 0 j)
    ∧ (∀ j, j < 8 → frameBit bits 20 j = (remainderOf (bits.take 160)).testBit j)
    ∧ ∀ k : Fin 6, f.overrange[k] = frameBit bits 19 k.val
        ∧ ∃ x : BitVec 24, f.samples[k] = x.toInt
            ∧ ∀ i, i < 24 → x.getMsbD i = bits.getD (8 * (1 + 3 * k.val) + i) false

/-- The accumulators in `t` of the window that is open on line `l` in `s`: P in P_WINDOW, else N (R36). -/
def openWindow (s t : State) (l : LineId) : WindowAcc :=
  if (s.ls l).phase = some .pWindow then (t.sru l).accP else (t.sru l).accN

/-- The frames missing before a good frame of this sequence are counted and reported (R32): none when no frame came
before, else the difference from the frame before, less one, modulo 16. -/
def gapsCounted (s t : State) (l : LineId) (seq : BitVec 4) : Prop :=
  ((s.sru l).expect = none → (t.sru l).frameGaps = (s.sru l).frameGaps ∧ t.nu = s.nu)
    ∧ ∀ e, (s.sru l).expect = some e →
      (t.sru l).frameGaps = satAdd (s.sru l).frameGaps (seq - e - 1).toNat
      ∧ (seq = e + 1 → t.nu = s.nu)
      ∧ (seq ≠ e + 1 → raisedIn s t .frameGap (.line l) ((seq - e - 1).setWidth 16) ∧ isDirty t (linePage l))

/-- The bits of the frame that ends with these, and their count: after the bits held of a frame being received (R29). -/
def frameBits (u : Sru) (bits : List Bool) : List Bool × Nat :=
  if u.rx = .receiving then ((u.rxBits ++ bits).take 168, u.rxCount + bits.length) else (bits.take 168, bits.length)

/-- A window of the line is open and takes frames (R35, R36). -/
def accumulates (s : State) (l : LineId) : Prop :=
  ((s.ls l).state = .running ∨ (s.ls l).state = .stopping)
    ∧ ((s.ls l).phase = some .pWindow ∨ (s.ls l).phase = some .nWindow)
    ∧ (openWindow s s l).muted = false ∧ ∀ k : Fin 6, (openWindow s s l).bands[k].seen < 65535

/-! ## Commands -/

/-- The row of the table that a full-word command write is (Table 8-1). -/
def commandRow (tag code operand : Byte) : Instr :=
  match code.toNat with
  | 1 => .commitLine tag operand
  | 2 => .commitCal tag operand
  | 3 => .commitWindows tag operand
  | 4 => .commitDelivery tag operand
  | 5 => .load tag operand
  | 6 => .start tag operand
  | 7 => .stop tag operand
  | 8 => .halt tag operand
  | 9 => .restart tag operand
  | 10 => .clearTotal tag operand
  | 11 => .freeze tag operand
  | _ => .unknownCommand tag code operand

/-- The operand of a command of Table 8-1 that takes one is out of range (R150). -/
def operandRefused (code operand : Byte) : Prop :=
  (code.toNat = 5 ∧ 10 < operand.toNat)
    ∨ ((code.toNat = 1 ∨ code.toNat = 2 ∨ (6 ≤ code.toNat ∧ code.toNat ≤ 10)) ∧ 3 < operand.toNat)


/-- The command has been taken and answered: the last-command record with its owner, which names what the command made
or none, the command status and the part status page dirty, the request completed upstream with OK and the port FREE
(R123, R148). -/
def answers (s t : State) (tag code : Byte) (result : CmdResult) (detail : Half) (owner : Owner) : Prop :=
  t.cu.record = { tag := tag, code := code, result := result, detail := detail, taken := s.cu.record.taken + 1 }
    ∧ t.cu.owner = owner ∧ t.de.statusDirty = true ∧ isDirty t partPage
    ∧ t.mp = { s.mp with request := none, port := .free, completion := some { err := false, data := none } }

/-- Besides the answer nothing of the part has changed. -/
def onlyAnswered (s t : State) : Prop :=
  t.lines = s.lines ∧ cuKeptButRecord s t ∧ deKeptButStatus s t ∧ t.nu = s.nu ∧ t.wu = s.wu ∧ outsideKept s t

/-! ## Staged copies -/

/-- The staged copy of a captured section (R142). -/
def stagedOf (s : State) (sec : SectionId) : Bytes :=
  match sec with
  | .line l => (s.copies l).stagedLine
  | .cal l => (s.copies l).stagedCal
  | .windows => s.cu.stagedWindows
  | .delivery => s.cu.stagedDelivery

/-- A load of a section code covers a section (R150, R159): 0 to 3 the lines, 4 to 7 the calibrations, 8 the windows,
9 the delivery, 10 all, a buffer of no more than 1536 bytes leaving the calibrations out. -/
def loadCovers (code length : Nat) (sec : SectionId) : Prop :=
  match sec with
  | .line l => code = l.val ∨ 10 ≤ code
  | .cal l => code = 4 + l.val ∨ (10 ≤ code ∧ 1536 < length)
  | .windows => code = 8 ∨ 10 ≤ code
  | .delivery => code = 9 ∨ 10 ≤ code

/-- Where the bytes of a section stand in the buffer of a load (R159). -/
def loadPlace (code : Nat) (sec : SectionId) : Nat :=
  if code < 10 then 0
  else match sec with
    | .delivery => 0
    | .windows => 256
    | .line l => 512 + 256 * l.val
    | .cal l => 1536 + 256 * l.val

/-- Every staged copy a load covers has the buffer's bytes, every other is kept, and no live or pending copy has
changed (R161). -/
def loadTaken (s t : State) (code : Nat) (buffer : List Byte) : Prop :=
  (∀ sec : SectionId,
      (loadCovers code buffer.length sec →
        stagedOf t sec = sectionOf ((buffer.drop (loadPlace code sec)).take 256))
      ∧ (¬loadCovers code buffer.length sec → stagedOf t sec = stagedOf s sec))
    ∧ (∀ l : LineId, (t.copies l) = { s.copies l with
        stagedLine := (t.copies l).stagedLine, stagedCal := (t.copies l).stagedCal })
    ∧ t.cu.liveWindows = s.cu.liveWindows ∧ t.cu.liveDelivery = s.cu.liveDelivery

/-- The CU after the write of a page has ended (R162): in INIT the page leaves the initial writes outstanding, and with
the last the CU enters IDLE, the ready flag set and the part status page dirty; in any other state nothing. -/
def initFollows (s t : State) (p : PageId) : Prop :=
  let left := s.cu.initLeft.filter (· ≠ p)
  (s.cu.state ≠ .init → t.cu = s.cu)
    ∧ (s.cu.state = .init → left ≠ [] → t.cu = { s.cu with initLeft := left })
    ∧ (s.cu.state = .init → left = [] →
        t.cu = { s.cu with initLeft := [], state := .idle, ready := true } ∧ isDirty t partPage)

/-! ## Zone tests (R60 to R63) -/

/-- The bands of a zone that count in a column: valid, with a weight greater than 0 (R60). -/
def countedBands (d : ZoneDef) (w : Nat → Nat) (c : Column) : List (Fin 6) :=
  (List.finRange 6).filter fun k =>
    decide (d.bandLo ≤ k.val) && decide (k.val ≤ d.bandHi) && decide (0 < w k.val) && c.bands[k].quality.valid
      && c.bands[k].velocity.isSome

/-- The zone value of a column: Σ(w × v) ÷ Σ(w) over the bands that count, rounded toward zero; none without such a
band (R60). -/
def valueOfColumn (d : ZoneDef) (w : Nat → Nat) (c : Column) : Option Int :=
  if countedBands d w c = [] then none
  else some ((((countedBands d w c).map fun k => (w k.val : Int) * c.bands[k].velocity.getD 0).sum).tdiv
    (((countedBands d w c).map fun k => w k.val).sum : Nat))

/-- The lag of a column: the velocity of B5 less the zone value, when B5 is valid and there is a zone value (R63). -/
def lagOfColumn (d : ZoneDef) (w : Nat → Nat) (c : Column) : Option Int :=
  if c.bands[5].quality.valid = true then
    c.bands[5].velocity.bind fun top => (valueOfColumn d w c).map fun v => top - v
  else none

/-! ## Word classes and holds (R134 to R137, R170, R125, R127) -/

/-- An address lies in the gauge area, at this offset (R134). -/
def liesAt (s : State) (addr : Addr) (off : Nat) : Prop :=
  addr.toNat = s.wu.base.toNat * 65536 + off ∧ off < 65536

/-- An offset lies in the region that a ring occupies while armed: 48 bytes a record for P0 to P3, 16 for N (R136). -/
def inRegionOf (s : State) (r : RingId) (off : Nat) : Prop :=
  (s.ring r).armed = true ∧ (s.ring r).base ≤ off
    ∧ off < (s.ring r).base + (s.ring r).capacity * (if r = noticeRing then 16 else 48)

/-- The word at an offset is OWNED with this class code (Tables 7-1 and 7-2). -/
def ownedAs (s : State) (off code : Nat) : Prop :=
  (code = 8 ∧ off ≤ 0x00FF) ∨ (code = 9 ∧ 0x0104 ≤ off ∧ off ≤ 0x0107)
    ∨ (code = 10 ∧ ∃ r : RingId, 0x0C00 + 16 * r.val ≤ off ∧ off < 0x0C04 + 16 * r.val)
    ∨ (code = 11 ∧ 0x1000 ≤ off ∧ off ≤ 0x17FF)
    ∨ (code = 12 ∧ 0x2000 ≤ off ∧ ∃ r : RingId, inRegionOf s r off)

/-- A write is suppressed with this class code: its word is owned, or in the calibration block while the freeze is set
(R137, R138, R174). -/
def ownedHit (s : State) (addr : Addr) (code : Nat) : Prop :=
  ∃ off, liesAt s addr off
    ∧ (ownedAs s off code ∨ (code = 13 ∧ s.cu.frozen = true ∧ 0x0800 ≤ off ∧ off ≤ 0x0BFF))

/-- An address lies in an enabled watch window with its guard set (R165, R170). -/
def guardedBy (s : State) (addr : Addr) (w : WindowId) : Prop :=
  (s.windowDef w).enable = true ∧ (s.windowDef w).guard = true ∧ (s.windowDef w).base ≤ addr.toNat
    ∧ addr.toNat < (s.windowDef w).base + 2 ^ (s.windowDef w).exponent

/-- A host write to the address is given SUPPRESS (R137). -/
def suppressed (s : State) (addr : Addr) : Prop := (∃ c, ownedHit s addr c) ∨ ∃ w : WindowId, guardedBy s addr w

/-- Each suppression cause of a write to the address, judged in `c`, has been counted once and its GUARD_HIT recorded
(R138, R170): the owned field or freeze first and the windows in order, so that the detail recorded last is that of the
highest window. -/
def suppressionReported (c s t : State) (addr : Addr) : Prop :=
  let told (d : Nat) : Prop :=
    t.levelOf .guardHit ≠ 0 → records t.nu .guardHit .part (BitVec.ofNat 16 d) s.nu.ms
  (∀ x : Fin 6, (ownedHit c addr (x.val + 8) → t.wu.ownedHits[x] = satInc s.wu.ownedHits[x])
      ∧ (¬ownedHit c addr (x.val + 8) → t.wu.ownedHits[x] = s.wu.ownedHits[x]))
    ∧ (∀ w : WindowId, (guardedBy c addr w → (t.window w).guardHits = satInc (s.window w).guardHits)
        ∧ (¬guardedBy c addr w → (t.window w).guardHits = (s.window w).guardHits))
    ∧ (∀ w : WindowId, guardedBy c addr w → (∀ v : WindowId, w < v → ¬guardedBy c addr v) → told w.val)
    ∧ ((∀ v : WindowId, ¬guardedBy c addr v) → ∀ x : Fin 6, ownedHit c addr (x.val + 8) → told (x.val + 8))

/-- The first offset of a captured section (Table 7-1). -/
def sectionOffset (sec : SectionId) : Nat :=
  match sec with
  | .delivery => 0x0200
  | .windows => 0x0300
  | .line l => 0x0400 + 256 * l.val
  | .cal l => 0x0800 + 256 * l.val

/-- The capture target of a forwarded write to the address is `x`, which is not none: a captured section, the command
slot, or the Rd word of a ring (Table 7-1, R137). -/
def capturedAs (s : State) (addr : Addr) (x : CaptureTarget) : Prop :=
  ∃ off, liesAt s addr off
    ∧ ((∃ sec, x = .captured sec ∧ sectionOffset sec ≤ off ∧ off < sectionOffset sec + 256)
      ∨ (x = .commandSlot ∧ 0x0100 ≤ off ∧ off ≤ 0x0103)
      ∨ ∃ r : RingId, x = .readIndex r ∧ 0x0C04 + 16 * r.val ≤ off ∧ off < 0x0C08 + 16 * r.val)

/-- A read of the address is a fresh read of this word (R127, R180). -/
def freshAt (s : State) (addr : Addr) (f : FreshWord) : Prop :=
  ∃ off, liesAt s addr off
    ∧ ((f = .milliseconds ∧ off < 4) ∨ (f = .activity ∧ 4 ≤ off ∧ off < 8))

/-- The hold test covers the word at the address: a record in flight with it in its slot or as its ring's W word, a page
in flight with it in the page and not a fresh word, or the W word of a ring whose index reset is outstanding (R125). -/
def covered (s : State) (addr : Addr) : Prop :=
  ∃ off, liesAt s addr off
    ∧ let isW (r : RingId) : Prop := 0x0C00 + 16 * r.val ≤ off ∧ off < 0x0C04 + 16 * r.val
      (∃ r slot words done, s.de.flight = some (.record r slot words done)
        ∧ ((slot ≤ off ∧ off < slot + 4 * words.length) ∨ isW r))
      ∨ (∃ p words done, s.de.flight = some (.page p words done)
        ∧ ((p = partPage ∧ 0x0008 ≤ off ∧ off ≤ 0x00FF)
          ∨ ∃ l : LineId, p = linePage l ∧ 0x1000 + 512 * l.val ≤ off ∧ off ≤ 0x11FF + 512 * l.val))
      ∨ ∃ r : RingId, (s.ring r).resetOut = true ∧ isW r

/-! ## The engine order (R86) and the arbiter (R129, R130) -/

/-- A ring can take a record: armed, not FAULTED, no index reset outstanding, space (R82, R84). -/
def takesRecord (d : RingDesc) : Prop :=
  d.armed = true ∧ d.faulted = false ∧ d.resetOut = false ∧ (d.w - d.rd).toNat < d.capacity

/-- No refresh is asked for and no record or page is in flight, so the engine chooses an item (R86). -/
def engineChooses (s : State) : Prop := s.de.fresh = [] ∧ s.de.flight = none

/-- Nor is an index reset outstanding (R86 item 2). -/
def noResetDue (s : State) : Prop := engineChooses s ∧ ∀ r : RingId, (s.ring r).resetOut = false

/-- Nor is the command status dirty (R86 item 3). -/
def noStatusDue (s : State) : Prop := noResetDue s ∧ s.de.statusDirty = false

/-- Nor has a load a read left, so items 5 to 7 are reached (R86 item 4). -/
def mayBegin (s : State) : Prop := noStatusDue s ∧ ∀ x, s.cu.load = some x → x.left = []

/-- No notice entry is to be begun: the notice ring takes none, or neither an offer stands nor a backlog entry that is
not in flight (R86 item 5, R104, R106). -/
def noNoticeDue (s : State) : Prop :=
  ¬takesRecord (s.ring noticeRing) ∨ (s.nu.offer = none ∧ ∀ b ∈ s.nu.backlog, b.inFlight = true)

/-- A line has a profile to begin: its queue is not empty and its ring can take a record (R86 item 6). -/
def hasRecord (s : State) (l : LineId) : Prop := (s.staging l).queue ≠ [] ∧ takesRecord (s.ring (profileRing l))

/-- Entry `a` drains before entry `b`: by the highest level, the lower kind code, the lower source code (R106). -/
def drainsBefore (a b : Entry) : Prop :=
  b.level < a.level
    ∨ (a.level = b.level ∧ (a.kind.code < b.kind.code ∨ (a.kind = b.kind ∧ a.source.code < b.source.code)))

/-- How far a page stands behind the page last begun, in the cyclic order L0 to L3 and part (R86 item 7). -/
def pageDistance (last : Option PageId) (p : PageId) : Nat :=
  match last with
  | none => p.val
  | some x => (p.val + 4 - x.val) % 5

/-- No arming request is due: none waits, or a record or page is in flight (R79). -/
def noArmingDue (s : State) : Prop := s.de.arming = none ∨ s.de.flight ≠ none

/-- A FREE port is the DE's when it claims: no arming is due, and no WAITING request is below the patience (R129, R130;
log 7). -/
def enginePort (s : State) : Prop :=
  s.mp.port = .free ∧ noArmingDue s
    ∧ ∀ r, s.mp.request = some r → r.stage = .waiting → patience s.liveDelivery ≤ s.mp.passed

/-- A full-word write of the DE at a gauge area offset is on the port, for this purpose (R95). -/
def wordOnPort (t : State) (kind : DeKind) (off : Nat) (x : Word) : Prop :=
  t.mp.port = .de kind { addr := t.areaAddr off, write := true, be := 0xF#4, data := x }

/-- The next word of the record or page in flight is on the port: the next record word at its place in the slot, after
the last the W word with W + 1, or the next page word at its offset (R82, R87). -/
def flightOnPort (t : State) : Prop :=
  (∀ r slot words done, t.de.flight = some (.record r slot words done) →
      (∀ w, words[done]? = some w → wordOnPort t .recordWord (slot + 4 * done) w)
      ∧ (words[done]? = none → wordOnPort t .wWord (0x0C00 + 16 * r.val) (((t.ring r).w + 1).setWidth 32)))
    ∧ ∀ p words done x, t.de.flight = some (.page p words done) → words[done]? = some x →
        wordOnPort t .pageWord x.1 x.2

/-- The request in hand after a record or page has begun or an arming has set index reset marks (R125): a WAITING read,
not fresh, that the hold test now covers is HELD, any other request is as it was. -/
def retested (s t : State) : Prop :=
  (s.mp.request = none → t.mp.request = none)
    ∧ ∀ r, s.mp.request = some r →
      ((r.stage = .waiting ∧ r.access.write = false ∧ r.fresh = none ∧ covered t r.access.addr) →
        t.mp.request = some { r with stage := .held })
      ∧ (¬(r.stage = .waiting ∧ r.access.write = false ∧ r.fresh = none ∧ covered t r.access.addr) →
        t.mp.request = some r)

/-- The request in hand after a write of the DE has ended (R126): a HELD read that the hold test covers no more is
WAITING, any other request is as it was. -/
def released (s t : State) : Prop :=
  (s.mp.request = none → t.mp.request = none)
    ∧ ∀ r, s.mp.request = some r →
      ((r.stage = .held ∧ ¬covered t r.access.addr) → t.mp.request = some { r with stage := .waiting })
      ∧ (¬(r.stage = .held ∧ ¬covered t r.access.addr) → t.mp.request = some r)

/-- From `s` a record of this content has begun: it is in flight at the slot of W of its ring, whose records have
`size` bytes, and its first word is on the port (R78, R82). -/
def recordBegun (s t : State) (r : RingId) (size : Nat) (words : List Word) : Prop :=
  let slot := (s.ring r).base + (s.ring r).w.toNat % (s.ring r).capacity * size
  t.de = { s.de with flight := some (.record r slot words 0) }
    ∧ words ≠ [] ∧ flightOnPort t ∧ retested s t

/-- The command status word of the last-command record (R179). A record with code 0 is the power-on record when its
result is ACCEPTED, since every command write with code 0 is refused (R148). -/
def statusWord (x : Word) (r : CmdRecord) : Prop :=
  x.toNat % 256 = r.tag.toNat ∧ x.toNat / 256 % 256 = r.taken.toNat ∧ x.toNat / 65536 % 16 = r.result.code
    ∧ (1 ≤ r.code.toNat → r.code.toNat ≤ 11 → x.toNat / 1048576 % 16 = r.code.toNat)
    ∧ (11 < r.code.toNat → x.toNat / 1048576 % 16 = 15)
    ∧ (r.code = 0 → r.result = .accepted → x.toNat / 1048576 % 16 = 0)
    ∧ (r.code = 0 → r.result ≠ .accepted → x.toNat / 1048576 % 16 = 15)
    ∧ x.toNat / 16777216 = min r.detail.toNat 255

/-- From `s` the access of the work the DE has chosen is on the port, and a record or page it begins is in flight
(R81, R82, R87, R89 to R91, R129, R130, R167). The passed-over count is 0, and besides nothing of the part differs. -/
def engineBegins (s t : State) (work : DeWork) : Prop :=
  t.mp = { s.mp with port := t.mp.port, passed := 0, request := t.mp.request }
    ∧ t.lines = s.lines ∧ t.cu = s.cu ∧ outsideKept s t
    ∧ match work with
      | .fresh f =>
        t.de = { s.de with fresh := s.de.fresh.drop 1 } ∧ t.mp.request = s.mp.request ∧ t.nu = s.nu
          ∧ ∃ x, wordOnPort t (.refresh f x) (if f = .milliseconds then 0x0000 else 0x0004) x
            ∧ (f = .milliseconds → x = s.nu.ms ∧ t.wu = s.wu)
            ∧ (f = .activity → x.toNat < 256 ∧ (∀ v : WindowId, x.getLsbD v.val = (s.window v).active)
                ∧ t.wu = { s.wu with windows := t.wu.windows }
                ∧ ∀ v : WindowId, (t.window v) = { s.window v with matched := false })
      | .flightWord => flightOnPort t ∧ t.mp.request = s.mp.request ∧ t.de = s.de ∧ t.nu = s.nu ∧ t.wu = s.wu
      | .indexReset r =>
        wordOnPort t (.indexReset r false) (0x0C00 + 16 * r.val) 0 ∧ t.mp.request = s.mp.request ∧ t.de = s.de
          ∧ t.nu = s.nu ∧ t.wu = s.wu
      | .commandStatus =>
        (∃ x, wordOnPort t .commandStatus 0x0104 x ∧ statusWord x s.cu.record) ∧ t.mp.request = s.mp.request
          ∧ t.de = { s.de with statusDirty := false } ∧ t.nu = s.nu ∧ t.wu = s.wu
      | .loadRead off =>
        t.mp.port = .de (.loadRead off) { addr := t.areaAddr off, write := false, be := 0xF#4, data := 0 }
          ∧ t.mp.request = s.mp.request ∧ t.de = s.de ∧ t.nu = s.nu ∧ t.wu = s.wu
      | .notice e =>
        recordBegun s t noticeRing 16 (wordsOf (e.bytes s.nu.sequence)) ∧ t.wu = s.wu
          ∧ (∀ o, s.nu.offer = some o → t.nu = { s.nu with offer := some { o with inFlight := true } })
          ∧ (s.nu.offer = none → t.nu = { s.nu with backlog := s.nu.backlog.map fun b =>
              if b.entry.kind = e.kind ∧ b.entry.source = e.source then { b with inFlight := true } else b })
      | .profile l g =>
        recordBegun s t (profileRing l) 48 (wordsOf g.bytes) ∧ t.nu = s.nu ∧ t.wu = s.wu
      | .page p =>
        t.de = { s.de with flight := some (.page p (s.pageSnapshot p (s.firstPartWrite p)) 0)
                           lastPage := some p, pages := t.de.pages }
          ∧ (t.page p) = { s.page p with dirty := false } ∧ (∀ q : PageId, q ≠ p → (t.page q) = (s.page q))
          ∧ s.pageSnapshot p (s.firstPartWrite p) ≠ [] ∧ flightOnPort t ∧ retested s t ∧ t.nu = s.nu ∧ t.wu = s.wu

/-- The FREE port of `u` has been granted by the table of R130, and `t` is the state after the grant; an arming that is
due comes before the grant (R79, R121; log 7). -/
def arbitrated (u t : State) : Prop :=
  u.mp.port = .free
    ∧ (¬noArmingDue u → t = u)
    ∧ (noArmingDue u →
      ((∀ r, u.mp.request = some r → r.stage ≠ .waiting) →
        (u.deNext = none → t = u) ∧ ∀ w, u.deNext = some w → engineBegins u t w)
      ∧ ∀ r, u.mp.request = some r → r.stage = .waiting →
        let host (n : Nat) : State := { u with mp := { u.mp with
          request := some { r with stage := .onPort }, port := .host true r.access, passed := n } }
        (u.deNext = none → t = host u.mp.passed)
        ∧ (u.deNext ≠ none → u.mp.passed < patience u.liveDelivery → t = host (u.mp.passed + 1))
        ∧ (patience u.liveDelivery ≤ u.mp.passed → ∀ w, u.deNext = some w → engineBegins u t w))

/-- A row that names the grant of a claim of the DE on a FREE port (R81, R82, R87, R89 to R91; log 6). -/
def grantRow (c : Instr) : Prop :=
  c = .indexResetWrite ∨ c = .recordStart ∨ c = .pageWriteStart ∨ c = .commandStatusWrite ∨ c = .freshWordRefresh
    ∨ c = .loadRead

/-- A port that is FREE in `u` is granted in `t` by the table of R130; otherwise nothing changes. -/
def settled (u t : State) : Prop := (u.mp.port = .free → arbitrated u t) ∧ (u.mp.port ≠ .free → t = u)

/-- The host presents its next request with the completion: it is the command that waits next (log 38). -/
def presentsNext (s : State) : Prop :=
  ∃ addr write be data rest, s.pending = .hostRequestTaken addr write be data :: rest

/-- The end of a kept host access has left `u`, its port FREE; `t` is the state at the end of the action. The port is
granted, by the table of R130, in the action; only for a request presented with the completion does the FREE port
stand, for the contest that its taking decides (spec/06, section 6.11; log 38). -/
def handsOn (u t : State) : Prop :=
  (presentsNext u → t = u ∧ u.awaited = true ∧ u.mp.port = .free) ∧ (¬presentsNext u → arbitrated u t)

/-! ## What the part does by itself (R99, R86, R3) -/

/-- The row that names the beginning of this work of the engine (log 6); a word of the write in flight has none. -/
def startRow (w : DeWork) : Option Instr :=
  match w with
  | .fresh _ => some .freshWordRefresh
  | .flightWord => none
  | .indexReset _ => some .indexResetWrite
  | .commandStatus => some .commandStatusWrite
  | .loadRead _ => some .loadRead
  | .notice _ => some .recordStart
  | .profile _ _ => some .recordStart
  | .page _ => some .pageWriteStart

/-- The engine has the FREE port for its next work, whose beginning this row names (R86, R130). -/
def startDue (s : State) (c : Instr) : Prop := enginePort s ∧ ∃ w, s.deNext = some w ∧ startRow w = some c

/-- A debounce of the line has run its length (R15). -/
def debounceEnds (s : State) (l : LineId) : Prop := ∃ d, (s.ls l).debounce = some d ∧ d.remaining = 0

/-- The restart delay timer of the line has reached 0 (R20). -/
def restartDelayEnds (s : State) (l : LineId) : Prop := (s.ls l).restartTimer = some 0

/-- The line has been in ALL_OFF_HOLD for 2 ticks (R16, R18). -/
def holdEnds (s : State) (l : LineId) : Prop :=
  (s.ls l).state = .shutdown ∧ (s.ls l).stage = .allOffHold ∧ 2 ≤ (s.ls l).holdTicks

/-- The silence timer of the line runs, with no episode in progress, and has reached the live silence_ticks (R33). -/
def silenceEnds (s : State) (l : LineId) : Prop :=
  ∃ n, (s.sru l).silence = some n ∧ (s.sru l).episode = false ∧ silenceTicks (s.liveLine l) ≤ n

/-- The length of a phase in ticks, by the lengths of the cycle (R3). -/
def ticksOf (c : CycleLengths) (p : Phase) : Nat :=
  match p with
  | .leadGap => c.gap
  | .pSettle => c.settle
  | .pWindow => c.half - c.settle
  | .midGap => c.gap
  | .nSettle => c.settle
  | .nWindow => c.half - c.settle

/-- The phase timer of the line has reached the length of its phase (R3). -/
def phaseEnds (s : State) (l : LineId) : Prop :=
  ∃ p n c, (s.ls l).phase = some p ∧ (s.ls l).phaseTimer = some n ∧ (s.ls l).lengths = some c ∧ ticksOf c p ≤ n

/-- The event of a line that is due; of several, in the order that the model takes (log 2), the first. -/
def lineEventDue (s : State) (l : LineId) (c : Instr) : Prop :=
  (debounceEnds s l ∧ c = .tripDebounceComplete l)
    ∨ (¬debounceEnds s l ∧ restartDelayEnds s l ∧ c = .restartDelayExpiry l)
    ∨ (¬debounceEnds s l ∧ ¬restartDelayEnds s l ∧ holdEnds s l ∧ c = .shutdownHoldEnd l)
    ∨ (¬debounceEnds s l ∧ ¬restartDelayEnds s l ∧ ¬holdEnds s l ∧ silenceEnds s l ∧ c = .silenceTimerExpiry l)
    ∨ (¬debounceEnds s l ∧ ¬restartDelayEnds s l ∧ ¬holdEnds s l ∧ ¬silenceEnds s l ∧ phaseEnds s l
        ∧ c = .phaseEnd l s.pins.coilLo[l])

/-- The event of the part's own that is due; of several, in the order that the model takes (log 2), the first: an
arming with no record or page in flight (R79), the beginning of the engine's next work (R86, R130), the millisecond
counter 100 ticks after its last advance (R99), the first event of the lowest line that has one (log 32). -/
def ownEventDue (s : State) (c : Instr) : Prop :=
  (¬noArmingDue s ∧ c = .armingTakesEffect)
    ∨ (noArmingDue s ∧ startDue s c)
    ∨ (noArmingDue s ∧ (∀ d, ¬startDue s d) ∧ 100 ≤ s.clock.sinceMs ∧ c = .millisecondAdvance)
    ∨ (noArmingDue s ∧ (∀ d, ¬startDue s d) ∧ s.clock.sinceMs < 100
        ∧ ∃ l : LineId, lineEventDue s l c ∧ ∀ k : LineId, k < l → ∀ d, ¬lineEventDue s k d)

/-- A claim stands on a FREE port, with no arming due: a WAITING request, or work that the engine has next (R129). -/
def claimStands (s : State) : Prop :=
  s.mp.port = .free ∧ noArmingDue s
    ∧ ((∃ r, s.mp.request = some r ∧ r.stage = .waiting) ∨ s.deNext ≠ none)

/-! ## Delivery of notices -/

/-- A write of the notice ring has been delivered: W, the outstanding list and the sequence follow (R82, R107). -/
def noticeDelivered (s t : State) (level : Nat) : Prop :=
  t.de.flight = none ∧ (t.ring noticeRing) = { s.ring noticeRing with w := (s.ring noticeRing).w + 1 }
    ∧ (∀ q : RingId, q ≠ noticeRing → (t.ring q) = (s.ring q)) ∧ t.de.staging = s.de.staging
    ∧ t.nu.outstanding = s.nu.outstanding ++ [level] ∧ t.nu.sequence = s.nu.sequence + 1 ∧ t.nu.offer = none
    ∧ isDirty t partPage ∧ t.lines = s.lines ∧ t.cu = s.cu ∧ t.wu = s.wu

/-- A write of the notice ring has ended with ERR (R93, R109). -/
def noticeRefused (s t : State) : Prop :=
  t.de.flight = none ∧ (t.ring noticeRing) = { s.ring noticeRing with faulted := true }
    ∧ (∀ q : RingId, q ≠ noticeRing → (t.ring q) = (s.ring q)) ∧ t.de.staging = s.de.staging
    ∧ t.nu.outstanding = s.nu.outstanding ∧ t.nu.sequence = s.nu.sequence ∧ t.nu.offer = none
    ∧ t.nu.attn = !s.pins.brst ∧ isDirty t partPage ∧ t.lines = s.lines ∧ t.cu = s.cu ∧ t.wu = s.wu

/-- The offer `e` is back in the backlog: joined with the entry of its pair, whose events came later, or an entry of its
own (R109). -/
def offerReturned (s t : State) (e : Entry) : Prop :=
  (∀ b ∈ s.nu.backlog, b.entry.kind = e.kind → b.entry.source = e.source →
      { b with entry := { b.entry with count := min (e.count + b.entry.count) 255, first := e.first } }
        ∈ t.nu.backlog)
    ∧ ((∀ b ∈ s.nu.backlog, ¬(b.entry.kind = e.kind ∧ b.entry.source = e.source)) →
        t.nu.backlog = s.nu.backlog ++ [{ entry := e, inFlight := false, late := none }])
    ∧ ∀ b ∈ s.nu.backlog, ¬(b.entry.kind = e.kind ∧ b.entry.source = e.source) → b ∈ t.nu.backlog

/-- The offer `e` is back in the backlog, where other events may since have been recorded too: joined with the entry of
its pair, or an entry of its own (R104, R109). -/
def joinsBacklog (s t : State) (e : Entry) : Prop :=
  (∀ b ∈ s.nu.backlog, b.entry.kind = e.kind → b.entry.source = e.source →
      { b with entry := { b.entry with count := min (e.count + b.entry.count) 255, first := e.first } }
        ∈ t.nu.backlog)
    ∧ ((∀ b ∈ s.nu.backlog, ¬(b.entry.kind = e.kind ∧ b.entry.source = e.source)) →
        { entry := e, inFlight := false, late := none } ∈ t.nu.backlog)

/-- An arming with this section keeps the ring: enabled, armed, not FAULTED, its geometry unchanged (R80). -/
def ringKept (s : State) (b : Bytes) (r : RingId) : Prop :=
  ringEnable b r.val = true ∧ (s.ring r).armed = true ∧ (s.ring r).faulted = false
    ∧ (s.ring r).base = ringBase b r.val ∧ (s.ring r).capacity = ringCapacity b r.val

/-- The backlog after a write of its entry in flight was delivered (R107, R108). -/
def afterDelivered (bl : List BacklogEntry) : List BacklogEntry :=
  bl.filterMap fun b =>
    if b.inFlight then
      b.late.map fun x => { entry := { b.entry with count := x.count, detail := x.detail, level := x.level,
                                                    first := x.first, last := x.last },
                            inFlight := false, late := none }
    else some b

/-- The backlog after a write of its entry in flight ended with ERR (R108). -/
def afterRefused (bl : List BacklogEntry) : List BacklogEntry :=
  bl.map fun b =>
    if b.inFlight then
      { entry := match b.late with
          | none => b.entry
          | some x => { b.entry with count := min (b.entry.count + x.count) 255, detail := x.detail,
                                     level := x.level, last := x.last }
        inFlight := false, late := none }
    else b

/-- `b` is the one backlog entry in flight, and no offer stands (R106). -/
def entryFlies (s : State) (b : BacklogEntry) : Prop :=
  s.nu.offer = none ∧ b ∈ s.nu.backlog ∧ b.inFlight = true ∧ ∀ c ∈ s.nu.backlog, c.inFlight = true → c = b

/-! ## An arming (R79, R80, R156) -/

/-- The last-command record and its owner are as they were. -/
def cuRecordKept (s t : State) : Prop := t.cu.record = s.cu.record ∧ t.cu.owner = s.cu.owner

/-- The last-command record at the end of a load (R149, R161): when it still belongs to the load it has this result and
detail, with no owner and the command status dirty, else it is kept. -/
def loadRecorded (s t : State) (result : CmdResult) (detail : Half) : Prop :=
  (s.cu.owner = .load → t.cu.record = { s.cu.record with result := result, detail := detail } ∧ t.cu.owner = .none
      ∧ t.de.statusDirty = true)
    ∧ (s.cu.owner ≠ .load → cuRecordKept s t ∧ t.de.statusDirty = s.de.statusDirty)

/-- The arming request `a` of `s` has taken effect, leaving `t`, but for the grant of the port (R79, R80, R81, R104,
R110, R120, R121, R125, R126, R149, R156). A read held for an index reset whose mark is cleared is WAITING again (log
33); the values of ring N's priority, batch count and countdown are the model's choice (log 35). -/
def armsBy (s : State) (a : Arming) (t : State) : Prop :=
  t.de.arming = none ∧ t.cu = { s.cu with
      liveDelivery := a.bytes, deliveryTag := a.tag, record := t.cu.record, owner := t.cu.owner }
    ∧ (∀ p : PageId, (t.page p) = { dirty := true, faulted := false })
    ∧ (∀ r : RingId,
        (ringEnable a.bytes r.val = false → (t.ring r).armed = false ∧ (t.ring r).resetOut = false)
        ∧ (ringEnable a.bytes r.val = true →
            ((s.ring r).armed = false ∨ (s.ring r).faulted = true ∨ (s.ring r).base ≠ ringBase a.bytes r.val
              ∨ (s.ring r).capacity ≠ ringCapacity a.bytes r.val) →
            (t.ring r) = { armed := true, base := ringBase a.bytes r.val, capacity := ringCapacity a.bytes r.val,
                           faulted := false, w := 0, rd := 0, resetOut := true,
                           priority := ringPriority a.bytes r.val, batch := ringBatch a.bytes r.val,
                           countdown := ringBatch a.bytes r.val })
        ∧ (ringEnable a.bytes r.val = true → (s.ring r).armed = true → (s.ring r).faulted = false →
            (s.ring r).base = ringBase a.bytes r.val → (s.ring r).capacity = ringCapacity a.bytes r.val →
            (t.ring r) = { s.ring r with priority := ringPriority a.bytes r.val,
                                         batch := ringBatch a.bytes r.val,
                                         countdown := ringBatch a.bytes r.val }))
    ∧ (ringKept s a.bytes noticeRing → t.nu.outstanding = s.nu.outstanding)
    ∧ (¬ringKept s a.bytes noticeRing → t.nu.outstanding = [])
    ∧ (ringEnable a.bytes 4 = true → ∀ o, s.nu.offer = some o → t.nu.offer = some o)
    ∧ (ringEnable a.bytes 4 = false → ∀ o, s.nu.offer = some o → o.inFlight = false → t.nu.offer = none
        ∧ (∃ x ∈ t.nu.backlog, x.entry.kind = o.entry.kind ∧ x.entry.source = o.entry.source
            ∧ x.entry.first = o.entry.first)
        ∧ (o.entry.source = .part ∧ (o.entry.kind = .configApplied ∨ o.entry.kind = .guardHit)
            ∨ joinsBacklog s t o.entry))
    ∧ (kindLevel a.bytes Kind.configApplied.code ≠ 0 →
        records t.nu .configApplied .part (a.tag.setWidth 16) s.nu.ms)
    ∧ (s.cu.owner = .arming → t.cu.record = { s.cu.record with result := .applied, detail := 0 }
        ∧ t.cu.owner = .none ∧ t.de.statusDirty = true)
    ∧ (s.cu.owner ≠ .arming → cuRecordKept s t ∧ t.de.statusDirty = s.de.statusDirty)
    ∧ (∀ r, s.mp.request = some r → r.stage = .waiting → r.access.write = true →
        (suppressed t r.access.addr →
          t.mp.request = none ∧ t.mp.completion = some { err := false, data := none }
          ∧ suppressionReported t s t r.access.addr
          ∧ t.wu = { s.wu with ownedHits := t.wu.ownedHits, windows := t.wu.windows }
          ∧ ∀ w : WindowId, (t.window w) = { s.window w with guardHits := (t.window w).guardHits })
        ∧ (¬suppressed t r.access.addr → t.mp.request = some r))
    ∧ (∀ r, s.mp.request = some r → r.access.write = false → r.fresh = none →
        (r.stage = .waiting ∨ r.stage = .held) →
        (covered t r.access.addr → t.mp.request = some { r with stage := .held })
        ∧ (¬covered t r.access.addr → t.mp.request = some { r with stage := .waiting }))
    ∧ (∀ r, s.mp.request = some r →
        r.stage = .onPort ∨ r.stage = .refreshing ∨ (r.stage = .waiting ∧ r.fresh ≠ none ∧ r.access.write = false) →
        t.mp.request = some r)
    ∧ (∀ r o x, s.mp.port = .de (.indexReset r o) x →
        (ringKept s a.bytes r → t.mp.port = s.mp.port)
        ∧ (¬ringKept s a.bytes r → t.mp.port = .de (.indexReset r true) x))
    ∧ ((∀ r o x, s.mp.port ≠ .de (.indexReset r o) x) → t.mp.port = s.mp.port)
    ∧ (s.mp.request = none → t.mp.request = none)
    ∧ ((∀ r, s.mp.request = some r →
        r.stage ≠ .waiting ∨ r.access.write = false ∨ ¬suppressed t r.access.addr) → t.wu = s.wu
        ∧ t.mp.completion = s.mp.completion)
    ∧ t.mp = { s.mp with request := t.mp.request, port := t.mp.port, completion := t.mp.completion }
    ∧ t.de.fresh = s.de.fresh ∧ t.de.flight = none
    ∧ t.de.staging = s.de.staging ∧ t.de.lastPage = s.de.lastPage ∧ t.lines = s.lines
    ∧ t.nu.ms = s.nu.ms ∧ t.nu.sequence = s.nu.sequence ∧ t.pins = s.pins ∧ t.clock = s.clock
    ∧ t.pending = s.pending

/-- The arming that is due in `s` has taken effect, leaving `a`, before anything else (R79, R156; log 7); a port that
stands for a request presented with a completion goes on standing for it (log 38). -/
def armedFirst (s a : State) : Prop :=
  (noArmingDue s → a = s)
    ∧ ∀ x, s.de.arming = some x → s.de.flight = none → armsBy s x a ∧ a.awaited = s.awaited

/-- What took place at once in `s` before a command, leaving `b`: an arming that was due (R79; log 7), and the grant of
a claim that stands on a FREE port (R130; log 6); but a port that stands for a request presented with a completion
waits for it (log 38). -/
def claimedFirst (s b : State) : Prop :=
  ∃ a, armedFirst s a ∧ (a.mp.port = .free → a.awaited = false → arbitrated a b)
    ∧ ((a.mp.port ≠ .free ∨ a.awaited = true) → b = a)

/-- Nothing is left that would take place at once before a command: no arming is due (R79; log 7), and no claim stands
on a FREE port, since the port is taken, or it stands for the request presented with a completion (log 38), or nobody
claims it. -/
def atRest (s : State) : Prop :=
  noArmingDue s ∧ (s.mp.port ≠ .free ∨ s.awaited = true
    ∨ (s.deNext = none ∧ ∀ r, s.mp.request = some r → r.stage ≠ .waiting))

/-- The write of a command word stands on the port, kept, with no arming due, and the CU is IDLE (R141, R148). -/
def commandReady (s : State) (tag code operand : Byte) : Prop :=
  awake s ∧ atRest s ∧ s.commandOnPort tag code operand = true ∧ s.cu.state = .idle

/-- The request in hand is a full-word write of CLEAR_TOTAL to the command slot (R49, R148). -/
def clearTotalInHand (s : State) : Prop :=
  ∃ r, s.mp.request = some r ∧ r.access.write = true ∧ r.target = .commandSlot ∧ r.access.be = 0xF#4
    ∧ (wordByte r.access.data 1).toNat = 10

/-! ## Laws of the device -/

/-- ATTN is the disjunction of its three terms, held deasserted while BRST is asserted (R112, R113); a part held in
power-on reset has none of the terms (R115). -/
def attnLaw (s : State) : Prop :=
  s.nu.attn = (!s.pins.brst && s.attnTerms) ∧ (s.pins.por = true → s.attnTerms = false)

/-- A line alarm's terms: an enabled alarm zone TRIPPED or RECOVERING, the line in SHUTDOWN with alarm_on_shutdown set,
the part UNATTENDED with alarm_on_unattended set (R68). -/
def alarmed (s : State) (l : LineId) : Prop :=
  (∃ z : Fin 4, (zoneDef (s.liveLine l) z.val).enable = true ∧ (zoneDef (s.liveLine l) z.val).alarm = true
      ∧ ((s.gzu l).zones[z].state = .tripped ∨ (s.gzu l).zones[z].state = .recovering))
    ∨ ((s.ls l).state = .shutdown ∧ alarmOnShutdown (s.liveLine l) = true)
    ∨ (s.wu.attendance = .unattended ∧ alarmOnUnattended (s.liveLine l) = true)

/-- Every LALMn is asserted exactly when its line is alarmed, and the GZU's copies of the line state and of the
attendance agree with what they copy (R68, R69). -/
def lalmLaw (s : State) : Prop :=
  ∀ l : LineId, ((s.gzu l).lalm = true ↔ alarmed s l) ∧ (s.gzu l).lineCopy = (s.ls l).state
    ∧ (s.gzu l).attCopy = s.wu.attendance

/-- The attendance is as R171 derives it. -/
def attendanceLaw (s : State) : Prop :=
  s.wu.attendance = .unattended ↔ ∃ w : WindowId, holdsPart s w

/-- Two entries of the backlog never stand for the same pair of kind and source (R105). -/
def onePerPair (s : State) : Prop :=
  s.nu.backlog.Pairwise fun a b => ¬(a.entry.kind = b.entry.kind ∧ a.entry.source = b.entry.source)

/-- A profile record in flight is the head of its line's queue (R82). -/
def headInFlight (s : State) : Prop :=
  ∀ l : LineId, s.ringInFlight (profileRing l) = true → (s.staging l).queue ≠ []

/-- Of each line's profiles, modulo 65,536: produced = delivered + queued + dropped + lost (R77). -/
def profilesAccounted (s : State) : Prop :=
  ∀ l : LineId, (s.sru l).sequence
    = (s.staging l).delivered.setWidth 16 + BitVec.ofNat 16 (s.staging l).queue.length
      + (s.staging l).dropped.setWidth 16 + (s.staging l).faulted.setWidth 16

/-- A ring's descriptor keeps W − Rd within its capacity, and has space for a record in flight (R82, R84). -/
def ringLaw (s : State) : Prop :=
  (∀ r : RingId, (s.ring r).armed = true → (s.ring r).fill ≤ (s.ring r).capacity ∧ (s.ring r).capacity ≤ 512)
    ∧ (∀ r : RingId, s.ringInFlight r = true → (s.ring r).armed = true ∧ (s.ring r).fill < (s.ring r).capacity)
    ∧ (∀ a, s.de.arming = some a → ∀ r : RingId, ringCapacity a.bytes r.val ≤ 512)

/-- In no leg of a bridge is a switch driven together with its leg partner (R6). -/
def legsSafe (s : State) : Prop :=
  ∀ l : LineId, ((s.ls l).bridge.lu = .off ∨ (s.ls l).bridge.ll = .off)
    ∧ ((s.ls l).bridge.ru = .off ∨ (s.ls l).bridge.rl = .off)

/-- The switches of a line stand as its phase gives them; with no phase all are off but in a CLAMPED shutdown, and a
line in OFF or SHUTDOWN has no phase (R5, R16, R18, R22). -/
def bridgeLaw (s : State) : Prop :=
  ∀ l : LineId,
    (∀ p, (s.ls l).phase = some p → (s.ls l).bridge = p.bridge)
      ∧ ((s.ls l).phase = none → ¬((s.ls l).state = .shutdown ∧ (s.ls l).stage = .clamped) →
          (s.ls l).bridge = Bridge.allOff)
      ∧ ((s.ls l).state = .off ∨ (s.ls l).state = .shutdown → (s.ls l).phase = none)

/-- Every gap is of at least 2 ticks: those of the cycle in progress and of the live and pending line sections (R4,
R6). -/
def gapLaw (s : State) : Prop :=
  ∀ l : LineId, 2 ≤ gapTicks (s.liveLine l) ∧ (∀ p, (s.copies l).pendingLine = some p → 2 ≤ gapTicks p.bytes)
    ∧ ∀ c, (s.ls l).lengths = some c → 2 ≤ c.gap

/-- All four switches of the line have been off for 2 ticks or more: its gap phase or its ALL_OFF_HOLD has run that long
(R6, R16). -/
def restedTwo (s : State) (l : LineId) : Prop :=
  (s.ls l).bridge = Bridge.allOff
    ∧ ((((s.ls l).phase = some .leadGap ∨ (s.ls l).phase = some .midGap)
        ∧ ∃ n, (s.ls l).phaseTimer = some n ∧ 2 ≤ n)
      ∨ ((s.ls l).state = .shutdown ∧ (s.ls l).stage = .allOffHold ∧ 2 ≤ (s.ls l).holdTicks))

/-- A page in flight has a word still to be written (R87). -/
def flightLaw (s : State) : Prop :=
  ∀ p words done, s.de.flight = some (.page p words done) → done < words.length

/-- Staging queues and the passed-over count stay within their bounds, the patience within its range, and a page in
flight within its words (R77, R87, R130). -/
def boundedCounts (s : State) : Prop :=
  (∀ l : LineId, (s.staging l).queue.length ≤ 4) ∧ s.mp.passed ≤ 64 ∧ patience s.liveDelivery ≤ 64
    ∧ (∀ a, s.de.arming = some a → patience a.bytes ≤ 64) ∧ flightLaw s

/-- An arming request that is due finds the port FREE: the action that made it due freed the port (R118, R79), and nobody
is granted it before the arming. This is no rule of the spec: that the arming comes before the next grant is the model's
reading of R79 and R130 (log 7, DEDUCED). R81 speaks of an index reset write that is on the port when an arming takes
effect; the model gives that case its effect too (`armsBy`), but by its reading no run comes to it. -/
def armingLaw (s : State) : Prop := ¬noArmingDue s → s.mp.port = .free

/-- The freeze is set and no pending calibration exists (R158). -/
def frozenLaw (s : State) : Prop := s.cu.frozen = true ∧ ∀ l : LineId, (s.copies l).pendingCal = none

/-- Neither edge of power-on reset. -/
def notPowerOn (c : Instr) : Prop := c ≠ .powerOnResetAssert ∧ ∀ g t, c ≠ .powerOnResetRelease g t

end Sys2Proof
end

