-- ==== Sys2Proof/Certificates/Slice0/Obligations.lean ====
section
/-! DEFINITION. The statements about the FG4 that are to be proved. -/

section

open Sys2Proof Sys2Proof.Machine

/-! ## The queue, the step, resets -/

/-- A step with a command at the front of the queue is `exec` of it with the queue's rest. -/
def Obligations.StepRunsFrontCommand : Prop :=
  ∀ (c : Instr) (s : State), step { s with pending := c :: s.pending } = exec c s

/-- No command stops the part, and none touches the queue. That a command which the present state does not admit, such
as a completion with no access on the port, also answers a next state is the model's choice (log 1, DESIGN CHOICE). An
arming that is due has taken effect before any command but its own row, a row that grants the engine a FREE port
included (R79; log 7), and a claim that stands on a FREE port has been granted before any command but the row that
names its grant (R130; log 6, 38), the edges of power-on reset apart: such a command acts as in the state `b` after
these, in which no arming is due and no claim stands. The other statements about a command are therefore about states
in which nothing is left to be done first. -/
def Obligations.EveryCommandAnswersNext : Prop :=
  (∀ (c : Instr) (s : State), ∃ t, exec c s = .next t ∧ t.pending = s.pending)
  ∧ (∀ (c : Instr) (s : State), awake s → flightLaw s → notPowerOn c → ¬grantRow c →
      (c = .armingTakesEffect → noArmingDue s) →
      ∃ b, claimedFirst s b ∧ atRest b ∧ awake b ∧ exec c s = exec c b)
  ∧ (∀ (c : Instr) (s : State), awake s → grantRow c →
      ∃ a, armedFirst s a ∧ noArmingDue a ∧ awake a ∧ exec c s = exec c a)

/-- On an empty queue the part does nothing under PORn, else its own next event that is due, else the grant of a FREE
port to a WAITING request or the word of a write in flight, which only a state that no run reaches leaves to be made
(log 31), else one tick: the tick counter and the counts of ticks (phase timers, the hold of ALL_OFF_HOLD, silence
timers) advance by one. When an event is due is spelled: an arming request with no record or page in flight (R79), the
engine's next work at a FREE port that is its own (R86, R130), the millisecond counter 100 ticks after its last advance
(R99), a debounce or restart delay of a line with no millisecond left (R15, R20), its hold of 2 ticks (R16, R18), its
silence timer at silence_ticks (R33), its phase timer at the length of the phase (R3). That the part acts so by itself
on an empty queue, one event a step, that of several that are due it takes the first in this order, and that it does
nothing under PORn are the model's choices (log 2, 29, 31, 32). -/
def Obligations.EmptyQueueStep : Prop :=
  ∀ s : State, s.pending = [] →
    (s.pins.por = true → step s = .next s)
    ∧ (awake s → ∀ c, ownEventDue s c → step s = exec c s)
    ∧ (awake s → (∀ c, ¬ownEventDue s c) → claimStands s →
        ∃ t, step s = .next t ∧ arbitrated s t)
    ∧ (awake s → (∀ c, ¬ownEventDue s c) → ¬claimStands s →
        ∃ t, step s = .next t ∧ t.clock.tick = s.clock.tick + 1 ∧ t.clock.sinceMs = s.clock.sinceMs + 1
          ∧ (∀ l : LineId, (t.ls l).phaseTimer = (s.ls l).phaseTimer.map (· + 1)
              ∧ (t.sru l).silence = (s.sru l).silence.map (· + 1)
              ∧ (t.ls l).state = (s.ls l).state ∧ (t.ls l).phase = (s.ls l).phase
              ∧ (t.ls l).holdTicks = (if (s.ls l).state = .shutdown ∧ (s.ls l).stage = .allOffHold
                  then (s.ls l).holdTicks + 1 else (s.ls l).holdTicks)
              ∧ (t.ls l).bridge = (s.ls l).bridge ∧ (t.ls l).restartTimer = (s.ls l).restartTimer
              ∧ (t.gzu l) = (s.gzu l))
          ∧ t.cu = s.cu ∧ t.de = s.de ∧ t.nu = s.nu ∧ t.mp = s.mp ∧ t.wu = s.wu ∧ t.pins = s.pins)

/-- POWER_ON_RESET_ASSERT and what the part holds while PORn is asserted: all switches off, LALM and ATTN deasserted,
no request, the port FREE; any other command but the release then leaves every block as it is. That the blocks hold
values at all under PORn is the model's choice (log 13). -/
def Obligations.PowerOnResetHoldsThePart : Prop :=
  (∀ s : State, ∃ t, exec .powerOnResetAssert s = .next t ∧ t.pins.por = true ∧ t.nu.attn = false
    ∧ t.mp.request = none ∧ t.mp.port = .free ∧ t.mp.completion = none
    ∧ ∀ l : LineId, (t.ls l).state = .off ∧ (t.ls l).bridge = Bridge.allOff ∧ (t.gzu l).lalm = false)
  ∧ (∀ (c : Instr) (s : State), s.pins.por = true → notPowerOn c →
      ∃ t, exec c s = .next t ∧ t.pins.por = true ∧ t.lines = s.lines ∧ t.cu = s.cu ∧ t.de = s.de ∧ t.nu = s.nu
        ∧ t.mp = s.mp ∧ t.wu = s.wu ∧ t.clock = s.clock ∧ t.free = s.free)

/-- POWER_ON_RESET_RELEASE: the straps and trip pins are sampled, and the line units and every other unit of the part
take their initial state: the window accumulators of every SRU are empty, no page has been begun, so that the rotation
of R86 begins at L0, no bus reset is to be counted, and every staged and live copy of a section holds its defaults,
with them the default level table, attention threshold and patience. R28 gives the mark of R35, not accumulating, no
value: that it is clear in both windows is the model's choice (log 39, DESIGN CHOICE). -/
def Obligations.PowerOnReleaseSetsInitialState : Prop :=
  (∀ (g : Byte) (trips : BitVec 4) (s : State), s.pins.por = true →
    ∃ t, exec (.powerOnResetRelease g trips) s = .next t ∧ t.pins.por = false ∧ t.wu.base = g
      ∧ t.clock.tick = 0 ∧ t.clock.sinceMs = 0 ∧ t.nu.ms = 0
      ∧ ∀ l : LineId,
        ((t.ls l).state = .off ∧ (t.ls l).phase = none ∧ (t.ls l).phaseTimer = none ∧ (t.ls l).lengths = none
          ∧ (t.ls l).producing = false ∧ (t.ls l).bridge = Bridge.allOff ∧ (t.ls l).stage = .clamped
          ∧ (t.ls l).recorded = none ∧ (t.ls l).causes = Causes.empty ∧ (t.ls l).profileSincePriming = false
          ∧ (t.ls l).attempts = 0 ∧ (t.ls l).lockout = false ∧ (t.ls l).restartTimer = none
          ∧ (t.ls l).tripLevel = trips.getLsbD l.val ∧ (t.ls l).debounce = none)
        ∧ ((t.sru l).rx = .waitIdle ∧ (t.sru l).rxBits = [] ∧ (t.sru l).rxCount = 0 ∧ (t.sru l).expect = none
          ∧ (t.sru l).silence = none ∧ (t.sru l).episode = false ∧ (t.sru l).params = none
          ∧ (t.sru l).accP.muted = false ∧ (t.sru l).accN.muted = false
          ∧ (∀ k : Fin 6, (t.sru l).accP.bands[k] = { seen := 0, accepted := 0, rejected := 0, sum := 0 }
              ∧ (t.sru l).accN.bands[k] = { seen := 0, accepted := 0, rejected := 0, sum := 0 })
          ∧ (t.sru l).halvesP = none ∧ (∀ k : Fin 6, (t.sru l).offsets[k] = { value := 0, valid := false })
          ∧ (t.sru l).sequence = 0 ∧ (t.sru l).forward = 0 ∧ (t.sru l).reverse = 0 ∧ (t.sru l).forwardRem = 0
          ∧ (t.sru l).reverseRem = 0 ∧ (t.sru l).untotalized = 0 ∧ (t.sru l).frameErrors = 0
          ∧ (t.sru l).frameGaps = 0 ∧ (t.sru l).silences = 0)
        ∧ ((t.gzu l).grid = [] ∧ (∀ k : Fin 6, (t.gzu l).still[k] = 0)
          ∧ (∀ z : Fin 4, (t.gzu l).zones[z] = { state := .clear, count := 0 }) ∧ (t.gzu l).lineCopy = .off
          ∧ (t.gzu l).attCopy = .attended ∧ (t.gzu l).lalm = false))
  ∧ (∀ (g : Byte) (trips : BitVec 4) (s : State), s.pins.por = true →
    ∃ t, exec (.powerOnResetRelease g trips) s = .next t
      ∧ ((∀ l : LineId, (t.staging l) = { queue := [], carried := 0, delivered := 0, dropped := 0, faulted := 0 })
        ∧ (∀ r : RingId, (t.ring r).armed = false ∧ (t.ring r).w = 0 ∧ (t.ring r).rd = 0)
        ∧ (∀ p : PageId, (t.page p) = { dirty := true, faulted := false }) ∧ t.de.statusDirty = true
        ∧ t.de.fresh = [] ∧ t.de.arming = none ∧ t.de.flight = none ∧ t.de.lastPage = none)
      ∧ (t.nu.offer = none ∧ t.nu.backlog = [] ∧ t.nu.outstanding = [] ∧ t.nu.sequence = 0 ∧ t.nu.attn = false)
      ∧ (t.mp.request = none ∧ t.mp.port = .free ∧ t.mp.passed = 0 ∧ t.mp.inReset = s.pins.brst
        ∧ t.mp.resets = 0 ∧ t.mp.resetCounted = false ∧ t.mp.completion = none)
      ∧ ((∀ w : WindowId, (t.window w)
            = { state := .idle, timer := none, active := false, matched := false, guardHits := 0 })
        ∧ t.wu.attendance = .attended ∧ ∀ c : Fin 6, t.wu.ownedHits[c] = 0)
      ∧ (t.cu.state = .init ∧ t.cu.ready = false ∧ t.cu.frozen = false ∧ t.cu.load = none ∧ t.cu.loadFaults = 0
        ∧ t.cu.owner = .none ∧ t.cu.initLeft = [0, 1, 2, 3, 4]
        ∧ t.cu.record = { tag := 0, code := 0, result := .accepted, detail := 0, taken := 0 }
        ∧ t.cu.windowTag = 0 ∧ t.cu.deliveryTag = 0
        ∧ t.cu.stagedWindows = defaultWindows ∧ t.cu.liveWindows = defaultWindows
        ∧ t.cu.stagedDelivery = defaultDelivery ∧ t.cu.liveDelivery = defaultDelivery
        ∧ (∀ l : LineId, (t.copies l) = {
            stagedLine := defaultLine, pendingLine := none, liveLine := defaultLine, lineTag := 0
            stagedCal := defaultCal, pendingCal := none, liveCal := defaultCal, calTag := 0 })
        ∧ attentionThreshold t.liveDelivery = 4 ∧ patience t.liveDelivery = 8
        ∧ (List.range 20).map (fun c => kindLevel t.liveDelivery (c + 1))
            = [6, 3, 7, 3, 7, 5, 2, 4, 1, 4, 5, 2, 3, 4, 2, 2, 6, 7, 3, 3]))

/-- BUS_RESET_ASSERT: the request is abandoned, a host access on the port is discarded, ATTN is forced off, and the bus
reset is one to be counted; nothing else of the part changes. BUS_RESET_RELEASE: NORMAL again, the bus reset counted
with its notice unless its assertion was found at PORn release, ATTN from its terms. -/
def Obligations.BusResetActs : Prop :=
  (∀ s : State, awake s → atRest s → s.pins.brst = false →
    ∃ t, exec .busResetAssert s = .next t ∧ t.pins = { s.pins with brst := true }
      ∧ t.mp.request = none ∧ t.mp.completion = none ∧ t.mp.inReset = true ∧ t.mp.passed = s.mp.passed
      ∧ t.mp.resets = s.mp.resets ∧ t.mp.resetCounted = true
      ∧ (∀ k a, s.mp.port = .host k a → t.mp.port = .host false a)
      ∧ (∀ k a, s.mp.port = .de k a → t.mp.port = .de k a) ∧ (s.mp.port = .free → t.mp.port = .free)
      ∧ t.nu = { s.nu with attn := false } ∧ t.lines = s.lines ∧ t.cu = s.cu ∧ t.wu = s.wu ∧ deKept s t
      ∧ t.clock = s.clock)
  ∧ (∀ s : State, awake s → atRest s → s.pins.brst = true →
    ∃ t, exec .busResetRelease s = .next t ∧ t.pins = { s.pins with brst := false } ∧ t.mp.inReset = false
      ∧ t.mp.request = s.mp.request ∧ t.mp.port = s.mp.port ∧ t.mp.passed = s.mp.passed
      ∧ (s.mp.resetCounted = true → t.mp.resets = satInc s.mp.resets ∧ isDirty t partPage
          ∧ raisedIn s t .busReset .part 0)
      ∧ (s.mp.resetCounted = false → t.mp.resets = s.mp.resets ∧ t.nu = { s.nu with attn := t.nu.attn })
      ∧ t.nu.attn = t.attnTerms ∧ t.lines = s.lines ∧ t.cu = s.cu ∧ t.wu = s.wu ∧ deKept s t ∧ t.clock = s.clock)

/-! ## Time, phases, pins, links -/

/-- MILLISECOND_ADVANCE: the millisecond counter, every restart delay timer, debounce and window timer move by one; a
window whose timer reaches 0 becomes EXPIRED with its timer stopped and WINDOW_EXPIRED, of several in window order, so
that the detail recorded last is the highest's; the attendance is re-derived once, and UNATTENDED names the lowest of
them with that action. That a restart delay or debounce brought to 0 does nothing more in this action, and acts in a
step of its own (RESTART_DELAY_EXPIRY, TRIP_DEBOUNCE_COMPLETE), is the model's choice (log 32, DESIGN CHOICE); that the
row acts whatever time has passed is log 3. That a timer of 1 expires its window also where an access or a commit has
just reloaded it is the model's choice, R168 over R169 (log 37, DESIGN CHOICE). -/
def Obligations.MillisecondAdvances : Prop :=
  ∀ s : State, awake s → atRest s →
    ∃ t, exec .millisecondAdvance s = .next t ∧ t.nu.ms = s.nu.ms + 1
      ∧ t.clock = { s.clock with sinceMs := 0 }
      ∧ (∀ l : LineId, (t.ls l) = { s.ls l with
            restartTimer := (s.ls l).restartTimer.map (· - 1)
            debounce := (s.ls l).debounce.map fun d => { d with remaining := d.remaining - 1 } }
          ∧ (t.sru l) = (s.sru l))
      ∧ (∀ w : WindowId,
          (lastMillisecond s w → (t.window w) = { s.window w with state := .expired, timer := none })
          ∧ (¬lastMillisecond s w →
            (t.window w) = { s.window w with timer := (s.window w).timer.map (· - 1) }))
      ∧ (∀ w : WindowId, lastMillisecond s w → (∀ v : WindowId, w < v → ¬lastMillisecond s v) →
          s.levelOf .windowExpired ≠ 0 →
          records t.nu .windowExpired .part (BitVec.ofNat 16 w.val) (s.nu.ms + 1))
      ∧ attendanceFollows s t
      ∧ (∀ w : WindowId, s.wu.attendance = .attended → expiresUnattended s w →
          (∀ v : WindowId, v < w → ¬expiresUnattended s v) → s.levelOf .unattended ≠ 0 →
          records t.nu .unattended .part (BitVec.ofNat 16 w.val) (s.nu.ms + 1))
      ∧ ((∀ w : WindowId, ¬lastMillisecond s w) → t.wu.attendance = s.wu.attendance →
          t.nu = { s.nu with ms := s.nu.ms + 1 })
      ∧ t.wu = { s.wu with windows := t.wu.windows, attendance := t.wu.attendance }
      ∧ t.cu = s.cu ∧ t.mp = s.mp ∧ deKept s t

/-- PHASE_END at every boundary but the end of N_WINDOW and but an OPEN_COIL shutdown: the next phase begins with its
timer at 0 and the switches of R5; a window that opens is empty, and a P window that closes leaves half results. That
the row acts before the phase timer's end too is the model's choice (log 3). -/
def Obligations.PhaseEndEntersNextPhase : Prop :=
  ∀ (l : LineId) (coilLo : Bool) (s : State) (p q : Phase), awake s → atRest s → (s.ls l).phase = some p →
    phaseAfter p = some q → ¬(isSettle p ∧ coilLo = true ∧ openCoilEnable (s.liveLine l) = true) →
    ∃ t, exec (.phaseEnd l coilLo) s = .next t
      ∧ (t.ls l) = { s.ls l with phase := some q, phaseTimer := some 0, bridge := (t.ls l).bridge }
      ∧ ((q = .leadGap ∨ q = .midGap) → (t.ls l).bridge = { lu := .off, ll := .off, ru := .off, rl := .off })
      ∧ ((q = .pSettle ∨ q = .pWindow) → (t.ls l).bridge = { lu := .on, ll := .off, ru := .off, rl := .modulated })
      ∧ ((q = .nSettle ∨ q = .nWindow) → (t.ls l).bridge = { lu := .off, ll := .modulated, ru := .on, rl := .off })
      ∧ (q = .pWindow → (t.sru l) = { s.sru l with accP := (t.sru l).accP, halvesP := none }
          ∧ (t.sru l).accP.muted = ((s.ls l).state == .priming)
          ∧ ∀ k : Fin 6, (t.sru l).accP.bands[k] = { seen := 0, accepted := 0, rejected := 0, sum := 0 })
      ∧ (q = .nWindow → (t.sru l) = { s.sru l with accN := (t.sru l).accN }
          ∧ (t.sru l).accN.muted = ((s.ls l).state == .priming)
          ∧ ∀ k : Fin 6, (t.sru l).accN.bands[k] = { seen := 0, accepted := 0, rejected := 0, sum := 0 })
      ∧ ((q = .pSettle ∨ q = .nSettle) → (t.sru l) = (s.sru l))
      ∧ (q = .midGap → (t.sru l) = { s.sru l with halvesP := (t.sru l).halvesP }
          ∧ ∀ c, (s.sru l).params = some c → ∃ h, (t.sru l).halvesP = some h
            ∧ ∀ k : Fin 6, h[k] = halfResult c (s.sru l).accP.bands[k])
      ∧ (t.gzu l) = (s.gzu l) ∧ otherLinesKept l s t ∧ t.cu = s.cu ∧ deKept s t ∧ t.nu = s.nu ∧ t.mp = s.mp
      ∧ t.wu = s.wu

/-- PHASE_END of a settle phase with COIL_LOn asserted and OPEN_COIL enabled: shutdown entry with cause OPEN_COIL,
which does not stay present: LINE_SHUTDOWN, the cycle abandoned, pending copies live, the attempt counted with lockout
at the limit, and the restart delay started when its conditions hold. At the transfer a zone whose definition changes
is CLEAR, with ZONE_CLEAR of reason RECONFIGURED where it was TRIPPED or RECOVERING (R67). The row may come early (log
3). That the mark of R35 is clear in the windows of an abandoned cycle is the model's choice (log 39). -/
def Obligations.OpenCoilShutsLineDown : Prop :=
  ∀ (l : LineId) (s : State) (p : Phase), awake s → atRest s → (s.ls l).phase = some p → isSettle p →
    openCoilEnable (s.liveLine l) = true →
    ∃ t, exec (.phaseEnd l true) s = .next t ∧ hasShutDown s t l .openCoil ∧ tripKept s t l
      ∧ recordFollows s t l ∧ otherLinesKept l s t ∧ t.mp = s.mp ∧ t.wu = s.wu

/-- PHASE_END at the end of the PRIMING cycle: no profile; the line is RUNNING at the start of a producing cycle, with
pending copies made live there. When a source holds under the settings then live, it shuts the line down at once (after
the whole start, either first where both hold: the model's reading, log 9 and 17). At the transfer a zone whose
definition changes is CLEAR, with ZONE_CLEAR of reason RECONFIGURED where it was TRIPPED or RECOVERING (R67). The row
may come early (log 3). That the mark of R35 is clear in the windows of an abandoned cycle is the model's choice (log
39). -/
def Obligations.PrimingCycleEndsRunning : Prop :=
  (∀ (l : LineId) (coilLo : Bool) (s : State), awake s → atRest s → (s.ls l).phase = some .nWindow →
    (s.ls l).state = .priming → quietLine s l →
    ∃ t, exec (.phaseEnd l coilLo) s = .next t ∧ (t.ls l).state = .running ∧ atCycleStart s t l
      ∧ (t.ls l).producing = true ∧ (t.ls l).attempts = (s.ls l).attempts
      ∧ (t.ls l).profileSincePriming = (s.ls l).profileSincePriming
      ∧ (t.sru l).sequence = (s.sru l).sequence ∧ (t.sru l).halvesP = none ∧ (t.gzu l).grid = (s.gzu l).grid
      ∧ zonesFollow s t l ∧ (t.gzu l).lineCopy = .running ∧ (t.staging l) = (s.staging l)
      ∧ recordFollows s t l ∧ (nothingPending s l → t.nu = s.nu)
      ∧ deKeptButStatus s t ∧ otherLinesKept l s t ∧ t.mp = s.mp ∧ t.wu = s.wu)
  ∧ (∀ (l : LineId) (coilLo : Bool) (s : State), awake s → atRest s → (s.ls l).phase = some .nWindow →
    (s.ls l).state = .priming → ¬quietLine s l →
    ∃ t, exec (.phaseEnd l coilLo) s = .next t ∧ shutAtStart { s.ls l with producing := true } s t l
      ∧ (t.sru l).sequence = (s.sru l).sequence ∧ (t.staging l) = (s.staging l) ∧ zonesFollow s t l
      ∧ recordFollows s t l ∧ deKeptButStatus s t ∧ otherLinesKept l s t ∧ t.mp = s.mp ∧ t.wu = s.wu)

/-- PHASE_END at the end of a producing RUNNING cycle: one profile, taken by the GZU with its column, still counts and
zone evaluations, which joins the staging queue, from a full queue with PROFILE_DROP for the oldest not in flight; and
the next cycle starts, with pending copies made live there. Totals, remainders, untotalized count and band offsets
follow the profile. When a source holds under the settings then live, it shuts the line down at once (after the whole
start, either first where both hold: the model's reading, log 9 and 17). At the transfer that follows a zone whose
definition changes is CLEAR, with ZONE_CLEAR of reason RECONFIGURED where the evaluation left it TRIPPED or RECOVERING
(R67). The row may come early (log 3). That the mark of R35 is clear in the windows of an abandoned cycle is the
model's choice (log 39). -/
def Obligations.RunningCycleYieldsProfile : Prop :=
  ∀ (l : LineId) (coilLo : Bool) (s : State) (c : CycleParams), awake s → atRest s → (s.ls l).phase = some .nWindow →
    (s.ls l).state = .running → (s.ls l).producing = true → (s.sru l).params = some c →
    ∃ t, exec (.phaseEnd l coilLo) s = .next t
      ∧ (quietLine s l →
          (t.ls l).state = .running ∧ atCycleStart s t l ∧ (t.ls l).producing = true ∧ (t.ls l).attempts = 0
          ∧ (t.ls l).profileSincePriming = true
          ∧ (t.sru l) = { (s.sru l).afterProfile c with params := (t.sru l).params })
      ∧ (¬quietLine s l →
          shutAtStart { s.ls l with producing := true, profileSincePriming := true, attempts := 0 } s t l
          ∧ (t.sru l) = { (s.sru l).afterProfile c with
              params := (t.sru l).params, accP := WindowAcc.empty, accN := WindowAcc.empty, silence := none
              episode := false })
      ∧ (t.sru l).sequence = (s.sru l).sequence + 1 ∧ (t.sru l).halvesP = none
      ∧ deKeptButStatus { s with de := { s.de with staging := t.de.staging } } t
      ∧ (∀ k : LineId, k ≠ l → (t.staging k) = (s.staging k))
      ∧ (∃ g, joinsQueue s t l g ∧ (t.staging l).queue.getLast? = some g
          ∧ g.profile = { (s.sru l).formProfile c l false with zones := g.profile.zones }
          ∧ g.profile.sequence = (s.sru l).sequence ∧ g.profile.stoppingFinal = false
          ∧ profileTaken s t l ((s.sru l).formProfile c l false) g)
      ∧ recordFollows s t l ∧ isDirty t (linePage l) ∧ otherLinesKept l s t ∧ t.mp = s.mp ∧ t.wu = s.wu

/-- PHASE_END at the end of the STOPPING cycle: its profile is the STOPPING-final one, is taken by the GZU with its
column, still counts and zone evaluations and joins the staging queue; totals, remainders, untotalized count and band
offsets follow it; and the line is OFF, with pending copies made live there. At the transfer that follows a zone whose
definition changes is CLEAR, with ZONE_CLEAR of reason RECONFIGURED where the evaluation left it TRIPPED or RECOVERING
(R67). The row may come early (log 3). -/
def Obligations.StoppingCycleEndsOff : Prop :=
  ∀ (l : LineId) (coilLo : Bool) (s : State) (c : CycleParams), awake s → atRest s → (s.ls l).phase = some .nWindow →
    (s.ls l).state = .stopping → (s.ls l).producing = true → (s.sru l).params = some c →
    ∃ t, exec (.phaseEnd l coilLo) s = .next t ∧ isOff t l ∧ (t.sru l).sequence = (s.sru l).sequence + 1
      ∧ (t.sru l) = { (s.sru l).afterProfile c with silence := none, episode := false }
      ∧ deKeptButStatus { s with de := { s.de with staging := t.de.staging } } t
      ∧ (∀ k : LineId, k ≠ l → (t.staging k) = (s.staging k))
      ∧ (∃ g, joinsQueue s t l g ∧ (t.staging l).queue.getLast? = some g
          ∧ g.profile = { (s.sru l).formProfile c l true with zones := g.profile.zones }
          ∧ g.profile.sequence = (s.sru l).sequence ∧ g.profile.stoppingFinal = true
          ∧ profileTaken s t l ((s.sru l).formProfile c l true) g)
      ∧ (t.copies l).pendingLine = none ∧ (t.copies l).pendingCal = none ∧ transferred s t l
      ∧ recordFollows s t l ∧ otherLinesKept l s t ∧ t.mp = s.mp ∧ t.wu = s.wu

/-- SHUTDOWN_HOLD_END: the stage becomes CLAMPED and the switches take the live shutdown state; nothing else changes.
That the row acts before the 2 ticks have run too is the model's choice (log 3). -/
def Obligations.HoldEndClampsBridge : Prop :=
  ∀ (l : LineId) (s : State), awake s → atRest s → (s.ls l).state = .shutdown → (s.ls l).stage = .allOffHold →
    ∃ t, exec (.shutdownHoldEnd l) s = .next t
      ∧ (t.ls l) = { s.ls l with stage := .clamped, holdTicks := 0, bridge := (t.ls l).bridge }
      ∧ (shutdownStateCode (s.liveLine l) = 0 →
          (t.ls l).bridge = { lu := .off, ll := .off, ru := .off, rl := .off })
      ∧ (shutdownStateCode (s.liveLine l) = 1 →
          (t.ls l).bridge = { lu := .off, ll := .on, ru := .off, rl := .on })
      ∧ (shutdownStateCode (s.liveLine l) = 2 →
          (t.ls l).bridge = { lu := .on, ll := .off, ru := .on, rl := .off })
      ∧ (t.sru l) = (s.sru l) ∧ (t.gzu l) = (s.gzu l) ∧ otherLinesKept l s t ∧ t.cu = s.cu ∧ deKept s t
      ∧ t.nu = s.nu ∧ t.mp = s.mp ∧ t.wu = s.wu ∧ outsideKept s t

/-- COIL_HI_ASSERT: in OFF, or disabled on a driven line, only the pin changes; enabled, shutdown entry on a driven
line, and in SHUTDOWN the cause joins and the restart delay timer stops, with no notice and the recorded cause kept;
disabled in SHUTDOWN no cause joins. COIL_HI_DEASSERT: in SHUTDOWN the cause leaves and the restart delay starts when
its conditions then hold; in any other state only the pin changes. At the transfer a zone whose definition changes is
CLEAR, with ZONE_CLEAR of reason RECONFIGURED where it was TRIPPED or RECOVERING (R67). That the mark of R35 is clear
in the windows of an abandoned cycle is the model's choice (log 39). -/
def Obligations.CoilHiEdgesAct : Prop :=
  (∀ (l : LineId) (s : State), awake s → atRest s → s.pins.coilHi[l] = false →
    ((s.ls l).state = .off ∨ ((s.ls l).state.driven = true ∧ coilHiEnable (s.liveLine l) = false) →
      ∃ t, exec (.coilHiAssert l) s = .next t ∧ t.pins.coilHi[l] = true ∧ t.lines = s.lines ∧ t.cu = s.cu
        ∧ deKept s t ∧ t.nu = s.nu ∧ t.mp = s.mp ∧ t.wu = s.wu)
    ∧ ((s.ls l).state.driven = true → coilHiEnable (s.liveLine l) = true →
        ∃ t, exec (.coilHiAssert l) s = .next t ∧ t.pins.coilHi[l] = true
        ∧ hasShutDown s t l .coilHi ∧ tripKept s t l ∧ recordFollows s t l ∧ otherLinesKept l s t
        ∧ t.mp = s.mp ∧ t.wu = s.wu)
    ∧ ((s.ls l).state = .shutdown → coilHiEnable (s.liveLine l) = true →
        ∃ t, exec (.coilHiAssert l) s = .next t ∧ t.pins.coilHi[l] = true
        ∧ (t.ls l) = { s.ls l with causes := { (s.ls l).causes with coilHi := true }, restartTimer := none }
        ∧ (t.sru l) = (s.sru l) ∧ (t.gzu l) = (s.gzu l) ∧ otherLinesKept l s t ∧ t.cu = s.cu ∧ deKept s t
        ∧ t.nu = s.nu ∧ t.mp = s.mp ∧ t.wu = s.wu)
    ∧ ((s.ls l).state = .shutdown → coilHiEnable (s.liveLine l) = false → (s.ls l).causes.coilHi = false →
        ∃ t, exec (.coilHiAssert l) s = .next t ∧ t.pins.coilHi[l] = true
        ∧ (t.ls l) = { s.ls l with restartTimer := (t.ls l).restartTimer }
        ∧ (t.ls l).restartTimer =
            (if restartAuto (s.liveLine l) = true ∧ (s.ls l).lockout = false ∧ (s.ls l).causes.trip = false
                ∧ (s.ls l).causes.software = false
            then some ((s.ls l).restartTimer.getD (restartDelayMs (s.liveLine l))) else none)
        ∧ onlySequencer s t l ∧ otherLinesKept l s t ∧ t.nu = s.nu ∧ t.mp = s.mp ∧ t.wu = s.wu))
  ∧ (∀ (l : LineId) (s : State), awake s → atRest s → s.pins.coilHi[l] = true →
    ∃ t, exec (.coilHiDeassert l) s = .next t ∧ t.pins.coilHi[l] = false
      ∧ ((s.ls l).state = .shutdown →
          (t.ls l) = { s.ls l with causes := { (s.ls l).causes with coilHi := false },
                                   restartTimer := (t.ls l).restartTimer }
          ∧ (t.ls l).restartTimer =
              if restartAuto (s.liveLine l) = true ∧ (s.ls l).lockout = false ∧ (s.ls l).causes.trip = false
                  ∧ (s.ls l).causes.software = false
              then some ((s.ls l).restartTimer.getD (restartDelayMs (s.liveLine l))) else none)
      ∧ ((s.ls l).state ≠ .shutdown → (t.ls l) = (s.ls l))
      ∧ (t.sru l) = (s.sru l) ∧ (t.gzu l) = (s.gzu l) ∧ otherLinesKept l s t ∧ t.cu = s.cu ∧ deKept s t
      ∧ t.nu = s.nu ∧ t.mp = s.mp ∧ t.wu = s.wu)

/-- TRIP_PIN_CHANGE with no debounce in progress or one not yet at its end: back to the debounced level it abandons the
debounce; away from it, it begins one of the live length, or with trip_debounce 0 the level follows at once.
TRIP_DEBOUNCE_COMPLETE: the debounced level becomes the pin's; with TRIP enabled an active level shuts a driven line
down and joins the causes in SHUTDOWN, an inactive one leaves them, and the restart delay timer starts or stops with
its conditions; in OFF, and on a driven line with TRIP disabled or the level inactive, it is only tracked. At the
transfer a zone whose definition changes is CLEAR, with ZONE_CLEAR of reason RECONFIGURED where it was TRIPPED or
RECOVERING (R67). That a debounce at its end completes before the pin moves is the model's choice (log 32), and the
first part leaves that case out. That TRIP_DEBOUNCE_COMPLETE acts before the debounce's end too is the model's choice
(log 3). That the mark of R35 is clear in the windows of an abandoned cycle is the model's choice (log 39). -/
def Obligations.TripIsDebounced : Prop :=
  (∀ (l : LineId) (v : Bool) (s : State), awake s → atRest s → s.pins.trip[l] = !v →
    (∀ d, (s.ls l).debounce = some d → 0 < d.remaining) →
    (v = (s.ls l).tripLevel ∨ tripDebounceMs (s.liveLine l) ≠ 0 →
      ∃ t, exec (.tripPinChange l v) s = .next t ∧ t.pins.trip[l] = v
        ∧ (v = (s.ls l).tripLevel → (t.ls l) = { s.ls l with debounce := none })
        ∧ (v ≠ (s.ls l).tripLevel → (t.ls l) = { s.ls l with
            debounce := some { target := v, remaining := tripDebounceMs (s.liveLine l) } })
        ∧ (t.sru l) = (s.sru l) ∧ (t.gzu l) = (s.gzu l) ∧ otherLinesKept l s t ∧ t.cu = s.cu ∧ deKept s t
        ∧ t.nu = s.nu ∧ t.mp = s.mp ∧ t.wu = s.wu)
    ∧ (v ≠ (s.ls l).tripLevel → tripDebounceMs (s.liveLine l) = 0 →
      ∃ t, exec (.tripPinChange l v) s = .next t ∧ t.pins.trip[l] = v ∧ (t.ls l).tripLevel = v
        ∧ (t.ls l).debounce = none
        ∧ ((s.ls l).state = .off →
            (t.ls l) = { s.ls l with tripLevel := v, debounce := none } ∧ onlySequencer s t l ∧ t.nu = s.nu)
        ∧ ((s.ls l).state.driven = true → tripActsAt s l v → hasShutDown s t l .trip ∧ recordFollows s t l)
        ∧ ((s.ls l).state.driven = true → ¬tripActsAt s l v →
            (t.ls l) = { s.ls l with tripLevel := v, debounce := none } ∧ onlySequencer s t l ∧ t.nu = s.nu)
        ∧ ((s.ls l).state = .shutdown → tripJoins s t l v ∧ onlySequencer s t l ∧ t.nu = s.nu)
        ∧ otherLinesKept l s t ∧ t.mp = s.mp ∧ t.wu = s.wu))
  ∧ (∀ (l : LineId) (s : State) (d : Debounce), awake s → atRest s → (s.ls l).debounce = some d →
    ((s.ls l).state.driven = true → tripActsAt s l d.target →
      ∃ t, exec (.tripDebounceComplete l) s = .next t ∧ hasShutDown s t l .trip ∧ (t.ls l).tripLevel = d.target
        ∧ (t.ls l).debounce = none ∧ recordFollows s t l ∧ otherLinesKept l s t ∧ t.mp = s.mp ∧ t.wu = s.wu)
    ∧ ((s.ls l).state = .shutdown → ∃ t, exec (.tripDebounceComplete l) s = .next t ∧ tripJoins s t l d.target
        ∧ onlySequencer s t l ∧ otherLinesKept l s t ∧ t.nu = s.nu ∧ t.mp = s.mp ∧ t.wu = s.wu)
    ∧ ((s.ls l).state = .off ∨ ((s.ls l).state.driven = true ∧ ¬tripActsAt s l d.target) →
      ∃ t, exec (.tripDebounceComplete l) s = .next t
        ∧ (t.ls l) = { s.ls l with tripLevel := d.target, debounce := none }
        ∧ onlySequencer s t l ∧ otherLinesKept l s t ∧ t.nu = s.nu ∧ t.mp = s.mp ∧ t.wu = s.wu))

/-- RESTART_DELAY_EXPIRY: the line enters PRIMING, LINE_RESTARTED is raised, attempts and recorded cause are kept. When
a source holds at the entry, it shuts the line down at once (after the whole start, either first where both hold: the
model's reading, log 9 and 17). At the transfer a zone whose definition changes is CLEAR, with ZONE_CLEAR of reason
RECONFIGURED where it was TRIPPED or RECOVERING (R67). The row may come before the delay's end (log 3). That the mark
of R35 is clear in the windows of an abandoned cycle is the model's choice (log 39). -/
def Obligations.RestartDelayExpiryPrimes : Prop :=
  (∀ (l : LineId) (s : State), awake s → atRest s → (s.ls l).state = .shutdown → (s.ls l).restartTimer.isSome = true →
    quietLine s l →
    ∃ t, exec (.restartDelayExpiry l) s = .next t ∧ hasPrimed s t l ∧ (t.ls l).attempts = (s.ls l).attempts
      ∧ (t.ls l).recorded = (s.ls l).recorded ∧ raisedIn s t .lineRestarted (.line l) 0 ∧ recordFollows s t l
      ∧ deKeptButStatus s t ∧ otherLinesKept l s t ∧ t.mp = s.mp ∧ t.wu = s.wu)
  ∧ (∀ (l : LineId) (s : State), awake s → atRest s → (s.ls l).state = .shutdown → (s.ls l).restartTimer.isSome = true →
    ¬quietLine s l →
    ∃ t, exec (.restartDelayExpiry l) s = .next t ∧ shutAtPriming (s.ls l) s t l
      ∧ raisedIn s t .lineRestarted (.line l) 0 ∧ recordFollows s t l ∧ deKeptButStatus s t
      ∧ otherLinesKept l s t ∧ t.mp = s.mp ∧ t.wu = s.wu)

/-- R30, R31 and R37 at FRAME_ARRIVAL. A good frame is exactly 168 bits whose sequence lies in 0 to 15 and whose check
byte is the CRC-8 of bytes 0 to 19, and it carries that sequence, six samples and six overrange marks; other bits are
no good frame. A frame that ends in WAIT_IDLE only brings the receiver to IDLE. A frame that is not good is counted,
and of the SRU nothing but the receiver changes besides. At a good frame the expectation follows, with the frames
missing before it counted and FRAME_GAP raised for them; in an open window that accumulates, the seen count of each
band advances and its sample is judged against the band's own accumulators, and the accumulators of the other half
stay; where no window accumulates, no accumulator changes. Nothing else of the SRU changes. -/
def Obligations.FrameArrivalIsJudged : Prop :=
  (∀ (bits : List Bool) (count : Nat), count ≠ 168 → goodFrame bits count = none)
  ∧ (∀ (bits : List Bool) (f : Frame), bits.length = 168 → (goodFrame bits 168 = some f ↔ isGoodFrame bits f))
  ∧ (∀ (l : LineId) (bits : List Bool) (s : State), awake s → atRest s →
    ((s.sru l).rx = .waitIdle → ∃ t, exec (.frameArrival l bits) s = .next t
      ∧ (t.sru l) = { s.sru l with rx := .idle, rxBits := [], rxCount := 0 } ∧ (t.ls l) = (s.ls l)
      ∧ (t.gzu l) = (s.gzu l) ∧ otherLinesKept l s t ∧ t.cu = s.cu ∧ deKept s t ∧ t.nu = s.nu ∧ t.mp = s.mp
      ∧ t.wu = s.wu)
    ∧ ((s.sru l).rx ≠ .waitIdle → goodFrame (frameBits (s.sru l) bits).1 (frameBits (s.sru l) bits).2 = none →
      ∃ t, exec (.frameArrival l bits) s = .next t
        ∧ (t.sru l) = { s.sru l with
            rx := .idle, rxBits := [], rxCount := 0, frameErrors := satInc (s.sru l).frameErrors }
        ∧ isDirty t (linePage l) ∧ (t.ls l) = (s.ls l) ∧ (t.gzu l) = (s.gzu l) ∧ otherLinesKept l s t
        ∧ t.cu = s.cu ∧ deKept s t ∧ t.nu = s.nu ∧ t.mp = s.mp ∧ t.wu = s.wu))
  ∧ (∀ (l : LineId) (bits : List Bool) (s : State) (f : Frame), awake s → atRest s → (s.sru l).rx ≠ .waitIdle →
    goodFrame (frameBits (s.sru l) bits).1 (frameBits (s.sru l) bits).2 = some f →
    (∀ c : CycleParams, accumulates s l → (s.sru l).params = some c →
      ∃ t, exec (.frameArrival l bits) s = .next t ∧ gapsCounted s t l f.seq
        ∧ (t.sru l) = { s.sru l with
            rx := .idle, rxBits := [], rxCount := 0, expect := some f.seq, silence := some 0, episode := false
            frameGaps := (t.sru l).frameGaps, accP := (t.sru l).accP, accN := (t.sru l).accN }
        ∧ ((s.ls l).phase = some .pWindow → (t.sru l).accN = (s.sru l).accN)
        ∧ ((s.ls l).phase = some .nWindow → (t.sru l).accP = (s.sru l).accP)
        ∧ (openWindow s t l).muted = false
        ∧ (∀ k : Fin 6,
            let a := (openWindow s s l).bands[k]
            let b := (openWindow s t l).bands[k]
            let x := f.samples[k]
            let far := ((c.spikeLimit * a.accepted : Nat) : Int) < ((x * a.accepted - a.sum).natAbs : Int)
            b.seen = a.seen + 1
            ∧ ((f.overrange[k] = true ∨ (8 ≤ a.accepted ∧ far)) →
                b.rejected = a.rejected + 1 ∧ b.accepted = a.accepted ∧ b.sum = a.sum)
            ∧ ((f.overrange[k] = false ∧ (a.accepted < 8 ∨ ¬far)) →
                b.rejected = a.rejected ∧ b.accepted = a.accepted + 1 ∧ b.sum = a.sum + x))
        ∧ (t.ls l) = (s.ls l) ∧ (t.gzu l) = (s.gzu l) ∧ otherLinesKept l s t ∧ t.cu = s.cu ∧ deKept s t
        ∧ t.mp = s.mp ∧ t.wu = s.wu)
    ∧ (¬accumulates s l →
      ∃ t, exec (.frameArrival l bits) s = .next t ∧ gapsCounted s t l f.seq
        ∧ (t.sru l) = { s.sru l with
            rx := .idle, rxBits := [], rxCount := 0, expect := some f.seq, silence := (t.sru l).silence
            episode := (t.sru l).episode, frameGaps := (t.sru l).frameGaps }
        ∧ ((s.ls l).state.driven = true → (t.sru l).silence = some 0 ∧ (t.sru l).episode = false)
        ∧ ((s.ls l).state.driven = false →
            (t.sru l).silence = (s.sru l).silence ∧ (t.sru l).episode = (s.sru l).episode)
        ∧ (t.ls l) = (s.ls l) ∧ (t.gzu l) = (s.gzu l) ∧ otherLinesKept l s t ∧ t.cu = s.cu ∧ deKept s t
        ∧ t.mp = s.mp ∧ t.wu = s.wu))

/-- SILENCE_TIMER_EXPIRY begins a silence episode with SAMPLE_LOSS, also before the timer's end (the model's choice,
log 3); LINK_WAIT_IDLE_EXIT brings the receiver to IDLE. -/
def Obligations.SilenceAndLinkEvents : Prop :=
  (∀ (l : LineId) (s : State), awake s → atRest s → (s.sru l).silence.isSome = true → (s.sru l).episode = false →
    ∃ t, exec (.silenceTimerExpiry l) s = .next t
      ∧ (t.sru l) = { s.sru l with silence := none, episode := true, silences := satInc (s.sru l).silences }
      ∧ isDirty t (linePage l) ∧ raisedIn s t .sampleLoss (.line l) 0 ∧ (t.ls l) = (s.ls l)
      ∧ (t.gzu l) = (s.gzu l) ∧ otherLinesKept l s t ∧ t.cu = s.cu ∧ deKept s t ∧ t.mp = s.mp ∧ t.wu = s.wu)
  ∧ (∀ (l : LineId) (s : State), awake s → atRest s → (s.sru l).rx = .waitIdle →
    ∃ t, exec (.linkWaitIdleExit l) s = .next t
      ∧ (t.sru l) = { s.sru l with rx := .idle, rxBits := [], rxCount := 0 } ∧ (t.ls l) = (s.ls l)
      ∧ (t.gzu l) = (s.gzu l) ∧ otherLinesKept l s t ∧ t.cu = s.cu ∧ deKept s t ∧ t.nu = s.nu ∧ t.mp = s.mp
      ∧ t.wu = s.wu)

/-- WINDOW_EXPIRY: the window is EXPIRED with its timer stopped; with action UNATTENDED and its enable set the part is
then UNATTENDED, with UNATTENDED raised for the window when it was ATTENDED before, and every line's attendance copy
follows; without a change no attendance notice is raised. That the row acts before the timer's end too is the model's
choice (log 3). -/
def Obligations.WindowExpiryActs : Prop :=
  ∀ (w : WindowId) (s : State), awake s → atRest s → (s.window w).timer.isSome = true → lalmLaw s →
    ∃ t, exec (.windowExpiry w) s = .next t
      ∧ (t.window w) = { s.window w with state := .expired, timer := none }
      ∧ (∀ v : WindowId, v ≠ w → (t.window v) = (s.window v))
      ∧ ((s.windowDef w).enable = true → (s.windowDef w).unattendedAction = true →
          t.wu.attendance = .unattended ∧ (∀ l : LineId, (t.gzu l).attCopy = .unattended)
          ∧ (s.wu.attendance = .attended → raisedIn s t .unattended .part (BitVec.ofNat 16 w.val)))
      ∧ attendanceFollows s t
      ∧ raisedIn s t .windowExpired .part (BitVec.ofNat 16 w.val)
      ∧ (∀ l : LineId, (t.ls l) = (s.ls l) ∧ (t.sru l) = (s.sru l)) ∧ t.cu = s.cu ∧ t.mp = s.mp
      ∧ deKept s t ∧ t.wu = { s.wu with windows := t.wu.windows, attendance := t.wu.attendance }

/-! ## Host accesses -/

/-- HOST_REQUEST_TAKEN of a write that an owned field by Table 7-1 or a region of an armed ring, the freeze over the
calibration block, or a guard window suppresses: it is completed upstream with OK at once, is forwarded to nobody and
captured by nobody; each cause is counted with GUARD_HIT, the owned field or freeze first and the windows in order, so
that the detail recorded last is the highest window's. Each window that the request matches becomes active with its
timer reloaded, an EXPIRED one WATCHING, and ATTENDED is raised where the part is so again. A claim that stands on a
FREE port came first and is granted first, but for a port that stands for this request (log 38). -/
def Obligations.SuppressedWriteCompletes : Prop :=
  ∀ (addr : Addr) (be : BitVec 4) (data : Word) (s : State), awake s → noArmingDue s → s.mp.request = none →
    s.mp.inReset = false → suppressed s addr →
    ∃ b t t', exec (.hostRequestTaken addr true be data) s = .next t' ∧ claimedFirst s b ∧ settled t t'
      ∧ t.mp = { b.mp with completion := some { err := false, data := none } } ∧ t.cu = s.cu
      ∧ suppressionReported s b t addr
      ∧ windowsMatched b t addr true ∧ attendanceFollows b t ∧ attendedAgain b t
      ∧ deKept b t ∧ ∀ l : LineId, (t.ls l) = (s.ls l) ∧ (t.sru l) = (s.sru l)

/-- HOST_REQUEST_TAKEN of a request that is not suppressed, by the classes of Table 7-1: a write takes its capture
target and is WAITING, a read of a fresh word is REFRESHING and asks for its refresh, another read is HELD when the
hold test covers its word, else WAITING. A claim that stands on a FREE port came first and is granted first, so the
hold test sees what it began; on a port that stands for this request, presented with the completion of the one before,
it contests the claim by the table of R130 (spec/06, section 6.11; log 38). A port still FREE is then granted. A
window the request matches becomes active with its timer reloaded, an EXPIRED one WATCHING, and ATTENDED is raised where
the part is so again. Several refreshes asked for stand in a list, oldest
first (log 8). -/
def Obligations.HostRequestTakesItsPath : Prop :=
  ∀ (addr : Addr) (write : Bool) (be : BitVec 4) (data : Word) (s : State), awake s → noArmingDue s → s.mp.request = none →
    s.mp.inReset = false → (write = true → ¬suppressed s addr) →
    ∃ b t t' r, exec (.hostRequestTaken addr write be data) s = .next t' ∧ claimedFirst s b ∧ settled t t'
      ∧ t.mp = { b.mp with request := some r, completion := none }
      ∧ r.access = { addr := addr, write := write, be := be, data := data } ∧ r.refreshed = none
      ∧ (write = true → r.stage = .waiting ∧ r.fresh = none
          ∧ (∀ x, capturedAs s addr x → r.target = x)
          ∧ ((∀ x, ¬capturedAs s addr x) → r.target = .none))
      ∧ (write = false → r.target = .none
          ∧ (∀ f, freshAt s addr f → r.stage = .refreshing ∧ r.fresh = some f
              ∧ (f ∈ b.de.fresh → t.de.fresh = b.de.fresh) ∧ (f ∉ b.de.fresh → t.de.fresh = b.de.fresh ++ [f]))
          ∧ ((∀ f, ¬freshAt s addr f) → r.fresh = none
              ∧ (covered b addr → r.stage = .held) ∧ (¬covered b addr → r.stage = .waiting)))
      ∧ ((write = true ∨ ∀ f, ¬freshAt s addr f) → t.de.fresh = b.de.fresh)
      ∧ deKept { b with de := { b.de with fresh := t.de.fresh } } t
      ∧ windowsMatched b t addr write ∧ (∀ w : WindowId, (t.window w).guardHits = (s.window w).guardHits)
      ∧ attendanceFollows b t ∧ attendedAgain b t
      ∧ (t.wu.attendance = b.wu.attendance → t.nu = b.nu) ∧ t.wu.ownedHits = s.wu.ownedHits
      ∧ t.cu = s.cu ∧ ∀ l : LineId, (t.ls l) = (s.ls l) ∧ (t.sru l) = (s.sru l)

/-- HOST_FORWARDED_COMPLETION of a read, of a write that no block captures (a partial write of an Rd word among them),
and of any access that memory ends with ERR: the completion goes upstream as memory gave it, nothing is captured, and
unless a fresh read of the activity summary word ends with OK nothing else of the part changes before the port, FREE,
is granted by the table of R130 in the same action. Only where the command that waits next is the host's next request,
presented with the completion, does the port stand for the contest that its taking decides (statement
HostRequestTakesItsPath; spec/06, section 6.11; log 38). DISCARDED_ACCESS_COMPLETION: the answer goes to nobody, and
the FREE port is granted by that table. An access that a block takes when it ends with OK has a row of its own, and
HOST_FORWARDED_COMPLETION of it is that row (the model's reading, log 5). -/
def Obligations.HostCompletionPassesUpstream : Prop :=
  (∀ (err : Bool) (data : Word) (s : State) (a : Access) (r : Request), awake s → atRest s → s.mp.port = .host true a →
    s.mp.request = some r → r.stage = .onPort → (err = true ∨ (r.access.write = false ∧ r.refreshed = none)
      ∨ (r.access.write = true ∧ (r.target = .none ∨ ∃ q, r.target = .readIndex q ∧ r.access.be ≠ 0xF#4))) →
    ∃ t t', exec (.hostForwardedCompletion err data) s = .next t' ∧ handsOn t t'
      ∧ t.mp = { s.mp with
          request := none, port := .free
          completion := some { err := err, data := if r.access.write = true then none else some data } }
      ∧ t.lines = s.lines ∧ t.cu = s.cu ∧ deKept s t ∧ t.nu = s.nu ∧ t.wu = s.wu ∧ outsideKept s t)
  ∧ (∀ (err : Bool) (data : Word) (s : State) (a : Access), awake s → atRest s → s.mp.port = .host false a →
    ∃ t t', exec (.discardedAccessCompletion err data) s = .next t' ∧ arbitrated t t'
      ∧ t.mp = { s.mp with port := .free }
      ∧ t.lines = s.lines ∧ t.cu = s.cu ∧ deKept s t ∧ t.nu = s.nu ∧ t.wu = s.wu ∧ outsideKept s t)
  ∧ (∀ (off : Half) (be : BitVec 4) (data x : Word) (s : State) (r : Request) (sec : SectionId),
    atRest s → s.mp.request = some r → s.areaOffset r.access.addr = some off.toNat →
    s.writeOnPort (.captured sec) be data = true →
    exec (.hostForwardedCompletion false x) s = exec (.capturedWrite off be data) s)
  ∧ (∀ (q : RingId) (data x : Word) (s : State), atRest s → s.writeOnPort (.readIndex q) 0xF#4 data = true →
    exec (.hostForwardedCompletion false x) s = exec (.rdCapture q data) s)
  ∧ (∀ (data : Word) (s : State), atRest s → s.activityOnPort = true →
    exec (.hostForwardedCompletion false data) s = exec (.activitySummaryRead data) s)
  ∧ (∀ (tag code operand : Byte) (x : Word) (s : State), atRest s → s.commandOnPort tag code operand = true →
    exec (.hostForwardedCompletion false x) s = exec (commandRow tag code operand) s)
  ∧ (∀ (be : BitVec 4) (data x : Word) (s : State), atRest s → be ≠ 0xF#4 → s.writeOnPort .commandSlot be data = true →
    exec (.hostForwardedCompletion false x) s = exec (.partialCommandWrite be data) s)

/-- CAPTURED_WRITE: each byte whose enable is asserted replaces the staged byte at its place, every other byte of
every staged copy stays, no live or pending copy changes, and the request is completed upstream with OK. The same
bytes of the buffer of a load in progress are replaced where the buffer holds the word, whether it has been read yet
or not. -/
def Obligations.CapturedWriteMerges : Prop :=
  ∀ (off : Half) (be : BitVec 4) (data : Word) (s : State) (r : Request) (sec : SectionId), awake s → atRest s →
    s.mp.request = some r → s.areaOffset r.access.addr = some off.toNat → off.toNat % 4 = 0 →
    s.writeOnPort (.captured sec) be data = true → sectionOffset sec ≤ off.toNat → off.toNat < sectionOffset sec + 256 →
    ∃ t t', exec (.capturedWrite off be data) s = .next t' ∧ handsOn t t'
      ∧ (∀ i : Fin 256, (stagedOf t sec)[i] =
          if off.toNat - sectionOffset sec ≤ i.val ∧ i.val < off.toNat - sectionOffset sec + 4
              ∧ be.getLsbD (i.val - (off.toNat - sectionOffset sec)) = true
          then wordByte data (i.val - (off.toNat - sectionOffset sec)) else (stagedOf s sec)[i])
      ∧ (∀ q : SectionId, q ≠ sec → stagedOf t q = stagedOf s q)
      ∧ (∀ l : LineId, (t.copies l) = { s.copies l with
          stagedLine := (t.copies l).stagedLine, stagedCal := (t.copies l).stagedCal })
      ∧ t.cu = { s.cu with lines := t.cu.lines, stagedWindows := t.cu.stagedWindows,
                           stagedDelivery := t.cu.stagedDelivery, load := t.cu.load }
      ∧ (s.cu.load = none → t.cu.load = none)
      ∧ (∀ x, s.cu.load = some x → ∃ y, t.cu.load = some y ∧ y = { x with buffer := y.buffer }
          ∧ y.buffer.length = x.buffer.length
          ∧ ∀ i, i < x.buffer.length → y.buffer[i]? =
              if off.toNat ≤ x.start + i ∧ x.start + i < off.toNat + 4 ∧ x.start ≤ off.toNat
                  ∧ be.getLsbD (x.start + i - off.toNat) = true
              then some (wordByte data (x.start + i - off.toNat)) else x.buffer[i]?)
      ∧ t.mp = { s.mp with request := none, port := .free, completion := some { err := false, data := none } }
      ∧ t.lines = s.lines ∧ deKept s t ∧ t.nu = s.nu ∧ t.wu = s.wu ∧ outsideKept s t

/-- RD_CAPTURE: on an armed ring the new read index is accepted when it passes over no more than the fill, and for the
notice ring its levels leave the outstanding list; otherwise it is refused with RING_INDEX; on an unarmed ring nothing
happens. -/
def Obligations.RdCaptureIsChecked : Prop :=
  ∀ (q : RingId) (data : Word) (s : State), awake s → atRest s → s.writeOnPort (.readIndex q) 0xF#4 data = true →
    ∃ t t', exec (.rdCapture q data) s = .next t' ∧ handsOn t t'
      ∧ t.mp = { s.mp with request := none, port := .free, completion := some { err := false, data := none } }
      ∧ ((s.ring q).armed = true →
          (data.setWidth 16 - (s.ring q).rd).toNat ≤ ((s.ring q).w - (s.ring q).rd).toNat →
          (t.ring q) = { s.ring q with rd := data.setWidth 16 } ∧ isDirty t partPage
          ∧ t.nu.outstanding = (if q = noticeRing then
              s.nu.outstanding.drop (data.setWidth 16 - (s.ring q).rd).toNat else s.nu.outstanding))
      ∧ ((s.ring q).armed = true →
          ((s.ring q).w - (s.ring q).rd).toNat < (data.setWidth 16 - (s.ring q).rd).toNat →
          (t.ring q) = (s.ring q)
          ∧ raisedIn s t .ringIndex (ringSource q) (BitVec.ofNat 16 q.val))
      ∧ ((s.ring q).armed = false → (t.ring q) = (s.ring q) ∧ t.nu = s.nu)
      ∧ (∀ r : RingId, r ≠ q → (t.ring r) = (s.ring r))
      ∧ deKept { s with de := { s.de with rings := t.de.rings } } t
      ∧ t.lines = s.lines ∧ t.cu = s.cu ∧ t.wu = s.wu ∧ outsideKept s t

/-- ACTIVITY_SUMMARY_READ after a refresh that completed OK: a flag the value reported is cleared unless its window
was matched since, and every other flag stays; after a refresh that ended with ERR every flag stays. -/
def Obligations.ActivityReadClearsFlags : Prop :=
  ∀ (data : Word) (s : State) (r : Request), awake s → atRest s → s.activityOnPort = true → s.mp.request = some r →
    ∃ t t', exec (.activitySummaryRead data) s = .next t' ∧ handsOn t t'
      ∧ t.mp = { s.mp with request := none, port := .free, completion := some { err := false, data := some data } }
      ∧ (∀ v : Byte, r.refreshed = some v → ∀ w : WindowId, (t.window w) = { s.window w with
          active := (s.window w).active && !(v.getLsbD w.val && !(s.window w).matched) })
      ∧ (r.refreshed = none → t.wu.windows = s.wu.windows)
      ∧ t.wu = { s.wu with windows := t.wu.windows } ∧ t.lines = s.lines ∧ t.cu = s.cu ∧ deKept s t ∧ t.nu = s.nu
      ∧ outsideKept s t

/-! ## Commands of the command slot -/

/-- A full-word command taken in INIT or LOADING is answered REFUSED_BUSY with the CU state code; in IDLE, one with a
code outside Table 8-1 is answered REFUSED_UNKNOWN with the code, one whose operand is out of range REFUSED_RANGE, one
that touches a calibration while the freeze is set REFUSED_FROZEN; a partial write is answered REFUSED_UNKNOWN with
detail 0x0100. Nothing but the record changes, which then has no owner. -/
def Obligations.RefusedCommandChangesRecordOnly : Prop :=
  (∀ (tag code operand : Byte) (s : State), awake s → atRest s → s.commandOnPort tag code operand = true →
      s.cu.state ≠ .idle →
    ∃ t t', exec (commandRow tag code operand) s = .next t' ∧ handsOn t t'
      ∧ answers s t tag code .refusedBusy (BitVec.ofNat 16 s.cu.state.code) .none ∧ onlyAnswered s t)
  ∧ (∀ (tag code operand : Byte) (s : State), commandReady s tag code operand →
      (code.toNat = 0 ∨ 11 < code.toNat) →
    ∃ t t', exec (commandRow tag code operand) s = .next t' ∧ handsOn t t'
      ∧ answers s t tag code .refusedUnknown (BitVec.ofNat 16 code.toNat) .none ∧ onlyAnswered s t)
  ∧ (∀ (tag code operand : Byte) (s : State), commandReady s tag code operand → operandRefused code operand →
    ∃ t t', exec (commandRow tag code operand) s = .next t' ∧ handsOn t t' ∧ answers s t tag code .refusedRange 0 .none
      ∧ onlyAnswered s t)
  ∧ (∀ (tag code operand : Byte) (s : State), commandReady s tag code operand → s.cu.frozen = true →
      ((code.toNat = 2 ∨ code.toNat = 10) ∧ operand.toNat ≤ 3
        ∨ code.toNat = 5 ∧ 4 ≤ operand.toNat ∧ operand.toNat ≤ 7) →
    ∃ t t', exec (commandRow tag code operand) s = .next t' ∧ handsOn t t' ∧ answers s t tag code .refusedFrozen 0 .none
      ∧ onlyAnswered s t)
  ∧ (∀ (be : BitVec 4) (data : Word) (s : State), awake s → atRest s → be ≠ 0xF#4 →
      s.writeOnPort .commandSlot be data = true →
    ∃ t t', exec (.partialCommandWrite be data) s = .next t' ∧ handsOn t t'
      ∧ answers s t (if be.getLsbD 0 = true then wordByte data 0 else 0)
          (if be.getLsbD 1 = true then wordByte data 1 else 0) .refusedUnknown 0x0100 .none ∧ onlyAnswered s t)

/-- COMMIT_LINE of a line 0 to 3: a staged section that fails validation is refused with the lowest failing field code;
else for a line in OFF or SHUTDOWN the staged section is live at once with CONFIG_APPLIED, a zone whose definition
changes CLEAR, with ZONE_CLEAR of reason RECONFIGURED where it was TRIPPED or RECOVERING, in SHUTDOWN with the causes
present and the restart delay following it and, when the shutdown state changes, the switches of a CLAMPED bridge off
for a new hold; and for a driven line it becomes the pending section, which then owns the last-command record. That the
detail of ACCEPTED and PENDING is 0, which no rule states, is the model's choice (log 41, DESIGN CHOICE). -/
def Obligations.CommitLineMovesSection : Prop :=
  ∀ (tag operand : Byte) (l : LineId) (s : State), commandReady s tag 1 operand → operand.toNat = l.val →
    (∀ off, firstFailure (lineTests (s.copies l).stagedLine) = some off →
      ∃ t t', exec (.commitLine tag operand) s = .next t' ∧ handsOn t t'
        ∧ answers s t tag 1 .refusedRange (BitVec.ofNat 16 (0x0100 + off)) .none ∧ onlyAnswered s t)
    ∧ (firstFailure (lineTests (s.copies l).stagedLine) = none → (s.ls l).state.driven = false →
      ∃ t t', exec (.commitLine tag operand) s = .next t' ∧ handsOn t t' ∧ answers s t tag 1 .accepted 0 .none
        ∧ (t.copies l) = { s.copies l with
            liveLine := (s.copies l).stagedLine, pendingLine := none, lineTag := tag }
        ∧ (∀ k : LineId, k ≠ l → (t.copies k) = (s.copies k))
        ∧ zonesFollow s t l
        ∧ raisedIn s t .configApplied (.line l) (tag.setWidth 16)
        ∧ ((s.ls l).state = .off → (t.ls l) = (s.ls l))
        ∧ ((s.ls l).state = .shutdown →
          (t.ls l) = { s.ls l with
            causes := (t.ls l).causes, stage := (t.ls l).stage, holdTicks := (t.ls l).holdTicks
            bridge := (t.ls l).bridge, restartTimer := (t.ls l).restartTimer }
          ∧ (t.ls l).causes = { (s.ls l).causes with
              coilHi := coilHiEnable (s.copies l).stagedLine && s.pins.coilHi[l]
              trip := tripEnable (s.copies l).stagedLine
                && (s.ls l).tripLevel == tripActiveHigh (s.copies l).stagedLine }
          ∧ (t.ls l).restartTimer = (if restartAuto (s.copies l).stagedLine = true ∧ (s.ls l).lockout = false
                ∧ (t.ls l).causes = { coilHi := false, trip := false, software := false }
              then some ((s.ls l).restartTimer.getD (restartDelayMs (s.copies l).stagedLine)) else none)
          ∧ (shutdownStateCode (s.liveLine l) ≠ shutdownStateCode (s.copies l).stagedLine →
              (s.ls l).stage = .clamped → (t.ls l).stage = .allOffHold ∧ (t.ls l).holdTicks = 0
                ∧ (t.ls l).bridge = { lu := .off, ll := .off, ru := .off, rl := .off })
          ∧ (shutdownStateCode (s.liveLine l) = shutdownStateCode (s.copies l).stagedLine
                ∨ (s.ls l).stage = .allOffHold →
              (t.ls l).stage = (s.ls l).stage ∧ (t.ls l).holdTicks = (s.ls l).holdTicks
                ∧ (t.ls l).bridge = (s.ls l).bridge))
        ∧ (t.sru l) = (s.sru l) ∧ otherLinesKept l s t ∧ deKeptButStatus s t ∧ t.wu = s.wu)
    ∧ (firstFailure (lineTests (s.copies l).stagedLine) = none → (s.ls l).state.driven = true →
      ∃ t t', exec (.commitLine tag operand) s = .next t' ∧ handsOn t t' ∧ answers s t tag 1 .pending 0 (.pendingLine l)
        ∧ (t.copies l) = { s.copies l with
            pendingLine := some { bytes := (s.copies l).stagedLine, tag := tag, taken := s.cu.record.taken + 1 } }
        ∧ (∀ k : LineId, k ≠ l → (t.copies k) = (s.copies k))
        ∧ t.lines = s.lines ∧ deKeptButStatus s t ∧ t.nu = s.nu ∧ t.wu = s.wu)

/-- COMMIT_CAL of a line 0 to 3: a staged calibration that fails validation is refused with the lowest failing field
code; else it is live at once for a line in OFF or SHUTDOWN and for a driven line pending, the owner of the
last-command record. That the detail of ACCEPTED and PENDING is 0, which no rule states, is the model's choice (log 41,
DESIGN CHOICE). -/
def Obligations.CommitCalMovesCalibration : Prop :=
  ∀ (tag operand : Byte) (l : LineId) (s : State), commandReady s tag 2 operand → operand.toNat = l.val →
    (∀ off, s.cu.frozen = false → firstFailure (calTests (s.copies l).stagedCal) = some off →
      ∃ t t', exec (.commitCal tag operand) s = .next t' ∧ handsOn t t'
        ∧ answers s t tag 2 .refusedRange (BitVec.ofNat 16 (0x0100 + off)) .none ∧ onlyAnswered s t)
    ∧ (s.cu.frozen = false → firstFailure (calTests (s.copies l).stagedCal) = none →
      ((s.ls l).state = .off ∨ (s.ls l).state = .shutdown) →
      ∃ t t', exec (.commitCal tag operand) s = .next t' ∧ handsOn t t' ∧ answers s t tag 2 .accepted 0 .none
        ∧ (t.copies l) = { s.copies l with liveCal := (s.copies l).stagedCal, pendingCal := none, calTag := tag }
        ∧ (∀ k : LineId, k ≠ l → (t.copies k) = (s.copies k))
        ∧ raisedIn s t .configApplied (.line l) (tag.setWidth 16)
        ∧ t.lines = s.lines ∧ deKeptButStatus s t ∧ t.wu = s.wu)
    ∧ (s.cu.frozen = false → firstFailure (calTests (s.copies l).stagedCal) = none → (s.ls l).state.driven = true →
      ∃ t t', exec (.commitCal tag operand) s = .next t' ∧ handsOn t t' ∧ answers s t tag 2 .pending 0 (.pendingCal l)
        ∧ (t.copies l) = { s.copies l with
            pendingCal := some { bytes := (s.copies l).stagedCal, tag := tag, taken := s.cu.record.taken + 1 } }
        ∧ (∀ k : LineId, k ≠ l → (t.copies k) = (s.copies k))
        ∧ t.lines = s.lines ∧ deKeptButStatus s t ∧ t.nu = s.nu ∧ t.wu = s.wu)

/-- COMMIT_WINDOWS of a section that fails validation is refused; else the staged window section is live with
CONFIG_APPLIED, every enabled window WATCHING with its timer reloaded, every disabled one IDLE, flag and guard count
kept where the definition is unchanged; the part is ATTENDED, with ATTENDED raised for the lowest window that held it
UNATTENDED before. That the detail of ACCEPTED is 0, which no rule states, is the model's choice (log 41, DESIGN
CHOICE). -/
def Obligations.CommitWindowsAppliesSection : Prop :=
  (∀ (tag operand : Byte) (s : State) (off : Nat), commandReady s tag 3 operand →
    firstFailure (windowsTests s.cu.stagedWindows) = some off →
    ∃ t t', exec (.commitWindows tag operand) s = .next t' ∧ handsOn t t'
      ∧ answers s t tag 3 .refusedRange (BitVec.ofNat 16 (0x0100 + off)) .none ∧ onlyAnswered s t)
  ∧ (∀ (tag operand : Byte) (s : State), commandReady s tag 3 operand →
    firstFailure (windowsTests s.cu.stagedWindows) = none →
    ∃ t t', exec (.commitWindows tag operand) s = .next t' ∧ handsOn t t' ∧ answers s t tag 3 .accepted 0 .none
      ∧ t.cu.liveWindows = s.cu.stagedWindows ∧ t.cu.windowTag = tag ∧ t.cu.lines = s.cu.lines
      ∧ raisedIn s t .configApplied .part (tag.setWidth 16)
      ∧ (∀ w : WindowId,
          let new := Machine.windowDef s.cu.stagedWindows w.val
          let old := Machine.windowDef s.cu.liveWindows w.val
          (new.enable = true → (t.window w).state = .watching
            ∧ (t.window w).timer = if new.timeoutMs = 0 then none else some new.timeoutMs)
          ∧ (new.enable = false → (t.window w).state = .idle ∧ (t.window w).timer = none
            ∧ (t.window w).active = false)
          ∧ (new = old → (t.window w).guardHits = (s.window w).guardHits
            ∧ (new.enable = true → (t.window w).active = (s.window w).active))
          ∧ (new ≠ old → (t.window w).guardHits = 0 ∧ (t.window w).active = false))
      ∧ t.wu.attendance = .attended ∧ attendanceFollows s t ∧ attendedAgain s t
      ∧ (∀ l : LineId, (t.ls l) = (s.ls l) ∧ (t.sru l) = (s.sru l))
      ∧ deKeptButStatus s t ∧ t.wu.ownedHits = s.wu.ownedHits)

/-- COMMIT_DELIVERY of a section that fails validation is refused; else the staged section is handed over as the arming
request, in place of one that waits, and owns the last-command record; no ring and no live copy changes yet. That this
holds with no record or page in flight too, the arming then taking effect at once after the action, in a step of its
own (ARMING_TAKES_EFFECT) or at the head of the next command, before that command acts (statement
EveryCommandAnswersNext), is the model's reading of R79 and R156 (log 7, DEDUCED). That the detail of ACCEPTED is 0,
which no rule states, is the model's choice (log 41, DESIGN CHOICE). -/
def Obligations.CommitDeliveryHandsOver : Prop :=
  (∀ (tag operand : Byte) (s : State) (off : Nat), commandReady s tag 4 operand →
    firstFailure (deliveryTests s.cu.stagedDelivery) = some off →
    ∃ t t', exec (.commitDelivery tag operand) s = .next t' ∧ handsOn t t'
      ∧ answers s t tag 4 .refusedRange (BitVec.ofNat 16 (0x0100 + off)) .none ∧ onlyAnswered s t)
  ∧ (∀ (tag operand : Byte) (s : State), commandReady s tag 4 operand →
    firstFailure (deliveryTests s.cu.stagedDelivery) = none →
    ∃ t t', exec (.commitDelivery tag operand) s = .next t' ∧ handsOn t t' ∧ answers s t tag 4 .accepted 0 .arming
      ∧ t.de.arming = some { bytes := s.cu.stagedDelivery, tag := tag, taken := s.cu.record.taken + 1 }
      ∧ t.de.rings = s.de.rings ∧ t.cu.liveDelivery = s.cu.liveDelivery
      ∧ cuKeptButRecord s t ∧ t.lines = s.lines ∧ t.nu = s.nu ∧ t.wu = s.wu)

/-- LOAD of a section code 0 to 10, not of a calibration while the freeze is set: the CU is LOADING, the load owns the
last-command record, the words of the section are to be read in ascending order, and the load buffer holds the bytes of
the staged copies it covers, each section at its place from the first offset of the list. That the detail of ACCEPTED
is 0, which no rule states, is the model's choice (log 41, DESIGN CHOICE). -/
def Obligations.LoadStartsReading : Prop :=
  ∀ (tag operand : Byte) (s : State), commandReady s tag 5 operand → operand.toNat ≤ 10 →
    ¬(s.cu.frozen = true ∧ 4 ≤ operand.toNat ∧ operand.toNat ≤ 7) →
    ∃ t t' x, exec (.load tag operand) s = .next t' ∧ handsOn t t' ∧ answers s t tag 5 .accepted 0 .load
      ∧ t.cu.state = .loading ∧ t.cu.load = some x ∧ x.code = operand.toNat
      ∧ x.left.length = (if operand.toNat ≤ 9 then 64 else if s.cu.frozen = true then 384 else 640)
      ∧ (∀ i, i < x.left.length → x.left[i]? = some
          ((if operand.toNat ≤ 3 then 0x0400 + 256 * operand.toNat
            else if operand.toNat ≤ 7 then 0x0800 + 256 * (operand.toNat - 4)
            else if operand.toNat = 8 then 0x0300 else 0x0200) + 4 * i))
      ∧ x.start = (if operand.toNat ≤ 3 then 0x0400 + 256 * operand.toNat
            else if operand.toNat ≤ 7 then 0x0800 + 256 * (operand.toNat - 4)
            else if operand.toNat = 8 then 0x0300 else 0x0200)
      ∧ x.buffer.length = 4 * x.left.length
      ∧ (∀ sec : SectionId, loadCovers operand.toNat x.buffer.length sec →
          (x.buffer.drop (loadPlace operand.toNat sec)).take 256 = (stagedOf s sec).toList)
      ∧ t.cu = { s.cu with state := .loading, load := some x, record := t.cu.record, owner := .load }
      ∧ t.lines = s.lines ∧ deKeptButStatus s t ∧ t.nu = s.nu ∧ t.wu = s.wu

/-- START: a line in OFF enters PRIMING, and when a source holds at the entry, it shuts the line down at once (after
the whole start, either first where both hold: the model's reading, log 9 and 17); in STOPPING the stop is cancelled;
in PRIMING, RUNNING and SHUTDOWN it is refused with the line state code. At the transfer a zone whose definition
changes is CLEAR, with ZONE_CLEAR of reason RECONFIGURED where it was TRIPPED or RECOVERING (R67). That the mark of R35
is clear in the windows of an abandoned cycle is the model's choice (log 39). -/
def Obligations.StartByLineState : Prop :=
  ∀ (tag operand : Byte) (l : LineId) (s : State), commandReady s tag 6 operand → operand.toNat = l.val →
    ((s.ls l).state = .off → quietLine s l →
      ∃ t t', exec (.start tag operand) s = .next t' ∧ handsOn t t' ∧ answers s t tag 6 .accepted 0 .none ∧ hasPrimed s t l
        ∧ (nothingPending s l → t.nu = s.nu) ∧ otherLinesKept l s t ∧ deKeptButStatus s t ∧ t.wu = s.wu)
    ∧ ((s.ls l).state = .off → ¬quietLine s l →
      ∃ t t', exec (.start tag operand) s = .next t' ∧ handsOn t t' ∧ answers s t tag 6 .accepted 0 .none
        ∧ shutAtPriming (s.ls l) s t l ∧ otherLinesKept l s t ∧ deKeptButStatus s t ∧ t.wu = s.wu)
    ∧ ((s.ls l).state = .stopping →
      ∃ t t', exec (.start tag operand) s = .next t' ∧ handsOn t t' ∧ answers s t tag 6 .accepted 0 .none
        ∧ (t.ls l) = { s.ls l with state := .running } ∧ (t.sru l) = (s.sru l) ∧ (t.gzu l).lineCopy = .running
        ∧ otherLinesKept l s t ∧ deKeptButStatus s t ∧ cuKeptButRecord s t ∧ t.nu = s.nu ∧ t.wu = s.wu)
    ∧ ((s.ls l).state = .priming ∨ (s.ls l).state = .running ∨ (s.ls l).state = .shutdown →
      ∃ t t', exec (.start tag operand) s = .next t' ∧ handsOn t t'
        ∧ answers s t tag 6 .refusedState (BitVec.ofNat 16 (s.ls l).state.code) .none ∧ t.lines = s.lines
        ∧ cuKeptButRecord s t ∧ deKeptButStatus s t ∧ t.nu = s.nu ∧ t.wu = s.wu)

/-- STOP: RUNNING to STOPPING with the cycle untouched; PRIMING and SHUTDOWN to OFF with pending copies made live, from
PRIMING with the cycle's accumulators discarded, from SHUTDOWN with causes, recorded cause and lockout cleared; no
change in OFF and STOPPING. At the transfer a zone whose definition changes is CLEAR, with ZONE_CLEAR of reason
RECONFIGURED where it was TRIPPED or RECOVERING (R67). That the mark of R35 is clear in the windows of an abandoned
cycle is the model's choice (log 39). -/
def Obligations.StopByLineState : Prop :=
  ∀ (tag operand : Byte) (l : LineId) (s : State), commandReady s tag 7 operand → operand.toNat = l.val →
    ((s.ls l).state = .running →
      ∃ t t', exec (.stop tag operand) s = .next t' ∧ handsOn t t' ∧ answers s t tag 7 .accepted 0 .none
        ∧ (t.ls l) = { s.ls l with state := .stopping } ∧ (t.sru l) = (s.sru l) ∧ (t.gzu l).lineCopy = .stopping
        ∧ otherLinesKept l s t ∧ deKeptButStatus s t ∧ t.nu = s.nu ∧ t.wu = s.wu)
    ∧ ((s.ls l).state = .priming →
      ∃ t t', exec (.stop tag operand) s = .next t' ∧ handsOn t t' ∧ answers s t tag 7 .accepted 0 .none ∧ isOff t l
        ∧ (t.ls l).recorded = (s.ls l).recorded ∧ (t.sru l).halvesP = none
        ∧ (t.sru l).accP = WindowAcc.empty ∧ (t.sru l).accN = WindowAcc.empty
        ∧ (t.sru l).sequence = (s.sru l).sequence ∧ transferred s t l ∧ zonesFollow s t l
        ∧ otherLinesKept l s t ∧ deKeptButStatus s t ∧ t.wu = s.wu)
    ∧ ((s.ls l).state = .shutdown →
      ∃ t t', exec (.stop tag operand) s = .next t' ∧ handsOn t t' ∧ answers s t tag 7 .accepted 0 .none ∧ isOff t l
        ∧ (t.ls l).recorded = none ∧ (t.ls l).causes = Causes.empty ∧ (t.ls l).lockout = false
        ∧ transferred s t l ∧ zonesFollow s t l ∧ otherLinesKept l s t ∧ deKeptButStatus s t ∧ t.wu = s.wu)
    ∧ ((s.ls l).state = .off ∨ (s.ls l).state = .stopping →
      ∃ t t', exec (.stop tag operand) s = .next t' ∧ handsOn t t' ∧ answers s t tag 7 .accepted 0 .none ∧ t.lines = s.lines
        ∧ cuKeptButRecord s t ∧ deKeptButStatus s t ∧ t.nu = s.nu ∧ t.wu = s.wu)

/-- HALT: a driven line takes shutdown entry with cause SOFTWARE, which stays present; in SHUTDOWN SOFTWARE joins and
the restart delay stops; in OFF it is refused. At the transfer a zone whose definition changes is CLEAR, with
ZONE_CLEAR of reason RECONFIGURED where it was TRIPPED or RECOVERING (R67). That the mark of R35 is clear in the
windows of an abandoned cycle is the model's choice (log 39). -/
def Obligations.HaltByLineState : Prop :=
  ∀ (tag operand : Byte) (l : LineId) (s : State), commandReady s tag 8 operand → operand.toNat = l.val →
    ((s.ls l).state.driven = true →
      ∃ t t', exec (.halt tag operand) s = .next t' ∧ handsOn t t' ∧ answers s t tag 8 .accepted 0 .none
        ∧ hasShutDown s t l .software
        ∧ tripKept s t l ∧ (t.ls l).causes.software = true ∧ (t.ls l).restartTimer = none
        ∧ otherLinesKept l s t ∧ deKeptButStatus s t ∧ t.wu = s.wu)
    ∧ ((s.ls l).state = .shutdown →
      ∃ t t', exec (.halt tag operand) s = .next t' ∧ handsOn t t' ∧ answers s t tag 8 .accepted 0 .none
        ∧ (t.ls l) = { s.ls l with causes := { (s.ls l).causes with software := true }, restartTimer := none }
        ∧ (t.sru l) = (s.sru l) ∧ (t.gzu l) = (s.gzu l) ∧ otherLinesKept l s t ∧ deKeptButStatus s t ∧ t.nu = s.nu
        ∧ t.wu = s.wu)
    ∧ ((s.ls l).state = .off →
      ∃ t t', exec (.halt tag operand) s = .next t' ∧ handsOn t t' ∧ answers s t tag 8 .refusedState 0 .none
        ∧ t.lines = s.lines
        ∧ cuKeptButRecord s t ∧ deKeptButStatus s t ∧ t.nu = s.nu ∧ t.wu = s.wu)

/-- RESTART: in SHUTDOWN with COIL_HI or TRIP present it is refused with that cause's code; without, the line enters
PRIMING with attempts and lockout cleared and LINE_RESTARTED raised, and when a source holds at the entry, it shuts the
line down at once (after the whole start, either first where both hold: the model's reading, log 9 and 17); in any
other state it is refused with the line state code. At the transfer a zone whose definition changes is CLEAR, with
ZONE_CLEAR of reason RECONFIGURED where it was TRIPPED or RECOVERING (R67). That the mark of R35 is clear in the
windows of an abandoned cycle is the model's choice (log 39). -/
def Obligations.RestartByLineState : Prop :=
  ∀ (tag operand : Byte) (l : LineId) (s : State), commandReady s tag 9 operand → operand.toNat = l.val →
    ((s.ls l).state = .shutdown → ((s.ls l).causes.coilHi = true ∨ (s.ls l).causes.trip = true) →
      ∃ t t', exec (.restart tag operand) s = .next t' ∧ handsOn t t'
        ∧ answers s t tag 9 .refusedState (if (s.ls l).causes.coilHi = true then 1 else 3) .none ∧ t.lines = s.lines
        ∧ cuKeptButRecord s t ∧ deKeptButStatus s t ∧ t.nu = s.nu ∧ t.wu = s.wu)
    ∧ ((s.ls l).state = .shutdown → (s.ls l).causes.coilHi = false → (s.ls l).causes.trip = false → quietLine s l →
      ∃ t t', exec (.restart tag operand) s = .next t' ∧ handsOn t t' ∧ answers s t tag 9 .accepted 0 .none ∧ hasPrimed s t l
        ∧ (t.ls l).causes = Causes.empty ∧ (t.ls l).attempts = 0 ∧ (t.ls l).lockout = false
        ∧ (t.ls l).recorded = (s.ls l).recorded ∧ raisedIn s t .lineRestarted (.line l) 1
        ∧ otherLinesKept l s t ∧ deKeptButStatus s t ∧ t.wu = s.wu)
    ∧ ((s.ls l).state = .shutdown → (s.ls l).causes.coilHi = false → (s.ls l).causes.trip = false → ¬quietLine s l →
      ∃ t t', exec (.restart tag operand) s = .next t' ∧ handsOn t t' ∧ answers s t tag 9 .accepted 0 .none
        ∧ shutAtPriming { s.ls l with attempts := 0, lockout := false } s t l
        ∧ raisedIn s t .lineRestarted (.line l) 1 ∧ otherLinesKept l s t ∧ deKeptButStatus s t ∧ t.wu = s.wu)
    ∧ ((s.ls l).state ≠ .shutdown →
      ∃ t t', exec (.restart tag operand) s = .next t' ∧ handsOn t t'
        ∧ answers s t tag 9 .refusedState (BitVec.ofNat 16 (s.ls l).state.code) .none ∧ t.lines = s.lines
        ∧ cuKeptButRecord s t ∧ deKeptButStatus s t ∧ t.nu = s.nu ∧ t.wu = s.wu)

/-- R49: CLEAR_TOTAL sets totals, remainders and untotalized count to 0 in every line state, marks the line status page
dirty and changes nothing else of the line; while the freeze is set it is refused with REFUSED_FROZEN. That the detail
of ACCEPTED is 0, which no rule states, is the model's choice (log 41, DESIGN CHOICE). -/
def Obligations.ClearTotalClearsTotals : Prop :=
  ∀ (tag operand : Byte) (l : LineId) (s : State), commandReady s tag 10 operand → operand.toNat = l.val →
    (s.cu.frozen = false →
      ∃ t t', exec (.clearTotal tag operand) s = .next t' ∧ handsOn t t' ∧ answers s t tag 10 .accepted 0 .none
        ∧ (t.sru l) = { s.sru l with forward := 0, reverse := 0, forwardRem := 0, reverseRem := 0, untotalized := 0 }
        ∧ isDirty t (linePage l) ∧ (t.ls l) = (s.ls l) ∧ (t.gzu l) = (s.gzu l) ∧ otherLinesKept l s t
        ∧ cuKeptButRecord s t ∧ deKeptButStatus s t ∧ t.nu = s.nu ∧ t.wu = s.wu)
    ∧ (s.cu.frozen = true →
      ∃ t t', exec (.clearTotal tag operand) s = .next t' ∧ handsOn t t' ∧ answers s t tag 10 .refusedFrozen 0 .none
        ∧ onlyAnswered s t)

/-- FREEZE: with the freeze clear it becomes set, every staged calibration is replaced by the live one and every
pending calibration is discarded, with FREEZE_SET; with the freeze set nothing changes. That the detail of ACCEPTED is
0, which no rule states, is the model's choice (log 41, DESIGN CHOICE). -/
def Obligations.FreezeSetsFreeze : Prop :=
  ∀ (tag operand : Byte) (s : State), commandReady s tag 11 operand →
    (s.cu.frozen = false →
      ∃ t t', exec (.freeze tag operand) s = .next t' ∧ handsOn t t' ∧ answers s t tag 11 .accepted 0 .none
        ∧ t.cu.frozen = true
        ∧ (∀ l : LineId, (t.copies l) = { s.copies l with
            stagedCal := (s.copies l).liveCal, pendingCal := none })
        ∧ (∀ l : LineId, (s.copies l).pendingCal.isSome = true → isDirty t (linePage l))
        ∧ raisedIn s t .freezeSet .part 0
        ∧ t.cu = { s.cu with frozen := true, lines := t.cu.lines, record := t.cu.record, owner := .none }
        ∧ t.lines = s.lines ∧ deKeptButStatus s t ∧ t.wu = s.wu)
    ∧ (s.cu.frozen = true →
      ∃ t t', exec (.freeze tag operand) s = .next t' ∧ handsOn t t' ∧ answers s t tag 11 .accepted 0 .none
        ∧ t.lines = s.lines
        ∧ cuKeptButRecord s t ∧ deKeptButStatus s t ∧ t.nu = s.nu ∧ t.wu = s.wu)

/-! ## The Delivery Engine -/

/-- ARMING_TAKES_EFFECT with no write in flight: the section is live with its tag and CONFIG_APPLIED is raised with
it, every ring is unarmed, kept, or armed and reset by R80 (in a step of its own, or at the head of any command that
comes first, statement EveryCommandAnswersNext: the model's reading, log 7), every page mark is dirty and not FAULTED;
an arming that does not keep ring N empties the outstanding list, and one that disables it returns a waiting offer to
the backlog. A WAITING write that is now suppressed is completed upstream with OK and reported as at its taking (R121,
R120), and one that is not keeps its capture target; a read whose W word an index reset mark now covers is HELD, and
one held for an index reset whose mark is cleared is WAITING again (log 33). An index reset write on the port of a
ring that is not kept is overtaken; any other access there stays as it is. The port, if FREE, is then granted. The
values of ring N's priority, batch count and countdown, which no rule gives N, are the model's choice (log 35). -/
def Obligations.ArmingAppliesSection : Prop :=
  ∀ (s : State) (a : Arming), awake s → s.de.arming = some a → s.de.flight = none →
    ∃ t t', exec .armingTakesEffect s = .next t' ∧ settled t t' ∧ armsBy s a t

/-- With no refresh asked for and no record or page in flight, the lowest ring whose index reset is outstanding is the
engine's next work. INDEX_RESET_WRITE puts 0 on the port for it; INDEX_RESET_WRITE_COMPLETE clears that ring's mark,
with ERR leaves it FAULTED with DELIVERY_FAULT for a profile ring and returns a waiting offer to the backlog for ring
N, and once overtaken by an arming changes no ring; a read held for the mark alone is WAITING again, and the port is
granted in the same action. That ERR clears the mark is the model's reading (log 21). -/
def Obligations.IndexResetWritesZero : Prop :=
  (∀ (s : State) (r : RingId), engineChooses s → (s.ring r).resetOut = true →
    (∀ q : RingId, q < r → (s.ring q).resetOut = false) → s.deNext = some (.indexReset r))
  ∧ (∀ (s : State) (r : RingId), awake s → enginePort s → s.deNext = some (.indexReset r) →
    (s.ring r).resetOut = true ∧ (∀ q : RingId, q < r → (s.ring q).resetOut = false)
    ∧ ∃ t, exec .indexResetWrite s = .next t ∧ engineBegins s t (.indexReset r))
  ∧ (∀ (s : State) (r : RingId) (a : Access), awake s → atRest s → s.mp.port = .de (.indexReset r false) a →
    ∃ t t', exec (.indexResetWriteComplete false) s = .next t' ∧ arbitrated t t' ∧ released s t
      ∧ (t.ring r) = { s.ring r with resetOut := false }
      ∧ (∀ q : RingId, q ≠ r → (t.ring q) = (s.ring q)) ∧ t.de.flight = s.de.flight
      ∧ t.lines = s.lines ∧ t.cu = s.cu ∧ t.nu = s.nu ∧ t.wu = s.wu ∧ outsideKept s t)
  ∧ (∀ (s : State) (r : RingId) (a : Access), awake s → atRest s → s.mp.port = .de (.indexReset r false) a →
    ∃ t t', exec (.indexResetWriteComplete true) s = .next t' ∧ arbitrated t t' ∧ released s t
      ∧ (t.ring r) = { s.ring r with resetOut := false, faulted := true }
      ∧ (∀ q : RingId, q ≠ r → (t.ring q) = (s.ring q)) ∧ t.de.flight = s.de.flight
      ∧ (∀ l : LineId, r = profileRing l → raisedIn s t .deliveryFault (.line l) 2)
      ∧ (r = noticeRing → (∀ o, s.nu.offer = some o → o.inFlight = false → t.nu.offer = none
          ∧ offerReturned s t o.entry)
          ∧ (s.nu.offer = none → t.nu = { s.nu with attn := t.nu.attn }))
      ∧ t.lines = s.lines ∧ t.cu = s.cu ∧ t.wu = s.wu ∧ outsideKept s t)
  ∧ (∀ (s : State) (r : RingId) (a : Access) (err : Bool), awake s → atRest s →
    s.mp.port = .de (.indexReset r true) a →
    ∃ t t', exec (.indexResetWriteComplete err) s = .next t' ∧ arbitrated t t' ∧ t.mp = { s.mp with port := .free }
      ∧ t.de.rings = s.de.rings ∧ t.de.flight = s.de.flight
      ∧ t.lines = s.lines ∧ t.cu = s.cu ∧ t.nu = s.nu ∧ t.wu = s.wu ∧ outsideKept s t)

/-- The engine's next work is the word of a write in flight unless a refresh is asked for; of its items it takes a
notice entry before a profile, the standing offer before the backlog entry that drains first, and of the lines with a
record the one of the highest record priority, between equal priorities the lower. RECORD_START at a FREE port: a
profile record or notice entry is in flight with its content fixed, and its first word is on the port at the slot of
W; an entry carries the notice sequence and is marked in flight; a WAITING read of a word that it covers is HELD.
RECORD_WORD_COMPLETE with OK: one more word of the record is done, and the port is granted by the table of R130 in the
same action: with no host request waiting and no refresh asked for the next word, or after the last the W word with W
+ 1, is on it; a WAITING request below the patience passes it. -/
def Obligations.RecordIsWritten : Prop :=
  (∀ s : State, s.de.fresh = [] → s.de.flight ≠ none → s.deNext = some .flightWord)
  ∧ (∀ s : State, mayBegin s → s.de.arming = none → takesRecord (s.ring noticeRing) →
    (∀ o, s.nu.offer = some o → s.deNext = some (.notice o.entry))
    ∧ ∀ b ∈ s.nu.backlog, s.nu.offer = none → b.inFlight = false →
        (∀ c ∈ s.nu.backlog, c.inFlight = false → c = b ∨ drainsBefore b.entry c.entry) →
        s.deNext = some (.notice b.entry))
  ∧ (∀ (s : State) (l : LineId) (g : Staged), mayBegin s → s.de.arming = none → noNoticeDue s → hasRecord s l →
    (s.staging l).queue.head? = some g →
    (∀ k : LineId, hasRecord s k → k ≠ l →
      (s.ring (profileRing k)).priority < (s.ring (profileRing l)).priority
        ∨ ((s.ring (profileRing k)).priority = (s.ring (profileRing l)).priority ∧ l < k)) →
    s.deNext = some (.profile l g))
  ∧ (∀ (s : State) (l : LineId) (g : Staged), awake s → enginePort s → s.deNext = some (.profile l g) →
    ∃ t, exec .recordStart s = .next t ∧ engineBegins s t (.profile l g))
  ∧ (∀ (s : State) (e : Entry), awake s → enginePort s → s.deNext = some (.notice e) →
    ∃ t, exec .recordStart s = .next t ∧ engineBegins s t (.notice e))
  ∧ (∀ (s : State) (r : RingId) (slot done : Nat) (words : List Word) (a : Access), awake s →
    s.mp.port = .de .recordWord a → s.de.flight = some (.record r slot words done) →
    ∃ t t', exec (.recordWordComplete false) s = .next t' ∧ arbitrated t t' ∧ t.mp = { s.mp with port := .free }
      ∧ deKept { s with de := { s.de with flight := some (.record r slot words (done + 1)) } } t
      ∧ t.lines = s.lines ∧ t.cu = s.cu ∧ t.nu = s.nu ∧ t.wu = s.wu ∧ outsideKept s t
      ∧ (s.mp.request = none → s.de.fresh = [] →
          (∀ w, words[done + 1]? = some w → wordOnPort t' .recordWord (slot + 4 * (done + 1)) w)
          ∧ (words[done + 1]? = none →
              wordOnPort t' .wWord (0x0C00 + 16 * r.val) (((s.ring r).w + 1).setWidth 32))))

/-- A record word or W word of a profile ring completes with ERR: the ring is FAULTED with W kept, the head profile is
lost with its count passed on, DELIVERY_FAULT is raised; a read held for the record alone is WAITING, and the port is
granted in the same action. -/
def Obligations.ProfileFaultLosesHead : Prop :=
  ∀ (s : State) (l : LineId) (slot done : Nat) (words : List Word) (a : Access) (x : Staged) (rest : List Staged)
      (wWord : Bool), awake s →
    s.mp.port = .de (if wWord = true then .wWord else .recordWord) a →
    s.de.flight = some (.record (profileRing l) slot words done) → (s.staging l).queue = x :: rest →
    ∃ t t', exec (if wWord = true then .wWordWriteComplete true else .recordWordComplete true) s = .next t'
      ∧ arbitrated t t' ∧ released s t
      ∧ t.de.flight = none ∧ (t.ring (profileRing l)) = { s.ring (profileRing l) with faulted := true }
      ∧ (t.staging l).faulted = (s.staging l).faulted + 1
      ∧ (t.staging l).delivered = (s.staging l).delivered ∧ (t.staging l).dropped = (s.staging l).dropped
      ∧ (rest = [] → (t.staging l).queue = [] ∧ (t.staging l).carried = (s.staging l).carried + (x.before + 1))
      ∧ (∀ y more, rest = y :: more →
          (t.staging l).queue = { y with before := y.before + (x.before + 1) } :: more
          ∧ (t.staging l).carried = (s.staging l).carried)
      ∧ raisedIn s t .deliveryFault (.line l) (if wWord = true then 2 else 1)
      ∧ (∀ q : RingId, q ≠ profileRing l → (t.ring q) = (s.ring q))
      ∧ (∀ k : LineId, k ≠ l → (t.staging k) = (s.staging k))
      ∧ isDirty t (linePage l) ∧ isDirty t partPage ∧ t.lines = s.lines ∧ t.cu = s.cu ∧ t.wu = s.wu
      ∧ outsideKept s t

/-- W_WORD_WRITE_COMPLETE with OK on a profile ring: W advances, the head profile leaves the queue, the delivered
count increases; a read held for the record alone is WAITING, and the port is granted in the same action. -/
def Obligations.ProfileIsDelivered : Prop :=
  ∀ (s : State) (l : LineId) (slot done : Nat) (words : List Word) (a : Access), awake s →
    s.mp.port = .de .wWord a → s.de.flight = some (.record (profileRing l) slot words done) →
    ∃ t t', exec (.wWordWriteComplete false) s = .next t' ∧ arbitrated t t' ∧ released s t ∧ t.de.flight = none
      ∧ (t.ring (profileRing l)).w = (s.ring (profileRing l)).w + 1
      ∧ (t.ring (profileRing l)).rd = (s.ring (profileRing l)).rd
      ∧ (t.staging l) = { s.staging l with
          queue := (s.staging l).queue.drop 1, delivered := (s.staging l).delivered + 1 }
      ∧ (0 < (s.ring (profileRing l)).batch → (s.ring (profileRing l)).countdown ≤ 1 →
          (t.ring (profileRing l)).countdown = (s.ring (profileRing l)).batch
          ∧ raisedIn s t .batch (.line l) ((s.ring (profileRing l)).w + 1))
      ∧ ((s.ring (profileRing l)).batch = 0 →
          (t.ring (profileRing l)).countdown = (s.ring (profileRing l)).countdown ∧ t.nu = s.nu)
      ∧ (1 < (s.ring (profileRing l)).countdown → 0 < (s.ring (profileRing l)).batch →
          (t.ring (profileRing l)).countdown = (s.ring (profileRing l)).countdown - 1 ∧ t.nu = s.nu)
      ∧ (∀ q : RingId, q ≠ profileRing l → (t.ring q) = (s.ring q))
      ∧ (∀ k : LineId, k ≠ l → (t.staging k) = (s.staging k))
      ∧ isDirty t (linePage l) ∧ isDirty t partPage ∧ t.lines = s.lines ∧ t.cu = s.cu ∧ t.wu = s.wu
      ∧ outsideKept s t

/-- W_WORD_WRITE_COMPLETE on the notice ring with OK: the level of the entry in flight joins the outstanding list and
the sequence increases; an offer stands no more, and a backlog entry leaves the backlog or stays with its late part as
its content. With ERR there or at a word of the entry the ring is FAULTED and ATTN asserted unless BRST holds it,
sequence and list unchanged; an offer goes back to the backlog, joined with the entry of its pair, and a backlog entry
stays, no longer in flight, joined with its late part. A read held for the entry alone is WAITING, and the port is
granted in the same action. -/
def Obligations.NoticeIsDeliveredOrReturned : Prop :=
  (∀ (s : State) (slot done : Nat) (words : List Word) (a : Access) (o : Offer), awake s →
    s.mp.port = .de .wWord a → s.de.flight = some (.record noticeRing slot words done) → s.nu.offer = some o →
    o.inFlight = true →
    (∃ t t', exec (.wWordWriteComplete false) s = .next t' ∧ arbitrated t t' ∧ released s t
      ∧ noticeDelivered s t o.entry.level
      ∧ ((∀ b ∈ s.nu.backlog, b.inFlight = false) → t.nu.backlog = s.nu.backlog))
    ∧ (∃ t t', exec (.wWordWriteComplete true) s = .next t' ∧ arbitrated t t' ∧ released s t ∧ noticeRefused s t
        ∧ offerReturned s t o.entry))
  ∧ (∀ (s : State) (slot done : Nat) (words : List Word) (a : Access) (o : Offer), awake s →
    s.mp.port = .de .recordWord a → s.de.flight = some (.record noticeRing slot words done) → s.nu.offer = some o →
    o.inFlight = true →
    ∃ t t', exec (.recordWordComplete true) s = .next t' ∧ arbitrated t t' ∧ released s t ∧ noticeRefused s t
      ∧ offerReturned s t o.entry)
  ∧ (∀ (s : State) (slot done : Nat) (words : List Word) (a : Access) (b : BacklogEntry), awake s →
    s.mp.port = .de .wWord a → s.de.flight = some (.record noticeRing slot words done) → entryFlies s b →
    (∃ t t', exec (.wWordWriteComplete false) s = .next t' ∧ arbitrated t t' ∧ released s t
      ∧ noticeDelivered s t b.entry.level
      ∧ t.nu.backlog = afterDelivered s.nu.backlog)
    ∧ (∃ t t', exec (.wWordWriteComplete true) s = .next t' ∧ arbitrated t t' ∧ released s t ∧ noticeRefused s t
      ∧ t.nu.backlog = afterRefused s.nu.backlog))
  ∧ (∀ (s : State) (slot done : Nat) (words : List Word) (a : Access) (b : BacklogEntry), awake s →
    s.mp.port = .de .recordWord a → s.de.flight = some (.record noticeRing slot words done) → entryFlies s b →
    ∃ t t', exec (.recordWordComplete true) s = .next t' ∧ arbitrated t t' ∧ released s t ∧ noticeRefused s t
      ∧ t.nu.backlog = afterRefused s.nu.backlog)

/-- With no notice entry and no profile to begin, the engine's next work is the page that is dirty and not FAULTED and
comes first after the page last begun; while an arming request waits, no entry, profile or page is begun.
PAGE_WRITE_START at a FREE port: the page is clean and in flight with its snapshot, whose first word is on the port,
and a WAITING read of a word that it covers is HELD. PAGE_WORD_COMPLETE: with OK before the last word the page goes
on, with OK at the last word the write has ended, and with ERR the page is FAULTED and dirty with DELIVERY_FAULT; when
the write has ended, a read held for it alone is WAITING, and at each completion the port is granted in the same
action. In INIT each page whose write ends, with OK or ERR, leaves the initial writes outstanding, and when none is left
the CU enters IDLE and sets the ready flag. -/
def Obligations.PageIsWritten : Prop :=
  (∀ (s : State) (p : PageId), mayBegin s → s.de.arming = none → noNoticeDue s → (∀ l : LineId, ¬hasRecord s l) →
    (s.page p).dirty = true → (s.page p).faulted = false →
    (∀ q : PageId, (s.page q).dirty = true → (s.page q).faulted = false →
      pageDistance s.de.lastPage p ≤ pageDistance s.de.lastPage q) →
    s.deNext = some (.page p))
  ∧ (∀ s : State, mayBegin s → s.de.arming ≠ none → s.deNext = none)
  ∧ (∀ (s : State) (p : PageId), awake s → enginePort s → s.deNext = some (.page p) →
    ∃ t, exec .pageWriteStart s = .next t ∧ engineBegins s t (.page p))
  ∧ (∀ (s : State) (p : PageId) (words : List (Nat × Word)) (done : Nat) (a : Access), awake s →
    s.mp.port = .de .pageWord a → s.de.flight = some (.page p words done) →
    (done + 1 < words.length →
      ∃ t t', exec (.pageWordComplete false) s = .next t' ∧ arbitrated t t'
        ∧ t.mp = { s.mp with port := .free } ∧ t.de.flight = some (.page p words (done + 1))
        ∧ deKept { s with de := { s.de with flight := t.de.flight } } t ∧ t.lines = s.lines ∧ t.cu = s.cu
        ∧ t.nu = s.nu ∧ t.wu = s.wu)
    ∧ (words.length ≤ done + 1 →
      ∃ t t', exec (.pageWordComplete false) s = .next t' ∧ arbitrated t t' ∧ released s t ∧ t.de.flight = none
        ∧ deKept { s with de := { s.de with flight := none } } t ∧ initFollows s t p ∧ t.lines = s.lines
        ∧ t.nu = s.nu ∧ t.wu = s.wu)
    ∧ (∃ t t', exec (.pageWordComplete true) s = .next t' ∧ arbitrated t t' ∧ released s t
        ∧ t.de = { s.de with flight := none, pages := t.de.pages }
        ∧ (t.page p) = { dirty := true, faulted := true } ∧ isDirty t partPage
        ∧ (∀ q : PageId, q ≠ p → (t.page q).faulted = (s.page q).faulted)
        ∧ raisedIn s t .deliveryFault .part (if p = partPage then 16 else BitVec.ofNat 16 (17 + p.val))
        ∧ initFollows s t p ∧ t.lines = s.lines ∧ t.wu = s.wu))

/-- With no refresh, write in flight or index reset outstanding, a dirty command status is the engine's next work.
COMMAND_STATUS_WRITE at a FREE port puts the last-command record on the port as the word of R179 and marks it clean;
its completion with ERR raises DELIVERY_FAULT with detail 32, and marks nothing dirty for it; the port is granted in
the same action. -/
def Obligations.CommandStatusIsWritten : Prop :=
  (∀ s : State, noResetDue s → s.de.statusDirty = true → s.deNext = some .commandStatus)
  ∧ (∀ s : State, awake s → enginePort s → s.deNext = some .commandStatus →
    ∃ t, exec .commandStatusWrite s = .next t ∧ engineBegins s t .commandStatus)
  ∧ (∀ (s : State) (a : Access) (err : Bool), awake s → atRest s → s.mp.port = .de .commandStatus a →
    ∃ t t', exec (.commandStatusWriteComplete err) s = .next t' ∧ arbitrated t t'
      ∧ t.mp = { s.mp with port := .free } ∧ t.de.statusDirty = s.de.statusDirty
      ∧ (err = true → raisedIn s t .deliveryFault .part 32) ∧ (err = false → t.nu = s.nu)
      ∧ t.de.rings = s.de.rings ∧ t.lines = s.lines ∧ t.cu = s.cu ∧ t.wu = s.wu ∧ outsideKept s t)

/-- A refresh asked for is the engine's next work before all other, the oldest first: that several stand in a list and
are issued in the order asked for is the model's reading (log 8, DEDUCED), R74 and R90 speaking of one.
FRESH_WORD_REFRESH at a FREE port puts the value of now on the port, clearing the matched marks for the activity
summary word; its completion releases the read that asked for it, which is WAITING and below the patience is granted
the port in the same action, and with ERR raises DELIVERY_FAULT with detail 33 or 34. Where no read waits for it (a read
abandoned by bus reset, or one whose own refresh is still to be issued) the request in hand stays as it is. -/
def Obligations.FreshWordIsRefreshed : Prop :=
  (∀ (s : State) (w : FreshWord) (rest : List FreshWord), s.de.fresh = w :: rest → s.deNext = some (.fresh w))
  ∧ (∀ (s : State) (w : FreshWord), awake s → enginePort s → s.deNext = some (.fresh w) →
    ∃ t, exec .freshWordRefresh s = .next t ∧ engineBegins s t (.fresh w))
  ∧ (∀ (s : State) (w : FreshWord) (v : Word) (a : Access) (r : Request) (err : Bool), awake s → atRest s →
    s.mp.port = .de (.refresh w v) a → s.mp.request = some r → r.stage = .refreshing → r.fresh = some w →
    w ∉ s.de.fresh →
    ∃ t t', exec (.freshWordRefreshComplete err) s = .next t' ∧ arbitrated t t'
      ∧ t.mp = { s.mp with port := .free, request := some { r with
          stage := .waiting, refreshed := if err = false ∧ w = .activity then some (v.setWidth 8) else none } }
      ∧ (err = true → raisedIn s t .deliveryFault .part (if w = .milliseconds then 33 else 34))
      ∧ (err = false → t.nu = s.nu)
      ∧ t.lines = s.lines ∧ t.cu = s.cu ∧ deKept s t ∧ t.wu = s.wu ∧ outsideKept s t
      ∧ (s.mp.passed < patience s.liveDelivery →
          t'.mp.port = .host true r.access))
  ∧ (∀ (s : State) (w : FreshWord) (v : Word) (a : Access) (err : Bool), awake s → atRest s →
    s.mp.port = .de (.refresh w v) a →
    (∀ r, s.mp.request = some r → r.stage = .refreshing → r.fresh = some w → w ∈ s.de.fresh) →
    ∃ t t', exec (.freshWordRefreshComplete err) s = .next t' ∧ arbitrated t t' ∧ t.mp = { s.mp with port := .free }
      ∧ (err = true → raisedIn s t .deliveryFault .part (if w = .milliseconds then 33 else 34))
      ∧ (err = false → t.nu = s.nu)
      ∧ t.lines = s.lines ∧ t.cu = s.cu ∧ deKept s t ∧ t.wu = s.wu ∧ outsideKept s t)

/-- With nothing before it in the engine order, the next read of a load is the engine's next work. LOAD_READ puts a
read of the next word of the load on the port. LOAD_READ_COMPLETE: with OK before the last word the offset leaves the
list; with the last word the staged copies the load covers take the buffer and the CU is IDLE with LOAD_DONE; with ERR
the load is abandoned with its fault counted and every staged copy kept. The last-command record, when it still belongs
to the load, then reads LOADED with the number of words, or LOAD_FAILED with the offset, and has no owner; else it is
kept. The port is granted in the same action as the completion. -/
def Obligations.LoadReadsItsWords : Prop :=
  (∀ (s : State) (x : Load) (off : Nat) (rest : List Nat), noStatusDue s → s.cu.load = some x → x.left = off :: rest →
    s.deNext = some (.loadRead off))
  ∧ (∀ (s : State) (off : Nat), awake s → enginePort s → s.deNext = some (.loadRead off) →
    ∃ t, exec .loadRead s = .next t ∧ engineBegins s t (.loadRead off))
  ∧ (∀ (s : State) (x : Load) (off : Nat) (data : Word) (a : Access), awake s → atRest s →
    s.mp.port = .de (.loadRead off) a →
    s.cu.load = some x →
    (x.left.filter (· != off) ≠ [] →
      ∃ t t', exec (.loadReadComplete false data) s = .next t' ∧ arbitrated t t'
        ∧ t.mp = { s.mp with port := .free }
        ∧ t.cu = { s.cu with load := some { x with
            left := x.left.filter (· != off), buffer := mergeBytes x.buffer (off - x.start) 0xF#4 data } }
        ∧ t.lines = s.lines ∧ deKept s t ∧ t.nu = s.nu ∧ t.wu = s.wu)
    ∧ (x.left.filter (· != off) = [] →
      ∃ t t', exec (.loadReadComplete false data) s = .next t' ∧ arbitrated t t' ∧ t.cu.state = .idle ∧ t.cu.load = none
        ∧ loadTaken s t x.code (mergeBytes x.buffer (off - x.start) 0xF#4 data)
        ∧ raisedIn s t .loadDone .part (BitVec.ofNat 16 x.code)
        ∧ loadRecorded s t .loaded (BitVec.ofNat 16 (x.buffer.length / 4))
        ∧ isDirty t partPage ∧ deKeptButStatus s t ∧ t.lines = s.lines ∧ t.wu = s.wu)
    ∧ (∃ t t', exec (.loadReadComplete true data) s = .next t' ∧ arbitrated t t'
        ∧ t.mp = { s.mp with port := .free }
        ∧ t.cu = { s.cu with state := .idle, load := none, loadFaults := satInc s.cu.loadFaults,
                             record := t.cu.record, owner := t.cu.owner }
        ∧ raisedIn s t .loadFault .part (BitVec.ofNat 16 x.code)
        ∧ loadRecorded s t .loadFailed (BitVec.ofNat 16 off)
        ∧ isDirty t partPage ∧ deKeptButStatus s t ∧ t.lines = s.lines ∧ t.wu = s.wu))

/-! ## Rules of the units -/

/-- R64: at an evaluation an enabled zone moves by the table with its persist and clear checks, the notices of the
checks are raised, and the zone keeps its record when it is disabled. R60 to R63: a BELOW zone (test 0) and a SPREAD
zone (test 2) look at the K newest columns, and with fewer than K in the grid, or fewer than half of them
contributing, cannot be evaluated; otherwise BELOW holds when the zone values sum to less than limit × n, SPREAD when
the lags sum to more. A STILL zone (test 1) holds when every band of it has a still count of at least limit. -/
def Obligations.ZoneMovesByTable : Prop :=
  (∀ (d : ZoneDef) (n : Nat),
    (∀ z : ZoneRec, zoneMove d z .notEvaluable = (z, .none))
    ∧ (zoneMove d { state := .clear, count := n } .holds
        = if d.persist ≤ 1 then ({ state := .tripped, count := 0 }, .trip)
          else ({ state := .pending, count := 1 }, .none))
    ∧ (zoneMove d { state := .pending, count := n } .holds
        = if d.persist ≤ n + 1 then ({ state := .tripped, count := 0 }, .trip)
          else ({ state := .pending, count := n + 1 }, .none))
    ∧ (zoneMove d { state := .tripped, count := n } .holds = ({ state := .tripped, count := 0 }, .none))
    ∧ (zoneMove d { state := .recovering, count := n } .holds = ({ state := .tripped, count := 0 }, .none))
    ∧ (zoneMove d { state := .clear, count := n } .fails = ({ state := .clear, count := 0 }, .none))
    ∧ (zoneMove d { state := .pending, count := n } .fails = ({ state := .clear, count := 0 }, .none))
    ∧ (zoneMove d { state := .tripped, count := n } .fails
        = if d.clear ≤ 1 then ({ state := .clear, count := 0 }, .clear)
          else ({ state := .recovering, count := 1 }, .none))
    ∧ (zoneMove d { state := .recovering, count := n } .fails
        = if d.clear ≤ n + 1 then ({ state := .clear, count := 0 }, .clear)
          else ({ state := .recovering, count := n + 1 }, .none)))
  ∧ (∀ (s : State) (l : LineId) (z : Fin 4),
      let d := zoneDef (s.liveLine l) z.val
      let m := zoneMove d (s.gzu l).zones[z]
        (zoneTest d ((List.range 6).map (weight (s.liveCal l))) (s.gzu l).grid (s.gzu l).still.toList)
      let t := s.evalZone l z
      (d.enable = true → (t.gzu l).zones[z] = m.1
        ∧ (m.2 = .trip → raisedIn s t .zoneTrip (.line l) (BitVec.ofNat 16 z.val))
        ∧ (m.2 = .clear → raisedIn s t .zoneClear (.line l) (BitVec.ofNat 16 z.val))
        ∧ (m.2 = .none → t.nu = s.nu))
      ∧ (d.enable = false → t = s))
  ∧ (∀ (d : ZoneDef) (w : Nat → Nat) (grid : List Column) (still : Vector (BitVec 8) 6),
      let o := zoneTest d ((List.range 6).map w) grid still.toList
      let newest := grid.drop (grid.length - d.lookback)
      let values := newest.filterMap (valueOfColumn d w)
      let lags := newest.filterMap (lagOfColumn d w)
      let tooFew (l : List Int) : Prop := grid.length < d.lookback ∨ 2 * l.length < d.lookback
      (d.test = 0 → (tooFew values → o = .notEvaluable)
        ∧ (¬tooFew values → values.sum < d.limit * values.length → o = .holds)
        ∧ (¬tooFew values → d.limit * values.length ≤ values.sum → o = .fails))
      ∧ (d.test = 1 →
        ((∀ k : Fin 6, d.bandLo ≤ k.val → k.val ≤ d.bandHi → d.limit ≤ ((still[k].toNat : Nat) : Int)) → o = .holds)
        ∧ ((∃ k : Fin 6, d.bandLo ≤ k.val ∧ k.val ≤ d.bandHi ∧ ((still[k].toNat : Nat) : Int) < d.limit) → o = .fails))
      ∧ (d.test = 2 → (tooFew lags → o = .notEvaluable)
        ∧ (¬tooFew lags → d.limit * lags.length < lags.sum → o = .holds)
        ∧ (¬tooFew lags → lags.sum ≤ d.limit * lags.length → o = .fails)))

/-- The half results of a band, the reconstruction of a band from them with its velocity and clipping, its offset
afterwards, and of a profile the bands, flags and sample totals, the mean over the contributing bands, the flow, and
what is added to the totals. That the offset of a band with both halves GOOD is replaced also when its velocity is
then CLIPPED is the model's reading of R41 and R42 (log 22, DEDUCED). -/
def Obligations.VelocityAndFlow : Prop :=
  (∀ (p : CycleParams) (a : Accum),
    (a.seen < p.minSamples → halfResult p a = .noData)
    ∧ (p.minSamples ≤ a.seen → a.accepted < p.minSamples → halfResult p a = .spoiled)
    ∧ (p.minSamples ≤ a.seen → p.minSamples ≤ a.accepted → p.rejectLimit * a.seen < a.rejected * 16 →
        halfResult p a = .spoiled)
    ∧ (p.minSamples ≤ a.seen → p.minSamples ≤ a.accepted → a.rejected * 16 ≤ p.rejectLimit * a.seen →
        halfResult p a = .good (a.sum.tdiv a.accepted)))
  ∧ (∀ (gain : Nat) (raw : Int) (q : Quality),
    let v := (raw * gain).tdiv 65536
    (8000 < v → velocityOf gain raw q = { quality := .clipped, velocity := some 8000 })
    ∧ (v < -8000 → velocityOf gain raw q = { quality := .clipped, velocity := some (-8000) })
    ∧ (-8000 ≤ v → v ≤ 8000 → velocityOf gain raw q = { quality := q, velocity := some v }))
  ∧ (∀ (gain : Nat) (o : Offset) (h : HalfResult) (mp mn : Int) (b : Bool),
    let none (q : Quality) : BandResult := { quality := q, velocity := Option.none }
    bandResult b gain o (.good mp) (.good mn) = velocityOf gain ((mp - mn).tdiv 2) .paired
    ∧ ((h = .spoiled ∨ h = .noData) →
        (o.valid = true → bandResult true gain o (.good mp) h = velocityOf gain (mp - o.value) .singleP)
        ∧ (o.valid = true → bandResult true gain o h (.good mn) = velocityOf gain (o.value - mn) .singleN)
        ∧ (o.valid = false → bandResult true gain o (.good mp) h = none .noOffset
            ∧ bandResult true gain o h (.good mn) = none .noOffset)
        ∧ bandResult b gain o h .noData = none .noData)
    ∧ bandResult false gain o (.good mp) .spoiled = none .spoiled
    ∧ bandResult false gain o .spoiled (.good mn) = none .spoiled
    ∧ bandResult false gain o (.good mp) .noData = none .noData
    ∧ bandResult false gain o .noData (.good mn) = none .noData
    ∧ bandResult b gain o .spoiled .spoiled = none .spoiled
    ∧ bandResult b gain o .noData .spoiled = none .noData)
  ∧ (∀ (o : Offset) (p n : HalfResult),
    (∀ mp mn, p = .good mp → n = .good mn → nextOffset o p n = { value := (mp + mn).tdiv 2, valid := true })
    ∧ ((∀ m, p ≠ .good m) ∨ (∀ m, n ≠ .good m) → nextOffset o p n = o))
  ∧ (∀ (u : Sru) (p : CycleParams) (l : LineId) (b : Bool),
    let f := u.formProfile p l b
    let half (k : Fin 6) : HalfResult := (u.halvesP.getD (Vector.replicate 6 .noData))[k]
    let counts (k : Fin 6) : Bool := f.bands[k].quality.valid && decide (0 < p.weights[k])
    let bandsIn : List (Fin 6) := (List.finRange 6).filter counts
    (∀ k : Fin 6, f.bands[k]
      = bandResult p.allowSingle p.gains[k] u.offsets[k] (half k) (halfResult p u.accN.bands[k]))
    ∧ (bandsIn ≠ [] → p.minValidBands ≤ bandsIn.length →
        f.mean = some (((bandsIn.map fun k => ((p.weights[k] : Nat) : Int) * f.bands[k].velocity.getD 0).sum).tdiv
          ((bandsIn.map fun k => p.weights[k]).sum : Nat)))
    ∧ (bandsIn = [] ∨ bandsIn.length < p.minValidBands → f.mean = none)
    ∧ (∀ m, f.mean = some m → f.flow = (m * p.area * 36).tdiv 10000)
    ∧ (f.mean = none → f.flow = 0)
    ∧ f.sequence = u.sequence ∧ f.line = l ∧ f.allowSingle = p.allowSingle ∧ f.stoppingFinal = b
    ∧ f.timestamp = p.timestamp ∧ (f.anyClipped = true ↔ ∃ k : Fin 6, f.bands[k].quality = .clipped)
    ∧ f.accepted = min 65535 (((List.finRange 6).map fun k =>
        u.accP.bands[k].accepted + u.accN.bands[k].accepted).sum)
    ∧ f.rejected = min 65535 (((List.finRange 6).map fun k =>
        u.accP.bands[k].rejected + u.accN.bands[k].rejected).sum))
  ∧ (∀ (u : Sru) (p : CycleParams) (l : LineId) (b : Bool),
    let f := u.formProfile p l b
    let v := u.afterProfile p
    let half (k : Fin 6) : HalfResult := (u.halvesP.getD (Vector.replicate 6 .noData))[k]
    let volume (m : Int) (rem : Nat) : Nat := m.natAbs * p.area * p.cycleLength + rem
    (∀ k : Fin 6, v.offsets[k] = nextOffset u.offsets[k] (half k) (halfResult p u.accN.bands[k]))
    ∧ v = { u with offsets := v.offsets, sequence := u.sequence + 1, halvesP := none, forward := v.forward,
                   forwardRem := v.forwardRem, reverse := v.reverse, reverseRem := v.reverseRem,
                   untotalized := v.untotalized }
    ∧ (∀ m, f.mean = some m → 0 < m →
        v.forward.toNat = min (2 ^ 64 - 1) (u.forward.toNat + volume m u.forwardRem / 1000000)
        ∧ v.forwardRem = volume m u.forwardRem % 1000000 ∧ v.reverse = u.reverse ∧ v.reverseRem = u.reverseRem)
    ∧ (∀ m, f.mean = some m → m < 0 →
        v.reverse.toNat = min (2 ^ 64 - 1) (u.reverse.toNat + volume m u.reverseRem / 1000000)
        ∧ v.reverseRem = volume m u.reverseRem % 1000000 ∧ v.forward = u.forward ∧ v.forwardRem = u.forwardRem)
    ∧ (f.mean = some 0 ∨ f.mean = none → v.forward = u.forward ∧ v.forwardRem = u.forwardRem
        ∧ v.reverse = u.reverse ∧ v.reverseRem = u.reverseRem)
    ∧ (f.mean = none → v.untotalized = satInc u.untotalized)
    ∧ (f.mean ≠ none → v.untotalized = u.untotalized))

/-- A notice is dropped at level 0. Otherwise it becomes the offer, with count 1, when no offer stands, the backlog is
empty and the notice ring can take an entry; in any other case it is merged into the backlog: into the entry of its
pair, or its late part while it is in flight, with the count one more and at most 255, else as an entry of its own
with count 1. -/
def Obligations.RaisedNoticeIsRecorded : Prop :=
  ∀ (s : State) (k : Kind) (src : Source) (detail : Nat),
    let t := s.raise k src detail
    let d : Half := BitVec.ofNat 16 detail
    let one : Entry := { kind := k, source := src, level := s.levelOf k, count := 1, detail := d,
                         first := s.nu.ms, last := s.nu.ms }
    let asOffer : Prop := s.nu.offer = none ∧ s.nu.backlog = [] ∧ takesRecord (s.ring noticeRing)
    let isPair (b : BacklogEntry) : Prop := b.entry.kind = k ∧ b.entry.source = src
    (s.levelOf k = 0 → t = s)
    ∧ (s.levelOf k ≠ 0 → records t.nu k src d s.nu.ms
        ∧ t.nu.outstanding = s.nu.outstanding ∧ t.nu.sequence = s.nu.sequence
        ∧ (asOffer → t.nu.offer = some { entry := one, inFlight := false } ∧ t.nu.backlog = [])
        ∧ (¬asOffer → t.nu.offer = s.nu.offer)
        ∧ (¬asOffer → (∀ b ∈ s.nu.backlog, ¬isPair b) →
            t.nu.backlog = s.nu.backlog ++ [{ entry := one, inFlight := false, late := none }])
        ∧ (¬asOffer → ∀ b ∈ s.nu.backlog, isPair b → b.inFlight = false →
            { b with entry := { b.entry with
                count := min (b.entry.count + 1) 255, last := s.nu.ms, detail := d, level := s.levelOf k } }
              ∈ t.nu.backlog)
        ∧ (¬asOffer → ∀ b ∈ s.nu.backlog, isPair b → b.inFlight = true →
            (b.late = none → { b with late := some { count := 1, detail := d, level := s.levelOf k,
                                                     first := s.nu.ms, last := s.nu.ms } } ∈ t.nu.backlog)
            ∧ ∀ x, b.late = some x → { b with late := some { x with
                count := min (x.count + 1) 255, detail := d, level := s.levelOf k, last := s.nu.ms } }
              ∈ t.nu.backlog)
        ∧ (∀ b ∈ s.nu.backlog, ¬isPair b → b ∈ t.nu.backlog))

/-! ## Laws of the device -/

/-- Every law of the device holds right after reset. The law armingLaw among them, that a due arming finds the port
FREE, is the model's reading of R79 and R130 (log 7, DEDUCED) and no rule of the spec. -/
def Obligations.ResetSatisfiesLaws : Prop :=
  attnLaw State.reset ∧ lalmLaw State.reset ∧ attendanceLaw State.reset ∧ onePerPair State.reset
    ∧ headInFlight State.reset ∧ profilesAccounted State.reset ∧ ringLaw State.reset ∧ legsSafe State.reset
    ∧ boundedCounts State.reset ∧ bridgeLaw State.reset ∧ gapLaw State.reset ∧ armingLaw State.reset
    ∧ State.reset.pending = []

/-- R112: ATTN is asserted exactly when one of its terms holds and BRST is not asserted; every step keeps it so. That
the level of a late part counts in the backlog term is the model's reading (log 28). -/
def Obligations.StepKeepsAttnLaw : Prop :=
  ∀ s t : State, attnLaw s → step s = .next t → attnLaw t

/-- R68: every LALMn is asserted exactly when an enabled alarm zone of its line is TRIPPED or RECOVERING, or the line
is in SHUTDOWN with alarm_on_shutdown set, or the part is UNATTENDED with alarm_on_unattended set; every step keeps it
so. By default both settings are set and the alarm of each zone is clear. -/
def Obligations.StepKeepsLalmLaw : Prop :=
  (∀ s t : State, lalmLaw s → step s = .next t → lalmLaw t)
  ∧ ∀ l : LineId, alarmOnShutdown (State.reset.liveLine l) = true ∧ alarmOnUnattended (State.reset.liveLine l) = true
      ∧ ∀ z : Fin 4, (zoneDef (State.reset.liveLine l) z.val).alarm = false

/-- R171: the part is UNATTENDED exactly while an enabled window with action UNATTENDED is EXPIRED; every step keeps
it so. -/
def Obligations.StepKeepsAttendanceLaw : Prop :=
  ∀ s t : State, attendanceLaw s → step s = .next t → attendanceLaw t

/-- R105: the backlog holds at most one entry for each pair of kind and source; every step keeps it so. -/
def Obligations.StepKeepsOnePerPair : Prop :=
  ∀ s t : State, onePerPair s → step s = .next t → onePerPair t

/-- R77: profiles produced are delivered, queued, dropped or lost; every step keeps the account. -/
def Obligations.StepKeepsAccount : Prop :=
  ∀ s t : State, headInFlight s → profilesAccounted s → step s = .next t → headInFlight t ∧ profilesAccounted t

/-- R84: for every armed ring W − Rd lies within its capacity; every step keeps it so. -/
def Obligations.StepKeepsRingLaw : Prop :=
  ∀ s t : State, ringLaw s → step s = .next t → ringLaw t

/-- R6: the two switches of a leg are never driven together; no step turns a switch on from a bridge that is not all
off, and a step the part takes by itself only after all four switches have been off for at least 2 ticks, as its gap or
its ALL_OFF_HOLD counts them (a row that names the end of a phase or hold may come early, log 3). R77 and R130: at most
4 profiles queued on a line and a passed-over count of at most 64; and a page in flight has a word still to be written.
Every step keeps each. That every step also keeps it so that an arming that is due finds the port FREE (`armingLaw`) is
no rule of the spec: it is the model's reading of R79 and R130 (log 7, DEDUCED), by which nobody is granted the port
before a due arming, whereas R81 speaks of an index reset write that is on the port when an arming takes effect. -/
def Obligations.StepKeepsLegsSafeAndBounds : Prop :=
  (∀ s t : State, legsSafe s → step s = .next t → legsSafe t)
  ∧ (∀ s t : State, boundedCounts s → step s = .next t → boundedCounts t)
  ∧ (∀ s t : State, bridgeLaw s → step s = .next t → bridgeLaw t)
  ∧ (∀ s t : State, gapLaw s → step s = .next t → gapLaw t)
  ∧ (∀ s t : State, armingLaw s → step s = .next t → armingLaw t)
  ∧ (∀ (s t : State) (l : LineId), bridgeLaw s → step s = .next t → (t.ls l).bridge ≠ (s.ls l).bridge →
      (t.ls l).bridge = Bridge.allOff ∨ (s.ls l).bridge = Bridge.allOff)
  ∧ (∀ (s t : State) (l : LineId), bridgeLaw s → gapLaw s → s.pending = [] → step s = .next t →
      (t.ls l).bridge ≠ (s.ls l).bridge → (t.ls l).bridge = Bridge.allOff ∨ restedTwo s l)

/-- R158: once the freeze is set no command but a power-on reset clears it or changes a live calibration. -/
def Obligations.FreezeLasts : Prop :=
  ∀ (c : Instr) (s t : State), notPowerOn c → frozenLaw s → exec c s = .next t →
    frozenLaw t ∧ ∀ l : LineId, t.liveCal l = s.liveCal l

/-- R47: no command but CLEAR_TOTAL and a power-on reset decreases a total. The write of a CLEAR_TOTAL that ends with
OK is that command, whether as its own row or as HOST_FORWARDED_COMPLETION (log 5); where it is in hand, WAITING at a
FREE port, its grant came before either row (log 6, 7). -/
def Obligations.TotalsNeverDecrease : Prop :=
  ∀ (c : Instr) (s t : State) (l : LineId), notPowerOn c →
    (clearTotalInHand s →
      (∀ tag operand, c ≠ .clearTotal tag operand) ∧ ∀ data, c ≠ .hostForwardedCompletion false data) →
    exec c s = .next t →
    (s.sru l).forward.toNat ≤ (t.sru l).forward.toNat ∧ (s.sru l).reverse.toNat ≤ (t.sru l).reverse.toNat

end
end

