-- ==== Sys2Proof/Laws/State.lean ====
section
/-! SUPPORT. What each update of State leaves as it was, and what it writes: one small lemma a field, true by rfl. -/

namespace Sys2Proof.Machine

/-! ## One element of a row -/

@[simp] theorem modAt_same {α : Type} {n : Nat} (v : Vector α n) (i : Fin n) (f : α → α) :
    (modAt v i f)[i.val] = f v[i.val] := by
  simp [modAt]

theorem modAt_other {α : Type} {n : Nat} (v : Vector α n) (i j : Fin n) (f : α → α) (h : j ≠ i) :
    (modAt v i f)[j.val] = v[j.val] := by
  have h' : i.val ≠ j.val := fun e => h (Fin.ext e.symm)
  simp [modAt, h']

/-- A fold keeps what each of its steps keeps. -/
theorem foldl_keeps {σ α β : Type} (f : σ → β → σ) (g : σ → α) (h : ∀ t x, g (f t x) = g t) (l : List β) (s : σ) :
    g (l.foldl f s) = g s := by
  induction l generalizing s with
  | nil => rfl
  | cons x rest ih => exact (ih (f s x)).trans (h s x)

/-! ## Updates of one block -/

@[simp] theorem modLine_cu (s : State) (l : LineId) (f : Line → Line) : (s.modLine l f).cu = s.cu := rfl
@[simp] theorem modLine_de (s : State) (l : LineId) (f : Line → Line) : (s.modLine l f).de = s.de := rfl
@[simp] theorem modLine_nu (s : State) (l : LineId) (f : Line → Line) : (s.modLine l f).nu = s.nu := rfl
@[simp] theorem modLine_mp (s : State) (l : LineId) (f : Line → Line) : (s.modLine l f).mp = s.mp := rfl
@[simp] theorem modLine_wu (s : State) (l : LineId) (f : Line → Line) : (s.modLine l f).wu = s.wu := rfl
@[simp] theorem modLine_pins (s : State) (l : LineId) (f : Line → Line) : (s.modLine l f).pins = s.pins := rfl
@[simp] theorem modLine_clock (s : State) (l : LineId) (f : Line → Line) : (s.modLine l f).clock = s.clock := rfl
@[simp] theorem modLine_free (s : State) (l : LineId) (f : Line → Line) : (s.modLine l f).free = s.free := rfl
@[simp] theorem modLine_pending (s : State) (l : LineId) (f : Line → Line) : (s.modLine l f).pending = s.pending := rfl
@[simp] theorem modLine_awaited (s : State) (l : LineId) (f : Line → Line) : (s.modLine l f).awaited = s.awaited := rfl
@[simp] theorem modLs_cu (s : State) (l : LineId) (f : Sequencer → Sequencer) : (s.modLs l f).cu = s.cu := rfl
@[simp] theorem modLs_de (s : State) (l : LineId) (f : Sequencer → Sequencer) : (s.modLs l f).de = s.de := rfl
@[simp] theorem modLs_nu (s : State) (l : LineId) (f : Sequencer → Sequencer) : (s.modLs l f).nu = s.nu := rfl
@[simp] theorem modLs_mp (s : State) (l : LineId) (f : Sequencer → Sequencer) : (s.modLs l f).mp = s.mp := rfl
@[simp] theorem modLs_wu (s : State) (l : LineId) (f : Sequencer → Sequencer) : (s.modLs l f).wu = s.wu := rfl
@[simp] theorem modLs_pins (s : State) (l : LineId) (f : Sequencer → Sequencer) : (s.modLs l f).pins = s.pins := rfl
@[simp] theorem modLs_clock (s : State) (l : LineId) (f : Sequencer → Sequencer) : (s.modLs l f).clock = s.clock := rfl
@[simp] theorem modLs_free (s : State) (l : LineId) (f : Sequencer → Sequencer) : (s.modLs l f).free = s.free := rfl
@[simp] theorem modLs_pending (s : State) (l : LineId) (f : Sequencer → Sequencer) : (s.modLs l f).pending = s.pending := rfl
@[simp] theorem modLs_awaited (s : State) (l : LineId) (f : Sequencer → Sequencer) : (s.modLs l f).awaited = s.awaited := rfl
@[simp] theorem modSru_cu (s : State) (l : LineId) (f : Sru → Sru) : (s.modSru l f).cu = s.cu := rfl
@[simp] theorem modSru_de (s : State) (l : LineId) (f : Sru → Sru) : (s.modSru l f).de = s.de := rfl
@[simp] theorem modSru_nu (s : State) (l : LineId) (f : Sru → Sru) : (s.modSru l f).nu = s.nu := rfl
@[simp] theorem modSru_mp (s : State) (l : LineId) (f : Sru → Sru) : (s.modSru l f).mp = s.mp := rfl
@[simp] theorem modSru_wu (s : State) (l : LineId) (f : Sru → Sru) : (s.modSru l f).wu = s.wu := rfl
@[simp] theorem modSru_pins (s : State) (l : LineId) (f : Sru → Sru) : (s.modSru l f).pins = s.pins := rfl
@[simp] theorem modSru_clock (s : State) (l : LineId) (f : Sru → Sru) : (s.modSru l f).clock = s.clock := rfl
@[simp] theorem modSru_free (s : State) (l : LineId) (f : Sru → Sru) : (s.modSru l f).free = s.free := rfl
@[simp] theorem modSru_pending (s : State) (l : LineId) (f : Sru → Sru) : (s.modSru l f).pending = s.pending := rfl
@[simp] theorem modSru_awaited (s : State) (l : LineId) (f : Sru → Sru) : (s.modSru l f).awaited = s.awaited := rfl
@[simp] theorem modGzu_cu (s : State) (l : LineId) (f : Gzu → Gzu) : (s.modGzu l f).cu = s.cu := rfl
@[simp] theorem modGzu_de (s : State) (l : LineId) (f : Gzu → Gzu) : (s.modGzu l f).de = s.de := rfl
@[simp] theorem modGzu_nu (s : State) (l : LineId) (f : Gzu → Gzu) : (s.modGzu l f).nu = s.nu := rfl
@[simp] theorem modGzu_mp (s : State) (l : LineId) (f : Gzu → Gzu) : (s.modGzu l f).mp = s.mp := rfl
@[simp] theorem modGzu_wu (s : State) (l : LineId) (f : Gzu → Gzu) : (s.modGzu l f).wu = s.wu := rfl
@[simp] theorem modGzu_pins (s : State) (l : LineId) (f : Gzu → Gzu) : (s.modGzu l f).pins = s.pins := rfl
@[simp] theorem modGzu_clock (s : State) (l : LineId) (f : Gzu → Gzu) : (s.modGzu l f).clock = s.clock := rfl
@[simp] theorem modGzu_free (s : State) (l : LineId) (f : Gzu → Gzu) : (s.modGzu l f).free = s.free := rfl
@[simp] theorem modGzu_pending (s : State) (l : LineId) (f : Gzu → Gzu) : (s.modGzu l f).pending = s.pending := rfl
@[simp] theorem modGzu_awaited (s : State) (l : LineId) (f : Gzu → Gzu) : (s.modGzu l f).awaited = s.awaited := rfl
@[simp] theorem modCu_lines (s : State) (f : Cu → Cu) : (s.modCu f).lines = s.lines := rfl
@[simp] theorem modCu_de (s : State) (f : Cu → Cu) : (s.modCu f).de = s.de := rfl
@[simp] theorem modCu_nu (s : State) (f : Cu → Cu) : (s.modCu f).nu = s.nu := rfl
@[simp] theorem modCu_mp (s : State) (f : Cu → Cu) : (s.modCu f).mp = s.mp := rfl
@[simp] theorem modCu_wu (s : State) (f : Cu → Cu) : (s.modCu f).wu = s.wu := rfl
@[simp] theorem modCu_pins (s : State) (f : Cu → Cu) : (s.modCu f).pins = s.pins := rfl
@[simp] theorem modCu_clock (s : State) (f : Cu → Cu) : (s.modCu f).clock = s.clock := rfl
@[simp] theorem modCu_free (s : State) (f : Cu → Cu) : (s.modCu f).free = s.free := rfl
@[simp] theorem modCu_pending (s : State) (f : Cu → Cu) : (s.modCu f).pending = s.pending := rfl
@[simp] theorem modCu_awaited (s : State) (f : Cu → Cu) : (s.modCu f).awaited = s.awaited := rfl
@[simp] theorem modCopies_lines (s : State) (l : LineId) (f : LineCopies → LineCopies) : (s.modCopies l f).lines = s.lines := rfl
@[simp] theorem modCopies_de (s : State) (l : LineId) (f : LineCopies → LineCopies) : (s.modCopies l f).de = s.de := rfl
@[simp] theorem modCopies_nu (s : State) (l : LineId) (f : LineCopies → LineCopies) : (s.modCopies l f).nu = s.nu := rfl
@[simp] theorem modCopies_mp (s : State) (l : LineId) (f : LineCopies → LineCopies) : (s.modCopies l f).mp = s.mp := rfl
@[simp] theorem modCopies_wu (s : State) (l : LineId) (f : LineCopies → LineCopies) : (s.modCopies l f).wu = s.wu := rfl
@[simp] theorem modCopies_pins (s : State) (l : LineId) (f : LineCopies → LineCopies) : (s.modCopies l f).pins = s.pins := rfl
@[simp] theorem modCopies_clock (s : State) (l : LineId) (f : LineCopies → LineCopies) : (s.modCopies l f).clock = s.clock := rfl
@[simp] theorem modCopies_free (s : State) (l : LineId) (f : LineCopies → LineCopies) : (s.modCopies l f).free = s.free := rfl
@[simp] theorem modCopies_pending (s : State) (l : LineId) (f : LineCopies → LineCopies) : (s.modCopies l f).pending = s.pending := rfl
@[simp] theorem modCopies_awaited (s : State) (l : LineId) (f : LineCopies → LineCopies) : (s.modCopies l f).awaited = s.awaited := rfl
@[simp] theorem modDe_lines (s : State) (f : De → De) : (s.modDe f).lines = s.lines := rfl
@[simp] theorem modDe_cu (s : State) (f : De → De) : (s.modDe f).cu = s.cu := rfl
@[simp] theorem modDe_nu (s : State) (f : De → De) : (s.modDe f).nu = s.nu := rfl
@[simp] theorem modDe_mp (s : State) (f : De → De) : (s.modDe f).mp = s.mp := rfl
@[simp] theorem modDe_wu (s : State) (f : De → De) : (s.modDe f).wu = s.wu := rfl
@[simp] theorem modDe_pins (s : State) (f : De → De) : (s.modDe f).pins = s.pins := rfl
@[simp] theorem modDe_clock (s : State) (f : De → De) : (s.modDe f).clock = s.clock := rfl
@[simp] theorem modDe_free (s : State) (f : De → De) : (s.modDe f).free = s.free := rfl
@[simp] theorem modDe_pending (s : State) (f : De → De) : (s.modDe f).pending = s.pending := rfl
@[simp] theorem modDe_awaited (s : State) (f : De → De) : (s.modDe f).awaited = s.awaited := rfl
@[simp] theorem modRing_lines (s : State) (r : RingId) (f : RingDesc → RingDesc) : (s.modRing r f).lines = s.lines := rfl
@[simp] theorem modRing_cu (s : State) (r : RingId) (f : RingDesc → RingDesc) : (s.modRing r f).cu = s.cu := rfl
@[simp] theorem modRing_nu (s : State) (r : RingId) (f : RingDesc → RingDesc) : (s.modRing r f).nu = s.nu := rfl
@[simp] theorem modRing_mp (s : State) (r : RingId) (f : RingDesc → RingDesc) : (s.modRing r f).mp = s.mp := rfl
@[simp] theorem modRing_wu (s : State) (r : RingId) (f : RingDesc → RingDesc) : (s.modRing r f).wu = s.wu := rfl
@[simp] theorem modRing_pins (s : State) (r : RingId) (f : RingDesc → RingDesc) : (s.modRing r f).pins = s.pins := rfl
@[simp] theorem modRing_clock (s : State) (r : RingId) (f : RingDesc → RingDesc) : (s.modRing r f).clock = s.clock := rfl
@[simp] theorem modRing_free (s : State) (r : RingId) (f : RingDesc → RingDesc) : (s.modRing r f).free = s.free := rfl
@[simp] theorem modRing_pending (s : State) (r : RingId) (f : RingDesc → RingDesc) : (s.modRing r f).pending = s.pending := rfl
@[simp] theorem modRing_awaited (s : State) (r : RingId) (f : RingDesc → RingDesc) : (s.modRing r f).awaited = s.awaited := rfl
@[simp] theorem modStaging_lines (s : State) (l : LineId) (f : Staging → Staging) : (s.modStaging l f).lines = s.lines := rfl
@[simp] theorem modStaging_cu (s : State) (l : LineId) (f : Staging → Staging) : (s.modStaging l f).cu = s.cu := rfl
@[simp] theorem modStaging_nu (s : State) (l : LineId) (f : Staging → Staging) : (s.modStaging l f).nu = s.nu := rfl
@[simp] theorem modStaging_mp (s : State) (l : LineId) (f : Staging → Staging) : (s.modStaging l f).mp = s.mp := rfl
@[simp] theorem modStaging_wu (s : State) (l : LineId) (f : Staging → Staging) : (s.modStaging l f).wu = s.wu := rfl
@[simp] theorem modStaging_pins (s : State) (l : LineId) (f : Staging → Staging) : (s.modStaging l f).pins = s.pins := rfl
@[simp] theorem modStaging_clock (s : State) (l : LineId) (f : Staging → Staging) : (s.modStaging l f).clock = s.clock := rfl
@[simp] theorem modStaging_free (s : State) (l : LineId) (f : Staging → Staging) : (s.modStaging l f).free = s.free := rfl
@[simp] theorem modStaging_pending (s : State) (l : LineId) (f : Staging → Staging) : (s.modStaging l f).pending = s.pending := rfl
@[simp] theorem modStaging_awaited (s : State) (l : LineId) (f : Staging → Staging) : (s.modStaging l f).awaited = s.awaited := rfl
@[simp] theorem modPage_lines (s : State) (p : PageId) (f : PageMark → PageMark) : (s.modPage p f).lines = s.lines := rfl
@[simp] theorem modPage_cu (s : State) (p : PageId) (f : PageMark → PageMark) : (s.modPage p f).cu = s.cu := rfl
@[simp] theorem modPage_nu (s : State) (p : PageId) (f : PageMark → PageMark) : (s.modPage p f).nu = s.nu := rfl
@[simp] theorem modPage_mp (s : State) (p : PageId) (f : PageMark → PageMark) : (s.modPage p f).mp = s.mp := rfl
@[simp] theorem modPage_wu (s : State) (p : PageId) (f : PageMark → PageMark) : (s.modPage p f).wu = s.wu := rfl
@[simp] theorem modPage_pins (s : State) (p : PageId) (f : PageMark → PageMark) : (s.modPage p f).pins = s.pins := rfl
@[simp] theorem modPage_clock (s : State) (p : PageId) (f : PageMark → PageMark) : (s.modPage p f).clock = s.clock := rfl
@[simp] theorem modPage_free (s : State) (p : PageId) (f : PageMark → PageMark) : (s.modPage p f).free = s.free := rfl
@[simp] theorem modPage_pending (s : State) (p : PageId) (f : PageMark → PageMark) : (s.modPage p f).pending = s.pending := rfl
@[simp] theorem modPage_awaited (s : State) (p : PageId) (f : PageMark → PageMark) : (s.modPage p f).awaited = s.awaited := rfl
@[simp] theorem markPage_lines (s : State) (p : PageId) : (s.markPage p).lines = s.lines := rfl
@[simp] theorem markPage_cu (s : State) (p : PageId) : (s.markPage p).cu = s.cu := rfl
@[simp] theorem markPage_nu (s : State) (p : PageId) : (s.markPage p).nu = s.nu := rfl
@[simp] theorem markPage_mp (s : State) (p : PageId) : (s.markPage p).mp = s.mp := rfl
@[simp] theorem markPage_wu (s : State) (p : PageId) : (s.markPage p).wu = s.wu := rfl
@[simp] theorem markPage_pins (s : State) (p : PageId) : (s.markPage p).pins = s.pins := rfl
@[simp] theorem markPage_clock (s : State) (p : PageId) : (s.markPage p).clock = s.clock := rfl
@[simp] theorem markPage_free (s : State) (p : PageId) : (s.markPage p).free = s.free := rfl
@[simp] theorem markPage_pending (s : State) (p : PageId) : (s.markPage p).pending = s.pending := rfl
@[simp] theorem markPage_awaited (s : State) (p : PageId) : (s.markPage p).awaited = s.awaited := rfl
@[simp] theorem markLine_lines (s : State) (l : LineId) : (s.markLine l).lines = s.lines := rfl
@[simp] theorem markLine_cu (s : State) (l : LineId) : (s.markLine l).cu = s.cu := rfl
@[simp] theorem markLine_nu (s : State) (l : LineId) : (s.markLine l).nu = s.nu := rfl
@[simp] theorem markLine_mp (s : State) (l : LineId) : (s.markLine l).mp = s.mp := rfl
@[simp] theorem markLine_wu (s : State) (l : LineId) : (s.markLine l).wu = s.wu := rfl
@[simp] theorem markLine_pins (s : State) (l : LineId) : (s.markLine l).pins = s.pins := rfl
@[simp] theorem markLine_clock (s : State) (l : LineId) : (s.markLine l).clock = s.clock := rfl
@[simp] theorem markLine_free (s : State) (l : LineId) : (s.markLine l).free = s.free := rfl
@[simp] theorem markLine_pending (s : State) (l : LineId) : (s.markLine l).pending = s.pending := rfl
@[simp] theorem markLine_awaited (s : State) (l : LineId) : (s.markLine l).awaited = s.awaited := rfl
@[simp] theorem markPart_lines (s : State) : (s.markPart).lines = s.lines := rfl
@[simp] theorem markPart_cu (s : State) : (s.markPart).cu = s.cu := rfl
@[simp] theorem markPart_nu (s : State) : (s.markPart).nu = s.nu := rfl
@[simp] theorem markPart_mp (s : State) : (s.markPart).mp = s.mp := rfl
@[simp] theorem markPart_wu (s : State) : (s.markPart).wu = s.wu := rfl
@[simp] theorem markPart_pins (s : State) : (s.markPart).pins = s.pins := rfl
@[simp] theorem markPart_clock (s : State) : (s.markPart).clock = s.clock := rfl
@[simp] theorem markPart_free (s : State) : (s.markPart).free = s.free := rfl
@[simp] theorem markPart_pending (s : State) : (s.markPart).pending = s.pending := rfl
@[simp] theorem markPart_awaited (s : State) : (s.markPart).awaited = s.awaited := rfl
@[simp] theorem markStatus_lines (s : State) : (s.markStatus).lines = s.lines := rfl
@[simp] theorem markStatus_cu (s : State) : (s.markStatus).cu = s.cu := rfl
@[simp] theorem markStatus_nu (s : State) : (s.markStatus).nu = s.nu := rfl
@[simp] theorem markStatus_mp (s : State) : (s.markStatus).mp = s.mp := rfl
@[simp] theorem markStatus_wu (s : State) : (s.markStatus).wu = s.wu := rfl
@[simp] theorem markStatus_pins (s : State) : (s.markStatus).pins = s.pins := rfl
@[simp] theorem markStatus_clock (s : State) : (s.markStatus).clock = s.clock := rfl
@[simp] theorem markStatus_free (s : State) : (s.markStatus).free = s.free := rfl
@[simp] theorem markStatus_pending (s : State) : (s.markStatus).pending = s.pending := rfl
@[simp] theorem markStatus_awaited (s : State) : (s.markStatus).awaited = s.awaited := rfl
@[simp] theorem modNu_lines (s : State) (f : Nu → Nu) : (s.modNu f).lines = s.lines := rfl
@[simp] theorem modNu_cu (s : State) (f : Nu → Nu) : (s.modNu f).cu = s.cu := rfl
@[simp] theorem modNu_de (s : State) (f : Nu → Nu) : (s.modNu f).de = s.de := rfl
@[simp] theorem modNu_mp (s : State) (f : Nu → Nu) : (s.modNu f).mp = s.mp := rfl
@[simp] theorem modNu_wu (s : State) (f : Nu → Nu) : (s.modNu f).wu = s.wu := rfl
@[simp] theorem modNu_pins (s : State) (f : Nu → Nu) : (s.modNu f).pins = s.pins := rfl
@[simp] theorem modNu_clock (s : State) (f : Nu → Nu) : (s.modNu f).clock = s.clock := rfl
@[simp] theorem modNu_free (s : State) (f : Nu → Nu) : (s.modNu f).free = s.free := rfl
@[simp] theorem modNu_pending (s : State) (f : Nu → Nu) : (s.modNu f).pending = s.pending := rfl
@[simp] theorem modNu_awaited (s : State) (f : Nu → Nu) : (s.modNu f).awaited = s.awaited := rfl
@[simp] theorem modMp_lines (s : State) (f : Mp → Mp) : (s.modMp f).lines = s.lines := rfl
@[simp] theorem modMp_cu (s : State) (f : Mp → Mp) : (s.modMp f).cu = s.cu := rfl
@[simp] theorem modMp_de (s : State) (f : Mp → Mp) : (s.modMp f).de = s.de := rfl
@[simp] theorem modMp_nu (s : State) (f : Mp → Mp) : (s.modMp f).nu = s.nu := rfl
@[simp] theorem modMp_wu (s : State) (f : Mp → Mp) : (s.modMp f).wu = s.wu := rfl
@[simp] theorem modMp_pins (s : State) (f : Mp → Mp) : (s.modMp f).pins = s.pins := rfl
@[simp] theorem modMp_clock (s : State) (f : Mp → Mp) : (s.modMp f).clock = s.clock := rfl
@[simp] theorem modMp_free (s : State) (f : Mp → Mp) : (s.modMp f).free = s.free := rfl
@[simp] theorem modMp_pending (s : State) (f : Mp → Mp) : (s.modMp f).pending = s.pending := rfl
@[simp] theorem modMp_awaited (s : State) (f : Mp → Mp) : (s.modMp f).awaited = s.awaited := rfl
@[simp] theorem modWu_lines (s : State) (f : Wu → Wu) : (s.modWu f).lines = s.lines := rfl
@[simp] theorem modWu_cu (s : State) (f : Wu → Wu) : (s.modWu f).cu = s.cu := rfl
@[simp] theorem modWu_de (s : State) (f : Wu → Wu) : (s.modWu f).de = s.de := rfl
@[simp] theorem modWu_nu (s : State) (f : Wu → Wu) : (s.modWu f).nu = s.nu := rfl
@[simp] theorem modWu_mp (s : State) (f : Wu → Wu) : (s.modWu f).mp = s.mp := rfl
@[simp] theorem modWu_pins (s : State) (f : Wu → Wu) : (s.modWu f).pins = s.pins := rfl
@[simp] theorem modWu_clock (s : State) (f : Wu → Wu) : (s.modWu f).clock = s.clock := rfl
@[simp] theorem modWu_free (s : State) (f : Wu → Wu) : (s.modWu f).free = s.free := rfl
@[simp] theorem modWu_pending (s : State) (f : Wu → Wu) : (s.modWu f).pending = s.pending := rfl
@[simp] theorem modWu_awaited (s : State) (f : Wu → Wu) : (s.modWu f).awaited = s.awaited := rfl
@[simp] theorem modWindow_lines (s : State) (w : WindowId) (f : Window → Window) : (s.modWindow w f).lines = s.lines := rfl
@[simp] theorem modWindow_cu (s : State) (w : WindowId) (f : Window → Window) : (s.modWindow w f).cu = s.cu := rfl
@[simp] theorem modWindow_de (s : State) (w : WindowId) (f : Window → Window) : (s.modWindow w f).de = s.de := rfl
@[simp] theorem modWindow_nu (s : State) (w : WindowId) (f : Window → Window) : (s.modWindow w f).nu = s.nu := rfl
@[simp] theorem modWindow_mp (s : State) (w : WindowId) (f : Window → Window) : (s.modWindow w f).mp = s.mp := rfl
@[simp] theorem modWindow_pins (s : State) (w : WindowId) (f : Window → Window) : (s.modWindow w f).pins = s.pins := rfl
@[simp] theorem modWindow_clock (s : State) (w : WindowId) (f : Window → Window) : (s.modWindow w f).clock = s.clock := rfl
@[simp] theorem modWindow_free (s : State) (w : WindowId) (f : Window → Window) : (s.modWindow w f).free = s.free := rfl
@[simp] theorem modWindow_pending (s : State) (w : WindowId) (f : Window → Window) : (s.modWindow w f).pending = s.pending := rfl
@[simp] theorem modWindow_awaited (s : State) (w : WindowId) (f : Window → Window) : (s.modWindow w f).awaited = s.awaited := rfl
@[simp] theorem usedFree_lines (s : State) : (s.usedFree).lines = s.lines := rfl
@[simp] theorem usedFree_cu (s : State) : (s.usedFree).cu = s.cu := rfl
@[simp] theorem usedFree_de (s : State) : (s.usedFree).de = s.de := rfl
@[simp] theorem usedFree_nu (s : State) : (s.usedFree).nu = s.nu := rfl
@[simp] theorem usedFree_mp (s : State) : (s.usedFree).mp = s.mp := rfl
@[simp] theorem usedFree_wu (s : State) : (s.usedFree).wu = s.wu := rfl
@[simp] theorem usedFree_pins (s : State) : (s.usedFree).pins = s.pins := rfl
@[simp] theorem usedFree_clock (s : State) : (s.usedFree).clock = s.clock := rfl
@[simp] theorem usedFree_pending (s : State) : (s.usedFree).pending = s.pending := rfl
@[simp] theorem usedFree_awaited (s : State) : (s.usedFree).awaited = s.awaited := rfl
@[simp] theorem markChanged_lines (s : State) (t : State) : (State.markChanged s t).lines = t.lines := rfl
@[simp] theorem markChanged_cu (s : State) (t : State) : (State.markChanged s t).cu = t.cu := rfl
@[simp] theorem markChanged_nu (s : State) (t : State) : (State.markChanged s t).nu = t.nu := rfl
@[simp] theorem markChanged_mp (s : State) (t : State) : (State.markChanged s t).mp = t.mp := rfl
@[simp] theorem markChanged_wu (s : State) (t : State) : (State.markChanged s t).wu = t.wu := rfl
@[simp] theorem markChanged_pins (s : State) (t : State) : (State.markChanged s t).pins = t.pins := rfl
@[simp] theorem markChanged_clock (s : State) (t : State) : (State.markChanged s t).clock = t.clock := rfl
@[simp] theorem markChanged_free (s : State) (t : State) : (State.markChanged s t).free = t.free := rfl
@[simp] theorem markChanged_pending (s : State) (t : State) : (State.markChanged s t).pending = t.pending := rfl
@[simp] theorem reevalAttn_lines (s : State) : (s.reevalAttn).lines = s.lines := rfl
@[simp] theorem reevalAttn_cu (s : State) : (s.reevalAttn).cu = s.cu := rfl
@[simp] theorem reevalAttn_de (s : State) : (s.reevalAttn).de = s.de := rfl
@[simp] theorem reevalAttn_mp (s : State) : (s.reevalAttn).mp = s.mp := rfl
@[simp] theorem reevalAttn_wu (s : State) : (s.reevalAttn).wu = s.wu := rfl
@[simp] theorem reevalAttn_pins (s : State) : (s.reevalAttn).pins = s.pins := rfl
@[simp] theorem reevalAttn_clock (s : State) : (s.reevalAttn).clock = s.clock := rfl
@[simp] theorem reevalAttn_free (s : State) : (s.reevalAttn).free = s.free := rfl
@[simp] theorem reevalAttn_pending (s : State) : (s.reevalAttn).pending = s.pending := rfl
@[simp] theorem reevalAttn_awaited (s : State) : (s.reevalAttn).awaited = s.awaited := rfl

/-! ## Folds over lines, zones, windows, pages -/

@[simp] theorem foldl_lines {β : Type} (f : State → β → State) (l : List β) (s : State)
    (h : ∀ t x, (f t x).lines = t.lines) : (l.foldl f s).lines = s.lines :=
  foldl_keeps f State.lines h l s
@[simp] theorem foldl_cu {β : Type} (f : State → β → State) (l : List β) (s : State)
    (h : ∀ t x, (f t x).cu = t.cu) : (l.foldl f s).cu = s.cu :=
  foldl_keeps f State.cu h l s
@[simp] theorem foldl_de {β : Type} (f : State → β → State) (l : List β) (s : State)
    (h : ∀ t x, (f t x).de = t.de) : (l.foldl f s).de = s.de :=
  foldl_keeps f State.de h l s
@[simp] theorem foldl_nu {β : Type} (f : State → β → State) (l : List β) (s : State)
    (h : ∀ t x, (f t x).nu = t.nu) : (l.foldl f s).nu = s.nu :=
  foldl_keeps f State.nu h l s
@[simp] theorem foldl_mp {β : Type} (f : State → β → State) (l : List β) (s : State)
    (h : ∀ t x, (f t x).mp = t.mp) : (l.foldl f s).mp = s.mp :=
  foldl_keeps f State.mp h l s
@[simp] theorem foldl_wu {β : Type} (f : State → β → State) (l : List β) (s : State)
    (h : ∀ t x, (f t x).wu = t.wu) : (l.foldl f s).wu = s.wu :=
  foldl_keeps f State.wu h l s
@[simp] theorem foldl_pins {β : Type} (f : State → β → State) (l : List β) (s : State)
    (h : ∀ t x, (f t x).pins = t.pins) : (l.foldl f s).pins = s.pins :=
  foldl_keeps f State.pins h l s
@[simp] theorem foldl_clock {β : Type} (f : State → β → State) (l : List β) (s : State)
    (h : ∀ t x, (f t x).clock = t.clock) : (l.foldl f s).clock = s.clock :=
  foldl_keeps f State.clock h l s
@[simp] theorem foldl_free {β : Type} (f : State → β → State) (l : List β) (s : State)
    (h : ∀ t x, (f t x).free = t.free) : (l.foldl f s).free = s.free :=
  foldl_keeps f State.free h l s
@[simp] theorem foldl_pending {β : Type} (f : State → β → State) (l : List β) (s : State)
    (h : ∀ t x, (f t x).pending = t.pending) : (l.foldl f s).pending = s.pending :=
  foldl_keeps f State.pending h l s

/-! ## What the updates write -/

@[simp] theorem modCu_cu (s : State) (f : Cu → Cu) : (s.modCu f).cu = f s.cu := rfl
@[simp] theorem modDe_de (s : State) (f : De → De) : (s.modDe f).de = f s.de := rfl
@[simp] theorem modNu_nu (s : State) (f : Nu → Nu) : (s.modNu f).nu = f s.nu := rfl
@[simp] theorem modMp_mp (s : State) (f : Mp → Mp) : (s.modMp f).mp = f s.mp := rfl
@[simp] theorem modWu_wu (s : State) (f : Wu → Wu) : (s.modWu f).wu = f s.wu := rfl
@[simp] theorem usedFree_free (s : State) : s.usedFree.free = s.free + 1 := rfl

@[simp] theorem modLs_ls (s : State) (l : LineId) (f : Sequencer → Sequencer) : (s.modLs l f).ls l = f (s.ls l) := by
  simp [State.ls, State.modLs, State.modLine]
@[simp] theorem modLs_sru (s : State) (l k : LineId) (f : Sequencer → Sequencer) : (s.modLs l f).sru k = s.sru k := by
  by_cases h : k = l
  · subst h; simp [State.sru, State.modLs, State.modLine]
  · simp [State.sru, State.modLs, State.modLine, modAt_other _ _ _ _ h]
@[simp] theorem modLs_gzu (s : State) (l k : LineId) (f : Sequencer → Sequencer) : (s.modLs l f).gzu k = s.gzu k := by
  by_cases h : k = l
  · subst h; simp [State.gzu, State.modLs, State.modLine]
  · simp [State.gzu, State.modLs, State.modLine, modAt_other _ _ _ _ h]
@[simp] theorem modSru_sru (s : State) (l : LineId) (f : Sru → Sru) : (s.modSru l f).sru l = f (s.sru l) := by
  simp [State.sru, State.modSru, State.modLine]
@[simp] theorem modSru_ls (s : State) (l k : LineId) (f : Sru → Sru) : (s.modSru l f).ls k = s.ls k := by
  by_cases h : k = l
  · subst h; simp [State.ls, State.modSru, State.modLine]
  · simp [State.ls, State.modSru, State.modLine, modAt_other _ _ _ _ h]
@[simp] theorem modSru_gzu (s : State) (l k : LineId) (f : Sru → Sru) : (s.modSru l f).gzu k = s.gzu k := by
  by_cases h : k = l
  · subst h; simp [State.gzu, State.modSru, State.modLine]
  · simp [State.gzu, State.modSru, State.modLine, modAt_other _ _ _ _ h]
@[simp] theorem modGzu_gzu (s : State) (l : LineId) (f : Gzu → Gzu) : (s.modGzu l f).gzu l = f (s.gzu l) := by
  simp [State.gzu, State.modGzu, State.modLine]
@[simp] theorem modGzu_ls (s : State) (l k : LineId) (f : Gzu → Gzu) : (s.modGzu l f).ls k = s.ls k := by
  by_cases h : k = l
  · subst h; simp [State.ls, State.modGzu, State.modLine]
  · simp [State.ls, State.modGzu, State.modLine, modAt_other _ _ _ _ h]
@[simp] theorem modGzu_sru (s : State) (l k : LineId) (f : Gzu → Gzu) : (s.modGzu l f).sru k = s.sru k := by
  by_cases h : k = l
  · subst h; simp [State.sru, State.modGzu, State.modLine]
  · simp [State.sru, State.modGzu, State.modLine, modAt_other _ _ _ _ h]

/-- An update of one line leaves the others. -/
theorem modLine_other (s : State) (l k : LineId) (f : Line → Line) (h : k ≠ l) :
    (s.modLine l f).lines[k] = s.lines[k] := modAt_other _ _ _ _ h
theorem modLs_other (s : State) (l k : LineId) (f : Sequencer → Sequencer) (h : k ≠ l) :
    (s.modLs l f).ls k = s.ls k := congrArg Line.ls (modLine_other s l k _ h)
theorem modSru_other (s : State) (l k : LineId) (f : Sru → Sru) (h : k ≠ l) :
    (s.modSru l f).sru k = s.sru k := congrArg Line.sru (modLine_other s l k _ h)
theorem modGzu_other (s : State) (l k : LineId) (f : Gzu → Gzu) (h : k ≠ l) :
    (s.modGzu l f).gzu k = s.gzu k := congrArg Line.gzu (modLine_other s l k _ h)

@[simp] theorem modCopies_copies (s : State) (l : LineId) (f : LineCopies → LineCopies) :
    (s.modCopies l f).copies l = f (s.copies l) := by
  simp [State.copies, State.modCopies]
theorem modCopies_other (s : State) (l k : LineId) (f : LineCopies → LineCopies) (h : k ≠ l) :
    (s.modCopies l f).copies k = s.copies k := by
  simp [State.copies, State.modCopies, modAt_other _ _ _ _ h]
@[simp] theorem modRing_ring (s : State) (r : RingId) (f : RingDesc → RingDesc) :
    (s.modRing r f).ring r = f (s.ring r) := by
  simp [State.ring, State.modRing]
theorem modRing_other (s : State) (r q : RingId) (f : RingDesc → RingDesc) (h : q ≠ r) :
    (s.modRing r f).ring q = s.ring q := by
  simp [State.ring, State.modRing, modAt_other _ _ _ _ h]
@[simp] theorem modStaging_staging (s : State) (l : LineId) (f : Staging → Staging) :
    (s.modStaging l f).staging l = f (s.staging l) := by
  simp [State.staging, State.modStaging]
theorem modStaging_other (s : State) (l k : LineId) (f : Staging → Staging) (h : k ≠ l) :
    (s.modStaging l f).staging k = s.staging k := by
  simp [State.staging, State.modStaging, modAt_other _ _ _ _ h]
@[simp] theorem modPage_page (s : State) (p : PageId) (f : PageMark → PageMark) :
    (s.modPage p f).page p = f (s.page p) := by
  simp [State.page, State.modPage]
theorem modPage_other (s : State) (p q : PageId) (f : PageMark → PageMark) (h : q ≠ p) :
    (s.modPage p f).page q = s.page q := by
  simp [State.page, State.modPage, modAt_other _ _ _ _ h]
@[simp] theorem modWindow_window (s : State) (w : WindowId) (f : Window → Window) :
    (s.modWindow w f).window w = f (s.window w) := by
  simp [State.window, State.modWindow]
theorem modWindow_other (s : State) (w v : WindowId) (f : Window → Window) (h : v ≠ w) :
    (s.modWindow w f).window v = s.window v := by
  simp [State.window, State.modWindow, modAt_other _ _ _ _ h]

/-- Marking pages changes the dirty marks alone. -/
@[simp] theorem markChanged_page (s t : State) (p : PageId) :
    (State.markChanged s t).page p =
      { t.page p with dirty := (t.page p).dirty || s.pageDiffers t p } := by
  simp [State.page, State.markChanged]

end Sys2Proof.Machine
end

