-- ==== Sys2Proof/Laws/Frames.lean ====
section
/-! SUPPORT. What each shared operation leaves as it was: one lemma an operation, naming every block it does not
touch. -/

namespace Sys2Proof.Machine

@[simp] theorem dispose_frame (s : State) (k : Kind) (src : Source) (level : Nat) (detail : Half) :
    (s.dispose k src level detail).lines = s.lines ∧
    (s.dispose k src level detail).cu = s.cu ∧
    (s.dispose k src level detail).de = s.de ∧
    (s.dispose k src level detail).mp = s.mp ∧
    (s.dispose k src level detail).wu = s.wu ∧
    (s.dispose k src level detail).pins = s.pins ∧
    (s.dispose k src level detail).clock = s.clock ∧
    (s.dispose k src level detail).free = s.free ∧
    (s.dispose k src level detail).pending = s.pending := by
  simp only [State.dispose]
  (repeat' split) <;> simp

@[simp] theorem raise_frame (s : State) (k : Kind) (src : Source) (detail : Nat) :
    (s.raise k src detail).lines = s.lines ∧
    (s.raise k src detail).cu = s.cu ∧
    (s.raise k src detail).de = s.de ∧
    (s.raise k src detail).mp = s.mp ∧
    (s.raise k src detail).wu = s.wu ∧
    (s.raise k src detail).pins = s.pins ∧
    (s.raise k src detail).clock = s.clock ∧
    (s.raise k src detail).free = s.free ∧
    (s.raise k src detail).pending = s.pending := by
  simp only [State.raise]
  (repeat' split) <;> simp

@[simp] theorem returnWaitingOffer_frame (s : State) :
    s.returnWaitingOffer.lines = s.lines ∧
    s.returnWaitingOffer.cu = s.cu ∧
    s.returnWaitingOffer.de = s.de ∧
    s.returnWaitingOffer.mp = s.mp ∧
    s.returnWaitingOffer.wu = s.wu ∧
    s.returnWaitingOffer.pins = s.pins ∧
    s.returnWaitingOffer.clock = s.clock ∧
    s.returnWaitingOffer.free = s.free ∧
    s.returnWaitingOffer.pending = s.pending := by
  simp only [State.returnWaitingOffer]
  simp

@[simp] theorem consumed_frame (s : State) (c : Nat) :
    (s.consumed c).lines = s.lines ∧
    (s.consumed c).cu = s.cu ∧
    (s.consumed c).de = s.de ∧
    (s.consumed c).mp = s.mp ∧
    (s.consumed c).wu = s.wu ∧
    (s.consumed c).pins = s.pins ∧
    (s.consumed c).clock = s.clock ∧
    (s.consumed c).free = s.free ∧
    (s.consumed c).pending = s.pending := by
  simp only [State.consumed]
  simp

@[simp] theorem entryDelivered_frame (s : State) :
    s.entryDelivered.lines = s.lines ∧
    s.entryDelivered.cu = s.cu ∧
    s.entryDelivered.mp = s.mp ∧
    s.entryDelivered.wu = s.wu ∧
    s.entryDelivered.pins = s.pins ∧
    s.entryDelivered.clock = s.clock ∧
    s.entryDelivered.free = s.free ∧
    s.entryDelivered.pending = s.pending := by
  simp only [State.entryDelivered]
  simp

@[simp] theorem entryReturned_frame (s : State) :
    s.entryReturned.lines = s.lines ∧
    s.entryReturned.cu = s.cu ∧
    s.entryReturned.mp = s.mp ∧
    s.entryReturned.wu = s.wu ∧
    s.entryReturned.pins = s.pins ∧
    s.entryReturned.clock = s.clock ∧
    s.entryReturned.free = s.free ∧
    s.entryReturned.pending = s.pending := by
  simp only [State.entryReturned]
  simp

@[simp] theorem reevalLalm_frame (s : State) (l : LineId) :
    (s.reevalLalm l).cu = s.cu ∧
    (s.reevalLalm l).de = s.de ∧
    (s.reevalLalm l).nu = s.nu ∧
    (s.reevalLalm l).mp = s.mp ∧
    (s.reevalLalm l).wu = s.wu ∧
    (s.reevalLalm l).pins = s.pins ∧
    (s.reevalLalm l).clock = s.clock ∧
    (s.reevalLalm l).free = s.free ∧
    (s.reevalLalm l).pending = s.pending := by
  simp only [State.reevalLalm]
  simp

@[simp] theorem reportAttendance_frame (s : State) (l : LineId) :
    (s.reportAttendance l).cu = s.cu ∧
    (s.reportAttendance l).de = s.de ∧
    (s.reportAttendance l).nu = s.nu ∧
    (s.reportAttendance l).mp = s.mp ∧
    (s.reportAttendance l).wu = s.wu ∧
    (s.reportAttendance l).pins = s.pins ∧
    (s.reportAttendance l).clock = s.clock ∧
    (s.reportAttendance l).free = s.free ∧
    (s.reportAttendance l).pending = s.pending := by
  simp only [State.reportAttendance]
  simp

@[simp] theorem reportAttendanceAll_frame (s : State) :
    s.reportAttendanceAll.cu = s.cu ∧
    s.reportAttendanceAll.de = s.de ∧
    s.reportAttendanceAll.nu = s.nu ∧
    s.reportAttendanceAll.mp = s.mp ∧
    s.reportAttendanceAll.wu = s.wu ∧
    s.reportAttendanceAll.pins = s.pins ∧
    s.reportAttendanceAll.clock = s.clock ∧
    s.reportAttendanceAll.free = s.free ∧
    s.reportAttendanceAll.pending = s.pending := by
  simp only [State.reportAttendanceAll]
  simp

@[simp] theorem rederiveAttendance_frame (s : State) (d : Nat) :
    (s.rederiveAttendance d).cu = s.cu ∧
    (s.rederiveAttendance d).mp = s.mp ∧
    (s.rederiveAttendance d).pins = s.pins ∧
    (s.rederiveAttendance d).clock = s.clock ∧
    (s.rederiveAttendance d).free = s.free ∧
    (s.rederiveAttendance d).pending = s.pending := by
  simp only [State.rederiveAttendance]
  (repeat' split) <;> simp

@[simp] theorem expireWindow_frame (s : State) (w : WindowId) :
    (s.expireWindow w).lines = s.lines ∧
    (s.expireWindow w).cu = s.cu ∧
    (s.expireWindow w).de = s.de ∧
    (s.expireWindow w).mp = s.mp ∧
    (s.expireWindow w).pins = s.pins ∧
    (s.expireWindow w).clock = s.clock ∧
    (s.expireWindow w).free = s.free ∧
    (s.expireWindow w).pending = s.pending := by
  simp only [State.expireWindow]
  simp

@[simp] theorem expireAll_frame (s : State) (ws : List WindowId) :
    (s.expireAll ws).cu = s.cu ∧
    (s.expireAll ws).mp = s.mp ∧
    (s.expireAll ws).pins = s.pins ∧
    (s.expireAll ws).clock = s.clock ∧
    (s.expireAll ws).free = s.free ∧
    (s.expireAll ws).pending = s.pending := by
  simp only [State.expireAll]
  simp

@[simp] theorem advanceWindows_frame (s : State) :
    s.advanceWindows.cu = s.cu ∧
    s.advanceWindows.mp = s.mp ∧
    s.advanceWindows.pins = s.pins ∧
    s.advanceWindows.clock = s.clock ∧
    s.advanceWindows.free = s.free ∧
    s.advanceWindows.pending = s.pending := by
  simp only [State.advanceWindows]
  simp

@[simp] theorem matchAll_frame (s : State) (a : Nat) (w : Bool) :
    (s.matchAll a w).cu = s.cu ∧
    (s.matchAll a w).mp = s.mp ∧
    (s.matchAll a w).pins = s.pins ∧
    (s.matchAll a w).clock = s.clock ∧
    (s.matchAll a w).free = s.free ∧
    (s.matchAll a w).pending = s.pending := by
  simp only [State.matchAll, rederiveAttendance_frame]
  exact ⟨foldl_cu _ _ _ (fun t x => by (try split) <;> simp),
    foldl_mp _ _ _ (fun t x => by (try split) <;> simp),
    foldl_pins _ _ _ (fun t x => by (try split) <;> simp),
    foldl_clock _ _ _ (fun t x => by (try split) <;> simp),
    foldl_free _ _ _ (fun t x => by (try split) <;> simp),
    foldl_pending _ _ _ (fun t x => by (try split) <;> simp)⟩

@[simp] theorem reportOwned_frame (s : State) (c : Nat) :
    (s.reportOwned c).lines = s.lines ∧
    (s.reportOwned c).cu = s.cu ∧
    (s.reportOwned c).de = s.de ∧
    (s.reportOwned c).mp = s.mp ∧
    (s.reportOwned c).pins = s.pins ∧
    (s.reportOwned c).clock = s.clock ∧
    (s.reportOwned c).free = s.free ∧
    (s.reportOwned c).pending = s.pending := by
  simp only [State.reportOwned]
  simp

@[simp] theorem reportGuard_frame (s : State) (w : WindowId) :
    (s.reportGuard w).lines = s.lines ∧
    (s.reportGuard w).cu = s.cu ∧
    (s.reportGuard w).de = s.de ∧
    (s.reportGuard w).mp = s.mp ∧
    (s.reportGuard w).pins = s.pins ∧
    (s.reportGuard w).clock = s.clock ∧
    (s.reportGuard w).free = s.free ∧
    (s.reportGuard w).pending = s.pending := by
  simp only [State.reportGuard]
  simp

@[simp] theorem reportSuppression_frame (s : State) (a : Addr) :
    (s.reportSuppression a).lines = s.lines ∧
    (s.reportSuppression a).cu = s.cu ∧
    (s.reportSuppression a).de = s.de ∧
    (s.reportSuppression a).mp = s.mp ∧
    (s.reportSuppression a).pins = s.pins ∧
    (s.reportSuppression a).clock = s.clock ∧
    (s.reportSuppression a).free = s.free ∧
    (s.reportSuppression a).pending = s.pending := by
  simp only [State.reportSuppression]
  (repeat' split) <;> simp

@[simp] theorem clearMatched_frame (s : State) :
    s.clearMatched.lines = s.lines ∧
    s.clearMatched.cu = s.cu ∧
    s.clearMatched.de = s.de ∧
    s.clearMatched.nu = s.nu ∧
    s.clearMatched.mp = s.mp ∧
    s.clearMatched.pins = s.pins ∧
    s.clearMatched.clock = s.clock ∧
    s.clearMatched.free = s.free ∧
    s.clearMatched.pending = s.pending := by
  simp only [State.clearMatched]
  simp

@[simp] theorem clearReported_frame (s : State) (v : Byte) :
    (s.clearReported v).lines = s.lines ∧
    (s.clearReported v).cu = s.cu ∧
    (s.clearReported v).de = s.de ∧
    (s.clearReported v).nu = s.nu ∧
    (s.clearReported v).mp = s.mp ∧
    (s.clearReported v).pins = s.pins ∧
    (s.clearReported v).clock = s.clock ∧
    (s.clearReported v).free = s.free ∧
    (s.clearReported v).pending = s.pending := by
  simp only [State.clearReported]
  simp

@[simp] theorem applyWindows_frame (s : State) (old : Bytes) (held : List WindowId) :
    (s.applyWindows old held).cu = s.cu ∧
    (s.applyWindows old held).mp = s.mp ∧
    (s.applyWindows old held).pins = s.pins ∧
    (s.applyWindows old held).clock = s.clock ∧
    (s.applyWindows old held).free = s.free ∧
    (s.applyWindows old held).pending = s.pending := by
  simp only [State.applyWindows]
  simp

@[simp] theorem trackSequence_frame (s : State) (l : LineId) (q : BitVec 4) :
    (s.trackSequence l q).cu = s.cu ∧
    (s.trackSequence l q).mp = s.mp ∧
    (s.trackSequence l q).wu = s.wu ∧
    (s.trackSequence l q).pins = s.pins ∧
    (s.trackSequence l q).clock = s.clock ∧
    (s.trackSequence l q).free = s.free ∧
    (s.trackSequence l q).pending = s.pending := by
  simp only [State.trackSequence]
  (repeat' split) <;> simp

@[simp] theorem frameHeard_frame (s : State) (l : LineId) :
    (s.frameHeard l).cu = s.cu ∧
    (s.frameHeard l).de = s.de ∧
    (s.frameHeard l).nu = s.nu ∧
    (s.frameHeard l).mp = s.mp ∧
    (s.frameHeard l).wu = s.wu ∧
    (s.frameHeard l).pins = s.pins ∧
    (s.frameHeard l).clock = s.clock ∧
    (s.frameHeard l).free = s.free ∧
    (s.frameHeard l).pending = s.pending := by
  simp only [State.frameHeard]
  (repeat' split) <;> simp

@[simp] theorem accumulate_frame (s : State) (l : LineId) (f : Frame) :
    (s.accumulate l f).cu = s.cu ∧
    (s.accumulate l f).de = s.de ∧
    (s.accumulate l f).nu = s.nu ∧
    (s.accumulate l f).mp = s.mp ∧
    (s.accumulate l f).wu = s.wu ∧
    (s.accumulate l f).pins = s.pins ∧
    (s.accumulate l f).clock = s.clock ∧
    (s.accumulate l f).free = s.free ∧
    (s.accumulate l f).pending = s.pending := by
  simp only [State.accumulate]
  (repeat' split) <;> simp

@[simp] theorem frameError_frame (s : State) (l : LineId) :
    (s.frameError l).cu = s.cu ∧
    (s.frameError l).nu = s.nu ∧
    (s.frameError l).mp = s.mp ∧
    (s.frameError l).wu = s.wu ∧
    (s.frameError l).pins = s.pins ∧
    (s.frameError l).clock = s.clock ∧
    (s.frameError l).free = s.free ∧
    (s.frameError l).pending = s.pending := by
  simp only [State.frameError]
  simp

@[simp] theorem takeFrame_frame (s : State) (l : LineId) (b : List Bool) (n : Nat) :
    (s.takeFrame l b n).cu = s.cu ∧
    (s.takeFrame l b n).mp = s.mp ∧
    (s.takeFrame l b n).wu = s.wu ∧
    (s.takeFrame l b n).pins = s.pins ∧
    (s.takeFrame l b n).clock = s.clock ∧
    (s.takeFrame l b n).free = s.free ∧
    (s.takeFrame l b n).pending = s.pending := by
  simp only [State.takeFrame]
  (repeat' split) <;> simp

@[simp] theorem receiverIdle_frame (s : State) (l : LineId) :
    (s.receiverIdle l).cu = s.cu ∧
    (s.receiverIdle l).de = s.de ∧
    (s.receiverIdle l).nu = s.nu ∧
    (s.receiverIdle l).mp = s.mp ∧
    (s.receiverIdle l).wu = s.wu ∧
    (s.receiverIdle l).pins = s.pins ∧
    (s.receiverIdle l).clock = s.clock ∧
    (s.receiverIdle l).free = s.free ∧
    (s.receiverIdle l).pending = s.pending := by
  simp only [State.receiverIdle]
  simp

@[simp] theorem frameEnds_frame (s : State) (l : LineId) (b : List Bool) :
    (s.frameEnds l b).cu = s.cu ∧
    (s.frameEnds l b).mp = s.mp ∧
    (s.frameEnds l b).wu = s.wu ∧
    (s.frameEnds l b).pins = s.pins ∧
    (s.frameEnds l b).clock = s.clock ∧
    (s.frameEnds l b).free = s.free ∧
    (s.frameEnds l b).pending = s.pending := by
  simp only [State.frameEnds]
  (repeat' split) <;> simp

@[simp] theorem silenceBegins_frame (s : State) (l : LineId) :
    (s.silenceBegins l).cu = s.cu ∧
    (s.silenceBegins l).mp = s.mp ∧
    (s.silenceBegins l).wu = s.wu ∧
    (s.silenceBegins l).pins = s.pins ∧
    (s.silenceBegins l).clock = s.clock ∧
    (s.silenceBegins l).free = s.free ∧
    (s.silenceBegins l).pending = s.pending := by
  simp only [State.silenceBegins]
  simp

@[simp] theorem raiseZone_frame (s : State) (l : LineId) (z : Fin 4) (e : ZoneEvent) :
    (s.raiseZone l z e).lines = s.lines ∧
    (s.raiseZone l z e).cu = s.cu ∧
    (s.raiseZone l z e).de = s.de ∧
    (s.raiseZone l z e).mp = s.mp ∧
    (s.raiseZone l z e).wu = s.wu ∧
    (s.raiseZone l z e).pins = s.pins ∧
    (s.raiseZone l z e).clock = s.clock ∧
    (s.raiseZone l z e).free = s.free ∧
    (s.raiseZone l z e).pending = s.pending := by
  simp only [State.raiseZone]
  (repeat' split) <;> simp

@[simp] theorem setZone_frame (s : State) (l : LineId) (z : Fin 4) (r : ZoneRec) :
    (s.setZone l z r).cu = s.cu ∧
    (s.setZone l z r).de = s.de ∧
    (s.setZone l z r).nu = s.nu ∧
    (s.setZone l z r).mp = s.mp ∧
    (s.setZone l z r).wu = s.wu ∧
    (s.setZone l z r).pins = s.pins ∧
    (s.setZone l z r).clock = s.clock ∧
    (s.setZone l z r).free = s.free ∧
    (s.setZone l z r).pending = s.pending := by
  simp only [State.setZone]
  simp

@[simp] theorem evalZone_frame (s : State) (l : LineId) (z : Fin 4) :
    (s.evalZone l z).cu = s.cu ∧
    (s.evalZone l z).de = s.de ∧
    (s.evalZone l z).mp = s.mp ∧
    (s.evalZone l z).wu = s.wu ∧
    (s.evalZone l z).pins = s.pins ∧
    (s.evalZone l z).clock = s.clock ∧
    (s.evalZone l z).free = s.free ∧
    (s.evalZone l z).pending = s.pending := by
  simp only [State.evalZone]
  (repeat' split) <;> simp

@[simp] theorem dropStaged_frame (s : State) (l : LineId) :
    (s.dropStaged l).lines = s.lines ∧
    (s.dropStaged l).cu = s.cu ∧
    (s.dropStaged l).mp = s.mp ∧
    (s.dropStaged l).wu = s.wu ∧
    (s.dropStaged l).pins = s.pins ∧
    (s.dropStaged l).clock = s.clock ∧
    (s.dropStaged l).free = s.free ∧
    (s.dropStaged l).pending = s.pending := by
  simp only [State.dropStaged]
  simp

@[simp] theorem stagingJoin_frame (s : State) (l : LineId) (p : Profile) :
    (s.stagingJoin l p).lines = s.lines ∧
    (s.stagingJoin l p).cu = s.cu ∧
    (s.stagingJoin l p).mp = s.mp ∧
    (s.stagingJoin l p).wu = s.wu ∧
    (s.stagingJoin l p).pins = s.pins ∧
    (s.stagingJoin l p).clock = s.clock ∧
    (s.stagingJoin l p).free = s.free ∧
    (s.stagingJoin l p).pending = s.pending := by
  simp only [State.stagingJoin]
  (repeat' split) <;> simp

@[simp] theorem takeProfile_frame (s : State) (l : LineId) (p : Profile) :
    (s.takeProfile l p).cu = s.cu ∧
    (s.takeProfile l p).mp = s.mp ∧
    (s.takeProfile l p).wu = s.wu ∧
    (s.takeProfile l p).pins = s.pins ∧
    (s.takeProfile l p).clock = s.clock ∧
    (s.takeProfile l p).free = s.free ∧
    (s.takeProfile l p).pending = s.pending := by
  simp only [State.takeProfile]
  simp

@[simp] theorem reportLineState_frame (s : State) (l : LineId) :
    (s.reportLineState l).cu = s.cu ∧
    (s.reportLineState l).nu = s.nu ∧
    (s.reportLineState l).mp = s.mp ∧
    (s.reportLineState l).wu = s.wu ∧
    (s.reportLineState l).pins = s.pins ∧
    (s.reportLineState l).clock = s.clock ∧
    (s.reportLineState l).free = s.free ∧
    (s.reportLineState l).pending = s.pending := by
  simp only [State.reportLineState]
  simp

@[simp] theorem resetZone_frame (s : State) (l : LineId) (z : Fin 4) :
    (s.resetZone l z).cu = s.cu ∧
    (s.resetZone l z).de = s.de ∧
    (s.resetZone l z).mp = s.mp ∧
    (s.resetZone l z).wu = s.wu ∧
    (s.resetZone l z).pins = s.pins ∧
    (s.resetZone l z).clock = s.clock ∧
    (s.resetZone l z).free = s.free ∧
    (s.resetZone l z).pending = s.pending := by
  simp only [State.resetZone]
  (repeat' split) <;> simp

@[simp] theorem resetZones_frame (s : State) (l : LineId) (old : Bytes) :
    (s.resetZones l old).cu = s.cu ∧
    (s.resetZones l old).de = s.de ∧
    (s.resetZones l old).mp = s.mp ∧
    (s.resetZones l old).wu = s.wu ∧
    (s.resetZones l old).pins = s.pins ∧
    (s.resetZones l old).clock = s.clock ∧
    (s.resetZones l old).free = s.free ∧
    (s.resetZones l old).pending = s.pending := by
  simp only [State.resetZones]
  exact ⟨foldl_cu _ _ _ (fun t x => by (try split) <;> simp),
    foldl_de _ _ _ (fun t x => by (try split) <;> simp),
    foldl_mp _ _ _ (fun t x => by (try split) <;> simp),
    foldl_wu _ _ _ (fun t x => by (try split) <;> simp),
    foldl_pins _ _ _ (fun t x => by (try split) <;> simp),
    foldl_clock _ _ _ (fun t x => by (try split) <;> simp),
    foldl_free _ _ _ (fun t x => by (try split) <;> simp),
    foldl_pending _ _ _ (fun t x => by (try split) <;> simp)⟩

@[simp] theorem reexamTimer_frame (s : State) (l : LineId) :
    (s.reexamTimer l).cu = s.cu ∧
    (s.reexamTimer l).de = s.de ∧
    (s.reexamTimer l).nu = s.nu ∧
    (s.reexamTimer l).mp = s.mp ∧
    (s.reexamTimer l).wu = s.wu ∧
    (s.reexamTimer l).pins = s.pins ∧
    (s.reexamTimer l).clock = s.clock ∧
    (s.reexamTimer l).free = s.free ∧
    (s.reexamTimer l).pending = s.pending := by
  simp only [State.reexamTimer]
  simp

@[simp] theorem refreshCauses_frame (s : State) (l : LineId) :
    (s.refreshCauses l).cu = s.cu ∧
    (s.refreshCauses l).de = s.de ∧
    (s.refreshCauses l).nu = s.nu ∧
    (s.refreshCauses l).mp = s.mp ∧
    (s.refreshCauses l).wu = s.wu ∧
    (s.refreshCauses l).pins = s.pins ∧
    (s.refreshCauses l).clock = s.clock ∧
    (s.refreshCauses l).free = s.free ∧
    (s.refreshCauses l).pending = s.pending := by
  simp only [State.refreshCauses]
  simp

@[simp] theorem lsApply_frame (s : State) (l : LineId) (old : Bytes) :
    (s.lsApply l old).cu = s.cu ∧
    (s.lsApply l old).de = s.de ∧
    (s.lsApply l old).nu = s.nu ∧
    (s.lsApply l old).mp = s.mp ∧
    (s.lsApply l old).wu = s.wu ∧
    (s.lsApply l old).pins = s.pins ∧
    (s.lsApply l old).clock = s.clock ∧
    (s.lsApply l old).free = s.free ∧
    (s.lsApply l old).pending = s.pending := by
  simp only [State.lsApply]
  (repeat' split) <;> simp

@[simp] theorem appliedTo_frame (s : State) (o : Owner) :
    (s.appliedTo o).lines = s.lines ∧
    (s.appliedTo o).nu = s.nu ∧
    (s.appliedTo o).mp = s.mp ∧
    (s.appliedTo o).wu = s.wu ∧
    (s.appliedTo o).pins = s.pins ∧
    (s.appliedTo o).clock = s.clock ∧
    (s.appliedTo o).free = s.free ∧
    (s.appliedTo o).pending = s.pending := by
  simp only [State.appliedTo]
  (repeat' split) <;> simp

@[simp] theorem applyLine_frame (s : State) (l : LineId) (new : Bytes) (tag : Byte) :
    (s.applyLine l new tag).mp = s.mp ∧
    (s.applyLine l new tag).wu = s.wu ∧
    (s.applyLine l new tag).pins = s.pins ∧
    (s.applyLine l new tag).clock = s.clock ∧
    (s.applyLine l new tag).free = s.free ∧
    (s.applyLine l new tag).pending = s.pending := by
  simp only [State.applyLine]
  simp

@[simp] theorem applyCal_frame (s : State) (l : LineId) (new : Bytes) (tag : Byte) :
    (s.applyCal l new tag).lines = s.lines ∧
    (s.applyCal l new tag).mp = s.mp ∧
    (s.applyCal l new tag).wu = s.wu ∧
    (s.applyCal l new tag).pins = s.pins ∧
    (s.applyCal l new tag).clock = s.clock ∧
    (s.applyCal l new tag).free = s.free ∧
    (s.applyCal l new tag).pending = s.pending := by
  simp only [State.applyCal]
  simp

@[simp] theorem transferLine_frame (s : State) (l : LineId) :
    (s.transferLine l).mp = s.mp ∧
    (s.transferLine l).wu = s.wu ∧
    (s.transferLine l).pins = s.pins ∧
    (s.transferLine l).clock = s.clock ∧
    (s.transferLine l).free = s.free ∧
    (s.transferLine l).pending = s.pending := by
  simp only [State.transferLine]
  (repeat' split) <;> simp

@[simp] theorem transferCal_frame (s : State) (l : LineId) :
    (s.transferCal l).lines = s.lines ∧
    (s.transferCal l).mp = s.mp ∧
    (s.transferCal l).wu = s.wu ∧
    (s.transferCal l).pins = s.pins ∧
    (s.transferCal l).clock = s.clock ∧
    (s.transferCal l).free = s.free ∧
    (s.transferCal l).pending = s.pending := by
  simp only [State.transferCal]
  (repeat' split) <;> simp

@[simp] theorem transfer_frame (s : State) (l : LineId) :
    (s.transfer l).mp = s.mp ∧
    (s.transfer l).wu = s.wu ∧
    (s.transfer l).pins = s.pins ∧
    (s.transfer l).clock = s.clock ∧
    (s.transfer l).free = s.free ∧
    (s.transfer l).pending = s.pending := by
  simp only [State.transfer]
  simp

@[simp] theorem countAttempt_frame (s : State) (l : LineId) :
    (s.countAttempt l).cu = s.cu ∧
    (s.countAttempt l).de = s.de ∧
    (s.countAttempt l).mp = s.mp ∧
    (s.countAttempt l).wu = s.wu ∧
    (s.countAttempt l).pins = s.pins ∧
    (s.countAttempt l).clock = s.clock ∧
    (s.countAttempt l).free = s.free ∧
    (s.countAttempt l).pending = s.pending := by
  simp only [State.countAttempt]
  (repeat' split) <;> simp

@[simp] theorem shutdownEntry_frame (s : State) (l : LineId) (c : Cause) :
    (s.shutdownEntry l c).mp = s.mp ∧
    (s.shutdownEntry l c).wu = s.wu ∧
    (s.shutdownEntry l c).pins = s.pins ∧
    (s.shutdownEntry l c).clock = s.clock ∧
    (s.shutdownEntry l c).free = s.free ∧
    (s.shutdownEntry l c).pending = s.pending := by
  simp only [State.shutdownEntry]
  simp

@[simp] theorem actSources_frame (s : State) (l : LineId) :
    (s.actSources l).mp = s.mp ∧
    (s.actSources l).wu = s.wu ∧
    (s.actSources l).pins = s.pins ∧
    (s.actSources l).clock = s.clock ∧
    (s.actSources l).pending = s.pending := by
  simp only [State.actSources]
  (repeat' split) <;> simp

@[simp] theorem cycleStart_frame (s : State) (l : LineId) :
    (s.cycleStart l).mp = s.mp ∧
    (s.cycleStart l).wu = s.wu ∧
    (s.cycleStart l).pins = s.pins ∧
    (s.cycleStart l).clock = s.clock ∧
    (s.cycleStart l).free = s.free ∧
    (s.cycleStart l).pending = s.pending := by
  simp only [State.cycleStart]
  simp

@[simp] theorem enterPriming_frame (s : State) (l : LineId) :
    (s.enterPriming l).mp = s.mp ∧
    (s.enterPriming l).wu = s.wu ∧
    (s.enterPriming l).pins = s.pins ∧
    (s.enterPriming l).clock = s.clock ∧
    (s.enterPriming l).free = s.free ∧
    (s.enterPriming l).pending = s.pending := by
  simp only [State.enterPriming]
  simp

@[simp] theorem enterOff_frame (s : State) (l : LineId) :
    (s.enterOff l).mp = s.mp ∧
    (s.enterOff l).wu = s.wu ∧
    (s.enterOff l).pins = s.pins ∧
    (s.enterOff l).clock = s.clock ∧
    (s.enterOff l).free = s.free ∧
    (s.enterOff l).pending = s.pending := by
  simp only [State.enterOff]
  simp

@[simp] theorem produce_frame (s : State) (l : LineId) :
    (s.produce l).cu = s.cu ∧
    (s.produce l).mp = s.mp ∧
    (s.produce l).wu = s.wu ∧
    (s.produce l).pins = s.pins ∧
    (s.produce l).clock = s.clock ∧
    (s.produce l).free = s.free ∧
    (s.produce l).pending = s.pending := by
  simp only [State.produce]
  (repeat' split) <;> simp

@[simp] theorem closeCycle_frame (s : State) (l : LineId) :
    (s.closeCycle l).cu = s.cu ∧
    (s.closeCycle l).mp = s.mp ∧
    (s.closeCycle l).wu = s.wu ∧
    (s.closeCycle l).pins = s.pins ∧
    (s.closeCycle l).clock = s.clock ∧
    (s.closeCycle l).free = s.free ∧
    (s.closeCycle l).pending = s.pending := by
  simp only [State.closeCycle]
  (repeat' split) <;> simp

@[simp] theorem afterCycle_frame (s : State) (l : LineId) :
    (s.afterCycle l).mp = s.mp ∧
    (s.afterCycle l).wu = s.wu ∧
    (s.afterCycle l).pins = s.pins ∧
    (s.afterCycle l).clock = s.clock ∧
    (s.afterCycle l).pending = s.pending := by
  simp only [State.afterCycle]
  (repeat' split) <;> simp

@[simp] theorem endPhase_frame (s : State) (l : LineId) (c : Bool) :
    (s.endPhase l c).mp = s.mp ∧
    (s.endPhase l c).wu = s.wu ∧
    (s.endPhase l c).pins = s.pins ∧
    (s.endPhase l c).clock = s.clock ∧
    (s.endPhase l c).pending = s.pending := by
  simp only [State.endPhase]
  (repeat' split) <;> simp

@[simp] theorem endHold_frame (s : State) (l : LineId) :
    (s.endHold l).cu = s.cu ∧
    (s.endHold l).de = s.de ∧
    (s.endHold l).nu = s.nu ∧
    (s.endHold l).mp = s.mp ∧
    (s.endHold l).wu = s.wu ∧
    (s.endHold l).pins = s.pins ∧
    (s.endHold l).clock = s.clock ∧
    (s.endHold l).free = s.free ∧
    (s.endHold l).pending = s.pending := by
  simp only [State.endHold]
  (repeat' split) <;> simp

@[simp] theorem autoRestart_frame (s : State) (l : LineId) :
    (s.autoRestart l).mp = s.mp ∧
    (s.autoRestart l).wu = s.wu ∧
    (s.autoRestart l).pins = s.pins ∧
    (s.autoRestart l).clock = s.clock ∧
    (s.autoRestart l).pending = s.pending := by
  simp only [State.autoRestart]
  (repeat' split) <;> simp

@[simp] theorem coilHiChanged_frame (s : State) (l : LineId) :
    (s.coilHiChanged l).mp = s.mp ∧
    (s.coilHiChanged l).wu = s.wu ∧
    (s.coilHiChanged l).pins = s.pins ∧
    (s.coilHiChanged l).clock = s.clock ∧
    (s.coilHiChanged l).free = s.free ∧
    (s.coilHiChanged l).pending = s.pending := by
  simp only [State.coilHiChanged]
  (repeat' split) <;> simp

@[simp] theorem setCoilHi_frame (s : State) (l : LineId) (v : Bool) :
    (s.setCoilHi l v).mp = s.mp ∧
    (s.setCoilHi l v).wu = s.wu ∧
    (s.setCoilHi l v).clock = s.clock ∧
    (s.setCoilHi l v).free = s.free ∧
    (s.setCoilHi l v).pending = s.pending := by
  simp only [State.setCoilHi]
  (repeat' split) <;> simp

@[simp] theorem tripChanged_frame (s : State) (l : LineId) :
    (s.tripChanged l).mp = s.mp ∧
    (s.tripChanged l).wu = s.wu ∧
    (s.tripChanged l).pins = s.pins ∧
    (s.tripChanged l).clock = s.clock ∧
    (s.tripChanged l).free = s.free ∧
    (s.tripChanged l).pending = s.pending := by
  simp only [State.tripChanged]
  (repeat' split) <;> simp

@[simp] theorem setTripLevel_frame (s : State) (l : LineId) (v : Bool) :
    (s.setTripLevel l v).mp = s.mp ∧
    (s.setTripLevel l v).wu = s.wu ∧
    (s.setTripLevel l v).pins = s.pins ∧
    (s.setTripLevel l v).clock = s.clock ∧
    (s.setTripLevel l v).free = s.free ∧
    (s.setTripLevel l v).pending = s.pending := by
  simp only [State.setTripLevel]
  simp

@[simp] theorem completeDebounce_frame (s : State) (l : LineId) :
    (s.completeDebounce l).mp = s.mp ∧
    (s.completeDebounce l).wu = s.wu ∧
    (s.completeDebounce l).pins = s.pins ∧
    (s.completeDebounce l).clock = s.clock ∧
    (s.completeDebounce l).free = s.free ∧
    (s.completeDebounce l).pending = s.pending := by
  simp only [State.completeDebounce]
  (repeat' split) <;> simp

@[simp] theorem completeDue_frame (s : State) (l : LineId) :
    (s.completeDue l).mp = s.mp ∧
    (s.completeDue l).wu = s.wu ∧
    (s.completeDue l).pins = s.pins ∧
    (s.completeDue l).clock = s.clock ∧
    (s.completeDue l).free = s.free ∧
    (s.completeDue l).pending = s.pending := by
  simp only [State.completeDue]
  (repeat' split) <;> simp

@[simp] theorem followTrip_frame (s : State) (l : LineId) (v : Bool) :
    (s.followTrip l v).mp = s.mp ∧
    (s.followTrip l v).wu = s.wu ∧
    (s.followTrip l v).pins = s.pins ∧
    (s.followTrip l v).clock = s.clock ∧
    (s.followTrip l v).free = s.free ∧
    (s.followTrip l v).pending = s.pending := by
  simp only [State.followTrip]
  (repeat' split) <;> simp

@[simp] theorem setTrip_frame (s : State) (l : LineId) (v : Bool) :
    (s.setTrip l v).mp = s.mp ∧
    (s.setTrip l v).wu = s.wu ∧
    (s.setTrip l v).clock = s.clock ∧
    (s.setTrip l v).free = s.free ∧
    (s.setTrip l v).pending = s.pending := by
  simp only [State.setTrip]
  (repeat' split) <;> simp

@[simp] theorem advanceLines_frame (s : State) :
    s.advanceLines.cu = s.cu ∧
    s.advanceLines.de = s.de ∧
    s.advanceLines.nu = s.nu ∧
    s.advanceLines.mp = s.mp ∧
    s.advanceLines.wu = s.wu ∧
    s.advanceLines.pins = s.pins ∧
    s.advanceLines.clock = s.clock ∧
    s.advanceLines.free = s.free ∧
    s.advanceLines.pending = s.pending := by
  simp only [State.advanceLines]
  simp

@[simp] theorem startLine_frame (s : State) (l : LineId) :
    (s.startLine l).1.mp = s.mp ∧
    (s.startLine l).1.wu = s.wu ∧
    (s.startLine l).1.pins = s.pins ∧
    (s.startLine l).1.clock = s.clock ∧
    (s.startLine l).1.pending = s.pending := by
  simp only [State.startLine]
  (repeat' split) <;> simp

@[simp] theorem stopLine_frame (s : State) (l : LineId) :
    (s.stopLine l).1.mp = s.mp ∧
    (s.stopLine l).1.wu = s.wu ∧
    (s.stopLine l).1.pins = s.pins ∧
    (s.stopLine l).1.clock = s.clock ∧
    (s.stopLine l).1.pending = s.pending := by
  simp only [State.stopLine]
  (repeat' split) <;> simp

@[simp] theorem haltLine_frame (s : State) (l : LineId) :
    (s.haltLine l).1.mp = s.mp ∧
    (s.haltLine l).1.wu = s.wu ∧
    (s.haltLine l).1.pins = s.pins ∧
    (s.haltLine l).1.clock = s.clock ∧
    (s.haltLine l).1.pending = s.pending := by
  simp only [State.haltLine]
  (repeat' split) <;> simp

@[simp] theorem restartLine_frame (s : State) (l : LineId) :
    (s.restartLine l).1.mp = s.mp ∧
    (s.restartLine l).1.wu = s.wu ∧
    (s.restartLine l).1.pins = s.pins ∧
    (s.restartLine l).1.clock = s.clock ∧
    (s.restartLine l).1.pending = s.pending := by
  simp only [State.restartLine]
  (repeat' split) <;> simp

@[simp] theorem answered_state (a : State × Answer) : (answered a).1 = a.1 := rfl

@[simp] theorem setRecord_frame (s : State) (tag code : Byte) (r : Reply) :
    (s.setRecord tag code r).lines = s.lines ∧
    (s.setRecord tag code r).nu = s.nu ∧
    (s.setRecord tag code r).mp = s.mp ∧
    (s.setRecord tag code r).wu = s.wu ∧
    (s.setRecord tag code r).pins = s.pins ∧
    (s.setRecord tag code r).clock = s.clock ∧
    (s.setRecord tag code r).free = s.free ∧
    (s.setRecord tag code r).pending = s.pending := by
  simp only [State.setRecord]
  simp

@[simp] theorem commitLine_frame (s : State) (tag : Byte) (l : LineId) :
    (s.commitLine tag l).1.mp = s.mp ∧
    (s.commitLine tag l).1.wu = s.wu ∧
    (s.commitLine tag l).1.pins = s.pins ∧
    (s.commitLine tag l).1.clock = s.clock ∧
    (s.commitLine tag l).1.free = s.free ∧
    (s.commitLine tag l).1.pending = s.pending := by
  simp only [State.commitLine]
  (repeat' split) <;> simp

@[simp] theorem commitCal_frame (s : State) (tag : Byte) (l : LineId) :
    (s.commitCal tag l).1.lines = s.lines ∧
    (s.commitCal tag l).1.mp = s.mp ∧
    (s.commitCal tag l).1.wu = s.wu ∧
    (s.commitCal tag l).1.pins = s.pins ∧
    (s.commitCal tag l).1.clock = s.clock ∧
    (s.commitCal tag l).1.free = s.free ∧
    (s.commitCal tag l).1.pending = s.pending := by
  simp only [State.commitCal]
  (repeat' split) <;> simp

@[simp] theorem liveWindowsFrom_frame (s : State) (tag : Byte) :
    (s.liveWindowsFrom tag).lines = s.lines ∧
    (s.liveWindowsFrom tag).de = s.de ∧
    (s.liveWindowsFrom tag).nu = s.nu ∧
    (s.liveWindowsFrom tag).mp = s.mp ∧
    (s.liveWindowsFrom tag).wu = s.wu ∧
    (s.liveWindowsFrom tag).pins = s.pins ∧
    (s.liveWindowsFrom tag).clock = s.clock ∧
    (s.liveWindowsFrom tag).free = s.free ∧
    (s.liveWindowsFrom tag).pending = s.pending := by
  simp only [State.liveWindowsFrom]
  simp

@[simp] theorem windowsLive_frame (s : State) (tag : Byte) :
    (s.windowsLive tag).mp = s.mp ∧
    (s.windowsLive tag).pins = s.pins ∧
    (s.windowsLive tag).clock = s.clock ∧
    (s.windowsLive tag).pending = s.pending := by
  simp only [State.windowsLive]
  (repeat' split) <;> simp

@[simp] theorem commitWindows_frame (s : State) (tag : Byte) :
    (s.commitWindows tag).1.mp = s.mp ∧
    (s.commitWindows tag).1.pins = s.pins ∧
    (s.commitWindows tag).1.clock = s.clock ∧
    (s.commitWindows tag).1.pending = s.pending := by
  simp only [State.commitWindows]
  (repeat' split) <;> simp

@[simp] theorem commitDelivery_frame (s : State) (tag : Byte) :
    (s.commitDelivery tag).1.lines = s.lines ∧
    (s.commitDelivery tag).1.cu = s.cu ∧
    (s.commitDelivery tag).1.nu = s.nu ∧
    (s.commitDelivery tag).1.mp = s.mp ∧
    (s.commitDelivery tag).1.wu = s.wu ∧
    (s.commitDelivery tag).1.pins = s.pins ∧
    (s.commitDelivery tag).1.clock = s.clock ∧
    (s.commitDelivery tag).1.free = s.free ∧
    (s.commitDelivery tag).1.pending = s.pending := by
  simp only [State.commitDelivery]
  (repeat' split) <;> simp

@[simp] theorem clearTotal_frame (s : State) (l : LineId) :
    (s.clearTotal l).1.cu = s.cu ∧
    (s.clearTotal l).1.nu = s.nu ∧
    (s.clearTotal l).1.mp = s.mp ∧
    (s.clearTotal l).1.wu = s.wu ∧
    (s.clearTotal l).1.pins = s.pins ∧
    (s.clearTotal l).1.clock = s.clock ∧
    (s.clearTotal l).1.free = s.free ∧
    (s.clearTotal l).1.pending = s.pending := by
  simp only [State.clearTotal]
  simp

@[simp] theorem markPendingCals_frame (s : State) :
    s.markPendingCals.lines = s.lines ∧
    s.markPendingCals.cu = s.cu ∧
    s.markPendingCals.nu = s.nu ∧
    s.markPendingCals.mp = s.mp ∧
    s.markPendingCals.wu = s.wu ∧
    s.markPendingCals.pins = s.pins ∧
    s.markPendingCals.clock = s.clock ∧
    s.markPendingCals.free = s.free ∧
    s.markPendingCals.pending = s.pending := by
  simp only [State.markPendingCals]
  exact ⟨foldl_lines _ _ _ (fun t x => by (try split) <;> simp),
    foldl_cu _ _ _ (fun t x => by (try split) <;> simp),
    foldl_nu _ _ _ (fun t x => by (try split) <;> simp),
    foldl_mp _ _ _ (fun t x => by (try split) <;> simp),
    foldl_wu _ _ _ (fun t x => by (try split) <;> simp),
    foldl_pins _ _ _ (fun t x => by (try split) <;> simp),
    foldl_clock _ _ _ (fun t x => by (try split) <;> simp),
    foldl_free _ _ _ (fun t x => by (try split) <;> simp),
    foldl_pending _ _ _ (fun t x => by (try split) <;> simp)⟩

@[simp] theorem freeze_frame (s : State) :
    s.freeze.1.lines = s.lines ∧
    s.freeze.1.mp = s.mp ∧
    s.freeze.1.wu = s.wu ∧
    s.freeze.1.pins = s.pins ∧
    s.freeze.1.clock = s.clock ∧
    s.freeze.1.free = s.free ∧
    s.freeze.1.pending = s.pending := by
  simp only [State.freeze]
  (repeat' split) <;> simp

@[simp] theorem startLoad_frame (s : State) (c : Nat) :
    (s.startLoad c).1.lines = s.lines ∧
    (s.startLoad c).1.nu = s.nu ∧
    (s.startLoad c).1.mp = s.mp ∧
    (s.startLoad c).1.wu = s.wu ∧
    (s.startLoad c).1.pins = s.pins ∧
    (s.startLoad c).1.clock = s.clock ∧
    (s.startLoad c).1.free = s.free ∧
    (s.startLoad c).1.pending = s.pending := by
  simp only [State.startLoad]
  simp

@[simp] theorem markLoadStatus_frame (s : State) :
    s.markLoadStatus.lines = s.lines ∧
    s.markLoadStatus.cu = s.cu ∧
    s.markLoadStatus.nu = s.nu ∧
    s.markLoadStatus.mp = s.mp ∧
    s.markLoadStatus.wu = s.wu ∧
    s.markLoadStatus.pins = s.pins ∧
    s.markLoadStatus.clock = s.clock ∧
    s.markLoadStatus.free = s.free ∧
    s.markLoadStatus.pending = s.pending := by
  simp only [State.markLoadStatus]
  (repeat' split) <;> simp

@[simp] theorem loadDone_frame (s : State) (x : Load) :
    (s.loadDone x).lines = s.lines ∧
    (s.loadDone x).mp = s.mp ∧
    (s.loadDone x).wu = s.wu ∧
    (s.loadDone x).pins = s.pins ∧
    (s.loadDone x).clock = s.clock ∧
    (s.loadDone x).free = s.free ∧
    (s.loadDone x).pending = s.pending := by
  simp only [State.loadDone]
  simp

@[simp] theorem loadAbandoned_frame (s : State) (x : Load) (off : Nat) :
    (s.loadAbandoned x off).lines = s.lines ∧
    (s.loadAbandoned x off).mp = s.mp ∧
    (s.loadAbandoned x off).wu = s.wu ∧
    (s.loadAbandoned x off).pins = s.pins ∧
    (s.loadAbandoned x off).clock = s.clock ∧
    (s.loadAbandoned x off).free = s.free ∧
    (s.loadAbandoned x off).pending = s.pending := by
  simp only [State.loadAbandoned]
  simp

@[simp] theorem loadRead_frame (s : State) (off : Nat) (err : Bool) (d : Word) :
    (s.loadRead off err d).lines = s.lines ∧
    (s.loadRead off err d).mp = s.mp ∧
    (s.loadRead off err d).wu = s.wu ∧
    (s.loadRead off err d).pins = s.pins ∧
    (s.loadRead off err d).clock = s.clock ∧
    (s.loadRead off err d).free = s.free ∧
    (s.loadRead off err d).pending = s.pending := by
  simp only [State.loadRead]
  (repeat' split) <;> simp

@[simp] theorem capture_frame (s : State) (sec : SectionId) (off : Nat) (be : BitVec 4) (d : Word) :
    (s.capture sec off be d).lines = s.lines ∧
    (s.capture sec off be d).de = s.de ∧
    (s.capture sec off be d).nu = s.nu ∧
    (s.capture sec off be d).mp = s.mp ∧
    (s.capture sec off be d).wu = s.wu ∧
    (s.capture sec off be d).pins = s.pins ∧
    (s.capture sec off be d).clock = s.clock ∧
    (s.capture sec off be d).free = s.free ∧
    (s.capture sec off be d).pending = s.pending := by
  simp only [State.capture]
  simp

@[simp] theorem runCommand_frame (s : State) (tag code operand : Byte) :
    (s.runCommand tag code operand).1.mp = s.mp ∧
    (s.runCommand tag code operand).1.pins = s.pins ∧
    (s.runCommand tag code operand).1.clock = s.clock ∧
    (s.runCommand tag code operand).1.pending = s.pending := by
  simp only [State.runCommand]
  (repeat' split) <;> simp

@[simp] theorem takeCommand_frame (s : State) (tag code operand : Byte) :
    (s.takeCommand tag code operand).mp = s.mp ∧
    (s.takeCommand tag code operand).pins = s.pins ∧
    (s.takeCommand tag code operand).clock = s.clock ∧
    (s.takeCommand tag code operand).pending = s.pending := by
  simp only [State.takeCommand]
  (repeat' split) <;> simp

@[simp] theorem takePartial_frame (s : State) (be : BitVec 4) (d : Word) :
    (s.takePartial be d).lines = s.lines ∧
    (s.takePartial be d).nu = s.nu ∧
    (s.takePartial be d).mp = s.mp ∧
    (s.takePartial be d).wu = s.wu ∧
    (s.takePartial be d).pins = s.pins ∧
    (s.takePartial be d).clock = s.clock ∧
    (s.takePartial be d).free = s.free ∧
    (s.takePartial be d).pending = s.pending := by
  simp only [State.takePartial]
  simp

@[simp] theorem takeCommandWrite_frame (s : State) (be : BitVec 4) (d : Word) :
    (s.takeCommandWrite be d).mp = s.mp ∧
    (s.takeCommandWrite be d).pins = s.pins ∧
    (s.takeCommandWrite be d).clock = s.clock ∧
    (s.takeCommandWrite be d).pending = s.pending := by
  simp only [State.takeCommandWrite]
  (repeat' split) <;> simp

@[simp] theorem pageEnded_frame (s : State) (p : PageId) :
    (s.pageEnded p).lines = s.lines ∧
    (s.pageEnded p).nu = s.nu ∧
    (s.pageEnded p).mp = s.mp ∧
    (s.pageEnded p).wu = s.wu ∧
    (s.pageEnded p).pins = s.pins ∧
    (s.pageEnded p).clock = s.clock ∧
    (s.pageEnded p).free = s.free ∧
    (s.pageEnded p).pending = s.pending := by
  simp only [State.pageEnded]
  (repeat' split) <;> simp

@[simp] theorem setRequest_frame (s : State) (r : Option Request) :
    (s.setRequest r).lines = s.lines ∧
    (s.setRequest r).cu = s.cu ∧
    (s.setRequest r).de = s.de ∧
    (s.setRequest r).nu = s.nu ∧
    (s.setRequest r).wu = s.wu ∧
    (s.setRequest r).pins = s.pins ∧
    (s.setRequest r).clock = s.clock ∧
    (s.setRequest r).free = s.free ∧
    (s.setRequest r).pending = s.pending := by
  simp only [State.setRequest]
  simp

@[simp] theorem putDe_frame (s : State) (k : DeKind) (a : Access) :
    (s.putDe k a).lines = s.lines ∧
    (s.putDe k a).cu = s.cu ∧
    (s.putDe k a).de = s.de ∧
    (s.putDe k a).nu = s.nu ∧
    (s.putDe k a).wu = s.wu ∧
    (s.putDe k a).pins = s.pins ∧
    (s.putDe k a).clock = s.clock ∧
    (s.putDe k a).free = s.free ∧
    (s.putDe k a).pending = s.pending := by
  simp only [State.putDe]
  simp

@[simp] theorem grantHost_frame (s : State) (n : Nat) :
    (s.grantHost n).lines = s.lines ∧
    (s.grantHost n).cu = s.cu ∧
    (s.grantHost n).de = s.de ∧
    (s.grantHost n).nu = s.nu ∧
    (s.grantHost n).wu = s.wu ∧
    (s.grantHost n).pins = s.pins ∧
    (s.grantHost n).clock = s.clock ∧
    (s.grantHost n).free = s.free ∧
    (s.grantHost n).pending = s.pending := by
  simp only [State.grantHost]
  simp

@[simp] theorem retestRead_frame (s : State) :
    s.retestRead.lines = s.lines ∧
    s.retestRead.cu = s.cu ∧
    s.retestRead.de = s.de ∧
    s.retestRead.nu = s.nu ∧
    s.retestRead.wu = s.wu ∧
    s.retestRead.pins = s.pins ∧
    s.retestRead.clock = s.clock ∧
    s.retestRead.free = s.free ∧
    s.retestRead.pending = s.pending := by
  simp only [State.retestRead]
  (repeat' split) <;> simp

@[simp] theorem releaseHeld_frame (s : State) :
    s.releaseHeld.lines = s.lines ∧
    s.releaseHeld.cu = s.cu ∧
    s.releaseHeld.de = s.de ∧
    s.releaseHeld.nu = s.nu ∧
    s.releaseHeld.wu = s.wu ∧
    s.releaseHeld.pins = s.pins ∧
    s.releaseHeld.clock = s.clock ∧
    s.releaseHeld.free = s.free ∧
    s.releaseHeld.pending = s.pending := by
  simp only [State.releaseHeld]
  (repeat' split) <;> simp

@[simp] theorem putFlightWord_frame (s : State) :
    s.putFlightWord.lines = s.lines ∧
    s.putFlightWord.cu = s.cu ∧
    s.putFlightWord.de = s.de ∧
    s.putFlightWord.nu = s.nu ∧
    s.putFlightWord.wu = s.wu ∧
    s.putFlightWord.pins = s.pins ∧
    s.putFlightWord.clock = s.clock ∧
    s.putFlightWord.free = s.free ∧
    s.putFlightWord.pending = s.pending := by
  simp only [State.putFlightWord]
  (repeat' split) <;> simp

@[simp] theorem beginFlight_frame (s : State) (f : Flight) :
    (s.beginFlight f).lines = s.lines ∧
    (s.beginFlight f).cu = s.cu ∧
    (s.beginFlight f).nu = s.nu ∧
    (s.beginFlight f).wu = s.wu ∧
    (s.beginFlight f).pins = s.pins ∧
    (s.beginFlight f).clock = s.clock ∧
    (s.beginFlight f).free = s.free ∧
    (s.beginFlight f).pending = s.pending := by
  simp only [State.beginFlight]
  simp

@[simp] theorem beginNotice_frame (s : State) (e : Entry) :
    (s.beginNotice e).lines = s.lines ∧
    (s.beginNotice e).cu = s.cu ∧
    (s.beginNotice e).wu = s.wu ∧
    (s.beginNotice e).pins = s.pins ∧
    (s.beginNotice e).clock = s.clock ∧
    (s.beginNotice e).free = s.free ∧
    (s.beginNotice e).pending = s.pending := by
  simp only [State.beginNotice]
  simp

@[simp] theorem beginProfile_frame (s : State) (l : LineId) (g : Staged) :
    (s.beginProfile l g).lines = s.lines ∧
    (s.beginProfile l g).cu = s.cu ∧
    (s.beginProfile l g).nu = s.nu ∧
    (s.beginProfile l g).wu = s.wu ∧
    (s.beginProfile l g).pins = s.pins ∧
    (s.beginProfile l g).clock = s.clock ∧
    (s.beginProfile l g).free = s.free ∧
    (s.beginProfile l g).pending = s.pending := by
  simp only [State.beginProfile]
  simp

@[simp] theorem beginPage_frame (s : State) (p : PageId) :
    (s.beginPage p).lines = s.lines ∧
    (s.beginPage p).cu = s.cu ∧
    (s.beginPage p).nu = s.nu ∧
    (s.beginPage p).wu = s.wu ∧
    (s.beginPage p).pins = s.pins ∧
    (s.beginPage p).clock = s.clock ∧
    (s.beginPage p).free = s.free ∧
    (s.beginPage p).pending = s.pending := by
  simp only [State.beginPage]
  simp

@[simp] theorem issueRefresh_frame (s : State) (w : FreshWord) :
    (s.issueRefresh w).lines = s.lines ∧
    (s.issueRefresh w).cu = s.cu ∧
    (s.issueRefresh w).nu = s.nu ∧
    (s.issueRefresh w).pins = s.pins ∧
    (s.issueRefresh w).clock = s.clock ∧
    (s.issueRefresh w).free = s.free ∧
    (s.issueRefresh w).pending = s.pending := by
  simp only [State.issueRefresh]
  (repeat' split) <;> simp

@[simp] theorem issueStatus_frame (s : State) :
    s.issueStatus.lines = s.lines ∧
    s.issueStatus.cu = s.cu ∧
    s.issueStatus.nu = s.nu ∧
    s.issueStatus.wu = s.wu ∧
    s.issueStatus.pins = s.pins ∧
    s.issueStatus.clock = s.clock ∧
    s.issueStatus.free = s.free ∧
    s.issueStatus.pending = s.pending := by
  simp only [State.issueStatus]
  simp

@[simp] theorem beginWork_frame (s : State) (w : DeWork) :
    (s.beginWork w).lines = s.lines ∧
    (s.beginWork w).cu = s.cu ∧
    (s.beginWork w).pins = s.pins ∧
    (s.beginWork w).clock = s.clock ∧
    (s.beginWork w).free = s.free ∧
    (s.beginWork w).pending = s.pending := by
  cases w <;> simp [State.beginWork]

@[simp] theorem grantDe_frame (s : State) :
    s.grantDe.lines = s.lines ∧
    s.grantDe.cu = s.cu ∧
    s.grantDe.pins = s.pins ∧
    s.grantDe.clock = s.clock ∧
    s.grantDe.free = s.free ∧
    s.grantDe.pending = s.pending := by
  simp only [State.grantDe]
  (repeat' split) <;> simp

@[simp] theorem arbitrate_frame (s : State) :
    s.arbitrate.lines = s.lines ∧
    s.arbitrate.cu = s.cu ∧
    s.arbitrate.pins = s.pins ∧
    s.arbitrate.clock = s.clock ∧
    s.arbitrate.free = s.free ∧
    s.arbitrate.pending = s.pending := by
  simp only [State.arbitrate]
  (repeat' split) <;> simp

@[simp] theorem freePort_frame (s : State) :
    s.freePort.lines = s.lines ∧
    s.freePort.cu = s.cu ∧
    s.freePort.de = s.de ∧
    s.freePort.nu = s.nu ∧
    s.freePort.wu = s.wu ∧
    s.freePort.pins = s.pins ∧
    s.freePort.clock = s.clock ∧
    s.freePort.free = s.free ∧
    s.freePort.pending = s.pending := by
  simp only [State.freePort]
  simp

@[simp] theorem completeDiscarded_frame (s : State) :
    s.completeDiscarded.lines = s.lines ∧
    s.completeDiscarded.cu = s.cu ∧
    s.completeDiscarded.de = s.de ∧
    s.completeDiscarded.nu = s.nu ∧
    s.completeDiscarded.wu = s.wu ∧
    s.completeDiscarded.pins = s.pins ∧
    s.completeDiscarded.clock = s.clock ∧
    s.completeDiscarded.free = s.free ∧
    s.completeDiscarded.pending = s.pending := by
  simp only [State.completeDiscarded]
  (repeat' split) <;> simp

@[simp] theorem completeUp_frame (s : State) (e : Bool) (d : Option Word) :
    (s.completeUp e d).lines = s.lines ∧
    (s.completeUp e d).cu = s.cu ∧
    (s.completeUp e d).de = s.de ∧
    (s.completeUp e d).nu = s.nu ∧
    (s.completeUp e d).wu = s.wu ∧
    (s.completeUp e d).pins = s.pins ∧
    (s.completeUp e d).clock = s.clock ∧
    (s.completeUp e d).free = s.free ∧
    (s.completeUp e d).pending = s.pending := by
  simp only [State.completeUp]
  simp

@[simp] theorem askRefresh_frame (s : State) (w : FreshWord) :
    (s.askRefresh w).lines = s.lines ∧
    (s.askRefresh w).cu = s.cu ∧
    (s.askRefresh w).nu = s.nu ∧
    (s.askRefresh w).mp = s.mp ∧
    (s.askRefresh w).wu = s.wu ∧
    (s.askRefresh w).pins = s.pins ∧
    (s.askRefresh w).clock = s.clock ∧
    (s.askRefresh w).free = s.free ∧
    (s.askRefresh w).pending = s.pending := by
  simp only [State.askRefresh]
  simp

@[simp] theorem placeRequest_frame (s : State) (a : Access) :
    (s.placeRequest a).lines = s.lines ∧
    (s.placeRequest a).cu = s.cu ∧
    (s.placeRequest a).nu = s.nu ∧
    (s.placeRequest a).wu = s.wu ∧
    (s.placeRequest a).pins = s.pins ∧
    (s.placeRequest a).clock = s.clock ∧
    (s.placeRequest a).free = s.free ∧
    (s.placeRequest a).pending = s.pending := by
  simp only [State.placeRequest]
  (repeat' split) <;> simp

@[simp] theorem takeRequest_frame (s : State) (a : Access) :
    (s.takeRequest a).cu = s.cu ∧
    (s.takeRequest a).pins = s.pins ∧
    (s.takeRequest a).clock = s.clock ∧
    (s.takeRequest a).free = s.free ∧
    (s.takeRequest a).pending = s.pending := by
  simp only [State.takeRequest]
  (repeat' split) <;> simp

@[simp] theorem captureRd_frame (s : State) (r : RingId) (n : Half) :
    (s.captureRd r n).lines = s.lines ∧
    (s.captureRd r n).cu = s.cu ∧
    (s.captureRd r n).mp = s.mp ∧
    (s.captureRd r n).wu = s.wu ∧
    (s.captureRd r n).pins = s.pins ∧
    (s.captureRd r n).clock = s.clock ∧
    (s.captureRd r n).free = s.free ∧
    (s.captureRd r n).pending = s.pending := by
  simp only [State.captureRd]
  (repeat' split) <;> simp

@[simp] theorem handOver_frame (s : State) (r : Request) :
    (s.handOver r).mp = s.mp ∧
    (s.handOver r).pins = s.pins ∧
    (s.handOver r).clock = s.clock ∧
    (s.handOver r).pending = s.pending := by
  simp only [State.handOver]
  (repeat' split) <;> simp

@[simp] theorem afterFreshRead_frame (s : State) (r : Request) :
    (s.afterFreshRead r).lines = s.lines ∧
    (s.afterFreshRead r).cu = s.cu ∧
    (s.afterFreshRead r).de = s.de ∧
    (s.afterFreshRead r).nu = s.nu ∧
    (s.afterFreshRead r).mp = s.mp ∧
    (s.afterFreshRead r).pins = s.pins ∧
    (s.afterFreshRead r).clock = s.clock ∧
    (s.afterFreshRead r).free = s.free ∧
    (s.afterFreshRead r).pending = s.pending := by
  simp only [State.afterFreshRead]
  (repeat' split) <;> simp

@[simp] theorem completeHost_frame (s : State) (e : Bool) (d : Word) :
    (s.completeHost e d).pins = s.pins ∧
    (s.completeHost e d).clock = s.clock ∧
    (s.completeHost e d).pending = s.pending := by
  simp only [State.completeHost]
  (repeat' split) <;> simp

@[simp] theorem commandStep_frame (s : State) (tag code operand : Byte) :
    (s.commandStep tag code operand).pins = s.pins ∧
    (s.commandStep tag code operand).clock = s.clock ∧
    (s.commandStep tag code operand).pending = s.pending := by
  simp only [State.commandStep]
  (repeat' split) <;> simp

@[simp] theorem capturedStep_frame (s : State) (o : Half) (be : BitVec 4) (d : Word) :
    (s.capturedStep o be d).pins = s.pins ∧
    (s.capturedStep o be d).clock = s.clock ∧
    (s.capturedStep o be d).pending = s.pending := by
  simp only [State.capturedStep]
  (repeat' split) <;> simp

@[simp] theorem rdStep_frame (s : State) (r : RingId) (d : Word) :
    (s.rdStep r d).pins = s.pins ∧
    (s.rdStep r d).clock = s.clock ∧
    (s.rdStep r d).pending = s.pending := by
  simp only [State.rdStep]
  (repeat' split) <;> simp

@[simp] theorem activityStep_frame (s : State) (d : Word) :
    (s.activityStep d).pins = s.pins ∧
    (s.activityStep d).clock = s.clock ∧
    (s.activityStep d).pending = s.pending := by
  simp only [State.activityStep]
  (repeat' split) <;> simp

@[simp] theorem partialStep_frame (s : State) (be : BitVec 4) (d : Word) :
    (s.partialStep be d).pins = s.pins ∧
    (s.partialStep be d).clock = s.clock ∧
    (s.partialStep be d).pending = s.pending := by
  simp only [State.partialStep]
  (repeat' split) <;> simp

@[simp] theorem assertBrst_frame (s : State) :
    s.assertBrst.lines = s.lines ∧
    s.assertBrst.cu = s.cu ∧
    s.assertBrst.de = s.de ∧
    s.assertBrst.wu = s.wu ∧
    s.assertBrst.clock = s.clock ∧
    s.assertBrst.free = s.free ∧
    s.assertBrst.pending = s.pending := by
  simp only [State.assertBrst]
  (repeat' split) <;> simp

@[simp] theorem countReset_frame (s : State) :
    s.countReset.lines = s.lines ∧
    s.countReset.cu = s.cu ∧
    s.countReset.wu = s.wu ∧
    s.countReset.pins = s.pins ∧
    s.countReset.clock = s.clock ∧
    s.countReset.free = s.free ∧
    s.countReset.pending = s.pending := by
  simp only [State.countReset]
  (repeat' split) <;> simp

@[simp] theorem releaseBrst_frame (s : State) :
    s.releaseBrst.lines = s.lines ∧
    s.releaseBrst.cu = s.cu ∧
    s.releaseBrst.wu = s.wu ∧
    s.releaseBrst.clock = s.clock ∧
    s.releaseBrst.free = s.free ∧
    s.releaseBrst.pending = s.pending := by
  simp only [State.releaseBrst]
  (repeat' split) <;> simp

@[simp] theorem armNotices_frame (s : State) (b : Bytes) (d : RingDesc) :
    (s.armNotices b d).lines = s.lines ∧
    (s.armNotices b d).cu = s.cu ∧
    (s.armNotices b d).de = s.de ∧
    (s.armNotices b d).mp = s.mp ∧
    (s.armNotices b d).wu = s.wu ∧
    (s.armNotices b d).pins = s.pins ∧
    (s.armNotices b d).clock = s.clock ∧
    (s.armNotices b d).free = s.free ∧
    (s.armNotices b d).pending = s.pending := by
  simp only [State.armNotices]
  (repeat' split) <;> simp

@[simp] theorem rewriteOwned_frame (s : State) :
    s.rewriteOwned.lines = s.lines ∧
    s.rewriteOwned.cu = s.cu ∧
    s.rewriteOwned.de = s.de ∧
    s.rewriteOwned.pins = s.pins ∧
    s.rewriteOwned.clock = s.clock ∧
    s.rewriteOwned.free = s.free ∧
    s.rewriteOwned.pending = s.pending := by
  simp only [State.rewriteOwned]
  (repeat' split) <;> simp

@[simp] theorem armingApplied_frame (s : State) (tag : Byte) :
    (s.armingApplied tag).lines = s.lines ∧
    (s.armingApplied tag).mp = s.mp ∧
    (s.armingApplied tag).wu = s.wu ∧
    (s.armingApplied tag).pins = s.pins ∧
    (s.armingApplied tag).clock = s.clock ∧
    (s.armingApplied tag).free = s.free ∧
    (s.armingApplied tag).pending = s.pending := by
  simp only [State.armingApplied]
  simp

@[simp] theorem takeArming_frame (s : State) :
    s.takeArming.lines = s.lines ∧
    s.takeArming.pins = s.pins ∧
    s.takeArming.clock = s.clock ∧
    s.takeArming.pending = s.pending := by
  simp only [State.takeArming]
  (repeat' split) <;> simp

@[simp] theorem armed_frame (s : State) :
    s.armed.lines = s.lines ∧
    s.armed.pins = s.pins ∧
    s.armed.clock = s.clock ∧
    s.armed.awaited = s.awaited ∧
    s.armed.pending = s.pending := by
  simp only [State.armed, State.markChanged]
  split <;> simp

@[simp] theorem claimed_frame (s : State) :
    s.claimed.lines = s.lines ∧
    s.claimed.pins = s.pins ∧
    s.claimed.clock = s.clock ∧
    s.claimed.pending = s.pending := by
  simp only [State.claimed]
  split <;> simp

@[simp] theorem startRecord_frame (s : State) :
    s.startRecord.lines = s.lines ∧
    s.startRecord.cu = s.cu ∧
    s.startRecord.wu = s.wu ∧
    s.startRecord.pins = s.pins ∧
    s.startRecord.clock = s.clock ∧
    s.startRecord.free = s.free ∧
    s.startRecord.pending = s.pending := by
  simp only [State.startRecord, State.beginWork]
  (repeat' split) <;> simp

@[simp] theorem startPage_frame (s : State) :
    s.startPage.lines = s.lines ∧
    s.startPage.cu = s.cu ∧
    s.startPage.nu = s.nu ∧
    s.startPage.wu = s.wu ∧
    s.startPage.pins = s.pins ∧
    s.startPage.clock = s.clock ∧
    s.startPage.free = s.free ∧
    s.startPage.pending = s.pending := by
  simp only [State.startPage, State.beginWork]
  (repeat' split) <;> simp

@[simp] theorem startIndexReset_frame (s : State) :
    s.startIndexReset.lines = s.lines ∧
    s.startIndexReset.cu = s.cu ∧
    s.startIndexReset.de = s.de ∧
    s.startIndexReset.nu = s.nu ∧
    s.startIndexReset.wu = s.wu ∧
    s.startIndexReset.pins = s.pins ∧
    s.startIndexReset.clock = s.clock ∧
    s.startIndexReset.free = s.free ∧
    s.startIndexReset.pending = s.pending := by
  simp only [State.startIndexReset, State.beginWork]
  (repeat' split) <;> simp

@[simp] theorem startStatus_frame (s : State) :
    s.startStatus.lines = s.lines ∧
    s.startStatus.cu = s.cu ∧
    s.startStatus.nu = s.nu ∧
    s.startStatus.wu = s.wu ∧
    s.startStatus.pins = s.pins ∧
    s.startStatus.clock = s.clock ∧
    s.startStatus.free = s.free ∧
    s.startStatus.pending = s.pending := by
  simp only [State.startStatus, State.beginWork]
  (repeat' split) <;> simp

@[simp] theorem startRefresh_frame (s : State) :
    s.startRefresh.lines = s.lines ∧
    s.startRefresh.cu = s.cu ∧
    s.startRefresh.nu = s.nu ∧
    s.startRefresh.pins = s.pins ∧
    s.startRefresh.clock = s.clock ∧
    s.startRefresh.free = s.free ∧
    s.startRefresh.pending = s.pending := by
  simp only [State.startRefresh, State.beginWork]
  (repeat' split) <;> simp

@[simp] theorem startLoadRead_frame (s : State) :
    s.startLoadRead.lines = s.lines ∧
    s.startLoadRead.cu = s.cu ∧
    s.startLoadRead.de = s.de ∧
    s.startLoadRead.nu = s.nu ∧
    s.startLoadRead.wu = s.wu ∧
    s.startLoadRead.pins = s.pins ∧
    s.startLoadRead.clock = s.clock ∧
    s.startLoadRead.free = s.free ∧
    s.startLoadRead.pending = s.pending := by
  simp only [State.startLoadRead, State.beginWork]
  (repeat' split) <;> simp

@[simp] theorem endFlight_frame (s : State) :
    s.endFlight.lines = s.lines ∧
    s.endFlight.cu = s.cu ∧
    s.endFlight.nu = s.nu ∧
    s.endFlight.mp = s.mp ∧
    s.endFlight.wu = s.wu ∧
    s.endFlight.pins = s.pins ∧
    s.endFlight.clock = s.clock ∧
    s.endFlight.free = s.free ∧
    s.endFlight.pending = s.pending := by
  simp only [State.endFlight]
  simp

@[simp] theorem advanceW_frame (s : State) (r : RingId) :
    (s.advanceW r).lines = s.lines ∧
    (s.advanceW r).cu = s.cu ∧
    (s.advanceW r).nu = s.nu ∧
    (s.advanceW r).mp = s.mp ∧
    (s.advanceW r).wu = s.wu ∧
    (s.advanceW r).pins = s.pins ∧
    (s.advanceW r).clock = s.clock ∧
    (s.advanceW r).free = s.free ∧
    (s.advanceW r).pending = s.pending := by
  simp only [State.advanceW]
  simp

@[simp] theorem profileDelivered_frame (s : State) (l : LineId) :
    (s.profileDelivered l).lines = s.lines ∧
    (s.profileDelivered l).cu = s.cu ∧
    (s.profileDelivered l).mp = s.mp ∧
    (s.profileDelivered l).wu = s.wu ∧
    (s.profileDelivered l).pins = s.pins ∧
    (s.profileDelivered l).clock = s.clock ∧
    (s.profileDelivered l).free = s.free ∧
    (s.profileDelivered l).pending = s.pending := by
  simp only [State.profileDelivered]
  (repeat' split) <;> simp

@[simp] theorem deliver_frame (s : State) (r : RingId) :
    (s.deliver r).lines = s.lines ∧
    (s.deliver r).cu = s.cu ∧
    (s.deliver r).mp = s.mp ∧
    (s.deliver r).wu = s.wu ∧
    (s.deliver r).pins = s.pins ∧
    (s.deliver r).clock = s.clock ∧
    (s.deliver r).free = s.free ∧
    (s.deliver r).pending = s.pending := by
  simp only [State.deliver]
  (repeat' split) <;> simp

@[simp] theorem faultRing_frame (s : State) (r : RingId) :
    (s.faultRing r).lines = s.lines ∧
    (s.faultRing r).cu = s.cu ∧
    (s.faultRing r).nu = s.nu ∧
    (s.faultRing r).mp = s.mp ∧
    (s.faultRing r).wu = s.wu ∧
    (s.faultRing r).pins = s.pins ∧
    (s.faultRing r).clock = s.clock ∧
    (s.faultRing r).free = s.free ∧
    (s.faultRing r).pending = s.pending := by
  simp only [State.faultRing]
  simp

@[simp] theorem recordFault_frame (s : State) (r : RingId) (d : Nat) :
    (s.recordFault r d).lines = s.lines ∧
    (s.recordFault r d).cu = s.cu ∧
    (s.recordFault r d).mp = s.mp ∧
    (s.recordFault r d).wu = s.wu ∧
    (s.recordFault r d).pins = s.pins ∧
    (s.recordFault r d).clock = s.clock ∧
    (s.recordFault r d).free = s.free ∧
    (s.recordFault r d).pending = s.pending := by
  simp only [State.recordFault]
  (repeat' split) <;> simp

@[simp] theorem endRecordWord_frame (s : State) (e : Bool) :
    (s.endRecordWord e).lines = s.lines ∧
    (s.endRecordWord e).cu = s.cu ∧
    (s.endRecordWord e).wu = s.wu ∧
    (s.endRecordWord e).pins = s.pins ∧
    (s.endRecordWord e).clock = s.clock ∧
    (s.endRecordWord e).free = s.free ∧
    (s.endRecordWord e).pending = s.pending := by
  simp only [State.endRecordWord]
  (repeat' split) <;> simp

@[simp] theorem endWWord_frame (s : State) (e : Bool) :
    (s.endWWord e).lines = s.lines ∧
    (s.endWWord e).cu = s.cu ∧
    (s.endWWord e).wu = s.wu ∧
    (s.endWWord e).pins = s.pins ∧
    (s.endWWord e).clock = s.clock ∧
    (s.endWWord e).free = s.free ∧
    (s.endWWord e).pending = s.pending := by
  simp only [State.endWWord]
  (repeat' split) <;> simp

@[simp] theorem pageFault_frame (s : State) (p : PageId) :
    (s.pageFault p).lines = s.lines ∧
    (s.pageFault p).mp = s.mp ∧
    (s.pageFault p).wu = s.wu ∧
    (s.pageFault p).pins = s.pins ∧
    (s.pageFault p).clock = s.clock ∧
    (s.pageFault p).free = s.free ∧
    (s.pageFault p).pending = s.pending := by
  simp only [State.pageFault]
  (repeat' split) <;> simp

@[simp] theorem endPageWord_frame (s : State) (e : Bool) :
    (s.endPageWord e).lines = s.lines ∧
    (s.endPageWord e).wu = s.wu ∧
    (s.endPageWord e).pins = s.pins ∧
    (s.endPageWord e).clock = s.clock ∧
    (s.endPageWord e).free = s.free ∧
    (s.endPageWord e).pending = s.pending := by
  simp only [State.endPageWord]
  (repeat' split) <;> simp

@[simp] theorem indexResetFault_frame (s : State) (r : RingId) :
    (s.indexResetFault r).lines = s.lines ∧
    (s.indexResetFault r).cu = s.cu ∧
    (s.indexResetFault r).mp = s.mp ∧
    (s.indexResetFault r).wu = s.wu ∧
    (s.indexResetFault r).pins = s.pins ∧
    (s.indexResetFault r).clock = s.clock ∧
    (s.indexResetFault r).free = s.free ∧
    (s.indexResetFault r).pending = s.pending := by
  simp only [State.indexResetFault]
  (repeat' split) <;> simp

@[simp] theorem endIndexReset_frame (s : State) (e : Bool) :
    (s.endIndexReset e).lines = s.lines ∧
    (s.endIndexReset e).cu = s.cu ∧
    (s.endIndexReset e).wu = s.wu ∧
    (s.endIndexReset e).pins = s.pins ∧
    (s.endIndexReset e).clock = s.clock ∧
    (s.endIndexReset e).free = s.free ∧
    (s.endIndexReset e).pending = s.pending := by
  simp only [State.endIndexReset]
  (repeat' split) <;> simp

@[simp] theorem endStatus_frame (s : State) (e : Bool) :
    (s.endStatus e).lines = s.lines ∧
    (s.endStatus e).cu = s.cu ∧
    (s.endStatus e).de = s.de ∧
    (s.endStatus e).wu = s.wu ∧
    (s.endStatus e).pins = s.pins ∧
    (s.endStatus e).clock = s.clock ∧
    (s.endStatus e).free = s.free ∧
    (s.endStatus e).pending = s.pending := by
  simp only [State.endStatus]
  (repeat' split) <;> simp

@[simp] theorem releaseFresh_frame (s : State) (w : FreshWord) (v : Word) (e : Bool) :
    (s.releaseFresh w v e).lines = s.lines ∧
    (s.releaseFresh w v e).cu = s.cu ∧
    (s.releaseFresh w v e).de = s.de ∧
    (s.releaseFresh w v e).nu = s.nu ∧
    (s.releaseFresh w v e).wu = s.wu ∧
    (s.releaseFresh w v e).pins = s.pins ∧
    (s.releaseFresh w v e).clock = s.clock ∧
    (s.releaseFresh w v e).free = s.free ∧
    (s.releaseFresh w v e).pending = s.pending := by
  simp only [State.releaseFresh]
  (repeat' split) <;> simp

@[simp] theorem endRefresh_frame (s : State) (e : Bool) :
    (s.endRefresh e).lines = s.lines ∧
    (s.endRefresh e).cu = s.cu ∧
    (s.endRefresh e).de = s.de ∧
    (s.endRefresh e).wu = s.wu ∧
    (s.endRefresh e).pins = s.pins ∧
    (s.endRefresh e).clock = s.clock ∧
    (s.endRefresh e).free = s.free ∧
    (s.endRefresh e).pending = s.pending := by
  simp only [State.endRefresh]
  (repeat' split) <;> simp

@[simp] theorem endLoadRead_frame (s : State) (e : Bool) (d : Word) :
    (s.endLoadRead e d).lines = s.lines ∧
    (s.endLoadRead e d).wu = s.wu ∧
    (s.endLoadRead e d).pins = s.pins ∧
    (s.endLoadRead e d).clock = s.clock ∧
    (s.endLoadRead e d).free = s.free ∧
    (s.endLoadRead e d).pending = s.pending := by
  simp only [State.endLoadRead]
  (repeat' split) <;> simp

@[simp] theorem advanceMs_frame (s : State) :
    s.advanceMs.cu = s.cu ∧
    s.advanceMs.mp = s.mp ∧
    s.advanceMs.pins = s.pins ∧
    s.advanceMs.free = s.free ∧
    s.advanceMs.pending = s.pending := by
  simp only [State.advanceMs]
  simp

end Sys2Proof.Machine
end

