-- ==== Sys2Proof/Laws/Act.lean ====
section
/-! SUPPORT. What one action of the part does: it answers the state after the event with changed pages marked, and
under PORn nothing. -/

namespace Sys2Proof.Machine

/-! ## Claims that stand (R130; log 6) -/

/-- A port that is not FREE is left as it is. -/
theorem arbitrate_taken {s : State} (h : s.mp.port ≠ .free) : s.arbitrate = s := by
  simp only [State.arbitrate]
  split
  · rename_i e; exact absurd e h
  · rfl
  · rfl

theorem hostClaims_iff {s : State} : s.hostClaims = true ↔ ∃ r, s.mp.request = some r ∧ r.stage = .waiting := by
  unfold State.hostClaims
  cases s.mp.request with
  | none => exact ⟨fun x => (by cases x), fun ⟨_, x, _⟩ => (by cases x)⟩
  | some r => exact ⟨fun x => ⟨r, rfl, (by simpa using x)⟩, fun ⟨_, x, y⟩ => (by cases x; simpa using y)⟩

theorem armingDue_iff {s : State} : s.armingDue = true ↔ s.de.arming ≠ none ∧ s.de.flight = none := by
  simp only [State.armingDue, Bool.and_eq_true, Option.isNone_iff_eq_none, Option.isSome_iff_ne_none]

theorem armingDue_not {s : State} : s.armingDue = true ↔ ¬noArmingDue s := by
  rw [armingDue_iff, noArmingDue, not_or, Decidable.not_not]

theorem armingDue_false {s : State} (h : noArmingDue s) : ¬s.armingDue = true := fun x => armingDue_not.mp x h

/-- Where no arming is due, none takes effect first (R79). -/
theorem armed_rest {s : State} (h : noArmingDue s) : s.armed = s := by
  simp only [State.armed, if_neg (armingDue_false h)]

/-- An access on the port leaves no claim, where no arming is due. -/
theorem atRest_port {s : State} (ha : noArmingDue s) (h : s.mp.port ≠ .free) : atRest s := ⟨ha, .inl h⟩

/-- Where no arming is due and no claim stands, nothing takes place first. -/
theorem claimed_atRest {s : State} (h : atRest s) : s.claimed = s := by
  obtain ⟨hd, h⟩ := h
  simp only [State.claimed, armed_rest hd]
  split
  · rfl
  · rename_i ha
    rcases h with h | h | ⟨h, h'⟩
    · exact arbitrate_taken h
    · exact absurd h ha
    · have hc : s.hostClaims = false := by
        cases hc : s.hostClaims
        · rfl
        · obtain ⟨r, a, b⟩ := hostClaims_iff.mp hc
          exact absurd b (h' r a)
      simp only [State.arbitrate, hc, h]
      split
      · split <;> rfl
      · rfl
      · rfl

theorem act_awake {s : State} (h : awake s) (f : State → State) :
    s.act f = .next (s.claimed.grantFreed (s.claimed.markChanged (f s.claimed))) := by
  simp [State.act, show s.pins.por = false from h]

theorem act_rest {s : State} (h : awake s) (r : atRest s) (f : State → State) :
    s.act f = .next (s.grantFreed (s.markChanged (f s))) := by rw [act_awake h, claimed_atRest r]

theorem act_por {s : State} (h : s.pins.por = true) (f : State → State) : s.act f = .next s := by
  simp [State.act, h]

theorem actClaim_awake {s : State} (h : awake s) (f : State → State) :
    s.actClaim f = .next (s.claimed.markChanged (f s.claimed)).arbitrate := by
  simp [State.actClaim, show s.pins.por = false from h]

theorem actClaim_rest {s : State} (h : awake s) (r : atRest s) (f : State → State) :
    s.actClaim f = .next (s.markChanged (f s)).arbitrate := by rw [actClaim_awake h, claimed_atRest r]

theorem actClaim_por {s : State} (h : s.pins.por = true) (f : State → State) : s.actClaim f = .next s := by
  simp [State.actClaim, h]

theorem actStart_awake {s : State} (h : awake s) (f : State → State) : s.actStart f = .next (f s.armed) := by
  simp [State.actStart, show s.pins.por = false from h]

theorem actStart_rest {s : State} (h : awake s) (hd : noArmingDue s) (f : State → State) :
    s.actStart f = .next (f s) := by rw [actStart_awake h, armed_rest hd]

theorem actArming_awake {s : State} (h : awake s) :
    s.actArming = .next (s.markChanged s.takeArming).arbitrate := by
  simp [State.actArming, show s.pins.por = false from h]

theorem actStart_por {s : State} (h : s.pins.por = true) (f : State → State) : s.actStart f = .next s := by
  simp [State.actStart, h]

theorem actPins_awake {s : State} (h : awake s) (p : Pins) (f : State → State) : s.actPins p f = s.act f := by
  simp [State.actPins, show s.pins.por = false from h]

theorem actPins_por {s : State} (h : s.pins.por = true) (p : Pins) (f : State → State) :
    s.actPins p f = .next { s with pins := p } := by
  simp [State.actPins, h]

/-! ## The grant at the end of an action -/

/-- An action that keeps the port ends without a grant. -/
theorem grantFreed_kept {s u : State} (h : u.mp.port = s.mp.port) : s.grantFreed u = u := by
  simp only [State.grantFreed]
  split
  · rename_i e; exact arbitrate_taken (by rw [h]; exact e.1)
  · rfl

/-- An action that keeps the port marks changed pages and does nothing more (R130, log 26). -/
theorem act_kept {s : State} (h : awake s) (r : atRest s) (f : State → State) (hp : (f s).mp.port = s.mp.port) :
    s.act f = .next (s.markChanged (f s)) := by
  rw [act_rest h r, grantFreed_kept (by exact hp)]

theorem actPins_kept {s : State} (h : awake s) (r : atRest s) (p : Pins) (f : State → State)
    (hp : (f s).mp.port = s.mp.port) : s.actPins p f = .next (s.markChanged (f s)) := by
  rw [actPins_awake h, act_kept h r f hp]

/-! ## Marking changed pages -/

theorem deKept_markChanged {s t : State} (h : t.de = s.de) : deKept s (s.markChanged t) := by
  refine ⟨?_, fun p => ?_⟩
  · simp [State.markChanged, h]
  · simp [State.page, State.markChanged, h]

theorem deKept_of {s t : State} (h : deKept s t) : deKept s (s.markChanged t) := by
  obtain ⟨h1, h2⟩ := h
  refine ⟨?_, fun p => ?_⟩
  · simp only [State.markChanged]; rw [h1]
  · rw [markChanged_page]; exact h2 p

/-- Nothing of the Delivery Engine differs. -/
theorem deKept_eq {s t : State} (h : t.de = s.de) : deKept s t := ⟨by simp [h], fun p => by simp [State.page, h]⟩

theorem deKept_markPage {s t : State} (p : PageId) (h : deKept s t) : deKept s (t.markPage p) := by
  obtain ⟨h1, h2⟩ := h
  refine ⟨?_, fun q => ?_⟩
  · simp only [State.markPage, State.modPage, State.modDe]; rw [h1]
  · by_cases hq : q = p
    · subst hq; simpa [State.markPage] using h2 q
    · simpa [State.markPage, modPage_other _ _ _ _ hq] using h2 q

theorem deKept_trans {s t u : State} (h : deKept s t) (h' : u.de = t.de) : deKept s u := by
  obtain ⟨h1, h2⟩ := h
  exact ⟨by rw [h']; exact h1, fun p => by simpa [State.page, h'] using h2 p⟩

@[simp] theorem markChanged_ls (s t : State) (l : LineId) : (s.markChanged t).ls l = t.ls l := rfl
@[simp] theorem markChanged_sru (s t : State) (l : LineId) : (s.markChanged t).sru l = t.sru l := rfl
@[simp] theorem markChanged_gzu (s t : State) (l : LineId) : (s.markChanged t).gzu l = t.gzu l := rfl
@[simp] theorem markChanged_ring (s t : State) (r : RingId) : (s.markChanged t).ring r = t.ring r := rfl
@[simp] theorem markChanged_staging (s t : State) (l : LineId) : (s.markChanged t).staging l = t.staging l := rfl
@[simp] theorem markChanged_window (s t : State) (w : WindowId) : (s.markChanged t).window w = t.window w := rfl
@[simp] theorem markChanged_copies (s t : State) (l : LineId) : (s.markChanged t).copies l = t.copies l := rfl
@[simp] theorem markChanged_flight (s t : State) : (s.markChanged t).de.flight = t.de.flight := rfl
@[simp] theorem markChanged_rings (s t : State) : (s.markChanged t).de.rings = t.de.rings := rfl
@[simp] theorem markChanged_stagings (s t : State) : (s.markChanged t).de.staging = t.de.staging := rfl
@[simp] theorem markChanged_arming (s t : State) : (s.markChanged t).de.arming = t.de.arming := rfl
@[simp] theorem markChanged_fresh (s t : State) : (s.markChanged t).de.fresh = t.de.fresh := rfl
@[simp] theorem markChanged_statusDirty (s t : State) : (s.markChanged t).de.statusDirty = t.de.statusDirty := rfl
@[simp] theorem markChanged_lastPage (s t : State) : (s.markChanged t).de.lastPage = t.de.lastPage := rfl

/-- A page marked dirty stays marked. -/
theorem markChanged_isDirty {s t : State} {p : PageId} (h : isDirty t p) : isDirty (s.markChanged t) p := by
  simp only [isDirty, markChanged_page] at *; simp [h]

/-- A page an item of which differs is marked. -/
theorem markChanged_isDirty_of {s t : State} {p : PageId} (h : s.pageDiffers t p = true) :
    isDirty (s.markChanged t) p := by
  simp only [isDirty, markChanged_page]; simp [h]

theorem markPage_isDirty (s : State) (p : PageId) : isDirty (s.markPage p) p := by
  simp [isDirty, State.markPage]

end Sys2Proof.Machine
end

