-- ==== Sys2Proof/Laws/Classes.lean ====
section
/-! SUPPORT. The words of the gauge area: the model's classes, dispositions, fresh words and hold test say what the
offsets of Tables 7-1 and 7-2 say (spec/07 R134 to R137, spec/06 R125, R127). -/

namespace Sys2Proof.Machine
open Sys2Proof

/-! ## Offsets (R134) -/

theorem areaOffset_iff {s : State} {addr : Addr} {off : Nat} : s.areaOffset addr = some off ↔ liesAt s addr off := by
  simp only [State.areaOffset, liesAt]
  constructor
  · intro h
    split at h
    · cases h
      exact ⟨by omega, by omega⟩
    · cases h
  · rintro ⟨h, h'⟩
    rw [if_pos (by omega)]
    congr 1
    omega

theorem areaOffset_none {s : State} {addr : Addr} (h : s.areaOffset addr = none) (off : Nat) : ¬liesAt s addr off :=
  fun x => by rw [areaOffset_iff.mpr x] at h; cases h

/-- An address has one offset. -/
theorem liesAt_unique {s : State} {addr : Addr} {a b : Nat} (h : liesAt s addr a) (h' : liesAt s addr b) : a = b := by
  rw [← areaOffset_iff] at h h'
  rw [h] at h'
  cases h'
  rfl

/-- A property of the offset of an address, where it has one. -/
theorem exists_liesAt {s : State} {addr : Addr} {off : Nat} (h : s.areaOffset addr = some off) (P : Nat → Prop) :
    (∃ o, liesAt s addr o ∧ P o) ↔ P off :=
  ⟨fun ⟨_, x, y⟩ => liesAt_unique x (areaOffset_iff.mp h) ▸ y, fun y => ⟨off, areaOffset_iff.mp h, y⟩⟩

/-! ## Classes (R135, R136) -/

theorem inArmedRegion_iff {s : State} {off : Nat} : s.inArmedRegion off = true ↔ ∃ r : RingId, inRegionOf s r off := by
  have h : ∀ r : RingId, recordSize r.val = if r = noticeRing then 16 else 48 := by decide
  simp only [State.inArmedRegion, RingDesc.owns, List.any_eq_true, List.mem_finRange, true_and, Bool.and_eq_true,
    decide_eq_true_eq, inRegionOf, h, and_assoc]

/-- The class of a word by region (Table 7-1). -/
theorem wordClass_cases (s : State) (off : Nat) :
    (off < 0x100 ∧ s.wordClass off = .owned 8)
    ∨ (0x100 ≤ off ∧ off < 0x104 ∧ s.wordClass off = .commandSlot)
    ∨ (0x104 ≤ off ∧ off < 0x108 ∧ s.wordClass off = .owned 9)
    ∨ (0x108 ≤ off ∧ off < 0x200 ∧ s.wordClass off = .passThrough)
    ∨ (∃ sec, sectionOffset sec ≤ off ∧ off < sectionOffset sec + 256 ∧ s.wordClass off = .captured sec)
    ∨ (∃ r : RingId, 0xC00 + 16 * r.val ≤ off ∧ off < 0xC04 + 16 * r.val ∧ s.wordClass off = .owned 10)
    ∨ (∃ r : RingId, 0xC04 + 16 * r.val ≤ off ∧ off < 0xC08 + 16 * r.val ∧ s.wordClass off = .readIndex r)
    ∨ (0xC00 ≤ off ∧ off < 0x1000 ∧ (0xC50 ≤ off ∨ 8 ≤ off % 16) ∧ s.wordClass off = .passThrough)
    ∨ (0x1000 ≤ off ∧ off < 0x1800 ∧ s.wordClass off = .owned 11)
    ∨ (0x1800 ≤ off ∧ off < 0x2000 ∧ s.wordClass off = .passThrough)
    ∨ (0x2000 ≤ off ∧ s.inArmedRegion off = true ∧ s.wordClass off = .owned 12)
    ∨ (0x2000 ≤ off ∧ s.inArmedRegion off = false ∧ s.wordClass off = .passThrough) := by
  have fin : ∀ n : Nat, n < 4 → (Fin.ofNat 4 n).val = n := fun n h => Nat.mod_eq_of_lt h
  have fin' : ∀ n : Nat, n < 5 → (Fin.ofNat 5 n).val = n := fun n h => Nat.mod_eq_of_lt h
  simp only [State.wordClass]
  by_cases h1 : off < 0x100
  · exact .inl ⟨h1, by rw [if_pos h1]⟩
  rw [if_neg h1]
  refine .inr ?_
  by_cases h2 : off < 0x104
  · exact .inl ⟨by omega, h2, by rw [if_pos h2]⟩
  rw [if_neg h2]
  refine .inr ?_
  by_cases h3 : off < 0x108
  · exact .inl ⟨by omega, h3, by rw [if_pos h3]⟩
  rw [if_neg h3]
  refine .inr ?_
  by_cases h4 : off < 0x200
  · exact .inl ⟨by omega, h4, by rw [if_pos h4]⟩
  rw [if_neg h4]
  refine .inr ?_
  by_cases h5 : off < 0x300
  · exact .inl ⟨.delivery, by simp only [sectionOffset]; omega, by simp only [sectionOffset]; omega, by rw [if_pos h5]⟩
  rw [if_neg h5]
  by_cases h6 : off < 0x400
  · exact .inl ⟨.windows, by simp only [sectionOffset]; omega, by simp only [sectionOffset]; omega, by rw [if_pos h6]⟩
  rw [if_neg h6]
  by_cases h7 : off < 0x800
  · have e := fin ((off - 0x400) / 256) (by omega)
    exact .inl ⟨.line (Fin.ofNat 4 ((off - 0x400) / 256)), by simp only [sectionOffset, e]; omega,
      by simp only [sectionOffset, e]; omega, by rw [if_pos h7]⟩
  rw [if_neg h7]
  by_cases h8 : off < 0xC00
  · have e := fin ((off - 0x800) / 256) (by omega)
    exact .inl ⟨.cal (Fin.ofNat 4 ((off - 0x800) / 256)), by simp only [sectionOffset, e]; omega,
      by simp only [sectionOffset, e]; omega, by rw [if_pos h8]⟩
  rw [if_neg h8]
  refine .inr ?_
  by_cases h9 : off < 0xC50
  · have e := fin' ((off - 0xC00) / 16) (by omega)
    rw [if_pos h9]
    by_cases ha : off % 16 < 4
    · exact .inl ⟨Fin.ofNat 5 ((off - 0xC00) / 16), by rw [e]; omega, by rw [e]; omega, by rw [if_pos ha]⟩
    rw [if_neg ha]
    refine .inr ?_
    by_cases hb : off % 16 < 8
    · exact .inl ⟨Fin.ofNat 5 ((off - 0xC00) / 16), by rw [e]; omega, by rw [e]; omega, by rw [if_pos hb]⟩
    rw [if_neg hb]
    exact .inr (.inl ⟨by omega, by omega, by omega, rfl⟩)
  rw [if_neg h9]
  refine .inr (.inr ?_)
  by_cases h10 : off < 0x1000
  · exact .inl ⟨by omega, h10, by omega, by rw [if_pos h10]⟩
  rw [if_neg h10]
  refine .inr ?_
  by_cases h11 : off < 0x1800
  · exact .inl ⟨by omega, h11, by rw [if_pos h11]⟩
  rw [if_neg h11]
  refine .inr ?_
  by_cases h12 : off < 0x2000
  · exact .inl ⟨by omega, h12, by rw [if_pos h12]⟩
  rw [if_neg h12]
  refine .inr ?_
  cases hi : s.inArmedRegion off
  · exact .inr ⟨by omega, rfl, by simp⟩
  · exact .inl ⟨by omega, rfl, by simp⟩

/-- Where the sections stand. -/
theorem sectionOffset_range (sec : SectionId) : 0x200 ≤ sectionOffset sec ∧ sectionOffset sec + 256 ≤ 0xC00 := by
  cases sec <;> simp only [sectionOffset] <;> first | omega | (rename_i l; have := l.isLt; omega)

/-- A word lies in one section. -/
theorem sectionOffset_unique {a b : SectionId} {off : Nat} (h : sectionOffset a ≤ off ∧ off < sectionOffset a + 256)
    (h' : sectionOffset b ≤ off ∧ off < sectionOffset b + 256) : a = b := by
  cases a with
  | line l =>
    have := l.isLt
    cases b with
    | line k => simp only [sectionOffset] at h h'; congr 1; ext; omega
    | cal k => simp only [sectionOffset] at h h'; omega
    | windows => simp only [sectionOffset] at h h'; omega
    | delivery => simp only [sectionOffset] at h h'; omega
  | cal l =>
    have := l.isLt
    cases b with
    | line k => have := k.isLt; simp only [sectionOffset] at h h'; omega
    | cal k => simp only [sectionOffset] at h h'; congr 1; ext; omega
    | windows => simp only [sectionOffset] at h h'; omega
    | delivery => simp only [sectionOffset] at h h'; omega
  | windows =>
    cases b with
    | line k => have := k.isLt; simp only [sectionOffset] at h h'; omega
    | cal k => have := k.isLt; simp only [sectionOffset] at h h'; omega
    | windows => rfl
    | delivery => simp only [sectionOffset] at h h'; omega
  | delivery =>
    cases b with
    | line k => have := k.isLt; simp only [sectionOffset] at h h'; omega
    | cal k => have := k.isLt; simp only [sectionOffset] at h h'; omega
    | windows => simp only [sectionOffset] at h h'; omega
    | delivery => rfl

theorem wordClass_owned {s : State} {off c : Nat} (h : off < 65536) :
    s.wordClass off = .owned c ↔ ownedAs s off c := by
  have ex : (∃ r : RingId, 0x0C00 + 16 * r.val ≤ off ∧ off < 0x0C04 + 16 * r.val)
      ↔ (0xC00 ≤ off ∧ off < 0xC50 ∧ off % 16 < 4) :=
    ⟨fun ⟨r, a, b⟩ => by have := r.isLt; omega,
     fun ⟨a, b, c⟩ => ⟨⟨(off - 0xC00) / 16, by omega⟩, by simp only []; omega, by simp only []; omega⟩⟩
  simp only [ownedAs, ex, ← inArmedRegion_iff]
  rcases wordClass_cases s off with x | x | x | x | x | x | x | x | x | x | x | x
  · rw [x.2]; simp only [WordClass.owned.injEq]; omega
  · rw [x.2.2]; simp only [reduceCtorEq, false_iff]; omega
  · rw [x.2.2]; simp only [WordClass.owned.injEq]; omega
  · rw [x.2.2]; simp only [reduceCtorEq, false_iff]; omega
  · obtain ⟨sec, a, b, e⟩ := x
    have := sectionOffset_range sec
    rw [e]; simp only [reduceCtorEq, false_iff]; omega
  · obtain ⟨r, a, b, e⟩ := x
    have := r.isLt
    rw [e]; simp only [WordClass.owned.injEq]; omega
  · obtain ⟨r, a, b, e⟩ := x
    have := r.isLt
    rw [e]; simp only [reduceCtorEq, false_iff]; omega
  · rw [x.2.2.2]; simp only [reduceCtorEq, false_iff]; omega
  · rw [x.2.2]; simp only [WordClass.owned.injEq]; omega
  · rw [x.2.2]; simp only [reduceCtorEq, false_iff]; omega
  · rw [x.2.2, x.2.1]; simp only [WordClass.owned.injEq, and_true]; omega
  · rw [x.2.2, x.2.1]; simp only [reduceCtorEq, false_iff, Bool.false_eq_true, and_false, or_false]; omega

theorem wordClass_captured {s : State} {off : Nat} (sec : SectionId) :
    s.wordClass off = .captured sec ↔ sectionOffset sec ≤ off ∧ off < sectionOffset sec + 256 := by
  have := sectionOffset_range sec
  rcases wordClass_cases s off with x | x | x | x | ⟨k, a, b, x⟩ | ⟨r, a, b, x⟩ | ⟨r, a, b, x⟩ | x | x | x | x | x
  all_goals first
    | (rw [x.2]; simp only [reduceCtorEq, false_iff]; omega)
    | (rw [x.2.2]; simp only [reduceCtorEq, false_iff]; omega)
    | (rw [x.2.2.2]; simp only [reduceCtorEq, false_iff]; omega)
    | (rw [x]; simp only [reduceCtorEq, false_iff]; omega)
    | (rw [x]; exact ⟨fun e => (by cases e; exact ⟨a, b⟩), fun e => by rw [sectionOffset_unique ⟨a, b⟩ e]⟩)

theorem wordClass_slot {s : State} {off : Nat} : s.wordClass off = .commandSlot ↔ 0x0100 ≤ off ∧ off ≤ 0x0103 := by
  rcases wordClass_cases s off with x | x | x | x | ⟨k, a, b, x⟩ | ⟨r, a, b, x⟩ | ⟨r, a, b, x⟩ | x | x | x | x | x
  all_goals first
    | (rw [x.2]; simp only [reduceCtorEq, false_iff]; omega)
    | (rw [x.2.2]; simp only [reduceCtorEq, false_iff, true_iff]; omega)
    | (rw [x.2.2.2]; simp only [reduceCtorEq, false_iff]; omega)
    | (rw [x]; simp only [reduceCtorEq, false_iff]; omega)
    | (have := sectionOffset_range k; rw [x]; simp only [reduceCtorEq, false_iff]; omega)

theorem wordClass_readIndex {s : State} {off : Nat} (r : RingId) :
    s.wordClass off = .readIndex r ↔ 0x0C04 + 16 * r.val ≤ off ∧ off < 0x0C08 + 16 * r.val := by
  have := r.isLt
  rcases wordClass_cases s off with x | x | x | x | ⟨k, a, b, x⟩ | ⟨q, a, b, x⟩ | ⟨q, a, b, x⟩ | x | x | x | x | x
  all_goals first
    | (rw [x.2]; simp only [reduceCtorEq, false_iff]; omega)
    | (rw [x.2.2]; simp only [reduceCtorEq, false_iff]; omega)
    | (rw [x.2.2.2]; simp only [reduceCtorEq, false_iff]; omega)
    | (rw [x]; simp only [reduceCtorEq, false_iff]; omega)
    | (have := sectionOffset_range k; rw [x]; simp only [reduceCtorEq, false_iff]; omega)
    | (rw [x]; simp only [WordClass.readIndex.injEq, Fin.ext_iff]; omega)

/-! ## Dispositions (R137, R138, R170) -/

theorem guards_iff {s : State} {addr : Addr} {w : WindowId} : s.guards addr w = true ↔ guardedBy s addr w := by
  simp only [State.guards, WindowDef.covers, guardedBy, Bool.and_eq_true, decide_eq_true_eq, and_assoc]

theorem ownedCause_iff {s : State} {addr : Addr} {c : Nat} : s.ownedCause addr = some c ↔ ownedHit s addr c := by
  simp only [ownedHit]
  cases h : s.areaOffset addr with
  | none =>
    simp only [State.ownedCause, State.addrClass, h]
    exact ⟨fun x => (by cases x), fun ⟨off, x, _⟩ => absurd x (areaOffset_none h off)⟩
  | some off =>
    have ho : off < 65536 := (areaOffset_iff.mp h).2
    rw [exists_liesAt h]
    have hc : ∀ l : LineId, sectionOffset (.cal l) = 0x0800 + 256 * l.val := fun _ => rfl
    cases hw : s.wordClass off <;> simp only [State.ownedCause, State.addrClass, h, hw]
    case owned k =>
      have hk := (wordClass_owned ho).mp hw
      have hn : ¬(0x0800 ≤ off ∧ off ≤ 0x0BFF) := fun hb => by
        have := (wordClass_captured (s := s) (off := off) (.cal ⟨(off - 0x800) / 256, by omega⟩)).mpr
          (by rw [hc]; simp only []; omega)
        rw [hw] at this; cases this
      constructor
      · intro x; cases x; exact .inl hk
      · rintro (x | ⟨_, _, x⟩)
        · rw [← wordClass_owned ho, hw] at x; cases x; rfl
        · exact absurd x hn
    case captured sec =>
      have hk := (wordClass_captured sec).mp hw
      have hno : ¬ownedAs s off c := fun x => by rw [← wordClass_owned ho, hw] at x; cases x
      cases sec <;> simp only [sectionOffset] at hk <;> simp [hno] <;> (try (rename_i l; have := l.isLt)) <;> (try omega)
      grind
    case commandSlot =>
      have hk := wordClass_slot.mp hw
      have hno : ¬ownedAs s off c := fun x => by rw [← wordClass_owned ho, hw] at x; cases x
      simp [hno]; omega
    case readIndex r =>
      have hk := (wordClass_readIndex r).mp hw
      have hno : ¬ownedAs s off c := fun x => by rw [← wordClass_owned ho, hw] at x; cases x
      simp [hno]; omega
    case passThrough =>
      have hno : ¬ownedAs s off c := fun x => by rw [← wordClass_owned ho, hw] at x; cases x
      simp only [hno, false_or, reduceCtorEq, false_iff, not_and, Nat.not_le]
      intro _ _ hb
      rcases Nat.lt_or_ge 0xBFF off with h2 | h2
      · exact h2
      · have := (wordClass_captured (s := s) (off := off) (.cal ⟨(off - 0x800) / 256, by omega⟩)).mpr
          (by rw [hc]; simp only []; omega)
        rw [hw] at this; cases this

theorem suppresses_iff {s : State} {addr : Addr} : s.suppresses addr = true ↔ suppressed s addr := by
  simp only [State.suppresses, suppressed, Bool.or_eq_true, Option.isSome_iff_exists, ownedCause_iff,
    State.guardWindows, Bool.not_eq_true', List.isEmpty_eq_false_iff_exists_mem, List.mem_filter, List.mem_finRange,
    true_and, guards_iff]

theorem targetOf_iff {s : State} {addr : Addr} {x : CaptureTarget} (hx : x ≠ .none) :
    s.targetOf addr = x ↔ capturedAs s addr x := by
  simp only [State.targetOf, State.addrClass, capturedAs]
  cases h : s.areaOffset addr with
  | none => exact ⟨fun e => absurd e.symm hx, fun ⟨off, y, _⟩ => absurd y (areaOffset_none h off)⟩
  | some off =>
    rw [exists_liesAt h]
    simp only [← wordClass_captured (s := s), ← wordClass_slot (s := s), ← wordClass_readIndex (s := s)]
    cases hw : s.wordClass off <;> simp [hx.symm, eq_comm]

theorem freshOf_iff {s : State} {addr : Addr} {f : FreshWord} : s.freshOf addr = some f ↔ freshAt s addr f := by
  simp only [freshAt]
  cases h : s.areaOffset addr with
  | none =>
    simp only [State.freshOf, h]
    exact ⟨fun e => (by cases e), fun ⟨off, y, _⟩ => absurd y (areaOffset_none h off)⟩
  | some off =>
    rw [exists_liesAt h]
    simp only [State.freshOf, h]
    by_cases h1 : off < 4
    · rw [if_pos h1]
      cases f <;> simp only [Option.some.injEq, reduceCtorEq, true_iff, false_iff, true_and, false_and, or_false, false_or] <;> omega
    · rw [if_neg h1]
      by_cases h2 : off < 8
      · rw [if_pos h2]
        cases f <;> simp only [Option.some.injEq, reduceCtorEq, true_iff, false_iff, true_and, false_and, or_false, false_or] <;> omega
      · rw [if_neg h2]
        cases f <;> simp only [reduceCtorEq, false_iff, true_and, false_and, or_false, false_or] <;> omega

/-! ## The hold test (R125) -/

theorem isWWord_iff {r : RingId} {off : Nat} :
    isWWord r off = true ↔ 0x0C00 + 16 * r.val ≤ off ∧ off < 0x0C04 + 16 * r.val := by
  simp only [isWWord, Bool.and_eq_true, decide_eq_true_eq]
  simp only [wWordOffset]
  omega

theorem inPage_iff {p : PageId} {off : Nat} :
    inPage p off = true ↔ (p = partPage ∧ 0x0008 ≤ off ∧ off ≤ 0x00FF)
      ∨ ∃ l : LineId, p = linePage l ∧ 0x1000 + 512 * l.val ≤ off ∧ off ≤ 0x11FF + 512 * l.val := by
  have hp : ringLine partPage = none := rfl
  have hl : ∀ l : LineId, ringLine (linePage l) = some l := by decide
  have hpl : ∀ l : LineId, linePage l ≠ partPage := by decide
  have inj : ∀ a b : LineId, linePage a = linePage b → a = b := by decide
  rcases (by decide : ∀ p : PageId, p = partPage ∨ ∃ l : LineId, p = linePage l) p with e | ⟨l, e⟩
  · subst e
    simp only [inPage, hp, Bool.and_eq_true, decide_eq_true_eq, true_and]
    constructor
    · intro x; left; omega
    · rintro (x | ⟨l, x, _⟩)
      · omega
      · exact absurd x.symm (hpl l)
  · subst e
    simp only [inPage, hl, Bool.and_eq_true, decide_eq_true_eq]
    constructor
    · intro x; right; exact ⟨l, rfl, by omega⟩
    · rintro (⟨x, _⟩ | ⟨k, x, y⟩)
      · exact absurd x (hpl l)
      · cases inj _ _ x; omega

/-- The hold test says what R125 says by offset. -/
theorem holdTest_iff {s : State} {addr : Addr} : s.holdTest addr = true ↔ covered s addr := by
  simp only [State.holdTest, covered]
  cases h : s.areaOffset addr with
  | none => exact ⟨fun e => (by cases e), fun ⟨off, y, _⟩ => absurd y (areaOffset_none h off)⟩
  | some off =>
    rw [exists_liesAt h]
    simp only [Bool.or_eq_true, List.any_eq_true, List.mem_finRange, true_and, Bool.and_eq_true, isWWord_iff]
    cases hf : s.de.flight with
    | none => simp
    | some f =>
      cases f with
      | record r slot words done =>
        simp only [Flight.covers, Bool.or_eq_true, Bool.and_eq_true, decide_eq_true_eq, isWWord_iff, Option.some.injEq,
          Flight.record.injEq, reduceCtorEq, false_and, exists_const, false_or]
        refine or_congr_left ⟨fun x => ⟨r, slot, words, done, ⟨rfl, rfl, rfl, rfl⟩, x⟩, ?_⟩
        rintro ⟨_, _, _, _, ⟨rfl, rfl, rfl, rfl⟩, x⟩
        exact x
      | page p words done =>
        simp only [Flight.covers, inPage_iff, Option.some.injEq, Flight.page.injEq, reduceCtorEq, false_and,
          exists_const, false_or]
        refine or_congr_left ⟨fun x => ⟨p, words, done, ⟨rfl, rfl, rfl⟩, x⟩, ?_⟩
        rintro ⟨_, _, _, ⟨rfl, rfl, rfl⟩, x⟩
        exact x

end Sys2Proof.Machine
end

