-- ==== Sys2Proof/Laws/Notices.lean ====
section
/-! SUPPORT. What raising a notice does: it is recorded, what was recorded before of another pair stays recorded, and
ATTN follows its terms. -/

namespace Sys2Proof.Machine

/-- The pair test as a statement. -/
theorem isPair_iff (b : BacklogEntry) (k : Kind) (src : Source) :
    b.isPair k src = true ↔ b.entry.kind = k ∧ b.entry.source = src := by
  simp [BacklogEntry.isPair]

@[simp] theorem merge_kind (b : BacklogEntry) (v : Nat) (d : Half) (now : Word) :
    (b.merge v d now).entry.kind = b.entry.kind := by
  unfold BacklogEntry.merge; split <;> rfl
@[simp] theorem merge_source (b : BacklogEntry) (v : Nat) (d : Half) (now : Word) :
    (b.merge v d now).entry.source = b.entry.source := by
  unfold BacklogEntry.merge; split <;> rfl

/-- An entry tells of the event merged into it. -/
theorem merge_tells {b : BacklogEntry} {k : Kind} {src : Source} (h : b.isPair k src = true) (v : Nat) (d : Half)
    (now : Word) : (b.merge v d now).tells k src d now := by
  obtain ⟨h1, h2⟩ := (isPair_iff b k src).mp h
  refine ⟨by simp [h1], by simp [h2], ?_⟩
  unfold BacklogEntry.merge
  split
  · rename_i hf
    refine .inr ⟨hf, _, rfl, ?_⟩
    unfold mergeLate; split <;> exact ⟨rfl, rfl⟩
  · rename_i hf
    exact .inl ⟨by simpa using hf, rfl, rfl⟩

/-- The backlog tells of the event merged into it. -/
theorem mergeBacklog_tells (bl : List BacklogEntry) (k : Kind) (src : Source) (v : Nat) (d : Half) (now : Word) :
    ∃ b, b ∈ mergeBacklog bl k src v d now ∧ b.tells k src d now := by
  unfold mergeBacklog
  split
  · rename_i h
    obtain ⟨b, hb, hp⟩ := List.any_eq_true.mp h
    exact ⟨b.merge v d now, List.mem_map.mpr ⟨b, hb, by simp [hp]⟩, merge_tells hp v d now⟩
  · exact ⟨_, List.mem_append_right _ (List.mem_singleton.mpr rfl), rfl, rfl, .inl ⟨rfl, rfl, rfl⟩⟩

/-- What the backlog tells of another pair it goes on telling. -/
theorem mergeBacklog_other {bl : List BacklogEntry} {k k' : Kind} {src src' : Source} {d' : Half} {now' : Word}
    (v : Nat) (d : Half) (now : Word) (hne : k ≠ k') (h : ∃ b, b ∈ bl ∧ b.tells k' src' d' now') :
    ∃ b, b ∈ mergeBacklog bl k src v d now ∧ b.tells k' src' d' now' := by
  obtain ⟨b, hb, ht⟩ := h
  refine ⟨b, ?_, ht⟩
  unfold mergeBacklog
  split
  · refine List.mem_map.mpr ⟨b, hb, ?_⟩
    rw [if_neg]
    intro hp
    exact hne (((isPair_iff b k src).mp hp).1.symm.trans ht.1)
  · exact List.mem_append_left _ hb

/-- Disposing of a recorded event leaves outstanding list, sequence and counter. -/
theorem dispose_nu (s : State) (k : Kind) (src : Source) (v : Nat) (d : Half) :
    (s.dispose k src v d).nu.outstanding = s.nu.outstanding ∧ (s.dispose k src v d).nu.sequence = s.nu.sequence
      ∧ (s.dispose k src v d).nu.ms = s.nu.ms := by
  unfold State.dispose; split <;> exact ⟨rfl, rfl, rfl⟩

@[simp] theorem raise_outstanding (s : State) (k : Kind) (src : Source) (d : Nat) :
    (s.raise k src d).nu.outstanding = s.nu.outstanding := by
  unfold State.raise; split
  · rfl
  · exact (dispose_nu ..).1
@[simp] theorem raise_sequence (s : State) (k : Kind) (src : Source) (d : Nat) :
    (s.raise k src d).nu.sequence = s.nu.sequence := by
  unfold State.raise; split
  · rfl
  · exact (dispose_nu ..).2.1
@[simp] theorem raise_ms (s : State) (k : Kind) (src : Source) (d : Nat) : (s.raise k src d).nu.ms = s.nu.ms := by
  unfold State.raise; split
  · rfl
  · exact (dispose_nu ..).2.2
@[simp] theorem raise_levelOf (s : State) (k : Kind) (src : Source) (d : Nat) (k' : Kind) :
    (s.raise k src d).levelOf k' = s.levelOf k' := by
  simp [State.levelOf, State.liveDelivery]

theorem records_reeval {n : Nu} {a : Bool} {k : Kind} {src : Source} {d : Half} {now : Word}
    (h : records n k src d now) : records { n with attn := a } k src d now := h

/-- A notice raised at a level above 0 is recorded. -/
theorem raise_records (s : State) (k : Kind) (src : Source) (d : Nat) (h : s.levelOf k ≠ 0) :
    records (s.raise k src d).nu k src (BitVec.ofNat 16 d) s.nu.ms := by
  unfold State.raise
  rw [if_neg h]
  refine records_reeval (n := (s.dispose k src (s.levelOf k) (BitVec.ofNat 16 d)).nu) ?_
  unfold State.dispose
  split
  · exact .inl ⟨_, rfl, rfl, rfl, rfl, rfl⟩
  · exact .inr (mergeBacklog_tells ..)

/-- A notice of another kind leaves what is recorded. -/
theorem raise_records_other (s : State) (k k' : Kind) (src src' : Source) (d : Nat) (d' : Half) (now' : Word)
    (hne : k ≠ k') (h : records s.nu k' src' d' now') : records (s.raise k src d).nu k' src' d' now' := by
  unfold State.raise
  split
  · exact h
  · refine records_reeval (n := (s.dispose k src (s.levelOf k) (BitVec.ofNat 16 d)).nu) ?_
    unfold State.dispose
    split
    · rename_i hf
      refine .inr ?_
      rcases h with ⟨o, ho, _⟩ | ⟨b, hb, _⟩
      · simp [State.offerFree, ho] at hf
      · simp [State.offerFree] at hf; simp [hf.1.2] at hb
    · rcases h with ho | hb
      · exact .inl ho
      · exact .inr (mergeBacklog_other _ _ _ hne hb)

/-! ## No notice of a kind -/

theorem notRaised_refl (s : State) (k : Kind) : notRaised s s k := ⟨fun _ _ => Iff.rfl, fun _ _ => Iff.rfl⟩

theorem notRaised_trans {s t u : State} {k : Kind} (h : notRaised s t k) (h' : notRaised t u k) : notRaised s u k :=
  ⟨fun b x => (h'.1 b x).trans (h.1 b x), fun o x => (h'.2 o x).trans (h.2 o x)⟩

theorem notRaised_of {s t : State} {k : Kind} (h : t.nu.backlog = s.nu.backlog) (h' : t.nu.offer = s.nu.offer) :
    notRaised s t k := ⟨fun _ _ => by rw [h], fun _ _ => by rw [h']⟩

/-- Merging an event leaves the entries of other kinds. -/
theorem mem_mergeBacklog_other {bl : List BacklogEntry} {k : Kind} {src : Source} {v : Nat} {d : Half} {now : Word}
    {b : BacklogEntry} (hne : b.entry.kind ≠ k) : b ∈ mergeBacklog bl k src v d now ↔ b ∈ bl := by
  have pair {x : BacklogEntry} (h : x.isPair k src = true) : x.entry.kind = k := ((isPair_iff x k src).mp h).1
  unfold mergeBacklog
  split
  · constructor
    · intro h
      obtain ⟨x, hx, rfl⟩ := List.mem_map.mp h
      split at hne
      · rename_i hp
        exact absurd (by rw [merge_kind]; exact pair hp) hne
      · rename_i hp
        rw [if_neg hp]
        exact hx
    · exact fun h => List.mem_map.mpr ⟨b, h, if_neg fun hp => hne (pair hp)⟩
  · rw [List.mem_append, List.mem_singleton]
    exact ⟨fun h => h.elim id fun e => absurd (by rw [e]; rfl) hne, .inl⟩

/-- Raising a notice raises none of another kind. -/
theorem raise_notRaised (s : State) (k k' : Kind) (src : Source) (d : Nat) (hne : k ≠ k') :
    notRaised s (s.raise k src d) k' := by
  unfold State.raise
  split
  · exact notRaised_refl s k'
  · refine notRaised_trans (t := s.dispose k src (s.levelOf k) (BitVec.ofNat 16 d)) ?_ (notRaised_of rfl rfl)
    unfold State.dispose
    split
    · rename_i hf
      have ho : s.nu.offer = none := by
        simp only [State.offerFree, Bool.and_eq_true, Option.isNone_iff_eq_none] at hf
        exact hf.1.1
      refine ⟨fun _ _ => Iff.rfl, fun o hk => ⟨fun x => ?_, fun x => ?_⟩⟩
      · cases x
        exact absurd hk hne
      · rw [ho] at x
        cases x
    · exact ⟨fun b hk => mem_mergeBacklog_other fun x => hne (x.symm.trans hk), fun _ _ => Iff.rfl⟩

/-- What is recorded of a kind stays so where none of the kind is raised. -/
theorem records_of_notRaised {s t : State} {k : Kind} {src : Source} {d : Half} {now : Word} (h : notRaised s t k)
    (hr : records s.nu k src d now) : records t.nu k src d now := by
  rcases hr with ⟨o, ho, hk, hx⟩ | ⟨b, hb, ht⟩
  · exact .inl ⟨o, (h.2 o hk).mpr ho, hk, hx⟩
  · exact .inr ⟨b, (h.1 b ht.1).mpr hb, ht⟩

end Sys2Proof.Machine
end

