-- ==== Sys2Proof/Laws/Parts.lean ====
section
/-! SUPPORT. What each shared operation leaves as it was inside the blocks it does touch: one lemma an operation,
naming every part of those blocks that it keeps. -/

namespace Sys2Proof.Machine
set_option linter.unusedSimpArgs false
/-- An element of a row after an update of one element, seen through a view that the update keeps. -/
theorem modAt_view {α β : Type} {n : Nat} (v : Vector α n) (i j : Fin n) (f : α → α) (g : α → β) (h : ∀ x, g (f x) = g x) :
    g (modAt v i f)[j.val] = g v[j.val] := by
  by_cases e : j = i
  · subst e; simp [h]
  · rw [modAt_other _ _ _ _ e]

theorem modLs_lines_other (s : State) (l k : LineId) (f : Sequencer → Sequencer) (h : k ≠ l) : (s.modLs l f).lines[k.val] = s.lines[k.val] := modLine_other s l k _ h
@[simp] theorem modLs_lines_ls (s : State) (l : LineId) (f : Sequencer → Sequencer) : (s.modLs l f).lines[l.val].ls = f s.lines[l.val].ls := by simp [State.modLs, State.modLine]
@[simp] theorem modLs_lines_sru (s : State) (l k : LineId) (f : Sequencer → Sequencer) : (s.modLs l f).lines[k.val].sru = s.lines[k.val].sru := modAt_view s.lines l k _ Line.sru fun _ => rfl
@[simp] theorem modLs_lines_gzu (s : State) (l k : LineId) (f : Sequencer → Sequencer) : (s.modLs l f).lines[k.val].gzu = s.lines[k.val].gzu := modAt_view s.lines l k _ Line.gzu fun _ => rfl
theorem modSru_lines_other (s : State) (l k : LineId) (f : Sru → Sru) (h : k ≠ l) : (s.modSru l f).lines[k.val] = s.lines[k.val] := modLine_other s l k _ h
@[simp] theorem modSru_lines_ls (s : State) (l k : LineId) (f : Sru → Sru) : (s.modSru l f).lines[k.val].ls = s.lines[k.val].ls := modAt_view s.lines l k _ Line.ls fun _ => rfl
@[simp] theorem modSru_lines_sru (s : State) (l : LineId) (f : Sru → Sru) : (s.modSru l f).lines[l.val].sru = f s.lines[l.val].sru := by simp [State.modSru, State.modLine]
@[simp] theorem modSru_lines_gzu (s : State) (l k : LineId) (f : Sru → Sru) : (s.modSru l f).lines[k.val].gzu = s.lines[k.val].gzu := modAt_view s.lines l k _ Line.gzu fun _ => rfl
theorem modGzu_lines_other (s : State) (l k : LineId) (f : Gzu → Gzu) (h : k ≠ l) : (s.modGzu l f).lines[k.val] = s.lines[k.val] := modLine_other s l k _ h
@[simp] theorem modGzu_lines_ls (s : State) (l k : LineId) (f : Gzu → Gzu) : (s.modGzu l f).lines[k.val].ls = s.lines[k.val].ls := modAt_view s.lines l k _ Line.ls fun _ => rfl
@[simp] theorem modGzu_lines_sru (s : State) (l k : LineId) (f : Gzu → Gzu) : (s.modGzu l f).lines[k.val].sru = s.lines[k.val].sru := modAt_view s.lines l k _ Line.sru fun _ => rfl
@[simp] theorem modGzu_lines_gzu (s : State) (l : LineId) (f : Gzu → Gzu) : (s.modGzu l f).lines[l.val].gzu = f s.lines[l.val].gzu := by simp [State.modGzu, State.modLine]
theorem modCopies_lines_other (s : State) (l k : LineId) (f : LineCopies → LineCopies) (h : k ≠ l) : (s.modCopies l f).cu.lines[k.val] = s.cu.lines[k.val] := modAt_other _ _ _ _ h
@[simp] theorem modCopies_cu_lines (s : State) (l : LineId) (f : LineCopies → LineCopies) : (s.modCopies l f).cu.lines[l.val] = f s.cu.lines[l.val] := by simp [State.modCopies]
@[simp] theorem modCopies_view_stagedLine (s : State) (l k : LineId) (f : LineCopies → LineCopies) (h : ∀ c, (f c).stagedLine = c.stagedLine) : (s.modCopies l f).cu.lines[k.val].stagedLine = s.cu.lines[k.val].stagedLine := modAt_view s.cu.lines l k f LineCopies.stagedLine h
@[simp] theorem modCopies_view_stagedCal (s : State) (l k : LineId) (f : LineCopies → LineCopies) (h : ∀ c, (f c).stagedCal = c.stagedCal) : (s.modCopies l f).cu.lines[k.val].stagedCal = s.cu.lines[k.val].stagedCal := modAt_view s.cu.lines l k f LineCopies.stagedCal h
@[simp] theorem modCopies_view_liveLine (s : State) (l k : LineId) (f : LineCopies → LineCopies) (h : ∀ c, (f c).liveLine = c.liveLine) : (s.modCopies l f).cu.lines[k.val].liveLine = s.cu.lines[k.val].liveLine := modAt_view s.cu.lines l k f LineCopies.liveLine h
@[simp] theorem modCopies_view_liveCal (s : State) (l k : LineId) (f : LineCopies → LineCopies) (h : ∀ c, (f c).liveCal = c.liveCal) : (s.modCopies l f).cu.lines[k.val].liveCal = s.cu.lines[k.val].liveCal := modAt_view s.cu.lines l k f LineCopies.liveCal h
@[simp] theorem modCopies_view_pendingLine (s : State) (l k : LineId) (f : LineCopies → LineCopies) (h : ∀ c, (f c).pendingLine = c.pendingLine) : (s.modCopies l f).cu.lines[k.val].pendingLine = s.cu.lines[k.val].pendingLine := modAt_view s.cu.lines l k f LineCopies.pendingLine h
@[simp] theorem modCopies_view_pendingCal (s : State) (l k : LineId) (f : LineCopies → LineCopies) (h : ∀ c, (f c).pendingCal = c.pendingCal) : (s.modCopies l f).cu.lines[k.val].pendingCal = s.cu.lines[k.val].pendingCal := modAt_view s.cu.lines l k f LineCopies.pendingCal h
@[simp] theorem modCopies_view_lineTag (s : State) (l k : LineId) (f : LineCopies → LineCopies) (h : ∀ c, (f c).lineTag = c.lineTag) : (s.modCopies l f).cu.lines[k.val].lineTag = s.cu.lines[k.val].lineTag := modAt_view s.cu.lines l k f LineCopies.lineTag h
@[simp] theorem modCopies_view_calTag (s : State) (l k : LineId) (f : LineCopies → LineCopies) (h : ∀ c, (f c).calTag = c.calTag) : (s.modCopies l f).cu.lines[k.val].calTag = s.cu.lines[k.val].calTag := modAt_view s.cu.lines l k f LineCopies.calTag h
@[simp] theorem modPage_faulted (s : State) (p q : PageId) (f : PageMark → PageMark) (h : ∀ m, (f m).faulted = m.faulted) : (s.modPage p f).de.pages[q.val].faulted = s.de.pages[q.val].faulted := modAt_view s.de.pages p q f PageMark.faulted h
@[simp] theorem markPage_faulted (s : State) (p q : PageId) : (s.markPage p).de.pages[q.val].faulted = s.de.pages[q.val].faulted := modAt_view s.de.pages p q _ PageMark.faulted fun _ => rfl
@[simp] theorem markStatus_pages (s : State) : s.markStatus.de.pages = s.de.pages := rfl
@[simp] theorem markChanged_faulted (s t : State) (q : PageId) : (State.markChanged s t).de.pages[q.val].faulted = t.de.pages[q.val].faulted := by simp [State.markChanged]
@[simp] theorem markPage_de_staging (s : State) (p : PageId) : (s.markPage p).de.staging = s.de.staging := rfl
@[simp] theorem markPage_de_rings (s : State) (p : PageId) : (s.markPage p).de.rings = s.de.rings := rfl
@[simp] theorem markPage_de_statusDirty (s : State) (p : PageId) : (s.markPage p).de.statusDirty = s.de.statusDirty := rfl
@[simp] theorem markPage_de_fresh (s : State) (p : PageId) : (s.markPage p).de.fresh = s.de.fresh := rfl
@[simp] theorem markPage_de_arming (s : State) (p : PageId) : (s.markPage p).de.arming = s.de.arming := rfl
@[simp] theorem markPage_de_flight (s : State) (p : PageId) : (s.markPage p).de.flight = s.de.flight := rfl
@[simp] theorem markPage_de_lastPage (s : State) (p : PageId) : (s.markPage p).de.lastPage = s.de.lastPage := rfl
@[simp] theorem markLine_de_staging (s : State) (l : LineId) : (s.markLine l).de.staging = s.de.staging := rfl
@[simp] theorem markLine_de_rings (s : State) (l : LineId) : (s.markLine l).de.rings = s.de.rings := rfl
@[simp] theorem markLine_de_statusDirty (s : State) (l : LineId) : (s.markLine l).de.statusDirty = s.de.statusDirty := rfl
@[simp] theorem markLine_de_fresh (s : State) (l : LineId) : (s.markLine l).de.fresh = s.de.fresh := rfl
@[simp] theorem markLine_de_arming (s : State) (l : LineId) : (s.markLine l).de.arming = s.de.arming := rfl
@[simp] theorem markLine_de_flight (s : State) (l : LineId) : (s.markLine l).de.flight = s.de.flight := rfl
@[simp] theorem markLine_de_lastPage (s : State) (l : LineId) : (s.markLine l).de.lastPage = s.de.lastPage := rfl
@[simp] theorem markPart_de_staging (s : State)  : s.markPart.de.staging = s.de.staging := rfl
@[simp] theorem markPart_de_rings (s : State)  : s.markPart.de.rings = s.de.rings := rfl
@[simp] theorem markPart_de_statusDirty (s : State)  : s.markPart.de.statusDirty = s.de.statusDirty := rfl
@[simp] theorem markPart_de_fresh (s : State)  : s.markPart.de.fresh = s.de.fresh := rfl
@[simp] theorem markPart_de_arming (s : State)  : s.markPart.de.arming = s.de.arming := rfl
@[simp] theorem markPart_de_flight (s : State)  : s.markPart.de.flight = s.de.flight := rfl
@[simp] theorem markPart_de_lastPage (s : State)  : s.markPart.de.lastPage = s.de.lastPage := rfl
@[simp] theorem markStatus_de_staging (s : State)  : s.markStatus.de.staging = s.de.staging := rfl
@[simp] theorem markStatus_de_rings (s : State)  : s.markStatus.de.rings = s.de.rings := rfl
@[simp] theorem markStatus_de_fresh (s : State)  : s.markStatus.de.fresh = s.de.fresh := rfl
@[simp] theorem markStatus_de_arming (s : State)  : s.markStatus.de.arming = s.de.arming := rfl
@[simp] theorem markStatus_de_flight (s : State)  : s.markStatus.de.flight = s.de.flight := rfl
@[simp] theorem markStatus_de_lastPage (s : State)  : s.markStatus.de.lastPage = s.de.lastPage := rfl
@[simp] theorem modRing_de_staging (s : State) (r : RingId) (f : RingDesc → RingDesc) : (s.modRing r f).de.staging = s.de.staging := rfl
@[simp] theorem modRing_de_pages (s : State) (r : RingId) (f : RingDesc → RingDesc) : (s.modRing r f).de.pages = s.de.pages := rfl
@[simp] theorem modRing_de_statusDirty (s : State) (r : RingId) (f : RingDesc → RingDesc) : (s.modRing r f).de.statusDirty = s.de.statusDirty := rfl
@[simp] theorem modRing_de_fresh (s : State) (r : RingId) (f : RingDesc → RingDesc) : (s.modRing r f).de.fresh = s.de.fresh := rfl
@[simp] theorem modRing_de_arming (s : State) (r : RingId) (f : RingDesc → RingDesc) : (s.modRing r f).de.arming = s.de.arming := rfl
@[simp] theorem modRing_de_flight (s : State) (r : RingId) (f : RingDesc → RingDesc) : (s.modRing r f).de.flight = s.de.flight := rfl
@[simp] theorem modRing_de_lastPage (s : State) (r : RingId) (f : RingDesc → RingDesc) : (s.modRing r f).de.lastPage = s.de.lastPage := rfl
@[simp] theorem modStaging_de_rings (s : State) (l : LineId) (f : Staging → Staging) : (s.modStaging l f).de.rings = s.de.rings := rfl
@[simp] theorem modStaging_de_pages (s : State) (l : LineId) (f : Staging → Staging) : (s.modStaging l f).de.pages = s.de.pages := rfl
@[simp] theorem modStaging_de_statusDirty (s : State) (l : LineId) (f : Staging → Staging) : (s.modStaging l f).de.statusDirty = s.de.statusDirty := rfl
@[simp] theorem modStaging_de_fresh (s : State) (l : LineId) (f : Staging → Staging) : (s.modStaging l f).de.fresh = s.de.fresh := rfl
@[simp] theorem modStaging_de_arming (s : State) (l : LineId) (f : Staging → Staging) : (s.modStaging l f).de.arming = s.de.arming := rfl
@[simp] theorem modStaging_de_flight (s : State) (l : LineId) (f : Staging → Staging) : (s.modStaging l f).de.flight = s.de.flight := rfl
@[simp] theorem modStaging_de_lastPage (s : State) (l : LineId) (f : Staging → Staging) : (s.modStaging l f).de.lastPage = s.de.lastPage := rfl
@[simp] theorem modPage_de_staging (s : State) (p : PageId) (f : PageMark → PageMark) : (s.modPage p f).de.staging = s.de.staging := rfl
@[simp] theorem modPage_de_rings (s : State) (p : PageId) (f : PageMark → PageMark) : (s.modPage p f).de.rings = s.de.rings := rfl
@[simp] theorem modPage_de_statusDirty (s : State) (p : PageId) (f : PageMark → PageMark) : (s.modPage p f).de.statusDirty = s.de.statusDirty := rfl
@[simp] theorem modPage_de_fresh (s : State) (p : PageId) (f : PageMark → PageMark) : (s.modPage p f).de.fresh = s.de.fresh := rfl
@[simp] theorem modPage_de_arming (s : State) (p : PageId) (f : PageMark → PageMark) : (s.modPage p f).de.arming = s.de.arming := rfl
@[simp] theorem modPage_de_flight (s : State) (p : PageId) (f : PageMark → PageMark) : (s.modPage p f).de.flight = s.de.flight := rfl
@[simp] theorem modPage_de_lastPage (s : State) (p : PageId) (f : PageMark → PageMark) : (s.modPage p f).de.lastPage = s.de.lastPage := rfl
@[simp] theorem modWindow_wu_base (s : State) (w : WindowId) (f : Window → Window) : (s.modWindow w f).wu.base = s.wu.base := rfl
@[simp] theorem modWindow_wu_attendance (s : State) (w : WindowId) (f : Window → Window) : (s.modWindow w f).wu.attendance = s.wu.attendance := rfl
@[simp] theorem modWindow_wu_ownedHits (s : State) (w : WindowId) (f : Window → Window) : (s.modWindow w f).wu.ownedHits = s.wu.ownedHits := rfl
@[simp] theorem modCopies_cu_state (s : State) (l : LineId) (f : LineCopies → LineCopies) : (s.modCopies l f).cu.state = s.cu.state := rfl
@[simp] theorem loadResult_state (c : Cu) (r : CmdResult) (d : Nat) : (c.loadResult r d).state = c.state := by
  simp only [Cu.loadResult]; split <;> rfl
@[simp] theorem takeBuffer_state (c : Cu) (x : Load) : (c.takeBuffer x).state = c.state := by
  simp only [Cu.takeBuffer]; (repeat' split) <;> rfl
@[simp] theorem mergeStaged_state (c : Cu) (sec : SectionId) (i : Nat) (be : BitVec 4) (d : Word) : (c.mergeStaged sec i be d).state = c.state := by
  cases sec <;> rfl
@[simp] theorem modCopies_cu_ready (s : State) (l : LineId) (f : LineCopies → LineCopies) : (s.modCopies l f).cu.ready = s.cu.ready := rfl
@[simp] theorem loadResult_ready (c : Cu) (r : CmdResult) (d : Nat) : (c.loadResult r d).ready = c.ready := by
  simp only [Cu.loadResult]; split <;> rfl
@[simp] theorem takeBuffer_ready (c : Cu) (x : Load) : (c.takeBuffer x).ready = c.ready := by
  simp only [Cu.takeBuffer]; (repeat' split) <;> rfl
@[simp] theorem mergeStaged_ready (c : Cu) (sec : SectionId) (i : Nat) (be : BitVec 4) (d : Word) : (c.mergeStaged sec i be d).ready = c.ready := by
  cases sec <;> rfl
@[simp] theorem loadResult_lines (c : Cu) (r : CmdResult) (d : Nat) : (c.loadResult r d).lines = c.lines := by
  simp only [Cu.loadResult]; split <;> rfl
@[simp] theorem modCopies_cu_stagedWindows (s : State) (l : LineId) (f : LineCopies → LineCopies) : (s.modCopies l f).cu.stagedWindows = s.cu.stagedWindows := rfl
@[simp] theorem loadResult_stagedWindows (c : Cu) (r : CmdResult) (d : Nat) : (c.loadResult r d).stagedWindows = c.stagedWindows := by
  simp only [Cu.loadResult]; split <;> rfl
@[simp] theorem modCopies_cu_liveWindows (s : State) (l : LineId) (f : LineCopies → LineCopies) : (s.modCopies l f).cu.liveWindows = s.cu.liveWindows := rfl
@[simp] theorem loadResult_liveWindows (c : Cu) (r : CmdResult) (d : Nat) : (c.loadResult r d).liveWindows = c.liveWindows := by
  simp only [Cu.loadResult]; split <;> rfl
@[simp] theorem takeBuffer_liveWindows (c : Cu) (x : Load) : (c.takeBuffer x).liveWindows = c.liveWindows := by
  simp only [Cu.takeBuffer]; (repeat' split) <;> rfl
@[simp] theorem mergeStaged_liveWindows (c : Cu) (sec : SectionId) (i : Nat) (be : BitVec 4) (d : Word) : (c.mergeStaged sec i be d).liveWindows = c.liveWindows := by
  cases sec <;> rfl
@[simp] theorem modCopies_cu_windowTag (s : State) (l : LineId) (f : LineCopies → LineCopies) : (s.modCopies l f).cu.windowTag = s.cu.windowTag := rfl
@[simp] theorem loadResult_windowTag (c : Cu) (r : CmdResult) (d : Nat) : (c.loadResult r d).windowTag = c.windowTag := by
  simp only [Cu.loadResult]; split <;> rfl
@[simp] theorem takeBuffer_windowTag (c : Cu) (x : Load) : (c.takeBuffer x).windowTag = c.windowTag := by
  simp only [Cu.takeBuffer]; (repeat' split) <;> rfl
@[simp] theorem mergeStaged_windowTag (c : Cu) (sec : SectionId) (i : Nat) (be : BitVec 4) (d : Word) : (c.mergeStaged sec i be d).windowTag = c.windowTag := by
  cases sec <;> rfl
@[simp] theorem modCopies_cu_stagedDelivery (s : State) (l : LineId) (f : LineCopies → LineCopies) : (s.modCopies l f).cu.stagedDelivery = s.cu.stagedDelivery := rfl
@[simp] theorem loadResult_stagedDelivery (c : Cu) (r : CmdResult) (d : Nat) : (c.loadResult r d).stagedDelivery = c.stagedDelivery := by
  simp only [Cu.loadResult]; split <;> rfl
@[simp] theorem modCopies_cu_liveDelivery (s : State) (l : LineId) (f : LineCopies → LineCopies) : (s.modCopies l f).cu.liveDelivery = s.cu.liveDelivery := rfl
@[simp] theorem loadResult_liveDelivery (c : Cu) (r : CmdResult) (d : Nat) : (c.loadResult r d).liveDelivery = c.liveDelivery := by
  simp only [Cu.loadResult]; split <;> rfl
@[simp] theorem takeBuffer_liveDelivery (c : Cu) (x : Load) : (c.takeBuffer x).liveDelivery = c.liveDelivery := by
  simp only [Cu.takeBuffer]; (repeat' split) <;> rfl
@[simp] theorem mergeStaged_liveDelivery (c : Cu) (sec : SectionId) (i : Nat) (be : BitVec 4) (d : Word) : (c.mergeStaged sec i be d).liveDelivery = c.liveDelivery := by
  cases sec <;> rfl
@[simp] theorem modCopies_cu_deliveryTag (s : State) (l : LineId) (f : LineCopies → LineCopies) : (s.modCopies l f).cu.deliveryTag = s.cu.deliveryTag := rfl
@[simp] theorem loadResult_deliveryTag (c : Cu) (r : CmdResult) (d : Nat) : (c.loadResult r d).deliveryTag = c.deliveryTag := by
  simp only [Cu.loadResult]; split <;> rfl
@[simp] theorem takeBuffer_deliveryTag (c : Cu) (x : Load) : (c.takeBuffer x).deliveryTag = c.deliveryTag := by
  simp only [Cu.takeBuffer]; (repeat' split) <;> rfl
@[simp] theorem mergeStaged_deliveryTag (c : Cu) (sec : SectionId) (i : Nat) (be : BitVec 4) (d : Word) : (c.mergeStaged sec i be d).deliveryTag = c.deliveryTag := by
  cases sec <;> rfl
@[simp] theorem modCopies_cu_frozen (s : State) (l : LineId) (f : LineCopies → LineCopies) : (s.modCopies l f).cu.frozen = s.cu.frozen := rfl
@[simp] theorem loadResult_frozen (c : Cu) (r : CmdResult) (d : Nat) : (c.loadResult r d).frozen = c.frozen := by
  simp only [Cu.loadResult]; split <;> rfl
@[simp] theorem takeBuffer_frozen (c : Cu) (x : Load) : (c.takeBuffer x).frozen = c.frozen := by
  simp only [Cu.takeBuffer]; (repeat' split) <;> rfl
@[simp] theorem mergeStaged_frozen (c : Cu) (sec : SectionId) (i : Nat) (be : BitVec 4) (d : Word) : (c.mergeStaged sec i be d).frozen = c.frozen := by
  cases sec <;> rfl
@[simp] theorem modCopies_cu_record (s : State) (l : LineId) (f : LineCopies → LineCopies) : (s.modCopies l f).cu.record = s.cu.record := rfl
@[simp] theorem takeBuffer_record (c : Cu) (x : Load) : (c.takeBuffer x).record = c.record := by
  simp only [Cu.takeBuffer]; (repeat' split) <;> rfl
@[simp] theorem mergeStaged_record (c : Cu) (sec : SectionId) (i : Nat) (be : BitVec 4) (d : Word) : (c.mergeStaged sec i be d).record = c.record := by
  cases sec <;> rfl
@[simp] theorem modCopies_cu_owner (s : State) (l : LineId) (f : LineCopies → LineCopies) : (s.modCopies l f).cu.owner = s.cu.owner := rfl
@[simp] theorem takeBuffer_owner (c : Cu) (x : Load) : (c.takeBuffer x).owner = c.owner := by
  simp only [Cu.takeBuffer]; (repeat' split) <;> rfl
@[simp] theorem mergeStaged_owner (c : Cu) (sec : SectionId) (i : Nat) (be : BitVec 4) (d : Word) : (c.mergeStaged sec i be d).owner = c.owner := by
  cases sec <;> rfl
@[simp] theorem modCopies_cu_load (s : State) (l : LineId) (f : LineCopies → LineCopies) : (s.modCopies l f).cu.load = s.cu.load := rfl
@[simp] theorem loadResult_load (c : Cu) (r : CmdResult) (d : Nat) : (c.loadResult r d).load = c.load := by
  simp only [Cu.loadResult]; split <;> rfl
@[simp] theorem takeBuffer_load (c : Cu) (x : Load) : (c.takeBuffer x).load = c.load := by
  simp only [Cu.takeBuffer]; (repeat' split) <;> rfl
@[simp] theorem mergeStaged_load (c : Cu) (sec : SectionId) (i : Nat) (be : BitVec 4) (d : Word) : (c.mergeStaged sec i be d).load = c.load := by
  cases sec <;> rfl
@[simp] theorem modCopies_cu_loadFaults (s : State) (l : LineId) (f : LineCopies → LineCopies) : (s.modCopies l f).cu.loadFaults = s.cu.loadFaults := rfl
@[simp] theorem loadResult_loadFaults (c : Cu) (r : CmdResult) (d : Nat) : (c.loadResult r d).loadFaults = c.loadFaults := by
  simp only [Cu.loadResult]; split <;> rfl
@[simp] theorem takeBuffer_loadFaults (c : Cu) (x : Load) : (c.takeBuffer x).loadFaults = c.loadFaults := by
  simp only [Cu.takeBuffer]; (repeat' split) <;> rfl
@[simp] theorem mergeStaged_loadFaults (c : Cu) (sec : SectionId) (i : Nat) (be : BitVec 4) (d : Word) : (c.mergeStaged sec i be d).loadFaults = c.loadFaults := by
  cases sec <;> rfl
@[simp] theorem modCopies_cu_initLeft (s : State) (l : LineId) (f : LineCopies → LineCopies) : (s.modCopies l f).cu.initLeft = s.cu.initLeft := rfl
@[simp] theorem loadResult_initLeft (c : Cu) (r : CmdResult) (d : Nat) : (c.loadResult r d).initLeft = c.initLeft := by
  simp only [Cu.loadResult]; split <;> rfl
@[simp] theorem takeBuffer_initLeft (c : Cu) (x : Load) : (c.takeBuffer x).initLeft = c.initLeft := by
  simp only [Cu.takeBuffer]; (repeat' split) <;> rfl
@[simp] theorem mergeStaged_initLeft (c : Cu) (sec : SectionId) (i : Nat) (be : BitVec 4) (d : Word) : (c.mergeStaged sec i be d).initLeft = c.initLeft := by
  cases sec <;> rfl
@[simp] theorem takeBuffer_liveLine (c : Cu) (x : Load) (k : LineId) : (c.takeBuffer x).lines[k.val].liveLine = c.lines[k.val].liveLine := by
  simp only [Cu.takeBuffer]; (repeat' split) <;> first | rfl | exact modAt_view c.lines _ k _ LineCopies.liveLine (fun _ => rfl) | simp
@[simp] theorem mergeStaged_liveLine (c : Cu) (sec : SectionId) (i : Nat) (be : BitVec 4) (d : Word) (k : LineId) : (c.mergeStaged sec i be d).lines[k.val].liveLine = c.lines[k.val].liveLine := by
  cases sec <;> first | rfl | exact modAt_view c.lines _ k _ LineCopies.liveLine (fun _ => rfl)
@[simp] theorem takeBuffer_liveCal (c : Cu) (x : Load) (k : LineId) : (c.takeBuffer x).lines[k.val].liveCal = c.lines[k.val].liveCal := by
  simp only [Cu.takeBuffer]; (repeat' split) <;> first | rfl | exact modAt_view c.lines _ k _ LineCopies.liveCal (fun _ => rfl) | simp
@[simp] theorem mergeStaged_liveCal (c : Cu) (sec : SectionId) (i : Nat) (be : BitVec 4) (d : Word) (k : LineId) : (c.mergeStaged sec i be d).lines[k.val].liveCal = c.lines[k.val].liveCal := by
  cases sec <;> first | rfl | exact modAt_view c.lines _ k _ LineCopies.liveCal (fun _ => rfl)
@[simp] theorem takeBuffer_pendingLine (c : Cu) (x : Load) (k : LineId) : (c.takeBuffer x).lines[k.val].pendingLine = c.lines[k.val].pendingLine := by
  simp only [Cu.takeBuffer]; (repeat' split) <;> first | rfl | exact modAt_view c.lines _ k _ LineCopies.pendingLine (fun _ => rfl) | simp
@[simp] theorem mergeStaged_pendingLine (c : Cu) (sec : SectionId) (i : Nat) (be : BitVec 4) (d : Word) (k : LineId) : (c.mergeStaged sec i be d).lines[k.val].pendingLine = c.lines[k.val].pendingLine := by
  cases sec <;> first | rfl | exact modAt_view c.lines _ k _ LineCopies.pendingLine (fun _ => rfl)
@[simp] theorem takeBuffer_pendingCal (c : Cu) (x : Load) (k : LineId) : (c.takeBuffer x).lines[k.val].pendingCal = c.lines[k.val].pendingCal := by
  simp only [Cu.takeBuffer]; (repeat' split) <;> first | rfl | exact modAt_view c.lines _ k _ LineCopies.pendingCal (fun _ => rfl) | simp
@[simp] theorem mergeStaged_pendingCal (c : Cu) (sec : SectionId) (i : Nat) (be : BitVec 4) (d : Word) (k : LineId) : (c.mergeStaged sec i be d).lines[k.val].pendingCal = c.lines[k.val].pendingCal := by
  cases sec <;> first | rfl | exact modAt_view c.lines _ k _ LineCopies.pendingCal (fun _ => rfl)
@[simp] theorem takeFlight_sequence (n : Nu) : n.takeFlight.sequence = n.sequence := by
  simp only [Nu.takeFlight]; (repeat' split) <;> rfl
@[simp] theorem takeFlight_outstanding (n : Nu) : n.takeFlight.outstanding = n.outstanding := by
  simp only [Nu.takeFlight]; (repeat' split) <;> rfl
@[simp] theorem takeFlight_ms (n : Nu) : n.takeFlight.ms = n.ms := by
  simp only [Nu.takeFlight]; (repeat' split) <;> rfl
@[simp] theorem reevalAttn_parts (s : State) :
    s.reevalAttn.nu.ms = s.nu.ms ∧
    s.reevalAttn.nu.outstanding = s.nu.outstanding ∧
    s.reevalAttn.nu.sequence = s.nu.sequence := by
  suffices H : ∀ t : State, t = s.reevalAttn →
    t.nu.ms = s.nu.ms ∧
    t.nu.outstanding = s.nu.outstanding ∧
    t.nu.sequence = s.nu.sequence from H _ rfl
  intro t ht
  simp only [State.reevalAttn] at ht
  subst ht
  simp

@[simp] theorem returnWaitingOffer_parts (s : State) :
    s.returnWaitingOffer.nu.ms = s.nu.ms ∧
    s.returnWaitingOffer.nu.outstanding = s.nu.outstanding ∧
    s.returnWaitingOffer.nu.sequence = s.nu.sequence := by
  simp only [State.returnWaitingOffer, State.modNu]
  (repeat' split) <;> simp

@[simp] theorem consumed_parts (s : State) (c : Nat) :
    (s.consumed c).nu.ms = s.nu.ms ∧
    (s.consumed c).nu.sequence = s.nu.sequence := by
  suffices H : ∀ t : State, t = (s.consumed c) →
    t.nu.ms = s.nu.ms ∧
    t.nu.sequence = s.nu.sequence from H _ rfl
  intro t ht
  simp only [State.consumed] at ht
  subst ht
  simp

@[simp] theorem entryDelivered_parts (s : State) :
    s.entryDelivered.nu.ms = s.nu.ms ∧
    s.entryDelivered.de.staging = s.de.staging ∧
    s.entryDelivered.de.rings = s.de.rings ∧
    s.entryDelivered.de.statusDirty = s.de.statusDirty ∧
    s.entryDelivered.de.fresh = s.de.fresh ∧
    s.entryDelivered.de.arming = s.de.arming ∧
    s.entryDelivered.de.flight = s.de.flight ∧
    s.entryDelivered.de.lastPage = s.de.lastPage ∧
    (∀ k : PageId, s.entryDelivered.de.pages[k.val].faulted = s.de.pages[k.val].faulted) := by
  suffices H : ∀ t : State, t = s.entryDelivered →
    t.nu.ms = s.nu.ms ∧
    t.de.staging = s.de.staging ∧
    t.de.rings = s.de.rings ∧
    t.de.statusDirty = s.de.statusDirty ∧
    t.de.fresh = s.de.fresh ∧
    t.de.arming = s.de.arming ∧
    t.de.flight = s.de.flight ∧
    t.de.lastPage = s.de.lastPage ∧
    (∀ k : PageId, t.de.pages[k.val].faulted = s.de.pages[k.val].faulted) from H _ rfl
  intro t ht
  simp only [State.entryDelivered] at ht
  subst ht
  simp +contextual [State.ls, State.sru, State.gzu, State.copies, State.page, State.ring, State.staging, State.window, State.liveDelivery, State.liveLine, State.liveCal, State.markLine, State.markPart, modLs_lines_other, modSru_lines_other, modGzu_lines_other, modCopies_lines_other]

@[simp] theorem entryReturned_parts (s : State) :
    s.entryReturned.nu.ms = s.nu.ms ∧
    s.entryReturned.nu.outstanding = s.nu.outstanding ∧
    s.entryReturned.nu.sequence = s.nu.sequence ∧
    s.entryReturned.de.staging = s.de.staging ∧
    s.entryReturned.de.rings = s.de.rings ∧
    s.entryReturned.de.statusDirty = s.de.statusDirty ∧
    s.entryReturned.de.fresh = s.de.fresh ∧
    s.entryReturned.de.arming = s.de.arming ∧
    s.entryReturned.de.flight = s.de.flight ∧
    s.entryReturned.de.lastPage = s.de.lastPage ∧
    (∀ k : PageId, s.entryReturned.de.pages[k.val].faulted = s.de.pages[k.val].faulted) := by
  simp only [State.entryReturned, State.modNu]
  simp +contextual [State.ls, State.sru, State.gzu, State.copies, State.page, State.ring, State.staging, State.window, State.liveDelivery, State.liveLine, State.liveCal, State.markLine, State.markPart, modLs_lines_other, modSru_lines_other, modGzu_lines_other, modCopies_lines_other]
  (repeat' split) <;> simp

@[simp] theorem reevalLalm_parts (s : State) (l : LineId) :
    (∀ k : LineId, (s.reevalLalm l).lines[k.val].ls = s.lines[k.val].ls) ∧
    (∀ k : LineId, (s.reevalLalm l).lines[k.val].sru = s.lines[k.val].sru) ∧
    (∀ k : LineId, k ≠ l → (s.reevalLalm l).lines[k.val] = s.lines[k.val]) := by
  suffices H : ∀ t : State, t = (s.reevalLalm l) →
    (∀ k : LineId, t.lines[k.val].ls = s.lines[k.val].ls) ∧
    (∀ k : LineId, t.lines[k.val].sru = s.lines[k.val].sru) ∧
    (∀ k : LineId, k ≠ l → t.lines[k.val] = s.lines[k.val]) from H _ rfl
  intro t ht
  simp only [State.reevalLalm] at ht
  subst ht
  simp +contextual [State.ls, State.sru, State.gzu, State.copies, State.page, State.ring, State.staging, State.window, State.liveDelivery, State.liveLine, State.liveCal, State.markLine, State.markPart, modLs_lines_other, modSru_lines_other, modGzu_lines_other, modCopies_lines_other]

@[simp] theorem reportAttendance_parts (s : State) (l : LineId) :
    (∀ k : LineId, (s.reportAttendance l).lines[k.val].ls = s.lines[k.val].ls) ∧
    (∀ k : LineId, (s.reportAttendance l).lines[k.val].sru = s.lines[k.val].sru) ∧
    (∀ k : LineId, k ≠ l → (s.reportAttendance l).lines[k.val] = s.lines[k.val]) := by
  suffices H : ∀ t : State, t = (s.reportAttendance l) →
    (∀ k : LineId, t.lines[k.val].ls = s.lines[k.val].ls) ∧
    (∀ k : LineId, t.lines[k.val].sru = s.lines[k.val].sru) ∧
    (∀ k : LineId, k ≠ l → t.lines[k.val] = s.lines[k.val]) from H _ rfl
  intro t ht
  simp only [State.reportAttendance] at ht
  subst ht
  simp +contextual [State.ls, State.sru, State.gzu, State.copies, State.page, State.ring, State.staging, State.window, State.liveDelivery, State.liveLine, State.liveCal, State.markLine, State.markPart, modLs_lines_other, modSru_lines_other, modGzu_lines_other, modCopies_lines_other]

@[simp] theorem reportAttendanceAll_parts (s : State) :
    (∀ k : LineId, s.reportAttendanceAll.lines[k.val].ls = s.lines[k.val].ls) ∧
    (∀ k : LineId, s.reportAttendanceAll.lines[k.val].sru = s.lines[k.val].sru) := by
  simp only [State.reportAttendanceAll]
  refine ⟨fun k => ?_, fun k => ?_⟩
  · rw [foldl_keeps _ (fun z : State => z.lines[k.val].ls) (fun t x => by simp)]
  · rw [foldl_keeps _ (fun z : State => z.lines[k.val].sru) (fun t x => by simp)]

@[simp] theorem rederiveAttendance_parts (s : State) (d : Nat) :
    (s.rederiveAttendance d).wu.ownedHits = s.wu.ownedHits ∧
    (s.rederiveAttendance d).wu.windows = s.wu.windows ∧
    (s.rederiveAttendance d).nu.ms = s.nu.ms ∧
    (s.rederiveAttendance d).nu.outstanding = s.nu.outstanding ∧
    (s.rederiveAttendance d).nu.sequence = s.nu.sequence ∧
    (∀ k : LineId, (s.rederiveAttendance d).lines[k.val].ls = s.lines[k.val].ls) ∧
    (∀ k : LineId, (s.rederiveAttendance d).lines[k.val].sru = s.lines[k.val].sru) ∧
    (s.rederiveAttendance d).de.staging = s.de.staging ∧
    (s.rederiveAttendance d).de.rings = s.de.rings ∧
    (s.rederiveAttendance d).de.statusDirty = s.de.statusDirty ∧
    (s.rederiveAttendance d).de.fresh = s.de.fresh ∧
    (s.rederiveAttendance d).de.arming = s.de.arming ∧
    (s.rederiveAttendance d).de.flight = s.de.flight ∧
    (s.rederiveAttendance d).de.lastPage = s.de.lastPage ∧
    (∀ k : PageId, (s.rederiveAttendance d).de.pages[k.val].faulted = s.de.pages[k.val].faulted) := by
  suffices H : ∀ t : State, t = (s.rederiveAttendance d) →
    t.wu.ownedHits = s.wu.ownedHits ∧
    t.wu.windows = s.wu.windows ∧
    t.nu.ms = s.nu.ms ∧
    t.nu.outstanding = s.nu.outstanding ∧
    t.nu.sequence = s.nu.sequence ∧
    (∀ k : LineId, t.lines[k.val].ls = s.lines[k.val].ls) ∧
    (∀ k : LineId, t.lines[k.val].sru = s.lines[k.val].sru) ∧
    t.de.staging = s.de.staging ∧
    t.de.rings = s.de.rings ∧
    t.de.statusDirty = s.de.statusDirty ∧
    t.de.fresh = s.de.fresh ∧
    t.de.arming = s.de.arming ∧
    t.de.flight = s.de.flight ∧
    t.de.lastPage = s.de.lastPage ∧
    (∀ k : PageId, t.de.pages[k.val].faulted = s.de.pages[k.val].faulted) from H _ rfl
  intro t ht
  simp only [State.rederiveAttendance] at ht
  (repeat' split at ht) <;> subst ht <;> simp +contextual [State.ls, State.sru, State.gzu, State.copies, State.page, State.ring, State.staging, State.window, State.liveDelivery, State.liveLine, State.liveCal, State.markLine, State.markPart, modLs_lines_other, modSru_lines_other, modGzu_lines_other, modCopies_lines_other]

@[simp] theorem expireWindow_parts (s : State) (w : WindowId) :
    (s.expireWindow w).wu.attendance = s.wu.attendance ∧
    (s.expireWindow w).wu.ownedHits = s.wu.ownedHits ∧
    (s.expireWindow w).nu.ms = s.nu.ms ∧
    (s.expireWindow w).nu.outstanding = s.nu.outstanding ∧
    (s.expireWindow w).nu.sequence = s.nu.sequence := by
  suffices H : ∀ t : State, t = (s.expireWindow w) →
    t.wu.attendance = s.wu.attendance ∧
    t.wu.ownedHits = s.wu.ownedHits ∧
    t.nu.ms = s.nu.ms ∧
    t.nu.outstanding = s.nu.outstanding ∧
    t.nu.sequence = s.nu.sequence from H _ rfl
  intro t ht
  simp only [State.expireWindow] at ht
  subst ht
  simp

@[simp] theorem expireAll_parts (s : State) (ws : List WindowId) :
    (s.expireAll ws).wu.ownedHits = s.wu.ownedHits ∧
    (s.expireAll ws).nu.ms = s.nu.ms ∧
    (s.expireAll ws).nu.outstanding = s.nu.outstanding ∧
    (s.expireAll ws).nu.sequence = s.nu.sequence ∧
    (∀ k : LineId, (s.expireAll ws).lines[k.val].ls = s.lines[k.val].ls) ∧
    (∀ k : LineId, (s.expireAll ws).lines[k.val].sru = s.lines[k.val].sru) ∧
    (s.expireAll ws).de.staging = s.de.staging ∧
    (s.expireAll ws).de.rings = s.de.rings ∧
    (s.expireAll ws).de.statusDirty = s.de.statusDirty ∧
    (s.expireAll ws).de.fresh = s.de.fresh ∧
    (s.expireAll ws).de.arming = s.de.arming ∧
    (s.expireAll ws).de.flight = s.de.flight ∧
    (s.expireAll ws).de.lastPage = s.de.lastPage ∧
    (∀ k : PageId, (s.expireAll ws).de.pages[k.val].faulted = s.de.pages[k.val].faulted) := by
  simp only [State.expireAll]
  refine ⟨?_, ?_, ?_, ?_, fun k => ?_, fun k => ?_, ?_, ?_, ?_, ?_, ?_, ?_, ?_, fun k => ?_⟩
  · simp; rw [foldl_keeps _ (fun z : State => z.wu.ownedHits) (fun t x => by simp)]
  · simp; rw [foldl_keeps _ (fun z : State => z.nu.ms) (fun t x => by simp)]
  · simp; rw [foldl_keeps _ (fun z : State => z.nu.outstanding) (fun t x => by simp)]
  · simp; rw [foldl_keeps _ (fun z : State => z.nu.sequence) (fun t x => by simp)]
  · simp
  · simp
  · simp
  · simp
  · simp
  · simp
  · simp
  · simp
  · simp
  · simp

@[simp] theorem advanceWindows_parts (s : State) :
    s.advanceWindows.wu.ownedHits = s.wu.ownedHits ∧
    s.advanceWindows.nu.ms = s.nu.ms ∧
    s.advanceWindows.nu.outstanding = s.nu.outstanding ∧
    s.advanceWindows.nu.sequence = s.nu.sequence ∧
    (∀ k : LineId, s.advanceWindows.lines[k.val].ls = s.lines[k.val].ls) ∧
    (∀ k : LineId, s.advanceWindows.lines[k.val].sru = s.lines[k.val].sru) ∧
    s.advanceWindows.de.staging = s.de.staging ∧
    s.advanceWindows.de.rings = s.de.rings ∧
    s.advanceWindows.de.statusDirty = s.de.statusDirty ∧
    s.advanceWindows.de.fresh = s.de.fresh ∧
    s.advanceWindows.de.arming = s.de.arming ∧
    s.advanceWindows.de.flight = s.de.flight ∧
    s.advanceWindows.de.lastPage = s.de.lastPage ∧
    (∀ k : PageId, s.advanceWindows.de.pages[k.val].faulted = s.de.pages[k.val].faulted) := by
  suffices H : ∀ t : State, t = s.advanceWindows →
    t.wu.ownedHits = s.wu.ownedHits ∧
    t.nu.ms = s.nu.ms ∧
    t.nu.outstanding = s.nu.outstanding ∧
    t.nu.sequence = s.nu.sequence ∧
    (∀ k : LineId, t.lines[k.val].ls = s.lines[k.val].ls) ∧
    (∀ k : LineId, t.lines[k.val].sru = s.lines[k.val].sru) ∧
    t.de.staging = s.de.staging ∧
    t.de.rings = s.de.rings ∧
    t.de.statusDirty = s.de.statusDirty ∧
    t.de.fresh = s.de.fresh ∧
    t.de.arming = s.de.arming ∧
    t.de.flight = s.de.flight ∧
    t.de.lastPage = s.de.lastPage ∧
    (∀ k : PageId, t.de.pages[k.val].faulted = s.de.pages[k.val].faulted) from H _ rfl
  intro t ht
  simp only [State.advanceWindows] at ht
  subst ht
  simp

@[simp] theorem matchAll_parts (s : State) (a : Nat) (w : Bool) :
    (s.matchAll a w).wu.ownedHits = s.wu.ownedHits ∧
    (s.matchAll a w).nu.ms = s.nu.ms ∧
    (s.matchAll a w).nu.outstanding = s.nu.outstanding ∧
    (s.matchAll a w).nu.sequence = s.nu.sequence ∧
    (∀ k : LineId, (s.matchAll a w).lines[k.val].ls = s.lines[k.val].ls) ∧
    (∀ k : LineId, (s.matchAll a w).lines[k.val].sru = s.lines[k.val].sru) ∧
    (s.matchAll a w).de.staging = s.de.staging ∧
    (s.matchAll a w).de.rings = s.de.rings ∧
    (s.matchAll a w).de.statusDirty = s.de.statusDirty ∧
    (s.matchAll a w).de.fresh = s.de.fresh ∧
    (s.matchAll a w).de.arming = s.de.arming ∧
    (s.matchAll a w).de.flight = s.de.flight ∧
    (s.matchAll a w).de.lastPage = s.de.lastPage ∧
    (∀ k : PageId, (s.matchAll a w).de.pages[k.val].faulted = s.de.pages[k.val].faulted) := by
  simp only [State.matchAll]
  refine ⟨?_, ?_, ?_, ?_, fun k => ?_, fun k => ?_, ?_, ?_, ?_, ?_, ?_, ?_, ?_, fun k => ?_⟩
  · simp; rw [foldl_keeps _ (fun z : State => z.wu.ownedHits) (fun t x => by simp)]
  · simp; rw [foldl_keeps _ (fun z : State => z.nu.ms) (fun t x => by simp)]
  · simp; rw [foldl_keeps _ (fun z : State => z.nu.outstanding) (fun t x => by simp)]
  · simp; rw [foldl_keeps _ (fun z : State => z.nu.sequence) (fun t x => by simp)]
  · simp; rw [foldl_keeps _ (fun z : State => z.lines[k.val].ls) (fun t x => by simp)]
  · simp; rw [foldl_keeps _ (fun z : State => z.lines[k.val].sru) (fun t x => by simp)]
  · simp; rw [foldl_keeps _ (fun z : State => z.de.staging) (fun t x => by simp)]
  · simp; rw [foldl_keeps _ (fun z : State => z.de.rings) (fun t x => by simp)]
  · simp; rw [foldl_keeps _ (fun z : State => z.de.statusDirty) (fun t x => by simp)]
  · simp; rw [foldl_keeps _ (fun z : State => z.de.fresh) (fun t x => by simp)]
  · simp; rw [foldl_keeps _ (fun z : State => z.de.arming) (fun t x => by simp)]
  · simp; rw [foldl_keeps _ (fun z : State => z.de.flight) (fun t x => by simp)]
  · simp; rw [foldl_keeps _ (fun z : State => z.de.lastPage) (fun t x => by simp)]
  · simp; rw [foldl_keeps _ (fun z : State => z.de.pages[k.val].faulted) (fun t x => by simp)]

@[simp] theorem reportOwned_parts (s : State) (c : Nat) :
    (s.reportOwned c).wu.attendance = s.wu.attendance ∧
    (s.reportOwned c).wu.windows = s.wu.windows ∧
    (s.reportOwned c).nu.ms = s.nu.ms ∧
    (s.reportOwned c).nu.outstanding = s.nu.outstanding ∧
    (s.reportOwned c).nu.sequence = s.nu.sequence := by
  suffices H : ∀ t : State, t = (s.reportOwned c) →
    t.wu.attendance = s.wu.attendance ∧
    t.wu.windows = s.wu.windows ∧
    t.nu.ms = s.nu.ms ∧
    t.nu.outstanding = s.nu.outstanding ∧
    t.nu.sequence = s.nu.sequence from H _ rfl
  intro t ht
  simp only [State.reportOwned] at ht
  subst ht
  simp

@[simp] theorem reportGuard_parts (s : State) (w : WindowId) :
    (s.reportGuard w).wu.attendance = s.wu.attendance ∧
    (s.reportGuard w).wu.ownedHits = s.wu.ownedHits ∧
    (s.reportGuard w).nu.ms = s.nu.ms ∧
    (s.reportGuard w).nu.outstanding = s.nu.outstanding ∧
    (s.reportGuard w).nu.sequence = s.nu.sequence := by
  suffices H : ∀ t : State, t = (s.reportGuard w) →
    t.wu.attendance = s.wu.attendance ∧
    t.wu.ownedHits = s.wu.ownedHits ∧
    t.nu.ms = s.nu.ms ∧
    t.nu.outstanding = s.nu.outstanding ∧
    t.nu.sequence = s.nu.sequence from H _ rfl
  intro t ht
  simp only [State.reportGuard] at ht
  subst ht
  simp

@[simp] theorem reportSuppression_parts (s : State) (a : Addr) :
    (s.reportSuppression a).wu.attendance = s.wu.attendance ∧
    (s.reportSuppression a).nu.ms = s.nu.ms ∧
    (s.reportSuppression a).nu.outstanding = s.nu.outstanding ∧
    (s.reportSuppression a).nu.sequence = s.nu.sequence := by
  simp only [State.reportSuppression]
  refine ⟨?_, ?_, ?_, ?_⟩
  · (repeat' split) <;> first | (rw [foldl_keeps _ (fun z : State => z.wu.attendance) (fun t x => by (try split) <;> first | rfl | simp [*, State.markLine])]; done) | (simp; done) | (simp; rw [foldl_keeps _ (fun z : State => z.wu.attendance) (fun t x => by (try split) <;> first | rfl | simp [*, State.markLine])]; done) | (rw [foldl_keeps _ (fun z : State => z.wu.attendance) (fun t x => by (try split) <;> first | rfl | simp [*, State.markLine])]; simp; done) | (simp; rw [foldl_keeps _ (fun z : State => z.wu.attendance) (fun t x => by (try split) <;> first | rfl | simp [*, State.markLine])]; simp; done)
  · (repeat' split) <;> first | (rw [foldl_keeps _ (fun z : State => z.nu.ms) (fun t x => by (try split) <;> first | rfl | simp [*, State.markLine])]; done) | (simp; done) | (simp; rw [foldl_keeps _ (fun z : State => z.nu.ms) (fun t x => by (try split) <;> first | rfl | simp [*, State.markLine])]; done) | (rw [foldl_keeps _ (fun z : State => z.nu.ms) (fun t x => by (try split) <;> first | rfl | simp [*, State.markLine])]; simp; done) | (simp; rw [foldl_keeps _ (fun z : State => z.nu.ms) (fun t x => by (try split) <;> first | rfl | simp [*, State.markLine])]; simp; done)
  · (repeat' split) <;> first | (rw [foldl_keeps _ (fun z : State => z.nu.outstanding) (fun t x => by (try split) <;> first | rfl | simp [*, State.markLine])]; done) | (simp; done) | (simp; rw [foldl_keeps _ (fun z : State => z.nu.outstanding) (fun t x => by (try split) <;> first | rfl | simp [*, State.markLine])]; done) | (rw [foldl_keeps _ (fun z : State => z.nu.outstanding) (fun t x => by (try split) <;> first | rfl | simp [*, State.markLine])]; simp; done) | (simp; rw [foldl_keeps _ (fun z : State => z.nu.outstanding) (fun t x => by (try split) <;> first | rfl | simp [*, State.markLine])]; simp; done)
  · (repeat' split) <;> first | (rw [foldl_keeps _ (fun z : State => z.nu.sequence) (fun t x => by (try split) <;> first | rfl | simp [*, State.markLine])]; done) | (simp; done) | (simp; rw [foldl_keeps _ (fun z : State => z.nu.sequence) (fun t x => by (try split) <;> first | rfl | simp [*, State.markLine])]; done) | (rw [foldl_keeps _ (fun z : State => z.nu.sequence) (fun t x => by (try split) <;> first | rfl | simp [*, State.markLine])]; simp; done) | (simp; rw [foldl_keeps _ (fun z : State => z.nu.sequence) (fun t x => by (try split) <;> first | rfl | simp [*, State.markLine])]; simp; done)

@[simp] theorem applyWindows_parts (s : State) (old : Bytes) (held : List WindowId) :
    (s.applyWindows old held).wu.ownedHits = s.wu.ownedHits ∧
    (s.applyWindows old held).nu.ms = s.nu.ms ∧
    (s.applyWindows old held).nu.outstanding = s.nu.outstanding ∧
    (s.applyWindows old held).nu.sequence = s.nu.sequence ∧
    (∀ k : LineId, (s.applyWindows old held).lines[k.val].ls = s.lines[k.val].ls) ∧
    (∀ k : LineId, (s.applyWindows old held).lines[k.val].sru = s.lines[k.val].sru) ∧
    (s.applyWindows old held).de.staging = s.de.staging ∧
    (s.applyWindows old held).de.rings = s.de.rings ∧
    (s.applyWindows old held).de.statusDirty = s.de.statusDirty ∧
    (s.applyWindows old held).de.fresh = s.de.fresh ∧
    (s.applyWindows old held).de.arming = s.de.arming ∧
    (s.applyWindows old held).de.flight = s.de.flight ∧
    (s.applyWindows old held).de.lastPage = s.de.lastPage ∧
    (∀ k : PageId, (s.applyWindows old held).de.pages[k.val].faulted = s.de.pages[k.val].faulted) := by
  suffices H : ∀ t : State, t = (s.applyWindows old held) →
    t.wu.ownedHits = s.wu.ownedHits ∧
    t.nu.ms = s.nu.ms ∧
    t.nu.outstanding = s.nu.outstanding ∧
    t.nu.sequence = s.nu.sequence ∧
    (∀ k : LineId, t.lines[k.val].ls = s.lines[k.val].ls) ∧
    (∀ k : LineId, t.lines[k.val].sru = s.lines[k.val].sru) ∧
    t.de.staging = s.de.staging ∧
    t.de.rings = s.de.rings ∧
    t.de.statusDirty = s.de.statusDirty ∧
    t.de.fresh = s.de.fresh ∧
    t.de.arming = s.de.arming ∧
    t.de.flight = s.de.flight ∧
    t.de.lastPage = s.de.lastPage ∧
    (∀ k : PageId, t.de.pages[k.val].faulted = s.de.pages[k.val].faulted) from H _ rfl
  intro t ht
  simp only [State.applyWindows] at ht
  subst ht
  simp

@[simp] theorem trackSequence_parts (s : State) (l : LineId) (q : BitVec 4) :
    (∀ k : LineId, (s.trackSequence l q).lines[k.val].ls = s.lines[k.val].ls) ∧
    (∀ k : LineId, (s.trackSequence l q).lines[k.val].gzu = s.lines[k.val].gzu) ∧
    (s.trackSequence l q).nu.ms = s.nu.ms ∧
    (s.trackSequence l q).nu.outstanding = s.nu.outstanding ∧
    (s.trackSequence l q).nu.sequence = s.nu.sequence ∧
    (s.trackSequence l q).de.staging = s.de.staging ∧
    (s.trackSequence l q).de.rings = s.de.rings ∧
    (s.trackSequence l q).de.statusDirty = s.de.statusDirty ∧
    (s.trackSequence l q).de.fresh = s.de.fresh ∧
    (s.trackSequence l q).de.arming = s.de.arming ∧
    (s.trackSequence l q).de.flight = s.de.flight ∧
    (s.trackSequence l q).de.lastPage = s.de.lastPage ∧
    (∀ k : PageId, (s.trackSequence l q).de.pages[k.val].faulted = s.de.pages[k.val].faulted) ∧
    (∀ k : LineId, k ≠ l → (s.trackSequence l q).lines[k.val] = s.lines[k.val]) := by
  suffices H : ∀ t : State, t = (s.trackSequence l q) →
    (∀ k : LineId, t.lines[k.val].ls = s.lines[k.val].ls) ∧
    (∀ k : LineId, t.lines[k.val].gzu = s.lines[k.val].gzu) ∧
    t.nu.ms = s.nu.ms ∧
    t.nu.outstanding = s.nu.outstanding ∧
    t.nu.sequence = s.nu.sequence ∧
    t.de.staging = s.de.staging ∧
    t.de.rings = s.de.rings ∧
    t.de.statusDirty = s.de.statusDirty ∧
    t.de.fresh = s.de.fresh ∧
    t.de.arming = s.de.arming ∧
    t.de.flight = s.de.flight ∧
    t.de.lastPage = s.de.lastPage ∧
    (∀ k : PageId, t.de.pages[k.val].faulted = s.de.pages[k.val].faulted) ∧
    (∀ k : LineId, k ≠ l → t.lines[k.val] = s.lines[k.val]) from H _ rfl
  intro t ht
  simp only [State.trackSequence] at ht
  (repeat' split at ht) <;> subst ht <;> simp +contextual [State.ls, State.sru, State.gzu, State.copies, State.page, State.ring, State.staging, State.window, State.liveDelivery, State.liveLine, State.liveCal, State.markLine, State.markPart, modLs_lines_other, modSru_lines_other, modGzu_lines_other, modCopies_lines_other]

@[simp] theorem frameHeard_parts (s : State) (l : LineId) :
    (∀ k : LineId, (s.frameHeard l).lines[k.val].ls = s.lines[k.val].ls) ∧
    (∀ k : LineId, (s.frameHeard l).lines[k.val].gzu = s.lines[k.val].gzu) ∧
    (∀ k : LineId, k ≠ l → (s.frameHeard l).lines[k.val] = s.lines[k.val]) := by
  suffices H : ∀ t : State, t = (s.frameHeard l) →
    (∀ k : LineId, t.lines[k.val].ls = s.lines[k.val].ls) ∧
    (∀ k : LineId, t.lines[k.val].gzu = s.lines[k.val].gzu) ∧
    (∀ k : LineId, k ≠ l → t.lines[k.val] = s.lines[k.val]) from H _ rfl
  intro t ht
  simp only [State.frameHeard] at ht
  (repeat' split at ht) <;> subst ht <;> simp +contextual [State.ls, State.sru, State.gzu, State.copies, State.page, State.ring, State.staging, State.window, State.liveDelivery, State.liveLine, State.liveCal, State.markLine, State.markPart, modLs_lines_other, modSru_lines_other, modGzu_lines_other, modCopies_lines_other]

@[simp] theorem accumulate_parts (s : State) (l : LineId) (f : Frame) :
    (∀ k : LineId, (s.accumulate l f).lines[k.val].ls = s.lines[k.val].ls) ∧
    (∀ k : LineId, (s.accumulate l f).lines[k.val].gzu = s.lines[k.val].gzu) ∧
    (∀ k : LineId, k ≠ l → (s.accumulate l f).lines[k.val] = s.lines[k.val]) := by
  suffices H : ∀ t : State, t = (s.accumulate l f) →
    (∀ k : LineId, t.lines[k.val].ls = s.lines[k.val].ls) ∧
    (∀ k : LineId, t.lines[k.val].gzu = s.lines[k.val].gzu) ∧
    (∀ k : LineId, k ≠ l → t.lines[k.val] = s.lines[k.val]) from H _ rfl
  intro t ht
  simp only [State.accumulate] at ht
  (repeat' split at ht) <;> subst ht <;> simp +contextual [State.ls, State.sru, State.gzu, State.copies, State.page, State.ring, State.staging, State.window, State.liveDelivery, State.liveLine, State.liveCal, State.markLine, State.markPart, modLs_lines_other, modSru_lines_other, modGzu_lines_other, modCopies_lines_other]

@[simp] theorem frameError_parts (s : State) (l : LineId) :
    (∀ k : LineId, (s.frameError l).lines[k.val].ls = s.lines[k.val].ls) ∧
    (∀ k : LineId, (s.frameError l).lines[k.val].gzu = s.lines[k.val].gzu) ∧
    (s.frameError l).de.staging = s.de.staging ∧
    (s.frameError l).de.rings = s.de.rings ∧
    (s.frameError l).de.statusDirty = s.de.statusDirty ∧
    (s.frameError l).de.fresh = s.de.fresh ∧
    (s.frameError l).de.arming = s.de.arming ∧
    (s.frameError l).de.flight = s.de.flight ∧
    (s.frameError l).de.lastPage = s.de.lastPage ∧
    (∀ k : PageId, (s.frameError l).de.pages[k.val].faulted = s.de.pages[k.val].faulted) ∧
    (∀ k : LineId, k ≠ l → (s.frameError l).lines[k.val] = s.lines[k.val]) := by
  suffices H : ∀ t : State, t = (s.frameError l) →
    (∀ k : LineId, t.lines[k.val].ls = s.lines[k.val].ls) ∧
    (∀ k : LineId, t.lines[k.val].gzu = s.lines[k.val].gzu) ∧
    t.de.staging = s.de.staging ∧
    t.de.rings = s.de.rings ∧
    t.de.statusDirty = s.de.statusDirty ∧
    t.de.fresh = s.de.fresh ∧
    t.de.arming = s.de.arming ∧
    t.de.flight = s.de.flight ∧
    t.de.lastPage = s.de.lastPage ∧
    (∀ k : PageId, t.de.pages[k.val].faulted = s.de.pages[k.val].faulted) ∧
    (∀ k : LineId, k ≠ l → t.lines[k.val] = s.lines[k.val]) from H _ rfl
  intro t ht
  simp only [State.frameError] at ht
  subst ht
  simp +contextual [State.ls, State.sru, State.gzu, State.copies, State.page, State.ring, State.staging, State.window, State.liveDelivery, State.liveLine, State.liveCal, State.markLine, State.markPart, modLs_lines_other, modSru_lines_other, modGzu_lines_other, modCopies_lines_other]

@[simp] theorem takeFrame_parts (s : State) (l : LineId) (b : List Bool) (n : Nat) :
    (∀ k : LineId, (s.takeFrame l b n).lines[k.val].ls = s.lines[k.val].ls) ∧
    (∀ k : LineId, (s.takeFrame l b n).lines[k.val].gzu = s.lines[k.val].gzu) ∧
    (s.takeFrame l b n).nu.ms = s.nu.ms ∧
    (s.takeFrame l b n).nu.outstanding = s.nu.outstanding ∧
    (s.takeFrame l b n).nu.sequence = s.nu.sequence ∧
    (s.takeFrame l b n).de.staging = s.de.staging ∧
    (s.takeFrame l b n).de.rings = s.de.rings ∧
    (s.takeFrame l b n).de.statusDirty = s.de.statusDirty ∧
    (s.takeFrame l b n).de.fresh = s.de.fresh ∧
    (s.takeFrame l b n).de.arming = s.de.arming ∧
    (s.takeFrame l b n).de.flight = s.de.flight ∧
    (s.takeFrame l b n).de.lastPage = s.de.lastPage ∧
    (∀ k : PageId, (s.takeFrame l b n).de.pages[k.val].faulted = s.de.pages[k.val].faulted) ∧
    (∀ k : LineId, k ≠ l → (s.takeFrame l b n).lines[k.val] = s.lines[k.val]) := by
  suffices H : ∀ t : State, t = (s.takeFrame l b n) →
    (∀ k : LineId, t.lines[k.val].ls = s.lines[k.val].ls) ∧
    (∀ k : LineId, t.lines[k.val].gzu = s.lines[k.val].gzu) ∧
    t.nu.ms = s.nu.ms ∧
    t.nu.outstanding = s.nu.outstanding ∧
    t.nu.sequence = s.nu.sequence ∧
    t.de.staging = s.de.staging ∧
    t.de.rings = s.de.rings ∧
    t.de.statusDirty = s.de.statusDirty ∧
    t.de.fresh = s.de.fresh ∧
    t.de.arming = s.de.arming ∧
    t.de.flight = s.de.flight ∧
    t.de.lastPage = s.de.lastPage ∧
    (∀ k : PageId, t.de.pages[k.val].faulted = s.de.pages[k.val].faulted) ∧
    (∀ k : LineId, k ≠ l → t.lines[k.val] = s.lines[k.val]) from H _ rfl
  intro t ht
  simp only [State.takeFrame] at ht
  (repeat' split at ht) <;> subst ht <;> simp +contextual [State.ls, State.sru, State.gzu, State.copies, State.page, State.ring, State.staging, State.window, State.liveDelivery, State.liveLine, State.liveCal, State.markLine, State.markPart, modLs_lines_other, modSru_lines_other, modGzu_lines_other, modCopies_lines_other]

@[simp] theorem receiverIdle_parts (s : State) (l : LineId) :
    (∀ k : LineId, (s.receiverIdle l).lines[k.val].ls = s.lines[k.val].ls) ∧
    (∀ k : LineId, (s.receiverIdle l).lines[k.val].gzu = s.lines[k.val].gzu) ∧
    (∀ k : LineId, k ≠ l → (s.receiverIdle l).lines[k.val] = s.lines[k.val]) := by
  suffices H : ∀ t : State, t = (s.receiverIdle l) →
    (∀ k : LineId, t.lines[k.val].ls = s.lines[k.val].ls) ∧
    (∀ k : LineId, t.lines[k.val].gzu = s.lines[k.val].gzu) ∧
    (∀ k : LineId, k ≠ l → t.lines[k.val] = s.lines[k.val]) from H _ rfl
  intro t ht
  simp only [State.receiverIdle] at ht
  subst ht
  simp +contextual [State.ls, State.sru, State.gzu, State.copies, State.page, State.ring, State.staging, State.window, State.liveDelivery, State.liveLine, State.liveCal, State.markLine, State.markPart, modLs_lines_other, modSru_lines_other, modGzu_lines_other, modCopies_lines_other]

@[simp] theorem frameEnds_parts (s : State) (l : LineId) (b : List Bool) :
    (∀ k : LineId, (s.frameEnds l b).lines[k.val].ls = s.lines[k.val].ls) ∧
    (∀ k : LineId, (s.frameEnds l b).lines[k.val].gzu = s.lines[k.val].gzu) ∧
    (s.frameEnds l b).nu.ms = s.nu.ms ∧
    (s.frameEnds l b).nu.outstanding = s.nu.outstanding ∧
    (s.frameEnds l b).nu.sequence = s.nu.sequence ∧
    (s.frameEnds l b).de.staging = s.de.staging ∧
    (s.frameEnds l b).de.rings = s.de.rings ∧
    (s.frameEnds l b).de.statusDirty = s.de.statusDirty ∧
    (s.frameEnds l b).de.fresh = s.de.fresh ∧
    (s.frameEnds l b).de.arming = s.de.arming ∧
    (s.frameEnds l b).de.flight = s.de.flight ∧
    (s.frameEnds l b).de.lastPage = s.de.lastPage ∧
    (∀ k : PageId, (s.frameEnds l b).de.pages[k.val].faulted = s.de.pages[k.val].faulted) ∧
    (∀ k : LineId, k ≠ l → (s.frameEnds l b).lines[k.val] = s.lines[k.val]) := by
  suffices H : ∀ t : State, t = (s.frameEnds l b) →
    (∀ k : LineId, t.lines[k.val].ls = s.lines[k.val].ls) ∧
    (∀ k : LineId, t.lines[k.val].gzu = s.lines[k.val].gzu) ∧
    t.nu.ms = s.nu.ms ∧
    t.nu.outstanding = s.nu.outstanding ∧
    t.nu.sequence = s.nu.sequence ∧
    t.de.staging = s.de.staging ∧
    t.de.rings = s.de.rings ∧
    t.de.statusDirty = s.de.statusDirty ∧
    t.de.fresh = s.de.fresh ∧
    t.de.arming = s.de.arming ∧
    t.de.flight = s.de.flight ∧
    t.de.lastPage = s.de.lastPage ∧
    (∀ k : PageId, t.de.pages[k.val].faulted = s.de.pages[k.val].faulted) ∧
    (∀ k : LineId, k ≠ l → t.lines[k.val] = s.lines[k.val]) from H _ rfl
  intro t ht
  simp only [State.frameEnds] at ht
  (repeat' split at ht) <;> subst ht <;> simp +contextual [State.ls, State.sru, State.gzu, State.copies, State.page, State.ring, State.staging, State.window, State.liveDelivery, State.liveLine, State.liveCal, State.markLine, State.markPart, modLs_lines_other, modSru_lines_other, modGzu_lines_other, modCopies_lines_other]

@[simp] theorem silenceBegins_parts (s : State) (l : LineId) :
    (∀ k : LineId, (s.silenceBegins l).lines[k.val].ls = s.lines[k.val].ls) ∧
    (∀ k : LineId, (s.silenceBegins l).lines[k.val].gzu = s.lines[k.val].gzu) ∧
    (s.silenceBegins l).nu.ms = s.nu.ms ∧
    (s.silenceBegins l).nu.outstanding = s.nu.outstanding ∧
    (s.silenceBegins l).nu.sequence = s.nu.sequence ∧
    (s.silenceBegins l).de.staging = s.de.staging ∧
    (s.silenceBegins l).de.rings = s.de.rings ∧
    (s.silenceBegins l).de.statusDirty = s.de.statusDirty ∧
    (s.silenceBegins l).de.fresh = s.de.fresh ∧
    (s.silenceBegins l).de.arming = s.de.arming ∧
    (s.silenceBegins l).de.flight = s.de.flight ∧
    (s.silenceBegins l).de.lastPage = s.de.lastPage ∧
    (∀ k : PageId, (s.silenceBegins l).de.pages[k.val].faulted = s.de.pages[k.val].faulted) ∧
    (∀ k : LineId, k ≠ l → (s.silenceBegins l).lines[k.val] = s.lines[k.val]) := by
  suffices H : ∀ t : State, t = (s.silenceBegins l) →
    (∀ k : LineId, t.lines[k.val].ls = s.lines[k.val].ls) ∧
    (∀ k : LineId, t.lines[k.val].gzu = s.lines[k.val].gzu) ∧
    t.nu.ms = s.nu.ms ∧
    t.nu.outstanding = s.nu.outstanding ∧
    t.nu.sequence = s.nu.sequence ∧
    t.de.staging = s.de.staging ∧
    t.de.rings = s.de.rings ∧
    t.de.statusDirty = s.de.statusDirty ∧
    t.de.fresh = s.de.fresh ∧
    t.de.arming = s.de.arming ∧
    t.de.flight = s.de.flight ∧
    t.de.lastPage = s.de.lastPage ∧
    (∀ k : PageId, t.de.pages[k.val].faulted = s.de.pages[k.val].faulted) ∧
    (∀ k : LineId, k ≠ l → t.lines[k.val] = s.lines[k.val]) from H _ rfl
  intro t ht
  simp only [State.silenceBegins] at ht
  subst ht
  simp +contextual [State.ls, State.sru, State.gzu, State.copies, State.page, State.ring, State.staging, State.window, State.liveDelivery, State.liveLine, State.liveCal, State.markLine, State.markPart, modLs_lines_other, modSru_lines_other, modGzu_lines_other, modCopies_lines_other]

@[simp] theorem raiseZone_parts (s : State) (l : LineId) (z : Fin 4) (e : ZoneEvent) :
    (s.raiseZone l z e).nu.ms = s.nu.ms ∧
    (s.raiseZone l z e).nu.outstanding = s.nu.outstanding ∧
    (s.raiseZone l z e).nu.sequence = s.nu.sequence := by
  suffices H : ∀ t : State, t = (s.raiseZone l z e) →
    t.nu.ms = s.nu.ms ∧
    t.nu.outstanding = s.nu.outstanding ∧
    t.nu.sequence = s.nu.sequence from H _ rfl
  intro t ht
  simp only [State.raiseZone] at ht
  (repeat' split at ht) <;> subst ht <;> simp

@[simp] theorem setZone_parts (s : State) (l : LineId) (z : Fin 4) (r : ZoneRec) :
    (∀ k : LineId, (s.setZone l z r).lines[k.val].ls = s.lines[k.val].ls) ∧
    (∀ k : LineId, (s.setZone l z r).lines[k.val].sru = s.lines[k.val].sru) ∧
    (∀ k : LineId, k ≠ l → (s.setZone l z r).lines[k.val] = s.lines[k.val]) := by
  suffices H : ∀ t : State, t = (s.setZone l z r) →
    (∀ k : LineId, t.lines[k.val].ls = s.lines[k.val].ls) ∧
    (∀ k : LineId, t.lines[k.val].sru = s.lines[k.val].sru) ∧
    (∀ k : LineId, k ≠ l → t.lines[k.val] = s.lines[k.val]) from H _ rfl
  intro t ht
  simp only [State.setZone] at ht
  subst ht
  simp +contextual [State.ls, State.sru, State.gzu, State.copies, State.page, State.ring, State.staging, State.window, State.liveDelivery, State.liveLine, State.liveCal, State.markLine, State.markPart, modLs_lines_other, modSru_lines_other, modGzu_lines_other, modCopies_lines_other]

@[simp] theorem evalZone_parts (s : State) (l : LineId) (z : Fin 4) :
    (∀ k : LineId, (s.evalZone l z).lines[k.val].ls = s.lines[k.val].ls) ∧
    (∀ k : LineId, (s.evalZone l z).lines[k.val].sru = s.lines[k.val].sru) ∧
    (s.evalZone l z).nu.ms = s.nu.ms ∧
    (s.evalZone l z).nu.outstanding = s.nu.outstanding ∧
    (s.evalZone l z).nu.sequence = s.nu.sequence ∧
    (∀ k : LineId, k ≠ l → (s.evalZone l z).lines[k.val] = s.lines[k.val]) := by
  suffices H : ∀ t : State, t = (s.evalZone l z) →
    (∀ k : LineId, t.lines[k.val].ls = s.lines[k.val].ls) ∧
    (∀ k : LineId, t.lines[k.val].sru = s.lines[k.val].sru) ∧
    t.nu.ms = s.nu.ms ∧
    t.nu.outstanding = s.nu.outstanding ∧
    t.nu.sequence = s.nu.sequence ∧
    (∀ k : LineId, k ≠ l → t.lines[k.val] = s.lines[k.val]) from H _ rfl
  intro t ht
  simp only [State.evalZone] at ht
  (repeat' split at ht) <;> subst ht <;> simp +contextual [State.ls, State.sru, State.gzu, State.copies, State.page, State.ring, State.staging, State.window, State.liveDelivery, State.liveLine, State.liveCal, State.markLine, State.markPart, modLs_lines_other, modSru_lines_other, modGzu_lines_other, modCopies_lines_other]

@[simp] theorem dropStaged_parts (s : State) (l : LineId) :
    (s.dropStaged l).de.rings = s.de.rings ∧
    (s.dropStaged l).de.statusDirty = s.de.statusDirty ∧
    (s.dropStaged l).de.fresh = s.de.fresh ∧
    (s.dropStaged l).de.arming = s.de.arming ∧
    (s.dropStaged l).de.flight = s.de.flight ∧
    (s.dropStaged l).de.lastPage = s.de.lastPage ∧
    (∀ k : PageId, (s.dropStaged l).de.pages[k.val].faulted = s.de.pages[k.val].faulted) ∧
    (s.dropStaged l).nu.ms = s.nu.ms ∧
    (s.dropStaged l).nu.outstanding = s.nu.outstanding ∧
    (s.dropStaged l).nu.sequence = s.nu.sequence := by
  suffices H : ∀ t : State, t = (s.dropStaged l) →
    t.de.rings = s.de.rings ∧
    t.de.statusDirty = s.de.statusDirty ∧
    t.de.fresh = s.de.fresh ∧
    t.de.arming = s.de.arming ∧
    t.de.flight = s.de.flight ∧
    t.de.lastPage = s.de.lastPage ∧
    (∀ k : PageId, t.de.pages[k.val].faulted = s.de.pages[k.val].faulted) ∧
    t.nu.ms = s.nu.ms ∧
    t.nu.outstanding = s.nu.outstanding ∧
    t.nu.sequence = s.nu.sequence from H _ rfl
  intro t ht
  simp only [State.dropStaged] at ht
  subst ht
  simp

@[simp] theorem stagingJoin_parts (s : State) (l : LineId) (p : Profile) :
    (s.stagingJoin l p).de.rings = s.de.rings ∧
    (s.stagingJoin l p).de.statusDirty = s.de.statusDirty ∧
    (s.stagingJoin l p).de.fresh = s.de.fresh ∧
    (s.stagingJoin l p).de.arming = s.de.arming ∧
    (s.stagingJoin l p).de.flight = s.de.flight ∧
    (s.stagingJoin l p).de.lastPage = s.de.lastPage ∧
    (∀ k : PageId, (s.stagingJoin l p).de.pages[k.val].faulted = s.de.pages[k.val].faulted) ∧
    (s.stagingJoin l p).nu.ms = s.nu.ms ∧
    (s.stagingJoin l p).nu.outstanding = s.nu.outstanding ∧
    (s.stagingJoin l p).nu.sequence = s.nu.sequence := by
  suffices H : ∀ t : State, t = (s.stagingJoin l p) →
    t.de.rings = s.de.rings ∧
    t.de.statusDirty = s.de.statusDirty ∧
    t.de.fresh = s.de.fresh ∧
    t.de.arming = s.de.arming ∧
    t.de.flight = s.de.flight ∧
    t.de.lastPage = s.de.lastPage ∧
    (∀ k : PageId, t.de.pages[k.val].faulted = s.de.pages[k.val].faulted) ∧
    t.nu.ms = s.nu.ms ∧
    t.nu.outstanding = s.nu.outstanding ∧
    t.nu.sequence = s.nu.sequence from H _ rfl
  intro t ht
  simp only [State.stagingJoin] at ht
  (repeat' split at ht) <;> subst ht <;> simp +contextual [State.ls, State.sru, State.gzu, State.copies, State.page, State.ring, State.staging, State.window, State.liveDelivery, State.liveLine, State.liveCal, State.markLine, State.markPart, modLs_lines_other, modSru_lines_other, modGzu_lines_other, modCopies_lines_other]

@[simp] theorem takeProfile_parts (s : State) (l : LineId) (p : Profile) :
    (∀ k : LineId, (s.takeProfile l p).lines[k.val].ls = s.lines[k.val].ls) ∧
    (∀ k : LineId, (s.takeProfile l p).lines[k.val].sru = s.lines[k.val].sru) ∧
    (s.takeProfile l p).nu.ms = s.nu.ms ∧
    (s.takeProfile l p).nu.outstanding = s.nu.outstanding ∧
    (s.takeProfile l p).nu.sequence = s.nu.sequence ∧
    (s.takeProfile l p).de.rings = s.de.rings ∧
    (s.takeProfile l p).de.statusDirty = s.de.statusDirty ∧
    (s.takeProfile l p).de.fresh = s.de.fresh ∧
    (s.takeProfile l p).de.arming = s.de.arming ∧
    (s.takeProfile l p).de.flight = s.de.flight ∧
    (s.takeProfile l p).de.lastPage = s.de.lastPage ∧
    (∀ k : LineId, k ≠ l → (s.takeProfile l p).lines[k.val] = s.lines[k.val]) := by
  simp only [State.takeProfile]
  refine ⟨fun k => ?_, fun k => ?_, ?_, ?_, ?_, ?_, ?_, ?_, ?_, ?_, ?_, fun k h => ?_⟩
  · simp; rw [foldl_keeps _ (fun z : State => z.lines[k.val].ls) (fun t x => by simp)]; simp
  · simp; rw [foldl_keeps _ (fun z : State => z.lines[k.val].sru) (fun t x => by simp)]; simp
  · simp; rw [foldl_keeps _ (fun z : State => z.nu.ms) (fun t x => by simp)]; simp
  · simp; rw [foldl_keeps _ (fun z : State => z.nu.outstanding) (fun t x => by simp)]; simp
  · simp; rw [foldl_keeps _ (fun z : State => z.nu.sequence) (fun t x => by simp)]; simp
  · simp
  · simp
  · simp
  · simp
  · simp
  · simp
  · simp [modLs_lines_other _ _ _ _ h, modSru_lines_other _ _ _ _ h, modGzu_lines_other _ _ _ _ h, h]; rw [foldl_keeps _ (fun z : State => z.lines[k.val]) (fun t x => by simp [*, State.markLine, modLs_lines_other _ _ _ _ h, modSru_lines_other _ _ _ _ h, modGzu_lines_other _ _ _ _ h, h])]; simp [modLs_lines_other _ _ _ _ h, modSru_lines_other _ _ _ _ h, modGzu_lines_other _ _ _ _ h, h]

@[simp] theorem reportLineState_parts (s : State) (l : LineId) :
    (∀ k : LineId, (s.reportLineState l).lines[k.val].ls = s.lines[k.val].ls) ∧
    (∀ k : LineId, (s.reportLineState l).lines[k.val].sru = s.lines[k.val].sru) ∧
    (s.reportLineState l).de.staging = s.de.staging ∧
    (s.reportLineState l).de.rings = s.de.rings ∧
    (s.reportLineState l).de.statusDirty = s.de.statusDirty ∧
    (s.reportLineState l).de.fresh = s.de.fresh ∧
    (s.reportLineState l).de.arming = s.de.arming ∧
    (s.reportLineState l).de.flight = s.de.flight ∧
    (s.reportLineState l).de.lastPage = s.de.lastPage ∧
    (∀ k : PageId, (s.reportLineState l).de.pages[k.val].faulted = s.de.pages[k.val].faulted) ∧
    (∀ k : LineId, k ≠ l → (s.reportLineState l).lines[k.val] = s.lines[k.val]) := by
  suffices H : ∀ t : State, t = (s.reportLineState l) →
    (∀ k : LineId, t.lines[k.val].ls = s.lines[k.val].ls) ∧
    (∀ k : LineId, t.lines[k.val].sru = s.lines[k.val].sru) ∧
    t.de.staging = s.de.staging ∧
    t.de.rings = s.de.rings ∧
    t.de.statusDirty = s.de.statusDirty ∧
    t.de.fresh = s.de.fresh ∧
    t.de.arming = s.de.arming ∧
    t.de.flight = s.de.flight ∧
    t.de.lastPage = s.de.lastPage ∧
    (∀ k : PageId, t.de.pages[k.val].faulted = s.de.pages[k.val].faulted) ∧
    (∀ k : LineId, k ≠ l → t.lines[k.val] = s.lines[k.val]) from H _ rfl
  intro t ht
  simp only [State.reportLineState] at ht
  subst ht
  simp +contextual [State.ls, State.sru, State.gzu, State.copies, State.page, State.ring, State.staging, State.window, State.liveDelivery, State.liveLine, State.liveCal, State.markLine, State.markPart, modLs_lines_other, modSru_lines_other, modGzu_lines_other, modCopies_lines_other]

@[simp] theorem resetZone_parts (s : State) (l : LineId) (z : Fin 4) :
    (∀ k : LineId, (s.resetZone l z).lines[k.val].ls = s.lines[k.val].ls) ∧
    (∀ k : LineId, (s.resetZone l z).lines[k.val].sru = s.lines[k.val].sru) ∧
    (s.resetZone l z).nu.ms = s.nu.ms ∧
    (s.resetZone l z).nu.outstanding = s.nu.outstanding ∧
    (s.resetZone l z).nu.sequence = s.nu.sequence ∧
    (∀ k : LineId, k ≠ l → (s.resetZone l z).lines[k.val] = s.lines[k.val]) := by
  suffices H : ∀ t : State, t = (s.resetZone l z) →
    (∀ k : LineId, t.lines[k.val].ls = s.lines[k.val].ls) ∧
    (∀ k : LineId, t.lines[k.val].sru = s.lines[k.val].sru) ∧
    t.nu.ms = s.nu.ms ∧
    t.nu.outstanding = s.nu.outstanding ∧
    t.nu.sequence = s.nu.sequence ∧
    (∀ k : LineId, k ≠ l → t.lines[k.val] = s.lines[k.val]) from H _ rfl
  intro t ht
  simp only [State.resetZone] at ht
  (repeat' split at ht) <;> subst ht <;> simp +contextual [State.ls, State.sru, State.gzu, State.copies, State.page, State.ring, State.staging, State.window, State.liveDelivery, State.liveLine, State.liveCal, State.markLine, State.markPart, modLs_lines_other, modSru_lines_other, modGzu_lines_other, modCopies_lines_other]

@[simp] theorem resetZones_parts (s : State) (l : LineId) (old : Bytes) :
    (∀ k : LineId, (s.resetZones l old).lines[k.val].ls = s.lines[k.val].ls) ∧
    (∀ k : LineId, (s.resetZones l old).lines[k.val].sru = s.lines[k.val].sru) ∧
    (s.resetZones l old).nu.ms = s.nu.ms ∧
    (s.resetZones l old).nu.outstanding = s.nu.outstanding ∧
    (s.resetZones l old).nu.sequence = s.nu.sequence ∧
    (∀ k : LineId, k ≠ l → (s.resetZones l old).lines[k.val] = s.lines[k.val]) := by
  simp only [State.resetZones]
  refine ⟨fun k => ?_, fun k => ?_, ?_, ?_, ?_, fun k h => ?_⟩
  · rw [foldl_keeps _ (fun z : State => z.lines[k.val].ls) (fun t x => by split <;> simp)]
  · rw [foldl_keeps _ (fun z : State => z.lines[k.val].sru) (fun t x => by split <;> simp)]
  · rw [foldl_keeps _ (fun z : State => z.nu.ms) (fun t x => by split <;> simp)]
  · rw [foldl_keeps _ (fun z : State => z.nu.outstanding) (fun t x => by split <;> simp)]
  · rw [foldl_keeps _ (fun z : State => z.nu.sequence) (fun t x => by split <;> simp)]
  · rw [foldl_keeps _ (fun z : State => z.lines[k.val]) (fun t x => by split <;> simp [*, State.markLine, modLs_lines_other _ _ _ _ h, modSru_lines_other _ _ _ _ h, modGzu_lines_other _ _ _ _ h, h])]

@[simp] theorem reexamTimer_parts (s : State) (l : LineId) :
    (∀ k : LineId, (s.reexamTimer l).lines[k.val].sru = s.lines[k.val].sru) ∧
    (∀ k : LineId, (s.reexamTimer l).lines[k.val].gzu = s.lines[k.val].gzu) ∧
    (∀ k : LineId, k ≠ l → (s.reexamTimer l).lines[k.val] = s.lines[k.val]) := by
  suffices H : ∀ t : State, t = (s.reexamTimer l) →
    (∀ k : LineId, t.lines[k.val].sru = s.lines[k.val].sru) ∧
    (∀ k : LineId, t.lines[k.val].gzu = s.lines[k.val].gzu) ∧
    (∀ k : LineId, k ≠ l → t.lines[k.val] = s.lines[k.val]) from H _ rfl
  intro t ht
  simp only [State.reexamTimer] at ht
  subst ht
  simp +contextual [State.ls, State.sru, State.gzu, State.copies, State.page, State.ring, State.staging, State.window, State.liveDelivery, State.liveLine, State.liveCal, State.markLine, State.markPart, modLs_lines_other, modSru_lines_other, modGzu_lines_other, modCopies_lines_other]

@[simp] theorem refreshCauses_parts (s : State) (l : LineId) :
    (∀ k : LineId, (s.refreshCauses l).lines[k.val].sru = s.lines[k.val].sru) ∧
    (∀ k : LineId, (s.refreshCauses l).lines[k.val].gzu = s.lines[k.val].gzu) ∧
    (∀ k : LineId, k ≠ l → (s.refreshCauses l).lines[k.val] = s.lines[k.val]) := by
  suffices H : ∀ t : State, t = (s.refreshCauses l) →
    (∀ k : LineId, t.lines[k.val].sru = s.lines[k.val].sru) ∧
    (∀ k : LineId, t.lines[k.val].gzu = s.lines[k.val].gzu) ∧
    (∀ k : LineId, k ≠ l → t.lines[k.val] = s.lines[k.val]) from H _ rfl
  intro t ht
  simp only [State.refreshCauses] at ht
  subst ht
  simp +contextual [State.ls, State.sru, State.gzu, State.copies, State.page, State.ring, State.staging, State.window, State.liveDelivery, State.liveLine, State.liveCal, State.markLine, State.markPart, modLs_lines_other, modSru_lines_other, modGzu_lines_other, modCopies_lines_other]

@[simp] theorem lsApply_parts (s : State) (l : LineId) (old : Bytes) :
    (∀ k : LineId, (s.lsApply l old).lines[k.val].sru = s.lines[k.val].sru) ∧
    (∀ k : LineId, (s.lsApply l old).lines[k.val].gzu = s.lines[k.val].gzu) ∧
    (∀ k : LineId, k ≠ l → (s.lsApply l old).lines[k.val] = s.lines[k.val]) := by
  suffices H : ∀ t : State, t = (s.lsApply l old) →
    (∀ k : LineId, t.lines[k.val].sru = s.lines[k.val].sru) ∧
    (∀ k : LineId, t.lines[k.val].gzu = s.lines[k.val].gzu) ∧
    (∀ k : LineId, k ≠ l → t.lines[k.val] = s.lines[k.val]) from H _ rfl
  intro t ht
  simp only [State.lsApply] at ht
  (repeat' split at ht) <;> subst ht <;> simp +contextual [State.ls, State.sru, State.gzu, State.copies, State.page, State.ring, State.staging, State.window, State.liveDelivery, State.liveLine, State.liveCal, State.markLine, State.markPart, modLs_lines_other, modSru_lines_other, modGzu_lines_other, modCopies_lines_other]

@[simp] theorem appliedTo_parts (s : State) (o : Owner) :
    (s.appliedTo o).cu.state = s.cu.state ∧
    (s.appliedTo o).cu.lines = s.cu.lines ∧
    (s.appliedTo o).cu.liveWindows = s.cu.liveWindows ∧
    (s.appliedTo o).cu.liveDelivery = s.cu.liveDelivery ∧
    (s.appliedTo o).cu.frozen = s.cu.frozen ∧
    (s.appliedTo o).cu.load = s.cu.load ∧
    (s.appliedTo o).de.staging = s.de.staging ∧
    (s.appliedTo o).de.rings = s.de.rings ∧
    (s.appliedTo o).de.fresh = s.de.fresh ∧
    (s.appliedTo o).de.arming = s.de.arming ∧
    (s.appliedTo o).de.flight = s.de.flight ∧
    (s.appliedTo o).de.lastPage = s.de.lastPage ∧
    (∀ k : PageId, (s.appliedTo o).de.pages[k.val].faulted = s.de.pages[k.val].faulted) := by
  suffices H : ∀ t : State, t = (s.appliedTo o) →
    t.cu.state = s.cu.state ∧
    t.cu.lines = s.cu.lines ∧
    t.cu.liveWindows = s.cu.liveWindows ∧
    t.cu.liveDelivery = s.cu.liveDelivery ∧
    t.cu.frozen = s.cu.frozen ∧
    t.cu.load = s.cu.load ∧
    t.de.staging = s.de.staging ∧
    t.de.rings = s.de.rings ∧
    t.de.fresh = s.de.fresh ∧
    t.de.arming = s.de.arming ∧
    t.de.flight = s.de.flight ∧
    t.de.lastPage = s.de.lastPage ∧
    (∀ k : PageId, t.de.pages[k.val].faulted = s.de.pages[k.val].faulted) from H _ rfl
  intro t ht
  simp only [State.appliedTo] at ht
  (repeat' split at ht) <;> subst ht <;> simp +contextual [State.ls, State.sru, State.gzu, State.copies, State.page, State.ring, State.staging, State.window, State.liveDelivery, State.liveLine, State.liveCal, State.markLine, State.markPart, modLs_lines_other, modSru_lines_other, modGzu_lines_other, modCopies_lines_other]

@[simp] theorem applyLine_parts (s : State) (l : LineId) (new : Bytes) (tag : Byte) :
    (s.applyLine l new tag).cu.state = s.cu.state ∧
    (s.applyLine l new tag).cu.liveWindows = s.cu.liveWindows ∧
    (s.applyLine l new tag).cu.liveDelivery = s.cu.liveDelivery ∧
    (s.applyLine l new tag).cu.frozen = s.cu.frozen ∧
    (s.applyLine l new tag).cu.load = s.cu.load ∧
    (∀ k : LineId, (s.applyLine l new tag).cu.lines[k.val].liveCal = s.cu.lines[k.val].liveCal) ∧
    (∀ k : LineId, (s.applyLine l new tag).cu.lines[k.val].pendingCal = s.cu.lines[k.val].pendingCal) ∧
    (∀ k : LineId, (s.applyLine l new tag).lines[k.val].sru = s.lines[k.val].sru) ∧
    (s.applyLine l new tag).nu.ms = s.nu.ms ∧
    (s.applyLine l new tag).nu.outstanding = s.nu.outstanding ∧
    (s.applyLine l new tag).nu.sequence = s.nu.sequence ∧
    (s.applyLine l new tag).de.staging = s.de.staging ∧
    (s.applyLine l new tag).de.rings = s.de.rings ∧
    (s.applyLine l new tag).de.statusDirty = s.de.statusDirty ∧
    (s.applyLine l new tag).de.fresh = s.de.fresh ∧
    (s.applyLine l new tag).de.arming = s.de.arming ∧
    (s.applyLine l new tag).de.flight = s.de.flight ∧
    (s.applyLine l new tag).de.lastPage = s.de.lastPage ∧
    (∀ k : PageId, (s.applyLine l new tag).de.pages[k.val].faulted = s.de.pages[k.val].faulted) ∧
    (∀ k : LineId, k ≠ l → (s.applyLine l new tag).lines[k.val] = s.lines[k.val]) ∧
    (∀ k : LineId, k ≠ l → (s.applyLine l new tag).cu.lines[k.val] = s.cu.lines[k.val]) := by
  suffices H : ∀ t : State, t = (s.applyLine l new tag) →
    t.cu.state = s.cu.state ∧
    t.cu.liveWindows = s.cu.liveWindows ∧
    t.cu.liveDelivery = s.cu.liveDelivery ∧
    t.cu.frozen = s.cu.frozen ∧
    t.cu.load = s.cu.load ∧
    (∀ k : LineId, t.cu.lines[k.val].liveCal = s.cu.lines[k.val].liveCal) ∧
    (∀ k : LineId, t.cu.lines[k.val].pendingCal = s.cu.lines[k.val].pendingCal) ∧
    (∀ k : LineId, t.lines[k.val].sru = s.lines[k.val].sru) ∧
    t.nu.ms = s.nu.ms ∧
    t.nu.outstanding = s.nu.outstanding ∧
    t.nu.sequence = s.nu.sequence ∧
    t.de.staging = s.de.staging ∧
    t.de.rings = s.de.rings ∧
    t.de.statusDirty = s.de.statusDirty ∧
    t.de.fresh = s.de.fresh ∧
    t.de.arming = s.de.arming ∧
    t.de.flight = s.de.flight ∧
    t.de.lastPage = s.de.lastPage ∧
    (∀ k : PageId, t.de.pages[k.val].faulted = s.de.pages[k.val].faulted) ∧
    (∀ k : LineId, k ≠ l → t.lines[k.val] = s.lines[k.val]) ∧
    (∀ k : LineId, k ≠ l → t.cu.lines[k.val] = s.cu.lines[k.val]) from H _ rfl
  intro t ht
  simp only [State.applyLine] at ht
  subst ht
  simp +contextual [State.ls, State.sru, State.gzu, State.copies, State.page, State.ring, State.staging, State.window, State.liveDelivery, State.liveLine, State.liveCal, State.markLine, State.markPart, modLs_lines_other, modSru_lines_other, modGzu_lines_other, modCopies_lines_other]

@[simp] theorem applyCal_parts (s : State) (l : LineId) (new : Bytes) (tag : Byte) :
    (s.applyCal l new tag).cu.state = s.cu.state ∧
    (s.applyCal l new tag).cu.liveWindows = s.cu.liveWindows ∧
    (s.applyCal l new tag).cu.liveDelivery = s.cu.liveDelivery ∧
    (s.applyCal l new tag).cu.frozen = s.cu.frozen ∧
    (s.applyCal l new tag).cu.load = s.cu.load ∧
    (∀ k : LineId, (s.applyCal l new tag).cu.lines[k.val].liveLine = s.cu.lines[k.val].liveLine) ∧
    (∀ k : LineId, (s.applyCal l new tag).cu.lines[k.val].pendingLine = s.cu.lines[k.val].pendingLine) ∧
    (s.applyCal l new tag).nu.ms = s.nu.ms ∧
    (s.applyCal l new tag).nu.outstanding = s.nu.outstanding ∧
    (s.applyCal l new tag).nu.sequence = s.nu.sequence ∧
    (s.applyCal l new tag).de.staging = s.de.staging ∧
    (s.applyCal l new tag).de.rings = s.de.rings ∧
    (s.applyCal l new tag).de.statusDirty = s.de.statusDirty ∧
    (s.applyCal l new tag).de.fresh = s.de.fresh ∧
    (s.applyCal l new tag).de.arming = s.de.arming ∧
    (s.applyCal l new tag).de.flight = s.de.flight ∧
    (s.applyCal l new tag).de.lastPage = s.de.lastPage ∧
    (∀ k : PageId, (s.applyCal l new tag).de.pages[k.val].faulted = s.de.pages[k.val].faulted) ∧
    (∀ k : LineId, k ≠ l → (s.applyCal l new tag).cu.lines[k.val] = s.cu.lines[k.val]) := by
  suffices H : ∀ t : State, t = (s.applyCal l new tag) →
    t.cu.state = s.cu.state ∧
    t.cu.liveWindows = s.cu.liveWindows ∧
    t.cu.liveDelivery = s.cu.liveDelivery ∧
    t.cu.frozen = s.cu.frozen ∧
    t.cu.load = s.cu.load ∧
    (∀ k : LineId, t.cu.lines[k.val].liveLine = s.cu.lines[k.val].liveLine) ∧
    (∀ k : LineId, t.cu.lines[k.val].pendingLine = s.cu.lines[k.val].pendingLine) ∧
    t.nu.ms = s.nu.ms ∧
    t.nu.outstanding = s.nu.outstanding ∧
    t.nu.sequence = s.nu.sequence ∧
    t.de.staging = s.de.staging ∧
    t.de.rings = s.de.rings ∧
    t.de.statusDirty = s.de.statusDirty ∧
    t.de.fresh = s.de.fresh ∧
    t.de.arming = s.de.arming ∧
    t.de.flight = s.de.flight ∧
    t.de.lastPage = s.de.lastPage ∧
    (∀ k : PageId, t.de.pages[k.val].faulted = s.de.pages[k.val].faulted) ∧
    (∀ k : LineId, k ≠ l → t.cu.lines[k.val] = s.cu.lines[k.val]) from H _ rfl
  intro t ht
  simp only [State.applyCal] at ht
  subst ht
  simp +contextual [State.ls, State.sru, State.gzu, State.copies, State.page, State.ring, State.staging, State.window, State.liveDelivery, State.liveLine, State.liveCal, State.markLine, State.markPart, modLs_lines_other, modSru_lines_other, modGzu_lines_other, modCopies_lines_other]

@[simp] theorem transferLine_parts (s : State) (l : LineId) :
    (s.transferLine l).cu.state = s.cu.state ∧
    (s.transferLine l).cu.liveWindows = s.cu.liveWindows ∧
    (s.transferLine l).cu.liveDelivery = s.cu.liveDelivery ∧
    (s.transferLine l).cu.frozen = s.cu.frozen ∧
    (s.transferLine l).cu.load = s.cu.load ∧
    (∀ k : LineId, (s.transferLine l).cu.lines[k.val].liveCal = s.cu.lines[k.val].liveCal) ∧
    (∀ k : LineId, (s.transferLine l).cu.lines[k.val].pendingCal = s.cu.lines[k.val].pendingCal) ∧
    (∀ k : LineId, (s.transferLine l).lines[k.val].sru = s.lines[k.val].sru) ∧
    (s.transferLine l).nu.ms = s.nu.ms ∧
    (s.transferLine l).nu.outstanding = s.nu.outstanding ∧
    (s.transferLine l).nu.sequence = s.nu.sequence ∧
    (s.transferLine l).de.staging = s.de.staging ∧
    (s.transferLine l).de.rings = s.de.rings ∧
    (s.transferLine l).de.fresh = s.de.fresh ∧
    (s.transferLine l).de.arming = s.de.arming ∧
    (s.transferLine l).de.flight = s.de.flight ∧
    (s.transferLine l).de.lastPage = s.de.lastPage ∧
    (∀ k : PageId, (s.transferLine l).de.pages[k.val].faulted = s.de.pages[k.val].faulted) ∧
    (∀ k : LineId, k ≠ l → (s.transferLine l).lines[k.val] = s.lines[k.val]) ∧
    (∀ k : LineId, k ≠ l → (s.transferLine l).cu.lines[k.val] = s.cu.lines[k.val]) := by
  suffices H : ∀ t : State, t = (s.transferLine l) →
    t.cu.state = s.cu.state ∧
    t.cu.liveWindows = s.cu.liveWindows ∧
    t.cu.liveDelivery = s.cu.liveDelivery ∧
    t.cu.frozen = s.cu.frozen ∧
    t.cu.load = s.cu.load ∧
    (∀ k : LineId, t.cu.lines[k.val].liveCal = s.cu.lines[k.val].liveCal) ∧
    (∀ k : LineId, t.cu.lines[k.val].pendingCal = s.cu.lines[k.val].pendingCal) ∧
    (∀ k : LineId, t.lines[k.val].sru = s.lines[k.val].sru) ∧
    t.nu.ms = s.nu.ms ∧
    t.nu.outstanding = s.nu.outstanding ∧
    t.nu.sequence = s.nu.sequence ∧
    t.de.staging = s.de.staging ∧
    t.de.rings = s.de.rings ∧
    t.de.fresh = s.de.fresh ∧
    t.de.arming = s.de.arming ∧
    t.de.flight = s.de.flight ∧
    t.de.lastPage = s.de.lastPage ∧
    (∀ k : PageId, t.de.pages[k.val].faulted = s.de.pages[k.val].faulted) ∧
    (∀ k : LineId, k ≠ l → t.lines[k.val] = s.lines[k.val]) ∧
    (∀ k : LineId, k ≠ l → t.cu.lines[k.val] = s.cu.lines[k.val]) from H _ rfl
  intro t ht
  simp only [State.transferLine] at ht
  (repeat' split at ht) <;> subst ht <;> simp +contextual [State.ls, State.sru, State.gzu, State.copies, State.page, State.ring, State.staging, State.window, State.liveDelivery, State.liveLine, State.liveCal, State.markLine, State.markPart, modLs_lines_other, modSru_lines_other, modGzu_lines_other, modCopies_lines_other]

@[simp] theorem transferCal_parts (s : State) (l : LineId) :
    (s.transferCal l).cu.state = s.cu.state ∧
    (s.transferCal l).cu.liveWindows = s.cu.liveWindows ∧
    (s.transferCal l).cu.liveDelivery = s.cu.liveDelivery ∧
    (s.transferCal l).cu.frozen = s.cu.frozen ∧
    (s.transferCal l).cu.load = s.cu.load ∧
    (∀ k : LineId, (s.transferCal l).cu.lines[k.val].liveLine = s.cu.lines[k.val].liveLine) ∧
    (∀ k : LineId, (s.transferCal l).cu.lines[k.val].pendingLine = s.cu.lines[k.val].pendingLine) ∧
    (s.transferCal l).nu.ms = s.nu.ms ∧
    (s.transferCal l).nu.outstanding = s.nu.outstanding ∧
    (s.transferCal l).nu.sequence = s.nu.sequence ∧
    (s.transferCal l).de.staging = s.de.staging ∧
    (s.transferCal l).de.rings = s.de.rings ∧
    (s.transferCal l).de.fresh = s.de.fresh ∧
    (s.transferCal l).de.arming = s.de.arming ∧
    (s.transferCal l).de.flight = s.de.flight ∧
    (s.transferCal l).de.lastPage = s.de.lastPage ∧
    (∀ k : PageId, (s.transferCal l).de.pages[k.val].faulted = s.de.pages[k.val].faulted) ∧
    (∀ k : LineId, k ≠ l → (s.transferCal l).cu.lines[k.val] = s.cu.lines[k.val]) := by
  suffices H : ∀ t : State, t = (s.transferCal l) →
    t.cu.state = s.cu.state ∧
    t.cu.liveWindows = s.cu.liveWindows ∧
    t.cu.liveDelivery = s.cu.liveDelivery ∧
    t.cu.frozen = s.cu.frozen ∧
    t.cu.load = s.cu.load ∧
    (∀ k : LineId, t.cu.lines[k.val].liveLine = s.cu.lines[k.val].liveLine) ∧
    (∀ k : LineId, t.cu.lines[k.val].pendingLine = s.cu.lines[k.val].pendingLine) ∧
    t.nu.ms = s.nu.ms ∧
    t.nu.outstanding = s.nu.outstanding ∧
    t.nu.sequence = s.nu.sequence ∧
    t.de.staging = s.de.staging ∧
    t.de.rings = s.de.rings ∧
    t.de.fresh = s.de.fresh ∧
    t.de.arming = s.de.arming ∧
    t.de.flight = s.de.flight ∧
    t.de.lastPage = s.de.lastPage ∧
    (∀ k : PageId, t.de.pages[k.val].faulted = s.de.pages[k.val].faulted) ∧
    (∀ k : LineId, k ≠ l → t.cu.lines[k.val] = s.cu.lines[k.val]) from H _ rfl
  intro t ht
  simp only [State.transferCal] at ht
  (repeat' split at ht) <;> subst ht <;> simp +contextual [State.ls, State.sru, State.gzu, State.copies, State.page, State.ring, State.staging, State.window, State.liveDelivery, State.liveLine, State.liveCal, State.markLine, State.markPart, modLs_lines_other, modSru_lines_other, modGzu_lines_other, modCopies_lines_other]

@[simp] theorem transfer_parts (s : State) (l : LineId) :
    (s.transfer l).cu.state = s.cu.state ∧
    (s.transfer l).cu.liveWindows = s.cu.liveWindows ∧
    (s.transfer l).cu.liveDelivery = s.cu.liveDelivery ∧
    (s.transfer l).cu.frozen = s.cu.frozen ∧
    (s.transfer l).cu.load = s.cu.load ∧
    (∀ k : LineId, (s.transfer l).lines[k.val].sru = s.lines[k.val].sru) ∧
    (s.transfer l).nu.ms = s.nu.ms ∧
    (s.transfer l).nu.outstanding = s.nu.outstanding ∧
    (s.transfer l).nu.sequence = s.nu.sequence ∧
    (s.transfer l).de.staging = s.de.staging ∧
    (s.transfer l).de.rings = s.de.rings ∧
    (s.transfer l).de.fresh = s.de.fresh ∧
    (s.transfer l).de.arming = s.de.arming ∧
    (s.transfer l).de.flight = s.de.flight ∧
    (s.transfer l).de.lastPage = s.de.lastPage ∧
    (∀ k : PageId, (s.transfer l).de.pages[k.val].faulted = s.de.pages[k.val].faulted) ∧
    (∀ k : LineId, k ≠ l → (s.transfer l).lines[k.val] = s.lines[k.val]) ∧
    (∀ k : LineId, k ≠ l → (s.transfer l).cu.lines[k.val] = s.cu.lines[k.val]) := by
  suffices H : ∀ t : State, t = (s.transfer l) →
    t.cu.state = s.cu.state ∧
    t.cu.liveWindows = s.cu.liveWindows ∧
    t.cu.liveDelivery = s.cu.liveDelivery ∧
    t.cu.frozen = s.cu.frozen ∧
    t.cu.load = s.cu.load ∧
    (∀ k : LineId, t.lines[k.val].sru = s.lines[k.val].sru) ∧
    t.nu.ms = s.nu.ms ∧
    t.nu.outstanding = s.nu.outstanding ∧
    t.nu.sequence = s.nu.sequence ∧
    t.de.staging = s.de.staging ∧
    t.de.rings = s.de.rings ∧
    t.de.fresh = s.de.fresh ∧
    t.de.arming = s.de.arming ∧
    t.de.flight = s.de.flight ∧
    t.de.lastPage = s.de.lastPage ∧
    (∀ k : PageId, t.de.pages[k.val].faulted = s.de.pages[k.val].faulted) ∧
    (∀ k : LineId, k ≠ l → t.lines[k.val] = s.lines[k.val]) ∧
    (∀ k : LineId, k ≠ l → t.cu.lines[k.val] = s.cu.lines[k.val]) from H _ rfl
  intro t ht
  simp only [State.transfer] at ht
  subst ht
  simp +contextual [State.ls, State.sru, State.gzu, State.copies, State.page, State.ring, State.staging, State.window, State.liveDelivery, State.liveLine, State.liveCal, State.markLine, State.markPart, modLs_lines_other, modSru_lines_other, modGzu_lines_other, modCopies_lines_other]

@[simp] theorem countAttempt_parts (s : State) (l : LineId) :
    (∀ k : LineId, (s.countAttempt l).lines[k.val].sru = s.lines[k.val].sru) ∧
    (∀ k : LineId, (s.countAttempt l).lines[k.val].gzu = s.lines[k.val].gzu) ∧
    (s.countAttempt l).nu.ms = s.nu.ms ∧
    (s.countAttempt l).nu.outstanding = s.nu.outstanding ∧
    (s.countAttempt l).nu.sequence = s.nu.sequence ∧
    (∀ k : LineId, k ≠ l → (s.countAttempt l).lines[k.val] = s.lines[k.val]) := by
  suffices H : ∀ t : State, t = (s.countAttempt l) →
    (∀ k : LineId, t.lines[k.val].sru = s.lines[k.val].sru) ∧
    (∀ k : LineId, t.lines[k.val].gzu = s.lines[k.val].gzu) ∧
    t.nu.ms = s.nu.ms ∧
    t.nu.outstanding = s.nu.outstanding ∧
    t.nu.sequence = s.nu.sequence ∧
    (∀ k : LineId, k ≠ l → t.lines[k.val] = s.lines[k.val]) from H _ rfl
  intro t ht
  simp only [State.countAttempt] at ht
  (repeat' split at ht) <;> subst ht <;> simp +contextual [State.ls, State.sru, State.gzu, State.copies, State.page, State.ring, State.staging, State.window, State.liveDelivery, State.liveLine, State.liveCal, State.markLine, State.markPart, modLs_lines_other, modSru_lines_other, modGzu_lines_other, modCopies_lines_other]

@[simp] theorem shutdownEntry_parts (s : State) (l : LineId) (c : Cause) :
    (s.shutdownEntry l c).cu.state = s.cu.state ∧
    (s.shutdownEntry l c).cu.liveWindows = s.cu.liveWindows ∧
    (s.shutdownEntry l c).cu.liveDelivery = s.cu.liveDelivery ∧
    (s.shutdownEntry l c).cu.frozen = s.cu.frozen ∧
    (s.shutdownEntry l c).cu.load = s.cu.load ∧
    (s.shutdownEntry l c).nu.ms = s.nu.ms ∧
    (s.shutdownEntry l c).nu.outstanding = s.nu.outstanding ∧
    (s.shutdownEntry l c).nu.sequence = s.nu.sequence ∧
    (s.shutdownEntry l c).de.staging = s.de.staging ∧
    (s.shutdownEntry l c).de.rings = s.de.rings ∧
    (s.shutdownEntry l c).de.fresh = s.de.fresh ∧
    (s.shutdownEntry l c).de.arming = s.de.arming ∧
    (s.shutdownEntry l c).de.flight = s.de.flight ∧
    (s.shutdownEntry l c).de.lastPage = s.de.lastPage ∧
    (∀ k : PageId, (s.shutdownEntry l c).de.pages[k.val].faulted = s.de.pages[k.val].faulted) ∧
    (∀ k : LineId, k ≠ l → (s.shutdownEntry l c).lines[k.val] = s.lines[k.val]) ∧
    (∀ k : LineId, k ≠ l → (s.shutdownEntry l c).cu.lines[k.val] = s.cu.lines[k.val]) := by
  suffices H : ∀ t : State, t = (s.shutdownEntry l c) →
    t.cu.state = s.cu.state ∧
    t.cu.liveWindows = s.cu.liveWindows ∧
    t.cu.liveDelivery = s.cu.liveDelivery ∧
    t.cu.frozen = s.cu.frozen ∧
    t.cu.load = s.cu.load ∧
    t.nu.ms = s.nu.ms ∧
    t.nu.outstanding = s.nu.outstanding ∧
    t.nu.sequence = s.nu.sequence ∧
    t.de.staging = s.de.staging ∧
    t.de.rings = s.de.rings ∧
    t.de.fresh = s.de.fresh ∧
    t.de.arming = s.de.arming ∧
    t.de.flight = s.de.flight ∧
    t.de.lastPage = s.de.lastPage ∧
    (∀ k : PageId, t.de.pages[k.val].faulted = s.de.pages[k.val].faulted) ∧
    (∀ k : LineId, k ≠ l → t.lines[k.val] = s.lines[k.val]) ∧
    (∀ k : LineId, k ≠ l → t.cu.lines[k.val] = s.cu.lines[k.val]) from H _ rfl
  intro t ht
  simp only [State.shutdownEntry] at ht
  subst ht
  simp +contextual [State.ls, State.sru, State.gzu, State.copies, State.page, State.ring, State.staging, State.window, State.liveDelivery, State.liveLine, State.liveCal, State.markLine, State.markPart, modLs_lines_other, modSru_lines_other, modGzu_lines_other, modCopies_lines_other]

@[simp] theorem actSources_parts (s : State) (l : LineId) :
    (s.actSources l).cu.state = s.cu.state ∧
    (s.actSources l).cu.liveWindows = s.cu.liveWindows ∧
    (s.actSources l).cu.liveDelivery = s.cu.liveDelivery ∧
    (s.actSources l).cu.frozen = s.cu.frozen ∧
    (s.actSources l).cu.load = s.cu.load ∧
    (s.actSources l).nu.ms = s.nu.ms ∧
    (s.actSources l).nu.outstanding = s.nu.outstanding ∧
    (s.actSources l).nu.sequence = s.nu.sequence ∧
    (s.actSources l).de.staging = s.de.staging ∧
    (s.actSources l).de.rings = s.de.rings ∧
    (s.actSources l).de.fresh = s.de.fresh ∧
    (s.actSources l).de.arming = s.de.arming ∧
    (s.actSources l).de.flight = s.de.flight ∧
    (s.actSources l).de.lastPage = s.de.lastPage ∧
    (∀ k : PageId, (s.actSources l).de.pages[k.val].faulted = s.de.pages[k.val].faulted) ∧
    (∀ k : LineId, k ≠ l → (s.actSources l).lines[k.val] = s.lines[k.val]) ∧
    (∀ k : LineId, k ≠ l → (s.actSources l).cu.lines[k.val] = s.cu.lines[k.val]) := by
  suffices H : ∀ t : State, t = (s.actSources l) →
    t.cu.state = s.cu.state ∧
    t.cu.liveWindows = s.cu.liveWindows ∧
    t.cu.liveDelivery = s.cu.liveDelivery ∧
    t.cu.frozen = s.cu.frozen ∧
    t.cu.load = s.cu.load ∧
    t.nu.ms = s.nu.ms ∧
    t.nu.outstanding = s.nu.outstanding ∧
    t.nu.sequence = s.nu.sequence ∧
    t.de.staging = s.de.staging ∧
    t.de.rings = s.de.rings ∧
    t.de.fresh = s.de.fresh ∧
    t.de.arming = s.de.arming ∧
    t.de.flight = s.de.flight ∧
    t.de.lastPage = s.de.lastPage ∧
    (∀ k : PageId, t.de.pages[k.val].faulted = s.de.pages[k.val].faulted) ∧
    (∀ k : LineId, k ≠ l → t.lines[k.val] = s.lines[k.val]) ∧
    (∀ k : LineId, k ≠ l → t.cu.lines[k.val] = s.cu.lines[k.val]) from H _ rfl
  intro t ht
  simp only [State.actSources] at ht
  (repeat' split at ht) <;> subst ht <;> simp +contextual [State.ls, State.sru, State.gzu, State.copies, State.page, State.ring, State.staging, State.window, State.liveDelivery, State.liveLine, State.liveCal, State.markLine, State.markPart, modLs_lines_other, modSru_lines_other, modGzu_lines_other, modCopies_lines_other]

@[simp] theorem cycleStart_parts (s : State) (l : LineId) :
    (s.cycleStart l).cu.state = s.cu.state ∧
    (s.cycleStart l).cu.liveWindows = s.cu.liveWindows ∧
    (s.cycleStart l).cu.liveDelivery = s.cu.liveDelivery ∧
    (s.cycleStart l).cu.frozen = s.cu.frozen ∧
    (s.cycleStart l).cu.load = s.cu.load ∧
    (s.cycleStart l).nu.ms = s.nu.ms ∧
    (s.cycleStart l).nu.outstanding = s.nu.outstanding ∧
    (s.cycleStart l).nu.sequence = s.nu.sequence ∧
    (s.cycleStart l).de.staging = s.de.staging ∧
    (s.cycleStart l).de.rings = s.de.rings ∧
    (s.cycleStart l).de.fresh = s.de.fresh ∧
    (s.cycleStart l).de.arming = s.de.arming ∧
    (s.cycleStart l).de.flight = s.de.flight ∧
    (s.cycleStart l).de.lastPage = s.de.lastPage ∧
    (∀ k : PageId, (s.cycleStart l).de.pages[k.val].faulted = s.de.pages[k.val].faulted) ∧
    (∀ k : LineId, k ≠ l → (s.cycleStart l).lines[k.val] = s.lines[k.val]) ∧
    (∀ k : LineId, k ≠ l → (s.cycleStart l).cu.lines[k.val] = s.cu.lines[k.val]) := by
  suffices H : ∀ t : State, t = (s.cycleStart l) →
    t.cu.state = s.cu.state ∧
    t.cu.liveWindows = s.cu.liveWindows ∧
    t.cu.liveDelivery = s.cu.liveDelivery ∧
    t.cu.frozen = s.cu.frozen ∧
    t.cu.load = s.cu.load ∧
    t.nu.ms = s.nu.ms ∧
    t.nu.outstanding = s.nu.outstanding ∧
    t.nu.sequence = s.nu.sequence ∧
    t.de.staging = s.de.staging ∧
    t.de.rings = s.de.rings ∧
    t.de.fresh = s.de.fresh ∧
    t.de.arming = s.de.arming ∧
    t.de.flight = s.de.flight ∧
    t.de.lastPage = s.de.lastPage ∧
    (∀ k : PageId, t.de.pages[k.val].faulted = s.de.pages[k.val].faulted) ∧
    (∀ k : LineId, k ≠ l → t.lines[k.val] = s.lines[k.val]) ∧
    (∀ k : LineId, k ≠ l → t.cu.lines[k.val] = s.cu.lines[k.val]) from H _ rfl
  intro t ht
  simp only [State.cycleStart] at ht
  subst ht
  simp +contextual [State.ls, State.sru, State.gzu, State.copies, State.page, State.ring, State.staging, State.window, State.liveDelivery, State.liveLine, State.liveCal, State.markLine, State.markPart, modLs_lines_other, modSru_lines_other, modGzu_lines_other, modCopies_lines_other]

@[simp] theorem enterPriming_parts (s : State) (l : LineId) :
    (s.enterPriming l).cu.state = s.cu.state ∧
    (s.enterPriming l).cu.liveWindows = s.cu.liveWindows ∧
    (s.enterPriming l).cu.liveDelivery = s.cu.liveDelivery ∧
    (s.enterPriming l).cu.frozen = s.cu.frozen ∧
    (s.enterPriming l).cu.load = s.cu.load ∧
    (s.enterPriming l).nu.ms = s.nu.ms ∧
    (s.enterPriming l).nu.outstanding = s.nu.outstanding ∧
    (s.enterPriming l).nu.sequence = s.nu.sequence ∧
    (s.enterPriming l).de.staging = s.de.staging ∧
    (s.enterPriming l).de.rings = s.de.rings ∧
    (s.enterPriming l).de.fresh = s.de.fresh ∧
    (s.enterPriming l).de.arming = s.de.arming ∧
    (s.enterPriming l).de.flight = s.de.flight ∧
    (s.enterPriming l).de.lastPage = s.de.lastPage ∧
    (∀ k : PageId, (s.enterPriming l).de.pages[k.val].faulted = s.de.pages[k.val].faulted) ∧
    (∀ k : LineId, k ≠ l → (s.enterPriming l).lines[k.val] = s.lines[k.val]) ∧
    (∀ k : LineId, k ≠ l → (s.enterPriming l).cu.lines[k.val] = s.cu.lines[k.val]) := by
  suffices H : ∀ t : State, t = (s.enterPriming l) →
    t.cu.state = s.cu.state ∧
    t.cu.liveWindows = s.cu.liveWindows ∧
    t.cu.liveDelivery = s.cu.liveDelivery ∧
    t.cu.frozen = s.cu.frozen ∧
    t.cu.load = s.cu.load ∧
    t.nu.ms = s.nu.ms ∧
    t.nu.outstanding = s.nu.outstanding ∧
    t.nu.sequence = s.nu.sequence ∧
    t.de.staging = s.de.staging ∧
    t.de.rings = s.de.rings ∧
    t.de.fresh = s.de.fresh ∧
    t.de.arming = s.de.arming ∧
    t.de.flight = s.de.flight ∧
    t.de.lastPage = s.de.lastPage ∧
    (∀ k : PageId, t.de.pages[k.val].faulted = s.de.pages[k.val].faulted) ∧
    (∀ k : LineId, k ≠ l → t.lines[k.val] = s.lines[k.val]) ∧
    (∀ k : LineId, k ≠ l → t.cu.lines[k.val] = s.cu.lines[k.val]) from H _ rfl
  intro t ht
  simp only [State.enterPriming] at ht
  subst ht
  simp +contextual [State.ls, State.sru, State.gzu, State.copies, State.page, State.ring, State.staging, State.window, State.liveDelivery, State.liveLine, State.liveCal, State.markLine, State.markPart, modLs_lines_other, modSru_lines_other, modGzu_lines_other, modCopies_lines_other]

@[simp] theorem enterOff_parts (s : State) (l : LineId) :
    (s.enterOff l).cu.state = s.cu.state ∧
    (s.enterOff l).cu.liveWindows = s.cu.liveWindows ∧
    (s.enterOff l).cu.liveDelivery = s.cu.liveDelivery ∧
    (s.enterOff l).cu.frozen = s.cu.frozen ∧
    (s.enterOff l).cu.load = s.cu.load ∧
    (s.enterOff l).nu.ms = s.nu.ms ∧
    (s.enterOff l).nu.outstanding = s.nu.outstanding ∧
    (s.enterOff l).nu.sequence = s.nu.sequence ∧
    (s.enterOff l).de.staging = s.de.staging ∧
    (s.enterOff l).de.rings = s.de.rings ∧
    (s.enterOff l).de.fresh = s.de.fresh ∧
    (s.enterOff l).de.arming = s.de.arming ∧
    (s.enterOff l).de.flight = s.de.flight ∧
    (s.enterOff l).de.lastPage = s.de.lastPage ∧
    (∀ k : PageId, (s.enterOff l).de.pages[k.val].faulted = s.de.pages[k.val].faulted) ∧
    (∀ k : LineId, k ≠ l → (s.enterOff l).lines[k.val] = s.lines[k.val]) ∧
    (∀ k : LineId, k ≠ l → (s.enterOff l).cu.lines[k.val] = s.cu.lines[k.val]) := by
  suffices H : ∀ t : State, t = (s.enterOff l) →
    t.cu.state = s.cu.state ∧
    t.cu.liveWindows = s.cu.liveWindows ∧
    t.cu.liveDelivery = s.cu.liveDelivery ∧
    t.cu.frozen = s.cu.frozen ∧
    t.cu.load = s.cu.load ∧
    t.nu.ms = s.nu.ms ∧
    t.nu.outstanding = s.nu.outstanding ∧
    t.nu.sequence = s.nu.sequence ∧
    t.de.staging = s.de.staging ∧
    t.de.rings = s.de.rings ∧
    t.de.fresh = s.de.fresh ∧
    t.de.arming = s.de.arming ∧
    t.de.flight = s.de.flight ∧
    t.de.lastPage = s.de.lastPage ∧
    (∀ k : PageId, t.de.pages[k.val].faulted = s.de.pages[k.val].faulted) ∧
    (∀ k : LineId, k ≠ l → t.lines[k.val] = s.lines[k.val]) ∧
    (∀ k : LineId, k ≠ l → t.cu.lines[k.val] = s.cu.lines[k.val]) from H _ rfl
  intro t ht
  simp only [State.enterOff] at ht
  subst ht
  simp +contextual [State.ls, State.sru, State.gzu, State.copies, State.page, State.ring, State.staging, State.window, State.liveDelivery, State.liveLine, State.liveCal, State.markLine, State.markPart, modLs_lines_other, modSru_lines_other, modGzu_lines_other, modCopies_lines_other]

@[simp] theorem produce_parts (s : State) (l : LineId) :
    (s.produce l).nu.ms = s.nu.ms ∧
    (s.produce l).nu.outstanding = s.nu.outstanding ∧
    (s.produce l).nu.sequence = s.nu.sequence ∧
    (s.produce l).de.rings = s.de.rings ∧
    (s.produce l).de.statusDirty = s.de.statusDirty ∧
    (s.produce l).de.fresh = s.de.fresh ∧
    (s.produce l).de.arming = s.de.arming ∧
    (s.produce l).de.flight = s.de.flight ∧
    (s.produce l).de.lastPage = s.de.lastPage ∧
    (∀ k : LineId, k ≠ l → (s.produce l).lines[k.val] = s.lines[k.val]) := by
  suffices H : ∀ t : State, t = (s.produce l) →
    t.nu.ms = s.nu.ms ∧
    t.nu.outstanding = s.nu.outstanding ∧
    t.nu.sequence = s.nu.sequence ∧
    t.de.rings = s.de.rings ∧
    t.de.statusDirty = s.de.statusDirty ∧
    t.de.fresh = s.de.fresh ∧
    t.de.arming = s.de.arming ∧
    t.de.flight = s.de.flight ∧
    t.de.lastPage = s.de.lastPage ∧
    (∀ k : LineId, k ≠ l → t.lines[k.val] = s.lines[k.val]) from H _ rfl
  intro t ht
  simp only [State.produce] at ht
  (repeat' split at ht) <;> subst ht <;> simp +contextual [State.ls, State.sru, State.gzu, State.copies, State.page, State.ring, State.staging, State.window, State.liveDelivery, State.liveLine, State.liveCal, State.markLine, State.markPart, modLs_lines_other, modSru_lines_other, modGzu_lines_other, modCopies_lines_other]

@[simp] theorem closeCycle_parts (s : State) (l : LineId) :
    (s.closeCycle l).nu.ms = s.nu.ms ∧
    (s.closeCycle l).nu.outstanding = s.nu.outstanding ∧
    (s.closeCycle l).nu.sequence = s.nu.sequence ∧
    (s.closeCycle l).de.rings = s.de.rings ∧
    (s.closeCycle l).de.statusDirty = s.de.statusDirty ∧
    (s.closeCycle l).de.fresh = s.de.fresh ∧
    (s.closeCycle l).de.arming = s.de.arming ∧
    (s.closeCycle l).de.flight = s.de.flight ∧
    (s.closeCycle l).de.lastPage = s.de.lastPage ∧
    (∀ k : LineId, k ≠ l → (s.closeCycle l).lines[k.val] = s.lines[k.val]) := by
  suffices H : ∀ t : State, t = (s.closeCycle l) →
    t.nu.ms = s.nu.ms ∧
    t.nu.outstanding = s.nu.outstanding ∧
    t.nu.sequence = s.nu.sequence ∧
    t.de.rings = s.de.rings ∧
    t.de.statusDirty = s.de.statusDirty ∧
    t.de.fresh = s.de.fresh ∧
    t.de.arming = s.de.arming ∧
    t.de.flight = s.de.flight ∧
    t.de.lastPage = s.de.lastPage ∧
    (∀ k : LineId, k ≠ l → t.lines[k.val] = s.lines[k.val]) from H _ rfl
  intro t ht
  simp only [State.closeCycle] at ht
  (repeat' split at ht) <;> subst ht <;> simp +contextual [State.ls, State.sru, State.gzu, State.copies, State.page, State.ring, State.staging, State.window, State.liveDelivery, State.liveLine, State.liveCal, State.markLine, State.markPart, modLs_lines_other, modSru_lines_other, modGzu_lines_other, modCopies_lines_other]

@[simp] theorem afterCycle_parts (s : State) (l : LineId) :
    (s.afterCycle l).cu.state = s.cu.state ∧
    (s.afterCycle l).cu.liveWindows = s.cu.liveWindows ∧
    (s.afterCycle l).cu.liveDelivery = s.cu.liveDelivery ∧
    (s.afterCycle l).cu.frozen = s.cu.frozen ∧
    (s.afterCycle l).cu.load = s.cu.load ∧
    (s.afterCycle l).nu.ms = s.nu.ms ∧
    (s.afterCycle l).nu.outstanding = s.nu.outstanding ∧
    (s.afterCycle l).nu.sequence = s.nu.sequence ∧
    (s.afterCycle l).de.staging = s.de.staging ∧
    (s.afterCycle l).de.rings = s.de.rings ∧
    (s.afterCycle l).de.fresh = s.de.fresh ∧
    (s.afterCycle l).de.arming = s.de.arming ∧
    (s.afterCycle l).de.flight = s.de.flight ∧
    (s.afterCycle l).de.lastPage = s.de.lastPage ∧
    (∀ k : LineId, k ≠ l → (s.afterCycle l).lines[k.val] = s.lines[k.val]) ∧
    (∀ k : LineId, k ≠ l → (s.afterCycle l).cu.lines[k.val] = s.cu.lines[k.val]) := by
  suffices H : ∀ t : State, t = (s.afterCycle l) →
    t.cu.state = s.cu.state ∧
    t.cu.liveWindows = s.cu.liveWindows ∧
    t.cu.liveDelivery = s.cu.liveDelivery ∧
    t.cu.frozen = s.cu.frozen ∧
    t.cu.load = s.cu.load ∧
    t.nu.ms = s.nu.ms ∧
    t.nu.outstanding = s.nu.outstanding ∧
    t.nu.sequence = s.nu.sequence ∧
    t.de.staging = s.de.staging ∧
    t.de.rings = s.de.rings ∧
    t.de.fresh = s.de.fresh ∧
    t.de.arming = s.de.arming ∧
    t.de.flight = s.de.flight ∧
    t.de.lastPage = s.de.lastPage ∧
    (∀ k : LineId, k ≠ l → t.lines[k.val] = s.lines[k.val]) ∧
    (∀ k : LineId, k ≠ l → t.cu.lines[k.val] = s.cu.lines[k.val]) from H _ rfl
  intro t ht
  simp only [State.afterCycle] at ht
  (repeat' split at ht) <;> subst ht <;> simp +contextual [State.ls, State.sru, State.gzu, State.copies, State.page, State.ring, State.staging, State.window, State.liveDelivery, State.liveLine, State.liveCal, State.markLine, State.markPart, modLs_lines_other, modSru_lines_other, modGzu_lines_other, modCopies_lines_other]

@[simp] theorem endPhase_parts (s : State) (l : LineId) (c : Bool) :
    (s.endPhase l c).cu.state = s.cu.state ∧
    (s.endPhase l c).cu.liveWindows = s.cu.liveWindows ∧
    (s.endPhase l c).cu.liveDelivery = s.cu.liveDelivery ∧
    (s.endPhase l c).cu.frozen = s.cu.frozen ∧
    (s.endPhase l c).cu.load = s.cu.load ∧
    (s.endPhase l c).nu.ms = s.nu.ms ∧
    (s.endPhase l c).nu.outstanding = s.nu.outstanding ∧
    (s.endPhase l c).nu.sequence = s.nu.sequence ∧
    (s.endPhase l c).de.rings = s.de.rings ∧
    (s.endPhase l c).de.fresh = s.de.fresh ∧
    (s.endPhase l c).de.arming = s.de.arming ∧
    (s.endPhase l c).de.flight = s.de.flight ∧
    (s.endPhase l c).de.lastPage = s.de.lastPage ∧
    (∀ k : LineId, k ≠ l → (s.endPhase l c).lines[k.val] = s.lines[k.val]) ∧
    (∀ k : LineId, k ≠ l → (s.endPhase l c).cu.lines[k.val] = s.cu.lines[k.val]) := by
  suffices H : ∀ t : State, t = (s.endPhase l c) →
    t.cu.state = s.cu.state ∧
    t.cu.liveWindows = s.cu.liveWindows ∧
    t.cu.liveDelivery = s.cu.liveDelivery ∧
    t.cu.frozen = s.cu.frozen ∧
    t.cu.load = s.cu.load ∧
    t.nu.ms = s.nu.ms ∧
    t.nu.outstanding = s.nu.outstanding ∧
    t.nu.sequence = s.nu.sequence ∧
    t.de.rings = s.de.rings ∧
    t.de.fresh = s.de.fresh ∧
    t.de.arming = s.de.arming ∧
    t.de.flight = s.de.flight ∧
    t.de.lastPage = s.de.lastPage ∧
    (∀ k : LineId, k ≠ l → t.lines[k.val] = s.lines[k.val]) ∧
    (∀ k : LineId, k ≠ l → t.cu.lines[k.val] = s.cu.lines[k.val]) from H _ rfl
  intro t ht
  simp only [State.endPhase] at ht
  (repeat' split at ht) <;> subst ht <;> simp +contextual [State.ls, State.sru, State.gzu, State.copies, State.page, State.ring, State.staging, State.window, State.liveDelivery, State.liveLine, State.liveCal, State.markLine, State.markPart, modLs_lines_other, modSru_lines_other, modGzu_lines_other, modCopies_lines_other]

@[simp] theorem endHold_parts (s : State) (l : LineId) :
    (∀ k : LineId, (s.endHold l).lines[k.val].sru = s.lines[k.val].sru) ∧
    (∀ k : LineId, (s.endHold l).lines[k.val].gzu = s.lines[k.val].gzu) ∧
    (∀ k : LineId, k ≠ l → (s.endHold l).lines[k.val] = s.lines[k.val]) := by
  suffices H : ∀ t : State, t = (s.endHold l) →
    (∀ k : LineId, t.lines[k.val].sru = s.lines[k.val].sru) ∧
    (∀ k : LineId, t.lines[k.val].gzu = s.lines[k.val].gzu) ∧
    (∀ k : LineId, k ≠ l → t.lines[k.val] = s.lines[k.val]) from H _ rfl
  intro t ht
  simp only [State.endHold] at ht
  (repeat' split at ht) <;> subst ht <;> simp +contextual [State.ls, State.sru, State.gzu, State.copies, State.page, State.ring, State.staging, State.window, State.liveDelivery, State.liveLine, State.liveCal, State.markLine, State.markPart, modLs_lines_other, modSru_lines_other, modGzu_lines_other, modCopies_lines_other]

@[simp] theorem autoRestart_parts (s : State) (l : LineId) :
    (s.autoRestart l).cu.state = s.cu.state ∧
    (s.autoRestart l).cu.liveWindows = s.cu.liveWindows ∧
    (s.autoRestart l).cu.liveDelivery = s.cu.liveDelivery ∧
    (s.autoRestart l).cu.frozen = s.cu.frozen ∧
    (s.autoRestart l).cu.load = s.cu.load ∧
    (s.autoRestart l).nu.ms = s.nu.ms ∧
    (s.autoRestart l).nu.outstanding = s.nu.outstanding ∧
    (s.autoRestart l).nu.sequence = s.nu.sequence ∧
    (s.autoRestart l).de.staging = s.de.staging ∧
    (s.autoRestart l).de.rings = s.de.rings ∧
    (s.autoRestart l).de.fresh = s.de.fresh ∧
    (s.autoRestart l).de.arming = s.de.arming ∧
    (s.autoRestart l).de.flight = s.de.flight ∧
    (s.autoRestart l).de.lastPage = s.de.lastPage ∧
    (∀ k : PageId, (s.autoRestart l).de.pages[k.val].faulted = s.de.pages[k.val].faulted) ∧
    (∀ k : LineId, k ≠ l → (s.autoRestart l).lines[k.val] = s.lines[k.val]) ∧
    (∀ k : LineId, k ≠ l → (s.autoRestart l).cu.lines[k.val] = s.cu.lines[k.val]) := by
  suffices H : ∀ t : State, t = (s.autoRestart l) →
    t.cu.state = s.cu.state ∧
    t.cu.liveWindows = s.cu.liveWindows ∧
    t.cu.liveDelivery = s.cu.liveDelivery ∧
    t.cu.frozen = s.cu.frozen ∧
    t.cu.load = s.cu.load ∧
    t.nu.ms = s.nu.ms ∧
    t.nu.outstanding = s.nu.outstanding ∧
    t.nu.sequence = s.nu.sequence ∧
    t.de.staging = s.de.staging ∧
    t.de.rings = s.de.rings ∧
    t.de.fresh = s.de.fresh ∧
    t.de.arming = s.de.arming ∧
    t.de.flight = s.de.flight ∧
    t.de.lastPage = s.de.lastPage ∧
    (∀ k : PageId, t.de.pages[k.val].faulted = s.de.pages[k.val].faulted) ∧
    (∀ k : LineId, k ≠ l → t.lines[k.val] = s.lines[k.val]) ∧
    (∀ k : LineId, k ≠ l → t.cu.lines[k.val] = s.cu.lines[k.val]) from H _ rfl
  intro t ht
  simp only [State.autoRestart] at ht
  (repeat' split at ht) <;> subst ht <;> simp +contextual [State.ls, State.sru, State.gzu, State.copies, State.page, State.ring, State.staging, State.window, State.liveDelivery, State.liveLine, State.liveCal, State.markLine, State.markPart, modLs_lines_other, modSru_lines_other, modGzu_lines_other, modCopies_lines_other]

@[simp] theorem coilHiChanged_parts (s : State) (l : LineId) :
    (s.coilHiChanged l).cu.state = s.cu.state ∧
    (s.coilHiChanged l).cu.liveWindows = s.cu.liveWindows ∧
    (s.coilHiChanged l).cu.liveDelivery = s.cu.liveDelivery ∧
    (s.coilHiChanged l).cu.frozen = s.cu.frozen ∧
    (s.coilHiChanged l).cu.load = s.cu.load ∧
    (s.coilHiChanged l).nu.ms = s.nu.ms ∧
    (s.coilHiChanged l).nu.outstanding = s.nu.outstanding ∧
    (s.coilHiChanged l).nu.sequence = s.nu.sequence ∧
    (s.coilHiChanged l).de.staging = s.de.staging ∧
    (s.coilHiChanged l).de.rings = s.de.rings ∧
    (s.coilHiChanged l).de.fresh = s.de.fresh ∧
    (s.coilHiChanged l).de.arming = s.de.arming ∧
    (s.coilHiChanged l).de.flight = s.de.flight ∧
    (s.coilHiChanged l).de.lastPage = s.de.lastPage ∧
    (∀ k : PageId, (s.coilHiChanged l).de.pages[k.val].faulted = s.de.pages[k.val].faulted) ∧
    (∀ k : LineId, k ≠ l → (s.coilHiChanged l).lines[k.val] = s.lines[k.val]) ∧
    (∀ k : LineId, k ≠ l → (s.coilHiChanged l).cu.lines[k.val] = s.cu.lines[k.val]) := by
  suffices H : ∀ t : State, t = (s.coilHiChanged l) →
    t.cu.state = s.cu.state ∧
    t.cu.liveWindows = s.cu.liveWindows ∧
    t.cu.liveDelivery = s.cu.liveDelivery ∧
    t.cu.frozen = s.cu.frozen ∧
    t.cu.load = s.cu.load ∧
    t.nu.ms = s.nu.ms ∧
    t.nu.outstanding = s.nu.outstanding ∧
    t.nu.sequence = s.nu.sequence ∧
    t.de.staging = s.de.staging ∧
    t.de.rings = s.de.rings ∧
    t.de.fresh = s.de.fresh ∧
    t.de.arming = s.de.arming ∧
    t.de.flight = s.de.flight ∧
    t.de.lastPage = s.de.lastPage ∧
    (∀ k : PageId, t.de.pages[k.val].faulted = s.de.pages[k.val].faulted) ∧
    (∀ k : LineId, k ≠ l → t.lines[k.val] = s.lines[k.val]) ∧
    (∀ k : LineId, k ≠ l → t.cu.lines[k.val] = s.cu.lines[k.val]) from H _ rfl
  intro t ht
  simp only [State.coilHiChanged] at ht
  (repeat' split at ht) <;> subst ht <;> simp +contextual [State.ls, State.sru, State.gzu, State.copies, State.page, State.ring, State.staging, State.window, State.liveDelivery, State.liveLine, State.liveCal, State.markLine, State.markPart, modLs_lines_other, modSru_lines_other, modGzu_lines_other, modCopies_lines_other]

@[simp] theorem setCoilHi_parts (s : State) (l : LineId) (v : Bool) :
    (s.setCoilHi l v).cu.state = s.cu.state ∧
    (s.setCoilHi l v).cu.liveWindows = s.cu.liveWindows ∧
    (s.setCoilHi l v).cu.liveDelivery = s.cu.liveDelivery ∧
    (s.setCoilHi l v).cu.frozen = s.cu.frozen ∧
    (s.setCoilHi l v).cu.load = s.cu.load ∧
    (s.setCoilHi l v).nu.ms = s.nu.ms ∧
    (s.setCoilHi l v).nu.outstanding = s.nu.outstanding ∧
    (s.setCoilHi l v).nu.sequence = s.nu.sequence ∧
    (s.setCoilHi l v).de.staging = s.de.staging ∧
    (s.setCoilHi l v).de.rings = s.de.rings ∧
    (s.setCoilHi l v).de.fresh = s.de.fresh ∧
    (s.setCoilHi l v).de.arming = s.de.arming ∧
    (s.setCoilHi l v).de.flight = s.de.flight ∧
    (s.setCoilHi l v).de.lastPage = s.de.lastPage ∧
    (∀ k : PageId, (s.setCoilHi l v).de.pages[k.val].faulted = s.de.pages[k.val].faulted) ∧
    (s.setCoilHi l v).pins.por = s.pins.por ∧
    (s.setCoilHi l v).pins.brst = s.pins.brst ∧
    (s.setCoilHi l v).pins.coilLo = s.pins.coilLo ∧
    (s.setCoilHi l v).pins.trip = s.pins.trip ∧
    (∀ k : LineId, k ≠ l → (s.setCoilHi l v).lines[k.val] = s.lines[k.val]) ∧
    (∀ k : LineId, k ≠ l → (s.setCoilHi l v).cu.lines[k.val] = s.cu.lines[k.val]) := by
  suffices H : ∀ t : State, t = (s.setCoilHi l v) →
    t.cu.state = s.cu.state ∧
    t.cu.liveWindows = s.cu.liveWindows ∧
    t.cu.liveDelivery = s.cu.liveDelivery ∧
    t.cu.frozen = s.cu.frozen ∧
    t.cu.load = s.cu.load ∧
    t.nu.ms = s.nu.ms ∧
    t.nu.outstanding = s.nu.outstanding ∧
    t.nu.sequence = s.nu.sequence ∧
    t.de.staging = s.de.staging ∧
    t.de.rings = s.de.rings ∧
    t.de.fresh = s.de.fresh ∧
    t.de.arming = s.de.arming ∧
    t.de.flight = s.de.flight ∧
    t.de.lastPage = s.de.lastPage ∧
    (∀ k : PageId, t.de.pages[k.val].faulted = s.de.pages[k.val].faulted) ∧
    t.pins.por = s.pins.por ∧
    t.pins.brst = s.pins.brst ∧
    t.pins.coilLo = s.pins.coilLo ∧
    t.pins.trip = s.pins.trip ∧
    (∀ k : LineId, k ≠ l → t.lines[k.val] = s.lines[k.val]) ∧
    (∀ k : LineId, k ≠ l → t.cu.lines[k.val] = s.cu.lines[k.val]) from H _ rfl
  intro t ht
  simp only [State.setCoilHi] at ht
  (repeat' split at ht) <;> subst ht <;> simp +contextual [State.ls, State.sru, State.gzu, State.copies, State.page, State.ring, State.staging, State.window, State.liveDelivery, State.liveLine, State.liveCal, State.markLine, State.markPart, modLs_lines_other, modSru_lines_other, modGzu_lines_other, modCopies_lines_other]

@[simp] theorem tripChanged_parts (s : State) (l : LineId) :
    (s.tripChanged l).cu.state = s.cu.state ∧
    (s.tripChanged l).cu.liveWindows = s.cu.liveWindows ∧
    (s.tripChanged l).cu.liveDelivery = s.cu.liveDelivery ∧
    (s.tripChanged l).cu.frozen = s.cu.frozen ∧
    (s.tripChanged l).cu.load = s.cu.load ∧
    (s.tripChanged l).nu.ms = s.nu.ms ∧
    (s.tripChanged l).nu.outstanding = s.nu.outstanding ∧
    (s.tripChanged l).nu.sequence = s.nu.sequence ∧
    (s.tripChanged l).de.staging = s.de.staging ∧
    (s.tripChanged l).de.rings = s.de.rings ∧
    (s.tripChanged l).de.fresh = s.de.fresh ∧
    (s.tripChanged l).de.arming = s.de.arming ∧
    (s.tripChanged l).de.flight = s.de.flight ∧
    (s.tripChanged l).de.lastPage = s.de.lastPage ∧
    (∀ k : PageId, (s.tripChanged l).de.pages[k.val].faulted = s.de.pages[k.val].faulted) ∧
    (∀ k : LineId, k ≠ l → (s.tripChanged l).lines[k.val] = s.lines[k.val]) ∧
    (∀ k : LineId, k ≠ l → (s.tripChanged l).cu.lines[k.val] = s.cu.lines[k.val]) := by
  suffices H : ∀ t : State, t = (s.tripChanged l) →
    t.cu.state = s.cu.state ∧
    t.cu.liveWindows = s.cu.liveWindows ∧
    t.cu.liveDelivery = s.cu.liveDelivery ∧
    t.cu.frozen = s.cu.frozen ∧
    t.cu.load = s.cu.load ∧
    t.nu.ms = s.nu.ms ∧
    t.nu.outstanding = s.nu.outstanding ∧
    t.nu.sequence = s.nu.sequence ∧
    t.de.staging = s.de.staging ∧
    t.de.rings = s.de.rings ∧
    t.de.fresh = s.de.fresh ∧
    t.de.arming = s.de.arming ∧
    t.de.flight = s.de.flight ∧
    t.de.lastPage = s.de.lastPage ∧
    (∀ k : PageId, t.de.pages[k.val].faulted = s.de.pages[k.val].faulted) ∧
    (∀ k : LineId, k ≠ l → t.lines[k.val] = s.lines[k.val]) ∧
    (∀ k : LineId, k ≠ l → t.cu.lines[k.val] = s.cu.lines[k.val]) from H _ rfl
  intro t ht
  simp only [State.tripChanged] at ht
  (repeat' split at ht) <;> subst ht <;> simp +contextual [State.ls, State.sru, State.gzu, State.copies, State.page, State.ring, State.staging, State.window, State.liveDelivery, State.liveLine, State.liveCal, State.markLine, State.markPart, modLs_lines_other, modSru_lines_other, modGzu_lines_other, modCopies_lines_other]

@[simp] theorem setTripLevel_parts (s : State) (l : LineId) (v : Bool) :
    (s.setTripLevel l v).cu.state = s.cu.state ∧
    (s.setTripLevel l v).cu.liveWindows = s.cu.liveWindows ∧
    (s.setTripLevel l v).cu.liveDelivery = s.cu.liveDelivery ∧
    (s.setTripLevel l v).cu.frozen = s.cu.frozen ∧
    (s.setTripLevel l v).cu.load = s.cu.load ∧
    (s.setTripLevel l v).nu.ms = s.nu.ms ∧
    (s.setTripLevel l v).nu.outstanding = s.nu.outstanding ∧
    (s.setTripLevel l v).nu.sequence = s.nu.sequence ∧
    (s.setTripLevel l v).de.staging = s.de.staging ∧
    (s.setTripLevel l v).de.rings = s.de.rings ∧
    (s.setTripLevel l v).de.fresh = s.de.fresh ∧
    (s.setTripLevel l v).de.arming = s.de.arming ∧
    (s.setTripLevel l v).de.flight = s.de.flight ∧
    (s.setTripLevel l v).de.lastPage = s.de.lastPage ∧
    (∀ k : PageId, (s.setTripLevel l v).de.pages[k.val].faulted = s.de.pages[k.val].faulted) ∧
    (∀ k : LineId, k ≠ l → (s.setTripLevel l v).lines[k.val] = s.lines[k.val]) ∧
    (∀ k : LineId, k ≠ l → (s.setTripLevel l v).cu.lines[k.val] = s.cu.lines[k.val]) := by
  suffices H : ∀ t : State, t = (s.setTripLevel l v) →
    t.cu.state = s.cu.state ∧
    t.cu.liveWindows = s.cu.liveWindows ∧
    t.cu.liveDelivery = s.cu.liveDelivery ∧
    t.cu.frozen = s.cu.frozen ∧
    t.cu.load = s.cu.load ∧
    t.nu.ms = s.nu.ms ∧
    t.nu.outstanding = s.nu.outstanding ∧
    t.nu.sequence = s.nu.sequence ∧
    t.de.staging = s.de.staging ∧
    t.de.rings = s.de.rings ∧
    t.de.fresh = s.de.fresh ∧
    t.de.arming = s.de.arming ∧
    t.de.flight = s.de.flight ∧
    t.de.lastPage = s.de.lastPage ∧
    (∀ k : PageId, t.de.pages[k.val].faulted = s.de.pages[k.val].faulted) ∧
    (∀ k : LineId, k ≠ l → t.lines[k.val] = s.lines[k.val]) ∧
    (∀ k : LineId, k ≠ l → t.cu.lines[k.val] = s.cu.lines[k.val]) from H _ rfl
  intro t ht
  simp only [State.setTripLevel] at ht
  subst ht
  simp +contextual [State.ls, State.sru, State.gzu, State.copies, State.page, State.ring, State.staging, State.window, State.liveDelivery, State.liveLine, State.liveCal, State.markLine, State.markPart, modLs_lines_other, modSru_lines_other, modGzu_lines_other, modCopies_lines_other]

@[simp] theorem completeDebounce_parts (s : State) (l : LineId) :
    (s.completeDebounce l).cu.state = s.cu.state ∧
    (s.completeDebounce l).cu.liveWindows = s.cu.liveWindows ∧
    (s.completeDebounce l).cu.liveDelivery = s.cu.liveDelivery ∧
    (s.completeDebounce l).cu.frozen = s.cu.frozen ∧
    (s.completeDebounce l).cu.load = s.cu.load ∧
    (s.completeDebounce l).nu.ms = s.nu.ms ∧
    (s.completeDebounce l).nu.outstanding = s.nu.outstanding ∧
    (s.completeDebounce l).nu.sequence = s.nu.sequence ∧
    (s.completeDebounce l).de.staging = s.de.staging ∧
    (s.completeDebounce l).de.rings = s.de.rings ∧
    (s.completeDebounce l).de.fresh = s.de.fresh ∧
    (s.completeDebounce l).de.arming = s.de.arming ∧
    (s.completeDebounce l).de.flight = s.de.flight ∧
    (s.completeDebounce l).de.lastPage = s.de.lastPage ∧
    (∀ k : PageId, (s.completeDebounce l).de.pages[k.val].faulted = s.de.pages[k.val].faulted) ∧
    (∀ k : LineId, k ≠ l → (s.completeDebounce l).lines[k.val] = s.lines[k.val]) ∧
    (∀ k : LineId, k ≠ l → (s.completeDebounce l).cu.lines[k.val] = s.cu.lines[k.val]) := by
  suffices H : ∀ t : State, t = (s.completeDebounce l) →
    t.cu.state = s.cu.state ∧
    t.cu.liveWindows = s.cu.liveWindows ∧
    t.cu.liveDelivery = s.cu.liveDelivery ∧
    t.cu.frozen = s.cu.frozen ∧
    t.cu.load = s.cu.load ∧
    t.nu.ms = s.nu.ms ∧
    t.nu.outstanding = s.nu.outstanding ∧
    t.nu.sequence = s.nu.sequence ∧
    t.de.staging = s.de.staging ∧
    t.de.rings = s.de.rings ∧
    t.de.fresh = s.de.fresh ∧
    t.de.arming = s.de.arming ∧
    t.de.flight = s.de.flight ∧
    t.de.lastPage = s.de.lastPage ∧
    (∀ k : PageId, t.de.pages[k.val].faulted = s.de.pages[k.val].faulted) ∧
    (∀ k : LineId, k ≠ l → t.lines[k.val] = s.lines[k.val]) ∧
    (∀ k : LineId, k ≠ l → t.cu.lines[k.val] = s.cu.lines[k.val]) from H _ rfl
  intro t ht
  simp only [State.completeDebounce] at ht
  (repeat' split at ht) <;> subst ht <;> simp +contextual [State.ls, State.sru, State.gzu, State.copies, State.page, State.ring, State.staging, State.window, State.liveDelivery, State.liveLine, State.liveCal, State.markLine, State.markPart, modLs_lines_other, modSru_lines_other, modGzu_lines_other, modCopies_lines_other]

@[simp] theorem completeDue_parts (s : State) (l : LineId) :
    (s.completeDue l).cu.state = s.cu.state ∧
    (s.completeDue l).cu.liveWindows = s.cu.liveWindows ∧
    (s.completeDue l).cu.liveDelivery = s.cu.liveDelivery ∧
    (s.completeDue l).cu.frozen = s.cu.frozen ∧
    (s.completeDue l).cu.load = s.cu.load ∧
    (s.completeDue l).nu.ms = s.nu.ms ∧
    (s.completeDue l).nu.outstanding = s.nu.outstanding ∧
    (s.completeDue l).nu.sequence = s.nu.sequence ∧
    (s.completeDue l).de.staging = s.de.staging ∧
    (s.completeDue l).de.rings = s.de.rings ∧
    (s.completeDue l).de.fresh = s.de.fresh ∧
    (s.completeDue l).de.arming = s.de.arming ∧
    (s.completeDue l).de.flight = s.de.flight ∧
    (s.completeDue l).de.lastPage = s.de.lastPage ∧
    (∀ k : PageId, (s.completeDue l).de.pages[k.val].faulted = s.de.pages[k.val].faulted) ∧
    (∀ k : LineId, k ≠ l → (s.completeDue l).lines[k.val] = s.lines[k.val]) ∧
    (∀ k : LineId, k ≠ l → (s.completeDue l).cu.lines[k.val] = s.cu.lines[k.val]) := by
  suffices H : ∀ t : State, t = (s.completeDue l) →
    t.cu.state = s.cu.state ∧
    t.cu.liveWindows = s.cu.liveWindows ∧
    t.cu.liveDelivery = s.cu.liveDelivery ∧
    t.cu.frozen = s.cu.frozen ∧
    t.cu.load = s.cu.load ∧
    t.nu.ms = s.nu.ms ∧
    t.nu.outstanding = s.nu.outstanding ∧
    t.nu.sequence = s.nu.sequence ∧
    t.de.staging = s.de.staging ∧
    t.de.rings = s.de.rings ∧
    t.de.fresh = s.de.fresh ∧
    t.de.arming = s.de.arming ∧
    t.de.flight = s.de.flight ∧
    t.de.lastPage = s.de.lastPage ∧
    (∀ k : PageId, t.de.pages[k.val].faulted = s.de.pages[k.val].faulted) ∧
    (∀ k : LineId, k ≠ l → t.lines[k.val] = s.lines[k.val]) ∧
    (∀ k : LineId, k ≠ l → t.cu.lines[k.val] = s.cu.lines[k.val]) from H _ rfl
  intro t ht
  simp only [State.completeDue] at ht
  (repeat' split at ht) <;> subst ht <;> simp +contextual [State.ls, State.sru, State.gzu, State.copies, State.page, State.ring, State.staging, State.window, State.liveDelivery, State.liveLine, State.liveCal, State.markLine, State.markPart, modLs_lines_other, modSru_lines_other, modGzu_lines_other, modCopies_lines_other]

@[simp] theorem followTrip_parts (s : State) (l : LineId) (v : Bool) :
    (s.followTrip l v).cu.state = s.cu.state ∧
    (s.followTrip l v).cu.liveWindows = s.cu.liveWindows ∧
    (s.followTrip l v).cu.liveDelivery = s.cu.liveDelivery ∧
    (s.followTrip l v).cu.frozen = s.cu.frozen ∧
    (s.followTrip l v).cu.load = s.cu.load ∧
    (s.followTrip l v).nu.ms = s.nu.ms ∧
    (s.followTrip l v).nu.outstanding = s.nu.outstanding ∧
    (s.followTrip l v).nu.sequence = s.nu.sequence ∧
    (s.followTrip l v).de.staging = s.de.staging ∧
    (s.followTrip l v).de.rings = s.de.rings ∧
    (s.followTrip l v).de.fresh = s.de.fresh ∧
    (s.followTrip l v).de.arming = s.de.arming ∧
    (s.followTrip l v).de.flight = s.de.flight ∧
    (s.followTrip l v).de.lastPage = s.de.lastPage ∧
    (∀ k : PageId, (s.followTrip l v).de.pages[k.val].faulted = s.de.pages[k.val].faulted) ∧
    (∀ k : LineId, k ≠ l → (s.followTrip l v).lines[k.val] = s.lines[k.val]) ∧
    (∀ k : LineId, k ≠ l → (s.followTrip l v).cu.lines[k.val] = s.cu.lines[k.val]) := by
  suffices H : ∀ t : State, t = (s.followTrip l v) →
    t.cu.state = s.cu.state ∧
    t.cu.liveWindows = s.cu.liveWindows ∧
    t.cu.liveDelivery = s.cu.liveDelivery ∧
    t.cu.frozen = s.cu.frozen ∧
    t.cu.load = s.cu.load ∧
    t.nu.ms = s.nu.ms ∧
    t.nu.outstanding = s.nu.outstanding ∧
    t.nu.sequence = s.nu.sequence ∧
    t.de.staging = s.de.staging ∧
    t.de.rings = s.de.rings ∧
    t.de.fresh = s.de.fresh ∧
    t.de.arming = s.de.arming ∧
    t.de.flight = s.de.flight ∧
    t.de.lastPage = s.de.lastPage ∧
    (∀ k : PageId, t.de.pages[k.val].faulted = s.de.pages[k.val].faulted) ∧
    (∀ k : LineId, k ≠ l → t.lines[k.val] = s.lines[k.val]) ∧
    (∀ k : LineId, k ≠ l → t.cu.lines[k.val] = s.cu.lines[k.val]) from H _ rfl
  intro t ht
  simp only [State.followTrip] at ht
  (repeat' split at ht) <;> subst ht <;> simp +contextual [State.ls, State.sru, State.gzu, State.copies, State.page, State.ring, State.staging, State.window, State.liveDelivery, State.liveLine, State.liveCal, State.markLine, State.markPart, modLs_lines_other, modSru_lines_other, modGzu_lines_other, modCopies_lines_other]

@[simp] theorem setTrip_parts (s : State) (l : LineId) (v : Bool) :
    (s.setTrip l v).cu.state = s.cu.state ∧
    (s.setTrip l v).cu.liveWindows = s.cu.liveWindows ∧
    (s.setTrip l v).cu.liveDelivery = s.cu.liveDelivery ∧
    (s.setTrip l v).cu.frozen = s.cu.frozen ∧
    (s.setTrip l v).cu.load = s.cu.load ∧
    (s.setTrip l v).nu.ms = s.nu.ms ∧
    (s.setTrip l v).nu.outstanding = s.nu.outstanding ∧
    (s.setTrip l v).nu.sequence = s.nu.sequence ∧
    (s.setTrip l v).de.staging = s.de.staging ∧
    (s.setTrip l v).de.rings = s.de.rings ∧
    (s.setTrip l v).de.fresh = s.de.fresh ∧
    (s.setTrip l v).de.arming = s.de.arming ∧
    (s.setTrip l v).de.flight = s.de.flight ∧
    (s.setTrip l v).de.lastPage = s.de.lastPage ∧
    (∀ k : PageId, (s.setTrip l v).de.pages[k.val].faulted = s.de.pages[k.val].faulted) ∧
    (s.setTrip l v).pins.por = s.pins.por ∧
    (s.setTrip l v).pins.brst = s.pins.brst ∧
    (s.setTrip l v).pins.coilHi = s.pins.coilHi ∧
    (s.setTrip l v).pins.coilLo = s.pins.coilLo ∧
    (∀ k : LineId, k ≠ l → (s.setTrip l v).lines[k.val] = s.lines[k.val]) ∧
    (∀ k : LineId, k ≠ l → (s.setTrip l v).cu.lines[k.val] = s.cu.lines[k.val]) := by
  suffices H : ∀ t : State, t = (s.setTrip l v) →
    t.cu.state = s.cu.state ∧
    t.cu.liveWindows = s.cu.liveWindows ∧
    t.cu.liveDelivery = s.cu.liveDelivery ∧
    t.cu.frozen = s.cu.frozen ∧
    t.cu.load = s.cu.load ∧
    t.nu.ms = s.nu.ms ∧
    t.nu.outstanding = s.nu.outstanding ∧
    t.nu.sequence = s.nu.sequence ∧
    t.de.staging = s.de.staging ∧
    t.de.rings = s.de.rings ∧
    t.de.fresh = s.de.fresh ∧
    t.de.arming = s.de.arming ∧
    t.de.flight = s.de.flight ∧
    t.de.lastPage = s.de.lastPage ∧
    (∀ k : PageId, t.de.pages[k.val].faulted = s.de.pages[k.val].faulted) ∧
    t.pins.por = s.pins.por ∧
    t.pins.brst = s.pins.brst ∧
    t.pins.coilHi = s.pins.coilHi ∧
    t.pins.coilLo = s.pins.coilLo ∧
    (∀ k : LineId, k ≠ l → t.lines[k.val] = s.lines[k.val]) ∧
    (∀ k : LineId, k ≠ l → t.cu.lines[k.val] = s.cu.lines[k.val]) from H _ rfl
  intro t ht
  simp only [State.setTrip] at ht
  (repeat' split at ht) <;> subst ht <;> simp +contextual [State.ls, State.sru, State.gzu, State.copies, State.page, State.ring, State.staging, State.window, State.liveDelivery, State.liveLine, State.liveCal, State.markLine, State.markPart, modLs_lines_other, modSru_lines_other, modGzu_lines_other, modCopies_lines_other]

@[simp] theorem startLine_parts (s : State) (l : LineId) :
    (s.startLine l).1.cu.state = s.cu.state ∧
    (s.startLine l).1.cu.liveWindows = s.cu.liveWindows ∧
    (s.startLine l).1.cu.liveDelivery = s.cu.liveDelivery ∧
    (s.startLine l).1.cu.frozen = s.cu.frozen ∧
    (s.startLine l).1.cu.load = s.cu.load ∧
    (s.startLine l).1.nu.ms = s.nu.ms ∧
    (s.startLine l).1.nu.outstanding = s.nu.outstanding ∧
    (s.startLine l).1.nu.sequence = s.nu.sequence ∧
    (s.startLine l).1.de.staging = s.de.staging ∧
    (s.startLine l).1.de.rings = s.de.rings ∧
    (s.startLine l).1.de.fresh = s.de.fresh ∧
    (s.startLine l).1.de.arming = s.de.arming ∧
    (s.startLine l).1.de.flight = s.de.flight ∧
    (s.startLine l).1.de.lastPage = s.de.lastPage ∧
    (∀ k : PageId, (s.startLine l).1.de.pages[k.val].faulted = s.de.pages[k.val].faulted) ∧
    (∀ k : LineId, k ≠ l → (s.startLine l).1.lines[k.val] = s.lines[k.val]) ∧
    (∀ k : LineId, k ≠ l → (s.startLine l).1.cu.lines[k.val] = s.cu.lines[k.val]) := by
  suffices H : ∀ t : State, t = (s.startLine l).1 →
    t.cu.state = s.cu.state ∧
    t.cu.liveWindows = s.cu.liveWindows ∧
    t.cu.liveDelivery = s.cu.liveDelivery ∧
    t.cu.frozen = s.cu.frozen ∧
    t.cu.load = s.cu.load ∧
    t.nu.ms = s.nu.ms ∧
    t.nu.outstanding = s.nu.outstanding ∧
    t.nu.sequence = s.nu.sequence ∧
    t.de.staging = s.de.staging ∧
    t.de.rings = s.de.rings ∧
    t.de.fresh = s.de.fresh ∧
    t.de.arming = s.de.arming ∧
    t.de.flight = s.de.flight ∧
    t.de.lastPage = s.de.lastPage ∧
    (∀ k : PageId, t.de.pages[k.val].faulted = s.de.pages[k.val].faulted) ∧
    (∀ k : LineId, k ≠ l → t.lines[k.val] = s.lines[k.val]) ∧
    (∀ k : LineId, k ≠ l → t.cu.lines[k.val] = s.cu.lines[k.val]) from H _ rfl
  intro t ht
  simp only [State.startLine] at ht
  (repeat' split at ht) <;> subst ht <;> simp +contextual [State.ls, State.sru, State.gzu, State.copies, State.page, State.ring, State.staging, State.window, State.liveDelivery, State.liveLine, State.liveCal, State.markLine, State.markPart, modLs_lines_other, modSru_lines_other, modGzu_lines_other, modCopies_lines_other]

@[simp] theorem stopLine_parts (s : State) (l : LineId) :
    (s.stopLine l).1.cu.state = s.cu.state ∧
    (s.stopLine l).1.cu.liveWindows = s.cu.liveWindows ∧
    (s.stopLine l).1.cu.liveDelivery = s.cu.liveDelivery ∧
    (s.stopLine l).1.cu.frozen = s.cu.frozen ∧
    (s.stopLine l).1.cu.load = s.cu.load ∧
    (s.stopLine l).1.nu.ms = s.nu.ms ∧
    (s.stopLine l).1.nu.outstanding = s.nu.outstanding ∧
    (s.stopLine l).1.nu.sequence = s.nu.sequence ∧
    (s.stopLine l).1.de.staging = s.de.staging ∧
    (s.stopLine l).1.de.rings = s.de.rings ∧
    (s.stopLine l).1.de.fresh = s.de.fresh ∧
    (s.stopLine l).1.de.arming = s.de.arming ∧
    (s.stopLine l).1.de.flight = s.de.flight ∧
    (s.stopLine l).1.de.lastPage = s.de.lastPage ∧
    (∀ k : PageId, (s.stopLine l).1.de.pages[k.val].faulted = s.de.pages[k.val].faulted) ∧
    (∀ k : LineId, k ≠ l → (s.stopLine l).1.lines[k.val] = s.lines[k.val]) ∧
    (∀ k : LineId, k ≠ l → (s.stopLine l).1.cu.lines[k.val] = s.cu.lines[k.val]) := by
  suffices H : ∀ t : State, t = (s.stopLine l).1 →
    t.cu.state = s.cu.state ∧
    t.cu.liveWindows = s.cu.liveWindows ∧
    t.cu.liveDelivery = s.cu.liveDelivery ∧
    t.cu.frozen = s.cu.frozen ∧
    t.cu.load = s.cu.load ∧
    t.nu.ms = s.nu.ms ∧
    t.nu.outstanding = s.nu.outstanding ∧
    t.nu.sequence = s.nu.sequence ∧
    t.de.staging = s.de.staging ∧
    t.de.rings = s.de.rings ∧
    t.de.fresh = s.de.fresh ∧
    t.de.arming = s.de.arming ∧
    t.de.flight = s.de.flight ∧
    t.de.lastPage = s.de.lastPage ∧
    (∀ k : PageId, t.de.pages[k.val].faulted = s.de.pages[k.val].faulted) ∧
    (∀ k : LineId, k ≠ l → t.lines[k.val] = s.lines[k.val]) ∧
    (∀ k : LineId, k ≠ l → t.cu.lines[k.val] = s.cu.lines[k.val]) from H _ rfl
  intro t ht
  simp only [State.stopLine] at ht
  (repeat' split at ht) <;> subst ht <;> simp +contextual [State.ls, State.sru, State.gzu, State.copies, State.page, State.ring, State.staging, State.window, State.liveDelivery, State.liveLine, State.liveCal, State.markLine, State.markPart, modLs_lines_other, modSru_lines_other, modGzu_lines_other, modCopies_lines_other]

@[simp] theorem haltLine_parts (s : State) (l : LineId) :
    (s.haltLine l).1.cu.state = s.cu.state ∧
    (s.haltLine l).1.cu.liveWindows = s.cu.liveWindows ∧
    (s.haltLine l).1.cu.liveDelivery = s.cu.liveDelivery ∧
    (s.haltLine l).1.cu.frozen = s.cu.frozen ∧
    (s.haltLine l).1.cu.load = s.cu.load ∧
    (s.haltLine l).1.nu.ms = s.nu.ms ∧
    (s.haltLine l).1.nu.outstanding = s.nu.outstanding ∧
    (s.haltLine l).1.nu.sequence = s.nu.sequence ∧
    (s.haltLine l).1.de.staging = s.de.staging ∧
    (s.haltLine l).1.de.rings = s.de.rings ∧
    (s.haltLine l).1.de.fresh = s.de.fresh ∧
    (s.haltLine l).1.de.arming = s.de.arming ∧
    (s.haltLine l).1.de.flight = s.de.flight ∧
    (s.haltLine l).1.de.lastPage = s.de.lastPage ∧
    (∀ k : PageId, (s.haltLine l).1.de.pages[k.val].faulted = s.de.pages[k.val].faulted) ∧
    (∀ k : LineId, k ≠ l → (s.haltLine l).1.lines[k.val] = s.lines[k.val]) ∧
    (∀ k : LineId, k ≠ l → (s.haltLine l).1.cu.lines[k.val] = s.cu.lines[k.val]) := by
  suffices H : ∀ t : State, t = (s.haltLine l).1 →
    t.cu.state = s.cu.state ∧
    t.cu.liveWindows = s.cu.liveWindows ∧
    t.cu.liveDelivery = s.cu.liveDelivery ∧
    t.cu.frozen = s.cu.frozen ∧
    t.cu.load = s.cu.load ∧
    t.nu.ms = s.nu.ms ∧
    t.nu.outstanding = s.nu.outstanding ∧
    t.nu.sequence = s.nu.sequence ∧
    t.de.staging = s.de.staging ∧
    t.de.rings = s.de.rings ∧
    t.de.fresh = s.de.fresh ∧
    t.de.arming = s.de.arming ∧
    t.de.flight = s.de.flight ∧
    t.de.lastPage = s.de.lastPage ∧
    (∀ k : PageId, t.de.pages[k.val].faulted = s.de.pages[k.val].faulted) ∧
    (∀ k : LineId, k ≠ l → t.lines[k.val] = s.lines[k.val]) ∧
    (∀ k : LineId, k ≠ l → t.cu.lines[k.val] = s.cu.lines[k.val]) from H _ rfl
  intro t ht
  simp only [State.haltLine] at ht
  (repeat' split at ht) <;> subst ht <;> simp +contextual [State.ls, State.sru, State.gzu, State.copies, State.page, State.ring, State.staging, State.window, State.liveDelivery, State.liveLine, State.liveCal, State.markLine, State.markPart, modLs_lines_other, modSru_lines_other, modGzu_lines_other, modCopies_lines_other]

@[simp] theorem restartLine_parts (s : State) (l : LineId) :
    (s.restartLine l).1.cu.state = s.cu.state ∧
    (s.restartLine l).1.cu.liveWindows = s.cu.liveWindows ∧
    (s.restartLine l).1.cu.liveDelivery = s.cu.liveDelivery ∧
    (s.restartLine l).1.cu.frozen = s.cu.frozen ∧
    (s.restartLine l).1.cu.load = s.cu.load ∧
    (s.restartLine l).1.nu.ms = s.nu.ms ∧
    (s.restartLine l).1.nu.outstanding = s.nu.outstanding ∧
    (s.restartLine l).1.nu.sequence = s.nu.sequence ∧
    (s.restartLine l).1.de.staging = s.de.staging ∧
    (s.restartLine l).1.de.rings = s.de.rings ∧
    (s.restartLine l).1.de.fresh = s.de.fresh ∧
    (s.restartLine l).1.de.arming = s.de.arming ∧
    (s.restartLine l).1.de.flight = s.de.flight ∧
    (s.restartLine l).1.de.lastPage = s.de.lastPage ∧
    (∀ k : PageId, (s.restartLine l).1.de.pages[k.val].faulted = s.de.pages[k.val].faulted) ∧
    (∀ k : LineId, k ≠ l → (s.restartLine l).1.lines[k.val] = s.lines[k.val]) ∧
    (∀ k : LineId, k ≠ l → (s.restartLine l).1.cu.lines[k.val] = s.cu.lines[k.val]) := by
  suffices H : ∀ t : State, t = (s.restartLine l).1 →
    t.cu.state = s.cu.state ∧
    t.cu.liveWindows = s.cu.liveWindows ∧
    t.cu.liveDelivery = s.cu.liveDelivery ∧
    t.cu.frozen = s.cu.frozen ∧
    t.cu.load = s.cu.load ∧
    t.nu.ms = s.nu.ms ∧
    t.nu.outstanding = s.nu.outstanding ∧
    t.nu.sequence = s.nu.sequence ∧
    t.de.staging = s.de.staging ∧
    t.de.rings = s.de.rings ∧
    t.de.fresh = s.de.fresh ∧
    t.de.arming = s.de.arming ∧
    t.de.flight = s.de.flight ∧
    t.de.lastPage = s.de.lastPage ∧
    (∀ k : PageId, t.de.pages[k.val].faulted = s.de.pages[k.val].faulted) ∧
    (∀ k : LineId, k ≠ l → t.lines[k.val] = s.lines[k.val]) ∧
    (∀ k : LineId, k ≠ l → t.cu.lines[k.val] = s.cu.lines[k.val]) from H _ rfl
  intro t ht
  simp only [State.restartLine] at ht
  (repeat' split at ht) <;> subst ht <;> simp +contextual [State.ls, State.sru, State.gzu, State.copies, State.page, State.ring, State.staging, State.window, State.liveDelivery, State.liveLine, State.liveCal, State.markLine, State.markPart, modLs_lines_other, modSru_lines_other, modGzu_lines_other, modCopies_lines_other]

@[simp] theorem setRecord_parts (s : State) (tag code : Byte) (r : Reply) :
    (s.setRecord tag code r).cu.state = s.cu.state ∧
    (s.setRecord tag code r).cu.lines = s.cu.lines ∧
    (s.setRecord tag code r).cu.liveWindows = s.cu.liveWindows ∧
    (s.setRecord tag code r).cu.liveDelivery = s.cu.liveDelivery ∧
    (s.setRecord tag code r).cu.frozen = s.cu.frozen ∧
    (s.setRecord tag code r).cu.load = s.cu.load ∧
    (s.setRecord tag code r).de.staging = s.de.staging ∧
    (s.setRecord tag code r).de.rings = s.de.rings ∧
    (s.setRecord tag code r).de.fresh = s.de.fresh ∧
    (s.setRecord tag code r).de.arming = s.de.arming ∧
    (s.setRecord tag code r).de.flight = s.de.flight ∧
    (s.setRecord tag code r).de.lastPage = s.de.lastPage ∧
    (∀ k : PageId, (s.setRecord tag code r).de.pages[k.val].faulted = s.de.pages[k.val].faulted) := by
  suffices H : ∀ t : State, t = (s.setRecord tag code r) →
    t.cu.state = s.cu.state ∧
    t.cu.lines = s.cu.lines ∧
    t.cu.liveWindows = s.cu.liveWindows ∧
    t.cu.liveDelivery = s.cu.liveDelivery ∧
    t.cu.frozen = s.cu.frozen ∧
    t.cu.load = s.cu.load ∧
    t.de.staging = s.de.staging ∧
    t.de.rings = s.de.rings ∧
    t.de.fresh = s.de.fresh ∧
    t.de.arming = s.de.arming ∧
    t.de.flight = s.de.flight ∧
    t.de.lastPage = s.de.lastPage ∧
    (∀ k : PageId, t.de.pages[k.val].faulted = s.de.pages[k.val].faulted) from H _ rfl
  intro t ht
  simp only [State.setRecord] at ht
  subst ht
  simp +contextual [State.ls, State.sru, State.gzu, State.copies, State.page, State.ring, State.staging, State.window, State.liveDelivery, State.liveLine, State.liveCal, State.markLine, State.markPart, modLs_lines_other, modSru_lines_other, modGzu_lines_other, modCopies_lines_other]

@[simp] theorem commitLine_parts (s : State) (tag : Byte) (l : LineId) :
    (s.commitLine tag l).1.cu.state = s.cu.state ∧
    (s.commitLine tag l).1.cu.liveWindows = s.cu.liveWindows ∧
    (s.commitLine tag l).1.cu.liveDelivery = s.cu.liveDelivery ∧
    (s.commitLine tag l).1.cu.frozen = s.cu.frozen ∧
    (s.commitLine tag l).1.cu.load = s.cu.load ∧
    (∀ k : LineId, (s.commitLine tag l).1.cu.lines[k.val].liveCal = s.cu.lines[k.val].liveCal) ∧
    (∀ k : LineId, (s.commitLine tag l).1.cu.lines[k.val].pendingCal = s.cu.lines[k.val].pendingCal) ∧
    (∀ k : LineId, (s.commitLine tag l).1.lines[k.val].sru = s.lines[k.val].sru) ∧
    (s.commitLine tag l).1.nu.ms = s.nu.ms ∧
    (s.commitLine tag l).1.nu.outstanding = s.nu.outstanding ∧
    (s.commitLine tag l).1.nu.sequence = s.nu.sequence ∧
    (s.commitLine tag l).1.de.staging = s.de.staging ∧
    (s.commitLine tag l).1.de.rings = s.de.rings ∧
    (s.commitLine tag l).1.de.statusDirty = s.de.statusDirty ∧
    (s.commitLine tag l).1.de.fresh = s.de.fresh ∧
    (s.commitLine tag l).1.de.arming = s.de.arming ∧
    (s.commitLine tag l).1.de.flight = s.de.flight ∧
    (s.commitLine tag l).1.de.lastPage = s.de.lastPage ∧
    (∀ k : PageId, (s.commitLine tag l).1.de.pages[k.val].faulted = s.de.pages[k.val].faulted) ∧
    (∀ k : LineId, k ≠ l → (s.commitLine tag l).1.lines[k.val] = s.lines[k.val]) ∧
    (∀ k : LineId, k ≠ l → (s.commitLine tag l).1.cu.lines[k.val] = s.cu.lines[k.val]) := by
  suffices H : ∀ t : State, t = (s.commitLine tag l).1 →
    t.cu.state = s.cu.state ∧
    t.cu.liveWindows = s.cu.liveWindows ∧
    t.cu.liveDelivery = s.cu.liveDelivery ∧
    t.cu.frozen = s.cu.frozen ∧
    t.cu.load = s.cu.load ∧
    (∀ k : LineId, t.cu.lines[k.val].liveCal = s.cu.lines[k.val].liveCal) ∧
    (∀ k : LineId, t.cu.lines[k.val].pendingCal = s.cu.lines[k.val].pendingCal) ∧
    (∀ k : LineId, t.lines[k.val].sru = s.lines[k.val].sru) ∧
    t.nu.ms = s.nu.ms ∧
    t.nu.outstanding = s.nu.outstanding ∧
    t.nu.sequence = s.nu.sequence ∧
    t.de.staging = s.de.staging ∧
    t.de.rings = s.de.rings ∧
    t.de.statusDirty = s.de.statusDirty ∧
    t.de.fresh = s.de.fresh ∧
    t.de.arming = s.de.arming ∧
    t.de.flight = s.de.flight ∧
    t.de.lastPage = s.de.lastPage ∧
    (∀ k : PageId, t.de.pages[k.val].faulted = s.de.pages[k.val].faulted) ∧
    (∀ k : LineId, k ≠ l → t.lines[k.val] = s.lines[k.val]) ∧
    (∀ k : LineId, k ≠ l → t.cu.lines[k.val] = s.cu.lines[k.val]) from H _ rfl
  intro t ht
  simp only [State.commitLine] at ht
  (repeat' split at ht) <;> subst ht <;> simp +contextual [State.ls, State.sru, State.gzu, State.copies, State.page, State.ring, State.staging, State.window, State.liveDelivery, State.liveLine, State.liveCal, State.markLine, State.markPart, modLs_lines_other, modSru_lines_other, modGzu_lines_other, modCopies_lines_other]

@[simp] theorem commitCal_parts (s : State) (tag : Byte) (l : LineId) :
    (s.commitCal tag l).1.cu.state = s.cu.state ∧
    (s.commitCal tag l).1.cu.liveWindows = s.cu.liveWindows ∧
    (s.commitCal tag l).1.cu.liveDelivery = s.cu.liveDelivery ∧
    (s.commitCal tag l).1.cu.frozen = s.cu.frozen ∧
    (s.commitCal tag l).1.cu.load = s.cu.load ∧
    (∀ k : LineId, (s.commitCal tag l).1.cu.lines[k.val].liveLine = s.cu.lines[k.val].liveLine) ∧
    (∀ k : LineId, (s.commitCal tag l).1.cu.lines[k.val].pendingLine = s.cu.lines[k.val].pendingLine) ∧
    (s.commitCal tag l).1.nu.ms = s.nu.ms ∧
    (s.commitCal tag l).1.nu.outstanding = s.nu.outstanding ∧
    (s.commitCal tag l).1.nu.sequence = s.nu.sequence ∧
    (s.commitCal tag l).1.de.staging = s.de.staging ∧
    (s.commitCal tag l).1.de.rings = s.de.rings ∧
    (s.commitCal tag l).1.de.statusDirty = s.de.statusDirty ∧
    (s.commitCal tag l).1.de.fresh = s.de.fresh ∧
    (s.commitCal tag l).1.de.arming = s.de.arming ∧
    (s.commitCal tag l).1.de.flight = s.de.flight ∧
    (s.commitCal tag l).1.de.lastPage = s.de.lastPage ∧
    (∀ k : PageId, (s.commitCal tag l).1.de.pages[k.val].faulted = s.de.pages[k.val].faulted) ∧
    (∀ k : LineId, k ≠ l → (s.commitCal tag l).1.cu.lines[k.val] = s.cu.lines[k.val]) := by
  suffices H : ∀ t : State, t = (s.commitCal tag l).1 →
    t.cu.state = s.cu.state ∧
    t.cu.liveWindows = s.cu.liveWindows ∧
    t.cu.liveDelivery = s.cu.liveDelivery ∧
    t.cu.frozen = s.cu.frozen ∧
    t.cu.load = s.cu.load ∧
    (∀ k : LineId, t.cu.lines[k.val].liveLine = s.cu.lines[k.val].liveLine) ∧
    (∀ k : LineId, t.cu.lines[k.val].pendingLine = s.cu.lines[k.val].pendingLine) ∧
    t.nu.ms = s.nu.ms ∧
    t.nu.outstanding = s.nu.outstanding ∧
    t.nu.sequence = s.nu.sequence ∧
    t.de.staging = s.de.staging ∧
    t.de.rings = s.de.rings ∧
    t.de.statusDirty = s.de.statusDirty ∧
    t.de.fresh = s.de.fresh ∧
    t.de.arming = s.de.arming ∧
    t.de.flight = s.de.flight ∧
    t.de.lastPage = s.de.lastPage ∧
    (∀ k : PageId, t.de.pages[k.val].faulted = s.de.pages[k.val].faulted) ∧
    (∀ k : LineId, k ≠ l → t.cu.lines[k.val] = s.cu.lines[k.val]) from H _ rfl
  intro t ht
  simp only [State.commitCal] at ht
  (repeat' split at ht) <;> subst ht <;> simp +contextual [State.ls, State.sru, State.gzu, State.copies, State.page, State.ring, State.staging, State.window, State.liveDelivery, State.liveLine, State.liveCal, State.markLine, State.markPart, modLs_lines_other, modSru_lines_other, modGzu_lines_other, modCopies_lines_other]

@[simp] theorem windowsLive_parts (s : State) (tag : Byte) :
    (s.windowsLive tag).cu.state = s.cu.state ∧
    (s.windowsLive tag).cu.lines = s.cu.lines ∧
    (s.windowsLive tag).cu.liveDelivery = s.cu.liveDelivery ∧
    (s.windowsLive tag).cu.frozen = s.cu.frozen ∧
    (s.windowsLive tag).cu.load = s.cu.load ∧
    (s.windowsLive tag).wu.ownedHits = s.wu.ownedHits ∧
    (s.windowsLive tag).nu.ms = s.nu.ms ∧
    (s.windowsLive tag).nu.outstanding = s.nu.outstanding ∧
    (s.windowsLive tag).nu.sequence = s.nu.sequence ∧
    (∀ k : LineId, (s.windowsLive tag).lines[k.val].ls = s.lines[k.val].ls) ∧
    (∀ k : LineId, (s.windowsLive tag).lines[k.val].sru = s.lines[k.val].sru) ∧
    (s.windowsLive tag).de.staging = s.de.staging ∧
    (s.windowsLive tag).de.rings = s.de.rings ∧
    (s.windowsLive tag).de.statusDirty = s.de.statusDirty ∧
    (s.windowsLive tag).de.fresh = s.de.fresh ∧
    (s.windowsLive tag).de.arming = s.de.arming ∧
    (s.windowsLive tag).de.flight = s.de.flight ∧
    (s.windowsLive tag).de.lastPage = s.de.lastPage ∧
    (∀ k : PageId, (s.windowsLive tag).de.pages[k.val].faulted = s.de.pages[k.val].faulted) := by
  simp only [State.windowsLive, State.liveWindowsFrom]
  (repeat' split) <;> simp

@[simp] theorem commitWindows_parts (s : State) (tag : Byte) :
    (s.commitWindows tag).1.cu.state = s.cu.state ∧
    (s.commitWindows tag).1.cu.lines = s.cu.lines ∧
    (s.commitWindows tag).1.cu.liveDelivery = s.cu.liveDelivery ∧
    (s.commitWindows tag).1.cu.frozen = s.cu.frozen ∧
    (s.commitWindows tag).1.cu.load = s.cu.load ∧
    (s.commitWindows tag).1.wu.ownedHits = s.wu.ownedHits ∧
    (s.commitWindows tag).1.nu.ms = s.nu.ms ∧
    (s.commitWindows tag).1.nu.outstanding = s.nu.outstanding ∧
    (s.commitWindows tag).1.nu.sequence = s.nu.sequence ∧
    (∀ k : LineId, (s.commitWindows tag).1.lines[k.val].ls = s.lines[k.val].ls) ∧
    (∀ k : LineId, (s.commitWindows tag).1.lines[k.val].sru = s.lines[k.val].sru) ∧
    (s.commitWindows tag).1.de.staging = s.de.staging ∧
    (s.commitWindows tag).1.de.rings = s.de.rings ∧
    (s.commitWindows tag).1.de.statusDirty = s.de.statusDirty ∧
    (s.commitWindows tag).1.de.fresh = s.de.fresh ∧
    (s.commitWindows tag).1.de.arming = s.de.arming ∧
    (s.commitWindows tag).1.de.flight = s.de.flight ∧
    (s.commitWindows tag).1.de.lastPage = s.de.lastPage ∧
    (∀ k : PageId, (s.commitWindows tag).1.de.pages[k.val].faulted = s.de.pages[k.val].faulted) := by
  suffices H : ∀ t : State, t = (s.commitWindows tag).1 →
    t.cu.state = s.cu.state ∧
    t.cu.lines = s.cu.lines ∧
    t.cu.liveDelivery = s.cu.liveDelivery ∧
    t.cu.frozen = s.cu.frozen ∧
    t.cu.load = s.cu.load ∧
    t.wu.ownedHits = s.wu.ownedHits ∧
    t.nu.ms = s.nu.ms ∧
    t.nu.outstanding = s.nu.outstanding ∧
    t.nu.sequence = s.nu.sequence ∧
    (∀ k : LineId, t.lines[k.val].ls = s.lines[k.val].ls) ∧
    (∀ k : LineId, t.lines[k.val].sru = s.lines[k.val].sru) ∧
    t.de.staging = s.de.staging ∧
    t.de.rings = s.de.rings ∧
    t.de.statusDirty = s.de.statusDirty ∧
    t.de.fresh = s.de.fresh ∧
    t.de.arming = s.de.arming ∧
    t.de.flight = s.de.flight ∧
    t.de.lastPage = s.de.lastPage ∧
    (∀ k : PageId, t.de.pages[k.val].faulted = s.de.pages[k.val].faulted) from H _ rfl
  intro t ht
  simp only [State.commitWindows] at ht
  (repeat' split at ht) <;> subst ht <;> simp +contextual [State.ls, State.sru, State.gzu, State.copies, State.page, State.ring, State.staging, State.window, State.liveDelivery, State.liveLine, State.liveCal, State.markLine, State.markPart, modLs_lines_other, modSru_lines_other, modGzu_lines_other, modCopies_lines_other]

@[simp] theorem commitDelivery_parts (s : State) (tag : Byte) :
    (s.commitDelivery tag).1.de.staging = s.de.staging ∧
    (s.commitDelivery tag).1.de.rings = s.de.rings ∧
    (s.commitDelivery tag).1.de.statusDirty = s.de.statusDirty ∧
    (s.commitDelivery tag).1.de.fresh = s.de.fresh ∧
    (s.commitDelivery tag).1.de.flight = s.de.flight ∧
    (s.commitDelivery tag).1.de.lastPage = s.de.lastPage ∧
    (∀ k : PageId, (s.commitDelivery tag).1.de.pages[k.val].faulted = s.de.pages[k.val].faulted) := by
  suffices H : ∀ t : State, t = (s.commitDelivery tag).1 →
    t.de.staging = s.de.staging ∧
    t.de.rings = s.de.rings ∧
    t.de.statusDirty = s.de.statusDirty ∧
    t.de.fresh = s.de.fresh ∧
    t.de.flight = s.de.flight ∧
    t.de.lastPage = s.de.lastPage ∧
    (∀ k : PageId, t.de.pages[k.val].faulted = s.de.pages[k.val].faulted) from H _ rfl
  intro t ht
  simp only [State.commitDelivery] at ht
  (repeat' split at ht) <;> subst ht <;> simp

@[simp] theorem markPendingCals_parts (s : State) :
    s.markPendingCals.de.staging = s.de.staging ∧
    s.markPendingCals.de.rings = s.de.rings ∧
    s.markPendingCals.de.statusDirty = s.de.statusDirty ∧
    s.markPendingCals.de.fresh = s.de.fresh ∧
    s.markPendingCals.de.arming = s.de.arming ∧
    s.markPendingCals.de.flight = s.de.flight ∧
    s.markPendingCals.de.lastPage = s.de.lastPage := by
  simp only [State.markPendingCals]
  refine ⟨?_, ?_, ?_, ?_, ?_, ?_, ?_⟩
  · rw [foldl_keeps _ (fun z : State => z.de.staging) (fun t x => by split <;> simp)]
  · rw [foldl_keeps _ (fun z : State => z.de.rings) (fun t x => by split <;> simp)]
  · rw [foldl_keeps _ (fun z : State => z.de.statusDirty) (fun t x => by split <;> simp)]
  · rw [foldl_keeps _ (fun z : State => z.de.fresh) (fun t x => by split <;> simp)]
  · rw [foldl_keeps _ (fun z : State => z.de.arming) (fun t x => by split <;> simp)]
  · rw [foldl_keeps _ (fun z : State => z.de.flight) (fun t x => by split <;> simp)]
  · rw [foldl_keeps _ (fun z : State => z.de.lastPage) (fun t x => by split <;> simp)]

@[simp] theorem freeze_parts (s : State) :
    s.freeze.1.cu.state = s.cu.state ∧
    s.freeze.1.cu.liveWindows = s.cu.liveWindows ∧
    s.freeze.1.cu.liveDelivery = s.cu.liveDelivery ∧
    s.freeze.1.cu.load = s.cu.load ∧
    s.freeze.1.nu.ms = s.nu.ms ∧
    s.freeze.1.nu.outstanding = s.nu.outstanding ∧
    s.freeze.1.nu.sequence = s.nu.sequence ∧
    s.freeze.1.de.staging = s.de.staging ∧
    s.freeze.1.de.rings = s.de.rings ∧
    s.freeze.1.de.statusDirty = s.de.statusDirty ∧
    s.freeze.1.de.fresh = s.de.fresh ∧
    s.freeze.1.de.arming = s.de.arming ∧
    s.freeze.1.de.flight = s.de.flight ∧
    s.freeze.1.de.lastPage = s.de.lastPage := by
  suffices H : ∀ t : State, t = s.freeze.1 →
    t.cu.state = s.cu.state ∧
    t.cu.liveWindows = s.cu.liveWindows ∧
    t.cu.liveDelivery = s.cu.liveDelivery ∧
    t.cu.load = s.cu.load ∧
    t.nu.ms = s.nu.ms ∧
    t.nu.outstanding = s.nu.outstanding ∧
    t.nu.sequence = s.nu.sequence ∧
    t.de.staging = s.de.staging ∧
    t.de.rings = s.de.rings ∧
    t.de.statusDirty = s.de.statusDirty ∧
    t.de.fresh = s.de.fresh ∧
    t.de.arming = s.de.arming ∧
    t.de.flight = s.de.flight ∧
    t.de.lastPage = s.de.lastPage from H _ rfl
  intro t ht
  simp only [State.freeze] at ht
  (repeat' split at ht) <;> subst ht <;> simp

@[simp] theorem startLoad_parts (s : State) (c : Nat) :
    (s.startLoad c).1.cu.lines = s.cu.lines ∧
    (s.startLoad c).1.cu.liveWindows = s.cu.liveWindows ∧
    (s.startLoad c).1.cu.liveDelivery = s.cu.liveDelivery ∧
    (s.startLoad c).1.cu.frozen = s.cu.frozen ∧
    (s.startLoad c).1.de.staging = s.de.staging ∧
    (s.startLoad c).1.de.rings = s.de.rings ∧
    (s.startLoad c).1.de.statusDirty = s.de.statusDirty ∧
    (s.startLoad c).1.de.fresh = s.de.fresh ∧
    (s.startLoad c).1.de.arming = s.de.arming ∧
    (s.startLoad c).1.de.flight = s.de.flight ∧
    (s.startLoad c).1.de.lastPage = s.de.lastPage ∧
    (∀ k : PageId, (s.startLoad c).1.de.pages[k.val].faulted = s.de.pages[k.val].faulted) := by
  suffices H : ∀ t : State, t = (s.startLoad c).1 →
    t.cu.lines = s.cu.lines ∧
    t.cu.liveWindows = s.cu.liveWindows ∧
    t.cu.liveDelivery = s.cu.liveDelivery ∧
    t.cu.frozen = s.cu.frozen ∧
    t.de.staging = s.de.staging ∧
    t.de.rings = s.de.rings ∧
    t.de.statusDirty = s.de.statusDirty ∧
    t.de.fresh = s.de.fresh ∧
    t.de.arming = s.de.arming ∧
    t.de.flight = s.de.flight ∧
    t.de.lastPage = s.de.lastPage ∧
    (∀ k : PageId, t.de.pages[k.val].faulted = s.de.pages[k.val].faulted) from H _ rfl
  intro t ht
  simp only [State.startLoad] at ht
  subst ht
  simp +contextual [State.ls, State.sru, State.gzu, State.copies, State.page, State.ring, State.staging, State.window, State.liveDelivery, State.liveLine, State.liveCal, State.markLine, State.markPart, modLs_lines_other, modSru_lines_other, modGzu_lines_other, modCopies_lines_other]

@[simp] theorem loadDone_parts (s : State) (x : Load) :
    (s.loadDone x).cu.liveWindows = s.cu.liveWindows ∧
    (s.loadDone x).cu.liveDelivery = s.cu.liveDelivery ∧
    (s.loadDone x).cu.frozen = s.cu.frozen ∧
    (∀ k : LineId, (s.loadDone x).cu.lines[k.val].liveLine = s.cu.lines[k.val].liveLine) ∧
    (∀ k : LineId, (s.loadDone x).cu.lines[k.val].liveCal = s.cu.lines[k.val].liveCal) ∧
    (∀ k : LineId, (s.loadDone x).cu.lines[k.val].pendingLine = s.cu.lines[k.val].pendingLine) ∧
    (∀ k : LineId, (s.loadDone x).cu.lines[k.val].pendingCal = s.cu.lines[k.val].pendingCal) ∧
    (s.loadDone x).nu.ms = s.nu.ms ∧
    (s.loadDone x).nu.outstanding = s.nu.outstanding ∧
    (s.loadDone x).nu.sequence = s.nu.sequence ∧
    (s.loadDone x).de.staging = s.de.staging ∧
    (s.loadDone x).de.rings = s.de.rings ∧
    (s.loadDone x).de.fresh = s.de.fresh ∧
    (s.loadDone x).de.arming = s.de.arming ∧
    (s.loadDone x).de.flight = s.de.flight ∧
    (s.loadDone x).de.lastPage = s.de.lastPage ∧
    (∀ k : PageId, (s.loadDone x).de.pages[k.val].faulted = s.de.pages[k.val].faulted) := by
  simp only [State.loadDone, State.markLoadStatus]
  simp +contextual [State.ls, State.sru, State.gzu, State.copies, State.page, State.ring, State.staging, State.window, State.liveDelivery, State.liveLine, State.liveCal, State.markLine, State.markPart, modLs_lines_other, modSru_lines_other, modGzu_lines_other, modCopies_lines_other]
  (repeat' split) <;> simp

@[simp] theorem loadAbandoned_parts (s : State) (x : Load) (off : Nat) :
    (s.loadAbandoned x off).cu.lines = s.cu.lines ∧
    (s.loadAbandoned x off).cu.liveWindows = s.cu.liveWindows ∧
    (s.loadAbandoned x off).cu.liveDelivery = s.cu.liveDelivery ∧
    (s.loadAbandoned x off).cu.frozen = s.cu.frozen ∧
    (s.loadAbandoned x off).nu.ms = s.nu.ms ∧
    (s.loadAbandoned x off).nu.outstanding = s.nu.outstanding ∧
    (s.loadAbandoned x off).nu.sequence = s.nu.sequence ∧
    (s.loadAbandoned x off).de.staging = s.de.staging ∧
    (s.loadAbandoned x off).de.rings = s.de.rings ∧
    (s.loadAbandoned x off).de.fresh = s.de.fresh ∧
    (s.loadAbandoned x off).de.arming = s.de.arming ∧
    (s.loadAbandoned x off).de.flight = s.de.flight ∧
    (s.loadAbandoned x off).de.lastPage = s.de.lastPage ∧
    (∀ k : PageId, (s.loadAbandoned x off).de.pages[k.val].faulted = s.de.pages[k.val].faulted) := by
  simp only [State.loadAbandoned, State.markLoadStatus]
  simp +contextual [State.ls, State.sru, State.gzu, State.copies, State.page, State.ring, State.staging, State.window, State.liveDelivery, State.liveLine, State.liveCal, State.markLine, State.markPart, modLs_lines_other, modSru_lines_other, modGzu_lines_other, modCopies_lines_other]
  (repeat' split) <;> simp

@[simp] theorem loadRead_parts (s : State) (off : Nat) (err : Bool) (d : Word) :
    (s.loadRead off err d).cu.liveWindows = s.cu.liveWindows ∧
    (s.loadRead off err d).cu.liveDelivery = s.cu.liveDelivery ∧
    (s.loadRead off err d).cu.frozen = s.cu.frozen ∧
    (∀ k : LineId, (s.loadRead off err d).cu.lines[k.val].liveLine = s.cu.lines[k.val].liveLine) ∧
    (∀ k : LineId, (s.loadRead off err d).cu.lines[k.val].liveCal = s.cu.lines[k.val].liveCal) ∧
    (∀ k : LineId, (s.loadRead off err d).cu.lines[k.val].pendingLine = s.cu.lines[k.val].pendingLine) ∧
    (∀ k : LineId, (s.loadRead off err d).cu.lines[k.val].pendingCal = s.cu.lines[k.val].pendingCal) ∧
    (s.loadRead off err d).nu.ms = s.nu.ms ∧
    (s.loadRead off err d).nu.outstanding = s.nu.outstanding ∧
    (s.loadRead off err d).nu.sequence = s.nu.sequence ∧
    (s.loadRead off err d).de.staging = s.de.staging ∧
    (s.loadRead off err d).de.rings = s.de.rings ∧
    (s.loadRead off err d).de.fresh = s.de.fresh ∧
    (s.loadRead off err d).de.arming = s.de.arming ∧
    (s.loadRead off err d).de.flight = s.de.flight ∧
    (s.loadRead off err d).de.lastPage = s.de.lastPage ∧
    (∀ k : PageId, (s.loadRead off err d).de.pages[k.val].faulted = s.de.pages[k.val].faulted) := by
  suffices H : ∀ t : State, t = (s.loadRead off err d) →
    t.cu.liveWindows = s.cu.liveWindows ∧
    t.cu.liveDelivery = s.cu.liveDelivery ∧
    t.cu.frozen = s.cu.frozen ∧
    (∀ k : LineId, t.cu.lines[k.val].liveLine = s.cu.lines[k.val].liveLine) ∧
    (∀ k : LineId, t.cu.lines[k.val].liveCal = s.cu.lines[k.val].liveCal) ∧
    (∀ k : LineId, t.cu.lines[k.val].pendingLine = s.cu.lines[k.val].pendingLine) ∧
    (∀ k : LineId, t.cu.lines[k.val].pendingCal = s.cu.lines[k.val].pendingCal) ∧
    t.nu.ms = s.nu.ms ∧
    t.nu.outstanding = s.nu.outstanding ∧
    t.nu.sequence = s.nu.sequence ∧
    t.de.staging = s.de.staging ∧
    t.de.rings = s.de.rings ∧
    t.de.fresh = s.de.fresh ∧
    t.de.arming = s.de.arming ∧
    t.de.flight = s.de.flight ∧
    t.de.lastPage = s.de.lastPage ∧
    (∀ k : PageId, t.de.pages[k.val].faulted = s.de.pages[k.val].faulted) from H _ rfl
  intro t ht
  simp only [State.loadRead] at ht
  (repeat' split at ht) <;> subst ht <;> simp

@[simp] theorem capture_parts (s : State) (sec : SectionId) (off : Nat) (be : BitVec 4) (d : Word) :
    (s.capture sec off be d).cu.state = s.cu.state ∧
    (s.capture sec off be d).cu.liveWindows = s.cu.liveWindows ∧
    (s.capture sec off be d).cu.liveDelivery = s.cu.liveDelivery ∧
    (s.capture sec off be d).cu.frozen = s.cu.frozen ∧
    (∀ k : LineId, (s.capture sec off be d).cu.lines[k.val].liveLine = s.cu.lines[k.val].liveLine) ∧
    (∀ k : LineId, (s.capture sec off be d).cu.lines[k.val].liveCal = s.cu.lines[k.val].liveCal) ∧
    (∀ k : LineId, (s.capture sec off be d).cu.lines[k.val].pendingLine = s.cu.lines[k.val].pendingLine) ∧
    (∀ k : LineId, (s.capture sec off be d).cu.lines[k.val].pendingCal = s.cu.lines[k.val].pendingCal) := by
  suffices H : ∀ t : State, t = (s.capture sec off be d) →
    t.cu.state = s.cu.state ∧
    t.cu.liveWindows = s.cu.liveWindows ∧
    t.cu.liveDelivery = s.cu.liveDelivery ∧
    t.cu.frozen = s.cu.frozen ∧
    (∀ k : LineId, t.cu.lines[k.val].liveLine = s.cu.lines[k.val].liveLine) ∧
    (∀ k : LineId, t.cu.lines[k.val].liveCal = s.cu.lines[k.val].liveCal) ∧
    (∀ k : LineId, t.cu.lines[k.val].pendingLine = s.cu.lines[k.val].pendingLine) ∧
    (∀ k : LineId, t.cu.lines[k.val].pendingCal = s.cu.lines[k.val].pendingCal) from H _ rfl
  intro t ht
  simp only [State.capture] at ht
  subst ht
  simp

@[simp] theorem takePartial_parts (s : State) (be : BitVec 4) (d : Word) :
    (s.takePartial be d).cu.state = s.cu.state ∧
    (s.takePartial be d).cu.lines = s.cu.lines ∧
    (s.takePartial be d).cu.liveWindows = s.cu.liveWindows ∧
    (s.takePartial be d).cu.liveDelivery = s.cu.liveDelivery ∧
    (s.takePartial be d).cu.frozen = s.cu.frozen ∧
    (s.takePartial be d).cu.load = s.cu.load ∧
    (s.takePartial be d).de.staging = s.de.staging ∧
    (s.takePartial be d).de.rings = s.de.rings ∧
    (s.takePartial be d).de.fresh = s.de.fresh ∧
    (s.takePartial be d).de.arming = s.de.arming ∧
    (s.takePartial be d).de.flight = s.de.flight ∧
    (s.takePartial be d).de.lastPage = s.de.lastPage ∧
    (∀ k : PageId, (s.takePartial be d).de.pages[k.val].faulted = s.de.pages[k.val].faulted) := by
  suffices H : ∀ t : State, t = (s.takePartial be d) →
    t.cu.state = s.cu.state ∧
    t.cu.lines = s.cu.lines ∧
    t.cu.liveWindows = s.cu.liveWindows ∧
    t.cu.liveDelivery = s.cu.liveDelivery ∧
    t.cu.frozen = s.cu.frozen ∧
    t.cu.load = s.cu.load ∧
    t.de.staging = s.de.staging ∧
    t.de.rings = s.de.rings ∧
    t.de.fresh = s.de.fresh ∧
    t.de.arming = s.de.arming ∧
    t.de.flight = s.de.flight ∧
    t.de.lastPage = s.de.lastPage ∧
    (∀ k : PageId, t.de.pages[k.val].faulted = s.de.pages[k.val].faulted) from H _ rfl
  intro t ht
  simp only [State.takePartial] at ht
  subst ht
  simp

@[simp] theorem pageEnded_parts (s : State) (p : PageId) :
    (s.pageEnded p).cu.lines = s.cu.lines ∧
    (s.pageEnded p).cu.liveWindows = s.cu.liveWindows ∧
    (s.pageEnded p).cu.liveDelivery = s.cu.liveDelivery ∧
    (s.pageEnded p).cu.frozen = s.cu.frozen ∧
    (s.pageEnded p).cu.load = s.cu.load ∧
    (s.pageEnded p).de.staging = s.de.staging ∧
    (s.pageEnded p).de.rings = s.de.rings ∧
    (s.pageEnded p).de.statusDirty = s.de.statusDirty ∧
    (s.pageEnded p).de.fresh = s.de.fresh ∧
    (s.pageEnded p).de.arming = s.de.arming ∧
    (s.pageEnded p).de.flight = s.de.flight ∧
    (s.pageEnded p).de.lastPage = s.de.lastPage ∧
    (∀ k : PageId, (s.pageEnded p).de.pages[k.val].faulted = s.de.pages[k.val].faulted) := by
  suffices H : ∀ t : State, t = (s.pageEnded p) →
    t.cu.lines = s.cu.lines ∧
    t.cu.liveWindows = s.cu.liveWindows ∧
    t.cu.liveDelivery = s.cu.liveDelivery ∧
    t.cu.frozen = s.cu.frozen ∧
    t.cu.load = s.cu.load ∧
    t.de.staging = s.de.staging ∧
    t.de.rings = s.de.rings ∧
    t.de.statusDirty = s.de.statusDirty ∧
    t.de.fresh = s.de.fresh ∧
    t.de.arming = s.de.arming ∧
    t.de.flight = s.de.flight ∧
    t.de.lastPage = s.de.lastPage ∧
    (∀ k : PageId, t.de.pages[k.val].faulted = s.de.pages[k.val].faulted) from H _ rfl
  intro t ht
  simp only [State.pageEnded] at ht
  (repeat' split at ht) <;> subst ht <;> simp +contextual [State.ls, State.sru, State.gzu, State.copies, State.page, State.ring, State.staging, State.window, State.liveDelivery, State.liveLine, State.liveCal, State.markLine, State.markPart, modLs_lines_other, modSru_lines_other, modGzu_lines_other, modCopies_lines_other]

@[simp] theorem grantHost_parts (s : State) (n : Nat) :
    (s.grantHost n).mp.inReset = s.mp.inReset ∧
    (s.grantHost n).mp.resetCounted = s.mp.resetCounted ∧
    (s.grantHost n).mp.resets = s.mp.resets ∧
    (s.grantHost n).mp.completion = s.mp.completion := by
  simp only [State.grantHost, State.modMp]
  (repeat' split) <;> simp

@[simp] theorem retestRead_parts (s : State) :
    s.retestRead.mp.port = s.mp.port ∧
    s.retestRead.mp.passed = s.mp.passed ∧
    s.retestRead.mp.inReset = s.mp.inReset ∧
    s.retestRead.mp.resetCounted = s.mp.resetCounted ∧
    s.retestRead.mp.resets = s.mp.resets ∧
    s.retestRead.mp.completion = s.mp.completion := by
  simp only [State.retestRead, State.setRequest, State.modMp]
  (repeat' split) <;> simp

@[simp] theorem releaseHeld_parts (s : State) :
    s.releaseHeld.mp.port = s.mp.port ∧
    s.releaseHeld.mp.passed = s.mp.passed ∧
    s.releaseHeld.mp.inReset = s.mp.inReset ∧
    s.releaseHeld.mp.resetCounted = s.mp.resetCounted := by
  simp only [State.releaseHeld, State.setRequest, State.modMp]
  (repeat' split) <;> simp

@[simp] theorem putFlightWord_parts (s : State) :
    s.putFlightWord.mp.request = s.mp.request ∧
    s.putFlightWord.mp.inReset = s.mp.inReset ∧
    s.putFlightWord.mp.resetCounted = s.mp.resetCounted ∧
    s.putFlightWord.mp.resets = s.mp.resets ∧
    s.putFlightWord.mp.completion = s.mp.completion := by
  simp only [State.putFlightWord, State.putDe, State.modMp]
  (repeat' split) <;> simp

@[simp] theorem takeFlight_parts (n : Nu) :
    n.takeFlight.ms = n.ms ∧ n.takeFlight.outstanding = n.outstanding ∧ n.takeFlight.sequence = n.sequence ∧
    n.takeFlight.attn = n.attn := by
  simp only [Nu.takeFlight]
  (repeat' split) <;> simp

@[simp] theorem beginFlight_parts (s : State) (f : Flight) :
    (s.beginFlight f).de = { s.de with flight := some f } ∧
    (s.beginFlight f).mp.inReset = s.mp.inReset ∧
    (s.beginFlight f).mp.resetCounted = s.mp.resetCounted ∧
    (s.beginFlight f).mp.resets = s.mp.resets ∧
    (s.beginFlight f).mp.completion = s.mp.completion := by
  simp only [State.beginFlight]
  simp [State.modDe]

@[simp] theorem beginWork_parts (s : State) (w : DeWork) :
    (s.beginWork w).de.staging = s.de.staging ∧
    (s.beginWork w).de.rings = s.de.rings ∧
    (s.beginWork w).de.arming = s.de.arming ∧
    (s.beginWork w).nu.ms = s.nu.ms ∧
    (s.beginWork w).nu.outstanding = s.nu.outstanding ∧
    (s.beginWork w).nu.sequence = s.nu.sequence ∧
    (s.beginWork w).wu.base = s.wu.base ∧
    (s.beginWork w).wu.attendance = s.wu.attendance ∧
    (s.beginWork w).wu.ownedHits = s.wu.ownedHits ∧
    (s.beginWork w).mp.inReset = s.mp.inReset ∧
    (s.beginWork w).mp.resetCounted = s.mp.resetCounted ∧
    (s.beginWork w).mp.resets = s.mp.resets ∧
    (s.beginWork w).mp.completion = s.mp.completion ∧
    (∀ k : PageId, (s.beginWork w).de.pages[k.val].faulted = s.de.pages[k.val].faulted) := by
  cases w with
  | page p => simp [State.beginWork, State.beginPage, State.modDe, modPage_faulted]
  | fresh w => cases w <;> simp [State.beginWork, State.issueRefresh, State.clearMatched, State.modDe, State.putDe, State.modMp, State.modWu]
  | flightWord => simp [State.beginWork, State.modMp]
  | indexReset r => simp [State.beginWork, State.putDe, State.modMp]
  | commandStatus => simp [State.beginWork, State.issueStatus, State.putDe, State.modMp, State.modDe]
  | loadRead off => simp [State.beginWork, State.putDe, State.modMp]
  | notice e => simp [State.beginWork, State.beginNotice]
  | profile l g => simp [State.beginWork, State.beginProfile]

@[simp] theorem grantDe_parts (s : State) :
    s.grantDe.de.staging = s.de.staging ∧
    s.grantDe.de.rings = s.de.rings ∧
    s.grantDe.de.arming = s.de.arming ∧
    s.grantDe.nu.ms = s.nu.ms ∧
    s.grantDe.nu.outstanding = s.nu.outstanding ∧
    s.grantDe.nu.sequence = s.nu.sequence ∧
    s.grantDe.wu.base = s.wu.base ∧
    s.grantDe.wu.attendance = s.wu.attendance ∧
    s.grantDe.wu.ownedHits = s.wu.ownedHits ∧
    s.grantDe.mp.inReset = s.mp.inReset ∧
    s.grantDe.mp.resetCounted = s.mp.resetCounted ∧
    s.grantDe.mp.resets = s.mp.resets ∧
    s.grantDe.mp.completion = s.mp.completion ∧
    (∀ k : PageId, s.grantDe.de.pages[k.val].faulted = s.de.pages[k.val].faulted) := by
  suffices H : ∀ t : State, t = s.grantDe →
    t.de.staging = s.de.staging ∧
    t.de.rings = s.de.rings ∧
    t.de.arming = s.de.arming ∧
    t.nu.ms = s.nu.ms ∧
    t.nu.outstanding = s.nu.outstanding ∧
    t.nu.sequence = s.nu.sequence ∧
    t.wu.base = s.wu.base ∧
    t.wu.attendance = s.wu.attendance ∧
    t.wu.ownedHits = s.wu.ownedHits ∧
    t.mp.inReset = s.mp.inReset ∧
    t.mp.resetCounted = s.mp.resetCounted ∧
    t.mp.resets = s.mp.resets ∧
    t.mp.completion = s.mp.completion ∧
    (∀ k : PageId, t.de.pages[k.val].faulted = s.de.pages[k.val].faulted) from H _ rfl
  intro t ht
  simp only [State.grantDe] at ht
  (repeat' split at ht) <;> subst ht <;> simp

@[simp] theorem arbitrate_parts (s : State) :
    s.arbitrate.de.staging = s.de.staging ∧
    s.arbitrate.de.rings = s.de.rings ∧
    s.arbitrate.de.arming = s.de.arming ∧
    s.arbitrate.nu.ms = s.nu.ms ∧
    s.arbitrate.nu.outstanding = s.nu.outstanding ∧
    s.arbitrate.nu.sequence = s.nu.sequence ∧
    s.arbitrate.wu.base = s.wu.base ∧
    s.arbitrate.wu.attendance = s.wu.attendance ∧
    s.arbitrate.wu.ownedHits = s.wu.ownedHits ∧
    s.arbitrate.mp.inReset = s.mp.inReset ∧
    s.arbitrate.mp.resetCounted = s.mp.resetCounted ∧
    s.arbitrate.mp.resets = s.mp.resets ∧
    s.arbitrate.mp.completion = s.mp.completion ∧
    (∀ k : PageId, s.arbitrate.de.pages[k.val].faulted = s.de.pages[k.val].faulted) := by
  suffices H : ∀ t : State, t = s.arbitrate →
    t.de.staging = s.de.staging ∧
    t.de.rings = s.de.rings ∧
    t.de.arming = s.de.arming ∧
    t.nu.ms = s.nu.ms ∧
    t.nu.outstanding = s.nu.outstanding ∧
    t.nu.sequence = s.nu.sequence ∧
    t.wu.base = s.wu.base ∧
    t.wu.attendance = s.wu.attendance ∧
    t.wu.ownedHits = s.wu.ownedHits ∧
    t.mp.inReset = s.mp.inReset ∧
    t.mp.resetCounted = s.mp.resetCounted ∧
    t.mp.resets = s.mp.resets ∧
    t.mp.completion = s.mp.completion ∧
    (∀ k : PageId, t.de.pages[k.val].faulted = s.de.pages[k.val].faulted) from H _ rfl
  intro t ht
  simp only [State.arbitrate] at ht
  (repeat' split at ht) <;> subst ht <;> simp

@[simp] theorem endFlight_parts (s : State) :
    s.endFlight.de.staging = s.de.staging ∧
    s.endFlight.de.rings = s.de.rings ∧
    s.endFlight.de.statusDirty = s.de.statusDirty ∧
    s.endFlight.de.fresh = s.de.fresh ∧
    s.endFlight.de.arming = s.de.arming ∧
    s.endFlight.de.lastPage = s.de.lastPage ∧
    (∀ k : PageId, s.endFlight.de.pages[k.val].faulted = s.de.pages[k.val].faulted) := by
  suffices H : ∀ t : State, t = s.endFlight →
    t.de.staging = s.de.staging ∧
    t.de.rings = s.de.rings ∧
    t.de.statusDirty = s.de.statusDirty ∧
    t.de.fresh = s.de.fresh ∧
    t.de.arming = s.de.arming ∧
    t.de.lastPage = s.de.lastPage ∧
    (∀ k : PageId, t.de.pages[k.val].faulted = s.de.pages[k.val].faulted) from H _ rfl
  intro t ht
  simp only [State.endFlight] at ht
  subst ht
  simp

@[simp] theorem advanceW_parts (s : State) (r : RingId) :
    (s.advanceW r).de.staging = s.de.staging ∧
    (s.advanceW r).de.statusDirty = s.de.statusDirty ∧
    (s.advanceW r).de.fresh = s.de.fresh ∧
    (s.advanceW r).de.arming = s.de.arming ∧
    (s.advanceW r).de.flight = s.de.flight ∧
    (s.advanceW r).de.lastPage = s.de.lastPage ∧
    (∀ k : PageId, (s.advanceW r).de.pages[k.val].faulted = s.de.pages[k.val].faulted) := by
  suffices H : ∀ t : State, t = (s.advanceW r) →
    t.de.staging = s.de.staging ∧
    t.de.statusDirty = s.de.statusDirty ∧
    t.de.fresh = s.de.fresh ∧
    t.de.arming = s.de.arming ∧
    t.de.flight = s.de.flight ∧
    t.de.lastPage = s.de.lastPage ∧
    (∀ k : PageId, t.de.pages[k.val].faulted = s.de.pages[k.val].faulted) from H _ rfl
  intro t ht
  simp only [State.advanceW] at ht
  subst ht
  simp

@[simp] theorem profileDelivered_parts (s : State) (l : LineId) :
    (s.profileDelivered l).de.statusDirty = s.de.statusDirty ∧
    (s.profileDelivered l).de.fresh = s.de.fresh ∧
    (s.profileDelivered l).de.arming = s.de.arming ∧
    (s.profileDelivered l).de.flight = s.de.flight ∧
    (s.profileDelivered l).de.lastPage = s.de.lastPage ∧
    (∀ k : PageId, (s.profileDelivered l).de.pages[k.val].faulted = s.de.pages[k.val].faulted) ∧
    (s.profileDelivered l).nu.ms = s.nu.ms ∧
    (s.profileDelivered l).nu.outstanding = s.nu.outstanding ∧
    (s.profileDelivered l).nu.sequence = s.nu.sequence := by
  suffices H : ∀ t : State, t = (s.profileDelivered l) →
    t.de.statusDirty = s.de.statusDirty ∧
    t.de.fresh = s.de.fresh ∧
    t.de.arming = s.de.arming ∧
    t.de.flight = s.de.flight ∧
    t.de.lastPage = s.de.lastPage ∧
    (∀ k : PageId, t.de.pages[k.val].faulted = s.de.pages[k.val].faulted) ∧
    t.nu.ms = s.nu.ms ∧
    t.nu.outstanding = s.nu.outstanding ∧
    t.nu.sequence = s.nu.sequence from H _ rfl
  intro t ht
  simp only [State.profileDelivered] at ht
  (repeat' split at ht) <;> subst ht <;> simp +contextual [State.ls, State.sru, State.gzu, State.copies, State.page, State.ring, State.staging, State.window, State.liveDelivery, State.liveLine, State.liveCal, State.markLine, State.markPart, modLs_lines_other, modSru_lines_other, modGzu_lines_other, modCopies_lines_other]

@[simp] theorem deliver_parts (s : State) (r : RingId) :
    (s.deliver r).de.statusDirty = s.de.statusDirty ∧
    (s.deliver r).de.fresh = s.de.fresh ∧
    (s.deliver r).de.arming = s.de.arming ∧
    (s.deliver r).de.lastPage = s.de.lastPage ∧
    (∀ k : PageId, (s.deliver r).de.pages[k.val].faulted = s.de.pages[k.val].faulted) ∧
    (s.deliver r).nu.ms = s.nu.ms := by
  suffices H : ∀ t : State, t = (s.deliver r) →
    t.de.statusDirty = s.de.statusDirty ∧
    t.de.fresh = s.de.fresh ∧
    t.de.arming = s.de.arming ∧
    t.de.lastPage = s.de.lastPage ∧
    (∀ k : PageId, t.de.pages[k.val].faulted = s.de.pages[k.val].faulted) ∧
    t.nu.ms = s.nu.ms from H _ rfl
  intro t ht
  simp only [State.deliver] at ht
  (repeat' split at ht) <;> subst ht <;> simp

@[simp] theorem faultRing_parts (s : State) (r : RingId) :
    (s.faultRing r).de.staging = s.de.staging ∧
    (s.faultRing r).de.statusDirty = s.de.statusDirty ∧
    (s.faultRing r).de.fresh = s.de.fresh ∧
    (s.faultRing r).de.arming = s.de.arming ∧
    (s.faultRing r).de.flight = s.de.flight ∧
    (s.faultRing r).de.lastPage = s.de.lastPage ∧
    (∀ k : PageId, (s.faultRing r).de.pages[k.val].faulted = s.de.pages[k.val].faulted) := by
  suffices H : ∀ t : State, t = (s.faultRing r) →
    t.de.staging = s.de.staging ∧
    t.de.statusDirty = s.de.statusDirty ∧
    t.de.fresh = s.de.fresh ∧
    t.de.arming = s.de.arming ∧
    t.de.flight = s.de.flight ∧
    t.de.lastPage = s.de.lastPage ∧
    (∀ k : PageId, t.de.pages[k.val].faulted = s.de.pages[k.val].faulted) from H _ rfl
  intro t ht
  simp only [State.faultRing] at ht
  subst ht
  simp

@[simp] theorem recordFault_parts (s : State) (r : RingId) (d : Nat) :
    (s.recordFault r d).de.statusDirty = s.de.statusDirty ∧
    (s.recordFault r d).de.fresh = s.de.fresh ∧
    (s.recordFault r d).de.arming = s.de.arming ∧
    (s.recordFault r d).de.lastPage = s.de.lastPage ∧
    (∀ k : PageId, (s.recordFault r d).de.pages[k.val].faulted = s.de.pages[k.val].faulted) ∧
    (s.recordFault r d).nu.ms = s.nu.ms ∧
    (s.recordFault r d).nu.outstanding = s.nu.outstanding ∧
    (s.recordFault r d).nu.sequence = s.nu.sequence := by
  suffices H : ∀ t : State, t = (s.recordFault r d) →
    t.de.statusDirty = s.de.statusDirty ∧
    t.de.fresh = s.de.fresh ∧
    t.de.arming = s.de.arming ∧
    t.de.lastPage = s.de.lastPage ∧
    (∀ k : PageId, t.de.pages[k.val].faulted = s.de.pages[k.val].faulted) ∧
    t.nu.ms = s.nu.ms ∧
    t.nu.outstanding = s.nu.outstanding ∧
    t.nu.sequence = s.nu.sequence from H _ rfl
  intro t ht
  simp only [State.recordFault] at ht
  (repeat' split at ht) <;> subst ht <;> simp +contextual [State.ls, State.sru, State.gzu, State.copies, State.page, State.ring, State.staging, State.window, State.liveDelivery, State.liveLine, State.liveCal, State.markLine, State.markPart, modLs_lines_other, modSru_lines_other, modGzu_lines_other, modCopies_lines_other]

@[simp] theorem pageFault_parts (s : State) (p : PageId) :
    (s.pageFault p).de.staging = s.de.staging ∧
    (s.pageFault p).de.rings = s.de.rings ∧
    (s.pageFault p).de.statusDirty = s.de.statusDirty ∧
    (s.pageFault p).de.fresh = s.de.fresh ∧
    (s.pageFault p).de.arming = s.de.arming ∧
    (s.pageFault p).de.lastPage = s.de.lastPage ∧
    (s.pageFault p).nu.ms = s.nu.ms ∧
    (s.pageFault p).nu.outstanding = s.nu.outstanding ∧
    (s.pageFault p).nu.sequence = s.nu.sequence ∧
    (s.pageFault p).cu.lines = s.cu.lines ∧
    (s.pageFault p).cu.liveWindows = s.cu.liveWindows ∧
    (s.pageFault p).cu.liveDelivery = s.cu.liveDelivery ∧
    (s.pageFault p).cu.frozen = s.cu.frozen ∧
    (s.pageFault p).cu.load = s.cu.load := by
  suffices H : ∀ t : State, t = (s.pageFault p) →
    t.de.staging = s.de.staging ∧
    t.de.rings = s.de.rings ∧
    t.de.statusDirty = s.de.statusDirty ∧
    t.de.fresh = s.de.fresh ∧
    t.de.arming = s.de.arming ∧
    t.de.lastPage = s.de.lastPage ∧
    t.nu.ms = s.nu.ms ∧
    t.nu.outstanding = s.nu.outstanding ∧
    t.nu.sequence = s.nu.sequence ∧
    t.cu.lines = s.cu.lines ∧
    t.cu.liveWindows = s.cu.liveWindows ∧
    t.cu.liveDelivery = s.cu.liveDelivery ∧
    t.cu.frozen = s.cu.frozen ∧
    t.cu.load = s.cu.load from H _ rfl
  intro t ht
  simp only [State.pageFault] at ht
  (repeat' split at ht) <;> subst ht <;> simp


end Sys2Proof.Machine
end

