-- ==== Sys2Proof/Laws/Arbiter.lean ====
section
/-! SUPPORT. What the arbiter of R130 does with the port: the hold test applied again, the access of each work of the
Delivery Engine, the grant by the table, and the grant at the end of an action. -/

namespace Sys2Proof.Machine
open Sys2Proof

/-! ## The hold test applied again (R125, R126) -/

/-- A WAITING read that is now covered is HELD; nothing else differs (R125). -/
theorem retestRead_spec {u t : State} (ht : u.retestRead = t) :
    retested u t ∧ t = { u with mp := { u.mp with request := t.mp.request } } := by
  have hc : ∀ v : State, v.de = u.de → v.wu = u.wu → ∀ a, covered v a ↔ covered u a := fun v h h' a => by
    rw [← holdTest_iff, ← holdTest_iff]
    simp only [State.holdTest, State.areaOffset, State.ring, h, h']
  simp only [State.retestRead] at ht
  split at ht
  · rename_i r hr
    split at ht
    · rename_i hh
      subst ht
      have hw : r.access.write = false ∧ r.fresh = none := by simpa [Request.holdable] using hh.2.1
      refine ⟨⟨fun hn => (by rw [hr] at hn; cases hn), fun r' h' => ?_⟩, rfl⟩
      rw [hr] at h'; cases h'
      exact ⟨fun _ => rfl, fun hn => absurd ⟨hh.1, hw.1, hw.2, (hc _ rfl rfl _).mpr (holdTest_iff.mp hh.2.2)⟩ hn⟩
    · rename_i hh
      subst ht
      refine ⟨⟨fun hn => hn, fun r' h' => ?_⟩, rfl⟩
      rw [hr] at h'; cases h'
      refine ⟨fun hn => absurd ⟨hn.1, ?_, holdTest_iff.mpr hn.2.2.2⟩ hh, fun _ => hr⟩
      simp [Request.holdable, hn.2.1, hn.2.2.1]
  · rename_i hr
    subst ht
    exact ⟨⟨fun hn => hn, fun r' h' => by rw [hr] at h'; cases h'⟩, rfl⟩

/-- A HELD read that is covered no more is WAITING; nothing else differs (R126). -/
theorem releaseHeld_spec {u t : State} (ht : u.releaseHeld = t) :
    released u t ∧ t = { u with mp := { u.mp with request := t.mp.request } } := by
  have hc : ∀ v : State, v.de = u.de → v.wu = u.wu → ∀ a, covered v a ↔ covered u a := fun v h h' a => by
    rw [← holdTest_iff, ← holdTest_iff]
    simp only [State.holdTest, State.areaOffset, State.ring, h, h']
  simp only [State.releaseHeld] at ht
  split at ht
  · rename_i r hr
    split at ht
    · rename_i hh
      subst ht
      refine ⟨⟨fun hn => (by rw [hr] at hn; cases hn), fun r' h' => ?_⟩, rfl⟩
      rw [hr] at h'; cases h'
      refine ⟨fun _ => rfl, fun hn => absurd ⟨hh.1, fun x => ?_⟩ hn⟩
      rw [hc _ (by rfl) (by rfl), ← holdTest_iff] at x
      simp [x] at hh
    · rename_i hh
      subst ht
      refine ⟨⟨fun hn => hn, fun r' h' => ?_⟩, rfl⟩
      rw [hr] at h'; cases h'
      refine ⟨fun hn => absurd ⟨hn.1, ?_⟩ hh, fun _ => hr⟩
      cases h : u.holdTest r.access.addr
      · rfl
      · exact absurd (holdTest_iff.mp h) hn.2
  · rename_i hr
    subst ht
    exact ⟨⟨fun hn => hn, fun r' h' => by rw [hr] at h'; cases h'⟩, rfl⟩

/-! ## The access of a grant (R81, R82, R87, R89 to R91) -/

/-- The next word of the write in flight goes on the port, and nothing but the Memory Path changes (R82, R87). -/
theorem putFlightWord_spec {s t : State} (ht : s.putFlightWord = t) :
    flightOnPort t ∧ t.mp = { s.mp with port := t.mp.port, passed := t.mp.passed } ∧ (t.mp.passed = 0 ∨ t.mp.passed = s.mp.passed)
      ∧ t = { s with mp := t.mp } := by
  simp only [State.putFlightWord] at ht
  split at ht
  · rename_i h
    subst ht
    exact ⟨⟨fun _ _ _ _ h' => (by rw [h] at h'; cases h'), fun _ _ _ _ h' => (by rw [h] at h'; cases h')⟩, rfl, .inr rfl, rfl⟩
  · rename_i r slot words done h
    split at ht
    · rename_i w hw
      subst ht
      refine ⟨⟨fun r' slot' words' done' h' => ?_, fun _ _ _ _ h' => ?_⟩, rfl, .inl rfl, rfl⟩
      · rw [show (s.putDe .recordWord (s.deWrite (slot + 4 * done) w)).de.flight = s.de.flight from rfl, h] at h'
        cases h'
        exact ⟨fun w' hw' => (by rw [hw] at hw'; cases hw'; rfl), fun hn => (by rw [hw] at hn; cases hn)⟩
      · rw [show (s.putDe .recordWord (s.deWrite (slot + 4 * done) w)).de.flight = s.de.flight from rfl, h] at h'
        cases h'
    · rename_i hw
      subst ht
      refine ⟨⟨fun r' slot' words' done' h' => ?_, fun _ _ _ _ h' => ?_⟩, rfl, .inl rfl, rfl⟩
      · rw [show (s.putDe .wWord (s.deWrite (wWordOffset r) (s.ring r).nextW)).de.flight = s.de.flight from rfl, h] at h'
        cases h'
        exact ⟨fun w' hw' => (by rw [hw] at hw'; cases hw'), fun _ => rfl⟩
      · rw [show (s.putDe .wWord (s.deWrite (wWordOffset r) (s.ring r).nextW)).de.flight = s.de.flight from rfl, h] at h'
        cases h'
  · rename_i p words done h
    split at ht
    · rename_i w hw
      subst ht
      refine ⟨⟨fun _ _ _ _ h' => ?_, fun _ _ _ x h' hx => ?_⟩, rfl, .inl rfl, rfl⟩
      · rw [show (s.putDe .pageWord (s.deWrite w.1 w.2)).de.flight = s.de.flight from rfl, h] at h'
        cases h'
      · rw [show (s.putDe .pageWord (s.deWrite w.1 w.2)).de.flight = s.de.flight from rfl, h] at h'
        cases h'; rw [hw] at hx; cases hx; rfl
    · rename_i hw
      subst ht
      exact ⟨⟨fun _ _ _ _ h' => (by rw [h] at h'; cases h'), fun _ _ _ x h' hx => (by
        rw [h] at h'; cases h'; rw [hw] at hx; cases hx)⟩, rfl, .inr rfl, rfl⟩

/-- A write that begins is in flight, its first word on the port, and a WAITING read it covers is HELD (R82, R87,
R125). -/
theorem beginFlight_spec {u t : State} {f : Flight} (ht : u.beginFlight f = t)
    (hf : (∃ r slot words, f = .record r slot words 0) ∨ ∃ p w words, f = .page p (w :: words) 0) :
    t.de = { u.de with flight := some f } ∧ flightOnPort t ∧ retested u t
      ∧ t.mp = { u.mp with port := t.mp.port, passed := 0, request := t.mp.request }
      ∧ t = { u with de := t.de, mp := t.mp } := by
  obtain ⟨a, b⟩ := retestRead_spec (u := (u.modDe fun d => { d with flight := some f }).putFlightWord) (t := t) ht
  obtain ⟨c, d, _, e⟩ := putFlightWord_spec (s := u.modDe fun d => { d with flight := some f })
    (t := (u.modDe fun d => { d with flight := some f }).putFlightWord) rfl
  have hp : (u.modDe fun d => { d with flight := some f }).putFlightWord.mp.passed = 0 := by
    simp only [State.putFlightWord, State.modDe]
    rcases hf with ⟨r, slot, words, rfl⟩ | ⟨p, w, words, rfl⟩
    · simp only []
      split <;> rfl
    · rfl
  generalize (u.modDe fun d => { d with flight := some f }).putFlightWord = v at *
  have hde : t.de = { u.de with flight := some f } := by rw [b]; simp only []; rw [e]; rfl
  have hwu : t.wu = v.wu := by rw [b]
  have hport : t.mp.port = v.mp.port := by rw [b]
  have hr : v.mp.request = u.mp.request := by rw [d]; rfl
  refine ⟨hde, ?_, ?_, ?_, ?_⟩
  · have e1 : t.de = v.de := by rw [b]
    have e2 : ∀ off, t.areaAddr off = v.areaAddr off := fun off => by simp only [State.areaAddr, hwu]
    have e3 : ∀ r, t.ring r = v.ring r := fun r => by simp only [State.ring, e1]
    simp only [flightOnPort, wordOnPort, e1, e2, e3, hport]
    exact c
  · exact ⟨fun h => a.1 (by rw [hr]; exact h), fun r h => a.2 r (by rw [hr]; exact h)⟩
  · rw [b]; simp only []; rw [d]; simp only []; rw [hp]; rfl
  · rw [b, e]; rfl

theorem wordsOf_ne_nil {bs : List Byte} (h : 4 ≤ bs.length) : wordsOf bs ≠ [] := by
  match bs with
  | a :: b :: c :: d :: rest => simp [wordsOf]
  | [] | [_] | [_, _] | [_, _, _] => simp at h

theorem entry_bytes_length (e : Entry) (n : Half) : 4 ≤ (e.bytes n).length := by
  simp [Entry.bytes]
theorem staged_bytes_length (g : Staged) : 4 ≤ g.bytes.length := by
  simp [Staged.bytes, le16]
theorem long_append {x y : List Byte} (h : 4 ≤ x.length) : 4 ≤ (x ++ y).length := by
  rw [List.length_append]; omega
theorem lineBytes_length (s : State) (l : LineId) : 4 ≤ (s.lineBytes l).length := by
  unfold State.lineBytes
  extract_lets
  repeat (with_reducible refine long_append ?_)
  simp only [List.length_cons]; omega
theorem partBytes_length (s : State) : 4 ≤ s.partBytes.length := by
  unfold State.partBytes
  extract_lets
  repeat (with_reducible refine long_append ?_)
  simp only [List.length_cons]; omega
theorem pageBytes_length (s : State) (p : PageId) : 4 ≤ (s.pageBytes p).length := by
  simp only [State.pageBytes]
  split
  · exact lineBytes_length s _
  · exact partBytes_length s

theorem pageSnapshot_ne_nil (s : State) (p : PageId) (b : Bool) : s.pageSnapshot p b ≠ [] := by
  have h := wordsOf_ne_nil (pageBytes_length s p)
  simp only [State.pageSnapshot, placeWords]
  intro e
  rw [List.append_eq_nil_iff] at e
  rcases hw : wordsOf (s.pageBytes p) with _ | ⟨w, rest⟩
  · exact h hw
  · rw [hw] at e; simp [List.zipIdx] at e

/-- The fields of the command status word (R179). -/
theorem word_spec (r : CmdRecord) : statusWord r.word r := by
  have h1 := r.tag.isLt
  have h2 := r.taken.isLt
  have h3 : r.result.code < 16 := by cases r.result <;> decide
  have h4 : r.codeField < 16 := by simp only [CmdRecord.codeField]; split <;> (try split) <;> omega
  have h5 : min r.detail.toNat 255 ≤ 255 := Nat.min_le_right _ _
  have hw : r.word.toNat = r.tag.toNat + 256 * r.taken.toNat + 65536 * r.result.code + 1048576 * r.codeField
      + 16777216 * min r.detail.toNat 255 := by
    simp only [CmdRecord.word, BitVec.toNat_ofNat]
    exact Nat.mod_eq_of_lt (by omega)
  simp only [statusWord, hw]
  refine ⟨by omega, by omega, by omega, fun a b => ?_, fun a => ?_, fun a b => ?_, fun a b => ?_, by omega⟩
  · have e : r.codeField = r.code.toNat := by simp only [CmdRecord.codeField]; rw [if_pos ⟨a, b⟩]
    omega
  · have e : r.codeField = 15 := by
      simp only [CmdRecord.codeField]
      rw [if_neg (by omega), if_neg]
      rintro ⟨c, _⟩
      rw [c] at a
      exact absurd a (by decide)
    omega
  · have e : r.codeField = 0 := by simp [CmdRecord.codeField, a, b]
    omega
  · have e : r.codeField = 15 := by simp [CmdRecord.codeField, a, b]
    omega

/-- Bit k of a number from flags is flag k. -/
theorem bitsOf_testBit (bs : List Bool) (k : Nat) : (bitsOf bs).testBit k = bs.getD k false := by
  induction bs generalizing k with
  | nil => simp [bitsOf]
  | cons b rest ih =>
    cases k with
    | zero => cases b <;> simp [bitsOf, Nat.testBit_zero, Nat.add_mul_mod_self_left]
    | succ k =>
      rw [Nat.testBit_succ, show bitsOf (b :: rest) / 2 = bitsOf rest by cases b <;> simp [bitsOf] <;> omega, ih]
      simp

/-- The value of the activity summary word (R167, R180). -/
theorem freshValue_activity (s : State) :
    (s.freshValue .activity).toNat < 256 ∧ ∀ v : WindowId, (s.freshValue .activity).getLsbD v.val = (s.window v).active := by
  constructor
  · simp only [State.freshValue, BitVec.toNat_ofNat]
    have := s.activityFlags.isLt
    omega
  · intro v
    have h1 : v.val < s.wu.windows.toList.length := by rw [Vector.length_toList]; exact v.isLt
    have h2 : v.val < 32 := Nat.lt_trans v.isLt (by decide)
    have h3 : s.wu.windows.toList[v.val]? = some s.wu.windows[v] := by
      rw [List.getElem?_eq_getElem h1]; rfl
    simp only [State.freshValue, State.activityFlags, byteOf, BitVec.getLsbD_ofNat, BitVec.toNat_ofNat,
      Nat.testBit_mod_two_pow, bitsOf_testBit, State.window]
    simp [List.getD, h2]

/-- Which work the engine order may choose (R86): a notice entry stands at the head of the NU's entries, and the next
word of a write in flight comes while one is in flight. -/
theorem deNext_notice {s : State} {e : Entry} (h : s.deNext = some (.notice e)) : s.nu.nextEntry = some e := by
  have h' : s.nextBeginning = some (.notice e) := by
    simp only [State.deNext] at h
    (repeat' split at h) <;> first | exact h | cases h
  have hn : s.nextNotice = some e := by
    simp only [State.nextBeginning] at h'
    (repeat' split at h') <;> first | (cases h'; assumption) | cases h'
  simp only [State.nextNotice] at hn
  split at hn
  · exact hn
  · cases hn

/-- The NU marks the entry handed over as in flight (R104, R106). -/
theorem takeFlight_spec {n : Nu} {e : Entry} (h : n.nextEntry = some e) :
    (∀ o, n.offer = some o → n.takeFlight = { n with offer := some { o with inFlight := true } })
      ∧ (n.offer = none → n.takeFlight = { n with backlog := n.backlog.map fun b =>
          if b.entry.kind = e.kind ∧ b.entry.source = e.source then { b with inFlight := true } else b }) := by
  refine ⟨fun o ho => by simp only [Nu.takeFlight, ho], fun ho => ?_⟩
  simp only [Nu.nextEntry, ho] at h
  simp only [Nu.takeFlight, ho]
  cases hb : n.nextBacklog with
  | none => rw [hb] at h; cases h
  | some c =>
    rw [hb] at h; cases h
    simp [BacklogEntry.isPair]

/-- A record the DE begins is in flight at the slot of W, its first word on the port (R78, R82). -/
theorem beginRecord_spec {s u t : State} {r : RingId} {words : List Word}
    (ht : u.beginFlight (.record r ((s.ring r).slot r) words 0) = t) (hn : words ≠ []) (hm : u.mp = s.mp)
    (hd : u.de = s.de) : recordBegun s t r (recordSize r.val) words
      ∧ t.mp = { s.mp with port := t.mp.port, passed := 0, request := t.mp.request }
      ∧ t = { u with de := t.de, mp := t.mp } := by
  obtain ⟨a, b, c, d, e⟩ := beginFlight_spec ht (.inl ⟨_, _, _, rfl⟩)
  refine ⟨⟨by rw [a, hd]; rfl, hn, b, ?_⟩, by rw [d, hm], e⟩
  rw [retested, ← hm]
  exact c

/-- The DE's chosen work is on the port at once, and a record or page it begins is in flight (R86, R129, R130). -/
theorem beginWork_spec {s t : State} {w : DeWork} (hw : s.deNext = some w) (ht : s.beginWork w = t) :
    engineBegins s t w := by
  cases w with
  | fresh f =>
    cases f with
    | milliseconds =>
      subst ht
      exact ⟨rfl, rfl, rfl, ⟨rfl, rfl, rfl, rfl⟩, rfl, rfl, rfl, s.nu.ms, rfl, fun _ => ⟨rfl, rfl⟩, fun h => (by cases h)⟩
    | activity =>
      subst ht
      obtain ⟨a, b⟩ := freshValue_activity s
      refine ⟨rfl, rfl, rfl, ⟨rfl, rfl, rfl, rfl⟩, rfl, rfl, rfl, s.freshValue .activity, rfl, fun h => (by cases h),
        fun _ => ⟨a, b, rfl, fun v => ?_⟩⟩
      simp [State.beginWork, State.issueRefresh, State.clearMatched, State.modWu, State.window, State.modDe, State.putDe,
        State.modMp]
  | flightWord =>
    obtain ⟨a, b, c, d⟩ := putFlightWord_spec (s := s.modMp fun m => { m with passed := 0 }) (t := t) ht
    have e : t.mp.passed = 0 := by rcases c with c | c <;> exact c
    refine ⟨by rw [b, e]; rfl, by rw [d]; rfl, by rw [d]; rfl, ⟨by rw [d]; rfl, by rw [d]; rfl, by rw [d]; rfl, by rw [d]; rfl⟩,
      a, by rw [b]; rfl, by rw [d]; rfl, by rw [d]; rfl, by rw [d]; rfl⟩
  | indexReset r =>
    subst ht
    exact ⟨rfl, rfl, rfl, ⟨rfl, rfl, rfl, rfl⟩, rfl, rfl, rfl, rfl, rfl⟩
  | commandStatus =>
    subst ht
    exact ⟨rfl, rfl, rfl, ⟨rfl, rfl, rfl, rfl⟩, ⟨s.cu.record.word, rfl, word_spec _⟩, rfl, rfl, rfl, rfl⟩
  | loadRead off =>
    subst ht
    exact ⟨rfl, rfl, rfl, ⟨rfl, rfl, rfl, rfl⟩, rfl, rfl, rfl, rfl, rfl⟩
  | notice e =>
    obtain ⟨a, b, c⟩ := beginRecord_spec (s := s) (u := s.modNu (·.takeFlight)) (t := t) ht
      (wordsOf_ne_nil (entry_bytes_length e s.nu.sequence)) rfl rfl
    obtain ⟨d, f⟩ := takeFlight_spec (deNext_notice hw)
    have hn : t.nu = s.nu.takeFlight := by rw [c]; rfl
    refine ⟨b, by rw [c]; rfl, by rw [c]; rfl, ⟨by rw [c]; rfl, by rw [c]; rfl, by rw [c]; rfl, by rw [c]; rfl⟩, a,
      by rw [c]; rfl, fun o ho => by rw [hn, d o ho], fun ho => by rw [hn, f ho]⟩
  | profile l g =>
    obtain ⟨a, b, c⟩ := beginRecord_spec (s := s) (u := s) (t := t) ht (wordsOf_ne_nil (staged_bytes_length g)) rfl rfl
    rw [show recordSize (profileRing l).val = 48 from (by decide : ∀ k : LineId, recordSize (profileRing k).val = 48) l] at a
    exact ⟨b, by rw [c], by rw [c], ⟨by rw [c], by rw [c], by rw [c], by rw [c]⟩, a, by rw [c], by rw [c]⟩
  | page p =>
    have hs := pageSnapshot_ne_nil s p (s.firstPartWrite p)
    have hw : ∃ w ws, s.pageSnapshot p (s.firstPartWrite p) = w :: ws := by
      cases h : s.pageSnapshot p (s.firstPartWrite p) with
      | nil => exact absurd h hs
      | cons w ws => exact ⟨w, ws, rfl⟩
    obtain ⟨w, ws, hw⟩ := hw
    obtain ⟨a, b, c, d, e⟩ := beginFlight_spec (u := (s.modPage p fun m => { m with dirty := false }).modDe
      fun d => { d with lastPage := some p }) (t := t) ht (.inr ⟨p, w, ws, by rw [hw]⟩)
    have hp : t.de.pages = (s.modPage p fun m => { m with dirty := false }).de.pages := by rw [a]; rfl
    refine ⟨by rw [d]; rfl, by rw [e]; rfl, by rw [e]; rfl, ⟨by rw [e]; rfl, by rw [e]; rfl, by rw [e]; rfl, by rw [e]; rfl⟩,
      by rw [hp, a]; rfl, ?_, fun q hq => ?_, hs, b, c, by rw [e]; rfl, by rw [e]; rfl⟩
    · show t.de.pages[p] = _
      rw [hp]
      exact modPage_page s p _
    · show t.de.pages[q] = _
      rw [hp]
      exact modPage_other s p q _ hq

/-! ## The grant (R130) -/

/-- The grant to the DE is for the work it has chosen. -/
theorem grantDe_spec {s t : State} {w : DeWork} (hw : s.deNext = some w) (ht : s.grantDe = t) : engineBegins s t w := by
  simp only [State.grantDe, hw] at ht
  exact beginWork_spec hw ht

theorem grantDe_none {s : State} (h : s.deNext = none) : s.grantDe = s := by
  simp only [State.grantDe, h]

/-- A FREE port is granted by the table of R130. -/
theorem arbitrate_spec {u t : State} (hf : u.mp.port = .free) (ht : u.arbitrate = t) : arbitrated u t := by
  refine ⟨hf, fun ha => ?_, fun ha => ⟨fun hr => ⟨fun hn => ?_, fun w hw => ?_⟩, fun r hr hs => ⟨fun hn => ?_, fun hn hp => ?_,
    fun hp w hw => ?_⟩⟩⟩
  all_goals simp only [State.arbitrate, hf] at ht
  · rw [if_pos (armingDue_not.mpr ha)] at ht
    exact ht.symm
  all_goals rw [if_neg (armingDue_false ha)] at ht
  · have hc : u.hostClaims = false := by
      cases h : u.hostClaims
      · rfl
      · obtain ⟨r, a, b⟩ := hostClaims_iff.mp h
        exact absurd b (hr r a)
    simp only [hc, hn] at ht
    exact ht.symm
  · have hc : u.hostClaims = false := by
      cases h : u.hostClaims
      · rfl
      · obtain ⟨r, a, b⟩ := hostClaims_iff.mp h
        exact absurd b (hr r a)
    simp only [hc, hw] at ht
    exact grantDe_spec hw ht
  all_goals have hc := hostClaims_iff.mpr ⟨r, hr, hs⟩
  · simp only [hc, hn] at ht
    rw [← ht]; simp only [State.grantHost, State.modMp, hr]
  · obtain ⟨w, hw⟩ := Option.ne_none_iff_exists'.mp hn
    simp only [hc, hw, if_pos hp] at ht
    rw [← ht]; simp only [State.grantHost, State.modMp, hr]
  · simp only [hc, hw, if_neg (Nat.not_lt.mpr hp)] at ht
    exact grantDe_spec hw ht

theorem settled_arbitrate (u : State) : settled u u.arbitrate :=
  ⟨fun h => arbitrate_spec h rfl, fun h => arbitrate_taken h⟩

/-- What takes place before a command: the arming that is due, and the grant of a claim that stands on a FREE port
(R79, R130; log 6, 7, 38). -/
theorem claimed_of_armed {s : State} (h : armedFirst s s.armed) : claimedFirst s s.claimed := by
  refine ⟨s.armed, h, fun hf ha => arbitrate_spec hf ?_, fun hf => ?_⟩
  · simp only [armed_frame] at ha
    simp [State.claimed, ha]
  · simp only [State.claimed]
    split
    · rfl
    · rename_i ha
      exact arbitrate_taken (hf.resolve_right (by simpa using ha))

theorem deNext_flightWord {s : State} (h : s.deNext = some .flightWord) : s.de.flight ≠ none := by
  have hb : s.nextBeginning ≠ some .flightWord := by
    simp only [State.nextBeginning]
    (repeat' split) <;> simp
  simp only [State.deNext] at h
  split at h
  · cases h
  · split at h
    · rename_i e
      exact Option.isSome_iff_ne_none.mp e
    · exfalso
      (repeat' split at h) <;> first | exact hb h | cases h

/-- The DE's access is on the port from the grant on. -/
theorem engineBegins_port {s t : State} {w : DeWork} (hw : s.deNext = some w) (hl : flightLaw s)
    (h : engineBegins s t w) : t.mp.port ≠ .free := by
  obtain ⟨_, _, _, _, h⟩ := h
  cases w with
  | fresh f =>
    obtain ⟨_, _, _, x, h, _⟩ := h
    rw [show t.mp.port = _ from h]; simp
  | flightWord =>
    obtain ⟨h, _, hd, _⟩ := h
    have hf := deNext_flightWord hw
    cases e : s.de.flight with
    | none => exact absurd e hf
    | some f =>
      have e' : t.de.flight = some f := by rw [hd]; exact e
      cases f with
      | record r slot words done =>
        cases hw' : words[done]? with
        | some x => rw [show t.mp.port = _ from (h.1 r slot words done e').1 x hw']; simp
        | none => rw [show t.mp.port = _ from (h.1 r slot words done e').2 hw']; simp
      | page p words done =>
        have hlt := hl p words done e
        rw [show t.mp.port = _ from h.2 p words done _ e' (List.getElem?_eq_getElem hlt)]; simp
  | indexReset r => rw [show t.mp.port = _ from h.1]; simp
  | commandStatus =>
    obtain ⟨⟨x, h, _⟩, _⟩ := h
    rw [show t.mp.port = _ from h]; simp
  | loadRead off => rw [h.1]; simp
  | notice e =>
    obtain ⟨⟨hd, hn, h, _⟩, _⟩ := h
    obtain ⟨x, xs, hx⟩ := List.exists_cons_of_ne_nil hn
    rw [show t.mp.port = _ from (h.1 _ _ _ _ (by rw [hd])).1 x (by rw [hx]; rfl)]; simp
  | profile l g =>
    obtain ⟨⟨hd, hn, h, _⟩, _⟩ := h
    obtain ⟨x, xs, hx⟩ := List.exists_cons_of_ne_nil hn
    rw [show t.mp.port = _ from (h.1 _ _ _ _ (by rw [hd])).1 x (by rw [hx]; rfl)]; simp
  | page p =>
    obtain ⟨hd, _, _, hn, h, _⟩ := h
    obtain ⟨x, xs, hx⟩ := List.exists_cons_of_ne_nil hn
    rw [show t.mp.port = _ from h.2 _ _ _ x (by rw [hd]) (by rw [hx]; rfl)]; simp

/-- The arming request that waits is gone once it has taken effect, and no write is in flight. -/
theorem takeArming_waits {s : State} (h : s.armingDue = true) :
    s.takeArming.de.arming = none ∧ s.takeArming.de.flight = none := by
  obtain ⟨h1, h2⟩ := armingDue_iff.mp h
  obtain ⟨a, ha⟩ := Option.ne_none_iff_exists'.mp h1
  generalize ht : s.takeArming = t
  simp only [State.takeArming, ha, h2, Option.isSome_none, Bool.false_eq_true, if_false] at ht
  (repeat' split at ht) <;> subst ht <;> simp [State.armingApplied, De.arm, h2]

/-- After an arming that is due, none is (R79). -/
theorem armed_noArmingDue (s : State) : noArmingDue s.armed := by
  by_cases h : s.armingDue = true
  · refine .inl ?_
    simp only [State.armed, if_pos h]
    exact (takeArming_waits h).1
  · rw [State.armed, if_neg h]
    exact Classical.not_not.mp fun x => h (armingDue_not.mpr x)

/-- An arming that takes effect leaves no write in flight. -/
theorem armed_flightLaw {s : State} (hl : flightLaw s) : flightLaw s.armed := by
  by_cases h : s.armingDue = true
  · intro p words done e
    rw [State.armed, if_pos h, show State.de _ = (s.markChanged s.takeArming).de from rfl, markChanged_flight,
      (takeArming_waits h).2] at e
    cases e
  · rwa [State.armed, if_neg h]

/-- A grant of the DE makes no arming due. -/
theorem engineBegins_noArmingDue {s t : State} {w : DeWork} (hd : noArmingDue s) (h : engineBegins s t w) :
    noArmingDue t := by
  obtain ⟨_, _, _, _, h⟩ := h
  cases w with
  | fresh f => rw [noArmingDue, show t.de = _ from h.1]; exact hd
  | flightWord => rw [noArmingDue, show t.de = _ from h.2.2.1]; exact hd
  | indexReset r => rw [noArmingDue, show t.de = _ from h.2.2.1]; exact hd
  | commandStatus => rw [noArmingDue, show t.de = _ from h.2.2.1]; exact hd
  | loadRead off => rw [noArmingDue, show t.de = _ from h.2.2.1]; exact hd
  | notice e => exact .inr (by rw [show t.de = _ from h.1.1]; simp)
  | profile l g => exact .inr (by rw [show t.de = _ from h.1.1]; simp)
  | page p => exact .inr (by rw [show t.de = _ from h.1]; simp)

/-- After the grant by the table none of a claim is left to be made. -/
theorem arbitrate_rests {s : State} (hl : flightLaw s) (hd : noArmingDue s) : atRest s.arbitrate := by
  by_cases hp : s.mp.port ≠ .free
  · rw [arbitrate_taken hp]; exact atRest_port hd hp
  obtain ⟨_, _, h2⟩ := arbitrate_spec (Decidable.not_not.mp hp) (t := s.arbitrate) rfl
  obtain ⟨h3, h4⟩ := h2 hd
  by_cases hr : ∃ r, s.mp.request = some r ∧ r.stage = .waiting
  · obtain ⟨r, hr, hs⟩ := hr
    obtain ⟨a, b, c⟩ := h4 r hr hs
    cases hw : s.deNext with
    | none => rw [a hw]; exact atRest_port hd (by simp)
    | some w =>
      by_cases hlt : s.mp.passed < patience s.liveDelivery
      · rw [b (by rw [hw]; simp) hlt]; exact atRest_port hd (by simp)
      · have h := c (Nat.not_lt.mp hlt) w hw
        exact atRest_port (engineBegins_noArmingDue hd h) (engineBegins_port hw hl h)
  · have hr' : ∀ r, s.mp.request = some r → r.stage ≠ .waiting := fun r x y => hr ⟨r, x, y⟩
    obtain ⟨a, b⟩ := h3 hr'
    cases hw : s.deNext with
    | none => rw [a hw]; exact ⟨hd, .inr (.inr ⟨hw, hr'⟩)⟩
    | some w => exact atRest_port (engineBegins_noArmingDue hd (b w hw)) (engineBegins_port hw hl (b w hw))

/-- After what takes place before a command, nothing more does. -/
theorem claimed_rests {s : State} (hl : flightLaw s) : atRest s.claimed := by
  simp only [State.claimed]
  split
  · rename_i ha
    exact ⟨armed_noArmingDue s, .inr (.inl (by simpa using ha))⟩
  · exact arbitrate_rests (armed_flightLaw hl) (armed_noArmingDue s)

theorem claimed_awake {s : State} (h : awake s) : awake s.claimed := by
  simpa [awake] using h

/-- A command acts as in the state after an arming that is due and the grant of a claim that stands. -/
theorem act_claimed {s : State} (h : awake s) (hl : flightLaw s) (f : State → State) : s.act f = s.claimed.act f := by
  rw [act_awake h, act_awake (claimed_awake h), claimed_atRest (claimed_rests hl)]

theorem actClaim_claimed {s : State} (h : awake s) (hl : flightLaw s) (f : State → State) :
    s.actClaim f = s.claimed.actClaim f := by
  rw [actClaim_awake h, actClaim_awake (claimed_awake h), claimed_atRest (claimed_rests hl)]

/-! ## The end of an action -/

/-- An action that frees the port of a DE access or a discarded one ends with the grant (R118, R130). -/
theorem act_frees {s : State} (h : awake s) (hd : noArmingDue s) (f : State → State) (hp : s.mp.port ≠ .free)
    (hk : ∀ a, s.mp.port ≠ .host true a) (hf : (f s).mp.port = .free) :
    ∃ t', s.act f = .next t' ∧ arbitrated (s.markChanged (f s)) t' := by
  refine ⟨_, act_rest h (atRest_port hd hp) f, ?_⟩
  have ha : (s.markChanged (f s)).awaited = false := by
    show (s.mp.port.hostEnded (f s).mp.port && (f s).requestWaits) = false
    rw [hf]
    cases hs : s.mp.port with
    | free => rfl
    | de k a => rfl
    | host kept a =>
      cases kept
      · rfl
      · exact absurd hs (hk a)
  refine arbitrate_spec hf ?_
  simp [State.grantFreed, hp, ha]

/-- An action that ends a kept host access hands its port on: to the request presented with the completion, or by the
grant (R118, R130; log 38). -/
theorem act_handsOn {s : State} (h : awake s) (hd : noArmingDue s) (f : State → State) {a : Access} (hp : s.mp.port = .host true a)
    (hf : (f s).mp.port = .free) : ∃ t', s.act f = .next t' ∧ handsOn (s.markChanged (f s)) t' := by
  have hn : s.mp.port ≠ .free := by rw [hp]; simp
  refine ⟨_, act_rest h (atRest_port hd hn) f, ?_⟩
  have ha : (s.markChanged (f s)).awaited = (f s).requestWaits := by
    show (s.mp.port.hostEnded (f s).mp.port && (f s).requestWaits) = _
    rw [hf, hp]
    rfl
  refine ⟨fun ⟨addr, write, be, data, rest, e⟩ => ?_, fun hw => ?_⟩
  · have hw : (f s).requestWaits = true := by
      simp only [State.requestWaits, show (f s).pending = _ from e]
    rw [hw] at ha
    have e' : s.grantFreed (s.markChanged (f s)) = s.markChanged (f s) := by simp [State.grantFreed, ha]
    rw [e']
    exact ⟨rfl, ha, hf⟩
  · have hw : (f s).requestWaits = false := by
      simp only [State.requestWaits]
      split
      · rename_i e; exact absurd ⟨_, _, _, _, _, e⟩ hw
      · rfl
    rw [hw] at ha
    refine arbitrate_spec hf ?_
    simp [State.grantFreed, hn, ha]

end Sys2Proof.Machine
end

