-- ==== Sys2Proof/Laws/Sequencing.lean ====
section
/-! SUPPORT. What the shared operations of a line's sequencing do, each once: the transfer, the counted attempt, shutdown
entry, the cycle start and entry to PRIMING. -/

namespace Sys2Proof.Machine
open Sys2Proof

/-! ## What stays recorded -/

/-- No notice of a kind other than those `touched` has been raised, and what a raise looks up stays. -/
def keepsRecords (touched : Kind → Prop) (s t : State) : Prop :=
  t.nu.ms = s.nu.ms ∧ (∀ k, t.levelOf k = s.levelOf k) ∧ ∀ k, ¬touched k → notRaised s t k

theorem keepsRecords_refl (p : Kind → Prop) (s : State) : keepsRecords p s s :=
  ⟨rfl, fun _ => rfl, fun k _ => notRaised_refl s k⟩

theorem keepsRecords_trans {p : Kind → Prop} {s t u : State} (h : keepsRecords p s t) (h' : keepsRecords p t u) :
    keepsRecords p s u :=
  ⟨h'.1.trans h.1, fun k => (h'.2.1 k).trans (h.2.1 k), fun k hk => notRaised_trans (h.2.2 k hk) (h'.2.2 k hk)⟩

theorem keepsRecords_mono {p q : Kind → Prop} {s t : State} (hpq : ∀ k, p k → q k) (h : keepsRecords p s t) :
    keepsRecords q s t := ⟨h.1, h.2.1, fun k hk => h.2.2 k fun hp => hk (hpq k hp)⟩

/-- An update that leaves the Notice Unit and the level table keeps what is recorded. -/
theorem keepsRecords_of {p : Kind → Prop} {s t : State} (h : t.nu = s.nu) (h' : t.liveDelivery = s.liveDelivery) :
    keepsRecords p s t := ⟨by rw [h], fun k => by simp [State.levelOf, h'], fun _ _ => notRaised_of (by rw [h]) (by rw [h])⟩

theorem keepsRecords_raise {p : Kind → Prop} (s : State) (k : Kind) (src : Source) (d : Nat) (hk : p k) :
    keepsRecords p s (s.raise k src d) :=
  ⟨raise_ms .., fun _ => raise_levelOf .., fun k' hn => raise_notRaised s k k' src d fun e => hn (e ▸ hk)⟩

/-- What is recorded of a kind not touched stays recorded. -/
theorem keepsRecords_records {p : Kind → Prop} {s t : State} {k : Kind} {src : Source} {d : Half} {now : Word}
    (h : keepsRecords p s t) (hk : ¬p k) (hr : records s.nu k src d now) : records t.nu k src d now :=
  records_of_notRaised (h.2.2 k hk) hr

/-- A notice raised between two updates that keep the level table and the counter: before it anything may be raised,
after it nothing of its kind. -/
theorem raisedIn_between {p p' : Kind → Prop} {s u v t : State} {k : Kind} {src : Source} {x : Half}
    (h : keepsRecords p s u) (hx : raisedIn u v k src x) (h' : keepsRecords p' v t) (hk : ¬p' k) : raisedIn s t k src x := by
  intro hl
  have := keepsRecords_records h' hk (hx (by rw [h.2.1]; exact hl))
  rwa [h.1] at this

/-- A notice raised is recorded after every later update that does not touch its kind. -/
theorem raisedIn_of {p : Kind → Prop} {s t u v : State} {k : Kind} {src : Source} {d : Nat} {x : Half}
    (h : keepsRecords (fun _ => True) s t) (hu : u = t.raise k src d) (h' : keepsRecords p u v) (hk : ¬p k)
    (hx : BitVec.ofNat 16 d = x) : raisedIn s v k src x := by
  subst hu hx
  exact raisedIn_between h (raise_records t k src d) h' hk

/-! ## The zones at a profile (R53, R64, R66) -/

/-- What the evaluation of a zone makes of it in this state (R64). -/
def verdictIn (s : State) (l : LineId) (z : Fin 4) : ZoneRec × ZoneEvent :=
  zoneMove (zoneDef (s.liveLine l) z.val) (s.gzu l).zones[z]
    (zoneTest (zoneDef (s.liveLine l) z.val) ((List.range 6).map (weight (s.liveCal l))) (s.gzu l).grid
      (s.gzu l).still.toList)

/-- The evaluation of a zone reports this (R65, R66). -/
def reportsIn (s : State) (l : LineId) (z : Fin 4) (e : ZoneEvent) : Prop :=
  (zoneDef (s.liveLine l) z.val).enable = true ∧ (verdictIn s l z).2 = e

/-- One zone evaluated: its record, the notice of a trip or of a clear, and no other. -/
theorem evalZone_spec {s t : State} {l : LineId} {z : Fin 4} (ht : s.evalZone l z = t) :
    (t.gzu l) = { s.gzu l with zones := (t.gzu l).zones } ∧ t.cu = s.cu
      ∧ (∀ y : Fin 4, (t.gzu l).zones[y] =
          if y = z ∧ (zoneDef (s.liveLine l) z.val).enable = true then (verdictIn s l z).1 else (s.gzu l).zones[y])
      ∧ keepsRecords (fun k => (k = .zoneTrip ∧ reportsIn s l z .trip) ∨ (k = .zoneClear ∧ reportsIn s l z .clear)) s t
      ∧ (reportsIn s l z .trip → raisedIn s t .zoneTrip (.line l) (BitVec.ofNat 16 z.val))
      ∧ (reportsIn s l z .clear → raisedIn s t .zoneClear (.line l) (BitVec.ofNat 16 z.val)) := by
  have eq : s.evalZone l z = if (zoneDef (s.liveLine l) z.val).enable = true then
      (s.setZone l z (verdictIn s l z).1).raiseZone l z (verdictIn s l z).2 else s := rfl
  rw [ht] at eq
  clear ht
  simp only [reportsIn]
  generalize verdictIn s l z = m at eq ⊢
  by_cases he : (zoneDef (s.liveLine l) z.val).enable = true
  · rw [if_pos he] at eq
    subst eq
    have k0 {p : Kind → Prop} : keepsRecords p s (s.setZone l z m.1) :=
      keepsRecords_of (by simp) (by simp [State.liveDelivery])
    have g0 : ((s.setZone l z m.1).gzu l) = { s.gzu l with zones := modAt (s.gzu l).zones z fun _ => m.1 } := by
      simp [State.setZone, State.gzu]
    have g1 : (((s.setZone l z m.1).raiseZone l z m.2).gzu l) = ((s.setZone l z m.1).gzu l) := by
      cases m.2 <;> simp [State.raiseZone, State.gzu]
    refine ⟨by rw [g1, g0], by simp, fun y => ?_, ?_, ?_, ?_⟩
    · rw [g1, g0]
      by_cases h : y = z
      · subst h; simp [he]
      · have := modAt_other (s.gzu l).zones z y (fun _ => m.1) h
        simp only [Fin.getElem_fin] at *
        simp [h, this]
    all_goals simp only [he, true_and]
    · cases m.2
      · exact k0
      · exact keepsRecords_trans k0 (keepsRecords_raise _ _ _ _ (.inl ⟨rfl, rfl⟩))
      · exact keepsRecords_trans k0 (keepsRecords_raise _ _ _ _ (.inr ⟨rfl, rfl⟩))
    · intro h
      rw [h]
      exact raisedIn_of (p := fun _ => False) k0 rfl (keepsRecords_refl _ _) id rfl
    · intro h
      rw [h]
      exact raisedIn_of (p := fun _ => False) k0 rfl (keepsRecords_refl _ _) id rfl
  · rw [if_neg he] at eq
    subst eq
    exact ⟨rfl, rfl, fun y => by simp [he], keepsRecords_refl _ _, fun h => absurd h.1 he, fun h => absurd h.1 he⟩

/-- Zones evaluated in ascending order: the records, and of the trips and of the clears the notice of the highest. -/
theorem foldEval (l : LineId) (zs : List (Fin 4)) (hs : zs.Pairwise (· < ·)) (s : State) :
    let t := zs.foldl (fun t z => t.evalZone l z) s
    (t.gzu l) = { s.gzu l with zones := (t.gzu l).zones } ∧ t.cu = s.cu
      ∧ (∀ y : Fin 4, (t.gzu l).zones[y] =
          if y ∈ zs ∧ (zoneDef (s.liveLine l) y.val).enable = true then (verdictIn s l y).1 else (s.gzu l).zones[y])
      ∧ keepsRecords (fun k => (k = .zoneTrip ∧ ∃ z ∈ zs, reportsIn s l z .trip)
          ∨ (k = .zoneClear ∧ ∃ z ∈ zs, reportsIn s l z .clear)) s t
      ∧ (∀ z ∈ zs, reportsIn s l z .trip → (∀ y ∈ zs, z < y → ¬reportsIn s l y .trip) →
          raisedIn s t .zoneTrip (.line l) (BitVec.ofNat 16 z.val))
      ∧ (∀ z ∈ zs, reportsIn s l z .clear → (∀ y ∈ zs, z < y → ¬reportsIn s l y .clear) →
          raisedIn s t .zoneClear (.line l) (BitVec.ofNat 16 z.val)) := by
  induction zs generalizing s with
  | nil => exact ⟨rfl, rfl, fun y => by simp, keepsRecords_refl _ _, fun _ h => (by cases h), fun _ h => (by cases h)⟩
  | cons x rest ih =>
    obtain ⟨hx1, hx2⟩ := List.pairwise_cons.mp hs
    obtain ⟨r1, r2, r3, r4, r5, r6⟩ := evalZone_spec (s := s) (l := l) (z := x) rfl
    obtain ⟨a, b, c, d, e, f⟩ := ih hx2 (s.evalZone l x)
    simp only [List.foldl_cons]
    have hl : (s.evalZone l x).liveLine l = s.liveLine l := by simp only [State.liveLine, State.copies, r2]
    have hc : (s.evalZone l x).liveCal l = s.liveCal l := by simp only [State.liveCal, State.copies, r2]
    have ne (y : Fin 4) (hy : y ∈ rest) : y ≠ x := fun h => by
      have := hx1 y hy
      rw [h] at this
      exact absurd this (Nat.lt_irrefl _)
    have ver (y : Fin 4) (hy : y ∈ rest) : verdictIn (s.evalZone l x) l y = verdictIn s l y := by
      simp only [verdictIn, hl, hc]
      rw [r3 y, if_neg fun h => ne y hy h.1, r1]
    have rep (y : Fin 4) (hy : y ∈ rest) (v : ZoneEvent) : reportsIn (s.evalZone l x) l y v ↔ reportsIn s l y v := by
      simp only [reportsIn, hl, ver y hy]
    have later (v : ZoneEvent) (h : ∃ z ∈ rest, reportsIn (s.evalZone l x) l z v) : ∃ z ∈ rest, reportsIn s l z v :=
      h.imp fun z hz => ⟨hz.1, (rep z hz.1 v).mp hz.2⟩
    refine ⟨by rw [a, r1], by rw [b, r2], fun y => ?_, keepsRecords_trans (keepsRecords_mono ?_ r4) (keepsRecords_mono ?_ d), ?_, ?_⟩
    · rw [c y, hl]
      by_cases h : y ∈ rest
      · have old : ((s.evalZone l x).gzu l).zones[y] = (s.gzu l).zones[y] := by
          rw [r3 y, if_neg fun q => ne y h q.1]
        simp only [h, List.mem_cons, or_true, true_and, ver y h, old]
      · simp only [h, false_and, if_false, List.mem_cons, or_false]
        rw [r3 y]
        by_cases e : y = x
        · subst e; simp
        · simp [e]
    · rintro k (⟨hk, h⟩ | ⟨hk, h⟩)
      · exact .inl ⟨hk, x, List.mem_cons_self .., h⟩
      · exact .inr ⟨hk, x, List.mem_cons_self .., h⟩
    · rintro k (⟨hk, h⟩ | ⟨hk, h⟩)
      · exact .inl ⟨hk, (later _ h).imp fun z hz => ⟨List.mem_cons_of_mem _ hz.1, hz.2⟩⟩
      · exact .inr ⟨hk, (later _ h).imp fun z hz => ⟨List.mem_cons_of_mem _ hz.1, hz.2⟩⟩
    · intro z hz ht hm
      rcases List.mem_cons.mp hz with rfl | hz
      · refine raisedIn_between (keepsRecords_refl (fun _ => True) s) (r5 ht) d fun h => ?_
        rcases h with ⟨-, y, hy, hr⟩ | ⟨h, -⟩
        · exact hm y (List.mem_cons_of_mem _ hy) (hx1 y hy) ((rep y hy _).mp hr)
        · cases h
      · exact raisedIn_between r4 (e z hz ((rep z hz _).mpr ht) fun y hy hlt h =>
          hm y (List.mem_cons_of_mem _ hy) hlt ((rep y hy _).mp h)) (keepsRecords_refl (fun _ => False) _) id
    · intro z hz ht hm
      rcases List.mem_cons.mp hz with rfl | hz
      · refine raisedIn_between (keepsRecords_refl (fun _ => True) s) (r6 ht) d fun h => ?_
        rcases h with ⟨h, -⟩ | ⟨-, y, hy, hr⟩
        · cases h
        · exact hm y (List.mem_cons_of_mem _ hy) (hx1 y hy) ((rep y hy _).mp hr)
      · exact raisedIn_between r4 (f z hz ((rep z hz _).mpr ht) fun y hy hlt h =>
          hm y (List.mem_cons_of_mem _ hy) hlt ((rep y hy _).mp h)) (keepsRecords_refl (fun _ => False) _) id

/-! ## The zones at a transfer (R67) -/

theorem zonesFollow_refl (s : State) (l : LineId) : zonesFollow s s l :=
  ⟨⟨fun z => by simp, fun _ h => absurd rfl h.1⟩, fun _ => notRaised_refl ..⟩

/-- The zones at a transfer within a longer action that raises no other ZONE_CLEAR and leaves them besides. -/
theorem zonesFollow_of {s u v t : State} {l : LineId} {p p' : Kind → Prop} (h : zonesFollow u v l)
    (hu : u.liveLine l = s.liveLine l) (hv : t.liveLine l = v.liveLine l) (gu : (u.gzu l).zones = (s.gzu l).zones)
    (gv : (t.gzu l).zones = (v.gzu l).zones) (k : keepsRecords p s u) (k' : keepsRecords p' v t)
    (hk : ¬p .zoneClear) (hk' : ¬p' .zoneClear) : zonesFollow s t l := by
  simp only [zonesFollow, zonesReset, zoneIsReset, hu, hv, gu, gv] at *
  exact ⟨⟨h.1.1, fun z hz hm => raisedIn_between k (h.1.2 z hz hm) k' hk'⟩, fun hn =>
    notRaised_trans (k.2.2 _ hk) (notRaised_trans (h.2 hn) (k'.2.2 _ hk'))⟩

/-- The zones at two transfers in one action, the second of which moves no line section. -/
theorem zonesFollow_trans {s u t : State} {l : LineId} (h : zonesFollow s u l) (h' : zonesFollow u t l)
    (e : t.liveLine l = u.liveLine l) : zonesFollow s t l := by
  obtain ⟨⟨a1, a2⟩, a3⟩ := h
  obtain ⟨⟨b1, -⟩, b3⟩ := h'
  have none := b3 fun z hz => hz.1 (by rw [e])
  simp only [zonesFollow, zonesReset, zoneIsReset, e] at *
  refine ⟨⟨fun z => ?_, fun z hz hm hl => ?_⟩, fun hn => notRaised_trans (a3 hn) none⟩
  · rw [b1 z, if_pos trivial, a1 z]
  · exact records_of_notRaised none (a2 z hz hm hl)

/-! ## The transfer -/

theorem alarming_iff (z : ZoneRec) : z.state.alarming = true ↔ z.state = .tripped ∨ z.state = .recovering := by
  cases z.state <;> simp [ZoneState.alarming]

theorem resetZone_gzu (s : State) (l : LineId) (z : Fin 4) :
    (s.resetZone l z).gzu l = { s.gzu l with zones := modAt (s.gzu l).zones z fun _ => { state := .clear, count := 0 } } := by
  simp only [State.resetZone]
  split <;> simp [State.setZone, State.gzu]

theorem resetZone_zones (s : State) (l : LineId) (z y : Fin 4) :
    ((s.resetZone l z).gzu l).zones[y] = if y = z then { state := .clear, count := 0 } else (s.gzu l).zones[y] := by
  rw [resetZone_gzu]
  by_cases h : y = z
  · subst h; simp
  · have := modAt_other (s.gzu l).zones z y (fun _ => ({ state := .clear, count := 0 } : ZoneRec)) h
    simp only [Fin.getElem_fin] at *
    simp [h, this]

/-- A zone reset raises ZONE_CLEAR with reason RECONFIGURED where it was TRIPPED or RECOVERING, and else nothing
(R67). -/
theorem resetZone_notice (s : State) (l : LineId) (z : Fin 4) :
    keepsRecords (· = .zoneClear) s (s.resetZone l z)
      ∧ ((s.gzu l).zones[z].state.alarming = true →
          raisedIn s (s.resetZone l z) .zoneClear (.line l) (BitVec.ofNat 16 (z.val + 256)))
      ∧ (¬(s.gzu l).zones[z].state.alarming = true → keepsRecords (fun _ => False) s (s.resetZone l z)) := by
  have set (p : Kind → Prop) (u : State) (r : ZoneRec) : keepsRecords p u (u.setZone l z r) :=
    keepsRecords_of (by simp) (by simp [State.liveDelivery])
  simp only [State.resetZone]
  split
  · rename_i h
    exact ⟨keepsRecords_trans (keepsRecords_raise s .zoneClear (.line l) (z.val + 256) rfl) (set ..),
      fun _ => raisedIn_of (keepsRecords_refl _ s) rfl (set (fun _ => False) ..) id rfl, fun h' => absurd h h'⟩
  · rename_i h
    exact ⟨set .., fun h' => absurd h' h, fun _ => set ..⟩

/-- Zones reset in ascending order but where `P` holds: the records, and the notices of those that were alarming. -/
theorem foldZones (P : Fin 4 → Prop) [DecidablePred P] (l : LineId) (zs : List (Fin 4)) (hs : zs.Pairwise (· < ·)) (s : State) :
    let t := zs.foldl (fun t z => if P z then t else t.resetZone l z) s
    let alarmingReset (z : Fin 4) : Prop := z ∈ zs ∧ ¬P z ∧ (s.gzu l).zones[z].state.alarming = true
    keepsRecords (· = .zoneClear) s t ∧ (t.gzu l) = { s.gzu l with zones := (t.gzu l).zones }
      ∧ (∀ z : Fin 4, (t.gzu l).zones[z] = if z ∈ zs ∧ ¬P z then { state := .clear, count := 0 } else (s.gzu l).zones[z])
      ∧ (∀ z : Fin 4, alarmingReset z → (∀ y : Fin 4, z < y → ¬alarmingReset y) →
          raisedIn s t .zoneClear (.line l) (BitVec.ofNat 16 (z.val + 256)))
      ∧ ((∀ z : Fin 4, ¬alarmingReset z) → keepsRecords (fun _ => False) s t) := by
  induction zs generalizing s with
  | nil => exact ⟨keepsRecords_refl _ _, rfl, fun z => by simp, fun z h => (by cases h.1), fun _ => keepsRecords_refl _ _⟩
  | cons x rest ih =>
    obtain ⟨hx1, hx2⟩ := List.pairwise_cons.mp hs
    simp only [List.foldl_cons]
    by_cases hx : P x
    · simp only [hx, if_true]
      obtain ⟨a, b, c, d, e⟩ := ih hx2 s
      have mem (z : Fin 4) (hz : ¬P z) : z ∈ x :: rest ↔ z ∈ rest := by
        have : z ≠ x := fun h => hz (h ▸ hx)
        simp [this]
      refine ⟨a, b, fun z => ?_, fun z hz hl => ?_, fun h => ?_⟩
      · rw [c z]
        by_cases hp : P z
        · simp [hp]
        · simp only [mem z hp]
      · exact d z ⟨(mem z hz.2.1).mp hz.1, hz.2⟩ fun y hy h => hl y hy ⟨(mem y h.2.1).mpr h.1, h.2⟩
      · exact e fun z hz => h z ⟨(mem z hz.2.1).mpr hz.1, hz.2⟩
    · simp only [hx, if_false]
      obtain ⟨a, b, c, d, e⟩ := ih hx2 (s.resetZone l x)
      obtain ⟨r1, r2, r3⟩ := resetZone_notice s l x
      have lt (y : Fin 4) (hy : y ∈ rest) : y ≠ x := fun h => by
        have := hx1 y hy
        rw [h] at this
        exact absurd this (Nat.lt_irrefl _)
      have zone (y : Fin 4) (hy : y ∈ rest) : ((s.resetZone l x).gzu l).zones[y] = (s.gzu l).zones[y] := by
        rw [resetZone_zones, if_neg (lt y hy)]
      refine ⟨keepsRecords_trans r1 a, ?_, fun z => ?_, fun z hz hl => ?_, fun h => ?_⟩
      · rw [b, resetZone_gzu]
      · rw [c z, resetZone_zones]
        by_cases hz : z = x
        · subst hz; simp [hx]
        · simp [hz]
      · rcases List.mem_cons.mp hz.1 with rfl | hm
        · refine raisedIn_between (keepsRecords_refl (fun _ => True) s) (r2 hz.2.2) (e fun y hy => ?_) (fun h => h)
          exact hl y (hx1 y hy.1) ⟨List.mem_cons_of_mem _ hy.1, hy.2.1, by rw [← zone y hy.1]; exact hy.2.2⟩
        · refine raisedIn_between r1 (d z ⟨hm, hz.2.1, by rw [zone z hm]; exact hz.2.2⟩ fun y hy h => ?_)
            (keepsRecords_refl (fun _ => False) _) (fun h => h)
          exact hl y hy ⟨List.mem_cons_of_mem _ h.1, h.2.1, by rw [← zone y h.1]; exact h.2.2⟩
      · refine keepsRecords_trans (r3 fun ha => h x ⟨List.mem_cons_self .., hx, ha⟩) (e fun y hy => ?_)
        exact h y ⟨List.mem_cons_of_mem _ hy.1, hy.2.1, by rw [← zone y hy.1]; exact hy.2.2⟩

/-- What the GZU does with a line section made live, `old` being the one before (R67). -/
theorem resetZones_spec (s : State) (l : LineId) (old : Bytes) :
    let t := s.resetZones l old
    let changed (z : Fin 4) : Prop := zoneDef old z.val ≠ zoneDef (s.liveLine l) z.val
      ∧ ((s.gzu l).zones[z].state = .tripped ∨ (s.gzu l).zones[z].state = .recovering)
    keepsRecords (· = .zoneClear) s t ∧ (t.gzu l) = { s.gzu l with zones := (t.gzu l).zones }
      ∧ (∀ z : Fin 4, (t.gzu l).zones[z] =
        if zoneDef old z.val = zoneDef (s.liveLine l) z.val then (s.gzu l).zones[z] else { state := .clear, count := 0 })
      ∧ (∀ z : Fin 4, changed z → (∀ y : Fin 4, z < y → ¬changed y) →
          raisedIn s t .zoneClear (.line l) (BitVec.ofNat 16 (z.val + 256)))
      ∧ ((∀ z : Fin 4, ¬changed z) → keepsRecords (fun _ => False) s t) := by
  obtain ⟨a, b, c, d, e⟩ := foldZones (fun z => zoneDef old z.val = zoneDef (s.liveLine l) z.val) l (List.finRange 4)
    (List.pairwise_lt_finRange 4) s
  refine ⟨a, b, fun z => (c z).trans ?_, fun z hz hl => ?_, fun h => ?_⟩
  · by_cases h : zoneDef old z.val = zoneDef (s.liveLine l) z.val <;> simp [h]
  · exact d z ⟨List.mem_finRange z, hz.1, (alarming_iff _).mpr hz.2⟩
      fun y hy h => hl y hy ⟨h.2.1, (alarming_iff _).mp h.2.2⟩
  · exact e fun z hz => h z ⟨hz.2.1, (alarming_iff _).mp hz.2.2⟩

/-- The LS outside SHUTDOWN does not act on a section made live (R26). -/
theorem lsApply_driven (s : State) (l : LineId) (old : Bytes) (h : (s.ls l).state ≠ .shutdown) : s.lsApply l old = s := by
  simp [State.lsApply, h]

theorem applyLine_cu (s : State) (l : LineId) (new : Bytes) (tag : Byte) :
    (s.applyLine l new tag).cu = { s.cu with lines := modAt s.cu.lines l fun c =>
      { c with liveLine := new, pendingLine := none, lineTag := tag } } := by
  have h : (s.applyLine l new tag).cu = (s.modCopies l fun c => { c with liveLine := new, pendingLine := none, lineTag := tag }).cu := by
    simp [State.applyLine]
  rw [h]; rfl

theorem applyCal_cu (s : State) (l : LineId) (new : Bytes) (tag : Byte) :
    (s.applyCal l new tag).cu = { s.cu with lines := modAt s.cu.lines l fun c =>
      { c with liveCal := new, pendingCal := none, calTag := tag } } := by
  have h : (s.applyCal l new tag).cu = (s.modCopies l fun c => { c with liveCal := new, pendingCal := none, calTag := tag }).cu := by
    simp [State.applyCal]
  rw [h]; rfl

/-- What a line section made live does to GZU and NU (R67, R153). -/
theorem applyLine_spec {s t : State} {l : LineId} {new : Bytes} {tag : Byte} (ht : s.applyLine l new tag = t) :
    keepsRecords (fun k => k = .zoneClear ∨ k = .configApplied) s t
      ∧ raisedIn s t .configApplied (.line l) (tag.setWidth 16)
      ∧ (t.gzu l) = { s.gzu l with zones := (t.gzu l).zones, lalm := (t.gzu l).lalm }
      ∧ zonesFollow s t l := by
  have hl : t.liveLine l = new := by rw [← ht]; simp [State.liveLine, State.copies, applyLine_cu]
  simp only [State.applyLine] at ht
  generalize hs1 : s.modCopies l (fun c => { c with liveLine := new, pendingLine := none, lineTag := tag }) = s1 at ht
  generalize hs2 : s1.lsApply l (s.liveLine l) = s2 at ht
  have k2 : keepsRecords (fun _ => False) s s2 := by
    subst hs2 hs1; exact keepsRecords_of (by simp) (by simp [State.liveDelivery])
  have g2 : s2.gzu l = s.gzu l := by subst hs2 hs1; simp [State.gzu]
  have l2 : s2.liveLine l = new := by
    subst hs2
    have : (s1.lsApply l (s.liveLine l)).liveLine l = s1.liveLine l := by simp [State.liveLine, State.copies]
    rw [this]; subst hs1; simp [State.liveLine, State.copies]
  clear hs1 hs2
  have hz := resetZones_spec s2 l (s.liveLine l)
  generalize s2.resetZones l (s.liveLine l) = s3 at ht hz
  obtain ⟨z1, z2, z3, z4, z5⟩ := hz
  rw [l2] at z3 z4 z5
  rw [g2] at z2 z3 z4 z5
  generalize hs4 : s3.reevalLalm l = s4 at ht
  have k34 : keepsRecords (fun _ => False) s3 s4 := by
    subst hs4; exact keepsRecords_of (by simp) (by simp [State.liveDelivery])
  have g4 : s4.gzu l = { s3.gzu l with lalm := (s4.gzu l).lalm } := by
    subst hs4; simp [State.reevalLalm, State.gzu]
  clear hs4
  have ge : t.gzu l = s4.gzu l := by subst ht; simp [State.gzu]
  have k5 : keepsRecords (fun _ => False) (s4.raise .configApplied (.line l) tag.toNat) t := by
    subst ht; exact keepsRecords_of (by simp) (by simp [State.liveDelivery])
  have weaken {p : Kind → Prop} {a b : State} (h : keepsRecords (fun _ => False) a b) : keepsRecords p a b :=
    keepsRecords_mono (fun _ h => h.elim) h
  have k4t : keepsRecords (· = .configApplied) s4 t :=
    keepsRecords_trans (keepsRecords_raise s4 .configApplied (.line l) tag.toNat rfl) (weaken k5)
  have k3t : keepsRecords (· = .configApplied) s3 t := keepsRecords_trans (weaken k34) k4t
  have k4 : keepsRecords (fun k => k = .zoneClear ∨ k = .configApplied) s s4 :=
    keepsRecords_trans (weaken k2) (keepsRecords_trans (keepsRecords_mono (fun _ h => .inl h) z1) (weaken k34))
  refine ⟨keepsRecords_trans k4 (keepsRecords_mono (fun _ h => .inr h) k4t),
    raisedIn_of (keepsRecords_mono (fun _ _ => trivial) k4) rfl k5 (fun h => h) (by simp), ?_, ⟨?_, ?_⟩, ?_⟩
  · rw [ge, g4, z2]
  · intro z; rw [ge, g4, hl]; simp only []; rw [z3]
  · simp only [zoneIsReset, hl]
    exact fun z hz hm => raisedIn_between k2 (z4 z hz hm) k3t (by decide)
  · simp only [zoneIsReset, hl]
    exact fun h => notRaised_trans (k2.2.2 _ fun h => h) (notRaised_trans ((z5 h).2.2 _ fun h => h) (k3t.2.2 _ (by decide)))

/-- What a calibration made live does to NU and the lines (R153). -/
theorem applyCal_spec {s t : State} {l : LineId} {new : Bytes} {tag : Byte} (ht : s.applyCal l new tag = t) :
    keepsRecords (fun k => k = .configApplied) s t
      ∧ raisedIn s t .configApplied (.line l) (tag.setWidth 16) ∧ t.lines = s.lines := by
  simp only [State.applyCal] at ht
  generalize hs1 : s.modCopies l (fun c => { c with liveCal := new, pendingCal := none, calTag := tag }) = s1 at ht
  have k1 : keepsRecords (fun k => k = .configApplied) s s1 := by
    subst hs1; exact keepsRecords_of (by simp) (by simp [State.liveDelivery])
  have k5 : keepsRecords (fun _ => False) (s1.raise .configApplied (.line l) tag.toNat) t := by
    subst ht; exact keepsRecords_of (by simp) (by simp [State.liveDelivery])
  refine ⟨?_, ?_, ?_⟩
  · exact keepsRecords_trans k1 (keepsRecords_trans (keepsRecords_raise s1 .configApplied (.line l) tag.toNat rfl)
      (keepsRecords_mono (fun _ h => h.elim) k5))
  · exact raisedIn_of (keepsRecords_mono (fun _ _ => trivial) k1) rfl k5 (fun h => h) (by simp)
  · subst ht hs1; simp

/-- The record becomes APPLIED when it belongs to `o`, and nothing else of the Command Unit changes (R149). -/
theorem appliedTo_spec {s t : State} {o : Owner} (ht : s.appliedTo o = t) :
    keepsRecords (fun _ => False) s t ∧ t.lines = s.lines
      ∧ (s.cu.owner = o → t.cu = { s.cu with record := { s.cu.record with result := .applied, detail := 0 }, owner := .none }
          ∧ t.de.statusDirty = true)
      ∧ (s.cu.owner ≠ o → t.cu = s.cu ∧ t.de.statusDirty = s.de.statusDirty) := by
  subst ht
  simp only [State.appliedTo]
  split
  · rename_i h
    exact ⟨keepsRecords_of (by simp) (by simp [State.liveDelivery]), by simp, fun _ => ⟨rfl, rfl⟩, fun h' => absurd h h'⟩
  · rename_i h
    exact ⟨keepsRecords_refl _ _, rfl, fun h' => absurd h' h, fun _ => ⟨rfl, rfl⟩⟩

/-- Everything of the record at one transfer (R149): `moved` says whether a copy moves, `o` whom it belongs to. -/
def recordAt (s t : State) (moved : Prop) (o : Owner) : Prop :=
  (moved ∧ s.cu.owner = o →
      t.cu.record = { s.cu.record with result := .applied, detail := 0 } ∧ t.cu.owner = .none ∧ t.de.statusDirty = true)
    ∧ (¬(moved ∧ s.cu.owner = o) →
      t.cu.record = s.cu.record ∧ t.cu.owner = s.cu.owner ∧ t.de.statusDirty = s.de.statusDirty)

/-- The kinds a transfer raises. -/
def transferKind (k : Kind) : Prop := k = .zoneClear ∨ k = .configApplied

/-- The transfer of the line section (R8, R153). -/
theorem transferLine_spec {s t : State} {l : LineId} (ht : s.transferLine l = t) :
    keepsRecords transferKind s t
      ∧ (t.gzu l) = { s.gzu l with zones := (t.gzu l).zones, lalm := (t.gzu l).lalm } ∧ zonesFollow s t l
      ∧ (∀ p, (s.copies l).pendingLine = some p → raisedIn s t .configApplied (.line l) (p.tag.setWidth 16))
      ∧ t.cu = { s.cu with lines := t.cu.lines, record := t.cu.record, owner := t.cu.owner }
      ∧ (t.copies l) = (match (s.copies l).pendingLine with
          | none => s.copies l
          | some p => { s.copies l with liveLine := p.bytes, pendingLine := none, lineTag := p.tag })
      ∧ (∀ k : LineId, k ≠ l → t.copies k = s.copies k)
      ∧ recordAt s t ((s.copies l).pendingLine ≠ none) (.pendingLine l) := by
  simp only [State.transferLine] at ht
  split at ht
  · rename_i h
    subst ht
    exact ⟨keepsRecords_refl _ _, rfl, zonesFollow_refl s l, fun p hp => (by rw [h] at hp; cases hp), rfl, by simp [h],
      fun _ _ => rfl, ⟨fun h' => absurd h h'.1, fun _ => ⟨rfl, rfl, rfl⟩⟩⟩
  · rename_i p h
    have hc := applyLine_cu s l p.bytes p.tag
    have hd : (s.applyLine l p.bytes p.tag).de.statusDirty = s.de.statusDirty := by simp
    generalize hu : s.applyLine l p.bytes p.tag = u at ht hc hd
    obtain ⟨a1, a2, a3, a4⟩ := applyLine_spec hu
    obtain ⟨b1, b2, b3, b4⟩ := appliedTo_spec ht
    have hg : t.gzu l = u.gzu l := by simp [State.gzu, b2]
    have ho : u.cu.owner = s.cu.owner := by rw [hc]
    have hr : u.cu.record = s.cu.record := by rw [hc]
    have hl : t.cu.lines = u.cu.lines := by
      by_cases hx : u.cu.owner = .pendingLine l
      · rw [(b3 hx).1]
      · rw [(b4 hx).1]
    have hll : t.copies l = { s.copies l with liveLine := p.bytes, pendingLine := none, lineTag := p.tag } := by
      simp [State.copies, hl, hc]
    refine ⟨keepsRecords_trans a1 (keepsRecords_mono (fun _ h => h.elim) b1), ?_, ?_, ?_, ?_, ?_, ?_, ?_, ?_⟩
    · rw [hg, a3]
    · exact zonesFollow_of a4 rfl (by simp only [State.liveLine, State.copies, hl]) rfl (by rw [hg])
        (keepsRecords_refl (fun _ => False) s) b1 id id
    · intro p' hp'
      rw [h] at hp'; cases hp'
      intro hl0
      exact keepsRecords_records b1 (fun h => h) (a2 hl0)
    · by_cases hx : u.cu.owner = .pendingLine l
      · rw [(b3 hx).1, hc]
      · rw [(b4 hx).1, hc]
    · first | exact hll | (rw [h]; exact hll)
    · intro k hk
      simp only [State.copies, hl, hc]
      exact modAt_other _ _ _ _ hk
    · rintro ⟨-, hx⟩
      have := b3 (ho.trans hx)
      rw [this.1, ← hr]; exact ⟨rfl, rfl, this.2⟩
    · intro hx
      have := b4 (fun e => hx ⟨by rw [h]; simp, ho ▸ e⟩)
      rw [this.1]; exact ⟨hr, ho, this.2.trans hd⟩

/-- The transfer of the calibration (R8, R153). -/
theorem transferCal_spec {s t : State} {l : LineId} (ht : s.transferCal l = t) :
    keepsRecords (· = .configApplied) s t ∧ t.lines = s.lines
      ∧ (∀ p, (s.copies l).pendingCal = some p → raisedIn s t .configApplied (.line l) (p.tag.setWidth 16))
      ∧ t.cu = { s.cu with lines := t.cu.lines, record := t.cu.record, owner := t.cu.owner }
      ∧ (t.copies l) = (match (s.copies l).pendingCal with
          | none => s.copies l
          | some p => { s.copies l with liveCal := p.bytes, pendingCal := none, calTag := p.tag })
      ∧ (∀ k : LineId, k ≠ l → t.copies k = s.copies k)
      ∧ recordAt s t ((s.copies l).pendingCal ≠ none) (.pendingCal l)
      ∧ ((s.copies l).pendingCal = none → t = s) := by
  simp only [State.transferCal] at ht
  split at ht
  · rename_i h
    subst ht
    exact ⟨keepsRecords_refl _ _, rfl, fun p hp => (by rw [h] at hp; cases hp), rfl, by simp [h],
      fun _ _ => rfl, ⟨fun h' => absurd h h'.1, fun _ => ⟨rfl, rfl, rfl⟩⟩, fun _ => rfl⟩
  · rename_i p h
    have hc := applyCal_cu s l p.bytes p.tag
    have hd : (s.applyCal l p.bytes p.tag).de.statusDirty = s.de.statusDirty := by simp
    generalize hu : s.applyCal l p.bytes p.tag = u at ht hc hd
    obtain ⟨a1, a2, a3⟩ := applyCal_spec hu
    obtain ⟨b1, b2, b3, b4⟩ := appliedTo_spec ht
    have ho : u.cu.owner = s.cu.owner := by rw [hc]
    have hr : u.cu.record = s.cu.record := by rw [hc]
    have hl : t.cu.lines = u.cu.lines := by
      by_cases hx : u.cu.owner = .pendingCal l
      · rw [(b3 hx).1]
      · rw [(b4 hx).1]
    have hll : t.copies l = { s.copies l with liveCal := p.bytes, pendingCal := none, calTag := p.tag } := by
      simp [State.copies, hl, hc]
    refine ⟨keepsRecords_trans a1 (keepsRecords_mono (fun _ h => h.elim) b1), b2.trans a3, ?_, ?_, ?_, ?_, ⟨?_, ?_⟩, ?_⟩
    · intro p' hp'
      rw [h] at hp'; cases hp'
      intro hl0
      exact keepsRecords_records b1 (fun h => h) (a2 hl0)
    · by_cases hx : u.cu.owner = .pendingCal l
      · rw [(b3 hx).1, hc]
      · rw [(b4 hx).1, hc]
    · first | exact hll | (rw [h]; exact hll)
    · intro k hk
      simp only [State.copies, hl, hc]
      exact modAt_other _ _ _ _ hk
    · rintro ⟨-, hx⟩
      have := b3 (ho.trans hx)
      rw [this.1, ← hr]; exact ⟨rfl, rfl, this.2⟩
    · intro hx
      have := b4 (fun e => hx ⟨by rw [h]; simp, ho ▸ e⟩)
      rw [this.1]; exact ⟨hr, ho, this.2.trans hd⟩
    · intro h'; rw [h] at h'; cases h'

/-- Everything a transfer does but to the sequencer (R8, R67, R149, R153). -/
theorem transfer_spec {s t : State} {l : LineId} (ht : s.transfer l = t) :
    transferred s t l ∧ recordFollows s t l ∧ zonesFollow s t l ∧ keepsRecords transferKind s t
      ∧ (t.gzu l) = { s.gzu l with zones := (t.gzu l).zones, lalm := (t.gzu l).lalm } := by
  simp only [State.transfer] at ht
  generalize hu : s.transferLine l = u at ht
  obtain ⟨a1, a2, a3, a4, a5, a6, a7, a8⟩ := transferLine_spec hu
  obtain ⟨b1, b2, b3, b4, b5, b6, b7, b8⟩ := transferCal_spec ht
  have pc : (u.copies l).pendingCal = (s.copies l).pendingCal := by
    rw [a6]; split <;> rfl
  have hg : t.gzu l = u.gzu l := by simp [State.gzu, b2]
  have tll : t.liveLine l = u.liveLine l := by
    simp only [State.liveLine]; rw [b5]; split <;> rfl
  have b3' : ∀ p, (s.copies l).pendingCal = some p → raisedIn s t .configApplied (.line l) (p.tag.setWidth 16) := by
    intro p hp hl0
    have := b3 p (pc.trans hp) (by rw [a1.2.1]; exact hl0)
    rw [a1.1] at this; exact this
  refine ⟨⟨?_, ?_, ?_, ?_, ?_, ?_, ?_, ?_, ?_⟩, ⟨?_, ?_⟩, ?_, ?_, ?_⟩
  · intro p hp
    refine ⟨?_, ?_, fun hn => ?_⟩
    · rw [tll]; simp only [State.liveLine]; rw [a6, hp]
    · rw [b5]; split <;> (rw [a6, hp])
    · rw [b8 (pc.trans hn)]; exact a4 p hp
  · intro hn
    refine ⟨?_, ?_⟩
    · rw [tll]; simp only [State.liveLine]; rw [a6, hn]
    · rw [b5]; split <;> (rw [a6, hn])
  · intro p hp
    refine ⟨?_, ?_, b3' p hp⟩
    · simp only [State.liveCal]; rw [b5, pc, hp]
    · rw [b5, pc, hp]
  · intro hn
    rw [b8 (pc.trans hn)]
    refine ⟨?_, ?_⟩
    · simp only [State.liveCal]; rw [a6]; split <;> rfl
    · rw [a6]; split <;> rfl
  · refine ⟨?_, ?_⟩
    · have e : (u.copies l).pendingLine = none := by
        rw [a6]; split
        · assumption
        · rfl
      rw [b5]; split <;> exact e
    · rw [b5]; split
      · assumption
      · rfl
  · rw [b5]; split <;> (rw [a6]; split <;> rfl)
  · rw [b5]; split <;> (rw [a6]; split <;> rfl)
  · intro k hk; rw [b6 k hk, a7 k hk]
  · rw [b4, a5]
  · rintro (⟨hm, ho⟩ | ⟨hm, ho⟩)
    · have h1 := a8.1 ⟨hm, ho⟩
      have h2 := b7.2 (fun h => by rw [h1.2.1] at h; cases h.2)
      exact ⟨h2.1.trans h1.1, h2.2.1.trans h1.2.1, h2.2.2.trans h1.2.2⟩
    · have h1 := a8.2 (fun h => by rw [ho] at h; cases h.2)
      have h2 := b7.1 ⟨pc ▸ hm, h1.2.1.trans ho⟩
      rw [h1.1] at h2; exact h2
  · intro hn
    have h1 := a8.2 (fun h => hn (.inl h))
    have h2 := b7.2 (fun h => hn (.inr ⟨pc ▸ h.1, h1.2.1 ▸ h.2⟩))
    exact ⟨h2.1.trans h1.1, h2.2.1.trans h1.2.1, h2.2.2.trans h1.2.2⟩
  · exact zonesFollow_of a3 rfl tll rfl (by rw [hg]) (keepsRecords_refl (fun _ => False) s) b1 id (by decide)
  · exact keepsRecords_trans a1 (keepsRecords_mono (fun _ h => .inr h) b1)
  · rw [hg]; exact a2

/-! ## The sequencer at a transfer -/

/-- Outside SHUTDOWN a transfer leaves the sequencer (R26). -/
theorem transfer_driven {s t : State} {l : LineId} (ht : s.transfer l = t) (h : (s.ls l).state ≠ .shutdown) :
    t.ls l = s.ls l := by
  have e : ∀ x : State, (x.transferCal l).ls l = x.ls l := by intro x; simp [State.ls]
  rw [← ht, State.transfer, e, State.transferLine]
  split
  · rfl
  · rename_i p _
    have h1 : ((s.modCopies l fun c => { c with liveLine := p.bytes, pendingLine := none, lineTag := p.tag }).ls l).state
        ≠ .shutdown := h
    have := lsApply_driven _ l (s.liveLine l) h1
    simp [State.applyLine, State.ls, this]

/-- What the LS does in ALL_OFF_HOLD with a section made live (R20, R26). -/
theorem lsApply_hold {s t : State} {l : LineId} {old : Bytes} (ht : s.lsApply l old = t)
    (h : (s.ls l).state = .shutdown) (h2 : (s.ls l).stage = .allOffHold) :
    t.ls l = { s.ls l with
      causes := { (s.ls l).causes with coilHi := t.coilHiHolds l, trip := t.tripHolds l }
      restartTimer := if t.restartConditions l then
          some ((s.ls l).restartTimer.getD (restartDelayMs (t.liveLine l))) else none } := by
  have hv : ∀ f, (s.modLs l f).liveLine l = s.liveLine l := fun _ => rfl
  simp only [State.lsApply, h, if_true] at ht
  generalize hs1 : s.refreshCauses l = s1 at ht
  have a1 : s1.ls l = { s.ls l with causes := { (s.ls l).causes with coilHi := s.coilHiHolds l, trip := s.tripHolds l } } := by
    subst hs1; simp [State.refreshCauses]
  have b1 : s1.liveLine l = s.liveLine l := by subst hs1; rfl
  have c1 : s1.pins = s.pins := by subst hs1; rfl
  generalize hs2 : (if shutdownStateCode old = shutdownStateCode (s.liveLine l) then s1 else s1.modLs l (·.changeClamp)) = s2 at ht
  have a2 : s2.ls l = s1.ls l := by
    subst hs2; split
    · rfl
    · rw [modLs_ls, Sequencer.changeClamp, a1, h2]
  have b2 : s2.liveLine l = s.liveLine l := by subst hs2; rw [← b1]; split <;> rfl
  have c2 : s2.pins = s.pins := by subst hs2; rw [← c1]; split <;> rfl
  have a3 : t.ls l = { s2.ls l with
      restartTimer := if s2.restartConditions l then
        some ((s2.ls l).restartTimer.getD (restartDelayMs (s2.liveLine l))) else none } := by
    subst ht; simp [State.reexamTimer]
  have b3 : t.liveLine l = s.liveLine l := by subst ht; exact b2
  have c3 : t.pins = s.pins := by subst ht; exact c2
  have d1 : t.coilHiHolds l = s.coilHiHolds l := by simp only [State.coilHiHolds, b3, c3]
  have d2 : t.tripHolds l = s.tripHolds l := by simp only [State.tripHolds, State.tripActive, b3, a3, a2, a1]
  have d3 : t.restartConditions l = s2.restartConditions l := by simp only [State.restartConditions, b3, b2, a3]
  rw [d1, d2, d3, a3, b3, b2, a2, a1]

/-- In ALL_OFF_HOLD, with the causes that then hold, a transfer leaves of the sequencer all but the causes, which follow
the new settings, and the restart delay timer, which is examined by them (R20, R26). -/
theorem transfer_hold {s t : State} {l : LineId} (ht : s.transfer l = t) (h : (s.ls l).state = .shutdown)
    (h2 : (s.ls l).stage = .allOffHold) (h3 : (s.ls l).causes.coilHi = s.coilHiHolds l)
    (h4 : (s.ls l).causes.trip = s.tripHolds l) :
    ∃ r, t.ls l = { s.ls l with
        causes := { (s.ls l).causes with coilHi := t.coilHiHolds l, trip := t.tripHolds l }, restartTimer := r }
      ∧ (r = (s.ls l).restartTimer ∨ r = (if t.restartConditions l then
          some ((s.ls l).restartTimer.getD (restartDelayMs (t.liveLine l))) else none)) := by
  have e : ∀ x : State, (x.transferCal l).ls l = x.ls l := by intro x; simp [State.ls]
  have e2 : ∀ x : State, (x.transferCal l).liveLine l = x.liveLine l := by
    intro x; simp [State.liveLine, State.copies]
  have e3 : ∀ x : State, (x.transferCal l).pins = x.pins := by intro x; simp
  have ec : ∀ x : State, (x.transferCal l).coilHiHolds l = x.coilHiHolds l := by
    intro x; simp only [State.coilHiHolds, e2, e3]
  have et : ∀ x : State, (x.transferCal l).tripHolds l = x.tripHolds l := by
    intro x; simp only [State.tripHolds, State.tripActive, e2, e]
  have er : ∀ x : State, (x.transferCal l).restartConditions l = x.restartConditions l := by
    intro x; simp only [State.restartConditions, e2, e]
  subst ht
  simp only [State.transfer, e, ec, et, er, e2]
  generalize hu : s.transferLine l = u
  simp only [State.transferLine] at hu
  split at hu
  · subst hu
    refine ⟨(s.ls l).restartTimer, ?_, .inl rfl⟩
    rw [← h3, ← h4]
  · rename_i p _
    generalize hs1 : s.modCopies l (fun c => { c with liveLine := p.bytes, pendingLine := none, lineTag := p.tag }) = s1
    have q1 : s1.ls l = s.ls l := by subst hs1; simp [State.ls]
    have v1 : s1.liveLine l = p.bytes := by subst hs1; simp [State.liveLine, State.copies]
    generalize hs2 : s1.lsApply l (s.liveLine l) = s2
    have a := lsApply_hold hs2 (by rw [q1]; exact h) (by rw [q1]; exact h2)
    have hv : u.ls l = s2.ls l := by
      subst hu; simp only [State.applyLine, hs1, hs2]; simp [State.ls]
    have hw : u.liveLine l = s2.liveLine l := by
      subst hu; simp only [State.applyLine, hs1, hs2]; simp [State.liveLine, State.copies]
    have hp : u.pins = s2.pins := by
      subst hu; simp only [State.applyLine, hs1, hs2]; simp
    have c1 : u.coilHiHolds l = s2.coilHiHolds l := by simp only [State.coilHiHolds, hw, hp]
    have c2 : u.tripHolds l = s2.tripHolds l := by simp only [State.tripHolds, State.tripActive, hw, hv]
    have c3 : u.restartConditions l = s2.restartConditions l := by simp only [State.restartConditions, hw, hv]
    rw [q1] at a
    exact ⟨_, by rw [hv, c1, c2]; exact a, .inr (by rw [c3, hw])⟩

/-! ## Shutdown entry (R16) -/

theorem satInc_attempts (a : BitVec 3) : satInc a = if a = 7 then 7 else a + 1 := by
  revert a; decide

/-- A line's copies and records between two states. -/
theorem transferred_of {s u v t : State} {l : LineId} {p : Kind → Prop} (h : transferred u v l) (hu : u.cu = s.cu)
    (hv : t.cu = v.cu) (k : keepsRecords (fun _ => True) s u) (k' : keepsRecords p v t) (hp : ¬p .configApplied) :
    transferred s t l := by
  have lift : ∀ x : Half, raisedIn u v .configApplied (.line l) x → raisedIn s t .configApplied (.line l) x := by
    intro x hx hl
    have := keepsRecords_records k' hp (hx (by rw [k.2.1]; exact hl))
    rw [k.1] at this; exact this
  obtain ⟨h1, h2, h3, h4, h5, h6, h7, h8, h9⟩ := h
  simp only [transferred, nothingPending, State.liveLine, State.liveCal, State.copies, hu, hv] at *
  exact ⟨fun x hx => ⟨(h1 x hx).1, (h1 x hx).2.1, fun hn => lift _ ((h1 x hx).2.2 hn)⟩, h2,
    fun x hx => ⟨(h3 x hx).1, (h3 x hx).2.1, lift _ (h3 x hx).2.2⟩, h4, h5, h6, h7, h8, h9⟩

theorem recordFollows_of {s u v t : State} {l : LineId} (h : recordFollows u v l) (hu : u.cu = s.cu) (hv : t.cu = v.cu)
    (du : u.de.statusDirty = s.de.statusDirty) (dv : t.de.statusDirty = v.de.statusDirty) : recordFollows s t l := by
  simp only [recordFollows, State.copies, hu, hv, du, dv] at *
  exact h

/-- Step 6 of R16: the attempt counted, lockout at the limit (R19). -/
theorem countAttempt_spec {s t : State} {l : LineId} (ht : s.countAttempt l = t) :
    t.ls l = { s.ls l with
      attempts := attemptsAfter (s.ls l), lockout := (s.ls l).lockout || reachesLimit (s.ls l) t l }
    ∧ (reachesLimit (s.ls l) t l = true → raisedIn s t .restartLockout (.line l) ((attemptsAfter (s.ls l)).setWidth 16))
    ∧ keepsRecords (· = .restartLockout) s t ∧ t.cu = s.cu ∧ t.sru l = s.sru l ∧ t.gzu l = s.gzu l
    ∧ t.de.statusDirty = s.de.statusDirty ∧ t.pins = s.pins := by
  have ecu : t.cu = s.cu := by subst ht; simp
  have elv : t.liveLine l = s.liveLine l := by simp only [State.liveLine, State.copies, ecu]
  refine ⟨?_, ?_, ?_, ecu, by subst ht; simp [State.sru], by subst ht; simp [State.gzu], by subst ht; simp, by subst ht; simp⟩
  all_goals simp only [State.countAttempt] at ht
  · split at ht
    · rename_i h
      have e1 : reachesLimit (s.ls l) t l = false := by simp only [reachesLimit, h]; rfl
      have e2 : attemptsAfter (s.ls l) = (s.ls l).attempts := if_pos h
      rw [e1, e2, ← ht, Bool.or_false]
    · rename_i h
      have e2 : attemptsAfter (s.ls l) = satInc (s.ls l).attempts := by
        rw [satInc_attempts]; exact if_neg h
      split at ht
      · rename_i h2
        have e1 : reachesLimit (s.ls l) t l = true := by
          simp only [reachesLimit, elv, e2, h, h2]; rfl
        rw [e1, e2, Bool.or_true]; subst ht; simp [State.ls]
      · rename_i h2
        have e1 : reachesLimit (s.ls l) t l = false := by
          simp only [reachesLimit, elv, e2, h2]; simp
        rw [e1, e2, Bool.or_false]; subst ht; simp [State.ls]
  · simp only [attemptsAfter, reachesLimit, elv]
    split at ht
    · rename_i h; simp [h]
    · rename_i h
      rw [← satInc_attempts]
      simp only [h]
      split at ht
      · rename_i h2
        intro _
        exact raisedIn_of (p := fun _ => False) (keepsRecords_of (by simp) (by simp [State.liveDelivery])) ht.symm
          (keepsRecords_refl _ _) (fun h => h) (by simp)
      · rename_i h2
        simp [h2]
  · split at ht
    · subst ht; exact keepsRecords_refl _ _
    · split at ht
      · subst ht
        exact keepsRecords_trans (keepsRecords_of (by simp) (by simp [State.liveDelivery])) (keepsRecords_raise _ _ _ _ rfl)
      · subst ht; exact keepsRecords_of (by simp) (by simp [State.liveDelivery])

/-- The restart delay timer after a shutdown entry is the one its conditions give, whether the transfer examined it
before or not (R20). -/
theorem restart_timer {q : Sequencer} {t v : State} {l : LineId} {r : Option Nat}
    (hs : (t.ls l).state = .shutdown) (hv : v.liveLine l = t.liveLine l) (hc : (v.ls l).causes = (t.ls l).causes)
    (hl : (t.ls l).lockout = false → (v.ls l).lockout = false) (hw : (v.ls l).state = .shutdown)
    (h : r = q.restartTimer ∨ r = (if v.restartConditions l then
        some (q.restartTimer.getD (restartDelayMs (v.liveLine l))) else none)) :
    (if t.restartConditions l then some (r.getD (restartDelayMs (t.liveLine l))) else none) = timerAfter q t l := by
  have hcs : (t.ls l).causes.isEmpty = true ↔ (t.ls l).causes = { coilHi := false, trip := false, software := false } := by
    cases (t.ls l).causes with
    | mk a b c => cases a <;> cases b <;> cases c <;> simp [Causes.isEmpty]
  have ht : t.restartConditions l = true ↔ restartAuto (t.liveLine l) = true ∧ (t.ls l).lockout = false
      ∧ (t.ls l).causes = { coilHi := false, trip := false, software := false } := by
    rw [← hcs]; simp [State.restartConditions, hs, and_assoc]
  by_cases hx : t.restartConditions l = true
  · rw [if_pos hx, timerAfter, if_pos (ht.mp hx)]
    obtain ⟨x1, x2, x3⟩ := ht.mp hx
    have hy : v.restartConditions l = true := by
      simp [State.restartConditions, hw, hv, hc, x1, hl x2, hcs.mpr x3]
    rcases h with h | h
    · rw [h]
    · rw [h, if_pos hy, hv]; rfl
  · rw [if_neg hx, timerAfter, if_neg (fun h' => hx (ht.mpr h'))]

/-- Everything a shutdown entry does to its line (R16). -/
theorem shutdownEntry_spec {s t : State} {l : LineId} {c : Cause} (ht : s.shutdownEntry l c = t) :
    hasShutDown s t l c ∧ recordFollows s t l ∧ tripKept s t l ∧ keepsRecords (fun k => transferKind k
      ∨ k = .lineShutdown ∨ k = .restartLockout) s t := by
  have hde : deKeptButStatus s t := by
    subst ht; exact ⟨by rw [De.mk.injEq]; simp, fun p => by simp [State.page]⟩
  simp only [State.shutdownEntry] at ht
  generalize hs1 : ((s.modLs l fun q => q.shutdown c (s.coilHiHolds l) (s.tripHolds l)).modSru l (·.abandon)) = s1 at ht
  generalize hs2 : s1.raise .lineShutdown (.line l) c.code = s2 at ht
  generalize hs3 : s2.transfer l = s3 at ht
  generalize hs4 : s3.countAttempt l = s4 at ht
  generalize hs5 : s4.reexamTimer l = s5 at ht
  -- up to the transfer
  have a1 : s1.ls l = (s.ls l).shutdown c (s.coilHiHolds l) (s.tripHolds l) := by subst hs1; simp
  have a2 : s1.sru l = (s.sru l).abandon := by subst hs1; simp
  have a3 : s1.gzu l = s.gzu l := by subst hs1; simp [State.gzu]
  have a4 : s1.cu = s.cu := by subst hs1; simp
  have a5 : s1.nu = s.nu := by subst hs1; simp
  have a6 : s1.de = s.de := by subst hs1; simp
  have a7 : s1.pins = s.pins := by subst hs1; simp
  have b1 : s2.lines = s1.lines := by subst hs2; simp
  have b4 : s2.cu = s.cu := by subst hs2; simp [a4]
  have b6 : s2.de.statusDirty = s.de.statusDirty := by subst hs2; simp [a6]
  have b7 : s2.pins = s.pins := by subst hs2; simp [a7]
  have b8 : s2.ls l = s1.ls l := by simp only [State.ls, b1]
  have lv : s2.liveLine l = s.liveLine l := by simp only [State.liveLine, State.copies, b4]
  have hco : s2.coilHiHolds l = s.coilHiHolds l := by simp only [State.coilHiHolds, lv, b7]
  have htr : s2.tripHolds l = s.tripHolds l := by
    simp only [State.tripHolds, State.tripActive, lv, b8, a1]; rfl
  have k1 : keepsRecords (fun _ => False) s s1 := keepsRecords_of a5 (by simp [State.liveDelivery, a4])
  have k12 : keepsRecords (· = .lineShutdown) s s2 :=
    keepsRecords_trans (keepsRecords_mono (fun _ h => h.elim) k1) (by rw [← hs2]; exact keepsRecords_raise _ _ _ _ rfl)
  have k2 : keepsRecords (fun k => transferKind k ∨ k = .lineShutdown ∨ k = .restartLockout) s s2 :=
    keepsRecords_mono (fun _ h => .inr (.inl h)) k12
  -- the transfer
  obtain ⟨c1, c2, c3, c4, c5⟩ := transfer_spec hs3
  obtain ⟨r, d1, d2⟩ := transfer_hold hs3 (by rw [b8, a1]; rfl) (by rw [b8, a1]; rfl)
    (by rw [b8, a1, hco]; rfl) (by rw [b8, a1, htr]; rfl)
  have d3 : s3.sru l = s2.sru l := by subst hs3; simp [State.sru]
  have d4 : s3.pins = s2.pins := by subst hs3; simp
  -- the attempt
  obtain ⟨e1, e2, e3, e4, e5, e6, e7, e8⟩ := countAttempt_spec hs4
  -- the rest
  have f1 : s5.ls l = { s4.ls l with
      restartTimer := if s4.restartConditions l then
        some ((s4.ls l).restartTimer.getD (restartDelayMs (s4.liveLine l))) else none } := by
    subst hs5; simp [State.reexamTimer]
  have f2 : s5.cu = s4.cu ∧ s5.nu = s4.nu ∧ s5.de = s4.de ∧ s5.pins = s4.pins := by
    subst hs5; simp [State.reexamTimer]
  have f3 : s5.sru l = s4.sru l := by subst hs5; simp [State.sru]
  have f4 : s5.gzu l = s4.gzu l := by subst hs5; simp [State.gzu]
  have g1 : t.ls l = s5.ls l := by subst ht; simp [State.ls]
  have g2 : t.sru l = (s5.sru l).rest := by subst ht; simp [State.sru]
  have g3 : t.gzu l = { s5.gzu l with lineCopy := (s5.ls l).state, lalm := (t.gzu l).lalm } := by
    subst ht; simp [State.reportLineState, State.reevalLalm, State.gzu, State.markLine, State.ls]
  have g4 : t.cu = s5.cu ∧ t.nu = s5.nu ∧ t.de.statusDirty = s5.de.statusDirty ∧ t.pins = s5.pins := by
    subst ht; simp
  have tcu : t.cu = s3.cu := by rw [g4.1, f2.1, e4]
  have tlv : t.liveLine l = s3.liveLine l := by simp only [State.liveLine, State.copies, tcu]
  have tpin : t.pins = s3.pins := by rw [g4.2.2.2, f2.2.2.2, e8]
  have k4 : keepsRecords (fun k => k = .restartLockout) s3 t :=
    keepsRecords_trans e3 (keepsRecords_of (by rw [g4.2.1, f2.2.1]) (by simp only [State.liveDelivery, g4.1, f2.1]))
  have k5 : keepsRecords (fun _ => False) s4 t :=
    keepsRecords_of (by rw [g4.2.1, f2.2.1]) (by simp only [State.liveDelivery, g4.1, f2.1])
  have hlv4 : s4.liveLine l = s3.liveLine l := by simp only [State.liveLine, State.copies, e4]
  have hq : attemptsAfter (s3.ls l) = attemptsAfter (s.ls l) := by
    simp only [attemptsAfter, d1, b8, a1]; rfl
  have hr : reachesLimit (s3.ls l) s4 l = reachesLimit (s.ls l) t l := by
    have : (s3.ls l).profileSincePriming = (s.ls l).profileSincePriming := by rw [d1, b8, a1]; rfl
    simp only [reachesLimit, hq, this, hlv4, tlv]
  have hlo : (s3.ls l).lockout = (s.ls l).lockout := by rw [d1, b8, a1]; rfl
  have htl : (t.ls l).tripLevel = (s3.ls l).tripLevel := by rw [g1, f1, e1]
  have hca : (s3.ls l).causes = causesAt t l c := by
    have h1 : s3.coilHiHolds l = (coilHiEnable (t.liveLine l) && t.pins.coilHi[l]) := by
      simp only [State.coilHiHolds, tlv, tpin]
    have h2 : s3.tripHolds l = (tripEnable (t.liveLine l) && (t.ls l).tripLevel == tripActiveHigh (t.liveLine l)) := by
      simp only [State.tripHolds, State.tripActive, tlv, htl]
    rw [d1, b8, a1, h1, h2]; rfl
  have hst4 : (s4.ls l).state = .shutdown := by rw [e1, d1, b8, a1]; rfl
  have htm : (t.ls l).restartTimer = timerAfter (s.ls l) t l := by
    have x1 : (s4.ls l).restartTimer = r := by rw [e1, d1]
    have x2 : (t.ls l).restartTimer = (if t.restartConditions l then
        some (r.getD (restartDelayMs (t.liveLine l))) else none) := by
      have y1 : t.restartConditions l = s4.restartConditions l := by
        simp only [State.restartConditions, g1, f1, tlv, hlv4]
      rw [g1, f1, y1, tlv, x1, hlv4]
    rw [x2]
    refine restart_timer (v := s3) (q := s.ls l) ?_ tlv.symm ?_ ?_ ?_ ?_
    · rw [g1, f1]; exact hst4
    · rw [g1, f1, e1]
    · intro h; rw [g1, f1, e1] at h
      simp only [Bool.or_eq_false_iff] at h; exact h.1
    · rw [d1, b8, a1]; rfl
    · have : (s2.ls l).restartTimer = (s.ls l).restartTimer := by rw [b8, a1]; rfl
      rw [← this]; exact d2
  have hls : t.ls l = { s.ls l with
      state := .shutdown, phase := none, phaseTimer := none, bridge := Bridge.allOff, stage := .allOffHold
      holdTicks := 0, recorded := some c, causes := causesAt t l c, attempts := attemptsAfter (s.ls l)
      lockout := (s.ls l).lockout || reachesLimit (s.ls l) t l, restartTimer := timerAfter (s.ls l) t l } := by
    rw [← htm, ← hca, ← hr, ← hq, ← hlo, g1, f1, e1, d1, b8, a1]; rfl
  have hsr : t.sru l = ((s.sru l).abandon).rest := by
    rw [g2, f3, e5, d3]; simp only [State.sru, b1]; exact congrArg _ a2
  have hgz : t.gzu l = { s.gzu l with zones := (t.gzu l).zones, lineCopy := .shutdown, lalm := (t.gzu l).lalm } := by
    have : (s2.gzu l) = s.gzu l := by rw [← a3]; simp only [State.gzu, b1]
    have hss : (s5.ls l).state = .shutdown := by rw [f1]; exact hst4
    rw [g3, hss, f4, e6, c5, this]
  have tz : (t.gzu l).zones = (s3.gzu l).zones := by rw [g3, f4, e6]
  have sz : (s2.gzu l).zones = (s.gzu l).zones := by rw [← a3]; simp only [State.gzu, b1]
  have tst : t.de.statusDirty = s3.de.statusDirty := by rw [g4.2.2.1, f2.2.2.1, e7]
  have k34 : keepsRecords (fun k => transferKind k ∨ k = .restartLockout) s2 t :=
    keepsRecords_trans (keepsRecords_mono (fun _ h => .inl h) c4) (keepsRecords_mono (fun _ h => .inr h) k4)
  have htf : transferred s t l :=
    transferred_of c1 b4 tcu (keepsRecords_mono (fun _ _ => trivial) k2) k4 (fun h => by cases h)
  have hzf : zonesFollow s t l := zonesFollow_of c3 lv tlv sz tz k12 k4 (by decide) (by decide)
  refine ⟨⟨⟨?_, ?_, ?_, ?_, ?_, ?_, ?_, ?_, ?_, htf⟩, ?_, hgz, hzf, ?_⟩, ?_, ?_, ?_⟩
  · rw [hls]
  · exact raisedIn_of (keepsRecords_mono (fun _ h => h.elim) k1) hs2.symm k34
      (fun h => by rcases h with (h | h) | h <;> cases h) rfl
  · intro hx
    rw [← hr] at hx
    intro hl
    have hk : keepsRecords (fun _ => True) s s3 := keepsRecords_trans (keepsRecords_mono (fun _ _ => trivial) k2)
      (keepsRecords_mono (fun _ _ => trivial) c4)
    have := keepsRecords_records k5 (fun h => h) (e2 hx (by rw [hk.2.1]; exact hl))
    rw [hk.1, hq] at this; exact this
  · rw [hsr]; rfl
  · rw [hsr]; rfl
  · rw [hsr]; rfl
  · rw [hsr]; rfl
  · rw [hsr]; rfl
  · rw [hgz]
  · rw [hsr]; rfl
  · exact hde
  · exact recordFollows_of c2 b4 tcu b6 tst
  · rw [tripKept, hls]; exact ⟨rfl, rfl⟩
  · exact keepsRecords_trans k2 (keepsRecords_mono (fun _ h => h.elim .inl fun h => .inr (.inr h)) k34)

/-! ## Cycle start and PRIMING (R7, R10) -/

/-- Everything a cycle start does to its line (R7). -/
theorem cycleStart_spec {s t : State} {l : LineId} (ht : s.cycleStart l = t) (h : (s.ls l).state ≠ .shutdown) :
    atCycleStart s t l ∧ recordFollows s t l ∧ zonesFollow s t l ∧ keepsRecords transferKind s t
      ∧ t.ls l = { s.ls l with
          phase := some .leadGap, phaseTimer := some 0, bridge := Bridge.allOff, lengths := some (liveLengths t l)
          producing := (s.ls l).state == .running }
      ∧ t.sru l = { s.sru l with params := (t.sru l).params }
      ∧ (t.gzu l) = { s.gzu l with zones := (t.gzu l).zones, lalm := (t.gzu l).lalm }
      ∧ t.staging l = s.staging l := by
  simp only [State.cycleStart] at ht
  generalize hs1 : s.transfer l = s1 at ht
  obtain ⟨c1, c2, c3, c4, c5⟩ := transfer_spec hs1
  have a1 := transfer_driven hs1 h
  have a2 : s1.sru l = s.sru l := by subst hs1; simp [State.sru]
  have a3 : s1.staging l = s.staging l := by subst hs1; simp [State.staging]
  have b1 : t.ls l = (s1.ls l).startCycle (s1.liveLine l) := by subst ht; simp
  have b2 : t.sru l = { s1.sru l with
      params := some
        (cycleParams (s1.liveLine l) (s1.liveCal l) s.clock.tick (cycleLengths (s1.liveLine l)).total) } := by
    subst ht; simp
  have b3 : t.cu = s1.cu ∧ t.nu = s1.nu ∧ t.de = s1.de := by subst ht; simp
  have b4 : t.gzu l = s1.gzu l := by subst ht; simp [State.gzu]
  have lv : t.liveLine l = s1.liveLine l := by simp only [State.liveLine, State.copies, b3.1]
  have lc : t.liveCal l = s1.liveCal l := by simp only [State.liveCal, State.copies, b3.1]
  have k : keepsRecords (fun _ => False) s1 t := keepsRecords_of b3.2.1 (by simp only [State.liveDelivery, b3.1])
  have hls : t.ls l = { s.ls l with
      phase := some .leadGap, phaseTimer := some 0, bridge := Bridge.allOff, lengths := some (liveLengths t l)
      producing := (s.ls l).state == .running } := by
    rw [b1, a1, ← lv]; rfl
  refine ⟨⟨?_, ?_, ?_, ?_, ?_, ?_⟩, ?_, ?_, ?_, hls, ?_, ?_, ?_⟩
  · rw [hls]
  · rw [hls]
  · rw [hls]
  · rw [hls]
  · refine ⟨_, by rw [b2], ?_⟩
    simp only [lv, lc]
    simp [cycleParams, cycleLengths, CycleLengths.total]
  · exact transferred_of c1 rfl b3.1 (keepsRecords_refl _ _) k (fun h => h)
  · exact recordFollows_of c2 rfl b3.1 rfl (by rw [b3.2.2])
  · exact zonesFollow_of c3 rfl lv rfl (by rw [b4]) (keepsRecords_refl (fun _ => False) s) k id id
  · exact keepsRecords_trans c4 (keepsRecords_mono (fun _ h => h.elim) k)
  · rw [b2, a2]
  · rw [b4, c5]
  · simp only [State.staging, b3.2.2]; exact a3

/-- Everything an entry to PRIMING does to its line (R10). -/
theorem prime_spec {s t : State} {l : LineId} (ht : s.enterPriming l = t) :
    hasPrimed s t l ∧ recordFollows s t l ∧ keepsRecords transferKind s t
      ∧ t.ls l = { s.ls l with
          state := .priming, phase := some .leadGap, phaseTimer := some 0, bridge := Bridge.allOff
          lengths := some (liveLengths t l), producing := false, stage := .clamped, holdTicks := 0
          profileSincePriming := false, restartTimer := none }
      ∧ t.staging l = s.staging l := by
  simp only [State.enterPriming] at ht
  generalize hs1 : ((((s.modLs l (·.prime)).modSru l (·.prime)).modGzu l (·.prime)).reportLineState l) = s1 at ht
  have a1 : s1.ls l = (s.ls l).prime := by subst hs1; simp [State.ls]
  have a2 : s1.sru l = (s.sru l).prime := by subst hs1; simp [State.sru]
  have a3 : s1.gzu l = { (s.gzu l).prime with lineCopy := .priming, lalm := (s1.gzu l).lalm } := by
    subst hs1
    simp [State.gzu, State.reportLineState, State.reevalLalm, State.markLine, State.ls, Sequencer.prime]
  have a4 : s1.cu = s.cu ∧ s1.nu = s.nu ∧ s1.de.statusDirty = s.de.statusDirty ∧ s1.staging l = s.staging l
      ∧ s1.clock = s.clock := by
    subst hs1; simp [State.staging]
  have k : keepsRecords (fun _ => False) s s1 := keepsRecords_of a4.2.1 (by simp only [State.liveDelivery, a4.1])
  obtain ⟨⟨c1, c2, c3, c4, ⟨p, c5⟩, c6⟩, d1, d2, d3, d4, d5, d6, d7⟩ := cycleStart_spec ht (by rw [a1]; simp [Sequencer.prime])
  have htf : transferred s t l :=
    transferred_of c6 a4.1 rfl (keepsRecords_mono (fun _ h => h.elim) k) (keepsRecords_refl (fun _ => False) t) (fun h => h)
  have hls : t.ls l = { s.ls l with
      state := .priming, phase := some .leadGap, phaseTimer := some 0, bridge := Bridge.allOff
      lengths := some (liveLengths t l), producing := false, stage := .clamped, holdTicks := 0
      profileSincePriming := false, restartTimer := none } := by
    rw [d4, a1]; rfl
  have z : (s1.gzu l).zones = (s.gzu l).zones := by rw [a3]; rfl
  rw [a4.2.2.2.2] at c5
  refine ⟨⟨?_, ⟨c1, c2, c3, c4, ⟨p, c5⟩, htf⟩, ?_, ?_, ?_, ?_, ?_, ?_, ?_, ?_, ?_, ?_, ?_⟩, ?_, ?_, hls, ?_⟩
  · rw [hls]
  · rw [hls]
  · rw [hls]
  · rw [hls]
  · intro k; rw [d5, a2]; simp [Sru.prime]
  · rw [d5, a2]; simp [Sru.prime]
  · rw [d5, a2]; simp [Sru.prime]
  · rw [d5, a2]; simp [Sru.prime]
  · rw [d6, a3]; rfl
  · intro k; rw [d6, a3]; simp [Gzu.prime]
  · exact zonesFollow_of d2 (by simp only [State.liveLine, State.copies, a4.1]) rfl z rfl k
      (keepsRecords_refl (fun _ => False) t) id id
  · rw [d6, a3]
  · exact recordFollows_of d1 a4.1 rfl a4.2.2.1 rfl
  · exact keepsRecords_trans (keepsRecords_mono (fun _ h => h.elim) k) d3
  · rw [d7, a4.2.2.2.1]

/-- A shutdown entry that follows a transfer in the same action, with nothing left pending (R13, R15, R153). -/
theorem shutDownFrom_after {s u t : State} {l : LineId} {q : Sequencer} {c : Cause} {p p' : Kind → Prop}
    (h : transferred s u l) (k : keepsRecords p s u) (h' : shutDownFrom q u t l c) (k' : keepsRecords p' u t)
    (hp : ¬p' .configApplied) : shutDownFrom q s t l c := by
  have lift : ∀ kd x, raisedIn u t kd (.line l) x → raisedIn s t kd (.line l) x := by
    intro kd x hx hl
    have := hx (by rw [k.2.1]; exact hl)
    rw [k.1] at this; exact this
  have keep : ∀ x, raisedIn s u .configApplied (.line l) x → raisedIn s t .configApplied (.line l) x :=
    fun x hx hl => keepsRecords_records k' hp (hx hl)
  obtain ⟨a1, a2, a3, a4, a5, a6, a7, a8, a9, a10⟩ := h'
  refine ⟨a1, lift _ _ a2, fun hx => lift _ _ (a3 hx), a4, a5, a6, a7, a8, a9, ?_⟩
  obtain ⟨h1, h2, h3, h4, ⟨h5, h5'⟩, h6, h7, h8, h9⟩ := h
  obtain ⟨-, g2, -, g4, g5, g6, g7, g8, g9⟩ := a10
  have e1 := g2 h5
  have e2 := g4 h5'
  refine ⟨fun x hx => ⟨e1.1.trans (h1 x hx).1, e1.2.trans (h1 x hx).2.1, fun hn => keep _ ((h1 x hx).2.2 hn)⟩,
    fun hn => ⟨e1.1.trans (h2 hn).1, e1.2.trans (h2 hn).2⟩,
    fun x hx => ⟨e2.1.trans (h3 x hx).1, e2.2.trans (h3 x hx).2.1, keep _ (h3 x hx).2.2⟩,
    fun hn => ⟨e2.1.trans (h4 hn).1, e2.2.trans (h4 hn).2⟩, g5, g6.trans h6, g7.trans h7,
    fun k hk => (g8 k hk).trans (h8 k hk), ?_⟩
  rw [g9, h9]

end Sys2Proof.Machine
end

