-- ==== Sys2Proof/Laws/Attendance.lean ====
section
/-! SUPPORT. The watch windows: which windows a request matches, what holds the part UNATTENDED, and what re-deriving the
attendance does (spec/09 R165, R166, R171, R172). -/

namespace Sys2Proof.Machine
open Sys2Proof

/-! ## Windows (R165, R166, R171) -/

theorem matchesWindow_iff {s : State} {addr : Addr} {write : Bool} {w : WindowId} :
    s.matchesWindow addr.toNat write w = true ↔ matchedBy s addr write w := by
  cases write <;> simp [State.matchesWindow, matchedBy, WindowDef.covers, and_assoc]

theorem holdsUnattended_iff {s : State} {w : WindowId} : s.holdsUnattended w = true ↔ holdsPart s w := by
  simp [State.holdsUnattended, holdsPart, and_assoc]

theorem mem_unattendedWindows {s : State} {w : WindowId} : w ∈ s.unattendedWindows ↔ holdsPart s w := by
  simp [State.unattendedWindows, holdsUnattended_iff]

theorem derivedAttendance_iff {s : State} : s.derivedAttendance = .unattended ↔ ∃ w : WindowId, holdsPart s w := by
  unfold State.derivedAttendance
  split
  · rename_i h
    refine ⟨fun x => (by cases x), fun ⟨w, hw⟩ => ?_⟩
    have x := mem_unattendedWindows.mpr hw
    rw [List.isEmpty_iff.mp h] at x
    cases x
  · rename_i h
    refine ⟨fun _ => ?_, fun _ => rfl⟩
    obtain ⟨w, hw⟩ := List.exists_mem_of_ne_nil _ fun x => h (List.isEmpty_iff.mpr x)
    exact ⟨w, mem_unattendedWindows.mp hw⟩

/-- The lowest of the windows that a test admits. -/
theorem lowestWindow_filter {p : WindowId → Bool} {w : WindowId} (h : p w = true)
    (hl : ∀ v : WindowId, v < w → ¬p v = true) : lowestWindow ((List.finRange 8).filter p) = w.val := by
  have key : ∀ l : List WindowId, l.Pairwise (· < ·) → w ∈ l → lowestWindow (l.filter p) = w.val := by
    intro l
    induction l with
    | nil => intro _ hm; cases hm
    | cons x xs ih =>
      intro hp hm
      rcases List.mem_cons.mp hm with rfl | hm
      · rw [List.filter_cons_of_pos h]; rfl
      · rw [List.filter_cons_of_neg (hl x ((List.pairwise_cons.mp hp).1 w hm))]
        exact ih (List.pairwise_cons.mp hp).2 hm
  exact key _ (List.pairwise_lt_finRange 8) (List.mem_finRange w)

/-! ## The attendance (R171, R172) -/

theorem holdsPart_congr {s t : State} (h : t.wu.windows = s.wu.windows) (h' : t.cu = s.cu) (w : WindowId) :
    holdsPart t w ↔ holdsPart s w := by
  simp only [holdsPart, State.windowDef, State.window, h, h']

theorem reportAttendance_attCopy (s : State) (k l : LineId) :
    ((s.reportAttendance k).gzu l).attCopy = if l = k then s.wu.attendance else (s.gzu l).attCopy := by
  simp only [State.reportAttendance, State.reevalLalm]
  split
  · rename_i h
    subst h
    simp
  · rename_i h
    simp [State.gzu, modGzu_lines_other, h]

/-- Every GZU is told of the attendance. -/
theorem reportAttendanceAll_attCopy (s : State) (l : LineId) :
    (s.reportAttendanceAll.gzu l).attCopy = s.wu.attendance := by
  have key : ∀ (ks : List LineId) (u : State), u.wu.attendance = s.wu.attendance →
      (l ∈ ks ∨ (u.gzu l).attCopy = s.wu.attendance) →
      ((ks.foldl (fun t k => t.reportAttendance k) u).gzu l).attCopy = s.wu.attendance := by
    intro ks
    induction ks with
    | nil => exact fun u _ h => h.resolve_left (List.not_mem_nil)
    | cons k ks ih =>
      intro u hu h
      refine ih _ (by rw [(reportAttendance_frame u k).2.2.2.2.1]; exact hu) ?_
      rw [reportAttendance_attCopy]
      by_cases e : l = k
      · exact .inr (by rw [if_pos e, hu])
      · rw [if_neg e]
        exact h.imp (fun m => (List.mem_cons.mp m).resolve_left e) id
  exact key _ s rfl (.inl (List.mem_finRange l))

theorem markPart_gzu (s : State) (l : LineId) : s.markPart.gzu l = s.gzu l := rfl

theorem markPart_isDirty (s : State) : isDirty s.markPart partPage := by
  simp [isDirty, State.markPart, State.markPage, State.modPage, State.page, modAt]

/-- The attendance becomes `a`, with its notice and the report to every GZU. -/
theorem attendance_changes {s t : State} {a : Attendance} {k : Kind} {d : Nat}
    (ht : (((s.modWu fun u => { u with attendance := a }).raise k .part d).reportAttendanceAll).markPart = t) :
    t.wu.attendance = a ∧ isDirty t partPage ∧ (∀ l : LineId, (t.gzu l).attCopy = a)
      ∧ raisedIn s t k .part (BitVec.ofNat 16 d) := by
  subst ht
  refine ⟨by simp, markPart_isDirty _, fun l => ?_, fun h => ?_⟩
  · rw [markPart_gzu, reportAttendanceAll_attCopy]
    simp
  · rw [markPart_nu, (reportAttendanceAll_frame _).2.2.1]
    exact raise_records (s.modWu fun u => { u with attendance := a }) k .part d h

/-- What re-deriving the attendance does. -/
theorem rederiveAttendance_spec {s t : State} {d : Nat} (ht : s.rederiveAttendance d = t) :
    attendanceFollows s t ∧ t.wu.windows = s.wu.windows ∧ t.wu.ownedHits = s.wu.ownedHits ∧ t.cu = s.cu
      ∧ (s.wu.attendance = .attended → t.wu.attendance = .unattended →
          raisedIn s t .unattended .part (BitVec.ofNat 16 d))
      ∧ (s.wu.attendance = .unattended → t.wu.attendance = .attended →
          raisedIn s t .attended .part (BitVec.ofNat 16 d))
      ∧ (t.wu.attendance = s.wu.attendance → t = s) := by
  have hw : t.wu.windows = s.wu.windows := by subst ht; simp
  have hc : t.cu = s.cu := by subst ht; simp
  have ho : t.wu.ownedHits = s.wu.ownedHits := by subst ht; simp
  have hold : (∃ w : WindowId, holdsPart t w) ↔ s.derivedAttendance = .unattended := by
    rw [derivedAttendance_iff]
    exact exists_congr fun w => holdsPart_congr hw hc w
  unfold attendanceFollows
  rw [hold]
  unfold State.rederiveAttendance at ht
  split at ht <;> rename_i ha hd
  · obtain ⟨h1, h2, h3, h4⟩ := attendance_changes ht
    rw [h1, hd, ha]
    exact ⟨⟨Iff.rfl, fun _ => ⟨h2, h3⟩, (fun x => nomatch x)⟩, hw, ho, hc, fun _ _ => h4, (fun x => nomatch x),
      (fun x => nomatch x)⟩
  · obtain ⟨h1, h2, h3, h4⟩ := attendance_changes ht
    rw [h1, hd, ha]
    exact ⟨⟨Iff.rfl, fun _ => ⟨h2, h3⟩, (fun x => nomatch x)⟩, hw, ho, hc, (fun x => nomatch x), fun _ _ => h4,
      (fun x => nomatch x)⟩
  all_goals
    subst ht
    exact ⟨⟨by rw [ha, hd], fun x => absurd rfl x, fun _ => ⟨notRaised_refl .., notRaised_refl .., fun _ => rfl⟩⟩,
      rfl, rfl, rfl, (fun x y => nomatch x.symm.trans y), (fun x y => nomatch x.symm.trans y), fun _ => rfl⟩

/-! ## Matching (R166) -/

/-- A change of each window of a list, one after another. -/
theorem foldWindows (f : WindowId → Window → Window) (ws : List WindowId) (hn : ws.Nodup) (s : State) :
    let t := ws.foldl (fun t w => t.modWindow w (f w)) s
    (∀ w : WindowId, t.window w = if w ∈ ws then f w (s.window w) else s.window w)
      ∧ t = { s with wu := { s.wu with windows := t.wu.windows } } := by
  induction ws generalizing s with
  | nil => exact ⟨fun w => rfl, rfl⟩
  | cons x xs ih =>
    obtain ⟨h1, h2⟩ := ih (List.nodup_cons.mp hn).2 (s.modWindow x (f x))
    have hx := (List.nodup_cons.mp hn).1
    refine ⟨fun w => ?_, h2⟩
    rw [List.foldl_cons, h1 w]
    by_cases e : w = x
    · subst e; simp [hx]
    · simp [e, modWindow_other _ _ _ _ e]

/-- What matching a request does. -/
theorem matchAll_spec {s t : State} {addr : Addr} {write : Bool} (ht : s.matchAll addr.toNat write = t) :
    windowsMatched s t addr write ∧ (∀ w : WindowId, (t.window w).guardHits = (s.window w).guardHits)
      ∧ attendanceFollows s t ∧ attendedAgain s t := by
  unfold State.matchAll at ht
  have hn : ((List.finRange 8).filter fun w => s.matchesWindow addr.toNat write w).Nodup :=
    (List.nodup_finRange 8).filter _
  obtain ⟨hw, hu⟩ := foldWindows (fun w => matchWindow (s.windowDef w).timeoutMs) _ hn s
  obtain ⟨ha, h1, _, _, _, h5, _⟩ := rederiveAttendance_spec ht
  have win (w : WindowId) : t.window w
      = if s.matchesWindow addr.toNat write w = true then matchWindow (s.windowDef w).timeoutMs (s.window w) else s.window w := by
    have : t.window w = _ := (congrArg (fun x : Vector Window 8 => x[w]) h1).trans (hw w)
    rw [this]
    simp only [List.mem_filter, List.mem_finRange, true_and]
  generalize List.foldl _ s _ = u at hu ha h5
  refine ⟨fun w => ⟨fun h => ?_, fun h => ?_⟩, fun w => ?_, ?_, fun x y w h hl => ?_⟩
  · rw [win w, if_pos (matchesWindow_iff.mpr h)]; rfl
  · rw [win w, if_neg fun x => h (matchesWindow_iff.mp x)]
  · rw [win w]; split <;> rfl
  · rw [hu] at ha; exact ha
  · have x' : u.wu.attendance = .unattended := by rw [hu]; exact x
    have r := h5 x' y
    rw [show s.unattendedWindows = (List.finRange 8).filter fun w => s.holdsUnattended w from rfl,
      lowestWindow_filter (p := fun w => s.holdsUnattended w) (holdsUnattended_iff.mpr h)
        fun v hv z => hl v hv (holdsUnattended_iff.mp z)] at r
    rw [hu] at r
    exact r

/-! ## A page write of the initialization ends (R162) -/

theorem pageEnded_spec {s t : State} {p : PageId} (ht : s.pageEnded p = t) : initFollows s t p := by
  have hf : s.cu.initLeft.filter (fun q => decide (q ≠ p)) = s.cu.initLeft.filter (· != p) := by
    congr 1; funext q; by_cases h : q = p <;> simp [h]
  subst ht
  unfold initFollows State.pageEnded
  simp only [hf]
  split
  · rename_i h
    split
    · rename_i he
      exact ⟨fun x => absurd h x, fun _ x => absurd (List.isEmpty_iff.mp he) x,
        fun _ _ => ⟨by simp [State.markPart], markPart_isDirty _⟩⟩
    · rename_i he
      exact ⟨fun x => absurd h x, fun _ _ => rfl, fun _ x => absurd (List.isEmpty_iff.mpr x) he⟩
  · rename_i h
    exact ⟨fun _ => rfl, fun x => absurd x h, fun x => absurd x h⟩

/-! ## An index reset write on the port at an arming (R81) -/

theorem kept_iff {s : State} {b : Bytes} {r : RingId} :
    (ringEnable b r.val && (s.ring r).kept b r) = true ↔ ringKept s b r := by
  simp [RingDesc.kept, ringKept, and_assoc]

/-- Of the port an arming changes at most the overtaken mark of an index reset write whose ring it does not keep. -/
theorem overtake_spec (s : State) (b : Bytes) :
    (∀ r o x, s.mp.port = .de (.indexReset r o) x →
        (ringKept s b r → s.mp.port.overtake b s.de.rings = s.mp.port)
        ∧ (¬ringKept s b r → s.mp.port.overtake b s.de.rings = .de (.indexReset r true) x))
      ∧ ((∀ r o x, s.mp.port ≠ .de (.indexReset r o) x) → s.mp.port.overtake b s.de.rings = s.mp.port) := by
  refine ⟨fun r o x h => ?_, fun h => ?_⟩
  · rw [← kept_iff, h]
    have e : (s.ring r).kept b r = s.de.rings[r].kept b r := rfl
    rw [e]
    have e' : (Port.de (.indexReset r o) x).overtake b s.de.rings
        = .de (.indexReset r (o || !(ringEnable b r.val && s.de.rings[r].kept b r))) x := rfl
    rw [e']
    exact ⟨fun k => by rw [k, Bool.not_true, Bool.or_false],
      fun k => by rw [Bool.eq_false_iff.mpr k, Bool.not_false, Bool.or_true]⟩
  · unfold Port.overtake
    split
    · rename_i r o x hp
      exact absurd hp (h r o x)
    all_goals rfl

end Sys2Proof.Machine
end

