-- ==== Sys2Proof/Laws/Arming.lean ====
section
/-! SUPPORT. What an arming does (R79, R80, R156): the notices that are raised in it, the suppression of a WAITING
write, and the operation as a whole, in the words of `armsBy`. -/

namespace Sys2Proof.Machine
open Sys2Proof

/-! ## Notices of the part, raised one after another -/

/-- From `s` to `t` the NU only took notices of the part, of these kinds. -/
def onlyRaised (ks : Kind → Prop) (s t : State) : Prop :=
  (∀ o, s.nu.offer = some o → t.nu.offer = some o)
    ∧ (s.nu.backlog ≠ [] → t.nu.offer = s.nu.offer)
    ∧ (∀ b ∈ s.nu.backlog, ¬(ks b.entry.kind ∧ b.entry.source = .part) → b ∈ t.nu.backlog)
    ∧ (∀ b ∈ s.nu.backlog, ∃ x ∈ t.nu.backlog, x.entry.kind = b.entry.kind ∧ x.entry.source = b.entry.source
        ∧ x.entry.first = b.entry.first)
    ∧ (∀ k src d now, ¬ks k → records s.nu k src d now → records t.nu k src d now)
    ∧ t.nu.outstanding = s.nu.outstanding ∧ t.nu.sequence = s.nu.sequence ∧ t.nu.ms = s.nu.ms

theorem onlyRaised_of {ks : Kind → Prop} {s t : State} (h : t.nu = s.nu) : onlyRaised ks s t := by
  unfold onlyRaised
  rw [h]
  exact ⟨fun _ x => x, fun _ => rfl, fun _ x _ => x, fun b x => ⟨b, x, rfl, rfl, rfl⟩, fun _ _ _ _ _ x => x, rfl, rfl, rfl⟩

theorem onlyRaised_trans {ks : Kind → Prop} {s t u : State} (h : onlyRaised ks s t) (h' : onlyRaised ks t u) :
    onlyRaised ks s u := by
  obtain ⟨a1, a2, a3, a4, a5, a6, a7, a8⟩ := h
  obtain ⟨b1, b2, b3, b4, b5, b6, b7, b8⟩ := h'
  refine ⟨fun o x => b1 o (a1 o x), fun x => ?_, fun b x y => b3 b (a3 b x y) y, fun b x => ?_,
    fun k src d now n r => b5 k src d now n (a5 k src d now n r), b6.trans a6, b7.trans a7, b8.trans a8⟩
  · obtain ⟨b, bs, e⟩ := List.exists_cons_of_ne_nil x
    obtain ⟨z, hz, _⟩ := a4 b (e ▸ List.mem_cons_self)
    rw [b2 (List.ne_nil_of_mem hz), a2 x]
  · obtain ⟨y, hy, y1, y2, y3⟩ := a4 b x
    obtain ⟨z, hz, z1, z2, z3⟩ := b4 y hy
    exact ⟨z, hz, z1.trans y1, z2.trans y2, z3.trans y3⟩

theorem onlyRaised_mono {ks ks' : Kind → Prop} {s t : State} (hk : ∀ k, ks k → ks' k) (h : onlyRaised ks s t) :
    onlyRaised ks' s t :=
  ⟨h.1, h.2.1, fun b x y => h.2.2.1 b x fun z => y ⟨hk _ z.1, z.2⟩, h.2.2.2.1,
    fun k src d now n r => h.2.2.2.2.1 k src d now (fun z => n (hk _ z)) r, h.2.2.2.2.2⟩

theorem merge_first (b : BacklogEntry) (v : Nat) (d : Half) (now : Word) :
    (b.merge v d now).entry.first = b.entry.first := by
  unfold BacklogEntry.merge; split <;> rfl

/-- One notice of the part is raised. -/
theorem raise_onlyRaised (s : State) (k : Kind) (d : Nat) : onlyRaised (· = k) s (s.raise k .part d) := by
  refine ⟨fun o ho => ?_, fun hb => ?_, fun b hb hn => ?_, fun b hb => ?_,
    fun k' src d' now hn hr => raise_records_other s k k' .part src d d' now (fun e => hn e.symm) hr,
    raise_outstanding .., raise_sequence .., raise_ms ..⟩
  all_goals
    unfold State.raise
    split
  · exact ho
  · show (s.dispose k .part _ _).nu.offer = some o
    unfold State.dispose
    rw [if_neg (by simp [State.offerFree, ho])]
    exact ho
  · rfl
  · show (s.dispose k .part _ _).nu.offer = _
    unfold State.dispose
    rw [if_neg (by simp [State.offerFree, hb])]
    rfl
  · exact hb
  · show b ∈ (s.dispose k .part _ _).nu.backlog
    unfold State.dispose
    split
    · exact hb
    · show b ∈ mergeBacklog ..
      unfold mergeBacklog
      split
      · refine List.mem_map.mpr ⟨b, hb, if_neg fun hp => hn ((isPair_iff ..).mp hp)⟩
      · exact List.mem_append_left _ hb
  · exact ⟨b, hb, rfl, rfl, rfl⟩
  · show ∃ x ∈ (s.dispose k .part _ _).nu.backlog, _
    unfold State.dispose
    split
    · exact ⟨b, hb, rfl, rfl, rfl⟩
    · show ∃ x ∈ mergeBacklog .., _
      unfold mergeBacklog
      split
      · refine ⟨_, List.mem_map.mpr ⟨b, hb, rfl⟩, ?_⟩
        split
        · exact ⟨merge_kind .., merge_source .., merge_first ..⟩
        · exact ⟨rfl, rfl, rfl⟩
      · exact ⟨b, List.mem_append_left _ hb, rfl, rfl, rfl⟩

/-! ## The report of a suppressed write (R138, R170) -/

theorem reportGuard_spec (s : State) (w : WindowId) :
    (s.reportGuard w).wu = (s.modWindow w fun x => { x with guardHits := satInc x.guardHits }).wu
      ∧ onlyRaised (· = .guardHit) s (s.reportGuard w)
      ∧ (s.levelOf .guardHit ≠ 0 → records (s.reportGuard w).nu .guardHit .part (BitVec.ofNat 16 w.val) s.nu.ms) := by
  unfold State.reportGuard
  refine ⟨(raise_frame ..).2.2.2.2.1, ?_, fun h => ?_⟩
  · exact onlyRaised_trans (t := s.modWindow w fun x => { x with guardHits := satInc x.guardHits }) (onlyRaised_of rfl)
      (raise_onlyRaised _ _ _)
  · exact raise_records (s.modWindow w fun x => { x with guardHits := satInc x.guardHits }) _ _ _ h

/-- Guard hits of windows of a list, reported one after another. -/
theorem reportGuards_spec (ws : List WindowId) (hn : ws.Nodup) (s : State) :
    let t := ws.foldl (fun t w => t.reportGuard w) s
    (∀ w : WindowId, t.window w
        = if w ∈ ws then { s.window w with guardHits := satInc (s.window w).guardHits } else s.window w)
      ∧ t.wu = { s.wu with windows := t.wu.windows } ∧ t.cu = s.cu
      ∧ onlyRaised (· = .guardHit) s t
      ∧ (∀ w, ws.getLast? = some w → s.levelOf .guardHit ≠ 0 →
          records t.nu .guardHit .part (BitVec.ofNat 16 w.val) s.nu.ms) := by
  induction ws generalizing s with
  | nil => exact ⟨fun w => rfl, rfl, rfl, onlyRaised_of rfl, fun w h => by cases h⟩
  | cons x xs ih =>
    obtain ⟨hx, hn⟩ := List.nodup_cons.mp hn
    obtain ⟨g1, g2, g3⟩ := reportGuard_spec s x
    have g4 := (reportGuard_frame s x).2.1
    obtain ⟨h1, h2, h3, h4, h5⟩ := ih hn (s.reportGuard x)
    have hl : (s.reportGuard x).levelOf .guardHit = s.levelOf .guardHit := by
      simp [State.levelOf, State.liveDelivery]
    have hw0 : ∀ w, (s.reportGuard x).window w
        = (s.modWindow x fun x => { x with guardHits := satInc x.guardHits }).window w := fun w => by
      unfold State.window; rw [g1]
    simp only [List.foldl_cons]
    generalize hu : s.reportGuard x = u at g1 g2 g3 g4 h1 h2 h3 h4 h5 hl hw0
    generalize ht : xs.foldl (fun t w => t.reportGuard w) u = t at h1 h2 h3 h4 h5
    refine ⟨fun w => ?_, ?_, h3.trans g4, onlyRaised_trans g2 h4, fun w hw hv => ?_⟩
    · rw [h1 w, hw0 w]
      by_cases e : w = x
      · subst e
        simp [hx]
      · simp [e, modWindow_other _ _ _ _ e]
    · rw [h2, g1]; rfl
    · cases xs with
      | nil =>
        cases hw
        rw [← show u = t from ht]
        exact g3 hv
      | cons y ys =>
        rw [List.getLast?_cons_cons] at hw
        rw [← g2.2.2.2.2.2.2.2]
        exact h5 w hw (hl ▸ hv)

/-- The last window of those that guard an address is the highest. -/
theorem guardWindows_last {s : State} {addr : Addr} {w : WindowId} (h : guardedBy s addr w)
    (hh : ∀ v : WindowId, w < v → ¬guardedBy s addr v) : (s.guardWindows addr).getLast? = some w := by
  have hp : (s.guardWindows addr).Pairwise (· < ·) := (List.pairwise_lt_finRange 8).filter _
  have hm : ∀ v, v ∈ s.guardWindows addr ↔ guardedBy s addr v := fun v => by
    simp [State.guardWindows, guards_iff]
  have hw := (hm w).mpr h
  have hn : ∀ v ∈ s.guardWindows addr, ¬w < v := fun v hv hlt => hh v hlt ((hm v).mp hv)
  generalize s.guardWindows addr = ws at hp hw hn
  induction ws with
  | nil => cases hw
  | cons x xs ih =>
    obtain ⟨hx, hp⟩ := List.pairwise_cons.mp hp
    cases xs with
    | nil => rw [List.mem_singleton.mp hw]; rfl
    | cons y ys =>
      rw [List.getLast?_cons_cons]
      refine ih hp ?_ fun v hv => hn v (List.mem_cons_of_mem _ hv)
      rcases List.mem_cons.mp hw with hw | hw
      · exact absurd (hw ▸ hx y List.mem_cons_self) (hn y (List.mem_cons_of_mem _ List.mem_cons_self))
      · exact hw

theorem ownedHit_congr {s t : State} (h1 : t.de.rings = s.de.rings) (h2 : t.wu.base = s.wu.base)
    (h3 : t.cu.frozen = s.cu.frozen) (addr : Addr) (c : Nat) : ownedHit t addr c ↔ ownedHit s addr c := by
  unfold ownedHit ownedAs inRegionOf liesAt State.ring
  rw [h1, h2, h3]

theorem guardedBy_congr {s t : State} (h : t.cu.liveWindows = s.cu.liveWindows) (addr : Addr) (w : WindowId) :
    guardedBy t addr w ↔ guardedBy s addr w := by
  unfold guardedBy State.windowDef
  rw [h]

/-- An owned class code lies in 8 to 13 (Tables 7-1 and 7-2, R138). -/
theorem ownedHit_range {s : State} {addr : Addr} {c : Nat} (h : ownedHit s addr c) : 8 ≤ c ∧ c ≤ 13 := by
  obtain ⟨_, _, h | h⟩ := h
  · unfold ownedAs at h; omega
  · omega

/-- What reporting a suppressed write does. -/
theorem reportSuppression_spec (s : State) (addr : Addr) :
    suppressionReported s s (s.reportSuppression addr) addr
      ∧ (s.reportSuppression addr).wu = { s.wu with
          ownedHits := (s.reportSuppression addr).wu.ownedHits, windows := (s.reportSuppression addr).wu.windows }
      ∧ (∀ w : WindowId, (s.reportSuppression addr).window w
          = { s.window w with guardHits := ((s.reportSuppression addr).window w).guardHits })
      ∧ onlyRaised (· = .guardHit) s (s.reportSuppression addr) := by
  have hn : (s.guardWindows addr).Nodup := (List.nodup_finRange 8).filter _
  have hm : ∀ v, v ∈ s.guardWindows addr ↔ guardedBy s addr v := fun v => by
    simp [State.guardWindows, guards_iff]
  have H : ∀ u : State, (match s.ownedCause addr with | some c => s.reportOwned c | none => s) = u →
      (∀ x : Fin 6, (ownedHit s addr (x.val + 8) → u.wu.ownedHits[x] = satInc s.wu.ownedHits[x])
        ∧ (¬ownedHit s addr (x.val + 8) → u.wu.ownedHits[x] = s.wu.ownedHits[x]))
      ∧ u.wu = { s.wu with ownedHits := u.wu.ownedHits } ∧ u.cu = s.cu ∧ onlyRaised (· = .guardHit) s u
      ∧ (∀ x : Fin 6, ownedHit s addr (x.val + 8) → s.levelOf .guardHit ≠ 0 →
          records u.nu .guardHit .part (BitVec.ofNat 16 (x.val + 8)) s.nu.ms) := by
    intro u hu
    cases hc : s.ownedCause addr with
    | none =>
      have hno : ∀ c, ¬ownedHit s addr c := fun c h => by rw [ownedCause_iff.mpr h] at hc; cases hc
      rw [hc] at hu
      replace hu : s = u := hu
      subst hu
      exact ⟨fun x => ⟨fun h => absurd h (hno _), fun _ => rfl⟩, rfl, rfl, onlyRaised_of rfl, fun x h => absurd h (hno _)⟩
    | some c =>
      rw [hc] at hu
      replace hu : s.reportOwned c = u := hu
      have ho := ownedCause_iff.mp hc
      have hr := ownedHit_range ho
      have hone : ∀ x : Fin 6, ownedHit s addr (x.val + 8) ↔ x = Fin.ofNat 6 (c - 8) := fun x => by
        rw [← ownedCause_iff, hc, Option.some.injEq, Fin.ext_iff]
        simp only [Fin.ofNat]
        omega
      have hwu : u.wu = { s.wu with ownedHits := modAt s.wu.ownedHits (Fin.ofNat 6 (c - 8)) satInc } := by
        rw [← hu]; exact (raise_frame ..).2.2.2.2.1
      refine ⟨fun x => ?_, by rw [hwu], ?_, ?_, fun x h hv => ?_⟩
      · rw [hone, hwu]
        refine ⟨fun e => ?_, fun e => ?_⟩
        · subst e; exact modAt_same ..
        · exact modAt_other _ _ _ _ e
      · rw [← hu]; exact (raise_frame ..).2.1
      · rw [← hu]
        exact onlyRaised_trans (t := s.modWu fun u => { u with
          ownedHits := modAt u.ownedHits (Fin.ofNat 6 (c - 8)) satInc }) (onlyRaised_of rfl) (raise_onlyRaised _ _ _)
      · have e : x.val + 8 = c := by
          have := (hone x).mp h
          rw [Fin.ext_iff] at this
          simp only [Fin.ofNat] at this
          omega
        rw [← hu, e]
        exact raise_records (s.modWu _) _ _ _ hv
  generalize ht : s.reportSuppression addr = t
  generalize hu : (match s.ownedCause addr with | some c => s.reportOwned c | none => s) = u
  obtain ⟨o1, o2, o3, o4, o5⟩ := H u hu
  obtain ⟨g1, g2, g3, g4, g5⟩ := reportGuards_spec (s.guardWindows addr) hn u
  have hlast0 : s.guardWindows addr = [] → (s.guardWindows addr).foldl (fun t w => t.reportGuard w) u = u := fun e => by
    rw [e]; rfl
  have ht' : (s.guardWindows addr).foldl (fun t w => t.reportGuard w) u = t := by rw [← hu]; exact ht
  rw [ht'] at g1 g2 g3 g4 g5 hlast0
  have hms : u.nu.ms = s.nu.ms := o4.2.2.2.2.2.2.2
  have hwin : ∀ w : WindowId, u.window w = s.window w := fun w => by unfold State.window; rw [o2]
  have hlev : ∀ {v : State}, v.cu = s.cu → v.levelOf .guardHit = s.levelOf .guardHit := fun h => by
    simp [State.levelOf, State.liveDelivery, h]
  refine ⟨⟨fun x => ?_, fun w => ⟨fun h => ?_, fun h => ?_⟩, fun w h hh hv => ?_, fun hno x h hv => ?_⟩, ?_, fun w => ?_,
    onlyRaised_trans o4 g4⟩
  · rw [g2]; exact o1 x
  · rw [g1 w, if_pos ((hm w).mpr h), hwin]
  · rw [g1 w, if_neg fun x => h ((hm w).mp x), hwin]
  · rw [hlev (g3.trans o3)] at hv
    rw [← hms]
    exact g5 w (guardWindows_last h hh) (by rw [hlev o3]; exact hv)
  · have e : s.guardWindows addr = [] := List.eq_nil_iff_forall_not_mem.mpr fun v hv' => hno v ((hm v).mp hv')
    rw [hlev (g3.trans o3)] at hv
    rw [hlast0 e]
    exact o5 x h hv
  · rw [g2, o2]
  · rw [g1 w, hwin]
    split <;> rfl

/-- A report stands when the CU's notice is raised after it, and the classes it was judged by may be named in any state
that gives the same. -/
theorem suppressionReported_of {c c' s s' t t' : State} {addr : Addr} (h : suppressionReported c s t addr)
    (ho : ∀ x, ownedHit c' addr x ↔ ownedHit c addr x) (hg : ∀ w, guardedBy c' addr w ↔ guardedBy c addr w)
    (hs : s'.wu = s.wu) (hm : s'.nu.ms = s.nu.ms) (ht : t'.wu = t.wu)
    (hl : t'.cu.liveDelivery = t.cu.liveDelivery) (hr : onlyRaised (· = .configApplied) t t') :
    suppressionReported c' s' t' addr := by
  obtain ⟨h1, h2, h3, h4⟩ := h
  have lev : t'.levelOf .guardHit = t.levelOf .guardHit := by simp [State.levelOf, State.liveDelivery, hl]
  have win : ∀ w, t'.window w = t.window w := fun w => by unfold State.window; rw [ht]
  have win' : ∀ w, s'.window w = s.window w := fun w => by unfold State.window; rw [hs]
  have told : ∀ d, records t.nu .guardHit .part d s.nu.ms → records t'.nu .guardHit .part d s'.nu.ms := fun d x => by
    rw [hm]; exact hr.2.2.2.2.1 _ _ _ _ (by decide) x
  refine ⟨fun x => ?_, fun w => ?_, fun w x y z => told _ ?_, fun x y z w => told _ ?_⟩
  · rw [ho, ht, hs]; exact h1 x
  · rw [hg, win, win']; exact h2 w
  · exact h3 w ((hg w).mp x) (fun v hv k => y v hv ((hg v).mpr k)) (lev ▸ z)
  · exact h4 (fun v k => x v ((hg v).mpr k)) y ((ho _).mp z) (lev ▸ w)

/-! ## The NU at an arming (R80, R104, R109) -/

/-- The offer returned is in the backlog, as an entry that begins with it. -/
theorem returnOffer_first (bl : List BacklogEntry) (e : Entry) :
    ∃ x ∈ returnOffer bl e, x.entry.kind = e.kind ∧ x.entry.source = e.source ∧ x.entry.first = e.first := by
  unfold returnOffer
  split
  · rename_i h
    obtain ⟨b, hb, hp⟩ := List.any_eq_true.mp h
    obtain ⟨h1, h2⟩ := (isPair_iff ..).mp hp
    exact ⟨_, List.mem_map.mpr ⟨b, hb, if_pos hp⟩, h1, h2, rfl⟩
  · exact ⟨_, List.mem_append_right _ List.mem_cons_self, rfl, rfl, rfl⟩

theorem returnOffer_joins {s t : State} {e : Entry} (h : t.nu.backlog = returnOffer s.nu.backlog e) :
    joinsBacklog s t e := by
  refine ⟨fun b hb h1 h2 => ?_, fun hn => ?_⟩
  · have hp := (isPair_iff b e.kind e.source).mpr ⟨h1, h2⟩
    rw [h, returnOffer, if_pos (List.any_eq_true.mpr ⟨b, hb, hp⟩)]
    exact List.mem_map.mpr ⟨b, hb, if_pos hp⟩
  · rw [h, returnOffer, if_neg]
    · exact List.mem_append_right _ List.mem_cons_self
    · intro x
      obtain ⟨b, hb, hp⟩ := List.any_eq_true.mp x
      exact hn b hb ((isPair_iff ..).mp hp)

/-- What is back in the backlog stays there while notices of other pairs are raised. -/
theorem joinsBacklog_raised {ks : Kind → Prop} {s t u : State} {e : Entry} (h : joinsBacklog s t e)
    (hr : onlyRaised ks t u) (hn : ¬(ks e.kind ∧ e.source = .part)) : joinsBacklog s u e :=
  ⟨fun b hb h1 h2 => hr.2.2.1 _ (h.1 b hb h1 h2) (by simp only [h1, h2]; exact hn),
    fun x => hr.2.2.1 _ (h.2 x) hn⟩

/-- What the NU makes of an arming that finds the notice ring as `d` (R80, R104, R110). -/
theorem armNotices_spec (s : State) (b : Bytes) (d : RingDesc) :
    ((ringEnable b 4 && d.kept b noticeRing) = true → (s.armNotices b d).nu.outstanding = s.nu.outstanding)
      ∧ (¬(ringEnable b 4 && d.kept b noticeRing) = true → (s.armNotices b d).nu.outstanding = [])
      ∧ (ringEnable b 4 = true → (s.armNotices b d).nu.offer = s.nu.offer)
      ∧ (ringEnable b 4 = false → ∀ o, s.nu.offer = some o → o.inFlight = false →
          (s.armNotices b d).nu.offer = none ∧ (s.armNotices b d).nu.backlog = returnOffer s.nu.backlog o.entry)
      ∧ (s.armNotices b d).nu.ms = s.nu.ms ∧ (s.armNotices b d).nu.sequence = s.nu.sequence := by
  unfold State.armNotices
  refine ⟨fun h => ?_, fun h => ?_, fun h => ?_, fun h o ho hi => ?_, ?_, ?_⟩
  · rw [if_pos h]; dsimp only; split
    · rfl
    · simp
  · rw [if_neg h]; dsimp only; split
    · rfl
    · simp
  · dsimp only; rw [if_pos h]; split <;> rfl
  · have hk : ¬(ringEnable b 4 && d.kept b noticeRing) = true := by simp [h]
    rw [if_neg hk]; dsimp only; rw [if_neg (by simp [h])]
    simp [State.returnWaitingOffer, State.modNu, State.reevalAttn, ho, hi]
  all_goals dsimp only; split <;> split <;> simp

/-! ## The reports of an arming (R101, R121, R149, R156) -/

/-- The record of a command that has been applied (R149). -/
theorem appliedTo_owner (s : State) (o : Owner) :
    (s.cu.owner = o →
        (s.appliedTo o).cu = { s.cu with record := { s.cu.record with result := .applied, detail := 0 }, owner := .none }
        ∧ (s.appliedTo o).de.statusDirty = true)
      ∧ (s.cu.owner ≠ o → s.appliedTo o = s)
      ∧ (s.appliedTo o).de = { s.de with
          statusDirty := (s.appliedTo o).de.statusDirty, pages := (s.appliedTo o).de.pages }
      ∧ ∀ p : PageId, ((s.appliedTo o).page p).faulted = (s.page p).faulted
          ∧ ((s.page p).dirty = true → ((s.appliedTo o).page p).dirty = true) := by
  refine ⟨fun h => ?_, fun h => ?_, ?_, fun p => ?_⟩
  all_goals unfold State.appliedTo
  · rw [if_pos h]; exact ⟨rfl, rfl⟩
  · rw [if_neg h]
  · split <;> rfl
  · split
    · by_cases e : p = partPage
      · subst e
        exact ⟨by rw [State.markPart, State.markPage, modPage_page]; rfl, fun _ => by simp [State.markPart, State.markPage]⟩
      · rw [State.markPart, State.markPage, modPage_other _ _ _ _ e]
        exact ⟨rfl, id⟩
    · exact ⟨rfl, id⟩

/-- The CU hears of the arming. -/
theorem armingApplied_spec (s : State) (tag : Byte) :
    onlyRaised (· = .configApplied) s (s.armingApplied tag)
      ∧ (s.levelOf .configApplied ≠ 0 →
          records (s.armingApplied tag).nu .configApplied .part (tag.setWidth 16) s.nu.ms)
      ∧ (s.cu.owner = .arming →
          (s.armingApplied tag).cu = { s.cu with
            record := { s.cu.record with result := .applied, detail := 0 }, owner := .none }
          ∧ (s.armingApplied tag).de.statusDirty = true)
      ∧ (s.cu.owner ≠ .arming → (s.armingApplied tag).cu = s.cu ∧ (s.armingApplied tag).de = s.de)
      ∧ (s.armingApplied tag).de = { s.de with
          statusDirty := (s.armingApplied tag).de.statusDirty, pages := (s.armingApplied tag).de.pages }
      ∧ ∀ p : PageId, ((s.armingApplied tag).page p).faulted = (s.page p).faulted
          ∧ ((s.page p).dirty = true → ((s.armingApplied tag).page p).dirty = true) := by
  have hd : BitVec.ofNat 16 tag.toNat = tag.setWidth 16 := by
    apply BitVec.eq_of_toNat_eq; simp
  have hr := raise_onlyRaised s .configApplied tag.toNat
  have hn := raise_records s .configApplied .part tag.toNat
  obtain ⟨-, hc, he, -⟩ := raise_frame s .configApplied .part tag.toNat
  unfold State.armingApplied
  generalize s.raise .configApplied .part tag.toNat = u at hr hn hc he
  obtain ⟨a1, a2, a3, a4⟩ := appliedTo_owner u .arming
  have hnu : (u.appliedTo .arming).nu = u.nu := (appliedTo_frame ..).2.1
  have hp : ∀ p, u.page p = s.page p := fun p => by unfold State.page; rw [he]
  refine ⟨onlyRaised_trans hr (onlyRaised_of hnu), fun h => ?_, ?_, fun h => ?_, ?_, fun p => ?_⟩
  · rw [hnu, ← hd]; exact hn h
  · rw [← hc]; exact a1
  · rw [a2 (hc ▸ h)]; exact ⟨hc, he⟩
  · rw [← he]; exact a3
  · rw [← hp]; exact a4 p

/-- The kinds of the notices an arming raises. -/
def armingKind (k : Kind) : Prop := k = .configApplied ∨ k = .guardHit

/-- From `u` to `v` the CU has heard of an arming with this tag, and the WU has suppressed the WAITING write that the
section makes owned (R101, R121, R149, R156). -/
def armingReported (u v : State) (tag : Byte) : Prop :=
  (v.lines = u.lines ∧ v.pins = u.pins ∧ v.clock = u.clock ∧ v.pending = u.pending)
    ∧ onlyRaised armingKind u v
    ∧ (u.levelOf .configApplied ≠ 0 → records v.nu .configApplied .part (tag.setWidth 16) u.nu.ms)
    ∧ (u.cu.owner = .arming → v.cu = { u.cu with
          record := { u.cu.record with result := .applied, detail := 0 }, owner := .none } ∧ v.de.statusDirty = true)
    ∧ (u.cu.owner ≠ .arming → v.cu = u.cu ∧ v.de = u.de)
    ∧ v.de = { u.de with statusDirty := v.de.statusDirty, pages := v.de.pages }
    ∧ (∀ p : PageId, (v.page p).faulted = (u.page p).faulted ∧ ((u.page p).dirty = true → (v.page p).dirty = true))
    ∧ (∀ r, u.mp.request = some r → r.stage = .waiting → r.access.write = true → suppressed u r.access.addr →
        v.mp = { u.mp with request := none, completion := some { err := false, data := none } }
          ∧ suppressionReported u u v r.access.addr
          ∧ v.wu = { u.wu with ownedHits := v.wu.ownedHits, windows := v.wu.windows }
          ∧ ∀ w : WindowId, (v.window w) = { u.window w with guardHits := (v.window w).guardHits })
    ∧ ((∀ r, u.mp.request = some r → r.stage = .waiting → r.access.write = true → ¬suppressed u r.access.addr) →
        v.mp = u.mp ∧ v.wu = u.wu)

theorem armingSuppresses_iff {s : State} : s.armingSuppresses = true ↔
    ∃ r, s.mp.request = some r ∧ r.stage = .waiting ∧ r.access.write = true ∧ suppressed s r.access.addr := by
  unfold State.armingSuppresses
  cases h : s.mp.request with
  | none => simp
  | some r => simp [← suppresses_iff, and_assoc]

theorem suppressed_congr {s t : State} (h1 : t.de.rings = s.de.rings) (h2 : t.wu.base = s.wu.base)
    (h3 : t.cu.frozen = s.cu.frozen) (h4 : t.cu.liveWindows = s.cu.liveWindows) (addr : Addr) :
    suppressed t addr ↔ suppressed s addr := by
  simp only [suppressed, ownedHit_congr h1 h2 h3, guardedBy_congr h4]

/-- A WAITING write that the arming makes owned is suppressed (R121). -/
theorem rewriteOwned_spec {s : State} {r : Request} (hr : s.mp.request = some r) (hw : r.stage = .waiting)
    (hx : r.access.write = true) (hs : suppressed s r.access.addr) :
    s.rewriteOwned = (s.reportSuppression r.access.addr).completeUp false none := by
  unfold State.rewriteOwned
  rw [hr]
  exact if_pos ⟨hw, hx, suppresses_iff.mpr hs⟩

theorem armingReported_of (u : State) (tag : Byte) (first : Bool) :
    armingReported u
      (if u.armingSuppresses then
          if first then (u.usedFree.rewriteOwned).armingApplied tag else (u.usedFree.armingApplied tag).rewriteOwned
        else u.armingApplied tag) tag := by
  by_cases hs : u.armingSuppresses = true
  · rw [if_pos hs]
    obtain ⟨r, hr, hw, hx, hp⟩ := armingSuppresses_iff.mp hs
    have only : ∀ q, u.mp.request = some q → q = r := fun q h => by rw [hr] at h; cases h; rfl
    cases first with
    | true =>
      simp only [if_true]
      rw [rewriteOwned_spec (s := u.usedFree) hr hw hx hp]
      obtain ⟨a1, a2, a3, a4⟩ := reportSuppression_spec u.usedFree r.access.addr
      obtain ⟨f1, f2, f3, f4, f5, f6, -, f8⟩ := reportSuppression_frame u.usedFree r.access.addr
      generalize hv : u.usedFree.reportSuppression r.access.addr = v at a1 a2 a3 a4 f1 f2 f3 f4 f5 f6 f8
      obtain ⟨b1, b2, b3, b4, b5, b6⟩ := armingApplied_spec (v.completeUp false none) tag
      obtain ⟨g1, g2, g3, g4, g5, -, g7⟩ := armingApplied_frame (v.completeUp false none) tag
      obtain ⟨c1, c2, c3, c4, c5, c6, c7, -, c9⟩ := completeUp_frame v false none
      have cm : (v.completeUp false none).mp
          = { u.mp with request := none, completion := some { err := false, data := none } } := by
        show ({ v.mp with request := none, completion := some { err := false, data := none } } : Mp) = _
        rw [f4]; rfl
      generalize v.completeUp false none = w at b1 b2 b3 b4 b5 b6 g1 g2 g3 g4 g5 g7 c1 c2 c3 c4 c5 c6 c7 c9 cm
      generalize w.armingApplied tag = t at b1 b2 b3 b4 b5 b6 g1 g2 g3 g4 g5 g7
      have hwu : w.cu = u.cu := c2.trans f2
      have hde : w.de = u.de := c3.trans f3
      have hpg : ∀ p, w.page p = u.page p := fun p => by unfold State.page; rw [hde]
      refine ⟨⟨g1.trans (c1.trans f1), g4.trans (c6.trans f5), g5.trans (c7.trans f6), g7.trans (c9.trans f8)⟩,
        ?_, ?_, ?_, ?_, ?_, ?_, fun q hq _ _ _ => ?_, fun hn => absurd hp (hn r hr hw hx)⟩
      · exact onlyRaised_trans (onlyRaised_mono (fun _ => .inr) a4)
          (onlyRaised_trans (onlyRaised_of c4) (onlyRaised_mono (fun _ => .inl) b1))
      · intro hl
        have : w.levelOf .configApplied = u.levelOf .configApplied := by simp [State.levelOf, State.liveDelivery, hwu]
        have h := b2 (this ▸ hl)
        rwa [c4, a4.2.2.2.2.2.2.2] at h
      · rw [← hwu]; exact b3
      · rw [← hwu, ← hde]; exact b4
      · rw [← hde]; exact b5
      · intro p; rw [← hpg p]; exact b6 p
      · cases only q hq
        have tw : t.wu = v.wu := g3.trans c5
        have win : ∀ x, t.window x = v.window x := fun x => by unfold State.window; rw [tw]
        refine ⟨g2.trans cm, ?_, ?_, fun x => ?_⟩
        · refine suppressionReported_of a1 (fun _ => Iff.rfl) (fun _ => Iff.rfl) rfl rfl tw ?_ ?_
          · have h1 : t.cu.liveDelivery = w.cu.liveDelivery := by
              by_cases ho : w.cu.owner = .arming
              · rw [(b3 ho).1]
              · rw [(b4 ho).1]
            rw [h1, c2]
          · exact onlyRaised_trans (onlyRaised_of c4) b1
        · rw [tw]; exact a2
        · rw [win]; exact a3 x
    | false =>
      simp only [Bool.false_eq_true, if_false]
      obtain ⟨b1, b2, b3, b4, b5, b6⟩ := armingApplied_spec u.usedFree tag
      obtain ⟨g1, g2, g3, g4, g5, -, g7⟩ := armingApplied_frame u.usedFree tag
      generalize u.usedFree.armingApplied tag = v at b1 b2 b3 b4 b5 b6 g1 g2 g3 g4 g5 g7
      have vc : v.cu.frozen = u.cu.frozen ∧ v.cu.liveWindows = u.cu.liveWindows
          ∧ v.cu.liveDelivery = u.cu.liveDelivery := by
        by_cases ho : u.cu.owner = .arming
        · rw [(b3 ho).1]; exact ⟨rfl, rfl, rfl⟩
        · rw [(b4 ho).1]; exact ⟨rfl, rfl, rfl⟩
      have vr : v.de.rings = u.de.rings := by rw [b5]; rfl
      have hp' : suppressed v r.access.addr :=
        (suppressed_congr vr (by rw [g3]; rfl) vc.1 vc.2.1 _).mpr hp
      rw [rewriteOwned_spec (s := v) (by rw [g2]; exact hr) hw hx hp']
      obtain ⟨a1, a2, a3, a4⟩ := reportSuppression_spec v r.access.addr
      obtain ⟨f1, f2, f3, f4, f5, f6, -, f8⟩ := reportSuppression_frame v r.access.addr
      generalize v.reportSuppression r.access.addr = w at a1 a2 a3 a4 f1 f2 f3 f4 f5 f6 f8
      obtain ⟨c1, c2, c3, c4, c5, c6, c7, -, c9⟩ := completeUp_frame w false none
      have cm : (w.completeUp false none).mp
          = { u.mp with request := none, completion := some { err := false, data := none } } := by
        show ({ w.mp with request := none, completion := some { err := false, data := none } } : Mp) = _
        rw [f4, g2]; rfl
      generalize w.completeUp false none = t at c1 c2 c3 c4 c5 c6 c7 c9 cm
      have tc : t.cu = v.cu := c2.trans f2
      have td : t.de = v.de := c3.trans f3
      have tp : ∀ p, t.page p = v.page p := fun p => by unfold State.page; rw [td]
      refine ⟨⟨c1.trans (f1.trans g1), c6.trans (f5.trans g4), c7.trans (f6.trans g5), c9.trans (f8.trans g7)⟩,
        ?_, fun hl => ?_, ?_, ?_, ?_, ?_, fun q hq _ _ _ => ?_, fun hn => absurd hp (hn r hr hw hx)⟩
      · exact onlyRaised_trans (onlyRaised_mono (fun _ => .inl) b1)
          (onlyRaised_trans (onlyRaised_mono (fun _ => .inr) a4) (onlyRaised_of c4))
      · rw [c4]
        exact a4.2.2.2.2.1 _ _ _ _ (by decide) (b2 hl)
      · rw [tc, td]; exact b3
      · rw [tc, td]; exact b4
      · rw [td]; exact b5
      · intro p; rw [tp]; exact b6 p
      · cases only q hq
        have win : ∀ x, t.window x = w.window x := fun x => by unfold State.window; rw [c5]
        have win' : ∀ x, v.window x = u.window x := fun x => by unfold State.window; rw [g3]; rfl
        refine ⟨cm, ?_, ?_, fun x => ?_⟩
        · exact suppressionReported_of a1 (fun c => (ownedHit_congr vr (by rw [g3]; rfl) vc.1 _ c).symm)
            (fun x => (guardedBy_congr vc.2.1 _ x).symm) (by rw [g3]; rfl) b1.2.2.2.2.2.2.2.symm c5
            (by rw [c2]) (onlyRaised_of c4)
        · rw [c5, a2, g3]; rfl
        · rw [win, a3 x, win']
  · rw [if_neg hs]
    obtain ⟨b1, b2, b3, b4, b5, b6⟩ := armingApplied_spec u tag
    obtain ⟨g1, g2, g3, g4, g5, -, g7⟩ := armingApplied_frame u tag
    exact ⟨⟨g1, g4, g5, g7⟩, onlyRaised_mono (fun _ => .inl) b1, b2, b3, b4, b5, b6,
      fun r hr hw hx hp => absurd (armingSuppresses_iff.mpr ⟨r, hr, hw, hx, hp⟩) hs, fun _ => ⟨g2, g3⟩⟩

/-! ## The arming (R79, R80) -/

/-- The rings after an arming. -/
theorem arm_ring {s t : State} {b : Bytes} (h : t.de.rings = (s.de.arm b).rings) (r : RingId) :
    (ringEnable b r.val = false → (t.ring r).armed = false ∧ (t.ring r).resetOut = false)
      ∧ (ringEnable b r.val = true → ¬ringKept s b r → t.ring r = armReset b r)
      ∧ (ringKept s b r → t.ring r = (s.ring r).keep b r) := by
  have e : t.ring r = armRing b r (s.ring r) := by
    unfold State.ring; rw [h]; simp [De.arm]
  rw [e]
  unfold armRing
  refine ⟨fun x => ?_, fun x y => ?_, fun x => ?_⟩
  · simp [x, RingDesc.unarmed]
  · have k : ¬(s.ring r).kept b r = true := fun k => y (kept_iff.mp (by simp [x, k]))
    simp [x, k]
  · have k := kept_iff.mpr x
    simp only [Bool.and_eq_true] at k
    simp [k.1, k.2]

theorem covered_congr {s t : State} (h1 : t.de.rings = s.de.rings) (h2 : t.de.flight = s.de.flight)
    (h3 : t.wu.base = s.wu.base) (addr : Addr) : covered t addr ↔ covered s addr := by
  unfold covered liesAt State.ring
  rw [h1, h2, h3]

/-- What an arming that is due does (R79, R80, R81, R104, R110, R120, R121, R125, R126, R149, R156). -/
theorem takeArming_spec {s : State} {a : Arming} (ha : s.de.arming = some a) (hf : s.de.flight = none) :
    armsBy s a (s.markChanged s.takeArming) := by
  generalize ht : s.takeArming = t
  simp only [State.takeArming, ha, hf, Option.isSome_none, Bool.false_eq_true, if_false] at ht
  generalize h2 : (((s.modMp fun m => { m with port := m.port.overtake a.bytes s.de.rings }).modDe fun d =>
    d.arm a.bytes).modCu fun c => { c with liveDelivery := a.bytes, deliveryTag := a.tag }) = s2 at ht
  obtain ⟨n1, n2, n3, n4, n5, n6⟩ := armNotices_spec s2 a.bytes (s.ring noticeRing)
  generalize hu : (s2.armNotices a.bytes (s.ring noticeRing)).reevalAttn = u at ht
  have ul : u.lines = s.lines ∧ u.pins = s.pins ∧ u.clock = s.clock ∧ u.pending = s.pending ∧ u.wu = s.wu := by
    rw [← hu]; simp [← h2]
  have uc : u.cu = { s.cu with liveDelivery := a.bytes, deliveryTag := a.tag } := by rw [← hu]; simp [← h2]
  have ud : u.de = s.de.arm a.bytes := by rw [← hu]; simp [← h2]
  have um : u.mp = { s.mp with port := s.mp.port.overtake a.bytes s.de.rings } := by rw [← hu]; simp [← h2]
  have hn : u.nu.outstanding = (s2.armNotices a.bytes (s.ring noticeRing)).nu.outstanding
      ∧ u.nu.offer = (s2.armNotices a.bytes (s.ring noticeRing)).nu.offer
      ∧ u.nu.backlog = (s2.armNotices a.bytes (s.ring noticeRing)).nu.backlog
      ∧ u.nu.ms = (s2.armNotices a.bytes (s.ring noticeRing)).nu.ms
      ∧ u.nu.sequence = (s2.armNotices a.bytes (s.ring noticeRing)).nu.sequence := by
    rw [← hu]; exact ⟨rfl, rfl, rfl, rfl, rfl⟩
  have hs2 : s2.nu = s.nu := by rw [← h2]; rfl
  simp only [← hn.1, ← hn.2.1, ← hn.2.2.1, ← hn.2.2.2.1, ← hn.2.2.2.2, hs2] at n1 n2 n3 n4 n5 n6
  have hk : (ringEnable a.bytes 4 && (s.ring noticeRing).kept a.bytes noticeRing) = true
      ↔ ringKept s a.bytes noticeRing := kept_iff (r := noticeRing)
  rw [hk] at n1 n2
  have hr := armingReported_of u a.tag s.eitherFirst
  generalize (if u.armingSuppresses = true then _ else _) = v at ht hr
  obtain ⟨⟨r1, r2, r3, r4⟩, r5, r6, r7, r8, r9, r10, r11, r12⟩ := hr
  generalize hw : v.releaseHeld = w at ht
  obtain ⟨p1, e1⟩ := releaseHeld_spec hw
  obtain ⟨p2, e2⟩ := retestRead_spec ht
  have tcu : t.cu = v.cu := by rw [e2, e1]
  have tde : t.de = v.de := by rw [e2, e1]
  have twu : t.wu = v.wu := by rw [e2, e1]
  have tnu : t.nu = v.nu := by rw [e2, e1]
  have tmp : t.mp = { v.mp with request := t.mp.request } := by rw [e2, e1]
  have tl : t.lines = v.lines ∧ t.pins = v.pins ∧ t.clock = v.clock ∧ t.pending = v.pending := by
    rw [e2, e1]; exact ⟨rfl, rfl, rfl, rfl⟩
  have tr : (s.markChanged t).de.rings = (s.de.arm a.bytes).rings := by
    rw [markChanged_rings, tde, r9, ud]
  have vfl : v.de.flight = none := by rw [r9, ud]; exact hf
  have vcu : v.cu.frozen = u.cu.frozen ∧ v.cu.liveWindows = u.cu.liveWindows := by
    by_cases ho : u.cu.owner = .arming
    · rw [(r7 ho).1]; exact ⟨rfl, rfl⟩
    · rw [(r8 ho).1]; exact ⟨rfl, rfl⟩
  have own : s.cu.owner = u.cu.owner := by rw [uc]
  have vb : v.wu.base = u.wu.base := by
    by_cases hs : ∃ r, u.mp.request = some r ∧ r.stage = .waiting ∧ r.access.write = true ∧ suppressed u r.access.addr
    · obtain ⟨r, q1, q2, q3, q4⟩ := hs
      rw [(r11 r q1 q2 q3 q4).2.2.1]
    · rw [(r12 fun r q1 q2 q3 q4 => hs ⟨r, q1, q2, q3, q4⟩).2]
  have sup : ∀ x, suppressed (s.markChanged t) x ↔ suppressed u x := fun x =>
    suppressed_congr (by rw [tr, ud]) (by rw [markChanged_wu, twu, vb]) (by rw [markChanged_cu, tcu, vcu.1])
      (by rw [markChanged_cu, tcu, vcu.2]) x
  have cov : ∀ x, covered (s.markChanged t) x ↔ covered v x := fun x =>
    covered_congr (by rw [markChanged_rings, tde]) (by rw [markChanged_flight, tde]) (by rw [markChanged_wu, twu]) x
  have cov' : ∀ x, covered w x ↔ covered v x := fun x =>
    covered_congr (by rw [e1]) (by rw [e1]) (by rw [e1]) x
  have cov2 : ∀ x, covered t x ↔ covered v x := cov
  have req : u.mp.request = s.mp.request := by rw [um]
  have kept : ∀ r, s.mp.request = some r →
      (r.stage ≠ .waiting ∨ r.access.write = false ∨ ¬suppressed u r.access.addr) → v.mp = u.mp ∧ v.wu = u.wu :=
    fun r h1 h2 => r12 fun q q1 q2 q3 q4 => by
      rw [req, h1] at q1; cases q1
      rcases h2 with h2 | h2 | h2
      · exact h2 q2
      · rw [h2] at q3; cases q3
      · exact h2 q4
  have knone : s.mp.request = none → v.mp = u.mp ∧ v.wu = u.wu := fun h =>
    r12 fun q q1 => by rw [req, h] at q1; cases q1
  -- the request in hand: kept, HELD or WAITING by the hold test
  have reqs : ∀ r, v.mp.request = some r →
      (r.stage = .held → ¬covered v r.access.addr → r.access.write = false → r.fresh = none →
        t.mp.request = some { r with stage := .waiting })
      ∧ (r.stage = .held → covered v r.access.addr → t.mp.request = some r)
      ∧ (r.stage = .waiting → r.access.write = false → r.fresh = none → covered v r.access.addr →
        t.mp.request = some { r with stage := .held })
      ∧ (r.stage = .waiting → ¬(r.access.write = false ∧ r.fresh = none ∧ covered v r.access.addr) →
        t.mp.request = some r)
      ∧ (r.stage ≠ .waiting → r.stage ≠ .held → t.mp.request = some r) := by
    intro r h
    obtain ⟨x1, x2⟩ := p1.2 r h
    rw [cov'] at x1 x2
    refine ⟨fun y1 y2 _ _ => ?_, fun y1 y2 => ?_, fun y1 y2 y3 y4 => ?_, fun y1 y2 => ?_, fun y1 y2 => ?_⟩
    · refine (p2.2 _ (x1 ⟨y1, y2⟩)).2 fun z => y2 ((cov2 _).mp z.2.2.2)
    · refine (p2.2 _ (x2 fun z => z.2 y2)).2 fun z => by rw [y1] at z; cases z.1
    · exact (p2.2 _ (x2 fun z => by rw [y1] at z; cases z.1)).1 ⟨y1, y2, y3, (cov2 _).mpr y4⟩
    · exact (p2.2 _ (x2 fun z => by rw [y1] at z; cases z.1)).2 fun z => y2 ⟨z.2.1, z.2.2.1, (cov2 _).mp z.2.2.2⟩
    · exact (p2.2 _ (x2 fun z => y2 z.1)).2 fun z => y1 z.1
  have rnone : v.mp.request = none → t.mp.request = none := fun h => p2.1 (p1.1 h)
  obtain ⟨ov1, ov2⟩ := overtake_spec s a.bytes
  have vport : v.mp.port = s.mp.port.overtake a.bytes s.de.rings := by
    have : v.mp.port = u.mp.port := by
      by_cases hs : ∃ r, u.mp.request = some r ∧ r.stage = .waiting ∧ r.access.write = true ∧ suppressed u r.access.addr
      · obtain ⟨r, q1, q2, q3, q4⟩ := hs
        rw [(r11 r q1 q2 q3 q4).1]
      · rw [(r12 fun r q1 q2 q3 q4 => hs ⟨r, q1, q2, q3, q4⟩).1]
    rw [this, um]
  have tport : (s.markChanged t).mp.port = s.mp.port.overtake a.bytes s.de.rings := by
    rw [markChanged_mp, tmp]; exact vport
  refine ⟨?_, ?_, ?_, ?_, ?_, ?_, ?_, ?_, ?_, ?_, ?_, ?_, ?_, ?_, ?_, ?_, ?_, ?_, ?_, ?_, ?_, ?_, ?_, ?_, ?_, ?_, ?_, ?_, ?_⟩
  · rw [markChanged_arming, tde, r9, ud]; rfl
  · rw [markChanged_cu, tcu]
    by_cases ho : u.cu.owner = .arming
    · rw [(r7 ho).1, uc]
    · rw [(r8 ho).1, uc]
  · intro p
    have hp : u.page p = { dirty := true, faulted := false } := by
      unfold State.page; rw [ud]; simp [De.arm]
    have hq : t.page p = v.page p := by unfold State.page; rw [tde]
    obtain ⟨y1, y2⟩ := r10 p
    rw [hp] at y1 y2
    rw [markChanged_page, hq, y2 rfl, Bool.true_or]
    cases hv : v.page p with
    | mk d f => rw [hv] at y1; rw [show f = false from y1]
  · intro r
    obtain ⟨x1, x2, x3⟩ := arm_ring tr r
    refine ⟨x1, fun y1 y2 => x2 y1 fun k => ?_, fun y1 y2 y3 y4 y5 => x3 ⟨y1, y2, y3, y4, y5⟩⟩
    obtain ⟨-, k1, k2, k3, k4⟩ := k
    rcases y2 with y | y | y | y
    · rw [k1] at y; cases y
    · rw [k2] at y; cases y
    · exact y k3
    · exact y k4
  · intro h; rw [markChanged_nu, tnu, r5.2.2.2.2.2.1, n1 h]
  · intro h; rw [markChanged_nu, tnu, r5.2.2.2.2.2.1, n2 h]
  · intro h o ho; rw [markChanged_nu, tnu]; exact r5.1 o (by rw [n3 h, ho])
  · intro h o ho hi
    obtain ⟨m1, m2⟩ := n4 h o ho hi
    obtain ⟨x, hx, x1, x2, x3⟩ := returnOffer_first s.nu.backlog o.entry
    rw [← m2] at hx
    refine ⟨?_, ?_, ?_⟩
    · rw [markChanged_nu, tnu, r5.2.1 (List.ne_nil_of_mem hx), m1]
    · obtain ⟨z, hz, z1, z2, z3⟩ := r5.2.2.2.1 x hx
      rw [markChanged_nu, tnu]
      exact ⟨z, hz, z1.trans x1, z2.trans x2, z3.trans x3⟩
    · by_cases hp : armingKind o.entry.kind ∧ o.entry.source = .part
      · exact .inl ⟨hp.2, hp.1⟩
      · refine .inr ?_
        have j := joinsBacklog_raised (returnOffer_joins (s := s) (t := u) m2) r5 hp
        unfold joinsBacklog at j ⊢
        rw [markChanged_nu, tnu]; exact j
  · intro h
    rw [markChanged_nu, tnu, ← n5]
    exact r6 (by simp only [State.levelOf, State.liveDelivery, uc]; exact h)
  · intro h
    obtain ⟨y1, y2⟩ := r7 (own ▸ h)
    rw [markChanged_cu, tcu, y1, markChanged_statusDirty, tde, uc]
    exact ⟨rfl, rfl, y2⟩
  · intro h
    obtain ⟨y1, y2⟩ := r8 (fun x => h (own.trans x))
    unfold cuRecordKept
    rw [markChanged_cu, tcu, y1, markChanged_statusDirty, tde, y2, uc, ud]
    exact ⟨⟨rfl, rfl⟩, rfl⟩
  · intro r h1 h2 h3
    rw [sup]
    refine ⟨fun h4 => ?_, fun h4 => ?_⟩
    · obtain ⟨y1, y2, y3, y4⟩ := r11 r (req.trans h1) h2 h3 h4
      have vr : v.mp.request = none := by rw [y1]
      have win : ∀ x, s.window x = u.window x := fun x => by unfold State.window; rw [ul.2.2.2.2]
      have win' : ∀ x, (s.markChanged t).window x = v.window x := fun x => by
        unfold State.window; rw [markChanged_wu, twu]
      refine ⟨rnone vr, ?_, ?_, ?_, fun x => ?_⟩
      · rw [markChanged_mp, tmp, y1]
      · refine suppressionReported_of y2 ?_ ?_ ul.2.2.2.2.symm n5.symm (by rw [markChanged_wu, twu])
          (by rw [markChanged_cu, tcu]) (onlyRaised_of (by rw [markChanged_nu, tnu]))
        · exact fun c => ownedHit_congr (by rw [tr, ud]) (by rw [markChanged_wu, twu, vb])
            (by rw [markChanged_cu, tcu, vcu.1]) _ c
        · exact fun x => guardedBy_congr (by rw [markChanged_cu, tcu, vcu.2]) _ x
      · rw [markChanged_wu, twu, ← ul.2.2.2.2]; exact y3
      · rw [win', win]; exact y4 x
    · have k := kept r h1 (.inr (.inr h4))
      exact (reqs r (by rw [k.1, req, h1])).2.2.2.1 h2 fun z => by rw [h3] at z; cases z.1
  · intro r h1 h2 h3 h4
    have k := kept r h1 (.inr (.inl h2))
    have hv : v.mp.request = some r := by rw [k.1, req, h1]
    obtain ⟨q1, q2, q3, q4, q5⟩ := reqs r hv
    rw [cov]
    have upd : ∀ g, r.stage = g → ({ r with stage := g } : Request) = r := fun g h => by subst h; rfl
    rcases h4 with h4 | h4
    · refine ⟨fun c => q3 h4 h2 h3 c, fun c => ?_⟩
      rw [upd _ h4]; exact q4 h4 fun z => c z.2.2
    · refine ⟨fun c => ?_, fun c => q1 h4 c h2 h3⟩
      rw [upd _ h4]; exact q2 h4 c
  · intro r h1 h2
    have k : v.mp = u.mp ∧ v.wu = u.wu := by
      rcases h2 with h2 | h2 | h2
      · exact kept r h1 (.inl (by rw [h2]; decide))
      · exact kept r h1 (.inl (by rw [h2]; decide))
      · exact kept r h1 (.inr (.inl h2.2.2))
    obtain ⟨q1, q2, q3, q4, q5⟩ := reqs r (by rw [k.1, req, h1])
    rcases h2 with h2 | h2 | h2
    · exact q5 (by rw [h2]; decide) (by rw [h2]; decide)
    · exact q5 (by rw [h2]; decide) (by rw [h2]; decide)
    · exact q4 h2.1 fun z => h2.2.1 z.2.1
  · intro r o x h; rw [tport]; exact ov1 r o x h
  · intro h; rw [tport]; exact ov2 h
  · intro h; exact rnone (by rw [(knone h).1, req, h])
  · intro h
    have k : v.mp = u.mp ∧ v.wu = u.wu := by
      cases hq : s.mp.request with
      | none => exact knone hq
      | some r => exact kept r hq (by rw [← sup]; exact h r hq)
    rw [markChanged_wu, twu, k.2, markChanged_mp, tmp, k.1, um]
    exact ⟨ul.2.2.2.2, rfl⟩
  · have : v.mp = { s.mp with request := v.mp.request, port := v.mp.port, completion := v.mp.completion } := by
      by_cases hs : ∃ r, u.mp.request = some r ∧ r.stage = .waiting ∧ r.access.write = true ∧ suppressed u r.access.addr
      · obtain ⟨r, q1, q2, q3, q4⟩ := hs
        rw [(r11 r q1 q2 q3 q4).1, um]
      · rw [(r12 fun r q1 q2 q3 q4 => hs ⟨r, q1, q2, q3, q4⟩).1, um]
    rw [markChanged_mp, tmp]
    show ({ v.mp with request := _ } : Mp) = _
    rw [this]
  · rw [markChanged_fresh, tde, r9, ud]; rfl
  · rw [markChanged_flight, tde]; exact vfl
  · rw [markChanged_stagings, tde, r9, ud]; rfl
  · rw [markChanged_lastPage, tde, r9, ud]; rfl
  · rw [markChanged_lines, tl.1, r1, ul.1]
  · rw [markChanged_nu, tnu, r5.2.2.2.2.2.2.2, n5]
  · rw [markChanged_nu, tnu, r5.2.2.2.2.2.2.1, n6]
  · rw [markChanged_pins, tl.2.1, r2, ul.2.1]
  · rw [markChanged_clock, tl.2.2.1, r3, ul.2.2.1]
  · rw [markChanged_pending, tl.2.2.2, r4, ul.2.2.2.1]

/-- The mark of a port that stands for the next request is no part of what an arming does. -/
theorem armsBy_awaited {s t : State} {a : Arming} {b : Bool} (h : armsBy s a t) :
    armsBy s a { t with awaited := b } := h

/-- What has been done of an arming before a command (R79, R156). -/
theorem armed_spec (s : State) : armedFirst s s.armed := by
  refine ⟨armed_rest, fun a ha hf => ?_⟩
  have hd : s.armingDue = true := armingDue_iff.mpr ⟨by rw [ha]; simp, hf⟩
  rw [State.armed, if_pos hd]
  exact ⟨armsBy_awaited (takeArming_spec ha hf), rfl⟩

/-- What took place at once before a command (R79, R130). -/
theorem claimed_spec (s : State) : claimedFirst s s.claimed := claimed_of_armed (armed_spec s)

end Sys2Proof.Machine
end

