-- ==== Sys2Proof/Laws/Attn.lean ====
section
/-! SUPPORT. ATTN follows its terms (R112): which operations re-evaluate it, and which leave what it depends on. -/

namespace Sys2Proof.Machine

/-- ATTN is as R112 and R113 derive it. -/
def attnFollows (s : State) : Prop := s.nu.attn = (!s.pins.brst && s.attnTerms)

/-- The terms depend on the Notice Unit, the notice ring's FAULTED mark and the live delivery section alone. -/
theorem attnTerms_congr {s t : State} (h1 : t.nu.outstanding = s.nu.outstanding) (h2 : t.nu.offer = s.nu.offer)
    (h3 : t.nu.backlog = s.nu.backlog) (h4 : (t.ring noticeRing).faulted = (s.ring noticeRing).faulted)
    (h5 : t.liveDelivery = s.liveDelivery) : t.attnTerms = s.attnTerms := by
  simp [State.attnTerms, Nu.outstandingTerm, Nu.backlogTerm, State.faultTerm, h1, h2, h3, h4, h5]

theorem attnFollows_congr {s t : State} (h : attnFollows s) (h1 : t.nu = s.nu) (h2 : t.pins.brst = s.pins.brst)
    (h4 : (t.ring noticeRing).faulted = (s.ring noticeRing).faulted) (h5 : t.liveDelivery = s.liveDelivery) :
    attnFollows t := by
  unfold attnFollows at *
  rw [h1, h2, attnTerms_congr (by rw [h1]) (by rw [h1]) (by rw [h1]) h4 h5, h]

/-- A re-evaluation makes ATTN follow whatever it was. -/
@[simp] theorem reevalAttn_follows (s : State) : attnFollows s.reevalAttn := by
  unfold attnFollows State.reevalAttn
  rw [attnTerms_congr (s := s) rfl rfl rfl rfl rfl]
  rfl

theorem raise_follows {s : State} (k : Kind) (src : Source) (d : Nat) (h : attnFollows s) :
    attnFollows (s.raise k src d) := by
  unfold State.raise; split
  · exact h
  · exact reevalAttn_follows _

/-- The terms of LALMn as the GZU evaluates them, where its copies agree with what they copy (R68). -/
theorem lalmTerms_iff (s : State) (l : LineId) (h1 : (s.gzu l).lineCopy = (s.ls l).state)
    (h2 : (s.gzu l).attCopy = s.wu.attendance) : s.lalmTerms l = true ↔ alarmed s l := by
  have hz : ∀ z : Fin 4, (s.gzu l).zones[z].state.alarming = true ↔
      (s.gzu l).zones[z].state = .tripped ∨ (s.gzu l).zones[z].state = .recovering := by
    intro z
    cases (s.gzu l).zones[z].state <;> simp [ZoneState.alarming]
  simp only [State.lalmTerms, State.zoneTerm, State.shutdownTerm, State.attendanceTerm, alarmed, Bool.or_eq_true,
    List.any_eq_true, Bool.and_eq_true, beq_iff_eq, hz, h1, h2, or_assoc, and_assoc, List.mem_finRange, true_and]

end Sys2Proof.Machine
end

