-- ==== Sys2Proof/Laws/Clocking.lean ====
section
/-! SUPPORT. What the part does by itself: the event that the model takes as due is the one the statements spell. -/

namespace Sys2Proof.Machine
open Sys2Proof

/-! ## The beginning of the engine's next work (R86, R130) -/

theorem deWins_iff (s : State) : s.deWins = true ↔ enginePort s := by
  have hc : s.hostClaims = false ↔ ∀ r, s.mp.request = some r → r.stage ≠ .waiting := by
    rw [← Bool.not_eq_true, hostClaims_iff]
    exact ⟨fun h r a b => h ⟨r, a, b⟩, fun h ⟨r, a, b⟩ => h r a b⟩
  have hd : s.armingDue = false ↔ noArmingDue s := by
    rw [← Bool.not_eq_true, armingDue_not]; exact Classical.not_not
  unfold State.deWins enginePort
  split
  · rename_i hp
    simp only [Bool.and_eq_true, Bool.not_eq_true', Bool.or_eq_true, decide_eq_true_eq, hc, hd, hp, true_and]
    refine and_congr_right fun _ => ⟨fun h r a b => h.elim (fun h => absurd b (h r a)) id, fun h => ?_⟩
    by_cases hx : ∀ r, s.mp.request = some r → r.stage ≠ .waiting
    · exact .inl hx
    · obtain ⟨r, hr⟩ := Classical.not_forall.mp hx
      obtain ⟨a, b⟩ := Classical.not_imp.mp hr
      exact .inr (h r a (Classical.not_not.mp b))
  all_goals
    rename_i hp
    simp [hp]

theorem dueStart_iff (s : State) (c : Instr) : s.dueStart = some c ↔ startDue s c := by
  have e : s.dueStart = if s.deWins = true then s.deNext.bind startRow else none := by
    unfold State.dueStart State.deMay
    cases h : s.deNext with
    | none => simp
    | some w => cases w <;> simp [startRow]
  rw [e]
  unfold startDue
  rw [← deWins_iff]
  by_cases hw : s.deWins = true
  · simp only [hw, if_true, true_and, Option.bind_eq_some_iff]
  · simp [hw]

theorem dueStart_none (s : State) : s.dueStart = none ↔ ∀ c, ¬startDue s c := by
  rw [Option.eq_none_iff_forall_ne_some]
  exact forall_congr' fun c => not_congr (dueStart_iff s c)

/-! ## The events of a line (R3, R15, R16, R18, R20, R33) -/

theorem debounceDue_iff (s : State) (l : LineId) :
    timerZero ((s.ls l).debounce.map (·.remaining)) = true ↔ debounceEnds s l := by
  unfold timerZero debounceEnds
  cases (s.ls l).debounce <;> simp

theorem restartDue_iff (s : State) (l : LineId) : timerZero (s.ls l).restartTimer = true ↔ restartDelayEnds s l := by
  simp [timerZero, restartDelayEnds]

theorem holdDue_iff (s : State) (l : LineId) : (s.ls l).holdDue = true ↔ holdEnds s l := by
  simp [Sequencer.holdDue, holdEnds, and_assoc]

theorem silenceDue_iff (s : State) (l : LineId) : s.silenceDue l = true ↔ silenceEnds s l := by
  unfold State.silenceDue silenceEnds
  cases (s.sru l).silence <;> simp

theorem phaseDue_iff (s : State) (l : LineId) : (s.ls l).phaseDue = true ↔ phaseEnds s l := by
  have e (c : CycleLengths) (p : Phase) : c.phaseLength p = ticksOf c p := by cases p <;> rfl
  unfold Sequencer.phaseDue phaseEnds
  cases (s.ls l).phase <;> cases (s.ls l).phaseTimer <;> cases (s.ls l).lengths <;> simp [e]

theorem lineDue_iff (s : State) (l : LineId) (c : Instr) : s.lineDue l = some c ↔ lineEventDue s l c := by
  unfold State.lineDue lineEventDue
  simp only [← debounceDue_iff, ← restartDue_iff, ← holdDue_iff, ← silenceDue_iff, ← phaseDue_iff, @eq_comm _ c]
  by_cases h1 : timerZero ((s.ls l).debounce.map (·.remaining)) = true
  · simp [h1]
  by_cases h2 : timerZero (s.ls l).restartTimer = true
  · simp [h1, h2]
  by_cases h3 : (s.ls l).holdDue = true
  · simp [h1, h2, h3]
  by_cases h4 : s.silenceDue l = true
  · simp [h1, h2, h3, h4]
  by_cases h5 : (s.ls l).phaseDue = true <;> simp [h1, h2, h3, h4, h5]

theorem lineDue_none (s : State) (l : LineId) : s.lineDue l = none ↔ ∀ c, ¬lineEventDue s l c := by
  rw [Option.eq_none_iff_forall_ne_some]
  exact forall_congr' fun c => not_congr (lineDue_iff s l c)

/-- The first of an ascending list at which `f` gives something. -/
theorem findSome_ascending {α : Type} {f : LineId → Option α} {c : α} (ls : List LineId) (h : ls.Pairwise (· < ·)) :
    ls.findSome? f = some c ↔ ∃ l ∈ ls, f l = some c ∧ ∀ k ∈ ls, k < l → f k = none := by
  induction ls with
  | nil => simp
  | cons x xs ih =>
    obtain ⟨hx, hxs⟩ := List.pairwise_cons.mp h
    have later (l : LineId) (hl : l ∈ xs) : ¬l < x := fun e => Nat.lt_irrefl _ (Nat.lt_trans (hx l hl) e)
    rw [List.findSome?_cons]
    cases hf : f x with
    | some b =>
      simp only [Option.some.injEq]
      constructor
      · rintro rfl
        refine ⟨x, List.mem_cons_self .., hf, fun k hk e => ?_⟩
        rcases List.mem_cons.mp hk with rfl | hk
        · exact absurd e (Nat.lt_irrefl _)
        · exact absurd e (later k hk)
      · rintro ⟨l, hl, he, hn⟩
        rcases List.mem_cons.mp hl with rfl | hl
        · rw [hf] at he
          exact Option.some.inj he
        · have := hn x (List.mem_cons_self ..) (hx l hl)
          rw [hf] at this
          cases this
    | none =>
      rw [ih hxs]
      constructor
      · rintro ⟨l, hl, he, hn⟩
        refine ⟨l, List.mem_cons_of_mem _ hl, he, fun k hk e => ?_⟩
        rcases List.mem_cons.mp hk with rfl | hk
        · exact hf
        · exact hn k hk e
      · rintro ⟨l, hl, he, hn⟩
        rcases List.mem_cons.mp hl with rfl | hl
        · rw [hf] at he
          cases he
        · exact ⟨l, hl, he, fun k hk e => hn k (List.mem_cons_of_mem _ hk) e⟩

/-! ## The event due, and the claim that stands -/

theorem dueEvent_iff (s : State) (c : Instr) : s.dueEvent = some c ↔ ownEventDue s c := by
  unfold State.dueEvent ownEventDue
  rw [← Classical.not_not (a := noArmingDue s), ← armingDue_not, Classical.not_not]
  by_cases ha : s.armingDue = true
  · simp [ha, @eq_comm _ c]
  have ha' : s.armingDue = false := Bool.eq_false_iff.mpr ha
  simp only [ha', Bool.false_eq_true, if_false, false_and, false_or, not_false_eq_true, true_and]
  cases hs : s.dueStart with
  | some d =>
    have hd := (dueStart_iff s d).mp hs
    rw [← dueStart_iff, hs]
    exact ⟨.inl, fun h => h.elim id fun h => h.elim (fun h => absurd hd (h.1 d)) fun h => absurd hd (h.1 d)⟩
  | none =>
    have hn := (dueStart_none s).mp hs
    have h0 : ¬startDue s c := hn c
    by_cases h : 100 ≤ s.clock.sinceMs
    · have : ¬s.clock.sinceMs < 100 := Nat.not_lt.mpr h
      simp [h, this, h0, hn, @eq_comm _ c]
    · have h' : s.clock.sinceMs < 100 := Nat.lt_of_not_le h
      simp only [h, if_false, h0, hn, h', false_or, false_and, and_false, true_and, not_false_eq_true, implies_true]
      rw [findSome_ascending _ (List.pairwise_lt_finRange 4)]
      simp only [List.mem_finRange, true_and, lineDue_iff, lineDue_none, forall_const]

theorem dueEvent_none (s : State) : s.dueEvent = none ↔ ∀ c, ¬ownEventDue s c := by
  rw [Option.eq_none_iff_forall_ne_some]
  exact forall_congr' fun c => not_congr (dueEvent_iff s c)

theorem grantDue_iff (s : State) : s.grantDue = true ↔ claimStands s := by
  have hd : s.armingDue = false ↔ noArmingDue s := by
    rw [← Bool.not_eq_true, armingDue_not]; exact Classical.not_not
  unfold State.grantDue claimStands
  split
  · rename_i hp
    simp only [Bool.and_eq_true, Bool.not_eq_true', Bool.or_eq_true, hd, hp, hostClaims_iff, Option.isSome_iff_ne_none,
      true_and]
  all_goals
    rename_i hp
    simp [hp]

end Sys2Proof.Machine
end

