-- ==== Sys2Proof/Laws/SampleFrames.lean ====
section
/-! SUPPORT. The bits of a sample frame: the frame that the SRU takes as good is the one R30 and R31 describe. -/

namespace Sys2Proof.Machine
open Sys2Proof

/-! ## Numbers from bits -/

theorem testBit_step (a : Nat) (b : Bool) (j : Nat) :
    (2 * a + b.toNat).testBit j = if j = 0 then b else a.testBit (j - 1) := by
  cases j with
  | zero => cases b <;> simp [Nat.testBit_zero] <;> omega
  | succ j =>
    rw [Nat.testBit_succ]
    have : (2 * a + b.toNat) / 2 = a := by cases b <;> simp <;> omega
    simp [this]

/-- Bit `j` of the number is the bit that stands `j` from the end. -/
theorem numberOf_testBit (l : List Bool) (j : Nat) :
    (numberOf l).testBit j = if j < l.length then l.getD (l.length - 1 - j) false else false := by
  have key : ∀ (l : List Bool) (a : Nat), (l.foldl (fun a b => 2 * a + b.toNat) a).testBit j
      = if j < l.length then l.getD (l.length - 1 - j) false else a.testBit (j - l.length) := by
    intro l
    induction l with
    | nil => intro a; simp
    | cons b l ih =>
      intro a
      rw [List.foldl_cons, ih, testBit_step, List.length_cons]
      by_cases h : j < l.length
      · have e : l.length + 1 - 1 - j = (l.length - 1 - j) + 1 := by omega
        simp only [h, Nat.lt_succ_of_lt h, if_true, e, List.getD_cons_succ]
      by_cases h' : j = l.length
      · subst h'; simp
      · have e : ¬j < l.length + 1 := by omega
        have e' : ¬j - l.length = 0 := by omega
        simp only [h, e, e', if_false]
        rw [Nat.sub_sub]
  have := key l 0
  rwa [Nat.zero_testBit] at this

/-- `n` bits of a frame from place `i`. -/
theorem numberOf_part_testBit {bits : List Bool} {i n j : Nat} (h : i + n ≤ bits.length) (hj : j < n) :
    (numberOf ((bits.drop i).take n)).testBit j = bits.getD (i + (n - 1 - j)) false := by
  have hl : ((bits.drop i).take n).length = n := by rw [List.length_take, List.length_drop]; omega
  rw [numberOf_testBit, hl, if_pos hj]
  simp only [List.getD_eq_getElem?_getD]
  rw [List.getElem?_take_of_lt (by omega), List.getElem?_drop]

theorem numberOf_lt (l : List Bool) : numberOf l < 2 ^ l.length :=
  Nat.lt_pow_two_of_testBit _ fun j hj => by rw [numberOf_testBit, if_neg (by omega)]

theorem numberOf_part_lt (bits : List Bool) (i n : Nat) : numberOf ((bits.drop i).take n) < 2 ^ n :=
  Nat.lt_of_lt_of_le (numberOf_lt _) (Nat.pow_le_pow_right (by decide) (List.length_take_le ..))

/-! ## Bytes, check byte, samples -/

theorem frameByte_testBit {bits : List Bool} {n j : Nat} (h : bits.length = 168) (hn : n < 21) (hj : j < 8) :
    (frameByte bits n).testBit j = frameBit bits n j := by
  rw [frameByte, numberOf_part_testBit (by omega) hj, frameBit]

theorem frameByte_lt (bits : List Bool) (n : Nat) : frameByte bits n < 256 := numberOf_part_lt bits (8 * n) 8

/-- Two numbers of 8 bits with the same bits. -/
theorem eq_iff_testBit {a b : Nat} (ha : a < 256) (hb : b < 256) : a = b ↔ ∀ j, j < 8 → a.testBit j = b.testBit j := by
  refine ⟨fun h _ _ => by rw [h], fun h => Nat.eq_of_testBit_eq fun j => ?_⟩
  by_cases hj : j < 8
  · exact h j hj
  · have le : 2 ^ 8 ≤ 2 ^ j := Nat.pow_le_pow_right (by decide) (by omega)
    rw [Nat.testBit_lt_two_pow (by omega), Nat.testBit_lt_two_pow (by omega)]

theorem le_15_iff {a : Nat} (ha : a < 256) : a ≤ 15 ↔ ∀ j, 4 ≤ j → j < 8 → a.testBit j = false := by
  constructor
  · intro h j hj _
    have le : 2 ^ 4 ≤ 2 ^ j := Nat.pow_le_pow_right (by decide) hj
    exact Nat.testBit_lt_two_pow (by omega)
  · intro h
    have : a < 2 ^ 4 := Nat.lt_pow_two_of_testBit a fun j hj => by
      by_cases h8 : j < 8
      · exact h j hj h8
      · have le : 2 ^ 8 ≤ 2 ^ j := Nat.pow_le_pow_right (by decide) (by omega)
        exact Nat.testBit_lt_two_pow (by omega)
    omega

theorem crcBit_toNat : ∀ (r : Byte) (b : Bool), (crcBit r b).toNat = remainderStep r.toNat b := by decide +kernel

/-- The register of the SRU holds the remainder of the division. -/
theorem crc8_toNat (bits : List Bool) : (crc8 bits).toNat = remainderOf bits := by
  have key : ∀ (l : List Bool) (r : Byte), (l.foldl crcBit r).toNat = l.foldl remainderStep r.toNat := by
    intro l
    induction l with
    | nil => exact fun _ => rfl
    | cons b l ih => exact fun r => by rw [List.foldl_cons, List.foldl_cons, ih, crcBit_toNat]
  exact key bits 0

theorem sampleAt_toInt {bits : List Bool} {k : Nat} (h : bits.length = 168) (hk : k < 6) :
    ∃ x : BitVec 24, sampleAt bits k = x.toInt ∧ ∀ i, i < 24 → x.getMsbD i = bits.getD (8 * (1 + 3 * k) + i) false := by
  have hn := numberOf_part_lt bits (8 * (1 + 3 * k)) 24
  refine ⟨BitVec.ofNat 24 (numberOf ((bits.drop (8 * (1 + 3 * k))).take 24)), ?_, fun i hi => ?_⟩
  · rw [BitVec.toInt_eq_toNat_cond, BitVec.toNat_ofNat, Nat.mod_eq_of_lt hn, sampleAt]
    split <;> split <;> omega
  · rw [BitVec.getMsbD_eq_getLsbD, BitVec.getLsbD_ofNat,
      numberOf_part_testBit (by omega) (by omega)]
    have e : 24 - 1 - (24 - 1 - i) = i := by omega
    simp only [hi, e, decide_true, Bool.true_and]
    have : 24 - 1 - i < 24 := by omega
    simp [this]

/-- The bits that the SRU takes as a good frame, and its content (R30, R31). -/
theorem goodFrame_iff {bits : List Bool} (h : bits.length = 168) (f : Frame) :
    goodFrame bits 168 = some f ↔ isGoodFrame bits f := by
  have hcond : (frameByte bits 0 ≤ 15 ∧ (crc8 (bits.take 160)).toNat = frameByte bits 20)
      ↔ (∀ j, 4 ≤ j → j < 8 → frameBit bits 0 j = false)
        ∧ ∀ j, j < 8 → frameBit bits 20 j = (remainderOf (bits.take 160)).testBit j := by
    rw [le_15_iff (frameByte_lt bits 0), eq_comm, eq_iff_testBit (frameByte_lt bits 20) (crc8 (bits.take 160)).isLt,
      crc8_toNat]
    exact and_congr
      (forall_congr' fun j => forall_congr' fun _ => forall_congr' fun hj => by rw [frameByte_testBit h (by decide) hj])
      (forall_congr' fun j => forall_congr' fun hj => by rw [frameByte_testBit h (by decide) hj])
  have hseq : ∀ q : BitVec 4, BitVec.ofNat 4 (frameByte bits 0) = q ↔ ∀ j, j < 4 → q.getLsbD j = frameBit bits 0 j := by
    intro q
    have get (j : Nat) (hj : j < 4) : (BitVec.ofNat 4 (frameByte bits 0)).getLsbD j = frameBit bits 0 j := by
      rw [BitVec.getLsbD_ofNat, frameByte_testBit h (by decide) (by omega)]
      simp [hj]
    refine ⟨fun e j hj => by rw [← e, get j hj], fun e => BitVec.eq_of_getLsbD_eq fun j hj => ?_⟩
    rw [get j hj, e j hj]
  have hover (k : Fin 6) : (frameByte bits 19).testBit k.val = frameBit bits 19 k.val :=
    frameByte_testBit h (by decide) (by omega)
  unfold goodFrame isGoodFrame
  simp only [true_and]
  constructor
  · intro e
    split at e
    · rename_i hc
      cases Option.some.inj e
      obtain ⟨a, b⟩ := hcond.mp hc
      exact ⟨a, (hseq _).mp rfl, b, fun k => ⟨by simpa using hover k, by simpa using sampleAt_toInt h k.isLt⟩⟩
    · cases e
  · rintro ⟨a, b, c, d⟩
    rw [if_pos (hcond.mpr ⟨a, c⟩)]
    obtain ⟨seq, samples, overrange⟩ := f
    have e1 := (hseq seq).mpr b
    have e2 : Vector.ofFn (fun k : Fin 6 => sampleAt bits k.val) = samples := by
      apply Vector.ext
      intro k hk
      obtain ⟨x, hx, hb⟩ := (d ⟨k, hk⟩).2
      obtain ⟨y, hy, hc⟩ := sampleAt_toInt h hk
      have : x = y := BitVec.eq_of_getMsbD_eq fun i hi => by rw [hb i hi, hc i hi]
      subst this
      simpa using hy.trans hx.symm
    have e3 : Vector.ofFn (fun k : Fin 6 => (frameByte bits 19).testBit k.val) = overrange := by
      apply Vector.ext
      intro k hk
      have := (d ⟨k, hk⟩).1
      simpa using (hover ⟨k, hk⟩).trans this.symm
    rw [e1, e2, e3]

theorem goodFrame_length {bits : List Bool} {count : Nat} (h : count ≠ 168) : goodFrame bits count = none := by
  unfold goodFrame
  rw [if_neg fun x => h x.1]

end Sys2Proof.Machine
end

