-- ==== Sys2Proof/WellFormed.lean ====
section
/-! DEFINITION. Which commands can be sent: the checks the table's rows put on their own operands. -/

namespace Sys2Proof

/-- The word of an address lies on a word boundary: every access is one word at a word-aligned address
(spec/00_scope.md, Memory). -/
def wordAligned (a : Nat) : Bool := a % 4 == 0

/-- The offsets of the captured sections: delivery, windows, lines, calibration (Table 7-1, R135). -/
def capturedOffset (off : Nat) : Bool := decide (0x200 ≤ off) && decide (off < 0xC00)

/-- A command is well formed when its operands are ones its row admits: a host access is word-aligned, a
captured write lies in a captured section, an unknown command has a code outside Table 8-1, and a partial
command write lacks a byte enable. -/
def Instr.wellFormed : Instr → Bool
  | .hostRequestTaken addr _ _ _ => wordAligned addr.toNat
  | .capturedWrite off _ _ => wordAligned off.toNat && capturedOffset off.toNat
  | .unknownCommand _ code _ => code.toNat == 0 || decide (11 < code.toNat)
  | .partialCommandWrite be _ => be != 0xF#4
  | .powerOnResetAssert | .powerOnResetRelease _ _ | .busResetAssert | .busResetRelease | .millisecondAdvance
  | .phaseEnd _ _ | .shutdownHoldEnd _ | .coilHiAssert _ | .coilHiDeassert _ | .tripPinChange _ _
  | .tripDebounceComplete _ | .restartDelayExpiry _ | .frameArrival _ _ | .silenceTimerExpiry _
  | .windowExpiry _ | .hostForwardedCompletion _ _ | .rdCapture _ _ | .activitySummaryRead _
  | .discardedAccessCompletion _ _ | .commitLine _ _ | .commitCal _ _ | .commitWindows _ _
  | .commitDelivery _ _ | .load _ _ | .start _ _ | .stop _ _ | .halt _ _ | .restart _ _ | .clearTotal _ _
  | .freeze _ _ | .armingTakesEffect | .indexResetWrite | .indexResetWriteComplete _ | .recordStart
  | .recordWordComplete _ | .wWordWriteComplete _ | .pageWriteStart | .pageWordComplete _ | .commandStatusWrite
  | .commandStatusWriteComplete _ | .freshWordRefresh | .freshWordRefreshComplete _ | .loadRead
  | .loadReadComplete _ _ | .linkWaitIdleExit _ => true

end Sys2Proof
end

