-- ==== Sys2Proof/Tests/Slice0.lean ====
section
/-! SUPPORT. Tests: ill-formed commands that the check refuses; for every statement with hypotheses, concrete states
and operands that meet them, clause by clause; and small checks of single commands against the spec's numbers. -/

namespace Sys2Proof.Tests

open Sys2Proof Sys2Proof.Machine

set_option maxRecDepth 4000
set_option Elab.async false

/-! ## Well-formed commands -/

theorem test_wellFormed_refuses_unaligned_request :
    Instr.wellFormed (.hostRequestTaken 0x000401 true 0xF 0) = false := by decide

theorem test_wellFormed_takes_aligned_request :
    Instr.wellFormed (.hostRequestTaken 0x000404 true 0xF 0) = true := by decide

theorem test_wellFormed_refuses_unaligned_capture :
    Instr.wellFormed (.capturedWrite 0x0202 0xF 0) = false := by decide

theorem test_wellFormed_refuses_capture_outside_sections :
    Instr.wellFormed (.capturedWrite 0x0C00 0xF 0) = false ∧ Instr.wellFormed (.capturedWrite 0x01FC 0xF 0) = false
      ∧ Instr.wellFormed (.capturedWrite 0x0200 0xF 0) = true ∧ Instr.wellFormed (.capturedWrite 0x0BFC 0xF 0) = true := by
  decide

theorem test_wellFormed_refuses_known_code_as_unknown :
    Instr.wellFormed (.unknownCommand 0 1 0) = false ∧ Instr.wellFormed (.unknownCommand 0 11 0) = false
      ∧ Instr.wellFormed (.unknownCommand 0 0 0) = true ∧ Instr.wellFormed (.unknownCommand 0 12 0) = true := by
  decide

theorem test_wellFormed_refuses_full_partial_write :
    Instr.wellFormed (.partialCommandWrite 0xF 0) = false ∧ Instr.wellFormed (.partialCommandWrite 0x7 0) = true := by
  decide

/-! ## States to test in -/

/-- The part in IDLE with nothing to deliver: every page, the command status and the CU are clean. -/
def calm : State :=
  { State.reset with
    cu := { State.reset.cu with state := .idle, ready := true, initLeft := [] }
    de := { State.reset.de with
      pages := Vector.replicate 5 { dirty := false, faulted := false }, statusDirty := false } }

def held : State := { calm with pins := { calm.pins with por := true } }
def inBusReset (counted : Bool) : State :=
  { calm with pins := { calm.pins with brst := true }
              mp := { calm.mp with inReset := true, resetCounted := counted } }

/-- A copy of a section with some bytes replaced. -/
def edited (b : Bytes) (xs : List (Nat × Byte)) : Bytes := xs.foldl (fun v x => v.setIfInBounds x.1 x.2) b

/-- Line 0 in a line state and phase of a cycle with the default settings. -/
def lineIn (st : LineState) (ph : Option Phase) (s : State) : State :=
  (((s.modLs 0 fun q => { q with
      state := st, phase := ph, phaseTimer := ph.map fun _ => 0
      producing := st == .running || st == .stopping
      bridge := match ph with | some p => p.bridge | none => q.bridge }).modSru 0 fun u => { u with
      rx := .idle, params := some (cycleParams defaultLine defaultCal 0 4040) }).modGzu 0 fun g =>
    { g with lineCopy := st })

/-- Line 0 in SHUTDOWN at a stage. -/
def shutDown (st : Stage) : State :=
  (lineIn .shutdown none calm).modLs 0 fun q => { q with stage := st, recorded := some .coilHi, restartTimer := some 5 }

/-- Live line settings of line 0 with some bytes replaced. -/
def withLive (xs : List (Nat × Byte)) (s : State) : State :=
  s.modCopies 0 fun c => { c with liveLine := edited c.liveLine xs }

def withStagedLine (xs : List (Nat × Byte)) (s : State) : State :=
  s.modCopies 0 fun c => { c with stagedLine := edited c.stagedLine xs }

def withStagedCal (xs : List (Nat × Byte)) (s : State) : State :=
  s.modCopies 0 fun c => { c with stagedCal := edited c.stagedCal xs }

def withCoilHi (v : Bool) (s : State) : State :=
  { s with pins := { s.pins with coilHi := Vector.replicate 4 v } }

/-- Both copies of line 0 pending: a line section with COIL_HI disabled and another shutdown state, a calibration with
tag 6, and the last-command record the calibration's. -/
def withPending (s : State) : State :=
  (s.modCopies 0 fun c => { c with
    pendingLine := some ⟨edited c.liveLine [(7, 0), (10, 1)], 5, 1⟩, pendingCal := some ⟨defaultCal, 6, 2⟩ }).modCu
    fun c => { c with owner := .pendingCal 0 }

def withTrip (v : Bool) (s : State) : State := { s with pins := { s.pins with trip := Vector.replicate 4 v } }

/-- A host access of the gauge area word at `off`, kept and on the port. -/
def onPort (off : Nat) (write : Bool) (be : BitVec 4) (data : Word) (target : CaptureTarget)
    (fresh : Option FreshWord) (refreshed : Option Byte) (s : State) : State :=
  let a : Access := { addr := s.areaAddr off, write := write, be := be, data := data }
  { s with mp := { s.mp with
      request := some { access := a, target := target, fresh := fresh, stage := .onPort, refreshed := refreshed }
      port := .host true a } }

/-- The write of a command word on the port (R148). -/
def cmd (tag code operand : Byte) (s : State) : State :=
  onPort 0x100 true 0xF#4 ((operand ++ code ++ tag).setWidth 32) .commandSlot none none s

/-- A DE access on the port. -/
def dePort (k : DeKind) (s : State) : State :=
  { s with mp := { s.mp with port := .de k { addr := 0x2000, write := true, be := 0xF#4, data := 0 } } }

/-- A profile of line 0, as staged. -/
def someProfile : Staged :=
  { profile := Sru.reset.formProfile (cycleParams defaultLine defaultCal 0 4040) 0 false, before := 0 }

def ringAt (r : RingId) (base capacity : Nat) (w rd : Half) (s : State) : State :=
  s.modRing r fun _ => { armed := true, base := base, capacity := capacity, faulted := false, w := w, rd := rd,
                         resetOut := false, priority := 4, batch := 2, countdown := 2 }

/-- Ring P0 armed with the queue of line 0 given. -/
def delivering (queue : List Staged) : State :=
  (ringAt 0 0x2000 8 3 1 calm).modStaging 0 fun g => { g with queue := queue }

/-- An entry of the NU. -/
def someEntry : Entry :=
  { kind := .busReset, source := .part, level := 3, count := 1, detail := 0, first := 0, last := 0 }

/-- The notice ring armed with an offer. -/
def noticing (inFlight : Bool) : State :=
  (ringAt 4 0x3000 16 0 0 calm).modNu fun n => { n with offer := some { entry := someEntry, inFlight := inFlight } }

/-- The words of some record. -/
def threeWords : List Word := [1, 2, 3]

def flying (f : Flight) (k : DeKind) (s : State) : State :=
  (dePort k s).modDe fun d => { d with flight := some f }

/-- Windows section with window 0 enabled on the whole address space, matching reads and writes, its timeout 5 ms. -/
def watchedWindows (guard unattended : Byte) : Bytes :=
  edited defaultWindows [(4, 24), (5, 1), (6, 1), (7, 1), (8, guard), (9, unattended), (10, 5)]

def watching (guard unattended : Byte) (t : Option Nat) : State :=
  (calm.modCu fun c => { c with liveWindows := watchedWindows guard unattended }).modWindow 0 fun x =>
    { x with state := .watching, timer := t }

/-- A delivery section with ring P0 and the notice ring enabled at these bases. -/
def someDelivery : Bytes := edited defaultDelivery [(0, 1), (5, 0x20), (0x40, 1), (0x45, 0x30)]

def arming (s : State) : State := s.modDe fun d => { d with arming := some { bytes := someDelivery, tag := 9, taken := 2 } }

/-- A property of each element of a list, one conjunct an element. -/
def each {α : Type} (l : List α) (p : α → Prop) : Prop :=
  match l with
  | [] => True
  | x :: xs => p x ∧ each xs p

/-- A debounce of TRIP0 toward `target` in progress. -/
def debouncing (target : Bool) (n : Nat) (s : State) : State :=
  s.modLs 0 fun q => { q with debounce := some { target := target, remaining := n } }

/-- The outcome is a next state of which `p` holds. -/
def gives (o : Host.Outcome State Fault Refusal) (p : State → Bool) : Bool :=
  match o with
  | .next t => p t
  | .fault _ => false
  | .refused _ => false

theorem gives_next {o : Host.Outcome State Fault Refusal} {p : State → Bool} (h : gives o p = true) :
    ∃ t, o = .next t := by
  cases o with
  | next t => exact ⟨t, rfl⟩
  | fault _ => simp [gives] at h
  | refused _ => simp [gives] at h

/-- The part is out of power-on reset, no arming is due and no claim stands on a FREE port: `awake` and `atRest` as a
check. -/
def ready (s : State) : Bool :=
  !s.pins.por && !s.armingDue && (s.mp.port != .free || s.awaited || (s.deNext.isNone && !s.hostClaims))

theorem ready_iff (s : State) : ready s = true ↔ awake s ∧ atRest s := by
  have hc : s.hostClaims = false ↔ ∀ r, s.mp.request = some r → r.stage ≠ .waiting := by
    rw [← Bool.not_eq_true, hostClaims_iff]
    exact ⟨fun h r a b => h ⟨r, a, b⟩, fun h ⟨r, a, b⟩ => h r a b⟩
  have hd : s.armingDue = false ↔ noArmingDue s := by
    rw [← Bool.not_eq_true, armingDue_not]; exact Classical.not_not
  simp [ready, awake, atRest, hc, hd, and_assoc, or_assoc]

/-! ## Hypotheses of the statements: the queue, resets, time -/

/-- The queue is empty, PORn is released, and the event of the part's own that is due is this one, or none. -/
def idles (c : Option Instr) (s : State) : Bool := s.pending.isEmpty && !s.pins.por && s.dueEvent == c

theorem idles_due {c : Instr} {s : State} (h : idles (some c) s = true) : s.pending = [] ∧ awake s ∧ ownEventDue s c := by
  simp only [idles, Bool.and_eq_true, List.isEmpty_iff, Bool.not_eq_true', beq_iff_eq, dueEvent_iff] at h
  exact ⟨h.1.1, h.1.2, h.2⟩

theorem idles_none {s : State} (h : idles none s = true) : s.pending = [] ∧ awake s ∧ ∀ c, ¬ownEventDue s c := by
  simp only [idles, Bool.and_eq_true, List.isEmpty_iff, Bool.not_eq_true', beq_iff_eq, dueEvent_none] at h
  exact ⟨h.1.1, h.1.2, h.2⟩

/-- Line 0 with its LS and its SRU so. -/
def timed (f : Sequencer → Sequencer) (g : Sru → Sru) : State := (calm.modLs 0 f).modSru 0 g

/-- The phase timer of a running line at `n` in this phase. -/
def phaseAt (p : Phase) (n : Nat) : State :=
  (lineIn .running (some p) calm).modLs 0 fun q =>
    { q with phaseTimer := some n, lengths := some { half := 2000, settle := 400, gap := 20, duty := 512 } }

/-- States in which an event of the part's own is due: an arming, the beginning of the engine's work, and each timer at
its last count (R99, R15, R20, R16, R33, R3). -/
def dueCases : List (State × Instr) :=
  [(arming State.reset, .armingTakesEffect), (State.reset, .commandStatusWrite),
   ({ calm with clock := { tick := 5, sinceMs := 100 } }, .millisecondAdvance),
   (debouncing true 0 calm, .tripDebounceComplete 0),
   (timed (fun q => { q with restartTimer := some 0 }) id, .restartDelayExpiry 0),
   ((shutDown .allOffHold).modLs 0 fun q => { q with holdTicks := 2 }, .shutdownHoldEnd 0),
   (timed id fun u => { u with silence := some (silenceTicks defaultLine) }, .silenceTimerExpiry 0),
   (phaseAt .leadGap 20, .phaseEnd 0 false), (phaseAt .pSettle 400, .phaseEnd 0 false),
   (phaseAt .pWindow 1600, .phaseEnd 0 false), (phaseAt .midGap 20, .phaseEnd 0 false),
   (phaseAt .nSettle 400, .phaseEnd 0 false), (phaseAt .nWindow 1600, .phaseEnd 0 false)]

/-- States one count before. -/
def notDueCases : List State :=
  [calm, { calm with clock := { tick := 5, sinceMs := 99 } }, debouncing true 1 calm,
   timed (fun q => { q with restartTimer := some 1 }) id,
   (shutDown .allOffHold).modLs 0 fun q => { q with holdTicks := 1 },
   timed id fun u => { u with silence := some (silenceTicks defaultLine - 1) },
   timed id fun u => { u with silence := some (silenceTicks defaultLine), episode := true },
   phaseAt .leadGap 19, phaseAt .pSettle 399, phaseAt .pWindow 1599, phaseAt .midGap 19, phaseAt .nSettle 399,
   phaseAt .nWindow 1599]

theorem test_meets_EmptyQueueStep_due :
    ∀ x ∈ dueCases, x.1.pending = [] ∧ awake x.1 ∧ ownEventDue x.1 x.2 := by
  have h : ∀ x ∈ dueCases, idles (some x.2) x.1 = true := by decide +kernel
  exact fun x hx => idles_due (h x hx)

theorem test_meets_EmptyQueueStep :
    (held.pending = [] ∧ held.pins.por = true)
      ∧ (∀ s ∈ notDueCases, s.pending = [] ∧ awake s ∧ (∀ c, ¬ownEventDue s c) ∧ ¬claimStands s)
      ∧ (let s := calm.modDe fun d => { d with flight := some (.page 0 [(0x1000, 0)] 0) }
         s.pending = [] ∧ awake s ∧ (∀ c, ¬ownEventDue s c) ∧ claimStands s) := by
  have h : ∀ s ∈ notDueCases, idles none s = true ∧ s.grantDue = false := by decide +kernel
  have h' : let s := calm.modDe fun d => { d with flight := some (.page 0 [(0x1000, 0)] 0) }
      idles none s = true ∧ s.grantDue = true := by decide +kernel
  refine ⟨by decide +kernel, fun s hs => ?_, ?_⟩
  · obtain ⟨a, b, c⟩ := idles_none (h s hs).1
    exact ⟨a, b, c, fun hc => Bool.noConfusion ((h s hs).2.symm.trans ((grantDue_iff s).mpr hc))⟩
  · obtain ⟨a, b, c⟩ := idles_none h'.1
    exact ⟨a, b, c, (grantDue_iff _).mp h'.2⟩

/-- Of several events that are due the first in the order of log 2, and of the lines the lowest. -/
theorem test_first_of_several_events :
    idles (some (.tripDebounceComplete 0)) ((debouncing true 0 calm).modLs 0 fun q => { q with restartTimer := some 0 })
        = true
      ∧ idles (some (.restartDelayExpiry 0)) ((timed (fun q => { q with restartTimer := some 0 }) id).modLs 1 fun q =>
          { q with debounce := some { target := true, remaining := 0 } }) = true := by decide +kernel

theorem test_meets_PowerOnResetHoldsThePart : held.pins.por = true ∧ notPowerOn .millisecondAdvance :=
  ⟨rfl, by decide, fun _ _ h => by cases h⟩

theorem test_meets_PowerOnReleaseSetsInitialState :
    held.pins.por = true ∧ gives (exec (.powerOnResetRelease 0x80 0x5#4) held) (fun t =>
      (t.ls 0).tripLevel && !(t.ls 1).tripLevel && t.wu.base == 0x80) = true := by decide +kernel

theorem test_meets_BusResetActs :
    (ready calm = true ∧ calm.pins.brst = false ∧ calm.mp.port = .free)
      ∧ (let s := cmd 7 8 0 calm; ready s = true ∧ s.pins.brst = false ∧ ∃ k a, s.mp.port = .host k a)
      ∧ (let s := dePort .commandStatus calm; ready s = true ∧ s.pins.brst = false ∧ ∃ k a, s.mp.port = .de k a)
      ∧ (ready (inBusReset true) = true ∧ (inBusReset true).pins.brst = true ∧ (inBusReset true).mp.resetCounted = true)
      ∧ (ready (inBusReset false) = true ∧ (inBusReset false).pins.brst = true
          ∧ (inBusReset false).mp.resetCounted = false) :=
  ⟨⟨rfl, rfl, rfl⟩, ⟨rfl, rfl, _, _, rfl⟩, ⟨rfl, rfl, _, _, rfl⟩, ⟨rfl, rfl, rfl⟩, ⟨rfl, rfl, rfl⟩⟩

theorem test_meets_MillisecondAdvances :
    ready (watching 0 1 (some 1))
      ∧ (∃ n, ((watching 0 1 (some 1)).window 0).timer = some n ∧ n ≤ 1)
      ∧ (∀ n, ((watching 0 1 (some 2)).window 0).timer = some n → 1 < n)
      ∧ (∀ n, (calm.window 0).timer = some n → 1 < n) :=
  ⟨rfl, ⟨1, rfl, by decide⟩, fun n h => by cases h; decide, fun n h => by cases h⟩

theorem test_millisecondAdvance_expires_window :
    gives (exec .millisecondAdvance (watching 0 1 (some 1))) (fun t =>
      t.nu.ms == 1 && (t.window 0).state == .expired && t.wu.attendance == .unattended && (t.gzu 3).lalm) = true := by
  decide +kernel

/-- Windows 0 and 1 on the whole address space, matching reads and writes, with action UNATTENDED; their timers. -/
def twoWatching (t u : Option Nat) : State :=
  let b := edited (watchedWindows 0 1) [(0x24, 24), (0x25, 1), (0x26, 1), (0x27, 1), (0x29, 1), (0x2A, 5)]
  ((calm.modCu fun c => { c with liveWindows := b }).modWindow 0 fun x =>
    { x with state := .watching, timer := t }).modWindow 1 fun x => { x with state := .watching, timer := u }

theorem test_meets_MillisecondAdvances_attendance :
    (let s := twoWatching (some 1) (some 1)
     ready s = true ∧ lastMillisecond s 0 ∧ lastMillisecond s 1 ∧ (∀ v : WindowId, 1 < v → ¬lastMillisecond s v)
      ∧ s.levelOf .windowExpired ≠ 0 ∧ s.levelOf .unattended ≠ 0 ∧ s.wu.attendance = .attended
      ∧ expiresUnattended s 0 ∧ ∀ v : WindowId, v < 0 → ¬expiresUnattended s v)
      ∧ (let s := twoWatching none (some 2)
         ready s = true ∧ (∀ w : WindowId, ¬lastMillisecond s w)
          ∧ gives (exec .millisecondAdvance s) (fun t => t.wu.attendance == s.wu.attendance) = true) := by
  have h (s : State) (w : WindowId) : lastMillisecond s w ↔ ((s.window w).timer.any fun n => decide (n ≤ 1)) = true := by
    unfold lastMillisecond
    cases (s.window w).timer <;> simp
  simp only [expiresUnattended, h]
  decide +kernel

/-- Two windows expire at one advance: WINDOW_EXPIRED in window order, UNATTENDED for the lower. -/
theorem test_advance_expires_two_windows :
    gives (exec .millisecondAdvance (twoWatching (some 1) (some 1))) (fun t =>
      (t.nu.backlog.map fun b => (b.entry.kind, b.entry.detail.toNat, b.entry.count))
        == [(.windowExpired, 1, 2), (.unattended, 0, 1)] && t.nu.ms == 1 && (t.gzu 2).attCopy == .unattended
        && (t.page partPage).dirty) = true := by decide +kernel

/-! ## Hypotheses: phases, shutdown, pins -/

theorem test_meets_PhaseEndEntersNextPhase (p q : Phase) (h : phaseAfter p = some q) :
    let s := lineIn .running (some p) calm
    ready s = true ∧ (s.ls 0).phase = some p ∧ phaseAfter p = some q
      ∧ ¬(isSettle p ∧ false = true ∧ openCoilEnable (s.liveLine 0) = true) ∧ ∃ c, (s.sru 0).params = some c :=
  ⟨rfl, by cases p <;> rfl, h, fun x => Bool.noConfusion x.2.1, _, by cases p <;> rfl⟩

theorem test_meets_OpenCoilShutsLineDown :
    let s := lineIn .priming (some .nSettle) calm
    let r := lineIn .running (some .pSettle) calm
    (ready s = true ∧ (s.ls 0).phase = some .nSettle ∧ isSettle .nSettle ∧ openCoilEnable (s.liveLine 0) = true)
      ∧ (ready r = true ∧ (r.ls 0).phase = some .pSettle ∧ isSettle .pSettle ∧ openCoilEnable (r.liveLine 0) = true) := by
  unfold isSettle; decide +kernel

/-- A source holds on line 0 and would act: COIL_HI under the live section; the same pin acts no more once a pending
section disables it. -/
theorem test_quietLine_judges_section_after_transfer :
    ¬quietLine (withCoilHi true (lineIn .priming (some .nWindow) calm)) 0
      ∧ quietLine (withPending (withCoilHi true (lineIn .priming (some .nWindow) calm))) 0 := by
  unfold quietLine lineAfter; decide +kernel

theorem test_meets_PrimingCycleEndsRunning :
    (∀ s ∈ [lineIn .priming (some .nWindow) calm, withPending (lineIn .priming (some .nWindow) calm)],
        ready s = true ∧ (s.ls 0).phase = some .nWindow ∧ (s.ls 0).state = .priming ∧ quietLine s 0)
      ∧ (let s := withCoilHi true (lineIn .priming (some .nWindow) calm)
         ready s = true ∧ (s.ls 0).phase = some .nWindow ∧ (s.ls 0).state = .priming ∧ ¬quietLine s 0) := by
  unfold quietLine; decide +kernel

theorem test_meets_transferred :
    (let s := withPending calm
     (s.copies 0).pendingLine.isSome = true ∧ (s.copies 0).pendingCal.isSome = true ∧ s.cu.owner = .pendingCal 0)
      ∧ nothingPending calm 0 ∧ calm.levelOf .configApplied ≠ 0 := by unfold nothingPending; decide +kernel

theorem test_transfer_makes_pending_copies_live :
    gives (exec (.phaseEnd 0 false) (withPending (lineIn .priming (some .nWindow) calm))) (fun t =>
      (t.copies 0).lineTag == 5 && (t.copies 0).calTag == 6 && !coilHiEnable (t.liveLine 0)
        && t.cu.record.result == .applied && t.cu.owner == .none) = true := by decide +kernel

theorem test_coilHi_acts_at_cycle_start :
    gives (exec (.phaseEnd 0 false) (withCoilHi true (lineIn .priming (some .nWindow) calm))) (fun t =>
      (t.ls 0).state == .shutdown && (t.ls 0).recorded == some .coilHi && (t.ls 0).attempts == 1) = true := by
  decide +kernel

/-- A driven line 0 one attempt below its limit, with no profile since PRIMING, and one with a profile. -/
def lastAttempt (profile : Bool) : State :=
  (lineIn .running (some .pSettle) calm).modLs 0 fun q => { q with attempts := 2, profileSincePriming := profile }

theorem test_shutdown_locks_out_at_limit :
    gives (exec (.phaseEnd 0 true) (lastAttempt false)) (fun t =>
      reachesLimit ((lastAttempt false).ls 0) t 0 && (t.ls 0).lockout && (t.ls 0).restartTimer == none
        && t.nu.backlog.any (fun b => b.entry.kind == .restartLockout && b.entry.detail == 3)) = true
      ∧ gives (exec (.phaseEnd 0 true) (lastAttempt true)) (fun t =>
          !reachesLimit ((lastAttempt true).ls 0) t 0 && !(t.ls 0).lockout && (t.ls 0).attempts == 2
            && (t.ls 0).restartTimer.isSome) = true := by decide +kernel

theorem test_meets_RunningCycleYieldsProfile :
    let s := lineIn .running (some .nWindow) calm
    ready s = true ∧ (s.ls 0).phase = some .nWindow ∧ (s.ls 0).state = .running ∧ (s.ls 0).producing = true
      ∧ (s.sru 0).params = some (cycleParams defaultLine defaultCal 0 4040) ∧ quietLine s 0 := by
  unfold quietLine; decide +kernel

theorem test_meets_RunningCycleYieldsProfile_source :
    let s := withCoilHi true (lineIn .running (some .nWindow) calm)
    ready s = true ∧ (s.ls 0).phase = some .nWindow ∧ (s.ls 0).state = .running ∧ (s.ls 0).producing = true
      ∧ (s.sru 0).params = some (cycleParams defaultLine defaultCal 0 4040) ∧ ¬quietLine s 0 := by
  unfold quietLine; decide +kernel

/-- Line 0 at the end of a producing cycle with `n` profiles queued, the head in flight or not. -/
def queued (n : Nat) (head : Bool) : State :=
  ((lineIn .running (some .nWindow) calm).modStaging 0 fun g => { g with
    queue := List.replicate n someProfile, carried := 2 }).modDe fun d => { d with
      flight := if head then some (.record 0 0x2000 [1, 2, 3] 0) else none }

theorem test_meets_joinsQueue :
    (∀ n ∈ [0, 1, 3, 4], ((queued n false).staging 0).queue.length = n)
      ∧ (queued 4 false).ringInFlight (profileRing 0) = false ∧ (queued 4 true).ringInFlight (profileRing 0) = true := by
  decide +kernel

theorem test_full_queue_drops_oldest_not_in_flight :
    gives (exec (.phaseEnd 0 false) (queued 4 false)) (fun t =>
      ((t.staging 0).queue.map (·.before)) == [1, 0, 0, 0] && (t.staging 0).dropped == 1) = true
      ∧ gives (exec (.phaseEnd 0 false) (queued 4 true)) (fun t =>
          ((t.staging 0).queue.map (·.before)) == [0, 1, 0, 0] && (t.staging 0).dropped == 1) = true
      ∧ gives (exec (.phaseEnd 0 false) (queued 0 false)) (fun t =>
          ((t.staging 0).queue.map (·.before)) == [2] && (t.staging 0).carried == 0) = true := by decide +kernel

/-- Line 0 at the end of a producing cycle in which every band has the velocity 152, with this still threshold; zone 0
is BELOW this limit on the newest column, in this state, with persist and clear checks of 1. -/
def zoned (threshold limit : Byte) (st : ZoneState) : State :=
  ((withLive [(0x1A, threshold), (0x20, 1), (0x21, 0), (0x22, 5), (0x23, 0), (0x24, limit), (0x25, 0), (0x26, 1),
    (0x27, 1), (0x28, 1)] (lineIn .running (some .nWindow) calm)).modSru 0 fun u => { u with
      accN := { bands := Vector.replicate 6 ⟨20, 20, 0, -200000⟩, muted := false }
      halvesP := some (Vector.replicate 6 (.good 10000)) }).modGzu 0 fun g => { g with
      zones := modAt g.zones 0 fun _ => { state := st, count := 0 }, still := Vector.replicate 6 255 }

/-- The clauses of `profileTaken`: a zone that trips, one that clears under settings that are kept, and bands that are
slower than the still threshold, not slower, and not valid. -/
theorem test_meets_profileTaken :
    (let s := zoned 150 153 .clear
     gives (exec (.phaseEnd 0 false) s) (fun t => (zoneVerdict s t 0 0).2 == .trip
        && (t.gzu 0).zones[0].state == .tripped && (t.gzu 0).still[0] == 0
        && ((t.staging 0).queue.map fun g => g.profile.zones[0]) == [.tripped]
        && t.nu.backlog.any (fun b => b.entry.kind == .zoneTrip && b.entry.detail == 0)) = true)
      ∧ (let s := zoned 153 152 .tripped
         gives (exec (.phaseEnd 0 false) s) (fun t => (zoneVerdict s t 0 0).2 == .clear
          && zoneDef (s.liveLine 0) 0 == zoneDef (t.liveLine 0) 0
          && (t.gzu 0).zones[0].state == .clear && (t.gzu 0).still[5] == 255
          && t.nu.backlog.any (fun b => b.entry.kind == .zoneClear && b.entry.detail == 0)) = true)
      ∧ (let s := (zoned 150 153 .clear).modSru 0 fun u => { u with halvesP := none }
         gives (exec (.phaseEnd 0 false) s) (fun t => (t.gzu 0).still[0] == 255
          && (zoneVerdict s t 0 0) == ({ state := .clear, count := 0 }, .none)) = true) := by decide +kernel

/-- An event of line 0 at a change of its zone definitions, as the part has it: a ZONE_CLEAR with this detail, or none. -/
def zoneClearTold (d : Option Half) (s : State) : Bool :=
  (s.nu.backlog.filter fun b => b.entry.kind == .zoneClear).map (·.entry.detail) == d.toList

/-- Line 0 with its zones TRIPPED, RECOVERING, PENDING and CLEAR. -/
def fourZones (s : State) : State :=
  s.modGzu 0 fun g => { g with zones := #v[⟨.tripped, 0⟩, ⟨.recovering, 1⟩, ⟨.pending, 1⟩, ⟨.clear, 0⟩] }

/-- The four zones of line 0, the persist of each of the zones `zs` changed in the bytes given. -/
def rezoned (zs : List Nat) : List (Nat × Byte) := zs.map fun z => (0x27 + 16 * z, 9)

/-- The clauses of `zonesFollow` at a commit to a line in OFF and at a cycle start: of a TRIPPED and a RECOVERING zone
that are reset the higher's detail is recorded last, 257 for zone 1 (spec/03, section 3.10); a PENDING and a CLEAR zone
reset raise nothing; a change of no zone resets none. -/
theorem test_meets_zonesFollow :
    ∀ x ∈ [([0, 1, 2, 3], some (257 : Half), [.clear, .clear, .clear, .clear]), ([0], some 256, [.clear, .recovering, .pending, .clear]),
        ([2, 3], none, [.tripped, .recovering, .clear, .clear]), ([], none, [.tripped, .recovering, .pending, .clear])],
      gives (exec (.commitLine 7 0) (cmd 7 1 0 (withStagedLine (rezoned x.1) (fourZones calm)))) (fun t =>
          zoneClearTold x.2.1 t && (t.gzu 0).zones.toList.map (·.state) == x.2.2) = true
        ∧ gives (exec (.phaseEnd 0 false) ((fourZones (lineIn .priming (some .nWindow) calm)).modCopies 0 fun c => { c with
            pendingLine := some ⟨edited c.liveLine (rezoned x.1), 5, 1⟩ })) (fun t =>
          zoneClearTold x.2.1 t && (t.gzu 0).zones.toList.map (·.state) == x.2.2) = true := by decide +kernel

/-- The clauses of `profileTaken` on a definition that changes: a zone that the profile trips is reset by the transfer
that follows, with ZONE_CLEAR of detail 256 after its ZONE_TRIP; one that it clears has told of that already. -/
theorem test_meets_profileTaken_reset :
    (let s := (zoned 150 153 .clear).modCopies 0 fun c => { c with
        pendingLine := some ⟨edited c.liveLine (rezoned [0]), 5, 1⟩ }
     gives (exec (.phaseEnd 0 false) s) (fun t => (zoneAfter s t 0 0).state == .tripped && zoneClearTold (some 256) t
        && t.nu.backlog.any (fun b => b.entry.kind == .zoneTrip && b.entry.detail == 0)
        && (t.gzu 0).zones[0].state == .clear
        && ((t.staging 0).queue.map fun g => g.profile.zones[0]) == [.tripped]) = true)
      ∧ (let s := (zoned 153 152 .tripped).modCopies 0 fun c => { c with
          pendingLine := some ⟨edited c.liveLine (rezoned [0]), 5, 1⟩ }
         gives (exec (.phaseEnd 0 false) s) (fun t => (zoneAfter s t 0 0).state == .clear && zoneClearTold (some 0) t) = true)
      := by decide +kernel

theorem test_meets_StoppingCycleEndsOff : ∀ s ∈ [lineIn .stopping (some .nWindow) calm,
      withPending (lineIn .stopping (some .nWindow) calm)],
    ready s = true ∧ (s.ls 0).phase = some .nWindow ∧ (s.ls 0).state = .stopping ∧ (s.ls 0).producing = true
      ∧ (s.sru 0).params = some (cycleParams defaultLine defaultCal 0 4040) := by
  decide +kernel

theorem test_meets_HoldEndClampsBridge (v : Byte) (h : v = 0 ∨ v = 1 ∨ v = 2) :
    let s := withLive [(10, v)] (shutDown .allOffHold)
    ready s = true ∧ (s.ls 0).state = .shutdown ∧ (s.ls 0).stage = .allOffHold
      ∧ shutdownStateCode (s.liveLine 0) = v.toNat := by
  rcases h with rfl | rfl | rfl <;> decide +kernel

theorem test_meets_CoilHiEdgesAct_disabled :
    let s := withLive [(7, 0)] (shutDown .clamped)
    ready s = true ∧ s.pins.coilHi[0] = false ∧ (s.ls 0).state = .shutdown ∧ coilHiEnable (s.liveLine 0) = false
      ∧ (s.ls 0).causes.coilHi = false := by decide +kernel

theorem test_meets_CoilHiEdgesAct :
    (ready calm = true ∧ calm.pins.coilHi[0] = false ∧ (calm.ls 0).state = .off)
      ∧ (let s := withLive [(7, 0)] (lineIn .running (some .pWindow) calm)
         ready s = true ∧ s.pins.coilHi[0] = false ∧ (s.ls 0).state.driven = true ∧ coilHiEnable (s.liveLine 0) = false)
      ∧ (let s := lineIn .running (some .pWindow) calm
         ready s = true ∧ s.pins.coilHi[0] = false ∧ (s.ls 0).state.driven = true ∧ coilHiEnable (s.liveLine 0) = true)
      ∧ (let s := shutDown .clamped
         ready s = true ∧ s.pins.coilHi[0] = false ∧ (s.ls 0).state = .shutdown ∧ coilHiEnable (s.liveLine 0) = true)
      ∧ (let s := withCoilHi true (shutDown .clamped)
         ready s = true ∧ s.pins.coilHi[0] = true ∧ (s.ls 0).state = .shutdown)
      ∧ (let s := withCoilHi true calm
         ready s = true ∧ s.pins.coilHi[0] = true ∧ (s.ls 0).state ≠ .shutdown) := by
  decide +kernel

theorem test_meets_TripIsDebounced_pin :
    (∀ d, ((withTrip false (debouncing false 1 calm)).ls 0).debounce = some d → 0 < d.remaining)
      ∧ (let s := withTrip false (debouncing false 1 calm)
         ready s = true ∧ s.pins.trip[0] = !true ∧ true = (s.ls 0).tripLevel)
      ∧ (∀ d, (calm.ls 0).debounce = some d → 0 < d.remaining)
      ∧ (ready calm = true ∧ calm.pins.trip[0] = !false ∧ false ≠ (calm.ls 0).tripLevel
          ∧ tripDebounceMs (calm.liveLine 0) ≠ 0)
      ∧ (let s := withLive [(15, 0)] calm
         ready s = true ∧ s.pins.trip[0] = !false ∧ false ≠ (s.ls 0).tripLevel ∧ tripDebounceMs (s.liveLine 0) = 0
          ∧ (s.ls 0).state = .off)
      ∧ (let s := withLive [(15, 0)] (lineIn .running (some .pWindow) calm)
         ready s = true ∧ s.pins.trip[0] = !false ∧ false ≠ (s.ls 0).tripLevel ∧ tripDebounceMs (s.liveLine 0) = 0
          ∧ (s.ls 0).state.driven = true ∧ tripActsAt s 0 false)
      ∧ (let s := withLive [(15, 0), (9, 0)] (lineIn .running (some .pWindow) calm)
         ready s = true ∧ s.pins.trip[0] = !false ∧ false ≠ (s.ls 0).tripLevel ∧ tripDebounceMs (s.liveLine 0) = 0
          ∧ (s.ls 0).state.driven = true ∧ ¬tripActsAt s 0 false)
      ∧ (let s := withLive [(15, 0)] (shutDown .clamped)
         ready s = true ∧ s.pins.trip[0] = !false ∧ false ≠ (s.ls 0).tripLevel ∧ tripDebounceMs (s.liveLine 0) = 0
          ∧ (s.ls 0).state = .shutdown) := by
  unfold tripActsAt
  exact ⟨fun d h => (by cases h; decide), by decide +kernel, fun d h => (by cases h), by decide +kernel,
    by decide +kernel, by decide +kernel, by decide +kernel, by decide +kernel⟩

theorem test_meets_TripIsDebounced_complete :
    let d : Debounce := { target := false, remaining := 0 }
    (let s := debouncing false 0 (lineIn .running (some .pWindow) calm)
     ready s = true ∧ (s.ls 0).debounce = some d ∧ (s.ls 0).state.driven = true
      ∧ tripActsAt s 0 d.target)
      ∧ (let s := debouncing true 0 (lineIn .running (some .pWindow) calm)
         ready s = true ∧ (s.ls 0).debounce = some { d with target := true } ∧ (s.ls 0).state.driven = true
          ∧ ¬tripActsAt s 0 true)
      ∧ (let s := debouncing false 0 (shutDown .clamped)
         ready s = true ∧ (s.ls 0).debounce = some d ∧ (s.ls 0).state = .shutdown)
      ∧ (let s := debouncing false 0 calm; ready s = true ∧ (s.ls 0).debounce = some d ∧ (s.ls 0).state = .off) := by
  unfold tripActsAt; decide +kernel

/-- In SHUTDOWN an active TRIP joins the causes and stops the restart delay timer; an inactive one leaves them, and the
timer starts with its full count. -/
theorem test_trip_in_shutdown_moves_restart_timer :
    gives (exec (.tripDebounceComplete 0) (debouncing false 0 (shutDown .clamped))) (fun t =>
        (t.ls 0).causes.trip && (t.ls 0).restartTimer.isNone) = true
      ∧ gives (exec (.tripDebounceComplete 0) (debouncing true 0 ((shutDown .clamped).modLs 0 fun q =>
          { q with tripLevel := false, causes := { q.causes with trip := true }, restartTimer := none }))) (fun t =>
        !(t.ls 0).causes.trip && (t.ls 0).restartTimer == some 2000) = true := by decide +kernel

theorem test_meets_RestartDelayExpiryPrimes :
    let s := shutDown .clamped
    ready s = true ∧ (s.ls 0).state = .shutdown ∧ (s.ls 0).restartTimer.isSome = true ∧ quietLine s 0 := by
  unfold quietLine; decide +kernel

theorem test_meets_RestartDelayExpiryPrimes_source :
    let s := withCoilHi true (shutDown .clamped)
    ready s = true ∧ (s.ls 0).state = .shutdown ∧ (s.ls 0).restartTimer.isSome = true ∧ ¬quietLine s 0 := by
  unfold quietLine; decide +kernel

/-! ## Hypotheses: frames, silence, windows -/

/-- A good frame of sequence 1 with samples 1 in every band: its bytes and CRC (R29, R30). -/
def goodBits : List Bool :=
  let body : List Bool := ([1, 0, 0, 1, 0, 0, 1, 0, 0, 1, 0, 0, 1, 0, 0, 1, 0, 0, 1, 0] : List Byte).flatMap fun b =>
    (List.range 8).map fun i => b.getMsbD i
  body ++ (List.range 8).map fun i => (crc8 body).getMsbD i

theorem test_meets_FrameArrivalIsJudged_waiting_and_bad :
    (ready calm = true ∧ (calm.sru 0).rx = .waitIdle)
      ∧ (let s := lineIn .running (some .pWindow) calm
         ready s = true ∧ (s.sru 0).rx = .idle ∧ goodFrame (([true] : List Bool).take 168) 1 = none) := by
  decide +kernel

/-- The expected good frame of `goodBits`. -/
def goodOne : Frame :=
  { seq := 1, samples := Vector.replicate 6 1, overrange := Vector.replicate 6 false }

theorem test_frame_bits_form_good_frame : goodFrame (goodBits.take 168) goodBits.length = some goodOne := by
  decide +kernel

/-- The bits of a frame with these bytes, each from its most significant bit. -/
def bitsOfBytes (l : List Byte) : List Bool := l.flatMap fun b => (List.range 8).map fun i => b.getMsbD i

/-- A frame of 21 bytes with this sequence byte, marks and check byte: samples −8,388,608, 8,388,607 and 0. -/
def extremeFrame (seq marks check : Byte) : List Byte :=
  [seq, 0x80, 0, 0, 0x7F, 0xFF, 0xFF, 0, 0, 0, 0x80, 0, 0, 0x7F, 0xFF, 0xFF, 0, 0, 0, marks, check]

/-- The content of an extreme frame of sequence 15 with every mark set. -/
def extreme : Frame :=
  { seq := 15, samples := #v[-8388608, 8388607, 0, -8388608, 8388607, 0], overrange := Vector.replicate 6 true }

/-- Bits that are a good frame, with their content: the frame of ones, twenty zero bytes, whose check byte is 0 (R30), and
an extreme frame, whose marks 6 and 7 are ignored (R31). -/
theorem test_meets_FrameArrivalIsJudged_good_frame :
    isGoodFrame goodBits goodOne
      ∧ isGoodFrame (List.replicate 168 false) ⟨0, Vector.replicate 6 0, Vector.replicate 6 false⟩
      ∧ each [0x3F, 0xFF] (fun m : Byte =>
          let body := extremeFrame 15 m 0
          isGoodFrame (bitsOfBytes (extremeFrame 15 m (crc8 ((bitsOfBytes body).take 160)))) extreme) :=
  ⟨(goodFrame_iff (by decide +kernel) _).mp (by decide +kernel),
    (goodFrame_iff (by decide +kernel) _).mp (by decide +kernel),
    (goodFrame_iff (by decide +kernel) _).mp (by decide +kernel),
    (goodFrame_iff (by decide +kernel) _).mp (by decide +kernel), trivial⟩

/-- Bits that are none: one bit missing, one too many, the sequence 16, a wrong check byte. -/
theorem test_bits_of_no_good_frame :
    goodFrame (goodBits.take 167) 167 = none ∧ goodFrame goodBits 169 = none
      ∧ (let body := extremeFrame 16 0 0
         goodFrame (bitsOfBytes (extremeFrame 16 0 (crc8 ((bitsOfBytes body).take 160)))) 168 = none)
      ∧ goodFrame (goodBits.take 167 ++ [!(goodBits.getD 167 false)]) 168 = none := by decide +kernel

/-- The CRC-8 with generator x⁸+x²+x+1 and initial register 0 of the nine bytes "123456789" is 0xF4, its published check
value; the same computation over a whole good frame leaves 0 (R30). -/
theorem test_crc_check_value :
    remainderOf (bitsOfBytes [0x31, 0x32, 0x33, 0x34, 0x35, 0x36, 0x37, 0x38, 0x39]) = 0xF4
      ∧ remainderOf goodBits = 0 := by decide +kernel

/-- Line 0 in an open window, n bits of the good frame received. -/
def receivingFirst (n : Nat) : State :=
  (lineIn .running (some .pWindow) calm).modSru 0 fun u => { u with
    rx := .receiving, rxBits := goodBits.take n, rxCount := n }

theorem test_meets_FrameArrivalIsJudged_good :
    (let s := lineIn .running (some .pWindow) calm
     ready s = true ∧ (s.sru 0).rx = .idle ∧ accumulates s 0
      ∧ (s.sru 0).params = some (cycleParams defaultLine defaultCal 0 4040))
      ∧ (let s := lineIn .stopping (some .nWindow) calm
         ready s = true ∧ (s.sru 0).rx = .idle ∧ accumulates s 0
          ∧ (s.sru 0).params = some (cycleParams defaultLine defaultCal 0 4040))
      ∧ (let s := lineIn .running (some .midGap) calm
         ready s = true ∧ (s.sru 0).rx = .idle ∧ ¬accumulates s 0)
      ∧ (let s := receivingFirst 100
         ready s = true ∧ (s.sru 0).rx = .receiving ∧ accumulates s 0
          ∧ goodFrame (frameBits (s.sru 0) (goodBits.drop 100)).1 (frameBits (s.sru 0) (goodBits.drop 100)).2
              = some goodOne) := by
  unfold accumulates openWindow; decide +kernel

theorem test_frame_ends_on_bits_received_before :
    gives (exec (.frameArrival 0 (goodBits.drop 100)) (receivingFirst 100)) (fun t =>
      (t.sru 0).expect == some 1 && (t.sru 0).accP.bands[0].seen == 1 && (t.sru 0).rxBits == []) = true := by
  decide +kernel

/-- The last good frame of line 0 had this sequence. -/
def afterFrame (e : BitVec 4) : State :=
  (lineIn .running (some .midGap) calm).modSru 0 fun u => { u with expect := some e }

theorem test_meets_gapsCounted :
    ((lineIn .running (some .midGap) calm).sru 0).expect = none
      ∧ ((afterFrame 0).sru 0).expect = some 0 ∧ goodOne.seq = 0 + 1 ∧ goodOne.seq ≠ 1 + 1 := by decide +kernel

theorem test_frame_gap_is_counted :
    gives (exec (.frameArrival 0 goodBits) (afterFrame 0)) (fun t => (t.sru 0).frameGaps == 0) = true
      ∧ gives (exec (.frameArrival 0 goodBits) (afterFrame 1)) (fun t => (t.sru 0).frameGaps == 15
          && t.nu.backlog.any (fun b => b.entry.kind == .frameGap && b.entry.detail == 15)) = true := by decide +kernel

/-- Accumulators of every band that have accepted n samples of sum m. -/
def accepted (n : Nat) (m : Int) (s : State) : State :=
  s.modSru 0 fun u => { u with
    accP := { u.accP with bands := Vector.replicate 6 { seen := n, accepted := n, rejected := 0, sum := m } } }

theorem test_frame_judges_by_accepted_count :
    gives (exec (.frameArrival 0 goodBits) (accepted 7 0 (lineIn .running (some .pWindow) calm)))
      (fun t => (t.sru 0).accP.bands[0] == { seen := 8, accepted := 8, rejected := 0, sum := 1 }) = true
    ∧ gives (exec (.frameArrival 0 goodBits) (accepted 8 160008 (lineIn .running (some .pWindow) calm)))
      (fun t => (t.sru 0).accP.bands[5] == { seen := 9, accepted := 9, rejected := 0, sum := 160009 }) = true
    ∧ gives (exec (.frameArrival 0 goodBits) (accepted 8 160009 (lineIn .running (some .pWindow) calm)))
      (fun t => (t.sru 0).accP.bands[5] == { seen := 9, accepted := 8, rejected := 1, sum := 160009 }) = true := by
  decide +kernel

theorem test_meets_SilenceAndLinkEvents :
    (let s := (lineIn .running (some .midGap) calm).modSru 0 fun u => { u with silence := some 200 }
     ready s = true ∧ (s.sru 0).silence.isSome = true ∧ (s.sru 0).episode = false)
      ∧ (ready calm = true ∧ (calm.sru 0).rx = .waitIdle) := by
  decide +kernel

theorem test_meets_WindowExpiryActs :
    let s := watching 0 1 (some 1)
    ready s = true ∧ (s.window 0).timer.isSome = true ∧ lalmLaw s ∧ (s.windowDef 0).enable = true
      ∧ (s.windowDef 0).unattendedAction = true ∧ s.wu.attendance = .attended := by
  unfold lalmLaw alarmed; decide +kernel

/-! ## Hypotheses: host accesses -/

theorem test_meets_SuppressedWriteCompletes :
    (ready calm = true ∧ calm.mp.request = none ∧ calm.mp.inReset = false ∧ suppressed calm 0x000104 ∧ ownedHit calm 0x000104 9)
      ∧ (let s := watching 1 0 none
         ready s = true ∧ s.mp.request = none ∧ s.mp.inReset = false ∧ suppressed s 0x123454
          ∧ guardedBy s 0x123454 0 ∧ ∀ c, ¬ownedHit s 0x123454 c)
      ∧ (let s := calm.modCu fun c => { c with frozen := true }
         ready s = true ∧ s.mp.request = none ∧ s.mp.inReset = false ∧ suppressed s 0x000800 ∧ ownedHit s 0x000800 13) := by
  simp only [← suppresses_iff, ← ownedCause_iff, ← guards_iff]
  refine ⟨by decide +kernel, ⟨rfl, rfl, rfl, by decide +kernel, by decide +kernel, fun c h => ?_⟩, by decide +kernel⟩
  rw [show (watching 1 0 none).ownedCause 0x123454 = none by decide +kernel] at h
  cases h

/-- The classes of Table 7-1 at their first and last offsets, as an armed ring P0 of 8 records at 0x2000 and a notice
ring of 16 at 0x3000 have them; the offset beside each is not of the class. -/
theorem test_owned_offsets :
    let s := ringAt 4 0x3000 16 0 0 (ringAt 0 0x2000 8 0 0 calm)
    (∀ x ∈ [(0x0000, 8), (0x00FF, 8), (0x0104, 9), (0x0107, 9), (0x0C00, 10), (0x0C43, 10), (0x1000, 11), (0x17FF, 11),
        (0x2000, 12), (0x217F, 12), (0x3000, 12), (0x30FF, 12)], s.ownedCause (BitVec.ofNat 24 x.1) = some x.2)
      ∧ ∀ x ∈ [0x0100, 0x0103, 0x0108, 0x01FF, 0x0BFF, 0x0C04, 0x0C0F, 0x0C44, 0x0C50, 0x0FFF, 0x1800, 0x1FFF, 0x2180,
        0x2FFF, 0x3100, 0xFFFF], s.ownedCause (BitVec.ofNat 24 x) = none := by decide +kernel

theorem test_meets_inRegionOf :
    let s := ringAt 4 0x3000 16 0 0 (ringAt 0 0x2000 8 0 0 calm)
    inRegionOf s 0 0x2000 ∧ inRegionOf s 0 0x217F ∧ ¬inRegionOf s 0 0x2180 ∧ inRegionOf s 4 0x30FF
      ∧ ¬inRegionOf s 4 0x3100 ∧ ¬inRegionOf s 1 0x2000 := by unfold inRegionOf; decide +kernel

/-- Windows 0 and 1 both guard the whole address space. -/
def twoGuards : State :=
  let b := edited (watchedWindows 1 0) [(0x24, 24), (0x25, 1), (0x26, 1), (0x27, 1), (0x28, 1)]
  (calm.modCu fun c => { c with liveWindows := b }).modWu fun u =>
    { u with windows := u.windows.map fun x => { x with state := .watching } }

theorem test_meets_SuppressedWriteCompletes_guards :
    (guardedBy twoGuards 0x123454 0 ∧ guardedBy twoGuards 0x123454 1 ∧ ∀ v : WindowId, 1 < v → ¬guardedBy twoGuards 0x123454 v)
      ∧ (ownedHit calm 0x000104 9 ∧ ∀ v : WindowId, ¬guardedBy calm 0x000104 v) := by
  simp only [← ownedCause_iff, ← guards_iff]; decide +kernel

/-- Windows 0 and 1 EXPIRED with action UNATTENDED and matching, and the part UNATTENDED by them. -/
def unattended (s : State) : State :=
  let b := edited (watchedWindows 0 1) [(0x24, 24), (0x25, 1), (0x26, 1), (0x27, 1), (0x29, 1), (0x2A, 5)]
  ((((s.modCu fun c => { c with liveWindows := b }).modWindow 0 fun x => { x with state := .expired }).modWindow 1
    fun x => { x with state := .expired }).modWu fun u => { u with attendance := .unattended }).reportAttendanceAll

/-- Written to an owned word, or read, the windows are WATCHING again and ATTENDED names the lower. -/
theorem test_meets_SuppressedWriteCompletes_windows :
    (let s := unattended calm
     ready s = true ∧ s.mp.request = none ∧ s.mp.inReset = false ∧ suppressed s 0x000104 ∧ matchedBy s 0x000104 true 0
      ∧ ¬matchedBy s 0x000104 true 2 ∧ s.wu.attendance = .unattended ∧ holdsPart s 0
      ∧ ∀ v : WindowId, v < 0 → ¬holdsPart s v)
      ∧ ∀ c ∈ [Instr.hostRequestTaken 0x000104 true 0xF#4 0, .hostRequestTaken 0x000400 false 0xF#4 0],
        gives (exec c (unattended calm)) (fun t => t.wu.attendance == .attended && (t.window 1).state == .watching
          && (t.window 1).timer == some 5 && (t.window 1).active && (t.window 1).matched && (t.gzu 3).attCopy == .attended
          && t.nu.backlog.any fun b => b.entry.kind == .attended && b.entry.detail == 0) = true := by
  simp only [← suppresses_iff, ← matchesWindow_iff]
  unfold holdsPart
  decide +kernel

/-- A page of line 0 in flight. -/
def pageFlying : State :=
  flying (.page 0 [(0x1000, 0), (0x1004, 0)] 0) .pageWord calm

/-- A refresh of a fresh word is asked for by a read. -/
def refreshDue (w : FreshWord) : State :=
  let r : Request := { access := ⟨0, false, 0xF#4, 0⟩, target := .none, fresh := some w, stage := .refreshing,
                       refreshed := none }
  (calm.modDe fun d => { d with fresh := [w] }).setRequest (some r)

theorem test_meets_HostRequestTakesItsPath :
    (ready calm = true ∧ calm.mp.request = none ∧ calm.mp.inReset = false ∧ ¬suppressed calm 0x000400)
      ∧ (freshAt calm 0x000000 .milliseconds ∧ freshAt calm 0x000007 .activity ∧ (∀ f, ¬freshAt calm 0x000008 f)
        ∧ (refreshDue .activity).mp.inReset = false ∧ .activity ∈ (refreshDue .activity).de.fresh
        ∧ .milliseconds ∉ (refreshDue .activity).de.fresh)
      ∧ (pageFlying.mp.request = none ∧ pageFlying.mp.port ≠ .free ∧ (∀ f, ¬freshAt pageFlying 0x001000 f)
        ∧ covered pageFlying 0x001000 ∧ covered pageFlying 0x0011FF ∧ ¬covered pageFlying 0x001200)
      ∧ (let s := watching 0 0 none
         matchedBy s 0x123450 false 0 ∧ ¬matchedBy s 0x123450 false 1
          ∧ (s.windowDef 0).timeoutMs = 5) := by
  have h : ∀ s a, s.freshOf a = none → ∀ f, ¬freshAt s a f := fun s a h f x => by rw [freshOf_iff.mpr x] at h; cases h
  simp only [← suppresses_iff, ← holdTest_iff]
  refine ⟨by decide +kernel, ⟨?_, ?_, h _ _ (by decide +kernel), by decide +kernel⟩,
    ⟨by decide +kernel, by decide +kernel, h _ _ (by decide +kernel), by decide +kernel⟩, by simp only [← matchesWindow_iff]; decide +kernel⟩
  · exact freshOf_iff.mp (by decide +kernel)
  · exact freshOf_iff.mp (by decide +kernel)

/-- Capture targets at the bounds of the captured sections, the command slot and the Rd words. -/
theorem test_meets_capturedAs :
    (∀ x ∈ ([(0x0200, .captured .delivery), (0x02FF, .captured .delivery), (0x0300, .captured .windows),
        (0x0400, .captured (.line 0)), (0x07FF, .captured (.line 3)), (0x0800, .captured (.cal 0)),
        (0x0BFF, .captured (.cal 3)), (0x0100, .commandSlot), (0x0103, .commandSlot), (0x0C04, .readIndex 0),
        (0x0C47, .readIndex 4)] : List (Nat × CaptureTarget)), capturedAs calm (BitVec.ofNat 24 x.1) x.2)
      ∧ ∀ a ∈ [0x01FF, 0x0104, 0x0C08, 0x0C48, 0x2000], ∀ x, ¬capturedAs calm (BitVec.ofNat 24 a) x := by
  constructor
  · intro x hx
    refine (targetOf_iff ?_).mp ?_ <;> revert x <;> decide +kernel
  · have e : ∀ a ∈ [0x01FF, 0x0104, 0x0C08, 0x0C48, 0x2000], calm.targetOf (BitVec.ofNat 24 a) = .none := by decide +kernel
    intro a ha x hx
    have hn : x ≠ .none := by
      rintro rfl
      obtain ⟨_, _, ⟨_, h, _⟩ | ⟨h, _⟩ | ⟨_, h, _⟩⟩ := hx <;> cases h
    have h := (targetOf_iff hn).mpr hx
    rw [e a ha] at h
    exact hn h.symm

/-- The page of line 0 in flight with its word still to be granted, the passed-over count given: only a state that no
run reaches leaves a FREE port so. -/
def wordDue (passed : Nat) : State :=
  { pageFlying with mp := { pageFlying.mp with port := .free, passed := passed } }

/-- A dirty page to begin, the FREE port standing for the next request or not, and the passed-over count given. -/
def pageDueAfter (awaited : Bool) (passed : Nat) : State :=
  { calm.markLine 1 with mp := { calm.mp with passed := passed }, awaited := awaited }

theorem test_meets_HostRequestTakesItsPath_claimedFirst :
    (each [pageDueAfter false 7, wordDue 7] fun s => s.mp.port = .free ∧ s.awaited = false ∧ s.de.arming = none
        ∧ s.deNext ≠ none)
      ∧ (pageDueAfter true 7).awaited = true ∧ (arming calm).de.arming ≠ none ∧ (arming calm).de.flight = none
      ∧ calm.deNext = none ∧ pageFlying.mp.port ≠ .free := by simp only [each]; decide +kernel

theorem test_meets_HostRequestTakesItsPath_settled :
    (calm.mp.port = .free ∧ calm.deNext = none ∧ attendanceLaw calm ∧ calm.wu.attendance = .attended)
      ∧ ((arming calm).mp.port = .free ∧ (arming calm).armingDue = true)
      ∧ (each [pageDueAfter true 7, pageDueAfter true 8] fun s => s.mp.port = .free ∧ s.armingDue = false
          ∧ s.deNext = some (.page 1) ∧ s.awaited = true)
      ∧ patience calm.liveDelivery = 8 := by
  unfold attendanceLaw holdsPart; simp only [each]; decide +kernel

/-- Section 6.11 of spec/06: the request presented with the end of the access before it passes the DE while the count is
below the patience, and one that comes later finds the DE's page begun. -/
theorem test_hostRequest_contests_only_at_end_of_access :
    gives (exec (.hostRequestTaken 0x000400 false 0xF 0) (pageDueAfter true 7)) (fun t =>
      t.mp.passed == 8 && t.mp.request.map (·.stage) == some .onPort && t.de.flight.isNone) = true
      ∧ (each [pageDueAfter false 7, pageDueAfter true 8] fun s =>
          gives (exec (.hostRequestTaken 0x000400 false 0xF 0) s) (fun t => t.mp.passed == 0 && t.de.flight.isSome
            && t.mp.port != .free && t.mp.request.map (·.stage) == some .waiting) = true) := by
  simp only [each]; decide +kernel

/-- A request for a word of the page that the DE has just begun is held. -/
theorem test_hostRequest_held_by_page_begun_first :
    gives (exec (.hostRequestTaken 0x001200 false 0xF 0) (pageDueAfter false 0)) (fun t =>
      t.mp.request.map (·.stage) == some .held) = true := by decide +kernel

theorem test_hostRequest_held_while_page_is_written :
    gives (exec (.hostRequestTaken 0x001000 false 0xF 0) pageFlying)
      (fun t => t.mp.request.map (·.stage) == some .held) = true := by decide +kernel

theorem test_meets_HostCompletionPassesUpstream :
    (let s := onPort 0x1000 false 0xF#4 0 .none none none calm
     ∃ a r, ready s = true ∧ s.mp.port = .host true a ∧ s.mp.request = some r ∧ r.stage = .onPort
      ∧ r.access.write = false ∧ r.refreshed = none)
      ∧ (let s := onPort 0x400 true 0xF#4 0 (.captured (.line 0)) none none calm
         ∃ a r, ready s = true ∧ s.mp.port = .host true a ∧ s.mp.request = some r ∧ r.stage = .onPort ∧ r.target ≠ .none)
      ∧ (let s := onPort 0x1F00 true 0xF#4 0 .none none none calm
         ∃ a r, ready s = true ∧ s.mp.port = .host true a ∧ s.mp.request = some r ∧ r.stage = .onPort
          ∧ r.access.write = true ∧ r.target = .none)
      ∧ (let s : State := { calm with mp := { calm.mp with port := .host false ⟨0, false, 0xF#4, 0⟩ } }
         ∃ a, ready s = true ∧ s.mp.port = .host false a) :=
  ⟨⟨_, _, rfl, rfl, rfl, rfl, rfl, rfl⟩, ⟨_, _, rfl, rfl, rfl, rfl, by decide⟩, ⟨_, _, rfl, rfl, rfl, rfl, rfl, rfl⟩,
    ⟨_, rfl, rfl⟩⟩

theorem test_meets_HostCompletionPassesUpstream_partial_rd :
    let s := onPort 0xC44 true 0x3#4 5 (.readIndex 4) none none calm
    ∃ a r, ready s = true ∧ s.mp.port = .host true a ∧ s.mp.request = some r ∧ r.stage = .onPort ∧ r.access.write = true
      ∧ r.target = .readIndex 4 ∧ r.access.be ≠ 0xF#4 := ⟨_, _, rfl, rfl, rfl, rfl, rfl, rfl, by decide⟩

/-- The accesses that a block takes at their completion, which has a row of its own. -/
theorem test_meets_HostCompletionPassesUpstream_rows :
    (each [0x200, 0x3FC, 0xBFC] fun off =>
      let s := onPort off true 0x5#4 7 (.captured .delivery) none none calm
      (s.mp.request.map fun r => s.areaOffset r.access.addr) = some (some off)
        ∧ s.writeOnPort (.captured .delivery) 0x5#4 7 = true)
      ∧ (onPort 0xC44 true 0xF#4 5 (.readIndex 4) none none calm).writeOnPort (.readIndex 4) 0xF#4 5 = true
      ∧ (onPort 4 false 0xF#4 0 .none (some .activity) none calm).activityOnPort = true
      ∧ (cmd 7 9 0 calm).commandOnPort 7 9 0 = true ∧ (cmd 7 0 255 calm).commandOnPort 7 0 255 = true
      ∧ (onPort 0x100 true 0xE#4 0x907 .commandSlot none none calm).writeOnPort .commandSlot 0xE#4 0x907 = true := by
  simp only [each]; decide +kernel

/-- A read on the port while a page is due, with this command waiting next. -/
def readEnding (next : List Instr) (passed : Nat) : State :=
  { onPort 0x1000 false 0xF#4 0 .none none none (pageDueAfter false passed) with pending := next }

theorem test_meets_handsOn :
    presentsNext (readEnding [.hostRequestTaken 0x400 false 0xF 0] 7) ∧ ¬presentsNext (readEnding [] 7)
      ∧ ¬presentsNext (readEnding [.millisecondAdvance] 7) := by
  refine ⟨⟨_, _, _, _, _, rfl⟩, ?_, ?_⟩ <;> rintro ⟨_, _, _, _, _, h⟩ <;> cases h

/-- The port of an ended access: it stands for the request presented with the completion, else the DE's page begins in
the completion's own action. -/
theorem test_hostCompletion_hands_port_on :
    gives (exec (.hostForwardedCompletion false 5) (readEnding [.hostRequestTaken 0x400 false 0xF 0] 7)) (fun t =>
      t.mp.port == .free && t.awaited && t.de.flight.isNone && t.mp.passed == 7) = true
      ∧ (each [[], [.millisecondAdvance]] fun q =>
          gives (exec (.hostForwardedCompletion false 5) (readEnding q 7)) (fun t =>
            t.mp.port != .free && !t.awaited && t.de.flight.isSome && t.mp.passed == 0) = true) := by
  simp only [each]; decide +kernel

/-- A WAITING read. -/
def waitingRead (s : State) : State :=
  s.setRequest (some { access := ⟨0x400, false, 0xF#4, 0⟩, target := .none, fresh := none, stage := .waiting,
                       refreshed := none })

/-- A discarded host access on the port. -/
def discarding (s : State) : State := { s with mp := { s.mp with port := .host false ⟨0, false, 0xF#4, 0⟩ } }

theorem test_meets_arbitrated :
    ((arming calm).mp.port = .free ∧ (arming calm).de.arming ≠ none ∧ (arming calm).de.flight = none)
      ∧ (each [calm, pageDueAfter false 0, wordDue 0] fun s => s.mp.port = .free ∧ s.de.arming = none
          ∧ s.mp.request = none)
      ∧ (arming (wordDue 0)).de.flight ≠ none
      ∧ calm.deNext = none ∧ (pageDueAfter false 0).deNext = some (.page 1) ∧ (wordDue 0).deNext = some .flightWord
      ∧ (each [calm, pageDueAfter false 7, pageDueAfter false 8, wordDue 8] fun s =>
          let d := waitingRead s
          d.mp.port = .free ∧ d.de.arming = none ∧ d.mp.request.map (·.stage) = some .waiting ∧ d.deNext = s.deNext)
      ∧ patience calm.liveDelivery = 8 := by simp only [each]; decide +kernel

theorem test_discarded_completion_grants_by_table :
    gives (exec (.discardedAccessCompletion false 0) (discarding (waitingRead (pageDueAfter false 7)))) (fun t =>
      t.mp.passed == 8 && t.mp.request.map (·.stage) == some .onPort) = true
      ∧ gives (exec (.discardedAccessCompletion false 0) (discarding (waitingRead (pageDueAfter false 8)))) (fun t =>
          t.mp.passed == 0 && t.de.flight.isSome && t.mp.port != .free) = true := by decide +kernel

/-- What R130 grants at an end: the item is chosen at the grant, so a refresh asked for afterwards does not displace the
page that the grant began. -/
theorem test_grant_begins_its_item :
    gives (exec (.discardedAccessCompletion false 0) (discarding (pageDueAfter false 0))) (fun t =>
      gives (exec (.hostRequestTaken 0x000004 false 0xF 0) t) fun u =>
        u.mp.port == t.mp.port && u.de.flight == t.de.flight && u.de.flight.isSome && u.de.fresh == [.activity]) = true := by
  decide +kernel

/-- Captured sections and the offset of the first and of the last word of each. -/
def captureCases : List (SectionId × Nat) :=
  [(.delivery, 0x200), (.delivery, 0x2FC), (.windows, 0x300), (.windows, 0x3FC), (.line 0, 0x400),
   (.line 3, 0x7FC), (.cal 0, 0x800), (.cal 3, 0xBFC)]

theorem test_meets_CapturedWriteMerges : ∀ x ∈ captureCases,
    let s := onPort x.2 true 0x5#4 0xAABBCCDD#32 (.captured x.1) none none calm
    ready s = true ∧ (s.mp.request.map fun r => s.areaOffset r.access.addr) = some (some x.2) ∧ x.2 % 4 = 0
      ∧ s.writeOnPort (.captured x.1) 0x5#4 0xAABBCCDD#32 = true ∧ sectionOffset x.1 ≤ x.2
      ∧ x.2 < sectionOffset x.1 + 256 := by
  decide +kernel

theorem test_capturedWrite_takes_enabled_bytes :
    gives (exec (.capturedWrite 0x404 0x5#4 0xAABBCCDD#32)
        (onPort 0x404 true 0x5#4 0xAABBCCDD#32 (.captured (.line 0)) none none calm)) (fun t =>
      (stagedOf t (.line 0))[4] == 0xDD && (stagedOf t (.line 0))[5] == defaultLine[5]
        && (stagedOf t (.line 0))[6] == 0xBB && (stagedOf t (.line 0))[7] == defaultLine[7]) = true := by
  decide +kernel

/-- A load of the delivery section in progress, its buffer zero. -/
def loadingDelivery : State :=
  calm.modCu fun c => { c with load := some ⟨9, 0x200, [0x2FC], List.replicate 256 0⟩ }

theorem test_meets_CapturedWriteMerges_load : each [0x200, 0x2FC] fun off =>
    let s := onPort off true 0xF#4 0x11223344#32 (.captured .delivery) none none loadingDelivery
    ready s = true ∧ s.cu.load.isSome = true ∧ s.writeOnPort (.captured .delivery) 0xF#4 0x11223344#32 = true := by
  simp only [each]; decide +kernel

theorem test_capturedWrite_merges_into_load_buffer :
    gives (exec (.capturedWrite 0x2FC 0x5#4 0x11223344#32)
        (onPort 0x2FC true 0x5#4 0x11223344#32 (.captured .delivery) none none loadingDelivery)) (fun t =>
      (t.cu.load.map fun x => x.buffer.drop 252) == some [0x44, 0, 0x22, 0]) = true := by decide +kernel

/-- Ring N armed, W 5, Rd 2, three notices outstanding, an Rd write of this word on the port. -/
def rdWriting (armed : Bool) (data : Word) : State :=
  onPort 0xC44 true 0xF#4 data (.readIndex 4) none none
    (((ringAt 4 0x3000 16 5 2 calm).modRing 4 fun d => { d with armed := armed }).modNu fun n =>
      { n with outstanding := [3, 7, 2] })

theorem test_meets_RdCaptureIsChecked :
    (let s := rdWriting true 5
     ready s = true ∧ s.writeOnPort (.readIndex 4) 0xF#4 5 = true ∧ (s.ring 4).armed = true
      ∧ ((5 : Word).setWidth 16 - (s.ring 4).rd).toNat ≤ ((s.ring 4).w - (s.ring 4).rd).toNat)
      ∧ (let s := rdWriting true 6
         ready s = true ∧ s.writeOnPort (.readIndex 4) 0xF#4 6 = true ∧ (s.ring 4).armed = true
          ∧ ((s.ring 4).w - (s.ring 4).rd).toNat < ((6 : Word).setWidth 16 - (s.ring 4).rd).toNat)
      ∧ (let s := rdWriting false 6
         ready s = true ∧ s.writeOnPort (.readIndex 4) 0xF#4 6 = true ∧ (s.ring 4).armed = false) := by
  decide +kernel

theorem test_rdCapture_consumes_notices :
    gives (exec (.rdCapture 4 4) (rdWriting true 4)) (fun t => (t.ring 4).rd == 4 && t.nu.outstanding == [2]) = true
      ∧ gives (exec (.rdCapture 4 6) (rdWriting true 6)) (fun t => (t.ring 4).rd == 2 && t.nu.outstanding == [3, 7, 2])
        = true := by decide +kernel

/-- A fresh read of the activity summary word on the port, with the value its refresh wrote. -/
def activityReading (v : Option Byte) (matched : Bool) : State :=
  onPort 4 false 0xF#4 0 .none (some .activity) v
    ((watching 0 0 none).modWindow 0 fun x => { x with active := true, matched := matched })

theorem test_meets_ActivityReadClearsFlags :
    (ready (activityReading (some 1) false) = true ∧ (activityReading (some 1) false).activityOnPort = true
        ∧ (activityReading (some 1) false).mp.request.map (·.refreshed) = some (some 1))
      ∧ (ready (activityReading none false) = true ∧ (activityReading none false).activityOnPort = true
        ∧ (activityReading none false).mp.request.map (·.refreshed) = some none) := by
  decide +kernel

theorem test_activityRead_clears_reported_flag :
    gives (exec (.activitySummaryRead 1) (activityReading (some 1) false)) (fun t => !(t.window 0).active) = true
      ∧ gives (exec (.activitySummaryRead 1) (activityReading (some 1) true)) (fun t => (t.window 0).active) = true := by
  decide +kernel

/-! ## Hypotheses: commands of the command slot -/

/-- A command can be taken: `commandReady` as a check. -/
def readyFor (tag code operand : Byte) (s : State) : Bool :=
  ready s && s.commandOnPort tag code operand && s.cu.state == .idle

theorem readyFor_iff (tag code operand : Byte) (s : State) :
    readyFor tag code operand s = true ↔ commandReady s tag code operand := by
  simp only [readyFor, commandReady, Bool.and_eq_true, ready_iff, beq_iff_eq, and_assoc]

theorem test_meets_RefusedCommand_busy :
    (let s := cmd 7 6 0 State.reset
     ready s = true ∧ s.commandOnPort 7 6 0 = true ∧ s.cu.state ≠ .idle)
      ∧ (let s := cmd 7 255 0 (calm.modCu fun c => { c with state := .loading })
         ready s = true ∧ s.commandOnPort 7 255 0 = true ∧ s.cu.state ≠ .idle) := by
  decide +kernel

theorem test_meets_RefusedCommand_unknown : each ([0, 12, 255] : List Byte) fun c =>
    readyFor 7 c 0 (cmd 7 c 0 calm) = true ∧ (c.toNat = 0 ∨ 11 < c.toNat) := by
  simp only [each]; decide +kernel

theorem test_meets_RefusedCommand_range :
    each ([(5, 11), (5, 255), (1, 4), (2, 4), (6, 4), (7, 4), (8, 4), (9, 255), (10, 4)] : List (Byte × Byte)) fun c =>
      readyFor 7 c.1 c.2 (cmd 7 c.1 c.2 calm) = true ∧ operandRefused c.1 c.2 := by
  simp only [each, operandRefused]; and_intros <;> decide +kernel

theorem test_meets_RefusedCommand_frozen :
    each ([(2, 0), (2, 3), (10, 0), (10, 3), (5, 4), (5, 7)] : List (Byte × Byte)) fun c =>
      let s := cmd 7 c.1 c.2 (calm.modCu fun x => { x with frozen := true })
      readyFor 7 c.1 c.2 s = true ∧ s.cu.frozen = true
        ∧ ((c.1.toNat = 2 ∨ c.1.toNat = 10) ∧ c.2.toNat ≤ 3 ∨ c.1.toNat = 5 ∧ 4 ≤ c.2.toNat ∧ c.2.toNat ≤ 7) := by
  simp only [each]; decide +kernel

theorem test_meets_RefusedCommand_partial : each ([0x0, 0x7, 0xE] : List (BitVec 4)) fun be =>
    let s := onPort 0x100 true be 0x00000607#32 .commandSlot none none calm
    ready s = true ∧ be ≠ 0xF#4 ∧ s.writeOnPort .commandSlot be 0x00000607#32 = true := by
  simp only [each]; decide +kernel

theorem test_unknownCommand_is_answered :
    gives (exec (.unknownCommand 7 12 0) (cmd 7 12 0 calm)) (fun t =>
      t.cu.record == { tag := 7, code := 12, result := .refusedUnknown, detail := 12, taken := 1 }) = true
      ∧ gives (exec (.partialCommandWrite 0x2 0x00000607#32)
          (onPort 0x100 true 0x2 0x00000607#32 .commandSlot none none calm)) (fun t =>
        t.cu.record == { tag := 0, code := 6, result := .refusedUnknown, detail := 0x100, taken := 1 }) = true := by
  decide +kernel

theorem test_meets_CommitLineMovesSection :
    (let s := cmd 7 1 0 (withStagedLine [(0, 0), (1, 0)] calm)
     readyFor 7 1 0 s = true ∧ firstFailure (lineTests (s.copies 0).stagedLine) = some 0)
      ∧ (let s := cmd 7 1 0 (withStagedLine [(0x59, 2)] calm)
         readyFor 7 1 0 s = true ∧ firstFailure (lineTests (s.copies 0).stagedLine) = some 0x59)
      ∧ (let s := cmd 7 1 0 calm
         readyFor 7 1 0 s = true ∧ firstFailure (lineTests (s.copies 0).stagedLine) = none
          ∧ (s.ls 0).state.driven = false ∧ (s.ls 0).state = .off)
      ∧ (let s := cmd 7 1 0 (withStagedLine [(0x0A, 2)] (shutDown .clamped))
         readyFor 7 1 0 s = true ∧ firstFailure (lineTests (s.copies 0).stagedLine) = none
          ∧ (s.ls 0).state.driven = false ∧ (s.ls 0).state = .shutdown
          ∧ shutdownStateCode (s.liveLine 0) ≠ shutdownStateCode (s.copies 0).stagedLine)
      ∧ (let s := cmd 7 1 0 (lineIn .running (some .pWindow) calm)
         readyFor 7 1 0 s = true ∧ firstFailure (lineTests (s.copies 0).stagedLine) = none
          ∧ (s.ls 0).state.driven = true) := by decide +kernel

theorem test_meets_CommitLineMovesSection_clamp :
    (let s := cmd 7 1 0 (shutDown .clamped)
     readyFor 7 1 0 s = true ∧ firstFailure (lineTests (s.copies 0).stagedLine) = none ∧ (s.ls 0).state = .shutdown
      ∧ shutdownStateCode (s.liveLine 0) = shutdownStateCode (s.copies 0).stagedLine)
      ∧ (let s := cmd 7 1 0 (withStagedLine [(0x0A, 2)] (shutDown .allOffHold))
         readyFor 7 1 0 s = true ∧ firstFailure (lineTests (s.copies 0).stagedLine) = none
          ∧ (s.ls 0).state = .shutdown ∧ (s.ls 0).stage = .allOffHold) := by decide +kernel

theorem test_meets_CommitCalMovesCalibration :
    (let s := cmd 7 2 0 (withStagedCal [(0x12, 0), (0x13, 0)] calm)
     readyFor 7 2 0 s = true ∧ s.cu.frozen = false ∧ firstFailure (calTests (s.copies 0).stagedCal) = some 0x12)
      ∧ (∀ s ∈ [cmd 7 2 0 calm, cmd 7 2 0 (shutDown .clamped)],
          readyFor 7 2 0 s = true ∧ s.cu.frozen = false ∧ firstFailure (calTests (s.copies 0).stagedCal) = none
            ∧ ((s.ls 0).state = .off ∨ (s.ls 0).state = .shutdown))
      ∧ (let s := cmd 7 2 0 (lineIn .priming (some .leadGap) calm)
         readyFor 7 2 0 s = true ∧ s.cu.frozen = false ∧ firstFailure (calTests (s.copies 0).stagedCal) = none
          ∧ (s.ls 0).state.driven = true) := by decide +kernel

/-- The staged window section. -/
def withStagedWindows (b : Bytes) (s : State) : State := s.modCu fun c => { c with stagedWindows := b }

theorem test_meets_CommitWindowsAppliesSection :
    (let s := cmd 7 3 0 (withStagedWindows (edited defaultWindows [(4, 25)]) calm)
     readyFor 7 3 0 s = true ∧ firstFailure (windowsTests s.cu.stagedWindows) = some 4)
      ∧ (let s := cmd 7 3 0 (withStagedWindows (watchedWindows 0 1) calm)
         readyFor 7 3 0 s = true ∧ firstFailure (windowsTests s.cu.stagedWindows) = none
          ∧ (Machine.windowDef s.cu.stagedWindows 0).enable = true
          ∧ (Machine.windowDef s.cu.stagedWindows 0) ≠ (Machine.windowDef s.cu.liveWindows 0)
          ∧ (Machine.windowDef s.cu.stagedWindows 1).enable = false
          ∧ (Machine.windowDef s.cu.stagedWindows 1) = (Machine.windowDef s.cu.liveWindows 1))
      ∧ (let s := cmd 7 3 0 (withStagedWindows (watchedWindows 0 1) (watching 0 1 none))
         readyFor 7 3 0 s = true ∧ firstFailure (windowsTests s.cu.stagedWindows) = none
          ∧ (Machine.windowDef s.cu.stagedWindows 0).enable = true
          ∧ (Machine.windowDef s.cu.stagedWindows 0) = (Machine.windowDef s.cu.liveWindows 0)) := by
  decide +kernel

/-- A commit that disables the windows that hold the part UNATTENDED. -/
theorem test_meets_CommitWindowsAppliesSection_attended :
    let s := cmd 7 3 0 (unattended calm)
    readyFor 7 3 0 s = true ∧ firstFailure (windowsTests s.cu.stagedWindows) = none ∧ s.wu.attendance = .unattended
      ∧ holdsPart s 0 ∧ (∀ v : WindowId, v < 0 → ¬holdsPart s v) := by
  unfold holdsPart; decide +kernel

/-- The staged delivery section. -/
def withStagedDelivery (b : Bytes) (s : State) : State := s.modCu fun c => { c with stagedDelivery := b }

theorem test_meets_CommitDeliveryHandsOver :
    (let s := cmd 7 4 0 (withStagedDelivery (edited defaultDelivery [(0x51, 65)]) calm)
     readyFor 7 4 0 s = true ∧ firstFailure (deliveryTests s.cu.stagedDelivery) = some 0x51)
      ∧ (let s := cmd 7 4 0 (withStagedDelivery someDelivery calm)
         readyFor 7 4 0 s = true ∧ firstFailure (deliveryTests s.cu.stagedDelivery) = none) := by decide +kernel

theorem test_delivery_regions_may_not_overlap :
    firstFailure (deliveryTests (edited someDelivery [(0x44, 0x10), (0x45, 0x20)])) = some 0x44 := by decide +kernel

theorem test_meets_LoadStartsReading :
    each ([(false, 0), (false, 3), (false, 4), (false, 7), (false, 8), (false, 9), (false, 10), (true, 0), (true, 3),
        (true, 8), (true, 10)] : List (Bool × Byte)) fun x =>
      let b := x.1
      let o := x.2
      let s := cmd 7 5 o (calm.modCu fun c => { c with frozen := b })
      readyFor 7 5 o s = true ∧ o.toNat ≤ 10 ∧ ¬(s.cu.frozen = true ∧ 4 ≤ o.toNat ∧ o.toNat ≤ 7) := by
  simp only [each]; decide +kernel

/-- Line 0 in each line state. -/
def everyState : List State :=
  [calm, lineIn .priming (some .pWindow) calm, lineIn .running (some .pWindow) calm,
   lineIn .stopping (some .pWindow) calm, shutDown .clamped]

theorem test_meets_line_commands : each ([6, 7, 8, 9, 10] : List Byte) fun c =>
    (everyState.map fun s => ((cmd 7 c 0 s).ls 0).state) = [.off, .priming, .running, .stopping, .shutdown]
      ∧ ∀ s ∈ everyState, readyFor 7 c 0 (cmd 7 c 0 s) = true ∧ (0 : Byte).toNat = (0 : LineId).val
          ∧ (cmd 7 c 0 s).cu.frozen = false := by simp only [each]; decide +kernel

theorem test_meets_ClearTotalClearsTotals_frozen :
    let s := cmd 7 10 3 (calm.modCu fun c => { c with frozen := true })
    readyFor 7 10 3 s = true ∧ s.cu.frozen = true := by decide +kernel

theorem test_meets_StartByLineState_quiet :
    quietLine (cmd 7 6 0 calm) 0 ∧ nothingPending (cmd 7 6 0 calm) 0
      ∧ (let s := cmd 7 6 0 (withCoilHi true calm)
         readyFor 7 6 0 s = true ∧ (s.ls 0).state = .off ∧ ¬quietLine s 0) := by
  unfold quietLine nothingPending; decide +kernel

theorem test_coilHi_acts_at_start :
    gives (exec (.start 7 0) (cmd 7 6 0 (withCoilHi true calm))) (fun t => (t.ls 0).state == .shutdown
      && (t.ls 0).recorded == some .coilHi && t.cu.record.result == .accepted) = true := by decide +kernel

/-- Line 0 in SHUTDOWN with these causes present. -/
def causedBy (coilHi trip software : Bool) : State :=
  (shutDown .clamped).modLs 0 fun q => { q with causes := { coilHi := coilHi, trip := trip, software := software } }

theorem test_meets_RestartByLineState_causes :
    (let s := cmd 7 9 0 (causedBy true false false)
     readyFor 7 9 0 s = true ∧ (s.ls 0).state = .shutdown ∧ (s.ls 0).causes.coilHi = true)
      ∧ (let s := cmd 7 9 0 (causedBy false true false)
         readyFor 7 9 0 s = true ∧ (s.ls 0).state = .shutdown ∧ (s.ls 0).causes.trip = true)
      ∧ (let s := cmd 7 9 0 (causedBy false false true)
         readyFor 7 9 0 s = true ∧ (s.ls 0).state = .shutdown ∧ (s.ls 0).causes.coilHi = false
          ∧ (s.ls 0).causes.trip = false ∧ quietLine s 0) := by
  unfold quietLine; decide +kernel

theorem test_start_primes_line :
    gives (exec (.start 7 0) (cmd 7 6 0 calm)) (fun t => (t.ls 0).state == .priming
      && (t.ls 0).phase == some .leadGap && t.cu.record.result == .accepted) = true := by decide +kernel

theorem test_halt_shuts_line_down :
    gives (exec (.halt 7 0) (cmd 7 8 0 (lineIn .running (some .pWindow) calm))) (fun t =>
      (t.ls 0).state == .shutdown && (t.ls 0).recorded == some .software && (t.gzu 0).lalm) = true
      ∧ gives (exec (.halt 7 0) (cmd 7 8 0 calm)) (fun t => t.cu.record.result == .refusedState) = true := by
  decide +kernel

/-- The record of a command replaces the owner of the one before: it names what the command made, or none (R148). -/
theorem test_record_owner_follows_command :
    ∀ x ∈ [(Instr.unknownCommand 7 12 0, (12 : Byte), (0 : Byte), Owner.none), (.stop 7 4, 7, 4, .none),
        (.start 7 0, 6, 0, .none), (.halt 7 0, 8, 0, .none), (.commitLine 7 0, 1, 0, .pendingLine 0),
        (.commitCal 7 0, 2, 0, .pendingCal 0), (.commitLine 7 1, 1, 1, .none), (.commitWindows 7 0, 3, 0, .none),
        (.commitDelivery 7 0, 4, 0, .arming), (.load 7 2, 5, 2, .load), (.freeze 7 0, 11, 0, .none)],
      gives (exec x.1 (cmd 7 x.2.1 x.2.2.1 (withPending (lineIn .running (some .pWindow) calm)))) (fun t =>
        t.cu.owner == x.2.2.2 && t.cu.record.tag == 7 && t.cu.record.code == x.2.1) = true := by decide +kernel

theorem test_meets_FreezeSetsFreeze : ∀ b ∈ [false, true],
    let s := cmd 7 11 0 ((withStagedCal [(0, 1)] calm).modCu fun c => { c with frozen := b })
    readyFor 7 11 0 s = true ∧ s.cu.frozen = b := by decide +kernel

theorem test_meets_FreezeSetsFreeze_pending :
    let s := cmd 7 11 0 (calm.modCopies 0 fun c => { c with pendingCal := some ⟨defaultCal, 1, 1⟩ })
    readyFor 7 11 0 s = true ∧ s.cu.frozen = false ∧ (s.copies 0).pendingCal.isSome = true := by decide +kernel

/-! ## Hypotheses: the Delivery Engine -/

theorem test_meets_ArmingAppliesSection :
    (∀ s ∈ [arming calm, arming (ringAt 0 0x2000 8 3 1 calm), arming (ringAt 0 0x2400 8 3 1 calm),
        arming (ringAt 0 0x2000 16 3 1 calm)],
      awake s ∧ s.de.arming = some { bytes := someDelivery, tag := 9, taken := 2 } ∧ s.de.flight = none)
      ∧ ringEnable someDelivery 0 = true ∧ ringBase someDelivery 0 = 0x2000 ∧ ringCapacity someDelivery 0 = 8
      ∧ ringEnable someDelivery 1 = false ∧ ringEnable defaultDelivery 4 = false := by
  unfold awake; decide +kernel

theorem test_arming_keeps_or_resets_ring :
    gives (exec .armingTakesEffect (arming calm)) (fun t => (t.ring 0).resetOut && (t.ring 0).w == 0) = true
      ∧ gives (exec .armingTakesEffect (arming (ringAt 0 0x2000 8 3 1 calm))) (fun t =>
          !(t.ring 0).resetOut && (t.ring 0).w == 3 && (t.ring 0).batch == 0) = true
      ∧ gives (exec .armingTakesEffect (arming (ringAt 0 0x2000 16 3 1 calm))) (fun t =>
          (t.ring 0).resetOut && (t.ring 0).w == 0 && (t.ring 0).capacity == 8) = true := by decide +kernel

/-- A WAITING write of a word, its target as it was taken. -/
def waitingWrite (off : Nat) (s : State) : State :=
  let a : Access := { addr := s.areaAddr off, write := true, be := 0xF#4, data := 0 }
  s.setRequest (some { access := a, target := .none, fresh := none, stage := .waiting, refreshed := none })

/-- An entry of the backlog, not in flight. -/
def waitingEntry (e : Entry) : BacklogEntry := { entry := e, inFlight := false, late := none }

/-- A ring armed with its index reset outstanding. -/
def resettingAt (r : RingId) : State := (ringAt r 0x4000 8 0 0 calm).modRing r fun d => { d with resetOut := true }

/-- A read in hand of a word, in a stage. -/
def readAt (addr : Addr) (fresh : Option FreshWord) (stage : RequestStage) (s : State) : State :=
  s.setRequest (some { access := ⟨addr, false, 0xF#4, 0⟩, target := .none, fresh := fresh, stage := stage,
                       refreshed := none })

/-- The section that keeps the notice ring of `noticing`, and one that disables it. -/
def keepsNotices : Bytes := edited someDelivery [(0x46, 16)]

theorem test_meets_ArmingAppliesSection_notices :
    (let s := arming (noticing false)
     ringKept s someDelivery noticeRing ∧ ringEnable someDelivery 4 = true ∧ s.nu.offer.isSome = true
      ∧ kindLevel someDelivery Kind.configApplied.code ≠ 0)
      ∧ (¬ringKept (arming (ringAt 4 0x3000 32 0 0 calm)) someDelivery noticeRing)
      ∧ ¬ringKept (arming calm) someDelivery noticeRing
      ∧ ringEnable (edited someDelivery [(0x40, 0)]) 4 = false := by unfold ringKept; decide +kernel

/-- The arming request of `arming` with the notice ring disabled. -/
def disarming (s : State) : State :=
  s.modDe fun d => { d with arming := some { bytes := edited someDelivery [(0x40, 0)], tag := 9, taken := 2 } }

/-- An arming request that releases every region. -/
def releasing (s : State) : State :=
  s.modDe fun d => { d with arming := some { bytes := defaultDelivery, tag := 9, taken := 2 } }

/-- An arming that resets ring N empties the outstanding list and keeps the offer; one that disables it returns the
offer to the backlog, here beside an entry of its pair and as the pair of the CONFIG_APPLIED that the arming raises. -/
theorem test_arming_outstanding_and_offer :
    (gives (exec .armingTakesEffect (arming ((ringAt 4 0x3000 32 5 2 (noticing false)).modNu fun n =>
        { n with outstanding := [3, 7, 2] }))) (fun t => t.nu.outstanding == [] && t.nu.offer.isSome
          && t.nu.backlog.any (fun b => b.entry.kind == .configApplied && b.entry.source == .part
            && b.entry.detail == 9)) = true)
      ∧ (gives (exec .armingTakesEffect (arming ((ringAt 4 0x3000 16 5 2 (noticing false)).modNu fun n =>
        { n with outstanding := [3, 7, 2] }))) (fun t => t.nu.outstanding == [3, 7, 2]) = true)
      ∧ (gives (exec .armingTakesEffect (disarming ((noticing false).modNu fun n =>
          { n with backlog := [waitingEntry { someEntry with count := 255, first := 1 }] }))) (fun t =>
          t.nu.offer.isNone && t.nu.outstanding == [] && t.nu.backlog.any (fun b =>
            b.entry.kind == .busReset && b.entry.count == 255 && b.entry.first == 0)) = true)
      ∧ (gives (exec .armingTakesEffect (disarming ((noticing false).modNu fun n =>
          { n with offer := some { entry := { someEntry with kind := .configApplied }, inFlight := false } })))
          (fun t => t.nu.offer.isNone && (t.nu.backlog.map fun b => (b.entry.kind, b.entry.count, b.entry.detail))
            == [(.configApplied, 2, 9)]) = true) := by decide +kernel

/-- Reads in hand when an arming takes effect: WAITING for the W word of a ring that is then reset, HELD for the W word
of a ring that is then kept or of one that is disabled, and fresh. -/
theorem test_arming_retests_reads :
    (gives (exec .armingTakesEffect (readAt 0x000C00 none .waiting (arming calm))) (fun t =>
        t.mp.request.map (·.stage) == some .held && t.mp.port != .free) = true)
      ∧ (gives (exec .armingTakesEffect (readAt 0x000C10 none .held (arming (resettingAt 1)))) (fun t =>
        t.mp.passed == 1 && t.mp.request.map (·.stage) == some .onPort) = true)
      ∧ (gives (exec .armingTakesEffect (readAt 0x000000 (some .milliseconds) .refreshing (arming calm))) (fun t =>
        t.mp.request.map (·.stage) == some .refreshing) = true) := by decide +kernel

theorem test_meets_ArmingAppliesSection_overtaken :
    (let s := arming (dePort (.indexReset 0 false) (ringAt 0 0x2000 8 3 1 calm))
     awake s ∧ s.de.flight = none ∧ (∃ a, s.mp.port = .de (.indexReset 0 false) a) ∧ ringKept s someDelivery 0)
      ∧ (let s := arming (dePort (.indexReset 1 false) (resettingAt 1))
         awake s ∧ s.de.flight = none ∧ (∃ a, s.mp.port = .de (.indexReset 1 false) a) ∧ ¬ringKept s someDelivery 1)
      ∧ (arming calm).mp.port = .free
      ∧ gives (exec .armingTakesEffect (arming (dePort (.indexReset 1 false) (resettingAt 1)))) (fun t =>
          match t.mp.port with | .de (.indexReset 1 o) _ => o | _ => false) = true :=
  ⟨⟨rfl, rfl, ⟨_, rfl⟩, by unfold ringKept; decide +kernel⟩, ⟨rfl, rfl, ⟨_, rfl⟩, by unfold ringKept; decide +kernel⟩, rfl,
    by decide +kernel⟩

theorem test_arming_makes_region_owned :
    gives (exec .armingTakesEffect (waitingWrite 0x1F00 (arming calm))) (fun t =>
      t.suppresses 0x002000 && !t.suppresses 0x001F00 && t.mp.request.isSome) = true
      ∧ (let s := (waitingWrite 0x2000 (ringAt 0 0x2000 8 0 0 calm)).rewriteOwned
         s.mp.request = none ∧ s.mp.completion = some { err := false, data := none } ∧ s.wu.ownedHits[4] = 1) := by
  decide +kernel

/-- A WAITING write to the region of ring P0 that the arming makes owned, and one beside it. -/
theorem test_meets_ArmingAppliesSection_suppressed :
    (let s := waitingWrite 0x2000 (arming calm)
     awake s ∧ s.de.arming.isSome = true ∧ s.de.flight = none
      ∧ s.mp.request.map (fun r => (r.stage, r.access.write)) = some (.waiting, true)
      ∧ s.suppresses 0x002000 = false ∧ (s.modDe fun d => d.arm someDelivery).suppresses 0x002000 = true)
      ∧ (let s := waitingWrite 0x1FFC (arming calm)
         awake s ∧ s.mp.request.map (·.stage) = some .waiting
          ∧ (s.modDe fun d => d.arm someDelivery).suppresses 0x001FFC = false) := by
  unfold awake; decide +kernel

/-- Ring P0 with its index reset outstanding. -/
def resetting : State := (ringAt 0 0x2000 8 0 0 calm).modRing 0 fun d => { d with resetOut := true }

/-- A FREE port with no arming and no request is the engine's. -/
theorem portFree {s : State} (h : s.mp.port = .free) (h1 : s.de.arming = none) (h2 : s.mp.request = none) :
    enginePort s := ⟨h, .inl h1, fun r hr _ => by rw [h2] at hr; cases hr⟩

theorem test_meets_IndexResetWritesZero :
    (awake resetting ∧ enginePort resetting ∧ resetting.deNext = some (.indexReset 0))
      ∧ (∀ b ∈ [false, true], ∃ a, ready (dePort (.indexReset 0 b) resetting) = true
        ∧ (dePort (.indexReset 0 b) resetting).mp.port = .de (.indexReset 0 b) a) := by
  refine ⟨⟨rfl, portFree rfl rfl rfl, by decide +kernel⟩, ?_⟩
  intro b _
  exact ⟨_, rfl, rfl⟩

/-- The index reset of ring N ends with ERR while an offer stands: the offer is back in the backlog. -/
theorem test_indexReset_of_ring_N_fails :
    let s := dePort (.indexReset 4 false) ((noticing false).modRing 4 fun d => { d with resetOut := true })
    (s.nu.offer.map fun o => o.inFlight) = some false
      ∧ gives (exec (.indexResetWriteComplete true) s) (fun t => t.nu.offer.isNone && (t.ring 4).faulted
        && !(t.ring 4).resetOut && (t.nu.backlog.map (·.entry)) == [someEntry] && t.nu.attn) = true := by decide +kernel

theorem test_meets_IndexResetWritesZero_order :
    let s := resetting.modRing 3 fun d => { d with resetOut := true }
    engineChooses s ∧ (s.ring 0).resetOut = true ∧ (s.ring 3).resetOut = true
      ∧ ∀ q : RingId, q < 0 → (s.ring q).resetOut = false := by unfold engineChooses; decide +kernel

/-- A FREE port is the engine's at the patience, below it it is not. -/
theorem test_meets_enginePort :
    enginePort (waitingRead (pageDueAfter false 8)) ∧ ¬enginePort (waitingRead (pageDueAfter false 7)) := by
  refine ⟨⟨rfl, .inl rfl, fun r h _ => ?_⟩, ?_⟩
  · decide +kernel
  · rintro ⟨-, -, h⟩
    exact absurd (h _ rfl rfl) (by decide +kernel)

theorem test_meets_RecordIsWritten :
    (awake (delivering [someProfile]) ∧ enginePort (delivering [someProfile])
        ∧ (delivering [someProfile]).deNext = some (.profile 0 someProfile))
      ∧ (awake (noticing false) ∧ enginePort (noticing false)
        ∧ (noticing false).deNext = some (.notice someEntry))
      ∧ (∀ d ∈ [0, 2], let s := flying (.record 0 0x2000 threeWords d) .recordWord (delivering [someProfile])
          awake s ∧ (∃ a, s.mp.port = .de .recordWord a) ∧ s.de.flight = some (.record 0 0x2000 threeWords d)
            ∧ s.mp.request = none ∧ s.de.fresh = []) := by
  refine ⟨⟨rfl, portFree rfl rfl rfl, by decide +kernel⟩, ⟨rfl, portFree rfl rfl rfl, by decide +kernel⟩, ?_⟩
  intro d _
  exact ⟨rfl, ⟨_, rfl⟩, rfl, rfl, rfl⟩

/-- The backlog holds two entries of one level; the one of the lower kind code drains first. -/
def twoEntries : State :=
  (ringAt 4 0x3000 16 0 0 calm).modNu fun n => { n with
    backlog := [waitingEntry someEntry, waitingEntry { someEntry with kind := .batch }] }

theorem test_meets_RecordIsWritten_notice_order :
    (mayBegin (noticing false) ∧ (noticing false).de.arming = none ∧ takesRecord ((noticing false).ring noticeRing)
        ∧ (noticing false).nu.offer.isSome = true)
      ∧ (mayBegin twoEntries ∧ twoEntries.de.arming = none ∧ takesRecord (twoEntries.ring noticeRing)
        ∧ twoEntries.nu.offer = none
        ∧ ∀ c ∈ twoEntries.nu.backlog, c.inFlight = false →
            c = waitingEntry { someEntry with kind := .batch } ∨ drainsBefore { someEntry with kind := .batch } c.entry) := by
  unfold mayBegin noStatusDue noResetDue engineChooses takesRecord drainsBefore
  refine ⟨⟨⟨by decide +kernel, fun x h => by cases h⟩, by decide +kernel⟩,
    ⟨⟨by decide +kernel, fun x h => by cases h⟩, by decide +kernel⟩⟩

/-- Lines 0, 2 and 3 have a record; line 2 and line 3 have the highest priority. -/
def threeRecords : State :=
  let s := ringAt 3 0x5000 8 0 0 (ringAt 2 0x4000 8 0 0 (ringAt 0 0x2000 8 0 0 calm))
  let s1 := s.modRing 0 fun d => { d with priority := 3 }
  { s1 with de := { s1.de with staging := s1.de.staging.map fun g => { g with queue := [someProfile] } } }

theorem test_meets_RecordIsWritten_profile_order :
    mayBegin threeRecords ∧ threeRecords.de.arming = none ∧ noNoticeDue threeRecords ∧ hasRecord threeRecords 2
      ∧ hasRecord threeRecords 3 ∧ hasRecord threeRecords 0 ∧ ¬hasRecord threeRecords 1
      ∧ (threeRecords.staging 2).queue.head? = some someProfile
      ∧ (∀ k : LineId, hasRecord threeRecords k → k ≠ 2 →
          (threeRecords.ring (profileRing k)).priority < (threeRecords.ring (profileRing 2)).priority
            ∨ ((threeRecords.ring (profileRing k)).priority = (threeRecords.ring (profileRing 2)).priority ∧ 2 < k)) := by
  unfold mayBegin noStatusDue noResetDue engineChooses noNoticeDue hasRecord takesRecord
  refine ⟨⟨by decide +kernel, fun x h => by cases h⟩, ?_⟩
  decide +kernel

/-- The W word of ring P0 on the port, with this batch count left. -/
def wWriting (countdown : Nat) : State :=
  flying (.record 0 0x2000 threeWords 3) .wWord ((delivering [someProfile]).modRing 0 fun d =>
    { d with countdown := countdown })

/-- A read of the W word of ring P0 is WAITING when its record begins, and HELD from then on; at the record's end it is
let through and granted. -/
theorem test_record_holds_read_of_its_W_word :
    (gives (exec .recordStart ((readAt 0x000C00 none .waiting (delivering [someProfile])).modMp fun m =>
        { m with passed := 8 })) (fun t => t.mp.request.map (·.stage) == some .held && t.de.flight.isSome) = true)
      ∧ (gives (exec (.wWordWriteComplete false) (readAt 0x000C00 none .held (wWriting 2))) (fun t =>
        t.de.flight.isNone && t.mp.request.map (·.stage) == some .onPort) = true)
      ∧ (gives (exec (.wWordWriteComplete false) (readAt 0x000C10 none .held ((wWriting 2).modRing 1 fun d =>
        { d with resetOut := true }))) (fun t => t.mp.request.map (·.stage) == some .held) = true) := by decide +kernel

theorem test_meets_RecordIsWritten_flight :
    let s := flying (.record 0 0x2000 threeWords 0) .recordWord (delivering [someProfile])
    s.de.fresh = [] ∧ s.de.flight ≠ none := ⟨rfl, by decide +kernel⟩

theorem test_record_stands_at_slot_of_W :
    gives (exec .recordStart (delivering [someProfile])) (fun t =>
      match t.mp.port with
      | .de .recordWord a => a.addr == 0x002090
      | _ => false) = true := by decide +kernel

theorem test_meets_ProfileFaultLosesHead : ∀ b ∈ [false, true], ∀ rest ∈ [[], [someProfile]],
    let k : DeKind := if b = true then .wWord else .recordWord
    let s := flying (.record 0 0x2000 threeWords 3) k (delivering (someProfile :: rest))
    awake s ∧ (∃ a, s.mp.port = .de k a) ∧ s.de.flight = some (.record (profileRing 0) 0x2000 threeWords 3)
      ∧ (s.staging 0).queue = someProfile :: rest := by
  intro b _ rest _
  exact ⟨rfl, ⟨_, rfl⟩, rfl, rfl⟩

theorem test_meets_ProfileIsDelivered :
    (∀ n ∈ [1, 2], awake (wWriting n) ∧ (∃ a, (wWriting n).mp.port = .de .wWord a)
        ∧ (wWriting n).de.flight = some (.record (profileRing 0) 0x2000 threeWords 3)
        ∧ 0 < ((wWriting n).ring 0).batch)
      ∧ ((wWriting 1).ring 0).countdown ≤ 1 ∧ 1 < ((wWriting 2).ring 0).countdown
      ∧ (let s := (wWriting 1).modRing 0 fun d => { d with batch := 0 }
         awake s ∧ (∃ a, s.mp.port = .de .wWord a)
          ∧ s.de.flight = some (.record (profileRing 0) 0x2000 threeWords 3) ∧ (s.ring 0).batch = 0) := by
  refine ⟨?_, by decide +kernel, by decide +kernel, ⟨rfl, ⟨_, rfl⟩, rfl, rfl⟩⟩
  intro n _
  exact ⟨rfl, ⟨_, rfl⟩, rfl, show 0 < 2 by decide⟩

theorem test_wWord_counts_down_batch :
    gives (exec (.wWordWriteComplete false) (wWriting 1)) (fun t => (t.ring 0).w == 4 && (t.ring 0).countdown == 2
      && (t.staging 0).queue.isEmpty && (t.staging 0).delivered == 1) = true := by decide +kernel

/-- The one backlog entry in flight, with this late part; another entry waits behind it. -/
def entryInFlight (late : Option Late) (k : DeKind) : State :=
  flying (.record 4 0x3000 threeWords 3) k ((ringAt 4 0x3000 16 0 0 calm).modNu fun n => { n with
    backlog := [{ entry := someEntry, inFlight := true, late := late }, waitingEntry { someEntry with kind := .batch }] })

/-- A late part at the largest count. -/
def someLate : Late := { count := 255, detail := 4, level := 6, first := 8, last := 9 }

theorem test_meets_NoticeIsDeliveredOrReturned_backlog : ∀ k ∈ [DeKind.wWord, DeKind.recordWord],
    ∀ late ∈ [none, some someLate],
    let s := entryInFlight late k
    awake s ∧ (∃ a, s.mp.port = .de k a) ∧ s.de.flight = some (.record noticeRing 0x3000 threeWords 3)
      ∧ entryFlies s { entry := someEntry, inFlight := true, late := late } := by
  intro k _ late _
  refine ⟨rfl, ⟨_, rfl⟩, rfl, rfl, .head _, rfl, fun c hc hf => ?_⟩
  rcases List.mem_cons.mp hc with rfl | hc
  · rfl
  · rw [List.mem_singleton.mp hc] at hf; cases hf

/-- The entry stays with its late part as its content, and the grant at the delivery's end begins it again. -/
theorem test_late_part_becomes_content :
    gives (exec (.wWordWriteComplete false) (entryInFlight (some someLate) .wWord)) (fun t =>
      t.nu.outstanding == [3] && t.nu.sequence == 1
        && (t.nu.backlog.map fun b => (b.entry.count, b.entry.detail, b.entry.level, b.inFlight))
            == [(255, 4, 6, true), (1, 0, 3, false)]) = true
      ∧ gives (exec (.recordWordComplete true) (entryInFlight (some someLate) .recordWord)) (fun t =>
          t.nu.attn && (t.nu.backlog.map fun b => (b.entry.count, b.entry.first, b.entry.last)) == [(255, 0, 9), (1, 0, 0)])
        = true := by decide +kernel

/-- The offer in flight with an entry of its pair in the backlog. -/
theorem test_meets_offerReturned :
    let s := flying (.record 4 0x3000 threeWords 3) .wWord ((noticing true).modNu fun n => { n with
      backlog := [waitingEntry { someEntry with count := 255 }, waitingEntry { someEntry with kind := .batch }] })
    awake s ∧ s.nu.offer = some { entry := someEntry, inFlight := true }
      ∧ (∀ b ∈ s.nu.backlog, b.inFlight = false)
      ∧ (∃ b ∈ s.nu.backlog, b.entry.kind = someEntry.kind ∧ b.entry.source = someEntry.source)
      ∧ ∃ b ∈ s.nu.backlog, ¬(b.entry.kind = someEntry.kind ∧ b.entry.source = someEntry.source) := by
  unfold awake; decide +kernel

theorem test_meets_NoticeIsDeliveredOrReturned : ∀ k ∈ [DeKind.wWord, DeKind.recordWord],
    let s := flying (.record 4 0x3000 threeWords 3) k (noticing true)
    awake s ∧ (∃ a, s.mp.port = .de k a) ∧ s.de.flight = some (.record noticeRing 0x3000 threeWords 3)
      ∧ s.nu.offer = some { entry := someEntry, inFlight := true } := by
  intro k _
  exact ⟨rfl, ⟨_, rfl⟩, rfl, rfl⟩

/-- The page of line 1 dirty. -/
def pageDue : State := calm.markLine 1

theorem test_meets_PageIsWritten :
    (awake pageDue ∧ enginePort pageDue ∧ pageDue.deNext = some (.page 1))
      ∧ (awake pageFlying ∧ (∃ a, pageFlying.mp.port = .de .pageWord a)
        ∧ pageFlying.de.flight = some (.page 0 [(0x1000, 0), (0x1004, 0)] 0)
        ∧ 0 + 1 < [(0x1000, (0 : Word)), (0x1004, 0)].length)
      ∧ (let s := flying (.page 0 [(0x1000, 0), (0x1004, 0)] 1) .pageWord calm
         awake s ∧ (∃ a, s.mp.port = .de .pageWord a)
          ∧ s.de.flight = some (.page 0 [(0x1000, 0), (0x1004, 0)] 1)
          ∧ [(0x1000, (0 : Word)), (0x1004, 0)].length ≤ 1 + 1 ∧ s.cu.state ≠ .init)
      ∧ (let s := flying (.page 1 [(0x1200, 0)] 0) .pageWord State.reset
         awake s ∧ (∃ a, s.mp.port = .de .pageWord a) ∧ s.de.flight = some (.page 1 [(0x1200, 0)] 0)
          ∧ s.cu.state = .init ∧ s.cu.initLeft.filter (· ≠ 1) = [0, 2, 3, 4])
      ∧ (let s := (flying (.page 3 [(0x1600, 0)] 0) .pageWord State.reset).modCu fun c => { c with initLeft := [3] }
         awake s ∧ (∃ a, s.mp.port = .de .pageWord a) ∧ s.de.flight = some (.page 3 [(0x1600, 0)] 0)
          ∧ s.cu.state = .init ∧ s.cu.initLeft.filter (· ≠ 3) = []) :=
  ⟨⟨rfl, portFree rfl rfl rfl, by decide +kernel⟩, ⟨rfl, ⟨_, rfl⟩, rfl, by decide⟩,
    ⟨rfl, ⟨_, rfl⟩, rfl, by decide, by decide⟩, ⟨rfl, ⟨_, rfl⟩, rfl, rfl, by decide +kernel⟩, rfl, ⟨_, rfl⟩, rfl, rfl,
    by decide +kernel⟩

/-- A claim that stands on a FREE port: the command after it finds the page begun, and so does a notice that comes with
a bus reset's release. -/
theorem test_meets_EveryCommandAnswersNext :
    (awake pageDue ∧ ¬ready pageDue = true ∧ pageDue.de.flight = none ∧ notPowerOn .millisecondAdvance
        ∧ ¬grantRow .millisecondAdvance)
      ∧ gives (exec .millisecondAdvance pageDue) (fun t => t.nu.ms == 1 && t.de.flight.isSome && t.mp.port != .free) = true
      ∧ gives (exec .pageWriteStart pageDue) (fun t => t.nu.ms == 0 && t.de.flight.isSome && t.mp.port != .free) = true
      ∧ (let s := { (delivering [someProfile]) with
          pins := { calm.pins with brst := true }, mp := { calm.mp with inReset := true, resetCounted := true } }
         gives (exec .busResetRelease (ringAt 4 0x3000 16 0 0 s)) (fun t => t.nu.offer.isSome
          && (t.de.flight.map fun f => match f with | .record r _ _ _ => r.val | .page _ _ _ => 9) == some 0) = true) :=
  ⟨⟨rfl, by decide +kernel, rfl, ⟨by decide, fun _ _ h => by cases h⟩, by unfold grantRow; decide⟩, by decide +kernel,
    by decide +kernel, by decide +kernel⟩

/-- An arming that is due, met by a command of another row, by its own row and by a row that grants the engine the
port; and one that a write in flight still holds up. -/
theorem test_meets_EveryCommandAnswersNext_arming :
    (let s := arming calm
     awake s ∧ ¬noArmingDue s ∧ flightLaw s ∧ armingLaw s ∧ s.awaited = false ∧ ¬grantRow .millisecondAdvance
      ∧ grantRow .indexResetWrite)
      ∧ (let s := arming pageFlying
         noArmingDue s ∧ s.mp.port ≠ .free ∧ s.de.arming.isSome = true) := by
  refine ⟨⟨rfl, armingDue_not.mp rfl, fun _ _ _ h => (nomatch h), fun _ => rfl, rfl, ?_, ?_⟩, .inr ?_, ?_, rfl⟩
  · unfold grantRow; decide
  · unfold grantRow; decide
  · decide +kernel
  · decide +kernel

/-- R79, R156: an arming that is due takes effect before a command of another row, which finds its section live: the
region of ring P0 is owned, its index reset is granted, and the region that a section releases is the host's. -/
theorem test_arming_comes_first :
    gives (exec .millisecondAdvance (arming calm)) (fun t =>
      t.nu.ms == 1 && (t.ring 0).armed && t.de.arming.isNone && t.cu.liveDelivery == someDelivery
        && (match t.mp.port with | .de (.indexReset 0 false) _ => true | _ => false)) = true
      ∧ gives (exec (.hostRequestTaken 0x002000 true 0xF 0) (arming calm)) (fun t =>
          t.wu.ownedHits[4] == 1 && t.mp.request.isNone && t.mp.completion == some { err := false, data := none }) = true
      ∧ gives (exec (.hostRequestTaken 0x002000 true 0xF 0) (releasing (ringAt 0 0x2000 8 0 0 calm))) (fun t =>
          t.wu.ownedHits[4] == 0 && t.mp.request.isSome) = true
      ∧ gives (exec .indexResetWrite (arming calm)) (fun t => t.de.arming.isNone
          && (match t.mp.port with | .de (.indexReset 0 false) _ => true | _ => false)) = true
      ∧ gives (exec (.hostRequestTaken 0x000400 false 0xF 0) { arming calm with awaited := true }) (fun t =>
          t.de.arming.isNone && (t.ring 0).armed && !t.awaited && t.mp.passed == 1
            && t.mp.request.map (·.stage) == some .onPort) = true := by
  decide +kernel

/-- The pages of lines 0 and 3 dirty, that of line 1 begun last. -/
def twoPages : State := ((calm.markLine 0).markLine 3).modDe fun d => { d with lastPage := some 1 }

theorem test_meets_PageIsWritten_order :
    (mayBegin twoPages ∧ twoPages.de.arming = none ∧ noNoticeDue twoPages ∧ (∀ l : LineId, ¬hasRecord twoPages l)
        ∧ (twoPages.page 3).dirty = true ∧ (twoPages.page 3).faulted = false
        ∧ ∀ q : PageId, (twoPages.page q).dirty = true → (twoPages.page q).faulted = false →
            pageDistance twoPages.de.lastPage 3 ≤ pageDistance twoPages.de.lastPage q)
      ∧ (mayBegin (arming twoPages) ∧ (arming twoPages).de.arming ≠ none) := by
  unfold mayBegin noStatusDue noResetDue engineChooses noNoticeDue hasRecord takesRecord
  refine ⟨⟨⟨by decide +kernel, fun x h => by cases h⟩, ?_⟩, ⟨by decide +kernel, fun x h => by cases h⟩, ?_⟩
  · decide +kernel
  · decide +kernel

/-- The command status dirty with a record of this code and detail. -/
def statusDue (code : Byte) (detail : Half) : State :=
  { calm with
    cu := { calm.cu with record := { tag := 7, code := code, result := .refusedUnknown, detail := detail, taken := 1 } }
    de := { calm.de with statusDirty := true } }

theorem test_meets_CommandStatusIsWritten :
    (each ([0, 1, 11, 12] : List Byte) fun c => let s := statusDue c 0x100
      awake s ∧ s.deNext = some .commandStatus ∧ s.cu.record.code = c ∧ noResetDue s ∧ s.de.statusDirty = true)
      ∧ (∀ c d, enginePort (statusDue c d))
      ∧ ∃ a, ready (dePort .commandStatus calm) = true ∧ (dePort .commandStatus calm).mp.port = .de .commandStatus a :=
  ⟨by simp only [each, awake, noResetDue, engineChooses]; decide +kernel, fun _ _ => portFree rfl rfl rfl, _, rfl, rfl⟩

theorem test_commandStatus_word :
    gives (exec .commandStatusWrite (statusDue 12 0x100)) (fun t =>
      match t.mp.port with
      | .de .commandStatus a => a.data == 0xFFFC0107#32
      | _ => false) = true := by decide +kernel

/-- The code 0: of the power-on record, and of a command that was refused. -/
theorem test_commandStatus_word_of_code_0 :
    gives (exec .commandStatusWrite State.reset) (fun t =>
      match t.mp.port with
      | .de .commandStatus a => a.data == 0#32
      | _ => false) = true
      ∧ gives (exec .commandStatusWrite (statusDue 0 0)) (fun t =>
          match t.mp.port with
          | .de .commandStatus a => a.data == 0x00FC0107#32
          | _ => false) = true := by decide +kernel

/-- The refresh is on the port. -/
def refreshing (w : FreshWord) : State :=
  dePort (.refresh w 5) ((refreshDue w).modDe fun d => { d with fresh := [] })

theorem test_meets_FreshWordIsRefreshed : ∀ w ∈ [FreshWord.milliseconds, FreshWord.activity],
    (awake (refreshDue w) ∧ enginePort (refreshDue w) ∧ (refreshDue w).de.fresh = [w]
        ∧ (refreshDue w).deNext = some (.fresh w))
      ∧ (ready (refreshing w) = true ∧ (∃ a, (refreshing w).mp.port = .de (.refresh w 5) a)
        ∧ (∃ r, (refreshing w).mp.request = some r ∧ r.stage = .refreshing ∧ r.fresh = some w)
        ∧ w ∉ (refreshing w).de.fresh ∧ (refreshing w).de.arming = none
        ∧ (refreshing w).mp.passed < patience (refreshing w).liveDelivery) := by
  intro w h
  simp at h
  rcases h with rfl | rfl <;>
    exact ⟨⟨rfl, ⟨rfl, .inl rfl, fun r hr hs => by cases hr; cases hs⟩, rfl, by decide +kernel⟩,
      rfl, ⟨_, rfl⟩, ⟨_, rfl, rfl, rfl⟩, by decide +kernel, rfl, by decide +kernel⟩

/-- Refreshes that no read waits for: abandoned, or of a read whose own refresh is still to be issued. -/
theorem test_meets_FreshWordIsRefreshed_abandoned (w : FreshWord) :
    (let s := (refreshing w).setRequest none
     ready s = true ∧ (∃ a, s.mp.port = .de (.refresh w 5) a) ∧ s.mp.request = none)
      ∧ (let s := (refreshing w).modDe fun d => { d with fresh := [w] }
         ready s = true ∧ (∃ a, s.mp.port = .de (.refresh w 5) a) ∧ s.mp.request.isSome = true ∧ w ∈ s.de.fresh) :=
  ⟨⟨rfl, ⟨_, rfl⟩, rfl⟩, rfl, ⟨_, rfl⟩, rfl, List.mem_singleton.mpr rfl⟩

/-- A load of LINE 0 with these offsets left. -/
def loadOf (left : List Nat) : Load := { code := 0, start := 0x400, left := left, buffer := List.replicate 256 0 }

def loading (left : List Nat) : State :=
  { calm with cu := { calm.cu with state := .loading, load := some (loadOf left), owner := .load } }

theorem test_meets_LoadReadsItsWords :
    (awake (loading [0x4FC]) ∧ enginePort (loading [0x4FC]) ∧ noStatusDue (loading [0x4FC])
        ∧ (loading [0x4FC]).cu.load = some (loadOf [0x4FC]) ∧ (loadOf [0x4FC]).left = 0x4FC :: []
        ∧ (loading [0x4FC]).deNext = some (.loadRead 0x4FC))
      ∧ (∀ left ∈ [[0x4F8, 0x4FC], [0x4F8]], let s := dePort (.loadRead 0x4F8) (loading left)
          ready s = true ∧ (∃ a, s.mp.port = .de (.loadRead 0x4F8) a) ∧ s.cu.load = some (loadOf left)
            ∧ s.cu.owner = .load)
      ∧ (loadOf [0x4F8, 0x4FC]).left.filter (· != 0x4F8) ≠ [] ∧ (loadOf [0x4F8]).left.filter (· != 0x4F8) = [] := by
  refine ⟨⟨rfl, portFree rfl rfl rfl, by unfold noStatusDue noResetDue engineChooses; decide +kernel, rfl, rfl,
    by decide +kernel⟩, ?_, by decide, by decide⟩
  intro left _
  exact ⟨rfl, ⟨_, rfl⟩, rfl, rfl⟩

/-- At the end of a load the last-command record changes only while it belongs to the load, and then has no owner
(R149). -/
theorem test_load_end_and_record_owner : ∀ err ∈ [false, true], ∀ o ∈ [Owner.load, .none, .pendingLine 0],
    gives (exec (.loadReadComplete err 0) (dePort (.loadRead 0x4F8) ((loading [0x4F8]).modCu fun c => { c with owner := o })))
      (fun t => t.cu.owner == (if o = .load then .none else o)
        && t.cu.record.result == (if o = .load then (if err then .loadFailed else .loaded) else calm.cu.record.result))
      = true := by decide +kernel

/-- A load of ALL covers the calibrations only while the freeze is clear, and its buffer starts as the staged copies. -/
theorem test_meets_LoadStartsReading_buffer :
    (each [false, true] fun b =>
      let s := (withStagedCal [(0, 7)] (withStagedLine [(0, 5)] calm)).modCu fun c => { c with frozen := b }
      gives (exec (.load 7 10) (cmd 7 5 10 s)) (fun t => match t.cu.load with
        | some x => x.start == 0x200 && x.buffer[512]? == some 5 && x.buffer[1536]? == (if b then none else some 7)
        | none => false) = true)
      ∧ loadCovers 10 2560 (.cal 0) ∧ ¬loadCovers 10 1536 (.cal 0) ∧ loadCovers 10 1536 (.line 3) ∧ loadCovers 4 256 (.cal 0)
      ∧ ¬loadCovers 4 256 (.line 0) := by
  unfold loadCovers; simp only [each]; decide +kernel

theorem test_load_reads_whole_section :
    gives (exec (.load 7 10) (cmd 7 5 10 calm)) (fun t =>
      match t.cu.load with
      | some x => x.left.length == 640 && x.left.head? == some 0x200 && x.left.getLast? == some 0xBFC
      | none => false) = true := by decide +kernel

/-! ## Hypotheses: rules of the units and laws -/

theorem test_meets_ZoneMovesByTable :
    let s := withLive [(0x20, 1)] (lineIn .running (some .pWindow) calm)
    (zoneDef (s.liveLine 0) 0).enable = true ∧ (zoneDef (s.liveLine 0) 1).enable = false := by decide +kernel

/-- A column of bands 0 to 4 at one velocity and band 5 at another, or with bands 0 to 4 not valid. -/
def column (v top : Int) (valid : Bool) : Column :=
  { sequence := 0, mean := none, bands := Vector.ofFn fun k : Fin 6 =>
      if k = 5 then { quality := .paired, velocity := some top }
      else if valid then { quality := .paired, velocity := some v } else { quality := .noData, velocity := none } }

/-- A zone of bands 0 to 4 with a limit of 100. -/
def someZone (test lookback : Nat) : ZoneDef :=
  { enable := true, bandLo := 0, bandHi := 4, test := test, limit := 100, lookback := lookback, persist := 1, clear := 1,
    alarm := false }

def ones : List Nat := List.replicate 6 1

/-- BELOW and SPREAD at their limits, with a column fewer than the lookback, and with half and fewer than half of its
columns contributing; STILL at its limit (R60 to R63). -/
theorem test_meets_ZoneMovesByTable_tests :
    let still : List (BitVec 8) := [100, 100, 100, 100, 100, 0]
    let test (z : ZoneDef) (g : List Column) := zoneTest z ones g still
    (test (someZone 0 2) [column 0 0 true] = .notEvaluable
        ∧ test (someZone 0 2) [column 99 0 true, column 101 0 true] = .fails
        ∧ test (someZone 0 2) [column 0 0 true, column 98 0 true, column 101 0 true] = .holds
        ∧ test (someZone 0 4) [column 0 0 true, column 0 0 false, column 0 0 false, column 0 0 false] = .notEvaluable
        ∧ test (someZone 0 4) [column 0 0 true, column 0 0 true, column 0 0 false, column 0 0 false] = .holds)
      ∧ (test (someZone 2 2) [column 0 0 true] = .notEvaluable
        ∧ test (someZone 2 2) [column 0 101 true, column 0 99 true] = .fails
        ∧ test (someZone 2 2) [column 0 101 true, column 0 100 true] = .holds
        ∧ test (someZone 2 3) [column 0 300 true, column 0 300 false, column 0 300 false] = .notEvaluable
        ∧ test (someZone 2 3) [column 0 300 true, column 0 300 true, column 0 300 false] = .holds)
      ∧ test (someZone 1 2) [] = .holds ∧ test { someZone 1 2 with bandHi := 5 } [] = .fails
      ∧ zoneTest { someZone 1 2 with limit := 101 } ones [] still = .fails := by decide +kernel

theorem test_velocity_clips :
    velocityOf 65535 8002 .paired = { quality := .clipped, velocity := some 8000 }
      ∧ velocityOf 65535 8000 .paired = { quality := .paired, velocity := some 7999 }
      ∧ velocityOf 32768 (-16001) .paired = { quality := .paired, velocity := some (-8000) }
      ∧ velocityOf 32768 (-16002) .paired = { quality := .clipped, velocity := some (-8000) } := by decide +kernel

theorem test_meets_VelocityAndFlow :
    ((Sru.reset.formProfile (cycleParams defaultLine defaultCal 0 4040) 0 false).mean = none)
      ∧ (let u : Sru := { Sru.reset with
          accP := { bands := Vector.replicate 6 ⟨20, 20, 0, 200000⟩, muted := false }
          accN := { bands := Vector.replicate 6 ⟨20, 20, 0, -200000⟩, muted := false }
          halvesP := some (Vector.replicate 6 (.good 10000)) }
         (u.formProfile (cycleParams defaultLine defaultCal 0 4040) 0 false).mean = some 152
          ∧ (u.formProfile (cycleParams defaultLine defaultCal 0 4040) 0 false).flow = 547) := by decide +kernel

/-- Half results at the bounds of the minimum of 16 samples and of the reject limit of 4 sixteenths. -/
theorem test_meets_VelocityAndFlow_halves :
    let p := cycleParams defaultLine defaultCal 0 4040
    (p.minSamples = 16 ∧ p.rejectLimit = 4)
      ∧ halfResult p ⟨15, 15, 0, 3⟩ = .noData ∧ halfResult p ⟨16, 15, 1, 3⟩ = .spoiled
      ∧ halfResult p ⟨64, 47, 17, 3⟩ = .spoiled ∧ halfResult p ⟨64, 48, 16, -95⟩ = .good (-1) := by decide +kernel

/-- Profiles of mean above, below and of 0, and a mean that only too few bands could give. -/
theorem test_meets_VelocityAndFlow_means :
    let p := cycleParams defaultLine defaultCal 0 4040
    let u (m : Int) (k : Nat) : Sru := { Sru.reset with
      accN := { bands := Vector.ofFn fun i => if i.val < k then ⟨20, 20, 0, -20 * m⟩ else Accum.empty, muted := false }
      halvesP := some (Vector.ofFn fun i => if i.val < k then .good m else .noData) }
    ((u 10000 3).formProfile p 0 false).mean = some 152 ∧ ((u (-10000) 3).formProfile p 0 false).mean = some (-152)
      ∧ ((u 0 3).formProfile p 0 false).mean = some 0 ∧ ((u 10000 2).formProfile p 0 false).mean = none
      ∧ p.minValidBands = 3 := by decide +kernel

/-- A notice of BUS_RESET finds: no ring that takes it, an entry of its pair, that entry in flight, with a late part. -/
theorem test_meets_RaisedNoticeIsRecorded_backlog :
    (let s := ringAt 4 0x3000 16 0 0 calm
     s.nu.offer = none ∧ s.nu.backlog = [] ∧ takesRecord (s.ring noticeRing))
      ∧ ¬takesRecord (calm.ring noticeRing)
      ∧ (∀ b ∈ twoEntries.nu.backlog, ¬(b.entry.kind = .loadDone ∧ b.entry.source = .part))
      ∧ (∃ b ∈ twoEntries.nu.backlog, (b.entry.kind = .busReset ∧ b.entry.source = .part) ∧ b.inFlight = false)
      ∧ (each [none, some someLate] fun late => ∃ b ∈ (entryInFlight late .wWord).nu.backlog,
          (b.entry.kind = .busReset ∧ b.entry.source = .part) ∧ b.inFlight = true ∧ b.late = late) := by
  unfold takesRecord; simp only [each]; decide +kernel

theorem test_raised_notice_merges :
    (((twoEntries.raise .busReset .part 7).nu.backlog.map fun b => (b.entry.count, b.entry.detail))
        = [(2, 7), (1, 0)])
      ∧ (((entryInFlight (some someLate) .wWord).raise .busReset .part 7).nu.backlog.map fun b =>
          b.late.map fun x => (x.count, x.detail)) = [some (255, 7), none]
      ∧ ((ringAt 4 0x3000 16 0 0 calm).raise .busReset .part 7).nu.offer.map (·.entry.count) = some 1 := by
  decide +kernel

theorem test_meets_RaisedNoticeIsRecorded :
    calm.levelOf .busReset ≠ 0
      ∧ (calm.modCu fun c => { c with liveDelivery := edited c.liveDelivery [(0x54 + 18, 0)] }).levelOf .busReset = 0 := by
  decide +kernel

/-- A state in which every law has something to say: the notice ring FAULTED with ATTN asserted, window 0 EXPIRED with
the part UNATTENDED, line 0 in SHUTDOWN with LALM0 asserted, a record of line 0 in flight, the freeze set. -/
def eventful : State :=
  let s0 := (delivering [someProfile]).modStaging 0 fun g => { g with delivered := 1, dropped := 1, faulted := 1 }
  let s1 := (ringAt 4 0x3000 16 5 2 s0).modRing 4 fun d => { d with faulted := true }
  let s2 := s1.modCu fun c => { c with liveWindows := watchedWindows 0 1, frozen := true }
  let s3 := s2.modWindow 0 fun x => { x with state := .expired }
  let s4 := ((lineIn .shutdown none s3).modSru 0 fun u => { u with sequence := 4 }).modWu fun u =>
    { u with attendance := .unattended }
  { s4 with
    lines := s4.lines.map fun x => { x with gzu := { x.gzu with attCopy := .unattended, lalm := true } }
    nu := { s4.nu with attn := true, backlog := [{ entry := someEntry, inFlight := false, late := none }] }
    de := { s4.de with flight := some (.record 0 0x2090 threeWords 0), arming := some ⟨someDelivery, 1, 1⟩ }
    pending := [.millisecondAdvance] }

theorem test_eventful_steps : ∃ t, step eventful = .next t :=
  gives_next (p := fun t => t.nu.ms == 1) (by decide +kernel)

theorem test_meets_StepKeepsAttnLaw : attnLaw eventful := by unfold attnLaw; decide +kernel
theorem test_meets_StepKeepsLalmLaw : lalmLaw eventful := by unfold lalmLaw alarmed; decide +kernel
theorem test_meets_StepKeepsAttendanceLaw : attendanceLaw eventful := by unfold attendanceLaw holdsPart; decide +kernel
theorem test_meets_StepKeepsOnePerPair : onePerPair eventful := by unfold onePerPair; decide +kernel
theorem test_meets_StepKeepsAccount : headInFlight eventful ∧ profilesAccounted eventful := by
  unfold headInFlight profilesAccounted; decide +kernel
theorem test_meets_StepKeepsRingLaw : ringLaw eventful :=
  ⟨by decide +kernel, by decide +kernel, fun a h => by
    cases h
    decide +kernel⟩
/-- Line 0 at the end of its lead gap of 20 ticks, no command waiting: by its own step it turns switches on. -/
def gapRun : State :=
  { (lineIn .running (some .leadGap) calm).modLs 0 fun q => { q with
      phaseTimer := some 20, lengths := some (cycleLengths defaultLine) } with clock := { tick := 0, sinceMs := 0 } }

theorem test_meets_StepKeepsLegsSafeAndBounds_switches :
    (bridgeLaw gapRun ∧ gapLaw gapRun ∧ gapRun.pending = [] ∧ restedTwo gapRun 0)
      ∧ gives (step gapRun) (fun t => (t.ls 0).bridge != (gapRun.ls 0).bridge) = true := by
  refine ⟨⟨?_, ?_, rfl, rfl, .inl ⟨.inl rfl, 20, rfl, by decide⟩⟩, by decide +kernel⟩
  · intro l
    refine ⟨fun p h => ?_, ?_⟩
    · revert p; revert l; decide +kernel
    · revert l; decide +kernel
  · intro l
    refine ⟨by revert l; decide +kernel, ?_, ?_⟩
    · intro p h; revert p; revert l; simp only [gapRun]; decide +kernel
    · intro c h; revert c; revert l; simp only [gapRun]; decide +kernel

theorem test_meets_StepKeepsLegsSafeAndBounds : legsSafe eventful ∧ boundedCounts eventful :=
  ⟨by unfold legsSafe; decide +kernel, by decide +kernel, by decide +kernel, by decide +kernel, fun a h => by
    cases h
    decide +kernel, fun p words done h => by cases h⟩

theorem test_meets_flightLaw : flightLaw pageFlying := fun p words done h => by
  cases h
  decide

theorem test_meets_FreezeLasts : notPowerOn .millisecondAdvance ∧ frozenLaw eventful
    ∧ ∃ t, exec .millisecondAdvance eventful = .next t :=
  ⟨⟨by decide, fun _ _ h => by cases h⟩, by unfold frozenLaw; decide +kernel,
    gives_next (p := fun t => t.nu.ms == 1) (by decide +kernel)⟩

theorem test_meets_TotalsNeverDecrease_while_clearing :
    let s := cmd 7 10 0 calm
    notPowerOn .millisecondAdvance ∧ clearTotalInHand s
      ∧ (∀ tag operand, Instr.millisecondAdvance ≠ .clearTotal tag operand)
      ∧ ∀ data, Instr.millisecondAdvance ≠ .hostForwardedCompletion false data :=
  ⟨⟨by decide, fun _ _ h => by cases h⟩, ⟨_, rfl, rfl, rfl, rfl, rfl⟩,
    ⟨fun _ _ h => (by cases h), fun _ h => (by cases h)⟩⟩

theorem test_meets_TotalsNeverDecrease : notPowerOn .millisecondAdvance ∧ ¬clearTotalInHand eventful
    ∧ ∃ t, exec .millisecondAdvance eventful = .next t :=
  ⟨⟨by decide, fun _ _ h => by cases h⟩, fun ⟨_, h, _⟩ => (by cases h),
    gives_next (p := fun t => t.nu.ms == 1) (by decide +kernel)⟩

theorem test_meets_StepKeepsLegsSafeAndBounds_armingLaw :
    armingLaw (arming calm) ∧ ¬noArmingDue (arming calm) ∧ armingLaw State.reset :=
  ⟨fun _ => rfl, armingDue_not.mp rfl, fun _ => rfl⟩

end Sys2Proof.Tests
end

