-- ==== Sys2Proof/Proofs/LineAlarms.lean ====
section
/-! SUPPORT for O53. The line alarm law at one line, what leaves it alone, and how a re-evaluation of LALMn restores it
(R68, R69). -/

namespace Sys2Proof.Machine

/-! ## The law line by line (R68, R69) -/

/-- The line alarm law at one line: LALMn asserted exactly when the line is alarmed, and the GZU's copies agree. -/
def lalmAt (s : State) (l : LineId) : Prop :=
  ((s.gzu l).lalm = true ↔ alarmed s l) ∧ (s.gzu l).lineCopy = (s.ls l).state ∧ (s.gzu l).attCopy = s.wu.attendance

theorem lalmLaw_iff (s : State) : lalmLaw s ↔ ∀ l : LineId, lalmAt s l := Iff.rfl

theorem lalmLaw_lineCopy {s : State} (hs : lalmLaw s) (l : LineId) : (s.gzu l).lineCopy = (s.ls l).state :=
  (hs l).2.1

theorem lalmLaw_attCopy {s : State} (hs : lalmLaw s) (l : LineId) : (s.gzu l).attCopy = s.wu.attendance :=
  (hs l).2.2

/-- What the law reads at a line is as it was: the GZU, the line state, the live line section, the attendance. -/
structure AlarmViewKept (s t : State) (l : LineId) : Prop where
  gzu : t.gzu l = s.gzu l
  state : (t.ls l).state = (s.ls l).state
  live : t.liveLine l = s.liveLine l
  attendance : t.wu.attendance = s.wu.attendance

theorem AlarmViewKept.lalmAt {s t : State} {l : LineId} (h : AlarmViewKept s t l) (hs : lalmAt s l) : lalmAt t l := by
  obtain ⟨hg, hq, hl, ha⟩ := h
  simpa only [Machine.lalmAt, alarmed, hg, hq, hl, ha] using hs

theorem AlarmViewKept.trans {s t u : State} {l : LineId} (h : AlarmViewKept s t l) (h' : AlarmViewKept t u l) :
    AlarmViewKept s u l :=
  ⟨h'.gzu.trans h.gzu, h'.state.trans h.state, h'.live.trans h.live, h'.attendance.trans h.attendance⟩

/-- What the law reads is as it was at every line. -/
def AlarmsKept (s t : State) : Prop := ∀ l : LineId, AlarmViewKept s t l

theorem AlarmsKept.lalmLaw {s t : State} (h : AlarmsKept s t) (hs : lalmLaw s) : lalmLaw t :=
  (lalmLaw_iff t).mpr fun l => (h l).lalmAt ((lalmLaw_iff s).mp hs l)

/-- An effect that only takes place where a condition holds keeps the law when it does. -/
theorem guarded_lalmLaw {p : Prop} [Decidable p] {t u : State} (hu : lalmLaw u) (ht : lalmLaw t) :
    lalmLaw (if p then t else u) := by
  split
  · exact ht
  · exact hu

theorem AlarmsKept.refl (s : State) : AlarmsKept s s := fun _ => ⟨rfl, rfl, rfl, rfl⟩

theorem AlarmsKept.trans {s t u : State} (h : AlarmsKept s t) (h' : AlarmsKept t u) : AlarmsKept s u :=
  fun l => (h l).trans (h' l)

/-- Where line slices, live line sections and attendance are as they were, so is what the law reads. -/
theorem alarmsKept_of_live {s t : State}
    (h : t.lines = s.lines ∧ (∀ l : LineId, t.cu.lines[l.val].liveLine = s.cu.lines[l.val].liveLine)
      ∧ t.wu.attendance = s.wu.attendance) : AlarmsKept s t := fun l => by
  obtain ⟨lines, live, attendance⟩ := h
  exact ⟨by simp only [State.gzu, lines], by simp only [State.ls, lines], live l, attendance⟩

/-- An operation that leaves line slices, copies of the Command Unit and attendance leaves what the law reads. -/
theorem alarmsKept_of_frame {s t : State}
    (h : t.lines = s.lines ∧ t.cu.lines = s.cu.lines ∧ t.wu.attendance = s.wu.attendance) : AlarmsKept s t := by
  obtain ⟨lines, copies, attendance⟩ := h
  exact alarmsKept_of_live ⟨lines, fun l => by rw [copies], attendance⟩

/-! ## Operations of one line -/

/-- An operation of line `l` has left what the law reads of the other lines, the attendance, and its copy at `l`. -/
structure OthersKept (l : LineId) (s t : State) : Prop where
  others : ∀ k : LineId, k ≠ l → AlarmViewKept s t k
  attendance : t.wu.attendance = s.wu.attendance
  attCopy : (t.gzu l).attCopy = (s.gzu l).attCopy

theorem AlarmsKept.others {s t : State} (h : AlarmsKept s t) (l : LineId) : OthersKept l s t :=
  ⟨fun k _ => h k, (h l).attendance, congrArg Gzu.attCopy (h l).gzu⟩

theorem OthersKept.trans {l : LineId} {s t u : State} (h : OthersKept l s t) (h' : OthersKept l t u) :
    OthersKept l s u :=
  ⟨fun k hk => (h.others k hk).trans (h'.others k hk), h'.attendance.trans h.attendance, h'.attCopy.trans h.attCopy⟩

/-- An operation that leaves the other lines' slices and copies leaves what the law reads of them. -/
theorem othersKept_of_parts {l : LineId} {s t : State}
    (hl : ∀ k : LineId, k ≠ l → t.lines[k.val] = s.lines[k.val])
    (hc : ∀ k : LineId, k ≠ l → t.cu.lines[k.val] = s.cu.lines[k.val])
    (ha : t.wu.attendance = s.wu.attendance) (hg : (t.gzu l).attCopy = (s.gzu l).attCopy) : OthersKept l s t where
  others k hk := ⟨congrArg Line.gzu (hl k hk), congrArg (fun x : Line => x.ls.state) (hl k hk),
    congrArg LineCopies.liveLine (hc k hk), ha⟩
  attendance := ha
  attCopy := hg

theorem modLs_othersKept (s : State) (l : LineId) (f : Sequencer → Sequencer) : OthersKept l s (s.modLs l f) :=
  othersKept_of_parts (fun k hk => modLs_lines_other s l k f hk) (by simp) (by simp) (by simp)

theorem modSru_alarmsKept (s : State) (l : LineId) (f : Sru → Sru) : AlarmsKept s (s.modSru l f) :=
  fun k => ⟨by simp, by simp, rfl, rfl⟩

/-- The sequencer changes, but not its line state. -/
theorem modLs_alarmsKept (s : State) (l : LineId) (f : Sequencer → Sequencer)
    (h : ∀ q, (f q).state = q.state) : AlarmsKept s (s.modLs l f) := fun k => by
  refine ⟨by simp, ?_, rfl, rfl⟩
  by_cases e : k = l
  · subst e; rw [modLs_ls, h]
  · rw [modLs_other s l k f e]

theorem modGzu_othersKept (s : State) (l : LineId) (f : Gzu → Gzu)
    (h : ∀ g, (f g).attCopy = g.attCopy) : OthersKept l s (s.modGzu l f) :=
  othersKept_of_parts (fun k hk => modGzu_lines_other s l k f hk) (by simp) (by simp) (by rw [modGzu_gzu, h])

theorem raise_alarmsKept (s : State) (k : Kind) (src : Source) (d : Nat) : AlarmsKept s (s.raise k src d) :=
  alarmsKept_of_frame (by simp)

theorem markLine_alarmsKept (s : State) (l : LineId) : AlarmsKept s (s.markLine l) := alarmsKept_of_frame (by simp)

theorem markPart_alarmsKept (s : State) : AlarmsKept s s.markPart := alarmsKept_of_frame (by simp)

theorem modCu_alarmsKept (s : State) (f : Cu → Cu) (h : ∀ c, (f c).lines = c.lines) : AlarmsKept s (s.modCu f) :=
  alarmsKept_of_frame ⟨rfl, h s.cu, rfl⟩

/-! ## Re-evaluation (R69) -/

/-- Re-evaluating LALMn settles the law at the line, where its copies agree. -/
theorem reevalLalm_at (s : State) (l : LineId) (hc : (s.gzu l).lineCopy = (s.ls l).state)
    (ha : (s.gzu l).attCopy = s.wu.attendance) : lalmAt (s.reevalLalm l) l := by
  have hg : (s.reevalLalm l).gzu l = { s.gzu l with lalm := s.lalmTerms l } := modGzu_gzu ..
  have hq : ((s.reevalLalm l).ls l).state = (s.ls l).state := by simp [State.reevalLalm]
  have hlive : (s.reevalLalm l).liveLine l = s.liveLine l := rfl
  have hatt : (s.reevalLalm l).wu.attendance = s.wu.attendance := rfl
  have terms := lalmTerms_iff s l hc ha
  simp only [lalmAt, alarmed, hg, hq, hlive, hatt] at terms ⊢
  exact ⟨terms, hc, ha⟩

/-- Re-evaluating LALMn restores the law after an operation of the line that has kept the line state's copy. -/
theorem reevalLalm_lalmLaw {l : LineId} {s u : State} (hs : lalmLaw s) (h : OthersKept l s u)
    (hc : (u.gzu l).lineCopy = (u.ls l).state) : lalmLaw (u.reevalLalm l) := fun k => by
  by_cases e : k = l
  · subst e
    exact reevalLalm_at u k hc (by rw [h.attCopy, h.attendance]; exact lalmLaw_attCopy hs k)
  · exact ((h.trans (modGzu_othersKept u l _ fun _ => by rfl)).others k e).lalmAt (hs k)

/-- The report of the line state restores the law after any operation of the line. -/
theorem reportLineState_lalmLaw {l : LineId} {s u : State} (hs : lalmLaw s) (h : OthersKept l s u) :
    lalmLaw (u.reportLineState l) := by
  refine (markLine_alarmsKept _ l).lalmLaw
    (reevalLalm_lalmLaw hs (h.trans (modGzu_othersKept u l _ fun _ => by rfl)) ?_)
  simp

end Sys2Proof.Machine
end

