-- ==== Sys2Proof/Proofs/LineAlarmsSequencing.lean ====
section
/-! SUPPORT for O53. The line alarm law through the Line Sequencer and the Grid and Zone Unit (spec/01, spec/03). -/

namespace Sys2Proof.Machine

/-! ## Settings that become live (R67, R153) -/

/-- Acting on a new line section the LS keeps its line state (R26). -/
theorem lsApply_alarmsKept (s : State) (l : LineId) (old : Bytes) : AlarmsKept s (s.lsApply l old) := by
  have causes : AlarmsKept s (s.refreshCauses l) := modLs_alarmsKept s l _ fun _ => by rfl
  simp only [State.lsApply]
  split
  · refine AlarmsKept.trans ?_ (modLs_alarmsKept _ l _ fun _ => by rfl)
    split
    · exact causes
    · refine causes.trans (modLs_alarmsKept _ l _ ?_)
      intro q
      simp only [Sequencer.changeClamp]
      split <;> rfl
  · exact .refl s

/-- Zones reset by a new line section leave everything at the line but its zone records (R67). -/
theorem resetZones_othersKept (s : State) (l : LineId) (old : Bytes) :
    OthersKept l s (s.resetZones l old) ∧ ((s.resetZones l old).gzu l).lineCopy = (s.gzu l).lineCopy
      ∧ (s.resetZones l old).ls l = s.ls l := by
  obtain ⟨-, zones, -⟩ := resetZones_spec s l old
  refine ⟨othersKept_of_parts (by simp +contextual) (by simp) (by simp) (by rw [zones]), by rw [zones], ?_⟩
  simp [State.ls]

theorem modCopies_othersKept (s : State) (l : LineId) (f : LineCopies → LineCopies) :
    OthersKept l s (s.modCopies l f) :=
  othersKept_of_parts (by simp) (fun k hk => modCopies_lines_other s l k f hk) (by simp) rfl

/-- A line section made live re-evaluates LALMn (R153). -/
theorem applyLine_lalmLaw {s : State} (hs : lalmLaw s) (l : LineId) (new : Bytes) (tag : Byte) :
    lalmLaw (s.applyLine l new tag) := by
  simp only [State.applyLine]
  generalize hs1 : s.modCopies l (fun c => { c with liveLine := new, pendingLine := none, lineTag := tag }) = s1
  have copied : OthersKept l s s1 := hs1 ▸ modCopies_othersKept s l _
  have applied := lsApply_alarmsKept s1 l (s.liveLine l)
  generalize s1.lsApply l (s.liveLine l) = s2 at applied
  obtain ⟨zones, hcopy, hls⟩ := resetZones_othersKept s2 l (s.liveLine l)
  refine ((raise_alarmsKept _ _ _ _).trans (markLine_alarmsKept _ l)).lalmLaw
    (reevalLalm_lalmLaw hs ((copied.trans (applied.others l)).trans zones) ?_)
  have unmoved : s1.lines = s.lines := by rw [← hs1]; rfl
  rw [hcopy, hls, (applied l).gzu, (applied l).state]
  simpa only [State.gzu, State.ls, unmoved] using lalmLaw_lineCopy hs l

theorem appliedTo_alarmsKept (s : State) (o : Owner) : AlarmsKept s (s.appliedTo o) := alarmsKept_of_frame (by simp)

theorem applyCal_alarmsKept (s : State) (l : LineId) (new : Bytes) (tag : Byte) : AlarmsKept s (s.applyCal l new tag) :=
  alarmsKept_of_live (by simp)

theorem transferCal_alarmsKept (s : State) (l : LineId) : AlarmsKept s (s.transferCal l) := alarmsKept_of_live (by simp)

/-- A transfer keeps the law, whatever it makes live (R8, R153). -/
theorem transfer_lalmLaw {s : State} (hs : lalmLaw s) (l : LineId) : lalmLaw (s.transfer l) := by
  refine (transferCal_alarmsKept _ l).lalmLaw ?_
  simp only [State.transferLine]
  split
  · exact hs
  · exact (appliedTo_alarmsKept _ _).lalmLaw (applyLine_lalmLaw hs l _ _)

/-- A transfer, whatever stands at the line, leaves the other lines. -/
theorem transfer_othersKept (s : State) (l : LineId) : OthersKept l s (s.transfer l) := by
  obtain ⟨-, -, -, -, gzu⟩ := transfer_spec (s := s) (l := l) rfl
  exact othersKept_of_parts (by simp +contextual) (by simp +contextual) (by simp) (by rw [gzu])

/-! ## Shutdown, cycle start, entry to PRIMING and to OFF (R7, R10, R11, R16) -/

theorem countAttempt_othersKept (s : State) (l : LineId) : OthersKept l s (s.countAttempt l) :=
  othersKept_of_parts (by simp +contextual) (by simp) (by simp) (by simp [State.gzu])

theorem reexamTimer_alarmsKept (s : State) (l : LineId) : AlarmsKept s (s.reexamTimer l) :=
  modLs_alarmsKept s l _ fun _ => by rfl

/-- Shutdown entry ends with the report of the line state (R16). -/
theorem shutdownEntry_lalmLaw {s : State} (hs : lalmLaw s) (l : LineId) (c : Cause) :
    lalmLaw (s.shutdownEntry l c) := by
  refine reportLineState_lalmLaw hs (OthersKept.trans ?_ ((modSru_alarmsKept _ l _).others l))
  refine OthersKept.trans ?_ ((reexamTimer_alarmsKept _ l).others l)
  refine OthersKept.trans ?_ (countAttempt_othersKept _ l)
  refine OthersKept.trans ?_ (transfer_othersKept _ l)
  exact (modLs_othersKept s l _).trans (((modSru_alarmsKept _ l _).trans (raise_alarmsKept _ _ _ _)).others l)

/-- The sources that hold act on a driven line by a shutdown entry alone (R12). -/
theorem actSources_lalmLaw {s : State} (hs : lalmLaw s) (l : LineId) : lalmLaw (s.actSources l) := by
  have free : AlarmsKept s s.usedFree := alarmsKept_of_frame (by simp)
  simp only [State.actSources]
  split
  · split
    · exact hs
    · exact shutdownEntry_lalmLaw hs l _
    · exact shutdownEntry_lalmLaw hs l _
    · exact shutdownEntry_lalmLaw (free.lalmLaw hs) l _
  · exact hs

theorem cycleStart_lalmLaw {s : State} (hs : lalmLaw s) (l : LineId) : lalmLaw (s.cycleStart l) :=
  ((modLs_alarmsKept _ l _ fun _ => by rfl).trans (modSru_alarmsKept _ l _)).lalmLaw (transfer_lalmLaw hs l)

theorem enterPriming_lalmLaw {s : State} (hs : lalmLaw s) (l : LineId) : lalmLaw (s.enterPriming l) :=
  cycleStart_lalmLaw (reportLineState_lalmLaw hs
    (((modLs_othersKept s l _).trans ((modSru_alarmsKept _ l _).others l)).trans
      (modGzu_othersKept _ l _ fun _ => by rfl))) l

theorem enterOff_lalmLaw {s : State} (hs : lalmLaw s) (l : LineId) : lalmLaw (s.enterOff l) :=
  reportLineState_lalmLaw hs
    (((modLs_othersKept s l _).trans ((modSru_alarmsKept _ l _).others l)).trans (transfer_othersKept _ l))

/-- The line takes another state, and reports it (R25). -/
theorem newState_lalmLaw {s : State} (hs : lalmLaw s) (l : LineId) (f : Sequencer → Sequencer) :
    lalmLaw ((s.modLs l f).reportLineState l) :=
  reportLineState_lalmLaw hs (modLs_othersKept s l f)

/-! ## A profile and the end of a cycle (R9, R53) -/

/-- The evaluation of zones leaves of the GZU all but the zone records, and everything else the law reads (R64). -/
theorem evalZones_othersKept (s : State) (l : LineId) (zs : List (Fin 4)) (sorted : zs.Pairwise (· < ·)) :
    let t := zs.foldl (fun t z => t.evalZone l z) s
    OthersKept l s t ∧ (t.gzu l).lineCopy = (s.gzu l).lineCopy ∧ t.ls l = s.ls l := by
  obtain ⟨gzu, cu, -⟩ := foldEval l zs sorted s
  have lines (t : State) (z : Fin 4) (k : LineId) (hk : k ≠ l) : (t.evalZone l z).lines[k.val] = t.lines[k.val] := by
    simp [hk]
  refine ⟨othersKept_of_parts (fun k hk => ?_) (fun k _ => by rw [cu]) ?_ (by rw [gzu]), by rw [gzu], ?_⟩
  · exact foldl_keeps _ (fun x : State => x.lines[k.val]) (fun t z => lines t z k hk) _ s
  · exact congrArg Wu.attendance (foldl_wu _ zs s fun t z => by simp)
  · exact foldl_keeps _ (fun x : State => x.ls l) (fun t z => by simp [State.ls]) _ s

/-- A profile at the GZU: LALMn is re-evaluated after the zones (R53). -/
theorem takeProfile_lalmLaw {s : State} (hs : lalmLaw s) (l : LineId) (p : Profile) : lalmLaw (s.takeProfile l p) := by
  simp only [State.takeProfile]
  generalize hs1 : s.modGzu l (fun g => g.takeColumn (stillThreshold (s.liveLine l)) p) = s1
  have column : OthersKept l s s1 := hs1 ▸ modGzu_othersKept s l _ fun _ => by rfl
  have copy : (s1.gzu l).lineCopy = (s1.ls l).state := by
    rw [← hs1]
    simpa [Gzu.takeColumn] using lalmLaw_lineCopy hs l
  obtain ⟨zones, hcopy, hls⟩ := evalZones_othersKept s1 l _ (List.pairwise_lt_finRange 4)
  generalize (List.finRange 4).foldl (fun t z => t.evalZone l z) s1 = s2 at zones hcopy hls
  have joined (u : State) (q : Profile) : AlarmsKept u (u.stagingJoin l q) := alarmsKept_of_frame (by simp)
  exact ((markLine_alarmsKept _ l).trans (joined _ _)).lalmLaw
    (reevalLalm_lalmLaw hs (column.trans zones) (by rw [hcopy, hls, copy]))

theorem produce_lalmLaw {s : State} (hs : lalmLaw s) (l : LineId) : lalmLaw (s.produce l) := by
  simp only [State.produce]
  split
  · exact hs
  · exact (modLs_alarmsKept _ l _ fun _ => by rfl).lalmLaw
      (takeProfile_lalmLaw (((modSru_alarmsKept s l _).trans (markLine_alarmsKept _ l)).lalmLaw hs) l _)

theorem closeCycle_lalmLaw {s : State} (hs : lalmLaw s) (l : LineId) : lalmLaw (s.closeCycle l) := by
  simp only [State.closeCycle]
  split
  · exact produce_lalmLaw hs l
  · exact (modSru_alarmsKept s l _).lalmLaw hs

theorem afterCycle_lalmLaw {s : State} (hs : lalmLaw s) (l : LineId) : lalmLaw (s.afterCycle l) := by
  simp only [State.afterCycle]
  split
  case h_1 => exact enterOff_lalmLaw hs l
  case h_2 => exact actSources_lalmLaw (cycleStart_lalmLaw (newState_lalmLaw hs l _) l) l
  case h_3 => exact actSources_lalmLaw (cycleStart_lalmLaw hs l) l
  all_goals exact hs

/-- The end of each phase (R3, R9, R14). -/
theorem endPhase_lalmLaw {s : State} (hs : lalmLaw s) (l : LineId) (coilLo : Bool) : lalmLaw (s.endPhase l coilLo) := by
  simp only [State.endPhase]
  split
  case h_1 => exact hs
  case h_2 => exact (modLs_alarmsKept s l _ fun _ => by rfl).lalmLaw hs
  case h_3 =>
    split
    · exact shutdownEntry_lalmLaw hs l _
    · exact ((modLs_alarmsKept s l _ fun _ => by rfl).trans (modSru_alarmsKept _ l _)).lalmLaw hs
  case h_4 => exact ((modSru_alarmsKept s l _).trans (modLs_alarmsKept _ l _ fun _ => by rfl)).lalmLaw hs
  case h_5 => exact (modLs_alarmsKept s l _ fun _ => by rfl).lalmLaw hs
  case h_6 =>
    split
    · exact shutdownEntry_lalmLaw hs l _
    · exact ((modLs_alarmsKept s l _ fun _ => by rfl).trans (modSru_alarmsKept _ l _)).lalmLaw hs
  case h_7 => exact afterCycle_lalmLaw (closeCycle_lalmLaw ((modLs_alarmsKept s l _ fun _ => by rfl).lalmLaw hs) l) l

/-! ## SHUTDOWN, pins and timers of a line (R13, R15, R17, R18, R20) -/

theorem endHold_lalmLaw {s : State} (hs : lalmLaw s) (l : LineId) : lalmLaw (s.endHold l) :=
  guarded_lalmLaw hs ((modLs_alarmsKept s l _ fun _ => by rfl).lalmLaw hs)

theorem autoRestart_lalmLaw {s : State} (hs : lalmLaw s) (l : LineId) : lalmLaw (s.autoRestart l) :=
  guarded_lalmLaw hs (actSources_lalmLaw ((raise_alarmsKept _ _ _ _).lalmLaw (enterPriming_lalmLaw hs l)) l)

/-- Causes present change in SHUTDOWN, and the restart delay is examined (R17, R20). -/
theorem newCauses_lalmLaw {s : State} (hs : lalmLaw s) (l : LineId) (f : Sequencer → Causes) :
    lalmLaw ((s.modLs l fun q => { q with causes := f q }).reexamTimer l) :=
  ((modLs_alarmsKept s l _ fun _ => by rfl).trans (reexamTimer_alarmsKept _ l)).lalmLaw hs

theorem coilHiChanged_lalmLaw {s : State} (hs : lalmLaw s) (l : LineId) : lalmLaw (s.coilHiChanged l) := by
  simp only [State.coilHiChanged]
  split
  · exact newCauses_lalmLaw hs l _
  · exact guarded_lalmLaw hs (shutdownEntry_lalmLaw hs l _)

theorem newPins_alarmsKept (s : State) (p : Pins) : AlarmsKept s { s with pins := p } := alarmsKept_of_frame (by simp)

theorem setCoilHi_lalmLaw {s : State} (hs : lalmLaw s) (l : LineId) (level : Bool) : lalmLaw (s.setCoilHi l level) := by
  simp only [State.setCoilHi]
  split
  · exact hs
  · exact coilHiChanged_lalmLaw ((newPins_alarmsKept s _).lalmLaw hs) l

theorem tripChanged_lalmLaw {s : State} (hs : lalmLaw s) (l : LineId) : lalmLaw (s.tripChanged l) := by
  simp only [State.tripChanged]
  split
  · exact newCauses_lalmLaw hs l _
  · exact guarded_lalmLaw hs (shutdownEntry_lalmLaw hs l _)

theorem setTripLevel_lalmLaw {s : State} (hs : lalmLaw s) (l : LineId) (level : Bool) :
    lalmLaw (s.setTripLevel l level) :=
  tripChanged_lalmLaw ((modLs_alarmsKept s l _ fun _ => by rfl).lalmLaw hs) l

theorem completeDebounce_lalmLaw {s : State} (hs : lalmLaw s) (l : LineId) : lalmLaw (s.completeDebounce l) := by
  simp only [State.completeDebounce]
  split
  · exact setTripLevel_lalmLaw hs l _
  · exact hs

theorem completeDue_lalmLaw {s : State} (hs : lalmLaw s) (l : LineId) : lalmLaw (s.completeDue l) := by
  simp only [State.completeDue]
  split
  · split
    · exact setTripLevel_lalmLaw hs l _
    · exact hs
  · exact hs

theorem followTrip_lalmLaw {s : State} (hs : lalmLaw s) (l : LineId) (level : Bool) :
    lalmLaw (s.followTrip l level) := by
  simp only [State.followTrip]
  split
  · exact (modLs_alarmsKept s l _ fun _ => by rfl).lalmLaw hs
  · split
    · exact setTripLevel_lalmLaw hs l _
    · exact (modLs_alarmsKept s l _ fun _ => by rfl).lalmLaw hs

theorem setTrip_lalmLaw {s : State} (hs : lalmLaw s) (l : LineId) (level : Bool) : lalmLaw (s.setTrip l level) := by
  simp only [State.setTrip]
  split
  · exact hs
  · exact followTrip_lalmLaw ((newPins_alarmsKept _ _).lalmLaw (completeDue_lalmLaw hs l)) l level

/-! ## Line commands (R21 to R24) -/

theorem startLine_lalmLaw {s : State} (hs : lalmLaw s) (l : LineId) : lalmLaw (s.startLine l).1 := by
  simp only [State.startLine]
  split
  case h_1 => exact actSources_lalmLaw (enterPriming_lalmLaw hs l) l
  case h_2 => exact newState_lalmLaw hs l _
  all_goals exact hs

theorem stopLine_lalmLaw {s : State} (hs : lalmLaw s) (l : LineId) : lalmLaw (s.stopLine l).1 := by
  simp only [State.stopLine]
  split
  case h_1 => exact newState_lalmLaw hs l _
  case h_2 => exact enterOff_lalmLaw ((modSru_alarmsKept s l _).lalmLaw hs) l
  case h_3 => exact enterOff_lalmLaw ((modLs_alarmsKept s l _ fun _ => by rfl).lalmLaw hs) l
  all_goals exact hs

theorem haltLine_lalmLaw {s : State} (hs : lalmLaw s) (l : LineId) : lalmLaw (s.haltLine l).1 := by
  simp only [State.haltLine]
  split
  case h_4 => exact newCauses_lalmLaw hs l _
  case h_5 => exact hs
  all_goals exact shutdownEntry_lalmLaw hs l _

theorem restartLine_lalmLaw {s : State} (hs : lalmLaw s) (l : LineId) : lalmLaw (s.restartLine l).1 := by
  simp only [State.restartLine]
  split
  case h_1 =>
    split
    · exact hs
    · split
      · exact hs
      · dsimp only
        exact actSources_lalmLaw ((raise_alarmsKept _ _ _ _).lalmLaw (enterPriming_lalmLaw
          ((modLs_alarmsKept s l _ fun _ => by rfl).lalmLaw hs) l)) l
  all_goals exact hs

end Sys2Proof.Machine
end

