-- ==== Sys2Proof/Proofs/LineAlarmsBlocks.lean ====
section
/-! SUPPORT for O53. The line alarm law through the Watch Unit, the Command Unit, the Memory Path and an arming
(spec/04, spec/06 to spec/09). -/

namespace Sys2Proof.Machine

/-! ## The attendance and its report to every GZU (R69, R172) -/

/-- The report to a GZU settles the law at its line, and leaves it at a line where it holds. -/
theorem reportAttendance_at (s : State) (l k : LineId) (hc : (s.gzu k).lineCopy = (s.ls k).state)
    (h : k = l ∨ lalmAt s k) : lalmAt (s.reportAttendance l) k := by
  by_cases e : k = l
  · subst e
    exact reevalLalm_at _ k (by simpa using hc) (by simp)
  · have others (t : State) (f : Gzu → Gzu) : AlarmViewKept t (t.modGzu l f) k :=
      ⟨modGzu_other t l k f e, by simp, rfl, rfl⟩
    exact (others _ _).lalmAt ((others _ _).lalmAt (h.resolve_left e))

theorem reportAttendance_lineCopy (s : State) (l k : LineId) (hc : (s.gzu k).lineCopy = (s.ls k).state) :
    ((s.reportAttendance l).gzu k).lineCopy = ((s.reportAttendance l).ls k).state := by
  by_cases e : k = l
  · subst e
    simpa [State.reportAttendance, State.reevalLalm] using hc
  · simpa [State.reportAttendance, State.reevalLalm, modGzu_other _ _ _ _ e] using hc

/-- The report of the attendance to the lines of a list settles the law at each of them. -/
theorem reportAttendances_at (l : LineId) (ks : List LineId) (s : State) (hc : (s.gzu l).lineCopy = (s.ls l).state)
    (h : l ∈ ks ∨ lalmAt s l) : lalmAt (ks.foldl (fun t k => t.reportAttendance k) s) l := by
  induction ks generalizing s with
  | nil => exact h.resolve_left List.not_mem_nil
  | cons k ks ih =>
    refine ih _ (reportAttendance_lineCopy s k l hc) ?_
    by_cases e : l = k
    · exact .inr (reportAttendance_at s k l hc (.inl e))
    · exact h.imp (fun m => (List.mem_cons.mp m).resolve_left e) fun hl => reportAttendance_at s k l hc (.inr hl)

/-- The report to every GZU restores the law from the copies of the line states alone. -/
theorem reportAttendanceAll_lalmLaw {s : State} (hc : ∀ l : LineId, (s.gzu l).lineCopy = (s.ls l).state) :
    lalmLaw s.reportAttendanceAll :=
  fun l => reportAttendances_at l _ s (hc l) (.inl (List.mem_finRange l))

/-- The attendance takes a value, with its notice, and is reported to every GZU (R172). -/
theorem newAttendance_lalmLaw {s : State} (hs : lalmLaw s) (a : Attendance) (k : Kind) (d : Nat) :
    lalmLaw (((s.modWu fun u => { u with attendance := a }).raise k .part d).reportAttendanceAll) := by
  refine reportAttendanceAll_lalmLaw fun l => ?_
  have raised := raise_alarmsKept (s.modWu fun u => { u with attendance := a }) k .part d l
  rw [raised.gzu, raised.state]
  exact lalmLaw_lineCopy hs l

theorem rederiveAttendance_lalmLaw {s : State} (hs : lalmLaw s) (d : Nat) : lalmLaw (s.rederiveAttendance d) := by
  simp only [State.rederiveAttendance]
  split
  case h_1 => exact (markPart_alarmsKept _).lalmLaw (newAttendance_lalmLaw hs _ _ _)
  case h_2 => exact (markPart_alarmsKept _).lalmLaw (newAttendance_lalmLaw hs _ _ _)
  all_goals exact hs

/-! ## Windows (R166, R168, R173) -/

theorem modWu_alarmsKept (s : State) (f : Wu → Wu) (h : ∀ u, (f u).attendance = u.attendance) :
    AlarmsKept s (s.modWu f) :=
  alarmsKept_of_frame ⟨rfl, rfl, h s.wu⟩

/-- A fold of operations that leave what the law reads leaves it. -/
theorem foldl_alarmsKept {β : Type} (f : State → β → State) (h : ∀ t x, AlarmsKept t (f t x)) (l : List β) (s : State) :
    AlarmsKept s (l.foldl f s) := by
  induction l generalizing s with
  | nil => exact .refl s
  | cons x rest ih => exact (h s x).trans (ih (f s x))

theorem expireWindow_alarmsKept (s : State) (w : WindowId) : AlarmsKept s (s.expireWindow w) :=
  alarmsKept_of_frame (by simp)

theorem expireAll_lalmLaw {s : State} (hs : lalmLaw s) (ws : List WindowId) : lalmLaw (s.expireAll ws) :=
  rederiveAttendance_lalmLaw ((foldl_alarmsKept _ expireWindow_alarmsKept ws s).lalmLaw hs) _

theorem advanceWindows_lalmLaw {s : State} (hs : lalmLaw s) : lalmLaw s.advanceWindows :=
  expireAll_lalmLaw ((modWu_alarmsKept s _ fun _ => by rfl).lalmLaw hs) _

theorem matchAll_lalmLaw {s : State} (hs : lalmLaw s) (addr : Nat) (write : Bool) : lalmLaw (s.matchAll addr write) :=
  rederiveAttendance_lalmLaw ((foldl_alarmsKept _ (fun t _ => modWu_alarmsKept t _ fun _ => by rfl) _ s).lalmLaw hs) _

theorem applyWindows_lalmLaw {s : State} (hs : lalmLaw s) (old : Bytes) (held : List WindowId) :
    lalmLaw (s.applyWindows old held) :=
  rederiveAttendance_lalmLaw ((modWu_alarmsKept s _ fun _ => by rfl).lalmLaw hs) _

/-- The window section becomes live, in either order of the two notices (R101, R155, R173). -/
theorem windowsLive_lalmLaw {s : State} (hs : lalmLaw s) (tag : Byte) : lalmLaw (s.windowsLive tag) := by
  have live : AlarmsKept s (s.liveWindowsFrom tag) := modCu_alarmsKept s _ fun _ => by rfl
  have free : AlarmsKept s (s.liveWindowsFrom tag).usedFree := live.trans (alarmsKept_of_frame (by simp))
  simp only [State.windowsLive]
  split
  · split
    · exact applyWindows_lalmLaw ((raise_alarmsKept _ _ _ _).lalmLaw (free.lalmLaw hs)) _ _
    · exact (raise_alarmsKept _ _ _ _).lalmLaw (applyWindows_lalmLaw (free.lalmLaw hs) _ _)
  · exact (raise_alarmsKept _ _ _ _).lalmLaw (applyWindows_lalmLaw (live.lalmLaw hs) _ _)

/-- The millisecond counter advances at NU, LS and WU (R99). -/
theorem advanceMs_lalmLaw {s : State} (hs : lalmLaw s) : lalmLaw s.advanceMs := by
  have counted : AlarmsKept s
      (({ s with clock := { s.clock with sinceMs := 0 } } : State).modNu fun n => { n with ms := n.ms + 1 }) :=
    alarmsKept_of_frame ⟨rfl, rfl, rfl⟩
  have advanced (t : State) : AlarmsKept t t.advanceLines := fun l =>
    ⟨by simp [State.gzu, State.advanceLines], by simp [State.ls, State.advanceLines, Sequencer.advanceMs], rfl, rfl⟩
  exact advanceWindows_lalmLaw ((counted.trans (advanced _)).lalmLaw hs)

/-! ## The Command Unit (R148 to R161) -/

theorem modCopies_alarmsKept (s : State) (l : LineId) (f : LineCopies → LineCopies)
    (h : ∀ c, (f c).liveLine = c.liveLine) : AlarmsKept s (s.modCopies l f) :=
  alarmsKept_of_live ⟨rfl, fun k => modCopies_view_liveLine s l k f h, rfl⟩

theorem commitLine_lalmLaw {s : State} (hs : lalmLaw s) (tag : Byte) (l : LineId) : lalmLaw (s.commitLine tag l).1 := by
  simp only [State.commitLine]
  split
  · exact hs
  · split
    · exact applyLine_lalmLaw hs l _ _
    · exact ((modCopies_alarmsKept s l _ fun _ => by rfl).trans (markLine_alarmsKept _ l)).lalmLaw hs

theorem commitCal_lalmLaw {s : State} (hs : lalmLaw s) (tag : Byte) (l : LineId) : lalmLaw (s.commitCal tag l).1 := by
  simp only [State.commitCal]
  split
  · exact hs
  · split
    · exact (applyCal_alarmsKept s l _ _).lalmLaw hs
    · exact ((modCopies_alarmsKept s l _ fun _ => by rfl).trans (markLine_alarmsKept _ l)).lalmLaw hs

theorem commitWindows_lalmLaw {s : State} (hs : lalmLaw s) (tag : Byte) : lalmLaw (s.commitWindows tag).1 := by
  simp only [State.commitWindows]
  split
  · exact hs
  · exact (markPart_alarmsKept _).lalmLaw (windowsLive_lalmLaw hs tag)

theorem commitDelivery_alarmsKept (s : State) (tag : Byte) : AlarmsKept s (s.commitDelivery tag).1 := by
  simp only [State.commitDelivery]
  split
  · exact .refl s
  · exact alarmsKept_of_frame (by simp)

theorem clearTotal_alarmsKept (s : State) (l : LineId) : AlarmsKept s (s.clearTotal l).1 :=
  (modSru_alarmsKept s l _).trans (markLine_alarmsKept _ l)

/-- FREEZE touches the calibration copies alone (R158). -/
theorem freeze_alarmsKept (s : State) : AlarmsKept s s.freeze.1 := by
  simp only [State.freeze]
  split
  · exact .refl s
  · exact alarmsKept_of_live (by simp [LineCopies.freeze])

theorem startLoad_alarmsKept (s : State) (code : Nat) : AlarmsKept s (s.startLoad code).1 :=
  alarmsKept_of_frame (by simp)

/-- Every command of Table 8-1. -/
theorem runCommand_lalmLaw {s : State} (hs : lalmLaw s) (tag code operand : Byte) :
    lalmLaw (s.runCommand tag code operand).1 := by
  simp only [State.runCommand]
  split
  case h_1 => exact commitLine_lalmLaw hs _ _
  case h_2 => exact commitCal_lalmLaw hs _ _
  case h_3 => exact commitWindows_lalmLaw hs _
  case h_4 => exact (commitDelivery_alarmsKept s _).lalmLaw hs
  case h_5 => exact (startLoad_alarmsKept s _).lalmLaw hs
  case h_6 => exact startLine_lalmLaw hs _
  case h_7 => exact stopLine_lalmLaw hs _
  case h_8 => exact haltLine_lalmLaw hs _
  case h_9 => exact restartLine_lalmLaw hs _
  case h_10 => exact (clearTotal_alarmsKept s _).lalmLaw hs
  case h_11 => exact (freeze_alarmsKept s).lalmLaw hs
  case h_12 => exact hs

theorem setRecord_alarmsKept (s : State) (tag code : Byte) (r : Reply) : AlarmsKept s (s.setRecord tag code r) :=
  alarmsKept_of_frame (by simp)

theorem takeCommandWrite_lalmLaw {s : State} (hs : lalmLaw s) (be : BitVec 4) (data : Word) :
    lalmLaw (s.takeCommandWrite be data) := by
  simp only [State.takeCommandWrite, State.takeCommand, State.takePartial]
  split
  · split
    · exact (setRecord_alarmsKept s _ _ _).lalmLaw hs
    · exact (setRecord_alarmsKept _ _ _ _).lalmLaw (runCommand_lalmLaw hs _ _ _)
  · exact (setRecord_alarmsKept s _ _ _).lalmLaw hs

theorem capture_alarmsKept (s : State) (sec : SectionId) (off : Nat) (be : BitVec 4) (data : Word) :
    AlarmsKept s (s.capture sec off be data) := alarmsKept_of_live (by simp)

theorem loadRead_alarmsKept (s : State) (off : Nat) (err : Bool) (data : Word) :
    AlarmsKept s (s.loadRead off err data) :=
  alarmsKept_of_live (by simp)

/-! ## The Memory Path (R119, R122 to R124, R131, R132) -/

theorem captureRd_alarmsKept (s : State) (r : RingId) (newRd : Half) : AlarmsKept s (s.captureRd r newRd) :=
  alarmsKept_of_frame (by simp)

theorem handOver_lalmLaw {s : State} (hs : lalmLaw s) (r : Request) : lalmLaw (s.handOver r) := by
  simp only [State.handOver]
  split
  case h_1 => exact hs
  case h_2 =>
    split
    · exact (capture_alarmsKept s _ _ _ _).lalmLaw hs
    · exact hs
  case h_3 => exact takeCommandWrite_lalmLaw hs _ _
  case h_4 =>
    split
    · exact (captureRd_alarmsKept s _ _).lalmLaw hs
    · exact hs

theorem afterFreshRead_alarmsKept (s : State) (r : Request) : AlarmsKept s (s.afterFreshRead r) := by
  simp only [State.afterFreshRead]
  split
  · exact modWu_alarmsKept s _ fun _ => by rfl
  · exact .refl s

/-- A host access completes: only what it hands over can reach a line alarm (R123). -/
theorem completeHost_lalmLaw {s : State} (hs : lalmLaw s) (err : Bool) (data : Word) :
    lalmLaw (s.completeHost err data) := by
  have ended (t : State) (d : Option Word) : AlarmsKept t (t.freePort.completeUp err d) := alarmsKept_of_frame (by simp)
  simp only [State.completeHost]
  split
  · rename_i r _ _
    split
    · have handed : lalmLaw (if r.access.write = true ∧ (!err) = true then s.handOver r else s) := by
        split
        · exact handOver_lalmLaw hs r
        · exact hs
      split
      · exact (ended _ _).lalmLaw handed
      · exact ((ended _ _).trans (afterFreshRead_alarmsKept _ r)).lalmLaw handed
    · exact hs
  · exact hs

theorem commandStep_lalmLaw {s : State} (hs : lalmLaw s) (tag code operand : Byte) :
    lalmLaw (s.commandStep tag code operand) :=
  guarded_lalmLaw hs (completeHost_lalmLaw hs _ _)

theorem capturedStep_lalmLaw {s : State} (hs : lalmLaw s) (off : Half) (be : BitVec 4) (data : Word) :
    lalmLaw (s.capturedStep off be data) := by
  simp only [State.capturedStep]
  split
  · split
    case h_1 =>
      split
      · exact completeHost_lalmLaw hs _ _
      · exact hs
    all_goals exact hs
  · exact hs

theorem rdStep_lalmLaw {s : State} (hs : lalmLaw s) (r : RingId) (data : Word) : lalmLaw (s.rdStep r data) :=
  guarded_lalmLaw hs (completeHost_lalmLaw hs _ _)

theorem activityStep_lalmLaw {s : State} (hs : lalmLaw s) (data : Word) : lalmLaw (s.activityStep data) :=
  guarded_lalmLaw hs (completeHost_lalmLaw hs _ _)

theorem partialStep_lalmLaw {s : State} (hs : lalmLaw s) (be : BitVec 4) (data : Word) :
    lalmLaw (s.partialStep be data) :=
  guarded_lalmLaw hs (completeHost_lalmLaw hs _ _)

/-- A request taken reaches the line alarms through the windows it matches (R119, R166). -/
theorem takeRequest_lalmLaw {s : State} (hs : lalmLaw s) (a : Access) : lalmLaw (s.takeRequest a) := by
  have emptied : AlarmsKept s (s.modMp fun m => { m with completion := none }) := alarmsKept_of_frame (by simp)
  have reported (t : State) : AlarmsKept t (t.reportSuppression a.addr) := alarmsKept_of_frame (by simp)
  have answered (t : State) : AlarmsKept t (t.completeUp false none) := alarmsKept_of_frame (by simp)
  have placed (t : State) : AlarmsKept t (t.placeRequest a) := alarmsKept_of_frame (by simp)
  simp only [State.takeRequest]
  split
  · exact (answered _).lalmLaw (matchAll_lalmLaw ((emptied.trans (reported _)).lalmLaw hs) _ _)
  · exact (placed _).lalmLaw (matchAll_lalmLaw (emptied.lalmLaw hs) _ _)

/-! ## The Delivery Engine (R79 to R94) -/

/-- What the Watch Unit and the Command Unit tell of an arming, in either order (R101, R121, R156). -/
theorem armingReports_alarmsKept (s : State) (first : Bool) (tag : Byte) :
    AlarmsKept s
      (if s.armingSuppresses then
        if first then (s.usedFree.rewriteOwned).armingApplied tag else (s.usedFree.armingApplied tag).rewriteOwned
      else s.armingApplied tag) := by
  have rewritten (t : State) : AlarmsKept t t.rewriteOwned := by
    simp only [State.rewriteOwned]
    (repeat' split) <;> exact alarmsKept_of_frame (by simp)
  have applied (t : State) : AlarmsKept t (t.armingApplied tag) :=
    (raise_alarmsKept _ _ _ _).trans (appliedTo_alarmsKept _ _)
  have free : AlarmsKept s s.usedFree := alarmsKept_of_frame (by simp)
  split
  · split
    · exact (free.trans (rewritten _)).trans (applied _)
    · exact (free.trans (applied _)).trans (rewritten _)
  · exact applied s

/-- An arming leaves the lines and the attendance (R79, R121). -/
theorem takeArming_alarmsKept (s : State) : AlarmsKept s s.takeArming := by
  have tested (t : State) : AlarmsKept t t.releaseHeld.retestRead := alarmsKept_of_frame (by simp)
  simp only [State.takeArming]
  split
  · exact .refl s
  · split
    · exact .refl s
    · refine AlarmsKept.trans ?_ (tested _)
      refine AlarmsKept.trans ?_ (armingReports_alarmsKept _ s.eitherFirst _)
      exact alarmsKept_of_frame (by simp)

theorem beginWork_alarmsKept (s : State) (w : DeWork) : AlarmsKept s (s.beginWork w) := alarmsKept_of_frame (by simp)

theorem arbitrate_alarmsKept (s : State) : AlarmsKept s s.arbitrate := alarmsKept_of_frame (by simp)

end Sys2Proof.Machine
end

