-- ==== Sys2Proof/Proofs/StepKeepsLalmLaw.lean ====
section
/-! PROOF of O53. The line alarm law through every action, command and step. -/

namespace Sys2Proof.Machine

/-! ## Power-on reset (R27, R72, R133) -/

/-- The part at PORn release has no term of a line alarm, and every LALMn deasserted. -/
theorem powerOn_lalmLaw (pins : Pins) (base : Byte) (free : Nat) (pending : List Instr) :
    lalmLaw (State.powerOn pins base free pending) := by
  intro l
  have gzu : (State.powerOn pins base free pending).gzu l = Gzu.reset := by simp [State.gzu, State.powerOn, Line.reset]
  have state : ((State.powerOn pins base free pending).ls l).state = .off := by
    simp [State.ls, State.powerOn, Line.reset, Sequencer.reset]
  have attendance : (State.powerOn pins base free pending).wu.attendance = .attended := rfl
  have clear (z : Fin 4) : (Gzu.reset.zones[z]).state = .clear := by simp [Gzu.reset]
  unfold alarmed
  rw [gzu, state, attendance]
  simp only [clear]
  simp [Gzu.reset]

/-! ## Bus reset, the sample link (R29, R33, R131, R132) -/

theorem assertBrst_alarmsKept (s : State) : AlarmsKept s s.assertBrst := alarmsKept_of_frame (by simp)

theorem releaseBrst_alarmsKept (s : State) : AlarmsKept s s.releaseBrst := alarmsKept_of_frame (by simp)

/-- An operation that leaves line state, GZU, Command Unit and attendance leaves what the law reads. -/
theorem alarmsKept_of_sru {s t : State}
    (h : (∀ l : LineId, t.lines[l.val].ls = s.lines[l.val].ls) ∧ (∀ l : LineId, t.lines[l.val].gzu = s.lines[l.val].gzu)
      ∧ t.cu = s.cu ∧ t.wu = s.wu) : AlarmsKept s t := fun l => by
  obtain ⟨sequencer, gzu, cu, wu⟩ := h
  exact ⟨gzu l, congrArg Sequencer.state (sequencer l), by simp only [State.liveLine, State.copies, cu], by rw [wu]⟩

theorem frameEnds_alarmsKept (s : State) (l : LineId) (bits : List Bool) : AlarmsKept s (s.frameEnds l bits) :=
  alarmsKept_of_sru (by simp)

theorem silenceBegins_alarmsKept (s : State) (l : LineId) : AlarmsKept s (s.silenceBegins l) :=
  alarmsKept_of_sru (by simp)

theorem receiverIdle_alarmsKept (s : State) (l : LineId) : AlarmsKept s (s.receiverIdle l) := modSru_alarmsKept s l _

/-! ## Completions of the engine's accesses (R81, R82, R87, R89 to R91) -/

theorem completeDiscarded_alarmsKept (s : State) : AlarmsKept s s.completeDiscarded := alarmsKept_of_frame (by simp)

theorem endIndexReset_alarmsKept (s : State) (err : Bool) : AlarmsKept s (s.endIndexReset err) :=
  alarmsKept_of_frame (by simp)

theorem endRecordWord_alarmsKept (s : State) (err : Bool) : AlarmsKept s (s.endRecordWord err) :=
  alarmsKept_of_frame (by simp)

theorem endWWord_alarmsKept (s : State) (err : Bool) : AlarmsKept s (s.endWWord err) := alarmsKept_of_frame (by simp)

theorem endStatus_alarmsKept (s : State) (err : Bool) : AlarmsKept s (s.endStatus err) := alarmsKept_of_frame (by simp)

theorem endRefresh_alarmsKept (s : State) (err : Bool) : AlarmsKept s (s.endRefresh err) :=
  alarmsKept_of_frame (by simp)

/-- The end of a page touches of the Command Unit the initial pages still to be written alone (R162). -/
theorem endPageWord_alarmsKept (s : State) (err : Bool) : AlarmsKept s (s.endPageWord err) := by
  simp only [State.endPageWord]
  (repeat' split) <;> exact alarmsKept_of_frame (by simp)

/-- The end of a load read can reach the staged copies alone (R161). -/
theorem endLoadRead_alarmsKept (s : State) (err : Bool) (data : Word) : AlarmsKept s (s.endLoadRead err data) := by
  have freed : AlarmsKept s s.freePort := alarmsKept_of_frame (by simp)
  simp only [State.endLoadRead]
  split
  · exact freed.trans (loadRead_alarmsKept _ _ _ _)
  · exact .refl s

/-! ## The rows of a grant at a FREE port (log 6) -/

theorem startIndexReset_alarmsKept (s : State) : AlarmsKept s s.startIndexReset := alarmsKept_of_frame (by simp)

theorem startRecord_alarmsKept (s : State) : AlarmsKept s s.startRecord := alarmsKept_of_frame (by simp)

theorem startPage_alarmsKept (s : State) : AlarmsKept s s.startPage := alarmsKept_of_frame (by simp)

theorem startStatus_alarmsKept (s : State) : AlarmsKept s s.startStatus := alarmsKept_of_frame (by simp)

theorem startRefresh_alarmsKept (s : State) : AlarmsKept s s.startRefresh := by
  simp only [State.startRefresh]
  split
  · split
    · exact beginWork_alarmsKept s _
    · exact .refl s
  · exact .refl s

theorem startLoadRead_alarmsKept (s : State) : AlarmsKept s s.startLoadRead := alarmsKept_of_frame (by simp)

/-! ## Actions: what came first, the effect, the pages changed, the grant (R79, R88, R130) -/

theorem markChanged_alarmsKept (s t : State) : AlarmsKept t (s.markChanged t) := alarmsKept_of_frame (by simp)

theorem armed_alarmsKept (s : State) : AlarmsKept s s.armed := by
  simp only [State.armed]
  split
  · exact ((takeArming_alarmsKept s).trans (markChanged_alarmsKept s _)).trans (alarmsKept_of_frame ⟨rfl, rfl, rfl⟩)
  · exact .refl s

theorem claimed_alarmsKept (s : State) : AlarmsKept s s.claimed := by
  simp only [State.claimed]
  split
  · exact armed_alarmsKept s
  · exact (armed_alarmsKept s).trans (arbitrate_alarmsKept _)

theorem grantFreed_alarmsKept (s u : State) : AlarmsKept u (s.grantFreed u) := by
  simp only [State.grantFreed]
  split
  · exact arbitrate_alarmsKept u
  · exact .refl u

/-- An outcome whose next state, if it has one, meets the law. -/
def nextMeetsLalmLaw (o : Host.Outcome State Fault Refusal) : Prop := ∀ t, o = .next t → lalmLaw t

theorem nextMeetsLalmLaw_of {t : State} (h : lalmLaw t) : nextMeetsLalmLaw (.next t) := fun _ e => by cases e; exact h

section
variable {s : State} {f : State → State}

/-- An action keeps the law when its effect does. -/
theorem act_lalmLaw (hs : lalmLaw s) (hf : ∀ u, lalmLaw u → lalmLaw (f u)) : nextMeetsLalmLaw (s.act f) := by
  refine nextMeetsLalmLaw_of ?_
  split
  · exact hs
  · exact ((markChanged_alarmsKept _ _).trans (grantFreed_alarmsKept _ _)).lalmLaw
      (hf _ ((claimed_alarmsKept s).lalmLaw hs))

theorem act_lalmLaw_of_alarmsKept (hs : lalmLaw s) (hf : ∀ u, AlarmsKept u (f u)) : nextMeetsLalmLaw (s.act f) :=
  act_lalmLaw hs fun u => (hf u).lalmLaw

theorem actClaim_lalmLaw (hs : lalmLaw s) (hf : ∀ u, lalmLaw u → lalmLaw (f u)) : nextMeetsLalmLaw (s.actClaim f) := by
  refine nextMeetsLalmLaw_of ?_
  split
  · exact hs
  · exact ((markChanged_alarmsKept _ _).trans (arbitrate_alarmsKept _)).lalmLaw
      (hf _ ((claimed_alarmsKept s).lalmLaw hs))

theorem actStart_lalmLaw (hs : lalmLaw s) (hf : ∀ u, AlarmsKept u (f u)) : nextMeetsLalmLaw (s.actStart f) := by
  refine nextMeetsLalmLaw_of ?_
  split
  · exact hs
  · exact ((armed_alarmsKept s).trans (hf _)).lalmLaw hs

theorem actArming_lalmLaw (hs : lalmLaw s) : nextMeetsLalmLaw s.actArming := by
  refine nextMeetsLalmLaw_of ?_
  split
  · exact hs
  · exact (((takeArming_alarmsKept s).trans (markChanged_alarmsKept s _)).trans (arbitrate_alarmsKept _)).lalmLaw hs

theorem actPins_lalmLaw (pins : Pins) (hs : lalmLaw s) (hf : ∀ u, lalmLaw u → lalmLaw (f u)) :
    nextMeetsLalmLaw (s.actPins pins f) := by
  simp only [State.actPins]
  split
  · exact nextMeetsLalmLaw_of ((newPins_alarmsKept s pins).lalmLaw hs)
  · exact act_lalmLaw hs hf

end

/-! ## Every command and every step -/

/-- Every command keeps the law, as its effect does (`:` reads the effect off the lemma, before the row is unfolded). -/
theorem exec_lalmLaw (c : Instr) {s : State} (hs : lalmLaw s) : nextMeetsLalmLaw (exec c s) := by
  cases c with
  | powerOnResetAssert => exact nextMeetsLalmLaw_of (powerOn_lalmLaw _ _ _ _)
  | powerOnResetRelease gaBase trips =>
    refine nextMeetsLalmLaw_of ?_
    split
    · exact powerOn_lalmLaw _ _ _ _
    · exact hs
  | busResetAssert => exact (actPins_lalmLaw _ hs fun u => (assertBrst_alarmsKept u).lalmLaw :)
  | busResetRelease => exact (actPins_lalmLaw _ hs fun u => (releaseBrst_alarmsKept u).lalmLaw :)
  | millisecondAdvance => exact (act_lalmLaw hs fun _ hu => advanceMs_lalmLaw hu :)
  | phaseEnd line coilLo =>
    exact (act_lalmLaw hs fun u hu => endPhase_lalmLaw ((newPins_alarmsKept u _).lalmLaw hu) line coilLo :)
  | shutdownHoldEnd line => exact (act_lalmLaw hs fun _ hu => endHold_lalmLaw hu line :)
  | coilHiAssert line => exact (actPins_lalmLaw _ hs fun _ hu => setCoilHi_lalmLaw hu line true :)
  | coilHiDeassert line => exact (actPins_lalmLaw _ hs fun _ hu => setCoilHi_lalmLaw hu line false :)
  | tripPinChange line level => exact (actPins_lalmLaw _ hs fun _ hu => setTrip_lalmLaw hu line level :)
  | tripDebounceComplete line => exact (act_lalmLaw hs fun _ hu => completeDebounce_lalmLaw hu line :)
  | restartDelayExpiry line => exact (act_lalmLaw hs fun _ hu => autoRestart_lalmLaw hu line :)
  | frameArrival line bits => exact (act_lalmLaw_of_alarmsKept hs fun u => frameEnds_alarmsKept u line bits :)
  | silenceTimerExpiry line =>
    simp only [exec, execSilenceTimerExpiry]
    exact act_lalmLaw hs fun u hu => guarded_lalmLaw hu ((silenceBegins_alarmsKept u line).lalmLaw hu)
  | windowExpiry window =>
    simp only [exec, execWindowExpiry]
    exact act_lalmLaw hs fun _ hu => guarded_lalmLaw hu (expireAll_lalmLaw hu _)
  | hostRequestTaken addr write be data =>
    simp only [exec, execHostRequestTaken]
    exact actClaim_lalmLaw hs fun _ hu => guarded_lalmLaw hu (takeRequest_lalmLaw hu _)
  | hostForwardedCompletion err data => exact (act_lalmLaw hs fun _ hu => completeHost_lalmLaw hu err data :)
  | capturedWrite offset be data => exact (act_lalmLaw hs fun _ hu => capturedStep_lalmLaw hu offset be data :)
  | rdCapture ring data => exact (act_lalmLaw hs fun _ hu => rdStep_lalmLaw hu ring data :)
  | activitySummaryRead data => exact (act_lalmLaw hs fun _ hu => activityStep_lalmLaw hu data :)
  | discardedAccessCompletion err data => exact (act_lalmLaw_of_alarmsKept hs completeDiscarded_alarmsKept :)
  | commitLine tag operand => exact (act_lalmLaw hs fun _ hu => commandStep_lalmLaw hu tag 1 operand :)
  | commitCal tag operand => exact (act_lalmLaw hs fun _ hu => commandStep_lalmLaw hu tag 2 operand :)
  | commitWindows tag operand => exact (act_lalmLaw hs fun _ hu => commandStep_lalmLaw hu tag 3 operand :)
  | commitDelivery tag operand => exact (act_lalmLaw hs fun _ hu => commandStep_lalmLaw hu tag 4 operand :)
  | load tag operand => exact (act_lalmLaw hs fun _ hu => commandStep_lalmLaw hu tag 5 operand :)
  | start tag operand => exact (act_lalmLaw hs fun _ hu => commandStep_lalmLaw hu tag 6 operand :)
  | stop tag operand => exact (act_lalmLaw hs fun _ hu => commandStep_lalmLaw hu tag 7 operand :)
  | halt tag operand => exact (act_lalmLaw hs fun _ hu => commandStep_lalmLaw hu tag 8 operand :)
  | restart tag operand => exact (act_lalmLaw hs fun _ hu => commandStep_lalmLaw hu tag 9 operand :)
  | clearTotal tag operand => exact (act_lalmLaw hs fun _ hu => commandStep_lalmLaw hu tag 10 operand :)
  | freeze tag operand => exact (act_lalmLaw hs fun _ hu => commandStep_lalmLaw hu tag 11 operand :)
  | unknownCommand tag code operand =>
    simp only [exec, execUnknownCommand]
    refine act_lalmLaw hs fun u hu => ?_
    split
    · exact hu
    · exact commandStep_lalmLaw hu tag code operand
  | partialCommandWrite be data => exact (act_lalmLaw hs fun _ hu => partialStep_lalmLaw hu be data :)
  | armingTakesEffect =>
    simp only [exec, execArmingTakesEffect]
    split
    · exact actArming_lalmLaw hs
    · exact act_lalmLaw_of_alarmsKept hs .refl
  | indexResetWrite => exact (actStart_lalmLaw hs startIndexReset_alarmsKept :)
  | indexResetWriteComplete err => exact (act_lalmLaw_of_alarmsKept hs fun u => endIndexReset_alarmsKept u err :)
  | recordStart => exact (actStart_lalmLaw hs startRecord_alarmsKept :)
  | recordWordComplete err => exact (act_lalmLaw_of_alarmsKept hs fun u => endRecordWord_alarmsKept u err :)
  | wWordWriteComplete err => exact (act_lalmLaw_of_alarmsKept hs fun u => endWWord_alarmsKept u err :)
  | pageWriteStart => exact (actStart_lalmLaw hs startPage_alarmsKept :)
  | pageWordComplete err => exact (act_lalmLaw_of_alarmsKept hs fun u => endPageWord_alarmsKept u err :)
  | commandStatusWrite => exact (actStart_lalmLaw hs startStatus_alarmsKept :)
  | commandStatusWriteComplete err => exact (act_lalmLaw_of_alarmsKept hs fun u => endStatus_alarmsKept u err :)
  | freshWordRefresh => exact (actStart_lalmLaw hs startRefresh_alarmsKept :)
  | freshWordRefreshComplete err => exact (act_lalmLaw_of_alarmsKept hs fun u => endRefresh_alarmsKept u err :)
  | loadRead => exact (actStart_lalmLaw hs startLoadRead_alarmsKept :)
  | loadReadComplete err data => exact (act_lalmLaw_of_alarmsKept hs fun u => endLoadRead_alarmsKept u err data :)
  | linkWaitIdleExit line =>
    simp only [exec, execLinkWaitIdleExit]
    exact act_lalmLaw hs fun u hu => guarded_lalmLaw hu ((receiverIdle_alarmsKept u line).lalmLaw hu)

/-- A tick counts, and moves nothing a line alarm reads. -/
theorem tick_alarmsKept (s : State) : AlarmsKept s s.tick := fun l =>
  ⟨by simp [State.gzu, State.tick, Line.tick], by simp [State.ls, State.tick, Line.tick, Sequencer.tick], rfl, rfl⟩

/-- What the part does by itself (log 2). -/
theorem idle_lalmLaw {s : State} (hs : lalmLaw s) : nextMeetsLalmLaw (idle s) := by
  simp only [idle]
  split
  · exact nextMeetsLalmLaw_of hs
  · split
    · exact exec_lalmLaw _ hs
    · split
      · exact nextMeetsLalmLaw_of ((arbitrate_alarmsKept s).lalmLaw hs)
      · exact nextMeetsLalmLaw_of ((tick_alarmsKept s).lalmLaw hs)

theorem step_lalmLaw {s : State} (hs : lalmLaw s) : nextMeetsLalmLaw (step s) := by
  have taken (rest : List Instr) : AlarmsKept s { s with pending := rest } := alarmsKept_of_frame (by simp)
  simp only [step]
  split
  · exact exec_lalmLaw _ ((taken _).lalmLaw hs)
  · exact idle_lalmLaw hs

/-- Every line section is the default one at reset (R143). -/
theorem reset_liveLine (l : LineId) : State.reset.liveLine l = defaultLine := by
  simp [State.liveLine, State.copies, State.reset, State.powerOn, Cu.reset, LineCopies.reset]

/-- The default line section sets both alarm settings, and has no alarm zone (R68, Table 10-1). -/
theorem defaultLine_alarms : alarmOnShutdown defaultLine = true ∧ alarmOnUnattended defaultLine = true
    ∧ ∀ z : Fin 4, (zoneDef defaultLine z.val).alarm = false := by decide +kernel

/-- Settles O53: each command restores the law by a re-evaluation of LALMn, or leaves what the law reads. -/
theorem stepKeepsLalmLaw : Obligations.StepKeepsLalmLaw := by
  refine ⟨fun s t hs h => step_lalmLaw hs t h, fun l => ?_⟩
  rw [reset_liveLine]
  exact defaultLine_alarms

end Sys2Proof.Machine
end

