-- ==== Sys2Proof/Proofs/WatchView.lean ====
section
/-! SUPPORT for O54. What the attendance law reads of a state, what re-establishes the law, and what leaves its view
alone (R171, R172). -/

namespace Sys2Proof.Machine

/-! ## What the law reads (R171) -/

/-- What the attendance law reads: the attendance, the state of each window, the live window section. -/
structure WatchView where
  attendance : Attendance
  state : WindowId → WindowState
  live : Bytes

def State.watchView (s : State) : WatchView :=
  { attendance := s.wu.attendance, state := fun w => (s.window w).state, live := s.cu.liveWindows }

/-- A state that shows the law what another shows it meets it where the other does. -/
theorem attendanceLaw_of_watchView {s t : State} (h : t.watchView = s.watchView) (hs : attendanceLaw s) :
    attendanceLaw t := by
  obtain ⟨attendance, state, live⟩ := WatchView.mk.inj h
  have holds (w : WindowId) : holdsPart t w ↔ holdsPart s w := by
    simp only [holdsPart, State.windowDef, live, congrFun state w]
  simpa only [attendanceLaw, attendance, holds] using hs

/-- The Watch Unit and the live window section are all that the view rests on. -/
theorem watchView_of_frame {s t : State} (wu : t.wu = s.wu) (live : t.cu.liveWindows = s.cu.liveWindows) :
    t.watchView = s.watchView := by
  simp only [State.watchView, State.window, wu, live]

/-- An effect that only takes place where a condition holds keeps the law when it does. -/
theorem guarded_attendanceLaw {p : Prop} [Decidable p] {t u : State} (hu : attendanceLaw u) (ht : attendanceLaw t) :
    attendanceLaw (if p then t else u) := by
  split
  · exact ht
  · exact hu

/-! ## What re-establishes the law: windows expire, are matched, are committed (R166, R168, R171, R173) -/

/-- The law holds after the attendance has been re-derived, whatever held before. -/
theorem rederiveAttendance_attendanceLaw (s : State) (d : Nat) : attendanceLaw (s.rederiveAttendance d) := by
  obtain ⟨⟨law, -⟩, -⟩ := rederiveAttendance_spec (s := s) (d := d) rfl
  exact law

theorem expireAll_attendanceLaw (s : State) (ws : List WindowId) : attendanceLaw (s.expireAll ws) :=
  rederiveAttendance_attendanceLaw _ _

theorem advanceMs_attendanceLaw (s : State) : attendanceLaw s.advanceMs := expireAll_attendanceLaw _ _

theorem matchAll_attendanceLaw (s : State) (addr : Nat) (write : Bool) : attendanceLaw (s.matchAll addr write) :=
  rederiveAttendance_attendanceLaw _ _

theorem applyWindows_attendanceLaw (s : State) (old : Bytes) (held : List WindowId) :
    attendanceLaw (s.applyWindows old held) :=
  rederiveAttendance_attendanceLaw _ _

theorem raise_watchView (s : State) (k : Kind) (src : Source) (d : Nat) : (s.raise k src d).watchView = s.watchView :=
  watchView_of_frame (by simp) (by simp)

/-- The window section becomes live, and the windows are treated by it, before or after the notice of the Command Unit
(R101, R155, R173). -/
theorem windowsLive_attendanceLaw (s : State) (tag : Byte) : attendanceLaw (s.windowsLive tag) := by
  simp only [State.windowsLive]
  split
  · split
    · exact applyWindows_attendanceLaw _ _ _
    · exact attendanceLaw_of_watchView (raise_watchView _ _ _ _) (applyWindows_attendanceLaw _ _ _)
  · exact attendanceLaw_of_watchView (raise_watchView _ _ _ _) (applyWindows_attendanceLaw _ _ _)

theorem completeUp_watchView (s : State) (err : Bool) (data : Option Word) :
    (s.completeUp err data).watchView = s.watchView :=
  watchView_of_frame rfl rfl

/-- Every request taken is matched against the windows, suppressed or not (R119, R166). -/
theorem takeRequest_attendanceLaw (s : State) (a : Access) : attendanceLaw (s.takeRequest a) := by
  have placed (t : State) : (t.placeRequest a).watchView = t.watchView := watchView_of_frame (by simp) (by simp)
  simp only [State.takeRequest]
  split
  · exact attendanceLaw_of_watchView (completeUp_watchView _ _ _) (matchAll_attendanceLaw _ _ _)
  · exact attendanceLaw_of_watchView (placed _) (matchAll_attendanceLaw _ _ _)

/-! ## What changes of the Watch Unit other items than the law reads (R128, R138, R167, R170) -/

theorem reportSuppression_watchView (s : State) (addr : Addr) :
    (s.reportSuppression addr).watchView = s.watchView := by
  obtain ⟨-, -, windows, -⟩ := reportSuppression_spec s addr
  have state (w : WindowId) : ((s.reportSuppression addr).window w).state = (s.window w).state := by rw [windows w]
  simp only [State.watchView, state, reportSuppression_parts, reportSuppression_frame]

theorem clearMatched_watchView (s : State) : s.clearMatched.watchView = s.watchView := by
  simp [State.watchView, State.clearMatched, State.window]

theorem clearReported_watchView (s : State) (v : Byte) : (s.clearReported v).watchView = s.watchView := by
  have state (w : WindowId) : ((s.clearReported v).window w).state = (s.window w).state := by
    simp only [State.clearReported, State.window, modWu_wu, Fin.getElem_fin, Vector.getElem_ofFn]
    split <;> rfl
  simp only [State.watchView, state]
  rfl

theorem afterFreshRead_watchView (s : State) (r : Request) : (s.afterFreshRead r).watchView = s.watchView := by
  simp only [State.afterFreshRead]
  split
  · exact clearReported_watchView s _
  · rfl

/-! ## The grant of the port and the arming (R79, R121, R130) -/

/-- Of what the engine begins, a refresh of the activity summary alone reaches the Watch Unit, and clears its matched
marks (R90, R167). -/
theorem beginWork_watchView (s : State) (w : DeWork) : (s.beginWork w).watchView = s.watchView := by
  cases w with
  | fresh f =>
    cases f with
    | milliseconds => exact watchView_of_frame rfl rfl
    | activity => exact (clearMatched_watchView _).trans (watchView_of_frame rfl rfl)
  | flightWord | indexReset r | commandStatus | loadRead off | notice e | profile l g | page p =>
    exact watchView_of_frame (by simp [State.beginWork]) (by simp)

theorem grantDe_watchView (s : State) : s.grantDe.watchView = s.watchView := by
  simp only [State.grantDe]
  split
  · exact beginWork_watchView s _
  · rfl

theorem arbitrate_watchView (s : State) : s.arbitrate.watchView = s.watchView := by
  have host (n : Nat) : (s.grantHost n).watchView = s.watchView := watchView_of_frame (by simp) (by simp)
  simp only [State.arbitrate]
  split
  · split
    · rfl
    · split
      · exact host _
      · split
        · exact host _
        · exact grantDe_watchView s
      · exact grantDe_watchView s
      · rfl
  · rfl
  · rfl

theorem rewriteOwned_watchView (s : State) : s.rewriteOwned.watchView = s.watchView := by
  simp only [State.rewriteOwned]
  split
  · split
    · exact (completeUp_watchView _ _ _).trans (reportSuppression_watchView s _)
    · rfl
  · rfl

theorem armingApplied_watchView (s : State) (tag : Byte) : (s.armingApplied tag).watchView = s.watchView :=
  watchView_of_frame (by simp) (by simp [State.armingApplied])

/-- An arming reaches the Watch Unit by the report of a write that it suppresses (R79, R121). -/
theorem takeArming_watchView (s : State) : s.takeArming.watchView = s.watchView := by
  have tested (t : State) : t.releaseHeld.retestRead.watchView = t.watchView := watchView_of_frame (by simp) (by simp)
  have noticed (t : State) (b : Bytes) (d : RingDesc) : (t.armNotices b d).reevalAttn.watchView = t.watchView :=
    watchView_of_frame (by simp) (by simp)
  have free (t : State) : t.usedFree.watchView = t.watchView := rfl
  simp only [State.takeArming]
  split
  · rfl
  · split
    · rfl
    · generalize hs3 : State.reevalAttn _ = s3
      have told : s3.watchView = s.watchView := by rw [← hs3, noticed]; rfl
      rw [tested]
      split
      · split
        · rw [armingApplied_watchView, rewriteOwned_watchView, free, told]
        · rw [rewriteOwned_watchView, armingApplied_watchView, free, told]
      · rw [armingApplied_watchView, told]

end Sys2Proof.Machine
end

