-- ==== Sys2Proof/Proofs/StepKeepsAttendanceLaw.lean ====
section
/-! PROOF of O54. The attendance law through every action, command and step. -/

namespace Sys2Proof.Machine

/-! ## Commands of the command slot and completions of host accesses (R123, R148) -/

/-- Of the commands COMMIT_WINDOWS alone reaches what the law reads, and re-establishes it (Table 8-1). -/
theorem runCommand_attendanceLaw {s : State} (hs : attendanceLaw s) (tag code operand : Byte) :
    attendanceLaw (s.runCommand tag code operand).1 := by
  have windows : attendanceLaw (s.commitWindows tag).1 := by
    simp only [State.commitWindows]
    split
    · exact hs
    · exact attendanceLaw_of_watchView (watchView_of_frame rfl rfl) (windowsLive_attendanceLaw s tag)
  simp only [State.runCommand]
  split
  case h_3 => exact windows
  case h_12 => exact hs
  all_goals exact attendanceLaw_of_watchView (watchView_of_frame (by simp [answered]) (by simp [answered])) hs

theorem takeCommandWrite_attendanceLaw {s : State} (hs : attendanceLaw s) (be : BitVec 4) (data : Word) :
    attendanceLaw (s.takeCommandWrite be data) := by
  have recorded (t : State) (tag code : Byte) (r : Reply) : (t.setRecord tag code r).watchView = t.watchView :=
    watchView_of_frame (by simp) (by simp)
  simp only [State.takeCommandWrite, State.takeCommand, State.takePartial]
  split
  · split
    · exact attendanceLaw_of_watchView (recorded _ _ _ _) hs
    · exact attendanceLaw_of_watchView (recorded _ _ _ _) (runCommand_attendanceLaw hs _ _ _)
  · exact attendanceLaw_of_watchView (recorded _ _ _ _) hs

/-- Of what a write hands over, a command alone can reach what the law reads (R123). -/
theorem handOver_attendanceLaw {s : State} (hs : attendanceLaw s) (r : Request) : attendanceLaw (s.handOver r) := by
  simp only [State.handOver]
  split
  case h_1 => exact hs
  case h_2 =>
    split
    · exact attendanceLaw_of_watchView (watchView_of_frame (by simp) (by simp)) hs
    · exact hs
  case h_3 => exact takeCommandWrite_attendanceLaw hs _ _
  case h_4 =>
    exact guarded_attendanceLaw hs (attendanceLaw_of_watchView (watchView_of_frame (by simp) (by simp)) hs)

theorem completeHost_attendanceLaw {s : State} (hs : attendanceLaw s) (err : Bool) (data : Word) :
    attendanceLaw (s.completeHost err data) := by
  have ended (t : State) (d : Option Word) : (t.freePort.completeUp err d).watchView = t.watchView :=
    watchView_of_frame rfl rfl
  simp only [State.completeHost]
  split
  · rename_i r _ _
    have handed : attendanceLaw (if r.access.write = true ∧ (!err) = true then s.handOver r else s) :=
      guarded_attendanceLaw hs (handOver_attendanceLaw hs r)
    refine guarded_attendanceLaw hs (guarded_attendanceLaw ?_ ?_)
    · exact attendanceLaw_of_watchView ((afterFreshRead_watchView _ r).trans (ended _ _)) handed
    · exact attendanceLaw_of_watchView (ended _ _) handed
  · exact hs

theorem commandStep_attendanceLaw {s : State} (hs : attendanceLaw s) (tag code operand : Byte) :
    attendanceLaw (s.commandStep tag code operand) :=
  guarded_attendanceLaw hs (completeHost_attendanceLaw hs _ _)

theorem capturedStep_attendanceLaw {s : State} (hs : attendanceLaw s) (off : Half) (be : BitVec 4) (data : Word) :
    attendanceLaw (s.capturedStep off be data) := by
  simp only [State.capturedStep]
  split
  · split
    case h_1 => exact guarded_attendanceLaw hs (completeHost_attendanceLaw hs _ _)
    all_goals exact hs
  · exact hs

/-! ## Actions: what came first, the effect, the pages changed, the grant (R79, R88, R130) -/

theorem markChanged_watchView (s t : State) : (s.markChanged t).watchView = t.watchView := watchView_of_frame rfl rfl

theorem armed_watchView (s : State) : s.armed.watchView = s.watchView := by
  simp only [State.armed]
  split
  · exact takeArming_watchView s
  · rfl

theorem claimed_watchView (s : State) : s.claimed.watchView = s.watchView := by
  simp only [State.claimed]
  split
  · exact armed_watchView s
  · exact (arbitrate_watchView _).trans (armed_watchView s)

theorem grantFreed_watchView (s u : State) : (s.grantFreed u).watchView = u.watchView := by
  simp only [State.grantFreed]
  split
  · exact arbitrate_watchView u
  · rfl

/-- An outcome whose next state, if it has one, meets the law. -/
def nextMeetsAttendanceLaw (o : Host.Outcome State Fault Refusal) : Prop := ∀ t, o = .next t → attendanceLaw t

theorem nextMeetsAttendanceLaw_of {t : State} (h : attendanceLaw t) : nextMeetsAttendanceLaw (.next t) :=
  fun _ e => by cases e; exact h

section
variable {s : State} {f : State → State}

/-- An action keeps the law when its effect does. -/
theorem act_attendanceLaw (hs : attendanceLaw s) (hf : ∀ u, attendanceLaw u → attendanceLaw (f u)) :
    nextMeetsAttendanceLaw (s.act f) := by
  refine nextMeetsAttendanceLaw_of ?_
  split
  · exact hs
  · exact attendanceLaw_of_watchView ((grantFreed_watchView _ _).trans (markChanged_watchView _ _))
      (hf _ (attendanceLaw_of_watchView (claimed_watchView s) hs))

theorem act_attendanceLaw_of_watchView (hs : attendanceLaw s) (hf : ∀ u, (f u).watchView = u.watchView) :
    nextMeetsAttendanceLaw (s.act f) :=
  act_attendanceLaw hs fun u => attendanceLaw_of_watchView (hf u)

theorem actClaim_attendanceLaw (hs : attendanceLaw s) (hf : ∀ u, attendanceLaw u → attendanceLaw (f u)) :
    nextMeetsAttendanceLaw (s.actClaim f) := by
  refine nextMeetsAttendanceLaw_of ?_
  split
  · exact hs
  · exact attendanceLaw_of_watchView ((arbitrate_watchView _).trans (markChanged_watchView _ _))
      (hf _ (attendanceLaw_of_watchView (claimed_watchView s) hs))

theorem actStart_attendanceLaw (hs : attendanceLaw s) (hf : ∀ u, (f u).watchView = u.watchView) :
    nextMeetsAttendanceLaw (s.actStart f) := by
  refine nextMeetsAttendanceLaw_of ?_
  split
  · exact hs
  · exact attendanceLaw_of_watchView ((hf _).trans (armed_watchView s)) hs

theorem actArming_attendanceLaw (hs : attendanceLaw s) : nextMeetsAttendanceLaw s.actArming := by
  refine nextMeetsAttendanceLaw_of ?_
  split
  · exact hs
  · exact attendanceLaw_of_watchView
      ((arbitrate_watchView _).trans ((markChanged_watchView _ _).trans (takeArming_watchView s))) hs

theorem actPins_attendanceLaw (pins : Pins) (hs : attendanceLaw s) (hf : ∀ u, (f u).watchView = u.watchView) :
    nextMeetsAttendanceLaw (s.actPins pins f) := by
  simp only [State.actPins]
  split
  · exact nextMeetsAttendanceLaw_of (attendanceLaw_of_watchView (watchView_of_frame rfl rfl) hs)
  · exact act_attendanceLaw_of_watchView hs hf

end

/-! ## The rows of a grant at a FREE port (log 6) -/

/-- A row that names the work the engine has next begins that work, or does nothing (R86). -/
theorem begins_watchView (s : State) (p : Prop) [Decidable p] (w : DeWork) :
    (if p then s.beginWork w else s).watchView = s.watchView := by
  split
  · exact beginWork_watchView s w
  · rfl

theorem startIndexReset_watchView (s : State) : s.startIndexReset.watchView = s.watchView := by
  simp only [State.startIndexReset]
  split
  · exact begins_watchView s _ _
  · rfl

theorem startRecord_watchView (s : State) : s.startRecord.watchView = s.watchView := by
  simp only [State.startRecord]
  split
  · exact begins_watchView s _ _
  · exact begins_watchView s _ _
  · rfl

theorem startPage_watchView (s : State) : s.startPage.watchView = s.watchView := by
  simp only [State.startPage]
  split
  · exact begins_watchView s _ _
  · rfl

theorem startStatus_watchView (s : State) : s.startStatus.watchView = s.watchView := begins_watchView s _ _

theorem startRefresh_watchView (s : State) : s.startRefresh.watchView = s.watchView := by
  simp only [State.startRefresh]
  split
  · exact begins_watchView s _ _
  · rfl

theorem startLoadRead_watchView (s : State) : s.startLoadRead.watchView = s.watchView := by
  simp only [State.startLoadRead]
  split
  · exact begins_watchView s _ _
  · rfl

/-! ## The completions that reach the Command Unit (R91, R94, R160, R162) -/

/-- The end of a page touches of the Command Unit the initialization alone (R162). -/
theorem endPageWord_watchView (s : State) (err : Bool) : (s.endPageWord err).watchView = s.watchView := by
  have ended (t : State) (p : PageId) : ((t.pageEnded p).releaseHeld).watchView = t.watchView :=
    watchView_of_frame (by simp) (by simp)
  have faulted (t : State) (p : PageId) : ((t.pageFault p).releaseHeld).watchView = t.watchView := by
    refine (ended _ p).trans ?_
    split <;> exact watchView_of_frame (by simp) (by simp)
  simp only [State.endPageWord]
  split
  · split
    · exact faulted _ _
    · split
      · rfl
      · exact ended _ _
  · rfl

/-- A load read can reach the staged copies, not the live ones (R161). -/
theorem endLoadRead_watchView (s : State) (err : Bool) (data : Word) :
    (s.endLoadRead err data).watchView = s.watchView := by
  simp only [State.endLoadRead]
  split
  · exact watchView_of_frame (by simp) (by simp)
  · rfl

/-! ## Every command and every step -/

/-- At PORn release no window is EXPIRED and the part is ATTENDED (R163, R171). -/
theorem powerOn_attendanceLaw (pins : Pins) (base : Byte) (free : Nat) (pending : List Instr) :
    attendanceLaw (State.powerOn pins base free pending) := by
  refine ⟨fun h => (by cases h), fun ⟨w, _, _, expired⟩ => ?_⟩
  have idle : ((State.powerOn pins base free pending).window w).state = .idle := by
    simp [State.window, State.powerOn, Wu.reset, Window.reset]
  rw [idle] at expired
  cases expired

/-- Every command keeps the law: the rows of windows and of requests re-establish it, a command word may, and every
other row leaves what it reads. -/
theorem exec_attendanceLaw (c : Instr) {s : State} (hs : attendanceLaw s) : nextMeetsAttendanceLaw (exec c s) := by
  cases c with
  | powerOnResetAssert => exact nextMeetsAttendanceLaw_of (powerOn_attendanceLaw _ _ _ _)
  | powerOnResetRelease => exact nextMeetsAttendanceLaw_of (guarded_attendanceLaw hs (powerOn_attendanceLaw _ _ _ _))
  | millisecondAdvance => exact act_attendanceLaw hs fun u _ => advanceMs_attendanceLaw u
  | windowExpiry window =>
    simp only [exec, execWindowExpiry]
    exact act_attendanceLaw hs fun u hu => guarded_attendanceLaw hu (expireAll_attendanceLaw u [window])
  | hostRequestTaken =>
    simp only [exec, execHostRequestTaken]
    exact actClaim_attendanceLaw hs fun u hu => guarded_attendanceLaw hu (takeRequest_attendanceLaw u _)
  | hostForwardedCompletion => exact act_attendanceLaw hs fun _ hu => completeHost_attendanceLaw hu _ _
  | capturedWrite => exact act_attendanceLaw hs fun _ hu => capturedStep_attendanceLaw hu _ _ _
  | rdCapture | activitySummaryRead | partialCommandWrite =>
    simp only [exec, execRdCapture, execActivitySummaryRead, execPartialCommandWrite]
    exact act_attendanceLaw hs fun _ hu => guarded_attendanceLaw hu (completeHost_attendanceLaw hu _ _)
  | commitLine | commitCal | commitWindows | commitDelivery | load | start | stop | halt | restart | clearTotal
  | freeze =>
    simp only [exec, execCommitLine, execCommitCal, execCommitWindows, execCommitDelivery, execLoad, execStart,
      execStop, execHalt, execRestart, execClearTotal, execFreeze]
    exact act_attendanceLaw hs fun _ hu => commandStep_attendanceLaw hu _ _ _
  | unknownCommand =>
    simp only [exec, execUnknownCommand]
    exact act_attendanceLaw hs fun _ hu => guarded_attendanceLaw (commandStep_attendanceLaw hu _ _ _) hu
  | armingTakesEffect =>
    simp only [exec, execArmingTakesEffect]
    split
    · exact actArming_attendanceLaw hs
    · exact act_attendanceLaw_of_watchView hs fun _ => rfl
  | indexResetWrite => exact actStart_attendanceLaw hs startIndexReset_watchView
  | recordStart => exact actStart_attendanceLaw hs startRecord_watchView
  | pageWriteStart => exact actStart_attendanceLaw hs startPage_watchView
  | commandStatusWrite => exact actStart_attendanceLaw hs startStatus_watchView
  | freshWordRefresh => exact actStart_attendanceLaw hs startRefresh_watchView
  | loadRead => exact actStart_attendanceLaw hs startLoadRead_watchView
  | busResetAssert | busResetRelease | coilHiAssert | coilHiDeassert | tripPinChange =>
    simp only [exec, execBusResetAssert, execBusResetRelease, execCoilHiAssert, execCoilHiDeassert, execTripPinChange]
    exact actPins_attendanceLaw _ hs fun _ => watchView_of_frame (by simp) (by simp)
  | phaseEnd | shutdownHoldEnd | tripDebounceComplete | restartDelayExpiry | frameArrival
  | discardedAccessCompletion =>
    simp only [exec, execPhaseEnd, execShutdownHoldEnd, execTripDebounceComplete, execRestartDelayExpiry,
      execFrameArrival, execDiscardedAccessCompletion]
    exact act_attendanceLaw_of_watchView hs fun _ => watchView_of_frame (by simp) (by simp)
  | pageWordComplete => exact act_attendanceLaw_of_watchView hs fun u => endPageWord_watchView u _
  | loadReadComplete => exact act_attendanceLaw_of_watchView hs fun u => endLoadRead_watchView u _ _
  | indexResetWriteComplete | recordWordComplete | wWordWriteComplete | commandStatusWriteComplete
  | freshWordRefreshComplete =>
    simp only [exec, execIndexResetWriteComplete, execRecordWordComplete, execWWordWriteComplete,
      execCommandStatusWriteComplete, execFreshWordRefreshComplete]
    exact act_attendanceLaw_of_watchView hs fun _ => watchView_of_frame (by simp) (by simp)
  | silenceTimerExpiry | linkWaitIdleExit =>
    simp only [exec, execSilenceTimerExpiry, execLinkWaitIdleExit]
    refine act_attendanceLaw hs fun u hu => guarded_attendanceLaw hu ?_
    exact attendanceLaw_of_watchView (watchView_of_frame (by simp) (by simp)) hu

/-- What the part does by itself (log 2). -/
theorem idle_attendanceLaw {s : State} (hs : attendanceLaw s) : nextMeetsAttendanceLaw (idle s) := by
  simp only [idle]
  split
  · exact nextMeetsAttendanceLaw_of hs
  · split
    · exact exec_attendanceLaw _ hs
    · split
      · exact nextMeetsAttendanceLaw_of (attendanceLaw_of_watchView (arbitrate_watchView s) hs)
      · exact nextMeetsAttendanceLaw_of (attendanceLaw_of_watchView (watchView_of_frame rfl rfl) hs)

theorem step_attendanceLaw {s : State} (hs : attendanceLaw s) : nextMeetsAttendanceLaw (step s) := by
  simp only [step]
  split
  · exact exec_attendanceLaw _ (attendanceLaw_of_watchView (watchView_of_frame rfl rfl) hs)
  · exact idle_attendanceLaw hs

/-- Settles O54: whatever changes a window or the live window section ends with the attendance derived anew, and
everything else leaves what the law reads. -/
theorem stepKeepsAttendanceLaw : Obligations.StepKeepsAttendanceLaw :=
  fun _ t hs h => step_attendanceLaw hs t h

end Sys2Proof.Machine
end

