-- ==== Sys2Proof/Proofs/StepRules.lean ====
section
/-! SUPPORT. What a command and a step can do to a state, said once: the effect of each row, the arming and the grant that
come with it, a tick. A property that each of these keeps is kept by every command and by every step. -/

namespace Sys2Proof.Machine

/-! ## The effect of a row -/

/-- The effect of a row that acts on the state left by the arming and the grant that came first. The rows that are
themselves the arming or a grant, and the edges of power-on reset, have none besides. -/
def effectOf : Instr → State → State
  | .powerOnResetAssert | .powerOnResetRelease _ _ => id
  | .busResetAssert => (·.assertBrst)
  | .busResetRelease => (·.releaseBrst)
  | .millisecondAdvance => (·.advanceMs)
  | .phaseEnd l coilLo => fun u => { u with pins := u.pins.withCoilLo l coilLo }.endPhase l coilLo
  | .shutdownHoldEnd l => (·.endHold l)
  | .coilHiAssert l => (·.setCoilHi l true)
  | .coilHiDeassert l => (·.setCoilHi l false)
  | .tripPinChange l level => (·.setTrip l level)
  | .tripDebounceComplete l => (·.completeDebounce l)
  | .restartDelayExpiry l => (·.autoRestart l)
  | .frameArrival l bits => (·.frameEnds l bits)
  | .silenceTimerExpiry l => fun u => if (u.sru l).silenceRuns then u.silenceBegins l else u
  | .windowExpiry w => fun u => if (u.window w).timer.isSome then u.expireAll [w] else u
  | .hostRequestTaken addr write be data => fun u =>
    if u.takesRequests then u.takeRequest { addr := addr, write := write, be := be, data := data } else u
  | .hostForwardedCompletion err data => (·.completeHost err data)
  | .capturedWrite offset be data => (·.capturedStep offset be data)
  | .rdCapture r data => (·.rdStep r data)
  | .activitySummaryRead data => (·.activityStep data)
  | .discardedAccessCompletion _ _ => (·.completeDiscarded)
  | .commitLine tag operand => (·.commandStep tag 1 operand)
  | .commitCal tag operand => (·.commandStep tag 2 operand)
  | .commitWindows tag operand => (·.commandStep tag 3 operand)
  | .commitDelivery tag operand => (·.commandStep tag 4 operand)
  | .load tag operand => (·.commandStep tag 5 operand)
  | .start tag operand => (·.commandStep tag 6 operand)
  | .stop tag operand => (·.commandStep tag 7 operand)
  | .halt tag operand => (·.commandStep tag 8 operand)
  | .restart tag operand => (·.commandStep tag 9 operand)
  | .clearTotal tag operand => (·.commandStep tag 10 operand)
  | .freeze tag operand => (·.commandStep tag 11 operand)
  | .unknownCommand tag code operand => fun u => if knownCode code then u else u.commandStep tag code operand
  | .partialCommandWrite be data => (·.partialStep be data)
  | .armingTakesEffect => id
  | .indexResetWrite | .recordStart | .pageWriteStart | .commandStatusWrite | .freshWordRefresh | .loadRead => id
  | .indexResetWriteComplete err => (·.endIndexReset err)
  | .recordWordComplete err => (·.endRecordWord err)
  | .wWordWriteComplete err => (·.endWWord err)
  | .pageWordComplete err => (·.endPageWord err)
  | .commandStatusWriteComplete err => (·.endStatus err)
  | .freshWordRefreshComplete err => (·.endRefresh err)
  | .loadReadComplete err data => (·.endLoadRead err data)
  | .linkWaitIdleExit l => fun u => if (u.sru l).rx = .waitIdle then u.receiverIdle l else u

/-- The rows that are the completion of a host access (log 5). -/
def completesHost : Instr → Bool
  | .hostForwardedCompletion _ _ | .capturedWrite _ _ _ | .rdCapture _ _ | .activitySummaryRead _ | .commitLine _ _
  | .commitCal _ _ | .commitWindows _ _ | .commitDelivery _ _ | .load _ _ | .start _ _ | .stop _ _ | .halt _ _
  | .restart _ _ | .clearTotal _ _ | .freeze _ _ | .unknownCommand _ _ _ | .partialCommandWrite _ _ => true
  | _ => false

/-- Such a row completes the access it names, or does nothing. -/
theorem effectOf_completes {c : Instr} (h : completesHost c = true) (u : State) :
    effectOf c u = u ∨ ∃ err data, effectOf c u = u.completeHost err data := by
  have guarded (p : Prop) [Decidable p] (err : Bool) (data : Word) :
      (if p then u.completeHost err data else u) = u ∨ ∃ e d, (if p then u.completeHost err data else u) = u.completeHost e d := by
    split
    · exact .inr ⟨err, data, rfl⟩
    · exact .inl rfl
  cases c with
  | hostForwardedCompletion err data => exact .inr ⟨err, data, rfl⟩
  | capturedWrite off be data =>
    simp only [effectOf, State.capturedStep]
    split
    · split
      · exact guarded _ _ _
      all_goals exact .inl rfl
    · exact .inl rfl
  | unknownCommand tag code operand =>
    simp only [effectOf]
    split
    · exact .inl rfl
    · exact guarded _ _ _
  | rdCapture | activitySummaryRead | commitLine | commitCal | commitWindows | commitDelivery | load | start | stop
  | halt | restart | clearTotal | freeze | partialCommandWrite => exact guarded _ _ _
  | _ => cases h

/-- What a completion of a host access keeps, such a row keeps. -/
theorem effectOf_completes_keeps {P : State → Prop} {u : State} (hu : P u)
    (completes : ∀ err data, P (u.completeHost err data)) {c : Instr} (h : completesHost c = true) : P (effectOf c u) := by
  rcases effectOf_completes h u with e | ⟨err, data, e⟩ <;> rw [e]
  · exact hu
  · exact completes err data

/-- A row that begins work of the engine does so at a FREE port that is the engine's, or does nothing (R86, R130). -/
def beginsOrStays (f : State → State) : Prop :=
  ∀ s, f s = s ∨ ∃ w, s.deNext = some w ∧ s.deWins = true ∧ f s = s.beginWork w

theorem startIndexReset_begins : beginsOrStays State.startIndexReset := by
  intro s
  simp only [State.startIndexReset]
  split
  · rename_i r hw
    split
    · exact .inr ⟨_, hw, ‹_›, rfl⟩
    · exact .inl rfl
  · exact .inl rfl

theorem startRecord_begins : beginsOrStays State.startRecord := by
  intro s
  simp only [State.startRecord]
  split
  case h_1 hw =>
    split
    · exact .inr ⟨_, hw, ‹_›, rfl⟩
    · exact .inl rfl
  case h_2 hw =>
    split
    · exact .inr ⟨_, hw, ‹_›, rfl⟩
    · exact .inl rfl
  case h_3 => exact .inl rfl

theorem startPage_begins : beginsOrStays State.startPage := by
  intro s
  simp only [State.startPage]
  split
  · rename_i r hw
    split
    · exact .inr ⟨_, hw, ‹_›, rfl⟩
    · exact .inl rfl
  · exact .inl rfl

theorem startStatus_begins : beginsOrStays State.startStatus := by
  intro s
  simp only [State.startStatus, State.deMay, Bool.and_eq_true, beq_iff_eq]
  split
  · rename_i h
    exact .inr ⟨_, h.2, h.1, rfl⟩
  · exact .inl rfl

theorem startRefresh_begins : beginsOrStays State.startRefresh := by
  intro s
  simp only [State.startRefresh]
  split
  · rename_i r hw
    split
    · exact .inr ⟨_, hw, ‹_›, rfl⟩
    · exact .inl rfl
  · exact .inl rfl

theorem startLoadRead_begins : beginsOrStays State.startLoadRead := by
  intro s
  simp only [State.startLoadRead]
  split
  · rename_i r hw
    split
    · exact .inr ⟨_, hw, ‹_›, rfl⟩
    · exact .inl rfl
  · exact .inl rfl

/-- What a row is: a level of a pin with an action, an action with its effect, one that may let a host request in, a
grant to the engine, or the arming (R27, R79, R118, R130). -/
theorem exec_shape (c : Instr) (s : State) (hc : notPowerOn c) :
    (∃ p : Pins, p.por = s.pins.por ∧ exec c s = s.actPins p (effectOf c))
      ∨ exec c s = s.act (effectOf c)
      ∨ ((∃ addr write be data, c = .hostRequestTaken addr write be data) ∧ exec c s = s.actClaim (effectOf c))
      ∨ (grantRow c ∧ ∃ f, beginsOrStays f ∧ exec c s = s.actStart f)
      ∨ (s.armingDue = true ∧ c = .armingTakesEffect ∧ exec c s = s.actArming) := by
  cases c with
  | powerOnResetAssert => exact absurd rfl hc.1
  | powerOnResetRelease => exact absurd rfl (hc.2 _ _)
  | busResetAssert => exact .inl ⟨{ s.pins with brst := true }, rfl, rfl⟩
  | busResetRelease => exact .inl ⟨{ s.pins with brst := false }, rfl, rfl⟩
  | coilHiAssert l => exact .inl ⟨{ s.pins with coilHi := modAt s.pins.coilHi l fun _ => true }, rfl, rfl⟩
  | coilHiDeassert l => exact .inl ⟨{ s.pins with coilHi := modAt s.pins.coilHi l fun _ => false }, rfl, rfl⟩
  | tripPinChange l v => exact .inl ⟨{ s.pins with trip := modAt s.pins.trip l fun _ => v }, rfl, rfl⟩
  | hostRequestTaken addr write be data => exact .inr (.inr (.inl ⟨⟨addr, write, be, data, rfl⟩, rfl⟩))
  | armingTakesEffect =>
    simp only [exec, execArmingTakesEffect]
    split
    · exact .inr (.inr (.inr (.inr ⟨‹_›, trivial, rfl⟩)))
    · exact .inr (.inl rfl)
  | indexResetWrite => exact .inr (.inr (.inr (.inl ⟨by simp [grantRow], _, startIndexReset_begins, rfl⟩)))
  | recordStart => exact .inr (.inr (.inr (.inl ⟨by simp [grantRow], _, startRecord_begins, rfl⟩)))
  | pageWriteStart => exact .inr (.inr (.inr (.inl ⟨by simp [grantRow], _, startPage_begins, rfl⟩)))
  | commandStatusWrite => exact .inr (.inr (.inr (.inl ⟨by simp [grantRow], _, startStatus_begins, rfl⟩)))
  | freshWordRefresh => exact .inr (.inr (.inr (.inl ⟨by simp [grantRow], _, startRefresh_begins, rfl⟩)))
  | loadRead => exact .inr (.inr (.inr (.inl ⟨by simp [grantRow], _, startLoadRead_begins, rfl⟩)))
  | _ => exact .inr (.inl rfl)

/-- Under PORn a row but the edges of power-on reset changes at most the pins (R27, R133; log 13). -/
theorem exec_por (c : Instr) {s : State} (hp : s.pins.por = true) (hc : notPowerOn c) :
    ∃ p : Pins, p.por = true ∧ exec c s = .next { s with pins := p } := by
  have stays : (.next s : Host.Outcome State Fault Refusal) = .next { s with pins := s.pins } := rfl
  rcases exec_shape c s hc with ⟨p, hpp, h⟩ | h | ⟨_, h⟩ | ⟨_, f, _, h⟩ | ⟨_, _, h⟩
  · exact ⟨p, hpp.trans hp, h.trans (actPins_por hp _ _)⟩
  · exact ⟨s.pins, hp, h.trans ((act_por hp _).trans stays)⟩
  · exact ⟨s.pins, hp, h.trans ((actClaim_por hp _).trans stays)⟩
  · exact ⟨s.pins, hp, h.trans ((actStart_por hp _).trans stays)⟩
  · exact ⟨s.pins, hp, h.trans (by simp [State.actArming, hp])⟩

/-- Out of power-on reset. -/
theorem exec_awake (c : Instr) {s : State} (h : awake s) (hc : notPowerOn c) :
    exec c s = s.act (effectOf c)
      ∨ ((∃ addr write be data, c = .hostRequestTaken addr write be data) ∧ exec c s = s.actClaim (effectOf c))
      ∨ (grantRow c ∧ ∃ f, beginsOrStays f ∧ exec c s = s.actStart f)
      ∨ (s.armingDue = true ∧ c = .armingTakesEffect ∧ exec c s = s.actArming) := by
  rcases exec_shape c s hc with ⟨p, _, e⟩ | e
  · exact .inl (e.trans (actPins_awake h _ _))
  · exact e

/-! ## A property that all but the effect of a row keeps -/

/-- The passed-over count that a grant to the host leaves (R130). -/
def passedNext (s : State) (n : Nat) : Prop :=
  n = s.mp.passed ∨ (n = s.mp.passed + 1 ∧ s.mp.passed < patience s.liveDelivery)

/-- A property that is kept by everything a row does besides its effect: levels of the pins under PORn, the marking of
changed pages, the arming, and the grants. -/
structure GrantLaw (P : State → Prop) : Prop where
  pins : ∀ (s : State) (p : Pins), s.pins.por = true → p.por = true → P s → P { s with pins := p }
  marked : ∀ s t : State, P t → P (s.markChanged t)
  awaited : ∀ (s : State) (b : Bool), P s → P { s with awaited := b }
  arming : ∀ s : State, awake s → s.armingDue = true → P s → P s.takeArming
  host : ∀ (s : State) (n : Nat), noArmingDue s → s.mp.port = .free → passedNext s n → P s → P (s.grantHost n)
  begun : ∀ (s : State) (w : DeWork), noArmingDue s → s.mp.port = .free → s.deNext = some w → P s → P (s.beginWork w)

theorem armed_awake {s : State} (h : awake s) : awake s.armed := by
  have pins : s.armed.pins = s.pins := by simp
  rw [awake, pins]
  exact h

theorem deWins_free {s : State} (h : s.deWins = true) : s.mp.port = .free ∧ noArmingDue s := by
  obtain ⟨hf, hd, _⟩ := (deWins_iff s).mp h
  exact ⟨hf, hd⟩

section
variable {P : State → Prop} (L : GrantLaw P)
include L

/-- A grant by the table of R130 is one to the host, one to the engine, or none. -/
theorem GrantLaw.arbitrate {s : State} (hs : P s) : P s.arbitrate := by
  simp only [State.arbitrate]
  split
  · rename_i hf
    split
    · exact hs
    · rename_i hd
      have hd : noArmingDue s := Classical.byContradiction fun h => hd (armingDue_not.mpr h)
      have grant : P s.grantDe := by
        simp only [State.grantDe]
        split
        · exact L.begun s _ hd hf ‹_› hs
        · exact hs
      split
      · exact L.host s _ hd hf (.inl rfl) hs
      · split
        · exact L.host s _ hd hf (.inr ⟨rfl, ‹_›⟩) hs
        · exact grant
      · exact grant
      · exact hs
  · exact hs
  · exact hs

theorem GrantLaw.armed {s : State} (ha : awake s) (hs : P s) : P s.armed := by
  simp only [State.armed]
  split
  · exact L.awaited _ _ (L.marked _ _ (L.arming s ha ‹_› hs))
  · exact hs

theorem GrantLaw.claimed {s : State} (ha : awake s) (hs : P s) : P s.claimed := by
  simp only [State.claimed]
  split
  · exact L.armed ha hs
  · exact L.arbitrate (L.armed ha hs)

theorem GrantLaw.grantFreed {s u : State} (hu : P u) : P (s.grantFreed u) := by
  simp only [State.grantFreed]
  split
  · exact L.arbitrate hu
  · exact hu

/-- A row that begins work of the engine keeps it. -/
theorem GrantLaw.begins {f : State → State} {s : State} (hf : beginsOrStays f) (hs : P s) : P (f s) := by
  rcases hf s with h | ⟨w, hw, hd, h⟩
  · rw [h]; exact hs
  · obtain ⟨hfree, hdue⟩ := deWins_free hd
    rw [h]
    exact L.begun s w hdue hfree hw hs

end

/-! ## Commands and steps -/

theorem noArmingDue_grantLaw : GrantLaw noArmingDue where
  pins _ _ _ _ h := h
  marked _ _ h := h
  awaited _ _ h := h
  arming _ _ hd _ := .inl (takeArming_waits hd).1
  host s n _ _ _ h := by simpa [noArmingDue] using h
  begun _ _ _ _ hw h := engineBegins_noArmingDue h (beginWork_spec hw rfl)

/-- What took place at once before a command leaves no arming due. -/
theorem claimed_noArmingDue (s : State) : noArmingDue s.claimed := by
  simp only [State.claimed]
  split
  · exact armed_noArmingDue s
  · exact noArmingDue_grantLaw.arbitrate (armed_noArmingDue s)

/-- From what holds before a command follows what holds after it, when its effect leads from the one to the other and
all else of a row keeps each. -/
theorem exec_leads {P Q : State → Prop} (LP : GrantLaw P) (LQ : GrantLaw Q) (hPQ : ∀ u, P u → Q u) {c : Instr}
    (hc : notPowerOn c) (he : ∀ u, awake u → noArmingDue u → P u → Q (effectOf c u)) {s t : State} (hs : P s)
    (h : exec c s = .next t) : Q t := by
  have ends {u : State} (e : exec c s = .next u) (hu : Q u) : Q t := by
    rw [e] at h
    cases h
    exact hu
  cases hp : s.pins.por with
  | true =>
    obtain ⟨p, hpp, e⟩ := exec_por c hp hc
    exact ends e (hPQ _ (LP.pins s p hp hpp hs))
  | false =>
    have ha : awake s := hp
    have effect : Q (effectOf c s.claimed) :=
      he _ (claimed_awake ha) (claimed_noArmingDue s) (LP.claimed ha hs)
    rcases exec_awake c ha hc with e | ⟨_, e⟩ | ⟨_, f, hf, e⟩ | ⟨hd, _, e⟩
    · exact ends (e.trans (act_awake ha _)) (LQ.grantFreed (LQ.marked _ _ effect))
    · exact ends (e.trans (actClaim_awake ha _)) (LQ.arbitrate (LQ.marked _ _ effect))
    · exact ends (e.trans (actStart_awake ha f)) (hPQ _ (LP.begins hf (LP.armed ha hs)))
    · exact ends (e.trans (actArming_awake ha)) (hPQ _ (LP.arbitrate (LP.marked _ _ (LP.arming s ha hd hs))))

/-- A property that every step keeps, by its parts. -/
structure StepLaw (P : State → Prop) : Prop extends GrantLaw P where
  effect : ∀ (c : Instr) (u : State), awake u → noArmingDue u → P u → P (effectOf c u)
  powerOn : ∀ (p : Pins) (base : Byte) (free : Nat) (rest : List Instr), P (State.powerOn p base free rest)
  pending : ∀ (s : State) (rest : List Instr), P s → P { s with pending := rest }
  tick : ∀ s : State, P s → P s.tick

theorem notPowerOn_or (c : Instr) : notPowerOn c ∨ c = .powerOnResetAssert ∨ ∃ g t, c = .powerOnResetRelease g t := by
  by_cases h1 : c = .powerOnResetAssert
  · exact .inr (.inl h1)
  · by_cases h2 : ∃ g t, c = .powerOnResetRelease g t
    · exact .inr (.inr h2)
    · exact .inl ⟨h1, fun g t e => h2 ⟨g, t, e⟩⟩

section
variable {P : State → Prop} (L : StepLaw P)
include L

theorem StepLaw.exec {c : Instr} {s t : State} (hs : P s) (h : exec c s = .next t) : P t := by
  rcases notPowerOn_or c with hc | rfl | ⟨g, v, rfl⟩
  · exact exec_leads L.toGrantLaw L.toGrantLaw (fun _ hu => hu) hc (L.effect c) hs h
  · cases h
    exact L.powerOn _ _ _ _
  · simp only [Machine.exec, execPowerOnResetRelease] at h
    cases h
    split
    · exact L.powerOn _ _ _ _
    · exact hs

/-- What the part does by itself (log 2). -/
theorem StepLaw.idle {s t : State} (hs : P s) (h : idle s = .next t) : P t := by
  simp only [Machine.idle] at h
  split at h
  · cases h; exact hs
  · split at h
    · exact L.exec hs h
    · split at h
      · cases h; exact L.arbitrate hs
      · cases h; exact L.tick s hs

theorem StepLaw.step {s t : State} (hs : P s) (h : step s = .next t) : P t := by
  simp only [Machine.step] at h
  split at h
  · exact L.exec (L.pending s _ hs) h
  · exact L.idle hs h

end

end Sys2Proof.Machine
end

