-- ==== Sys2Proof/Proofs/Moves.lean ====
section
/-! SUPPORT for O52, O55, O56 and O60. What the operations of the part are made of, as the Notice Unit, ATTN and the totals
of a line see it: notices raised, and moves that these do not see. -/

namespace Sys2Proof.Machine

/-! ## Moves that ATTN, the backlog and the totals do not see -/

/-- What ATTN depends on and the entries of the backlog are as they were (R105, R112). -/
structure NoticesKept (s t : State) : Prop where
  attn : t.nu.attn = s.nu.attn
  outstanding : t.nu.outstanding = s.nu.outstanding
  offer : t.nu.offer = s.nu.offer
  backlog : t.nu.backlog = s.nu.backlog
  brst : t.pins.brst = s.pins.brst
  faulted : (t.ring noticeRing).faulted = (s.ring noticeRing).faulted
  delivery : t.liveDelivery = s.liveDelivery

/-- A move that besides decreases no total; with `p` no line produces a profile in it. -/
structure Still (p : Prop) (s t : State) : Prop extends NoticesKept s t where
  sequence : p → ∀ k : LineId, (t.sru k).sequence = (s.sru k).sequence
  forward : ∀ k : LineId, (s.sru k).forward.toNat ≤ (t.sru k).forward.toNat
  reverse : ∀ k : LineId, (s.sru k).reverse.toNat ≤ (t.sru k).reverse.toNat

variable {p : Prop} {s t u : State}

theorem noticesKept_of_frame (h : t.nu = s.nu ∧ t.pins = s.pins ∧ t.de.rings = s.de.rings
    ∧ t.cu.liveDelivery = s.cu.liveDelivery) : NoticesKept s t := by
  obtain ⟨nu, pins, rings, delivery⟩ := h
  exact ⟨by rw [nu], by rw [nu], by rw [nu], by rw [nu], by rw [pins], by simp only [State.ring, rings], delivery⟩

/-- Where the Notice Unit, the pins, the rings, the live delivery section and every SRU are as they were. -/
theorem still_of_frame (h : t.nu = s.nu ∧ t.pins = s.pins ∧ t.de.rings = s.de.rings
    ∧ t.cu.liveDelivery = s.cu.liveDelivery ∧ ∀ k : LineId, t.lines[k.val].sru = s.lines[k.val].sru) : Still p s t := by
  obtain ⟨nu, pins, rings, delivery, sru⟩ := h
  have sru (k : LineId) : t.sru k = s.sru k := sru k
  exact ⟨noticesKept_of_frame ⟨nu, pins, rings, delivery⟩, fun _ k => by rw [sru],
    fun k => Nat.le_of_eq (by rw [sru k]), fun k => Nat.le_of_eq (by rw [sru k])⟩

/-- What an SRU has produced and totalized. -/
def Sru.made (u : Sru) : Half × BitVec 64 × BitVec 64 := (u.sequence, u.forward, u.reverse)

theorem modSru_made (s : State) (l k : LineId) {f : Sru → Sru} (h : ∀ u, (f u).made = u.made) :
    ((s.modSru l f).sru k).made = (s.sru k).made := by
  by_cases hk : k = l
  · subst hk; rw [modSru_sru, h]
  · rw [State.sru, State.sru, show (s.modSru l f).lines[k] = s.lines[k] from modSru_lines_other s l k f hk]

theorem modSru_still (s : State) (l : LineId) {f : Sru → Sru} (h : ∀ u, (f u).made = u.made) :
    Still p s (s.modSru l f) := by
  have made (k : LineId) := Prod.mk.inj (modSru_made s l k h)
  have totals (k : LineId) := Prod.mk.inj (made k).2
  exact ⟨⟨rfl, rfl, rfl, rfl, rfl, rfl, rfl⟩, fun _ k => (made k).1, fun k => Nat.le_of_eq (by rw [(totals k).1]),
    fun k => Nat.le_of_eq (by rw [(totals k).2])⟩

/-! ## Moves and notices -/

/-- `t` comes of `s` by moves that ATTN, the backlog and the totals do not see, and by notices raised. -/
inductive Moves (p : Prop) (s : State) : State → Prop where
  | refl : Moves p s s
  | still {t u : State} : Moves p s t → Still p t u → Moves p s u
  | raise {t : State} (k : Kind) (src : Source) (d : Nat) : Moves p s t → Moves p s (t.raise k src d)

theorem Moves.trans (h : Moves p s t) (h' : Moves p t u) : Moves p s u := by
  induction h' with
  | refl => exact h
  | still _ e ih => exact ih.still e
  | raise k src d _ ih => exact ih.raise k src d

theorem Still.moves (h : Still p s t) : Moves p s t := .still .refl h

/-- A property that a notice raised and a move not seen keep is kept by all that comes of them. -/
theorem Moves.keeps {P : State → Prop} (still : ∀ t u, Still p t u → P t → P u)
    (raise : ∀ (t : State) (k : Kind) (src : Source) (d : Nat), P t → P (t.raise k src d)) (h : Moves p s t) (hs : P s) :
    P t := by
  induction h with
  | refl => exact hs
  | still _ e ih => exact still _ _ e ih
  | raise k src d _ ih => exact raise _ k src d ih

theorem raise_made (s : State) (k : Kind) (src : Source) (d : Nat) (l : LineId) :
    (s.raise k src d).sru l = s.sru l := by simp [State.sru]

theorem Moves.sequence (h : Moves True s t) (k : LineId) : (t.sru k).sequence = (s.sru k).sequence := by
  refine h.keeps (P := fun u => (u.sru k).sequence = (s.sru k).sequence) (fun t u e ih => ?_) (fun t _ _ _ ih => ?_) rfl
  · rw [e.sequence trivial k, ih]
  · rw [raise_made]; exact ih

theorem Moves.totals (h : Moves p s t) (k : LineId) :
    (s.sru k).forward.toNat ≤ (t.sru k).forward.toNat ∧ (s.sru k).reverse.toNat ≤ (t.sru k).reverse.toNat := by
  refine h.keeps (P := fun u => (s.sru k).forward.toNat ≤ (u.sru k).forward.toNat
    ∧ (s.sru k).reverse.toNat ≤ (u.sru k).reverse.toNat) (fun t u e ih => ?_) (fun t _ _ _ ih => ?_)
    ⟨Nat.le_refl _, Nat.le_refl _⟩
  · exact ⟨Nat.le_trans ih.1 (e.forward k), Nat.le_trans ih.2 (e.reverse k)⟩
  · rw [raise_made]; exact ih

theorem moves_of_frame (h : t.nu = s.nu ∧ t.pins = s.pins ∧ t.de.rings = s.de.rings
    ∧ t.cu.liveDelivery = s.cu.liveDelivery ∧ ∀ k : LineId, t.lines[k.val].sru = s.lines[k.val].sru) : Moves p s t :=
  (still_of_frame h).moves

theorem moves_ite {c : Prop} [Decidable c] {t u : State} (ht : c → Moves p s t) (hu : ¬c → Moves p s u) :
    Moves p s (if c then t else u) := by
  split
  · exact ht ‹_›
  · exact hu ‹_›

/-- A fold of operations. -/
theorem foldl_moves {β : Type} {f : State → β → State} (h : ∀ t x, Moves p t (f t x)) (l : List β) (s : State) :
    Moves p s (l.foldl f s) := by
  induction l generalizing s with
  | nil => exact .refl
  | cons x l ih => exact (h s x).trans (ih _)

theorem raise_moves (s : State) (k : Kind) (src : Source) (d : Nat) : Moves p s (s.raise k src d) := .raise k src d .refl
theorem modLs_moves (s : State) (l : LineId) (f : Sequencer → Sequencer) : Moves p s (s.modLs l f) :=
  moves_of_frame (by simp)
theorem modGzu_moves (s : State) (l : LineId) (f : Gzu → Gzu) : Moves p s (s.modGzu l f) := moves_of_frame (by simp)
theorem modSru_moves (s : State) (l : LineId) {f : Sru → Sru}
    (h : ∀ u, (f u).made = u.made := by exact fun _ => rfl) : Moves p s (s.modSru l f) := (modSru_still s l h).moves
theorem modCopies_moves (s : State) (l : LineId) (f : LineCopies → LineCopies) : Moves p s (s.modCopies l f) :=
  moves_of_frame (by simp)
theorem modStaging_moves (s : State) (l : LineId) (f : Staging → Staging) : Moves p s (s.modStaging l f) :=
  moves_of_frame (by simp)
theorem markLine_moves (s : State) (l : LineId) : Moves p s (s.markLine l) := moves_of_frame (by simp)
theorem markPart_moves (s : State) : Moves p s s.markPart := moves_of_frame (by simp)
theorem usedFree_moves (s : State) : Moves p s s.usedFree := moves_of_frame ⟨rfl, rfl, rfl, rfl, fun _ => rfl⟩
theorem reportLineState_moves (s : State) (l : LineId) : Moves p s (s.reportLineState l) := moves_of_frame (by simp)
theorem reexamTimer_moves (s : State) (l : LineId) : Moves p s (s.reexamTimer l) := modLs_moves s l _

/-! ## Transfers (R26, R67, R153) -/

theorem lsApply_moves (s : State) (l : LineId) (old : Bytes) : Moves p s (s.lsApply l old) := moves_of_frame (by simp)

theorem resetZone_moves (s : State) (l : LineId) (z : Fin 4) : Moves p s (s.resetZone l z) := by
  simp only [State.resetZone]
  exact (moves_ite (fun _ => raise_moves _ _ _ _) (fun _ => .refl)).trans (modGzu_moves _ _ _)

theorem resetZones_moves (s : State) (l : LineId) (old : Bytes) : Moves p s (s.resetZones l old) :=
  foldl_moves (fun t z => moves_ite (fun _ => .refl) (fun _ => resetZone_moves t l z)) _ s

theorem appliedTo_moves (s : State) (o : Owner) : Moves p s (s.appliedTo o) := moves_of_frame (by simp)

theorem applyLine_moves (s : State) (l : LineId) (new : Bytes) (tag : Byte) : Moves p s (s.applyLine l new tag) :=
  ((((modCopies_moves s l _).trans (lsApply_moves _ l _)).trans (resetZones_moves _ l _)).trans
    (modGzu_moves _ l _) |>.raise _ _ _).trans (markLine_moves _ l)

theorem applyCal_moves (s : State) (l : LineId) (new : Bytes) (tag : Byte) : Moves p s (s.applyCal l new tag) :=
  ((modCopies_moves s l _).raise _ _ _).trans (markLine_moves _ l)

theorem transfer_moves (s : State) (l : LineId) : Moves p s (s.transfer l) := by
  have line (s : State) : Moves p s (s.transferLine l) := by
    simp only [State.transferLine]
    split
    · exact .refl
    · exact (applyLine_moves s l _ _).trans (appliedTo_moves _ _)
  have cal (s : State) : Moves p s (s.transferCal l) := by
    simp only [State.transferCal]
    split
    · exact .refl
    · exact (applyCal_moves s l _ _).trans (appliedTo_moves _ _)
  exact (line s).trans (cal _)

/-! ## Shutdown entry, cycle start, PRIMING, OFF (R7, R10, R11, R12, R16) -/

theorem countAttempt_moves (s : State) (l : LineId) : Moves p s (s.countAttempt l) := by
  simp only [State.countAttempt]
  split
  · exact .refl
  · exact moves_ite (fun _ => ((modLs_moves s l _).trans (modLs_moves _ l _)).raise _ _ _) (fun _ => modLs_moves s l _)

theorem shutdownEntry_moves (s : State) (l : LineId) (c : Cause) : Moves p s (s.shutdownEntry l c) :=
  (((((((modLs_moves s l _).trans (modSru_moves _ l)).raise _ _ _).trans (transfer_moves _ l)).trans
    (countAttempt_moves _ l)).trans (reexamTimer_moves _ l)).trans (modSru_moves _ l)).trans
    (reportLineState_moves _ l)

theorem actSources_moves (s : State) (l : LineId) : Moves p s (s.actSources l) := by
  simp only [State.actSources]
  split
  · split
    · exact .refl
    · exact shutdownEntry_moves s l _
    · exact shutdownEntry_moves s l _
    · exact (usedFree_moves s).trans (shutdownEntry_moves _ l _)
  · exact .refl

theorem cycleStart_moves (s : State) (l : LineId) : Moves p s (s.cycleStart l) := by
  simp only [State.cycleStart]
  exact ((transfer_moves s l).trans (modLs_moves _ l _)).trans (modSru_moves _ l)

theorem enterPriming_moves (s : State) (l : LineId) : Moves p s (s.enterPriming l) :=
  ((((modLs_moves s l _).trans (modSru_moves _ l)).trans (modGzu_moves _ l _)).trans
    (reportLineState_moves _ l)).trans (cycleStart_moves _ l)

theorem enterOff_moves (s : State) (l : LineId) : Moves p s (s.enterOff l) :=
  (((modLs_moves s l _).trans (modSru_moves _ l)).trans (transfer_moves _ l)).trans
    (reportLineState_moves _ l)

/-! ## Profiles (R45 to R48, R53, R64, R75) -/

theorem evalZone_moves (s : State) (l : LineId) (z : Fin 4) : Moves p s (s.evalZone l z) := by
  have raised (t : State) (e : ZoneEvent) : Moves p t (t.raiseZone l z e) := by
    cases e with
    | none => exact .refl
    | trip => exact raise_moves _ _ _ _
    | clear => exact raise_moves _ _ _ _
  exact moves_ite (fun _ => (modGzu_moves s l _).trans (raised _ _)) (fun _ => .refl)

theorem stagingJoin_moves (s : State) (l : LineId) (x : Profile) : Moves p s (s.stagingJoin l x) :=
  ((moves_ite (fun _ => (modStaging_moves s l _).raise _ _ _) (fun _ => .refl)).trans (modStaging_moves _ l _)).trans
    (markLine_moves _ l)

theorem takeProfile_moves (s : State) (l : LineId) (x : Profile) : Moves p s (s.takeProfile l x) :=
  ((((modGzu_moves s l _).trans (foldl_moves (fun t z => evalZone_moves t l z) _ _)).trans (modGzu_moves _ l _)).trans
    (markLine_moves _ l)).trans (stagingJoin_moves _ l _)

theorem satAdd_toNat_le {w : Nat} (x : BitVec w) (n : Nat) : x.toNat ≤ (satAdd x n).toNat := by
  have hx := x.isLt
  simp only [satAdd]
  split
  · rename_i h
    rw [BitVec.toNat_add, BitVec.toNat_ofNat, Nat.add_mod_mod, Nat.mod_eq_of_lt h]
    exact Nat.le_add_right _ _
  · rw [BitVec.toNat_allOnes]; omega

/-- A profile decreases no total (R47, R48). -/
theorem afterProfile_totals (u : Sru) (c : CycleParams) :
    u.forward.toNat ≤ (u.afterProfile c).forward.toNat ∧ u.reverse.toNat ≤ (u.afterProfile c).reverse.toNat := by
  simp only [Sru.afterProfile, Sru.addVolume]
  split
  · exact ⟨Nat.le_refl _, Nat.le_refl _⟩
  · split
    · exact ⟨satAdd_toNat_le _ _, Nat.le_refl _⟩
    · split
      · exact ⟨Nat.le_refl _, satAdd_toNat_le _ _⟩
      · exact ⟨Nat.le_refl _, Nat.le_refl _⟩

theorem afterProfile_still (s : State) (l : LineId) (c : CycleParams) :
    Still False s (s.modSru l fun u => u.afterProfile c) := by
  have totals (k : LineId) : (s.sru k).forward.toNat ≤ ((s.modSru l fun u => u.afterProfile c).sru k).forward.toNat
      ∧ (s.sru k).reverse.toNat ≤ ((s.modSru l fun u => u.afterProfile c).sru k).reverse.toNat := by
    by_cases hk : k = l
    · subst hk; rw [modSru_sru]; exact afterProfile_totals _ c
    · rw [State.sru, State.sru, show (s.modSru l _).lines[k] = s.lines[k] from modSru_lines_other s l k _ hk]
      exact ⟨Nat.le_refl _, Nat.le_refl _⟩
  exact ⟨⟨rfl, rfl, rfl, rfl, rfl, rfl, rfl⟩, False.elim, fun k => (totals k).1, fun k => (totals k).2⟩

theorem produce_moves (s : State) (l : LineId) : Moves False s (s.produce l) := by
  simp only [State.produce]
  split
  · exact .refl
  · exact (((afterProfile_still s l _).moves.trans (markLine_moves _ l)).trans (takeProfile_moves _ l _)).trans
      (modLs_moves _ l _)

theorem closeCycle_moves (s : State) (l : LineId) : Moves False s (s.closeCycle l) :=
  moves_ite (fun _ => produce_moves s l) (fun _ => modSru_moves s l)

/-! ## Phases, shutdown, pins and timers of a line -/

theorem afterCycle_moves (s : State) (l : LineId) : Moves p s (s.afterCycle l) := by
  simp only [State.afterCycle]
  split
  case h_1 => exact enterOff_moves s l
  case h_2 =>
    exact (((modLs_moves s l _).trans (reportLineState_moves _ l)).trans (cycleStart_moves _ l)).trans
      (actSources_moves _ l)
  case h_3 => exact (cycleStart_moves s l).trans (actSources_moves _ l)
  case h_4 => exact .refl
  case h_5 => exact .refl

theorem closeP_made (u : Sru) : u.closeP.made = u.made := by
  simp only [Sru.closeP]
  split <;> rfl

/-- The end of a phase but the last of the cycle (R3). -/
theorem endPhase_moves_of (s : State) (l : LineId) (coilLo : Bool) (h : (s.ls l).phase ≠ some .nWindow) :
    Moves p s (s.endPhase l coilLo) := by
  simp only [State.endPhase]
  split
  case h_1 => exact .refl
  case h_2 => exact modLs_moves s l _
  case h_3 =>
    exact moves_ite (fun _ => shutdownEntry_moves s l _)
      (fun _ => (modLs_moves s l _).trans (modSru_moves _ l))
  case h_4 => exact (modSru_moves s l closeP_made).trans (modLs_moves _ l _)
  case h_5 => exact modLs_moves s l _
  case h_6 =>
    exact moves_ite (fun _ => shutdownEntry_moves s l _)
      (fun _ => (modLs_moves s l _).trans (modSru_moves _ l))
  case h_7 hp => exact absurd hp h

theorem endPhase_nWindow {s : State} {l : LineId} (coilLo : Bool) (h : (s.ls l).phase = some .nWindow) :
    s.endPhase l coilLo = ((s.modLs l fun q => { q with bridge := .allOff }).closeCycle l).afterCycle l := by
  simp only [State.endPhase, h]

theorem endPhase_moves (s : State) (l : LineId) (coilLo : Bool) : Moves False s (s.endPhase l coilLo) := by
  by_cases h : (s.ls l).phase = some .nWindow
  · rw [endPhase_nWindow coilLo h]
    exact ((modLs_moves s l _).trans (closeCycle_moves _ l)).trans (afterCycle_moves _ l)
  · exact endPhase_moves_of s l coilLo h

theorem endHold_moves (s : State) (l : LineId) : Moves p s (s.endHold l) :=
  moves_ite (fun _ => modLs_moves s l _) (fun _ => .refl)

theorem autoRestart_moves (s : State) (l : LineId) : Moves p s (s.autoRestart l) :=
  moves_ite (fun _ => ((enterPriming_moves s l).raise _ _ _).trans (actSources_moves _ l)) (fun _ => .refl)

theorem coilHiChanged_moves (s : State) (l : LineId) : Moves p s (s.coilHiChanged l) :=
  moves_ite (fun _ => (modLs_moves s l _).trans (reexamTimer_moves _ l))
    (fun _ => moves_ite (fun _ => shutdownEntry_moves s l _) (fun _ => .refl))

theorem newPins_moves (s : State) (x : Pins) (h : x.brst = s.pins.brst := by exact rfl) :
    Moves p s { s with pins := x } :=
  Still.moves { attn := rfl, outstanding := rfl, offer := rfl, backlog := rfl, brst := h, faulted := rfl, delivery := rfl,
                sequence := fun _ _ => rfl, forward := fun _ => Nat.le_refl _, reverse := fun _ => Nat.le_refl _ }

theorem setCoilHi_moves (s : State) (l : LineId) (level : Bool) : Moves p s (s.setCoilHi l level) :=
  moves_ite (fun _ => .refl) (fun _ => (newPins_moves s _).trans (coilHiChanged_moves _ l))

theorem tripChanged_moves (s : State) (l : LineId) : Moves p s (s.tripChanged l) :=
  moves_ite (fun _ => (modLs_moves s l _).trans (reexamTimer_moves _ l))
    (fun _ => moves_ite (fun _ => shutdownEntry_moves s l _) (fun _ => .refl))

theorem setTripLevel_moves (s : State) (l : LineId) (level : Bool) : Moves p s (s.setTripLevel l level) :=
  (modLs_moves s l _).trans (tripChanged_moves _ l)

theorem completeDebounce_moves (s : State) (l : LineId) : Moves p s (s.completeDebounce l) := by
  simp only [State.completeDebounce]
  split
  · exact setTripLevel_moves s l _
  · exact .refl

theorem completeDue_moves (s : State) (l : LineId) : Moves p s (s.completeDue l) := by
  simp only [State.completeDue]
  split
  · exact moves_ite (fun _ => setTripLevel_moves s l _) (fun _ => .refl)
  · exact .refl

theorem followTrip_moves (s : State) (l : LineId) (level : Bool) : Moves p s (s.followTrip l level) :=
  moves_ite (fun _ => modLs_moves s l _)
    (fun _ => moves_ite (fun _ => setTripLevel_moves s l level) (fun _ => modLs_moves s l _))

theorem setTrip_moves (s : State) (l : LineId) (level : Bool) : Moves p s (s.setTrip l level) :=
  moves_ite (fun _ => .refl)
    (fun _ => ((completeDue_moves s l).trans (newPins_moves _ _)).trans (followTrip_moves _ l level))

/-! ## Line commands (R21 to R24) -/

theorem startLine_moves (s : State) (l : LineId) : Moves p s (s.startLine l).1 := by
  simp only [State.startLine]
  split
  case h_1 => exact (enterPriming_moves s l).trans (actSources_moves _ l)
  case h_2 => exact (modLs_moves s l _).trans (reportLineState_moves _ l)
  all_goals exact .refl

theorem stopLine_moves (s : State) (l : LineId) : Moves p s (s.stopLine l).1 := by
  simp only [State.stopLine]
  split
  case h_1 => exact (modLs_moves s l _).trans (reportLineState_moves _ l)
  case h_2 => exact (modSru_moves s l).trans (enterOff_moves _ l)
  case h_3 => exact (modLs_moves s l _).trans (enterOff_moves _ l)
  all_goals exact .refl

theorem haltLine_moves (s : State) (l : LineId) : Moves p s (s.haltLine l).1 := by
  simp only [State.haltLine]
  split
  case h_4 => exact (modLs_moves s l _).trans (reexamTimer_moves _ l)
  case h_5 => exact .refl
  all_goals exact shutdownEntry_moves s l _

theorem restartLine_moves (s : State) (l : LineId) : Moves p s (s.restartLine l).1 := by
  have primed (t : State) : Moves p t (((t.enterPriming l).raise .lineRestarted (.line l) 1).actSources l) :=
    ((enterPriming_moves t l).raise _ _ _).trans (actSources_moves _ l)
  simp only [State.restartLine]
  split
  case h_1 =>
    split
    · exact .refl
    · split
      · exact .refl
      · dsimp only
        exact (modLs_moves s l _).trans (primed _)
  all_goals exact .refl

/-! ## The sample link (R29 to R36) -/

theorem receiverIdle_moves (s : State) (l : LineId) : Moves p s (s.receiverIdle l) := modSru_moves s l

theorem trackSequence_moves (s : State) (l : LineId) (q : BitVec 4) : Moves p s (s.trackSequence l q) := by
  simp only [State.trackSequence]
  split
  · exact modSru_moves s l
  · exact ((modSru_moves s l).raise _ _ _).trans (markLine_moves _ l)

theorem frameHeard_moves (s : State) (l : LineId) : Moves p s (s.frameHeard l) :=
  moves_ite (fun _ => modSru_moves s l) (fun _ => .refl)

theorem accumulate_moves (s : State) (l : LineId) (f : Frame) : Moves p s (s.accumulate l f) := by
  have taken (c : Prop) [Decidable c] (g : Sru → Sru) (h : ∀ u, (g u).made = u.made) :
      Moves p s (if c then s.modSru l g else s) := moves_ite (fun _ => modSru_moves s l h) (fun _ => .refl)
  simp only [State.accumulate]
  split
  case h_5 => exact .refl
  all_goals exact taken _ _ fun _ => rfl

theorem takeFrame_moves (s : State) (l : LineId) (bits : List Bool) (n : Nat) : Moves p s (s.takeFrame l bits n) := by
  simp only [State.takeFrame]
  split
  · exact (modSru_moves s l).trans (markLine_moves _ l)
  · exact ((trackSequence_moves s l _).trans (frameHeard_moves _ l)).trans (accumulate_moves _ l _)

theorem frameEnds_moves (s : State) (l : LineId) (bits : List Bool) : Moves p s (s.frameEnds l bits) := by
  simp only [State.frameEnds]
  split
  · exact receiverIdle_moves s l
  · exact (receiverIdle_moves s l).trans (takeFrame_moves _ l _ _)
  · exact (receiverIdle_moves s l).trans (takeFrame_moves _ l _ _)

theorem silenceBegins_moves (s : State) (l : LineId) : Moves p s (s.silenceBegins l) :=
  ((modSru_moves s l).raise _ _ _).trans (markLine_moves _ l)

/-! ## Watch windows (R138, R166, R168, R170, R172, R173) -/

theorem modWu_moves (s : State) (f : Wu → Wu) : Moves p s (s.modWu f) := moves_of_frame (by simp)
theorem modWindow_moves (s : State) (w : WindowId) (f : Window → Window) : Moves p s (s.modWindow w f) :=
  modWu_moves s _

theorem rederiveAttendance_moves (s : State) (d : Nat) : Moves p s (s.rederiveAttendance d) := by
  have told (t : State) : Moves p t (t.reportAttendanceAll.markPart) := moves_of_frame (by simp)
  simp only [State.rederiveAttendance]
  split
  case h_1 => exact ((modWu_moves s _).raise _ _ _).trans (told _)
  case h_2 => exact ((modWu_moves s _).raise _ _ _).trans (told _)
  all_goals exact .refl

theorem expireAll_moves (s : State) (ws : List WindowId) : Moves p s (s.expireAll ws) :=
  (foldl_moves (f := fun t w => t.expireWindow w) (fun t w => (modWindow_moves t w _).raise _ _ _) ws s).trans
    (rederiveAttendance_moves _ _)

theorem advanceWindows_moves (s : State) : Moves p s s.advanceWindows := (modWu_moves s _).trans (expireAll_moves _ _)

theorem matchAll_moves (s : State) (addr : Nat) (write : Bool) : Moves p s (s.matchAll addr write) :=
  (foldl_moves (fun t w => modWindow_moves t w _) _ s).trans (rederiveAttendance_moves _ _)

theorem reportSuppression_moves (s : State) (addr : Addr) : Moves p s (s.reportSuppression addr) := by
  have owned : Moves p s (match s.ownedCause addr with | some c => s.reportOwned c | none => s) := by
    split
    · exact (modWu_moves s _).raise _ _ _
    · exact .refl
  exact owned.trans (foldl_moves (f := fun t w => t.reportGuard w) (fun t w => (modWindow_moves t w _).raise _ _ _) _ _)

theorem applyWindows_moves (s : State) (old : Bytes) (held : List WindowId) : Moves p s (s.applyWindows old held) :=
  (modWu_moves s _).trans (rederiveAttendance_moves _ _)

theorem windowsLive_moves (s : State) (tag : Byte) : Moves p s (s.windowsLive tag) := by
  have live : Moves p s (s.liveWindowsFrom tag) := moves_of_frame ⟨rfl, rfl, rfl, rfl, fun _ => rfl⟩
  simp only [State.windowsLive]
  split
  · split
    · exact ((live.trans (usedFree_moves _)).raise _ _ _).trans (applyWindows_moves _ _ _)
    · exact ((live.trans (usedFree_moves _)).trans (applyWindows_moves _ _ _)).raise _ _ _
  · exact (live.trans (applyWindows_moves _ _ _)).raise _ _ _

/-! ## Commands and loads, CLEAR_TOTAL apart (R148 to R161) -/

theorem modCu_moves (s : State) (f : Cu → Cu) (h : (f s.cu).liveDelivery = s.cu.liveDelivery) : Moves p s (s.modCu f) :=
  moves_of_frame ⟨rfl, rfl, rfl, h, fun _ => rfl⟩

theorem commitLine_moves (s : State) (tag : Byte) (l : LineId) : Moves p s (s.commitLine tag l).1 := by
  simp only [State.commitLine]
  split
  · exact .refl
  · split
    · exact applyLine_moves s l _ tag
    · exact (modCopies_moves s l _).trans (markLine_moves _ l)

theorem commitCal_moves (s : State) (tag : Byte) (l : LineId) : Moves p s (s.commitCal tag l).1 := by
  simp only [State.commitCal]
  split
  · exact .refl
  · split
    · exact applyCal_moves s l _ tag
    · exact (modCopies_moves s l _).trans (markLine_moves _ l)

theorem commitWindows_moves (s : State) (tag : Byte) : Moves p s (s.commitWindows tag).1 := by
  simp only [State.commitWindows]
  split
  · exact .refl
  · exact (windowsLive_moves s tag).trans (markPart_moves _)

theorem commitDelivery_moves (s : State) (tag : Byte) : Moves p s (s.commitDelivery tag).1 := by
  simp only [State.commitDelivery]
  split
  · exact .refl
  · exact moves_of_frame (by simp)

theorem freeze_moves (s : State) : Moves p s s.freeze.1 := by
  have marked : Moves p s s.markPendingCals :=
    foldl_moves (fun t l => moves_ite (fun _ => markLine_moves t l) (fun _ => .refl)) _ s
  simp only [State.freeze]
  split
  · exact .refl
  · exact ((marked.trans (modCu_moves _ _ rfl)).raise _ _ _).trans (markPart_moves _)

theorem startLoad_moves (s : State) (code : Nat) : Moves p s (s.startLoad code).1 :=
  (modCu_moves s _ rfl).trans (markPart_moves _)

theorem loadRead_moves (s : State) (off : Nat) (err : Bool) (data : Word) : Moves p s (s.loadRead off err data) := by
  have marked : Moves p s s.markLoadStatus := moves_ite (fun _ => moves_of_frame (by simp)) (fun _ => .refl)
  simp only [State.loadRead]
  split
  · exact .refl
  · split
    · refine ((marked.trans (modCu_moves _ _ ?_)).raise _ _ _).trans (markPart_moves _)
      exact loadResult_liveDelivery _ _ _
    · split
      · refine ((marked.trans (modCu_moves _ _ ?_)).raise _ _ _).trans (markPart_moves _)
        exact (loadResult_liveDelivery _ _ _).trans (takeBuffer_liveDelivery _ _)
      · exact modCu_moves s _ rfl

/-- Every command of Table 8-1 but CLEAR_TOTAL. -/
theorem runCommand_moves (s : State) (tag code operand : Byte) (h : code.toNat ≠ 10) :
    Moves p s (s.runCommand tag code operand).1 := by
  simp only [State.runCommand]
  split
  case h_1 => exact commitLine_moves s tag _
  case h_2 => exact commitCal_moves s tag _
  case h_3 => exact commitWindows_moves s tag
  case h_4 => exact commitDelivery_moves s tag
  case h_5 => exact startLoad_moves s _
  case h_6 => exact startLine_moves s _
  case h_7 => exact stopLine_moves s _
  case h_8 => exact haltLine_moves s _
  case h_9 => exact restartLine_moves s _
  case h_10 hc => exact absurd hc h
  case h_11 => exact freeze_moves s
  case h_12 => exact .refl

theorem pageEnded_moves (s : State) (x : PageId) : Moves p s (s.pageEnded x) := by
  simp only [State.pageEnded]
  exact moves_ite
    (fun _ => moves_ite (fun _ => (modCu_moves s _ rfl).trans (markPart_moves _)) (fun _ => modCu_moves s _ rfl))
    (fun _ => .refl)

/-! ## A request taken (R119, R120) -/

/-- Of the Delivery Engine a request placed reaches the refreshes asked for alone (R127). -/
theorem placeRequest_de (s : State) (a : Access) :
    (s.placeRequest a).de = { s.de with fresh := (s.placeRequest a).de.fresh } := by
  simp only [State.placeRequest]
  split
  · rfl
  · split <;> rfl

/-- A request taken leaves every LS and SRU, and of the Delivery Engine queues, rings, the arming and the flight. -/
@[simp] theorem takeRequest_keeps (s : State) (a : Access) :
    (∀ k : LineId, (s.takeRequest a).lines[k.val].ls = s.lines[k.val].ls)
      ∧ (∀ k : LineId, (s.takeRequest a).lines[k.val].sru = s.lines[k.val].sru)
      ∧ (s.takeRequest a).de.staging = s.de.staging ∧ (s.takeRequest a).de.rings = s.de.rings
      ∧ (s.takeRequest a).de.arming = s.de.arming ∧ (s.takeRequest a).de.flight = s.de.flight := by
  have placed (t : State) : (t.placeRequest a).de.staging = t.de.staging ∧ (t.placeRequest a).de.rings = t.de.rings
      ∧ (t.placeRequest a).de.arming = t.de.arming ∧ (t.placeRequest a).de.flight = t.de.flight := by
    rw [placeRequest_de]
    exact ⟨rfl, rfl, rfl, rfl⟩
  simp only [State.takeRequest]
  split <;> simp [placed]

end Sys2Proof.Machine
end

