-- ==== Sys2Proof/Proofs/NoticeLaws.lean ====
section
/-! SUPPORT for O52 and O55. A property of the Notice Unit through every operation of the part: it is enough that notices
raised keep it, and the operations of the Notice Unit itself (spec/05). -/

namespace Sys2Proof.Machine

/-- A property that the operations of the Notice Unit keep, and whatever leaves the entries and what ATTN depends on. An
operation that ends with a re-evaluation of ATTN may find the terms of ATTN changed, but not the entries. -/
structure NoticeLaw (P : State → Prop) : Prop where
  same : ∀ s t : State, NoticesKept s t → P s → P t
  raise : ∀ (s : State) (k : Kind) (src : Source) (d : Nat), P s → P (s.raise k src d)
  taken : ∀ s : State, P s → P (s.modNu (·.takeFlight))
  consumed : ∀ (s : State) (n : Nat), P s → P (s.consumed n)
  delivered : ∀ s t : State, t.nu = s.nu → P s → P t.entryDelivered
  returned : ∀ s t : State, t.nu = s.nu → P s → P t.entryReturned
  withdrawn : ∀ s t : State, t.nu = { s.nu with outstanding := t.nu.outstanding } → P s → P t.returnWaitingOffer
  reeval : ∀ s t : State, t.nu = { s.nu with outstanding := t.nu.outstanding } → P s → P t.reevalAttn

theorem ringLine_profile {r : RingId} {l : LineId} (h : ringLine r = some l) : r = profileRing l := by
  simp only [ringLine] at h
  split at h
  · cases h; rfl
  · cases h

/-- An effect that only takes place where a condition holds keeps a property when it does. -/
theorem guarded_keeps {P : State → Prop} {c : Prop} [Decidable c] {s t : State} (hs : P s) (ht : P t) :
    P (if c then t else s) := by
  split
  · exact ht
  · exact hs

/-- Of the Notice Unit the engine marks the entry that it begins in flight, and nothing else (R104, R106). -/
theorem beginWork_noticesKept (s : State) (w : DeWork) :
    NoticesKept s (s.beginWork w) ∨ NoticesKept (s.modNu (·.takeFlight)) (s.beginWork w) := by
  cases w with
  | notice e => exact .inr (noticesKept_of_frame (by simp [State.beginWork, State.beginNotice]))
  | fresh w =>
    cases w with
    | milliseconds => exact .inl (noticesKept_of_frame (by simp [State.beginWork, State.issueRefresh]))
    | activity => exact .inl (noticesKept_of_frame (by simp [State.beginWork, State.issueRefresh]))
  | commandStatus => exact .inl (noticesKept_of_frame (by simp [State.beginWork, State.issueStatus]))
  | profile l g =>
    exact .inl (noticesKept_of_frame (by simp [State.beginWork, State.beginProfile, State.beginFlight]))
  | page x => exact .inl (noticesKept_of_frame (by simp [State.beginWork, State.beginPage, State.beginFlight]))
  | flightWord => exact .inl (noticesKept_of_frame (by simp [State.beginWork]))
  | indexReset r => exact .inl (noticesKept_of_frame (by simp [State.beginWork]))
  | loadRead off => exact .inl (noticesKept_of_frame (by simp [State.beginWork]))

section
variable {P : State → Prop} (L : NoticeLaw P) {s : State}
include L

theorem NoticeLaw.moves {t : State} (hs : P s) (h : Moves False s t) : P t :=
  h.keeps (fun _ _ e => L.same _ _ e.toNoticesKept) L.raise hs

theorem NoticeLaw.frame {t : State} (hs : P s) (h : t.nu = s.nu ∧ t.pins = s.pins ∧ t.de.rings = s.de.rings
    ∧ t.cu.liveDelivery = s.cu.liveDelivery) : P t :=
  L.same s t (noticesKept_of_frame h) hs

/-! ## Commands and host accesses (R84, R119 to R124, R148) -/

theorem NoticeLaw.runCommand (hs : P s) (tag code operand : Byte) : P (s.runCommand tag code operand).1 := by
  by_cases h : code.toNat = 10
  · simp only [State.runCommand, h]
    exact L.frame hs (by simp [State.clearTotal])
  · exact L.moves hs (runCommand_moves s tag code operand h)

theorem NoticeLaw.setRecord (hs : P s) (tag code : Byte) (r : Reply) : P (s.setRecord tag code r) :=
  L.frame hs (by simp)

theorem NoticeLaw.takeCommandWrite (hs : P s) (be : BitVec 4) (data : Word) : P (s.takeCommandWrite be data) := by
  simp only [State.takeCommandWrite]
  split
  · simp only [State.takeCommand]
    split
    · exact L.setRecord hs _ _ _
    · exact L.setRecord (L.runCommand hs _ _ _) _ _ _
  · exact L.setRecord hs _ _ _

theorem NoticeLaw.captureRd (hs : P s) (r : RingId) (newRd : Half) : P (s.captureRd r newRd) := by
  have read : P ((s.modRing r fun x => { x with rd := newRd }).markPart) := by
    refine L.same s _ ⟨rfl, rfl, rfl, rfl, rfl, ?_, rfl⟩ hs
    exact modAt_view s.de.rings r noticeRing _ RingDesc.faulted fun _ => rfl
  simp only [State.captureRd]
  split
  · exact hs
  · split
    · split
      · exact L.consumed _ _ read
      · exact read
    · exact L.raise _ _ _ _ hs

theorem NoticeLaw.handOver (hs : P s) (r : Request) : P (s.handOver r) := by
  simp only [State.handOver]
  split
  · exact hs
  · split
    · exact L.frame hs (by simp)
    · exact hs
  · exact L.takeCommandWrite hs _ _
  · split
    · exact L.captureRd hs _ _
    · exact hs

theorem NoticeLaw.completeHost (hs : P s) (err : Bool) (data : Word) : P (s.completeHost err data) := by
  have ends (r : Request) (t : State) (ht : P t) (d : Option Word) (c : Prop) [Decidable c] :
      P (if c then t.freePort.completeUp err d else (t.freePort.completeUp err d).afterFreshRead r) := by
    split
    · exact L.frame ht (by simp)
    · exact L.frame ht (by simp)
  simp only [State.completeHost]
  split
  · split
    · refine ends _ _ ?_ _ _
      split
      · exact L.handOver hs _
      · exact hs
    · exact hs
  · exact hs

theorem NoticeLaw.placeRequest (hs : P s) (a : Access) : P (s.placeRequest a) := by
  simp only [State.placeRequest]
  split
  · exact L.frame hs (by simp)
  · split
    · exact L.frame hs ⟨rfl, rfl, rfl, rfl⟩
    · exact L.frame hs (by simp)

theorem NoticeLaw.completeUp (hs : P s) (err : Bool) (data : Option Word) : P (s.completeUp err data) :=
  L.frame hs (by simp)

theorem NoticeLaw.takeRequest (hs : P s) (a : Access) : P (s.takeRequest a) := by
  have cleared : P (s.modMp fun m => { m with completion := none }) := L.frame hs (by simp)
  simp only [State.takeRequest]
  split
  · exact L.completeUp (L.moves cleared ((reportSuppression_moves _ _).trans (matchAll_moves _ _ _))) _ _
  · exact L.placeRequest (L.moves cleared (matchAll_moves _ _ _)) a

/-! ## The Delivery Engine (R79 to R94) -/

theorem NoticeLaw.markPage (hs : P s) (x : PageId) : P (s.markPage x) := L.frame hs (by simp)
theorem NoticeLaw.freePort (hs : P s) : P s.freePort := L.frame hs (by simp)
theorem NoticeLaw.endFlight (hs : P s) : P s.endFlight := L.frame hs (by simp)
theorem NoticeLaw.releaseHeld (hs : P s) : P s.releaseHeld := L.frame hs (by simp)
theorem NoticeLaw.modStaging (hs : P s) (l : LineId) (f : Staging → Staging) : P (s.modStaging l f) :=
  L.frame hs (by simp)

theorem NoticeLaw.modRing (hs : P s) (r : RingId) (f : RingDesc → RingDesc) (h : ∀ d, (f d).faulted = d.faulted) :
    P (s.modRing r f) :=
  L.same s _ ⟨rfl, rfl, rfl, rfl, rfl, modAt_view s.de.rings r noticeRing f RingDesc.faulted h, rfl⟩ hs

/-- The FAULTED mark of another ring than N is no term of ATTN. -/
theorem NoticeLaw.faultRing (hs : P s) (l : LineId) : P (s.faultRing (profileRing l)) := by
  have other : noticeRing ≠ profileRing l := fun h => Nat.ne_of_gt l.isLt (congrArg Fin.val h)
  refine L.same s _ ⟨rfl, rfl, rfl, rfl, rfl, ?_, rfl⟩ hs
  rw [State.faultRing, modRing_other _ _ _ _ other]

theorem NoticeLaw.profileDelivered (hs : P s) (l : LineId) : P (s.profileDelivered l) := by
  have served (d : RingDesc) : d.served.faulted = d.faulted := by
    simp only [RingDesc.served]
    split <;> (try split) <;> rfl
  have left := L.modStaging (L.modRing (L.modRing hs (profileRing l) (fun d => { d with w := d.w + 1 }) fun _ => rfl)
    (profileRing l) (·.served) served) l fun g => { g with queue := g.queue.drop 1, delivered := g.delivered + 1 }
  simp only [State.profileDelivered]
  refine L.markPage (L.markPage ?_ _) _
  split
  · exact L.raise _ _ _ _ left
  · exact left

theorem NoticeLaw.deliver (hs : P s) (r : RingId) : P (s.deliver r) := by
  simp only [State.deliver]
  split
  · exact L.profileDelivered (L.endFlight hs) _
  · exact L.delivered s _ (by simp) hs

theorem NoticeLaw.recordFault (hs : P s) (r : RingId) (d : Nat) : P (s.recordFault r d) := by
  simp only [State.recordFault]
  split
  · rename_i l hl
    rw [ringLine_profile hl]
    exact L.markPage (L.markPage (L.raise _ _ _ _ (L.modStaging (L.faultRing (L.endFlight hs) l) _ _)) _) _
  · exact L.returned s _ (by simp) hs

theorem NoticeLaw.endRecordWord (hs : P s) (err : Bool) : P (s.endRecordWord err) := by
  simp only [State.endRecordWord]
  split
  · split
    · exact L.releaseHeld (L.recordFault (L.freePort hs) _ _)
    · exact L.frame hs (by simp)
  · exact hs

theorem NoticeLaw.endWWord (hs : P s) (err : Bool) : P (s.endWWord err) := by
  simp only [State.endWWord]
  split
  · split
    · exact L.releaseHeld (L.recordFault (L.freePort hs) _ _)
    · exact L.releaseHeld (L.deliver (L.freePort hs) _)
  · exact hs

theorem NoticeLaw.pageEnded (hs : P s) (x : PageId) : P (s.pageEnded x) := L.moves hs (pageEnded_moves s x)

theorem NoticeLaw.pageFault (hs : P s) (x : PageId) : P (s.pageFault x) := by
  have faulted : P ((s.endFlight.modPage x fun _ => { dirty := true, faulted := true }).raise .deliveryFault .part
      (pageFaultDetail x)) :=
    L.raise _ _ _ _ (L.frame hs (by simp))
  simp only [State.pageFault]
  refine L.pageEnded ?_ x
  split
  · exact faulted
  · exact L.markPage faulted _

theorem NoticeLaw.endPageWord (hs : P s) (err : Bool) : P (s.endPageWord err) := by
  simp only [State.endPageWord]
  split
  · split
    · exact L.releaseHeld (L.pageFault (L.freePort hs) _)
    · split
      · exact L.frame hs (by simp)
      · exact L.releaseHeld (L.pageEnded (L.endFlight (L.freePort hs)) _)
  · exact hs

theorem NoticeLaw.endIndexReset (hs : P s) (err : Bool) : P (s.endIndexReset err) := by
  have cleared (r : RingId) : P (s.freePort.modRing r fun d => { d with resetOut := false }) :=
    L.modRing (L.freePort hs) r _ fun _ => rfl
  simp only [State.endIndexReset]
  split
  · split
    · exact L.freePort hs
    · refine L.releaseHeld ?_
      split
      · simp only [State.indexResetFault]
        split
        · rename_i l hl
          rw [ringLine_profile hl]
          exact L.markPage (L.markPage (L.raise _ _ _ _ (L.faultRing (cleared _) l)) _) _
        · refine L.markPage ?_ partPage
          exact L.withdrawn s _ rfl hs
      · exact cleared _
  · exact hs

theorem NoticeLaw.endStatus (hs : P s) (err : Bool) : P (s.endStatus err) := by
  simp only [State.endStatus]
  split
  · split
    · exact L.raise _ _ _ _ (L.freePort hs)
    · exact L.freePort hs
  · exact hs

theorem NoticeLaw.endRefresh (hs : P s) (err : Bool) : P (s.endRefresh err) := by
  have released (t : State) (ht : P t) (w : FreshWord) (v : Word) : P (t.releaseFresh w v err) :=
    L.frame ht (by simp)
  simp only [State.endRefresh]
  split
  · refine released _ ?_ _ _
    split
    · exact L.raise _ _ _ _ (L.freePort hs)
    · exact L.freePort hs
  · exact hs

theorem NoticeLaw.endLoadRead (hs : P s) (err : Bool) (data : Word) : P (s.endLoadRead err data) := by
  simp only [State.endLoadRead]
  split
  · exact L.moves (L.freePort hs) (loadRead_moves _ _ _ _)
  · exact hs

/-! ## The arming (R79, R80, R121) -/

theorem NoticeLaw.armNotices (hs : P s) (t : State) (b : Bytes) (d : RingDesc) (h : t.nu = s.nu) :
    P (t.armNotices b d).reevalAttn := by
  simp only [State.armNotices]
  split
  · split
    · exact L.reeval s _ (by rw [h]) hs
    · exact L.reeval s _ (by simp [h]) hs
  · split
    · exact L.reeval _ _ rfl (L.withdrawn s _ (by rw [h]) hs)
    · exact L.reeval _ _ rfl (L.withdrawn s _ (by simp [h]) hs)

theorem NoticeLaw.armingApplied (hs : P s) (tag : Byte) : P (s.armingApplied tag) :=
  L.frame (L.raise s .configApplied .part tag.toNat hs) (by simp [State.armingApplied])

theorem NoticeLaw.rewriteOwned (hs : P s) : P s.rewriteOwned := by
  simp only [State.rewriteOwned]
  split
  · split
    · exact L.completeUp (L.moves hs (reportSuppression_moves _ _)) _ _
    · exact hs
  · exact hs

/-- What the Watch Unit and the Command Unit tell of an arming, in either order (R101, R121, R156). -/
theorem NoticeLaw.armingReports (hs : P s) (first : Bool) (tag : Byte) :
    P (if s.armingSuppresses then
        if first then (s.usedFree.rewriteOwned).armingApplied tag else (s.usedFree.armingApplied tag).rewriteOwned
      else s.armingApplied tag) := by
  have free : P s.usedFree := L.frame hs ⟨rfl, rfl, rfl, rfl⟩
  split
  · split
    · exact L.armingApplied (L.rewriteOwned free) tag
    · exact L.rewriteOwned (L.armingApplied free tag)
  · exact L.armingApplied hs tag

theorem NoticeLaw.takeArming (hs : P s) : P s.takeArming := by
  have retested (t : State) (ht : P t) : P t.releaseHeld.retestRead := L.frame ht (by simp)
  simp only [State.takeArming]
  split
  · exact hs
  · split
    · exact hs
    · refine retested _ (L.armingReports ?_ _ _)
      exact L.armNotices hs _ _ _ rfl

/-! ## Work of the engine, bus reset, the millisecond counter -/

theorem NoticeLaw.beginWork (hs : P s) (w : DeWork) : P (s.beginWork w) := by
  rcases beginWork_noticesKept s w with h | h
  · exact L.same _ _ h hs
  · exact L.same _ _ h (L.taken s hs)

theorem NoticeLaw.assertBrst (hs : P s) : P s.assertBrst := by
  simp only [State.assertBrst]
  split
  · exact hs
  · exact L.reeval s _ rfl hs

theorem NoticeLaw.countReset (hs : P s) : P s.countReset := by
  have counted : P (s.modMp fun m => { m with resets := satInc m.resets }) := L.frame hs (by simp)
  simp only [State.countReset]
  split
  · exact L.raise _ _ _ _ (L.markPage counted _)
  · exact hs

theorem NoticeLaw.releaseBrst (hs : P s) : P s.releaseBrst := by
  simp only [State.releaseBrst]
  split
  · refine L.countReset ?_
    exact L.reeval s _ rfl hs
  · exact hs

theorem NoticeLaw.advanceMs (hs : P s) : P s.advanceMs := by
  have counted : P (({ s with clock := { s.clock with sinceMs := 0 } }.modNu fun n => { n with ms := n.ms + 1 })) :=
    L.same s _ ⟨rfl, rfl, rfl, rfl, rfl, rfl, rfl⟩ hs
  have advanced (t : State) (ht : P t) : P t.advanceLines.advanceWindows :=
    L.moves (s := t.advanceLines) (L.frame ht ⟨rfl, rfl, rfl, rfl⟩) (advanceWindows_moves _)
  exact advanced _ counted

/-! ## Every row -/

theorem NoticeLaw.effect (c : Instr) (hs : P s) : P (effectOf c s) := by
  cases c with
  | busResetAssert => exact L.assertBrst hs
  | busResetRelease => exact L.releaseBrst hs
  | millisecondAdvance => exact L.advanceMs hs
  | phaseEnd l coilLo => exact L.moves hs ((newPins_moves s _).trans (endPhase_moves _ l coilLo))
  | shutdownHoldEnd l => exact L.moves hs (endHold_moves s l)
  | coilHiAssert l => exact L.moves hs (setCoilHi_moves s l true)
  | coilHiDeassert l => exact L.moves hs (setCoilHi_moves s l false)
  | tripPinChange l level => exact L.moves hs (setTrip_moves s l level)
  | tripDebounceComplete l => exact L.moves hs (completeDebounce_moves s l)
  | restartDelayExpiry l => exact L.moves hs (autoRestart_moves s l)
  | frameArrival l bits => exact L.moves hs (frameEnds_moves s l bits)
  | silenceTimerExpiry l => exact guarded_keeps hs (L.moves hs (silenceBegins_moves s l))
  | windowExpiry w => exact guarded_keeps hs (L.moves hs (expireAll_moves s [w]))
  | hostRequestTaken addr write be data => exact guarded_keeps hs (L.takeRequest hs _)
  | hostForwardedCompletion | capturedWrite | rdCapture | activitySummaryRead | commitLine | commitCal | commitWindows
  | commitDelivery | load | start | stop | halt | restart | clearTotal | freeze | unknownCommand | partialCommandWrite =>
    exact effectOf_completes_keeps hs (L.completeHost hs) rfl
  | discardedAccessCompletion => exact L.frame hs (by simp [effectOf])
  | indexResetWriteComplete err => exact L.endIndexReset hs err
  | recordWordComplete err => exact L.endRecordWord hs err
  | wWordWriteComplete err => exact L.endWWord hs err
  | pageWordComplete err => exact L.endPageWord hs err
  | commandStatusWriteComplete err => exact L.endStatus hs err
  | freshWordRefreshComplete err => exact L.endRefresh hs err
  | loadReadComplete err data => exact L.endLoadRead hs err data
  | linkWaitIdleExit l => exact guarded_keeps hs (L.moves hs (receiverIdle_moves s l))
  | _ => exact hs

end

end Sys2Proof.Machine
end

