-- ==== Sys2Proof/Proofs/AttnLaw.lean ====
section
/-! PROOF of O52. ATTN follows its terms through every command and step (R112, R113). -/

namespace Sys2Proof.Machine

theorem attnFollows_of_noticesKept {s t : State} (h : NoticesKept s t) (hs : attnFollows s) : attnFollows t := by
  unfold attnFollows at *
  rw [h.attn, h.brst, attnTerms_congr h.outstanding h.offer h.backlog h.faulted h.delivery]
  exact hs

/-- Marking an entry in flight leaves the levels that the terms look at. -/
theorem takeFlight_backlogTerm (n : Nu) (threshold : Nat) :
    n.takeFlight.backlogTerm threshold = n.backlogTerm threshold := by
  simp only [Nu.takeFlight]
  split
  · rename_i o ho
    simp only [Nu.backlogTerm, ho]
  · rename_i ho
    split
    · rfl
    · simp only [Nu.backlogTerm, ho, List.any_map]
      congr 1
      refine congrArg (fun f => List.any _ f) (funext fun b => ?_)
      simp only [Function.comp]
      split <;> rfl

theorem takeFlight_attn (n : Nu) : n.takeFlight.attn = n.attn := by
  simp only [Nu.takeFlight]; split <;> (try split) <;> rfl

theorem takeFlight_attnTerms (s : State) : (s.modNu (·.takeFlight)).attnTerms = s.attnTerms := by
  have outstanding : s.nu.takeFlight.outstanding = s.nu.outstanding := by
    simp only [Nu.takeFlight]; split <;> (try split) <;> rfl
  simp only [State.attnTerms, Nu.outstandingTerm, State.modNu, outstanding, takeFlight_backlogTerm]
  rfl

theorem takeFlight_attnFollows {s : State} (h : attnFollows s) : attnFollows (s.modNu (·.takeFlight)) := by
  unfold attnFollows at *
  rw [takeFlight_attnTerms]
  exact (takeFlight_attn s.nu).trans h

theorem attnFollows_noticeLaw : NoticeLaw attnFollows where
  same _ _ h hs := attnFollows_of_noticesKept h hs
  raise _ k src d h := raise_follows k src d h
  taken _ h := takeFlight_attnFollows h
  consumed _ _ _ := reevalAttn_follows _
  delivered _ _ _ _ := attnFollows_congr (reevalAttn_follows _) rfl rfl rfl rfl
  returned _ _ _ _ := attnFollows_congr (reevalAttn_follows _) rfl rfl rfl rfl
  withdrawn _ _ _ _ := reevalAttn_follows _
  reeval _ _ _ _ := reevalAttn_follows _

/-- No row but the edges of power-on reset moves PORn. -/
theorem effectOf_por (c : Instr) (s : State) : (effectOf c s).pins.por = s.pins.por := by
  have guarded {g : Prop} [Decidable g] {t : State} (h : t.pins.por = s.pins.por) :
      (if g then t else s).pins.por = s.pins.por := guarded_keeps (P := fun u => u.pins.por = s.pins.por) rfl h
  cases c with
  | busResetAssert => simp only [effectOf, State.assertBrst]; split <;> rfl
  | busResetRelease =>
    simp only [effectOf, State.releaseBrst]
    split
    · simp
    · rfl
  | silenceTimerExpiry l => exact guarded (by simp)
  | windowExpiry w => exact guarded (by simp)
  | hostRequestTaken addr write be data => exact guarded (by simp)
  | linkWaitIdleExit l => exact guarded (by simp)
  | unknownCommand tag code operand =>
    simp only [effectOf]
    split
    · rfl
    · simp
  | _ => simp [effectOf, Pins.withCoilLo]

theorem effectOf_awake (c : Instr) {s : State} (h : awake s) : awake (effectOf c s) := (effectOf_por c s).trans h

theorem attnLaw_of_awake {s : State} (ha : awake s) (h : attnFollows s) : attnLaw s :=
  ⟨h, fun hp => absurd hp (by rw [ha]; decide)⟩

theorem attnLaw_of_noticesKept {s t : State} (h : NoticesKept s t) (hp : t.pins.por = s.pins.por) (hs : attnLaw s) :
    attnLaw t := by
  obtain ⟨follows, held⟩ := hs
  refine ⟨attnFollows_of_noticesKept h follows, fun e => ?_⟩
  rw [attnTerms_congr h.outstanding h.offer h.backlog h.faulted h.delivery]
  exact held (hp ▸ e)

/-- Under PORn the terms are clear, and ATTN is deasserted whatever BRST is (R115). -/
theorem attnLaw_pins {s : State} (x : Pins) (hp : s.pins.por = true) (hs : attnLaw s) :
    attnLaw { s with pins := x } := by
  obtain ⟨follows, held⟩ := hs
  have terms : State.attnTerms { s with pins := x } = false := held hp
  refine ⟨?_, fun _ => terms⟩
  rw [terms, Bool.and_false, show State.nu { s with pins := x } = s.nu from rfl, follows, held hp, Bool.and_false]

theorem attnLaw_stepLaw : StepLaw attnLaw where
  pins _ x hp _ hs := attnLaw_pins x hp hs
  marked s t ht := attnLaw_of_noticesKept (s := t) ⟨rfl, rfl, rfl, rfl, rfl, rfl, rfl⟩ rfl ht
  awaited s b hs := attnLaw_of_noticesKept (s := s) ⟨rfl, rfl, rfl, rfl, rfl, rfl, rfl⟩ rfl hs
  arming s ha _ hs := by
    have pins : s.takeArming.pins = s.pins := by simp
    exact attnLaw_of_awake (by rw [awake, pins]; exact ha) (attnFollows_noticeLaw.takeArming hs.1)
  host s n _ _ _ hs := attnLaw_of_noticesKept (noticesKept_of_frame (by simp)) (by simp) hs
  begun s w _ _ _ hs := by
    have pins : (s.beginWork w).pins = s.pins := by simp
    rcases beginWork_noticesKept s w with h | h
    · exact attnLaw_of_noticesKept h (by rw [pins]) hs
    · refine attnLaw_of_noticesKept h (by rw [pins]; rfl) ⟨takeFlight_attnFollows hs.1, fun hp => ?_⟩
      rw [takeFlight_attnTerms]
      exact hs.2 hp
  effect c u ha _ hu := attnLaw_of_awake (effectOf_awake c ha) (attnFollows_noticeLaw.effect c hu.1)
  powerOn p base free rest := by
    have terms : (State.powerOn p base free rest).attnTerms = false := by
      simp [State.attnTerms, State.powerOn, Nu.outstandingTerm, Nu.backlogTerm, Nu.reset, State.faultTerm, State.ring,
        De.reset, RingDesc.unarmed]
    exact ⟨by rw [terms, Bool.and_false]; rfl, fun _ => terms⟩
  pending s rest hs := attnLaw_of_noticesKept (s := s) ⟨rfl, rfl, rfl, rfl, rfl, rfl, rfl⟩ rfl hs
  tick s hs := attnLaw_of_noticesKept (s := s) ⟨rfl, rfl, rfl, rfl, rfl, rfl, rfl⟩ rfl hs

/-- Settles O52: every operation that can change a term of ATTN ends with its re-evaluation. -/
theorem stepKeepsAttnLaw : Obligations.StepKeepsAttnLaw := fun _ _ hs h => attnLaw_stepLaw.step hs h

end Sys2Proof.Machine
end

