-- ==== Sys2Proof/Proofs/OnePerPair.lean ====
section
/-! PROOF of O55. The backlog holds one entry a pair of kind and source, through every command and step (R105). -/

namespace Sys2Proof.Machine

/-- The pair an entry of the backlog stands for. -/
def BacklogEntry.pair (b : BacklogEntry) : Kind × Source := (b.entry.kind, b.entry.source)

/-- No pair has two entries. -/
def pairsDistinct (bl : List BacklogEntry) : Prop := (bl.map BacklogEntry.pair).Nodup

theorem onePerPair_iff (s : State) : onePerPair s ↔ pairsDistinct s.nu.backlog := by
  simp only [onePerPair, pairsDistinct, List.Nodup, List.pairwise_map, BacklogEntry.pair, ne_eq, Prod.mk.injEq]

theorem isPair_pair {b : BacklogEntry} {k : Kind} {src : Source} : b.isPair k src = true ↔ b.pair = (k, src) := by
  simp [BacklogEntry.isPair, BacklogEntry.pair]

/-- An operation on the entries that keeps the pair of each. -/
theorem pairsDistinct_map {bl : List BacklogEntry} {f : BacklogEntry → BacklogEntry} (h : ∀ b, (f b).pair = b.pair)
    (hs : pairsDistinct bl) : pairsDistinct (bl.map f) := by
  rw [pairsDistinct, List.map_map, show BacklogEntry.pair ∘ f = BacklogEntry.pair from funext h]
  exact hs

/-- An operation that drops entries, or keeps the pair of each. -/
theorem pairsDistinct_filterMap {bl : List BacklogEntry} {f : BacklogEntry → Option BacklogEntry}
    (h : ∀ b c, f b = some c → c.pair = b.pair) (hs : pairsDistinct bl) : pairsDistinct (bl.filterMap f) := by
  have sub : ((bl.filterMap f).map BacklogEntry.pair).Sublist (bl.map BacklogEntry.pair) := by
    induction bl with
    | nil => exact .slnil
    | cons b bl ih =>
      have ih := ih (List.nodup_cons.mp hs).2
      cases hb : f b with
      | none => rw [List.filterMap_cons_none hb]; exact ih.cons _
      | some c => rw [List.filterMap_cons_some hb, List.map_cons, List.map_cons, h b c hb]; exact ih.cons_cons _
  exact hs.sublist sub

/-- An entry of a pair that has none is added. -/
theorem pairsDistinct_append {bl : List BacklogEntry} {b : BacklogEntry} (h : ∀ c ∈ bl, c.pair ≠ b.pair)
    (hs : pairsDistinct bl) : pairsDistinct (bl ++ [b]) := by
  rw [pairsDistinct, List.map_append, List.nodup_append]
  refine ⟨hs, List.pairwise_singleton _ _, fun x hx y hy => ?_⟩
  obtain ⟨c, hc, rfl⟩ := List.mem_map.mp hx
  rw [List.map_singleton, List.mem_singleton] at hy
  rw [hy]
  exact h c hc

theorem any_isPair_false {bl : List BacklogEntry} {k : Kind} {src : Source} (h : ¬bl.any (·.isPair k src) = true) :
    ∀ c ∈ bl, c.pair ≠ (k, src) := fun c hc e => h (List.any_eq_true.mpr ⟨c, hc, isPair_pair.mpr e⟩)

theorem merge_pair (b : BacklogEntry) (level : Nat) (d : Half) (now : Word) : (b.merge level d now).pair = b.pair := by
  simp only [BacklogEntry.merge]
  split <;> rfl

theorem mergeBacklog_pairsDistinct {bl : List BacklogEntry} (hs : pairsDistinct bl) (k : Kind) (src : Source)
    (level : Nat) (d : Half) (now : Word) : pairsDistinct (mergeBacklog bl k src level d now) := by
  simp only [mergeBacklog]
  split
  · refine pairsDistinct_map (fun b => ?_) hs
    split
    · exact merge_pair b level d now
    · rfl
  · exact pairsDistinct_append (any_isPair_false ‹_›) hs

theorem returnOffer_pairsDistinct {bl : List BacklogEntry} (hs : pairsDistinct bl) (o : Entry) :
    pairsDistinct (returnOffer bl o) := by
  simp only [returnOffer]
  split
  · refine pairsDistinct_map (fun b => ?_) hs
    split <;> rfl
  · exact pairsDistinct_append (any_isPair_false ‹_›) hs

theorem afterDelivery_pair (b c : BacklogEntry) (h : b.afterDelivery = some c) : c.pair = b.pair := by
  simp only [BacklogEntry.afterDelivery] at h
  split at h
  · obtain ⟨t, _, rfl⟩ := Option.map_eq_some_iff.mp h
    rfl
  · cases h; rfl

theorem afterFault_pair (b : BacklogEntry) : b.afterFault.pair = b.pair := by
  simp only [BacklogEntry.afterFault]
  split
  · split <;> rfl
  · rfl

theorem takeFlight_pairsDistinct {n : Nu} (hs : pairsDistinct n.backlog) : pairsDistinct n.takeFlight.backlog := by
  simp only [Nu.takeFlight]
  split
  · exact hs
  · split
    · exact hs
    · refine pairsDistinct_map (fun b => ?_) hs
      split <;> rfl

theorem raise_onePerPair {s : State} (k : Kind) (src : Source) (d : Nat) (hs : onePerPair s) :
    onePerPair (s.raise k src d) := by
  simp only [State.raise, State.dispose]
  split
  · exact hs
  · split
    · exact hs
    · exact (onePerPair_iff _).mpr (mergeBacklog_pairsDistinct ((onePerPair_iff s).mp hs) _ _ _ _ _)

theorem onePerPair_of_backlog {s t : State} (h : t.nu.backlog = s.nu.backlog) (hs : onePerPair s) : onePerPair t := by
  rw [onePerPair, h]
  exact hs

theorem entryReturned_onePerPair {s : State} (hs : onePerPair s) : onePerPair s.entryReturned := by
  have faulted : pairsDistinct (s.nu.backlog.map (·.afterFault)) :=
    pairsDistinct_map afterFault_pair ((onePerPair_iff s).mp hs)
  rw [onePerPair_iff]
  simp only [State.entryReturned, State.reevalAttn, State.modNu, State.markPart, State.markPage, State.modPage, State.modDe]
  split
  · split
    · exact returnOffer_pairsDistinct ((onePerPair_iff s).mp hs) _
    · exact faulted
  · exact faulted

theorem returnWaitingOffer_onePerPair {s : State} (hs : onePerPair s) : onePerPair s.returnWaitingOffer := by
  rw [onePerPair_iff]
  simp only [State.returnWaitingOffer, State.reevalAttn, State.modNu]
  split
  · split
    · exact (onePerPair_iff s).mp hs
    · exact returnOffer_pairsDistinct ((onePerPair_iff s).mp hs) _
  · exact (onePerPair_iff s).mp hs

theorem onePerPair_noticeLaw : NoticeLaw onePerPair where
  same _ _ h hs := onePerPair_of_backlog h.backlog hs
  raise _ k src d hs := raise_onePerPair k src d hs
  taken s hs := (onePerPair_iff _).mpr (takeFlight_pairsDistinct ((onePerPair_iff s).mp hs))
  consumed _ _ hs := hs
  delivered s t h hs := (onePerPair_iff _).mpr
    (pairsDistinct_filterMap (bl := t.nu.backlog) afterDelivery_pair (by rw [h]; exact (onePerPair_iff s).mp hs))
  returned _ _ h hs := entryReturned_onePerPair (onePerPair_of_backlog (by rw [h]) hs)
  withdrawn _ _ h hs := returnWaitingOffer_onePerPair (onePerPair_of_backlog (by rw [h]) hs)
  reeval s t h hs := onePerPair_of_backlog (s := s) (by rw [show t.reevalAttn.nu.backlog = t.nu.backlog from rfl, h]) hs

theorem onePerPair_stepLaw : StepLaw onePerPair where
  pins _ _ _ _ hs := hs
  marked _ _ ht := ht
  awaited _ _ hs := hs
  arming _ _ _ hs := onePerPair_noticeLaw.takeArming hs
  host s n _ _ _ hs := onePerPair_of_backlog (by simp) hs
  begun _ w _ _ _ hs := onePerPair_noticeLaw.beginWork hs w
  effect c _ _ _ hu := onePerPair_noticeLaw.effect c hu
  powerOn _ _ _ _ := .nil
  pending _ _ hs := hs
  tick _ hs := hs

/-- Settles O55: a notice merges into the entry of its pair, and every other operation keeps the pairs or drops
entries. -/
theorem stepKeepsOnePerPair : Obligations.StepKeepsOnePerPair := fun _ _ hs h => onePerPair_stepLaw.step hs h

end Sys2Proof.Machine
end

