-- ==== Sys2Proof/Proofs/Totals.lean ====
section
/-! PROOF of O60. A total of a line decreases by CLEAR_TOTAL alone (R47, R49). -/

namespace Sys2Proof.Machine

/-! ## The request in hand before the effect of a command -/

/-- The request in hand, if any, is one that was in hand before, its stage apart. -/
def sameRequest (s t : State) : Prop :=
  ∀ r', t.mp.request = some r' → ∃ r, s.mp.request = some r ∧ r'.access = r.access ∧ r'.target = r.target

theorem sameRequest_of_eq {s t : State} (h : t.mp.request = s.mp.request) : sameRequest s t :=
  fun r' hr => ⟨r', by rw [← h, hr], rfl, rfl⟩

theorem sameRequest_of_none {s t : State} (h : t.mp.request = none) : sameRequest s t :=
  fun r' hr => by rw [h] at hr; cases hr

theorem sameRequest.trans {s t u : State} (h : sameRequest s t) (h' : sameRequest t u) : sameRequest s u :=
  fun r'' hr => by
    obtain ⟨r', hr', a', b'⟩ := h' r'' hr
    obtain ⟨r, hr, a, b⟩ := h r' hr'
    exact ⟨r, hr, a'.trans a, b'.trans b⟩

theorem setStage_sameRequest {s : State} {r : Request} (x : RequestStage) (h : s.mp.request = some r) :
    sameRequest s (s.setRequest (some { r with stage := x })) := fun r' hr => by
  cases hr
  exact ⟨r, h, rfl, rfl⟩

theorem retestRead_sameRequest (s : State) : sameRequest s s.retestRead := by
  simp only [State.retestRead]
  split
  · split
    · exact setStage_sameRequest _ ‹_›
    · exact sameRequest_of_eq rfl
  · exact sameRequest_of_eq rfl

theorem releaseHeld_sameRequest (s : State) : sameRequest s s.releaseHeld := by
  simp only [State.releaseHeld]
  split
  · split
    · exact setStage_sameRequest _ ‹_›
    · exact sameRequest_of_eq rfl
  · exact sameRequest_of_eq rfl

theorem rewriteOwned_sameRequest (s : State) : sameRequest s s.rewriteOwned := by
  simp only [State.rewriteOwned]
  split
  · split
    · exact sameRequest_of_none rfl
    · exact sameRequest_of_eq rfl
  · exact sameRequest_of_eq rfl

theorem armingReports_sameRequest (s : State) (first : Bool) (tag : Byte) : sameRequest s
    (if s.armingSuppresses then
      if first then (s.usedFree.rewriteOwned).armingApplied tag else (s.usedFree.armingApplied tag).rewriteOwned
    else s.armingApplied tag) := by
  have applied (t : State) : sameRequest t (t.armingApplied tag) := sameRequest_of_eq (by simp)
  have free : sameRequest s s.usedFree := sameRequest_of_eq rfl
  split
  · split
    · exact (free.trans (rewriteOwned_sameRequest _)).trans (applied _)
    · exact (free.trans (applied _)).trans (rewriteOwned_sameRequest _)
  · exact applied s

theorem takeArming_sameRequest (s : State) : sameRequest s s.takeArming := by
  have retested (t : State) (h : sameRequest s t) : sameRequest s t.releaseHeld.retestRead :=
    (h.trans (releaseHeld_sameRequest t)).trans (retestRead_sameRequest _)
  have reported (t : State) (h : sameRequest s t) (first : Bool) (tag : Byte) :=
    retested _ (h.trans (armingReports_sameRequest t first tag))
  simp only [State.takeArming]
  split
  · exact sameRequest_of_eq rfl
  · split
    · exact sameRequest_of_eq rfl
    · refine reported _ (sameRequest_of_eq ?_) _ _
      simp

theorem beginWork_sameRequest {s : State} {w : DeWork} (hw : s.deNext = some w) : sameRequest s (s.beginWork w) := by
  have retest (t : State) (h : retested s t) : sameRequest s t := fun r' hr' => by
    obtain ⟨no, some⟩ := h
    cases hr : s.mp.request with
    | none => rw [no hr] at hr'; cases hr'
    | some r =>
      obtain ⟨held, stays⟩ := some r hr
      refine ⟨r, rfl, ?_⟩
      by_cases hc : r.stage = .waiting ∧ r.access.write = false ∧ r.fresh = none ∧ covered t r.access.addr
      · rw [held hc] at hr'; cases hr'; exact ⟨rfl, rfl⟩
      · rw [stays hc] at hr'; cases hr'; exact ⟨rfl, rfl⟩
  obtain ⟨-, -, -, -, h⟩ := beginWork_spec hw rfl
  cases w with
  | fresh w => exact sameRequest_of_eq h.2.1
  | flightWord => exact sameRequest_of_eq h.2.1
  | indexReset r => exact sameRequest_of_eq h.2.1
  | commandStatus => exact sameRequest_of_eq h.2.1
  | loadRead off => exact sameRequest_of_eq h.2.1
  | notice e => exact retest _ h.1.2.2.2
  | profile l g => exact retest _ h.1.2.2.2
  | page x =>
    obtain ⟨-, -, -, -, -, retested, -⟩ := h
    exact retest _ retested

theorem grantHost_sameRequest (s : State) (n : Nat) : sameRequest s (s.grantHost n) := by
  intro r' hr'
  simp only [State.grantHost, modMp_mp] at hr'
  split at hr'
  · rename_i r hr
    cases hr'
    exact ⟨r, hr, rfl, rfl⟩
  · exact ⟨r', hr', rfl, rfl⟩

theorem clearTotalInHand_of {s t : State} (h : sameRequest s t) (ht : clearTotalInHand t) : clearTotalInHand s := by
  obtain ⟨r', hr', write, target, be, code⟩ := ht
  obtain ⟨r, hr, access, same⟩ := h r' hr'
  rw [access] at write be code
  exact ⟨r, hr, write, same ▸ target, be, code⟩

/-! ## Totals through the effect of a command -/

/-- No total of a line has decreased. -/
def totalsGrow (s t : State) : Prop :=
  ∀ k : LineId, (s.sru k).forward.toNat ≤ (t.sru k).forward.toNat ∧ (s.sru k).reverse.toNat ≤ (t.sru k).reverse.toNat

theorem totalsGrow.trans {s t u : State} (h : totalsGrow s t) (h' : totalsGrow t u) : totalsGrow s u :=
  fun k => ⟨Nat.le_trans (h k).1 (h' k).1, Nat.le_trans (h k).2 (h' k).2⟩

theorem totalsGrow_of_sru {s t : State} (h : ∀ k : LineId, t.lines[k.val].sru = s.lines[k.val].sru) :
    totalsGrow s t := fun k => by
  rw [show t.sru k = s.sru k from h k]
  exact ⟨Nat.le_refl _, Nat.le_refl _⟩

theorem totalsGrow_refl (s : State) : totalsGrow s s := totalsGrow_of_sru fun _ => rfl

theorem totalsGrow_of_moves {s t : State} (h : Moves False s t) : totalsGrow s t := h.totals

theorem takeCommandWrite_totalsGrow (s : State) (be : BitVec 4) (data : Word)
    (h : fullWord be = true → (cmdCode data).toNat ≠ 10) : totalsGrow s (s.takeCommandWrite be data) := by
  have recorded (t : State) (tag code : Byte) (r : Reply) : totalsGrow t (t.setRecord tag code r) :=
    totalsGrow_of_sru (by simp)
  simp only [State.takeCommandWrite]
  split
  · rename_i hbe
    simp only [State.takeCommand]
    split
    · exact recorded _ _ _ _
    · exact (totalsGrow_of_moves (runCommand_moves s _ _ _ (h hbe))).trans (recorded _ _ _ _)
  · exact recorded _ _ _ _

/-- A write handed over changes a total when it is CLEAR_TOTAL alone. -/
theorem handOver_totalsGrow {s : State} {r : Request} (hr : s.mp.request = some r) (hw : r.access.write = true)
    (h : ¬clearTotalInHand s) : totalsGrow s (s.handOver r) := by
  simp only [State.handOver]
  split
  · exact totalsGrow_refl s
  · split
    · exact totalsGrow_of_sru (by simp)
    · exact totalsGrow_refl s
  · rename_i target
    refine takeCommandWrite_totalsGrow s _ _ fun be code => h ⟨r, hr, hw, target, ?_, code⟩
    simpa [fullWord] using be
  · split
    · exact totalsGrow_of_sru (by simp)
    · exact totalsGrow_refl s

theorem completeHost_totalsGrow {s : State} {err : Bool} (data : Word) (h : err = false → ¬clearTotalInHand s) :
    totalsGrow s (s.completeHost err data) := by
  have ends (t : State) (r : Request) (d : Option Word) (c : Prop) [Decidable c] :
      totalsGrow t (if c then t.freePort.completeUp err d else (t.freePort.completeUp err d).afterFreshRead r) := by
    split
    · exact totalsGrow_of_sru (by simp)
    · exact totalsGrow_of_sru (by simp)
  simp only [State.completeHost]
  split
  · rename_i r _ hr
    split
    · refine totalsGrow.trans ?_ (ends _ _ _ _)
      split
      · rename_i hw
        refine handOver_totalsGrow hr hw.1 (h ?_)
        simpa using hw.2
      · exact totalsGrow_refl s
    · exact totalsGrow_refl s
  · exact totalsGrow_refl s

/-- The command on the port is the one in hand. -/
theorem commandOnPort_request {s : State} {tag code operand : Byte} (h : s.commandOnPort tag code operand = true) :
    ∃ r, s.mp.request = some r ∧ cmdCode r.access.data = code := by
  simp only [State.commandOnPort] at h
  split at h
  · rename_i r _ hr
    simp only [Bool.and_eq_true, beq_iff_eq] at h
    exact ⟨r, hr, h.1.2⟩
  · cases h

theorem writeOnPort_request {s : State} {x : CaptureTarget} {be : BitVec 4} {data : Word}
    (h : s.writeOnPort x be data = true) : ∃ r, s.mp.request = some r ∧ r.target = x ∧ r.access.be = be := by
  simp only [State.writeOnPort] at h
  split at h
  · rename_i r _ hr
    simp only [Bool.and_eq_true, beq_iff_eq] at h
    exact ⟨r, hr, h.1.1.2, h.1.2⟩
  · cases h

theorem not_clearTotalInHand {s : State} {r : Request} (hr : s.mp.request = some r)
    (h : r.access.write = true → r.target = .commandSlot → r.access.be = 0xF#4 → (cmdCode r.access.data).toNat ≠ 10) :
    ¬clearTotalInHand s := fun ⟨r', hr', write, target, be, code⟩ => by
  rw [hr] at hr'
  cases hr'
  exact h write target be code

theorem guarded_totalsGrow {c : Prop} [Decidable c] {s t : State} (h : c → totalsGrow s t) :
    totalsGrow s (if c then t else s) := by
  split
  · exact h ‹_›
  · exact totalsGrow_refl s

theorem commandStep_totalsGrow (s : State) (tag code operand : Byte) (h : code.toNat ≠ 10) :
    totalsGrow s (s.commandStep tag code operand) :=
  guarded_totalsGrow fun on => completeHost_totalsGrow 0 fun _ => by
    obtain ⟨r, hr, hc⟩ := commandOnPort_request on
    exact not_clearTotalInHand hr fun _ _ _ => hc ▸ h

theorem capturedStep_totalsGrow (s : State) (off : Half) (be : BitVec 4) (data : Word) :
    totalsGrow s (s.capturedStep off be data) := by
  simp only [State.capturedStep]
  split
  · rename_i r hr
    split
    · rename_i target
      refine guarded_totalsGrow fun _ => completeHost_totalsGrow 0 fun _ => not_clearTotalInHand hr fun _ slot => ?_
      rw [target] at slot
      cases slot
    all_goals exact totalsGrow_refl s
  · exact totalsGrow_refl s

theorem rdStep_totalsGrow (s : State) (r : RingId) (data : Word) : totalsGrow s (s.rdStep r data) :=
  guarded_totalsGrow fun on => completeHost_totalsGrow 0 fun _ => by
    obtain ⟨q, hq, target, -⟩ := writeOnPort_request on
    refine not_clearTotalInHand hq fun _ slot => ?_
    rw [target] at slot
    cases slot

theorem activityStep_totalsGrow (s : State) (data : Word) : totalsGrow s (s.activityStep data) :=
  guarded_totalsGrow fun on => completeHost_totalsGrow data fun _ => by
    simp only [State.activityOnPort] at on
    split at on
    · rename_i hr
      simp only [Bool.and_eq_true, Bool.not_eq_true'] at on
      exact not_clearTotalInHand hr fun write => by rw [on.1.2] at write; cases write
    · cases on

theorem partialStep_totalsGrow (s : State) (be : BitVec 4) (data : Word) : totalsGrow s (s.partialStep be data) :=
  guarded_totalsGrow fun on => completeHost_totalsGrow 0 fun _ => by
    obtain ⟨r, hr, -, hbe⟩ := writeOnPort_request on.1
    refine not_clearTotalInHand hr fun _ _ full => absurd on.2 ?_
    rw [← hbe, full]
    decide

theorem takeRequest_totalsGrow (s : State) (a : Access) : totalsGrow s (s.takeRequest a) :=
  totalsGrow_of_sru (by simp)

/-- The effect of every row but CLEAR_TOTAL and the completion of its write. -/
theorem effectOf_totalsGrow (c : Instr) (s : State)
    (h : clearTotalInHand s →
      (∀ tag operand, c ≠ .clearTotal tag operand) ∧ ∀ data, c ≠ .hostForwardedCompletion false data) :
    totalsGrow s (effectOf c s) := by
  cases c with
  | millisecondAdvance => exact totalsGrow_of_sru (by simp [effectOf, State.advanceMs, State.advanceLines])
  | phaseEnd l coilLo => exact totalsGrow_of_moves ((newPins_moves s _).trans (endPhase_moves _ l coilLo))
  | shutdownHoldEnd l => exact totalsGrow_of_moves (endHold_moves s l)
  | coilHiAssert l => exact totalsGrow_of_moves (setCoilHi_moves s l true)
  | coilHiDeassert l => exact totalsGrow_of_moves (setCoilHi_moves s l false)
  | tripPinChange l level => exact totalsGrow_of_moves (setTrip_moves s l level)
  | tripDebounceComplete l => exact totalsGrow_of_moves (completeDebounce_moves s l)
  | restartDelayExpiry l => exact totalsGrow_of_moves (autoRestart_moves s l)
  | frameArrival l bits => exact totalsGrow_of_moves (frameEnds_moves s l bits)
  | silenceTimerExpiry l => exact guarded_totalsGrow fun _ => totalsGrow_of_moves (silenceBegins_moves s l)
  | windowExpiry w => exact guarded_totalsGrow fun _ => totalsGrow_of_moves (expireAll_moves s [w])
  | hostRequestTaken addr write be data => exact guarded_totalsGrow fun _ => takeRequest_totalsGrow s _
  | hostForwardedCompletion err data =>
    exact completeHost_totalsGrow data fun he inHand => (h inHand).2 data (by rw [he])
  | capturedWrite off be data => exact capturedStep_totalsGrow s off be data
  | rdCapture r data => exact rdStep_totalsGrow s r data
  | activitySummaryRead data => exact activityStep_totalsGrow s data
  | commitLine tag operand => exact commandStep_totalsGrow s tag 1 operand (by decide)
  | commitCal tag operand => exact commandStep_totalsGrow s tag 2 operand (by decide)
  | commitWindows tag operand => exact commandStep_totalsGrow s tag 3 operand (by decide)
  | commitDelivery tag operand => exact commandStep_totalsGrow s tag 4 operand (by decide)
  | load tag operand => exact commandStep_totalsGrow s tag 5 operand (by decide)
  | start tag operand => exact commandStep_totalsGrow s tag 6 operand (by decide)
  | stop tag operand => exact commandStep_totalsGrow s tag 7 operand (by decide)
  | halt tag operand => exact commandStep_totalsGrow s tag 8 operand (by decide)
  | restart tag operand => exact commandStep_totalsGrow s tag 9 operand (by decide)
  | clearTotal tag operand =>
    exact guarded_totalsGrow fun _ => completeHost_totalsGrow 0 fun _ inHand => (h inHand).1 tag operand rfl
  | freeze tag operand => exact commandStep_totalsGrow s tag 11 operand (by decide)
  | unknownCommand tag code operand =>
    simp only [effectOf]
    split
    · exact totalsGrow_refl s
    · rename_i unknown
      refine commandStep_totalsGrow s tag code operand fun e => unknown ?_
      simp [knownCode, e]
  | partialCommandWrite be data => exact partialStep_totalsGrow s be data
  | linkWaitIdleExit l => exact guarded_totalsGrow fun _ => totalsGrow_of_moves (receiverIdle_moves s l)
  | _ => exact totalsGrow_of_sru (by simp [effectOf])

/-! ## Totals through a command -/

theorem totalsGrow_grantLaw (s : State) : GrantLaw (totalsGrow s) where
  pins _ _ _ _ h := h
  marked _ _ h := h
  awaited _ _ h := h
  arming _ _ _ h := h.trans (totalsGrow_of_sru (by simp))
  host _ _ _ _ _ h := h.trans (totalsGrow_of_sru (by simp))
  begun _ _ _ _ _ h := h.trans (totalsGrow_of_sru (by simp))

/-- What holds before the effect of a command: no total has decreased, and no other request is in hand. -/
theorem totalsBefore_grantLaw (s : State) : GrantLaw fun u => sameRequest s u ∧ totalsGrow s u where
  pins _ _ _ _ h := h
  marked _ _ h := h
  awaited _ _ h := h
  arming u ha hd h := ⟨h.1.trans (takeArming_sameRequest u), (totalsGrow_grantLaw s).arming u ha hd h.2⟩
  host u n hd hf hn h := ⟨h.1.trans (grantHost_sameRequest u n), (totalsGrow_grantLaw s).host u n hd hf hn h.2⟩
  begun u w hd hf hw h := ⟨h.1.trans (beginWork_sameRequest hw), (totalsGrow_grantLaw s).begun u w hd hf hw h.2⟩

/-- Settles O60: of the rows CLEAR_TOTAL and the completion of its write alone reach the totals other than by a profile,
which adds to them. -/
theorem totalsNeverDecrease : Obligations.TotalsNeverDecrease := by
  intro c s t l hc hclear h
  refine exec_leads (totalsBefore_grantLaw s) (totalsGrow_grantLaw s) (fun _ hu => hu.2) hc (fun u _ _ hu => ?_)
    ⟨sameRequest_of_eq rfl, totalsGrow_refl s⟩ h l
  exact hu.2.trans (effectOf_totalsGrow c u fun inHand => hclear (clearTotalInHand_of hu.1 inHand))

end Sys2Proof.Machine
end

