-- ==== Sys2Proof/Proofs/Queues.lean ====
section
/-! SUPPORT for O56 and O58. What the operations of the Delivery Engine make of a staging queue and its counts (R75 to R77,
R82, R92). -/

namespace Sys2Proof.Machine

/-! ## A profile joins a queue (R75, R76) -/

/-- The queue of a line and its counts after a profile has joined, the head in flight or not. -/
def Staging.joined (g : Staging) (headInFlight : Bool) (x : Profile) : Staging :=
  (if 4 ≤ g.queue.length then
    { g with queue := dropOldest headInFlight g.queue, dropped := g.dropped + 1 }
  else g).place x

theorem stagingJoin_staging (s : State) (l : LineId) (x : Profile) :
    (s.stagingJoin l x).staging l = (s.staging l).joined (s.ringInFlight (profileRing l)) x
      ∧ ∀ k : LineId, k ≠ l → (s.stagingJoin l x).staging k = s.staging k := by
  have raised (t : State) (k : Kind) (src : Source) (d : Nat) (j : LineId) :
      (t.raise k src d).staging j = t.staging j := by simp [State.staging]
  have marked (t : State) (j : LineId) : (t.markLine l).staging j = t.staging j := rfl
  simp only [State.stagingJoin, State.dropStaged, Staging.joined, marked]
  constructor
  · rw [modStaging_staging]
    split
    · rw [raised, modStaging_staging]
    · rfl
  · intro k hk
    rw [modStaging_other _ _ _ _ hk]
    split
    · rw [raised, modStaging_other _ _ _ _ hk]
    · rfl

theorem evalZones_de (s : State) (l : LineId) (zs : List (Fin 4)) :
    (zs.foldl (fun t z => t.evalZone l z) s).de = s.de := foldl_keeps (fun t z => t.evalZone l z) State.de (fun t z => by simp) zs s

theorem takeProfile_staging (s : State) (l : LineId) (x : Profile) :
    (∃ y, (s.takeProfile l x).staging l = (s.staging l).joined (s.ringInFlight (profileRing l)) y)
      ∧ ∀ k : LineId, k ≠ l → (s.takeProfile l x).staging k = s.staging k := by
  have evaluated (t : State) (ht : t.de = s.de) (z : Profile) :
      (∃ y, (((t.reevalLalm l).markLine l).stagingJoin l z).staging l
          = (s.staging l).joined (s.ringInFlight (profileRing l)) y)
        ∧ ∀ k : LineId, k ≠ l → (((t.reevalLalm l).markLine l).stagingJoin l z).staging k = s.staging k := by
    have staging (k : LineId) : ((t.reevalLalm l).markLine l).staging k = s.staging k := by
      simp [State.staging, ht]
    have flight : ((t.reevalLalm l).markLine l).ringInFlight (profileRing l) = s.ringInFlight (profileRing l) := by
      simp [State.ringInFlight, ht]
    obtain ⟨here, there⟩ := stagingJoin_staging ((t.reevalLalm l).markLine l) l z
    exact ⟨⟨z, by rw [here, staging, flight]⟩, fun k hk => by rw [there k hk, staging]⟩
  simp only [State.takeProfile]
  generalize hv : List.foldl _ _ _ = v
  have de : v.de = s.de := by rw [← hv, evalZones_de]; rfl
  exact evaluated v de _

/-- A drop shortens a queue that holds 4 by one (R76). -/
theorem dropOldest_length {q : List Staged} (b : Bool) (h : 4 ≤ q.length) :
    (dropOldest b q).length + 1 = q.length := by
  match b, q, h with
  | true, _ :: _ :: _ :: _, _ => rfl
  | false, _ :: _ :: _, _ => rfl

theorem place_length (g : Staging) (x : Profile) : (g.place x).queue.length = g.queue.length + 1 := by
  simp only [Staging.place]
  split
  · rename_i h; simp [List.isEmpty_iff.mp h]
  · simp

theorem joined_ne_nil (g : Staging) (b : Bool) (x : Profile) : (g.joined b x).queue ≠ [] := by
  have length : (g.joined b x).queue.length = _ + 1 := place_length _ x
  intro h
  rw [h] at length
  cases length

/-! ## The account of a queue (R77) -/

/-- So many profiles produced, modulo 65,536, are delivered, queued, dropped or lost. -/
def accountOf (produced : Half) (g : Staging) : Prop :=
  produced = g.delivered.setWidth 16 + BitVec.ofNat 16 g.queue.length + g.dropped.setWidth 16 + g.faulted.setWidth 16

theorem setWidth_succ (x : Word) : (x + 1).setWidth 16 = x.setWidth 16 + (1 : Half) := by
  rw [BitVec.setWidth_add _ _ (by decide)]
  rfl

theorem ofNat_succ (n : Nat) : BitVec.ofNat 16 (n + 1) = BitVec.ofNat 16 n + (1 : Half) := by
  rw [BitVec.ofNat_add]
  rfl

theorem place_accountOf {n : Half} {g : Staging} (h : accountOf n g) (x : Profile) : accountOf (n + 1) (g.place x) := by
  have counts : (g.place x).delivered = g.delivered ∧ (g.place x).dropped = g.dropped
      ∧ (g.place x).faulted = g.faulted := by
    simp only [Staging.place]
    split <;> exact ⟨rfl, rfl, rfl⟩
  obtain ⟨delivered, dropped, faulted⟩ := counts
  rw [accountOf, delivered, dropped, faulted, place_length, ofNat_succ, h]
  ac_rfl

/-- What leaves the queue is counted where it goes. -/
theorem accountOf_moved {n : Half} {g g' : Staging} (h : accountOf n g) (queue : g'.queue.length + 1 = g.queue.length)
    (counted : (g'.delivered = g.delivered + 1 ∧ g'.dropped = g.dropped ∧ g'.faulted = g.faulted)
      ∨ (g'.delivered = g.delivered ∧ g'.dropped = g.dropped + 1 ∧ g'.faulted = g.faulted)
      ∨ (g'.delivered = g.delivered ∧ g'.dropped = g.dropped ∧ g'.faulted = g.faulted + 1)) : accountOf n g' := by
  rw [accountOf, ← queue, ofNat_succ] at h
  rw [accountOf, h]
  rcases counted with ⟨h1, h2, h3⟩ | ⟨h1, h2, h3⟩ | ⟨h1, h2, h3⟩
  all_goals
    rw [h1, h2, h3, setWidth_succ]
    ac_rfl

theorem joined_accountOf {n : Half} {g : Staging} (h : accountOf n g) (b : Bool) (x : Profile) :
    accountOf (n + 1) (g.joined b x) := by
  refine place_accountOf ?_ x
  split
  · exact accountOf_moved h (dropOldest_length b ‹_›) (.inr (.inl ⟨rfl, rfl, rfl⟩))
  · exact h

/-- The queue after the delivery of its head. -/
def Staging.delivers (g : Staging) : Staging := { g with queue := g.queue.drop 1, delivered := g.delivered + 1 }

theorem delivers_accountOf {n : Half} {g : Staging} (h : accountOf n g) (hq : g.queue ≠ []) : accountOf n g.delivers := by
  refine accountOf_moved h ?_ (.inl ⟨rfl, rfl, rfl⟩)
  cases hg : g.queue with
  | nil => exact absurd hg hq
  | cons x q => simp [Staging.delivers, hg]

theorem loseHead_accountOf {n : Half} {g : Staging} (h : accountOf n g) : accountOf n g.loseHead := by
  simp only [Staging.loseHead]
  split
  · exact h
  · rename_i x hq
    exact accountOf_moved h (by simp [hq]) (.inr (.inr ⟨rfl, rfl, rfl⟩))
  · rename_i x y rest hq
    exact accountOf_moved h (by simp [hq]) (.inr (.inr ⟨rfl, rfl, rfl⟩))

end Sys2Proof.Machine
end

