-- ==== Sys2Proof/Proofs/Account.lean ====
section
/-! PROOF of O56. The account of each line's profiles through every command and step (R77, R82). -/

namespace Sys2Proof.Machine

/-- The account of every line, and the head of its queue there while its record is in flight. -/
def accounted (s : State) : Prop :=
  ∀ l : LineId, accountOf (s.sru l).sequence (s.staging l)
    ∧ (s.ringInFlight (profileRing l) = true → (s.staging l).queue ≠ [])

theorem accounted_iff (s : State) : accounted s ↔ headInFlight s ∧ profilesAccounted s :=
  ⟨fun h => ⟨fun l => (h l).2, fun l => (h l).1⟩, fun h l => ⟨h.2 l, h.1 l⟩⟩

/-- Queues, counts and profiles produced are as they were, and no other record is in flight. -/
structure AccountKept (s t : State) : Prop where
  sequence : ∀ l : LineId, (t.sru l).sequence = (s.sru l).sequence
  staging : t.de.staging = s.de.staging
  flight : ∀ l : LineId, t.ringInFlight (profileRing l) = true → s.ringInFlight (profileRing l) = true

theorem AccountKept.accounted {s t : State} (h : AccountKept s t) (hs : accounted s) : accounted t := fun l => by
  have staging : t.staging l = s.staging l := by simp only [State.staging, h.staging]
  rw [h.sequence, staging]
  exact ⟨(hs l).1, fun inFlight => (hs l).2 (h.flight l inFlight)⟩

theorem AccountKept.refl (s : State) : AccountKept s s := ⟨fun _ => rfl, rfl, fun _ h => h⟩

theorem AccountKept.trans {s t u : State} (h : AccountKept s t) (h' : AccountKept t u) : AccountKept s u :=
  ⟨fun l => (h'.sequence l).trans (h.sequence l), h'.staging.trans h.staging,
    fun l inFlight => h.flight l (h'.flight l inFlight)⟩

theorem ringInFlight_congr {s t : State} (h : t.de.flight = s.de.flight) (r : RingId) :
    t.ringInFlight r = s.ringInFlight r := by
  simp only [State.ringInFlight, h]

theorem accountKept_of_moves {s t : State} (h : Moves True s t)
    (hd : t.de.staging = s.de.staging ∧ t.de.flight = s.de.flight) : AccountKept s t :=
  ⟨h.sequence, hd.1, fun l inFlight => by rwa [ringInFlight_congr hd.2] at inFlight⟩

theorem accountKept_of_frame {s t : State} (h : (∀ l : LineId, t.lines[l.val].sru = s.lines[l.val].sru)
    ∧ t.de.staging = s.de.staging ∧ t.de.flight = s.de.flight) : AccountKept s t :=
  ⟨fun l => congrArg Sru.sequence (h.1 l), h.2.1, fun l inFlight => by rwa [ringInFlight_congr h.2.2] at inFlight⟩

/-! ## The end of a cycle (R45, R75) -/

theorem produce_accounted {s : State} (l : LineId) (hs : accounted s) : accounted (s.produce l) := by
  have flight : (s.produce l).de.flight = s.de.flight := by simp
  simp only [State.produce] at flight ⊢
  split
  · exact hs
  · rename_i c hc
    rw [hc] at flight
    dsimp only at flight
    generalize hx : (s.sru l).formProfile c l _ = x at flight ⊢
    obtain ⟨⟨y, here⟩, there⟩ := takeProfile_staging ((s.modSru l fun u => u.afterProfile c).markLine l) l x
    have sru (k : LineId) : ((((s.modSru l fun u => u.afterProfile c).markLine l).takeProfile l x).modLs l fun q =>
        { q with profileSincePriming := true, attempts := 0 }).sru k = (s.modSru l fun u => u.afterProfile c).sru k := by
      simp [State.sru]
    have staging (k : LineId) : ((((s.modSru l fun u => u.afterProfile c).markLine l).takeProfile l x).modLs l fun q =>
        { q with profileSincePriming := true, attempts := 0 }).staging k
          = (((s.modSru l fun u => u.afterProfile c).markLine l).takeProfile l x).staging k := by simp [State.staging]
    intro k
    rw [sru, staging, ringInFlight_congr flight]
    by_cases hk : k = l
    · subst hk
      rw [here, modSru_sru]
      exact ⟨joined_accountOf (hs k).1 _ y, fun _ => joined_ne_nil _ _ _⟩
    · rw [there k hk, State.sru, show (s.modSru l _).lines[k] = s.lines[k] from modSru_lines_other s l k _ hk]
      exact hs k

theorem endPhase_accounted {s : State} (l : LineId) (coilLo : Bool) (hs : accounted s) :
    accounted (s.endPhase l coilLo) := by
  by_cases h : (s.ls l).phase = some .nWindow
  · rw [endPhase_nWindow coilLo h]
    have off : accounted (s.modLs l fun q => { q with bridge := .allOff }) :=
      (accountKept_of_moves (modLs_moves s l _) (by simp)).accounted hs
    refine (accountKept_of_moves (afterCycle_moves _ l) (by simp)).accounted ?_
    simp only [State.closeCycle]
    split
    · exact produce_accounted l off
    · exact (accountKept_of_moves (modSru_moves _ l) (by simp)).accounted off
  · have staging : (s.endPhase l coilLo).de.staging = s.de.staging := by
      simp only [State.endPhase]
      split
      case h_3 => split <;> simp
      case h_6 => split <;> simp
      case h_7 hp => exact absurd hp h
      all_goals simp
    exact (accountKept_of_moves (endPhase_moves_of s l coilLo h) (by simp [staging])).accounted hs

/-! ## Host accesses (R119 to R124) -/

@[simp] theorem runCommand_queues (s : State) (tag code operand : Byte) :
    (s.runCommand tag code operand).1.de.staging = s.de.staging
      ∧ (s.runCommand tag code operand).1.de.flight = s.de.flight
      ∧ (s.runCommand tag code operand).1.de.rings = s.de.rings := by
  simp only [State.runCommand]
  split
  case h_10 => simp [State.clearTotal]
  all_goals simp

@[simp] theorem takeCommandWrite_queues (s : State) (be : BitVec 4) (data : Word) :
    (s.takeCommandWrite be data).de.staging = s.de.staging ∧ (s.takeCommandWrite be data).de.flight = s.de.flight
      ∧ (s.takeCommandWrite be data).de.rings = s.de.rings := by
  simp only [State.takeCommandWrite, State.takeCommand, State.takePartial]
  split
  · split <;> simp
  · simp

@[simp] theorem handOver_queues (s : State) (r : Request) :
    (s.handOver r).de.staging = s.de.staging ∧ (s.handOver r).de.flight = s.de.flight := by
  have captured (q : RingId) (d : Half) :
      (s.captureRd q d).de.staging = s.de.staging ∧ (s.captureRd q d).de.flight = s.de.flight := by
    simp only [State.captureRd]
    split
    · simp
    · split
      · split <;> simp
      · simp
  simp only [State.handOver]
  split
  · simp
  · split <;> simp
  · simp
  · split
    · exact captured _ _
    · simp

@[simp] theorem completeHost_queues (s : State) (err : Bool) (data : Word) :
    (s.completeHost err data).de.staging = s.de.staging ∧ (s.completeHost err data).de.flight = s.de.flight := by
  simp only [State.completeHost]
  split
  · split
    · split <;> split <;> simp
    · simp
  · simp

theorem runCommand_sequence (s : State) (tag code operand : Byte) (k : LineId) :
    ((s.runCommand tag code operand).1.sru k).sequence = (s.sru k).sequence := by
  by_cases h : code.toNat = 10
  · simp only [State.runCommand, h]
    exact modAt_view s.lines (operandLine operand) k (fun x => { x with sru := x.sru.clearTotals })
      (fun x => x.sru.sequence) fun _ => rfl
  · exact (runCommand_moves (p := True) s tag code operand h).sequence k

theorem handOver_sequence (s : State) (r : Request) (k : LineId) :
    ((s.handOver r).sru k).sequence = (s.sru k).sequence := by
  have recorded (t : State) (tag code : Byte) (x : Reply) : (t.setRecord tag code x).sru k = t.sru k := by
    simp [State.sru]
  simp only [State.handOver]
  split
  · rfl
  · split
    · simp [State.sru]
    · rfl
  · simp only [State.takeCommandWrite, State.takeCommand, State.takePartial]
    split
    · split
      · rw [recorded]
      · rw [recorded, runCommand_sequence]
    · rw [recorded]
  · split
    · simp [State.sru]
    · rfl

theorem completeHost_accountKept (s : State) (err : Bool) (data : Word) : AccountKept s (s.completeHost err data) := by
  refine ⟨fun k => ?_, (completeHost_queues s err data).1, fun l inFlight => ?_⟩
  · have ends (t : State) (r : Request) (d : Option Word) (c : Prop) [Decidable c] :
        (if c then t.freePort.completeUp err d else (t.freePort.completeUp err d).afterFreshRead r).sru k = t.sru k := by
      split <;> simp [State.sru]
    simp only [State.completeHost]
    split
    · split
      · rw [ends]
        split
        · exact handOver_sequence s _ k
        · rfl
      · rfl
    · rfl
  · rwa [ringInFlight_congr (completeHost_queues s err data).2] at inFlight

/-! ## The end of a record (R82, R92) -/

theorem profileDelivered_staging (s : State) (l : LineId) :
    (s.profileDelivered l).staging l = (s.staging l).delivers
      ∧ ∀ k : LineId, k ≠ l → (s.profileDelivered l).staging k = s.staging k := by
  have told (c : Prop) [Decidable c] (t : State) (n : Nat) (k : LineId) :
      (((if c then t.raise .batch (.line l) n else t).markLine l).markPart).staging k = t.staging k := by
    split <;> simp [State.staging]
  simp only [State.profileDelivered, told]
  exact ⟨modStaging_staging _ _ _, fun k hk => modStaging_other _ _ _ _ hk⟩

/-- With its head delivered or lost and nothing in flight, the account of a line stands. -/
theorem accounted_of_headGone {s t : State} {l : LineId} (hs : accounted s)
    (sru : ∀ k : LineId, t.lines[k.val].sru = s.lines[k.val].sru) (flight : t.de.flight = none)
    (here : accountOf (s.sru l).sequence (t.staging l))
    (there : ∀ k : LineId, k ≠ l → t.staging k = s.staging k) : accounted t := fun k => by
  have sru : t.sru k = s.sru k := sru k
  refine ⟨?_, fun inFlight => by simp [State.ringInFlight, flight] at inFlight⟩
  rw [sru]
  by_cases hk : k = l
  · subst hk; exact here
  · rw [there k hk]; exact (hs k).1

@[simp] theorem endFlight_flight (s : State) : s.endFlight.de.flight = none := rfl

theorem no_ringInFlight {s : State} (h : s.de.flight = none) (r : RingId) : ¬s.ringInFlight r = true := by
  simp [State.ringInFlight, h]

theorem endFlight_accounted {s : State} (hs : accounted s) : accounted s.endFlight :=
  AccountKept.accounted (s := s) (t := s.endFlight)
    ⟨fun _ => rfl, rfl, fun _ h => absurd h (no_ringInFlight (endFlight_flight s) _)⟩ hs

theorem deliver_accounted {s : State} {r : RingId} (hs : accounted s) (hf : s.ringInFlight r = true) :
    accounted (s.deliver r) := by
  simp only [State.deliver]
  split
  · rename_i l hl
    rw [ringLine_profile hl] at hf
    obtain ⟨here, there⟩ := profileDelivered_staging s.endFlight l
    refine accounted_of_headGone hs (by simp) (by simp) (l := l) ?_ there
    rw [here]
    exact delivers_accountOf (hs l).1 ((hs l).2 hf)
  · exact (accountKept_of_frame (by simp)).accounted (endFlight_accounted hs)

theorem recordFault_accounted {s : State} {r : RingId} (hs : accounted s) (d : Nat) : accounted (s.recordFault r d) := by
  have told (t : State) (l k : LineId) :
      (((t.raise .deliveryFault (.line l) d).markLine l).markPart).staging k = t.staging k := by simp [State.staging]
  simp only [State.recordFault]
  split
  · rename_i l hl
    refine accounted_of_headGone hs (by simp) (by simp) (l := l) ?_ fun k hk => ?_
    · rw [told, modStaging_staging]
      exact loseHead_accountOf (hs l).1
    · rw [told, modStaging_other _ _ _ _ hk]
      rfl
  · exact (accountKept_of_frame (by simp)).accounted (endFlight_accounted hs)

theorem ringInFlight_iff {s : State} {r : RingId} :
    s.ringInFlight r = true ↔ ∃ slot words done, s.de.flight = some (.record r slot words done) := by
  simp only [State.ringInFlight]
  split
  · rename_i q slot words done hf
    rw [hf]
    simp
  · rename_i h
    simp only [Bool.false_eq_true, false_iff]
    rintro ⟨slot, words, done, hf⟩
    exact h r slot words done hf

theorem freePort_accounted {s : State} (hs : accounted s) : accounted s.freePort :=
  (accountKept_of_frame (by simp)).accounted hs

theorem releaseHeld_accounted {s : State} (hs : accounted s) : accounted s.releaseHeld :=
  (accountKept_of_frame (by simp)).accounted hs

theorem endRecordWord_accounted {s : State} (hs : accounted s) (err : Bool) : accounted (s.endRecordWord err) := by
  simp only [State.endRecordWord]
  split
  · rename_i r slot words done _ hf
    split
    · exact releaseHeld_accounted (recordFault_accounted (freePort_accounted hs) 1)
    · refine AccountKept.accounted (s := s) ⟨fun _ => rfl, rfl, fun _ h => ?_⟩ hs
      simpa [State.ringInFlight, Flight.step, hf] using h
  · exact hs

theorem endWWord_accounted {s : State} (hs : accounted s) (err : Bool) : accounted (s.endWWord err) := by
  simp only [State.endWWord]
  split
  · rename_i r slot words done _ hf
    split
    · exact releaseHeld_accounted (recordFault_accounted (freePort_accounted hs) 2)
    · exact releaseHeld_accounted (deliver_accounted (freePort_accounted hs) (ringInFlight_iff.mpr ⟨_, _, _, hf⟩))
  · exact hs

/-! ## Other completions, and the millisecond counter -/

/-- Nothing is in flight, or a page: no record. -/
theorem accountKept_of_noRecord {s t : State} (h : (∀ l : LineId, t.lines[l.val].sru = s.lines[l.val].sru)
    ∧ t.de.staging = s.de.staging) (flight : ∀ r, ¬t.ringInFlight r = true) : AccountKept s t :=
  ⟨fun l => congrArg Sru.sequence (h.1 l), h.2, fun _ inFlight => absurd inFlight (flight _)⟩

theorem pageFault_queues (s : State) (p : PageId) :
    (∀ l : LineId, (s.pageFault p).lines[l.val].sru = s.lines[l.val].sru) ∧ (s.pageFault p).de.staging = s.de.staging
      ∧ (s.pageFault p).de.flight = none := by
  simp only [State.pageFault]
  split <;> simp

theorem endPageWord_accountKept (s : State) (err : Bool) : AccountKept s (s.endPageWord err) := by
  simp only [State.endPageWord]
  split
  · split
    · exact accountKept_of_noRecord (by simp) (no_ringInFlight (by simp [pageFault_queues s.freePort]))
    · split
      · exact accountKept_of_noRecord (by simp) fun r => by simp [State.ringInFlight, Flight.step]
      · exact accountKept_of_noRecord (by simp) (no_ringInFlight (by simp))
  · exact .refl s

theorem endIndexReset_accountKept (s : State) (err : Bool) : AccountKept s (s.endIndexReset err) := by
  have faulted (t : State) (r : RingId) : AccountKept t (t.indexResetFault r) := by
    simp only [State.indexResetFault]
    split <;> exact accountKept_of_frame (by simp)
  have released (t : State) : AccountKept t t.releaseHeld := accountKept_of_frame (by simp)
  simp only [State.endIndexReset]
  split
  · rename_i r overtaken _ _
    have cleared : AccountKept s (s.freePort.modRing r fun d => { d with resetOut := false }) :=
      accountKept_of_frame (by simp)
    split
    · exact accountKept_of_frame (by simp)
    · split
      · exact (cleared.trans (faulted _ _)).trans (released _)
      · exact cleared.trans (released _)
  · exact .refl s

theorem loadRead_accountKept (s : State) (off : Nat) (err : Bool) (data : Word) :
    AccountKept s (s.loadRead off err data) := by
  simp only [State.loadRead, State.loadAbandoned, State.loadDone, State.markLoadStatus]
  split
  · exact .refl s
  · split
    · split <;> exact accountKept_of_frame (by simp)
    · split
      · split <;> exact accountKept_of_frame (by simp)
      · exact accountKept_of_frame (by simp)

theorem endLoadRead_accountKept (s : State) (err : Bool) (data : Word) : AccountKept s (s.endLoadRead err data) := by
  simp only [State.endLoadRead]
  split
  · exact (accountKept_of_frame (by simp) : AccountKept s s.freePort).trans (loadRead_accountKept _ _ _ _)
  · exact .refl s

theorem releaseBrst_accountKept (s : State) : AccountKept s s.releaseBrst := by
  simp only [State.releaseBrst, State.countReset]
  split
  · split <;> exact accountKept_of_frame (by simp)
  · exact .refl s

/-! ## Every row -/

theorem guarded_accounted {c : Prop} [Decidable c] {s t : State} (hs : accounted s) (h : AccountKept s t) :
    accounted (if c then t else s) := by
  split
  · exact h.accounted hs
  · exact hs

theorem effectOf_accounted (c : Instr) {s : State} (hs : accounted s) : accounted (effectOf c s) := by
  have moved {t : State} (h : Moves True s t) (hd : t.de.staging = s.de.staging ∧ t.de.flight = s.de.flight) :
      accounted t := (accountKept_of_moves h hd).accounted hs
  cases c with
  | phaseEnd l coilLo => exact endPhase_accounted l coilLo ((accountKept_of_moves (newPins_moves s _) (by simp)).accounted hs)
  | shutdownHoldEnd l => exact moved (endHold_moves s l) (by simp [effectOf])
  | coilHiAssert l => exact moved (setCoilHi_moves s l true) (by simp [effectOf])
  | coilHiDeassert l => exact moved (setCoilHi_moves s l false) (by simp [effectOf])
  | tripPinChange l level => exact moved (setTrip_moves s l level) (by simp [effectOf])
  | tripDebounceComplete l => exact moved (completeDebounce_moves s l) (by simp [effectOf])
  | restartDelayExpiry l => exact moved (autoRestart_moves s l) (by simp [effectOf])
  | frameArrival l bits => exact moved (frameEnds_moves s l bits) (by simp [effectOf])
  | silenceTimerExpiry l => exact guarded_accounted hs (accountKept_of_moves (silenceBegins_moves s l) (by simp))
  | windowExpiry w => exact guarded_accounted hs (accountKept_of_moves (expireAll_moves s [w]) (by simp))
  | hostRequestTaken addr write be data => exact guarded_accounted hs (accountKept_of_frame (by simp))
  | hostForwardedCompletion | capturedWrite | rdCapture | activitySummaryRead | commitLine | commitCal | commitWindows
  | commitDelivery | load | start | stop | halt | restart | clearTotal | freeze | unknownCommand | partialCommandWrite =>
    exact effectOf_completes_keeps hs (fun err data => (completeHost_accountKept s err data).accounted hs) rfl
  | indexResetWriteComplete err => exact (endIndexReset_accountKept s err).accounted hs
  | recordWordComplete err => exact endRecordWord_accounted hs err
  | wWordWriteComplete err => exact endWWord_accounted hs err
  | pageWordComplete err => exact (endPageWord_accountKept s err).accounted hs
  | loadReadComplete err data => exact (endLoadRead_accountKept s err data).accounted hs
  | linkWaitIdleExit l => exact guarded_accounted hs (accountKept_of_moves (receiverIdle_moves s l) (by simp))
  | millisecondAdvance =>
    exact (accountKept_of_frame (by simp [effectOf, State.advanceMs, State.advanceLines])).accounted hs
  | busResetAssert => exact (accountKept_of_frame (by simp [effectOf])).accounted hs
  | busResetRelease => exact (releaseBrst_accountKept s).accounted hs
  | discardedAccessCompletion => exact (accountKept_of_frame (by simp [effectOf])).accounted hs
  | commandStatusWriteComplete => exact (accountKept_of_frame (by simp [effectOf])).accounted hs
  | freshWordRefreshComplete => exact (accountKept_of_frame (by simp [effectOf])).accounted hs
  | _ => exact hs

/-! ## Every step -/

theorem profileRing_ne_notice (l : LineId) : noticeRing ≠ profileRing l :=
  fun h => Nat.ne_of_gt l.isLt (congrArg Fin.val h)

theorem profileRing_inj {k l : LineId} (h : profileRing k = profileRing l) : k = l := Fin.castSucc_inj.mp h

theorem ringInFlight_record {s : State} {q r : RingId} {slot done : Nat} {words : List Word}
    (hf : s.de.flight = some (.record q slot words done)) (h : s.ringInFlight r = true) : q = r := by
  simpa [State.ringInFlight, hf] using h

/-- The lines are as they were, and of the Delivery Engine what is in flight and no queue may differ. -/
theorem accounted_of_flight {s t : State} (hs : accounted s) (lines : t.lines = s.lines)
    (staging : t.de.staging = s.de.staging)
    (flight : ∀ l : LineId, t.ringInFlight (profileRing l) = true → (s.staging l).queue ≠ []) : accounted t := fun l => by
  have sru : t.sru l = s.sru l := by rw [State.sru, State.sru, lines]
  have staging : t.staging l = s.staging l := by rw [State.staging, State.staging, staging]
  rw [sru, staging]
  exact ⟨(hs l).1, flight l⟩

theorem nextProfile_record {s : State} {b : LineId × Staged} (h : s.nextProfile = some b) :
    ∃ l, s.lineRecord l = some b := by
  have better {best : Option (LineId × Staged)} {l : LineId} (e : s.betterRecord best l = some b) :
      best = some b ∨ s.lineRecord l = some b := by
    simp only [State.betterRecord] at e
    split at e
    · exact .inr e
    · exact .inl e
    · rename_i c x hx
      split at e
      · exact .inr (hx.trans e)
      · exact .inl e
  have fold (ls : List LineId) : ∀ best, ls.foldl s.betterRecord best = some b →
      best = some b ∨ ∃ l, s.lineRecord l = some b := by
    induction ls with
    | nil => exact fun best e => .inl e
    | cons l ls ih =>
      intro best e
      rcases ih _ e with e | e
      · exact (better e).imp id fun e => ⟨l, e⟩
      · exact .inr e
  rcases fold _ _ h with e | e
  · cases e
  · exact e

/-- Work that puts a record or a page in flight. -/
def DeWork.begins : DeWork → Bool
  | .notice _ | .profile _ _ | .page _ => true
  | .fresh _ | .flightWord | .indexReset _ | .commandStatus | .loadRead _ => false

/-- Such work is the choice of R86's last items. -/
theorem nextBeginning_of_deNext {s : State} {w : DeWork} (h : s.deNext = some w) (hw : w.begins = true) :
    s.nextBeginning = some w := by
  have other {x : DeWork} (hx : x.begins = false) (e : some x = some w) : s.nextBeginning = some w := by
    cases e
    rw [hx] at hw
    cases hw
  simp only [State.deNext] at h
  split at h
  · exact other rfl h
  · split at h
    · exact other rfl h
    · split at h
      · exact other rfl h
      · split at h
        · exact other rfl h
        · split at h
          · exact other rfl h
          · exact h

/-- A profile to be begun is the head of its queue, and its ring can take it (R82). -/
theorem deNext_profile {s : State} {l : LineId} {g : Staged} (h : s.deNext = some (.profile l g)) :
    (s.ring (profileRing l)).canTake = true ∧ (s.staging l).queue ≠ [] := by
  have begins := nextBeginning_of_deNext h rfl
  have next : s.nextProfile = some (l, g) := by
    simp only [State.nextBeginning] at begins
    (repeat' split at begins) <;> cases begins
    assumption
  obtain ⟨k, hk⟩ := nextProfile_record next
  simp only [State.lineRecord] at hk
  split at hk
  · obtain ⟨x, hx, e⟩ := Option.map_eq_some_iff.mp hk
    cases e
    exact ⟨‹_›, fun empty => by rw [empty] at hx; cases hx⟩
  · cases hk

/-- A record is begun of the head of a queue (R82). -/
theorem beginWork_accounted {s : State} {w : DeWork} (hw : s.deNext = some w) (hs : accounted s) :
    accounted (s.beginWork w) := by
  obtain ⟨-, lines, -, -, h⟩ := beginWork_spec hw rfl
  have kept (de : (s.beginWork w).de.staging = s.de.staging ∧ (s.beginWork w).de.flight = s.de.flight) :
      accounted (s.beginWork w) :=
    accounted_of_flight hs lines de.1 fun l inFlight => (hs l).2 (by rwa [ringInFlight_congr de.2] at inFlight)
  cases w with
  | fresh w => exact kept (by simp [h.1])
  | flightWord => exact kept (by simp [h.2.2.1])
  | indexReset r => exact kept (by simp [h.2.2.1])
  | commandStatus => exact kept (by simp [h.2.2.1])
  | loadRead off => exact kept (by simp [h.2.2.1])
  | notice e =>
    obtain ⟨⟨de, -⟩, -⟩ := h
    refine accounted_of_flight hs lines (by rw [de]) fun l inFlight => ?_
    exact absurd (ringInFlight_record (by rw [de]) inFlight) (profileRing_ne_notice l)
  | profile l g =>
    obtain ⟨⟨de, -⟩, -⟩ := h
    refine accounted_of_flight hs lines (by rw [de]) fun k inFlight => ?_
    rw [← profileRing_inj (ringInFlight_record (by rw [de]) inFlight)]
    exact (deNext_profile hw).2
  | page x =>
    obtain ⟨de, -⟩ := h
    refine accounted_of_flight hs lines (by rw [de]) fun l inFlight => ?_
    have flight : (s.beginWork (.page x)).de.flight = some (.page x (s.pageSnapshot x (s.firstPartWrite x)) 0) := by
      rw [de]
    simp [State.ringInFlight, flight] at inFlight

theorem powerOn_accounted (p : Pins) (base : Byte) (free : Nat) (rest : List Instr) :
    accounted (State.powerOn p base free rest) := fun l => by
  refine ⟨?_, fun h => absurd h (no_ringInFlight rfl _)⟩
  have sru : (State.powerOn p base free rest).sru l = .reset := by simp [State.sru, State.powerOn, Line.reset]
  have staging : (State.powerOn p base free rest).staging l = .reset := by
    rw [State.staging, show (State.powerOn p base free rest).de.staging = Vector.replicate 4 .reset from rfl,
      Fin.getElem_fin, Vector.getElem_replicate]
  rw [sru, staging]
  rfl

theorem takeArming_staging (s : State) : s.takeArming.de.staging = s.de.staging := by
  simp only [State.takeArming]
  (repeat' split) <;> simp [State.armingApplied, De.arm]

theorem tick_accountKept (s : State) : AccountKept s s.tick :=
  ⟨fun l => by simp [State.sru, State.tick, Line.tick], rfl, fun _ h => h⟩

theorem accounted_stepLaw : StepLaw accounted where
  pins _ _ _ _ hs := hs
  marked _ _ ht := ht
  awaited _ _ hs := hs
  arming s _ hd hs :=
    accounted_of_flight hs (by simp) (takeArming_staging s) fun _ h => absurd h (no_ringInFlight (takeArming_waits hd).2 _)
  host s n _ _ _ hs := (accountKept_of_frame (by simp)).accounted hs
  begun _ _ _ _ hw hs := beginWork_accounted hw hs
  effect c _ _ _ hu := effectOf_accounted c hu
  powerOn := powerOn_accounted
  pending _ _ hs := hs
  tick s hs := (tick_accountKept s).accounted hs

/-- Settles O56: a profile produced joins its queue in the same action, and leaves it delivered, dropped or lost. -/
theorem stepKeepsAccount : Obligations.StepKeepsAccount := fun s t hh ha h =>
  (accounted_iff t).mp (accounted_stepLaw.step ((accounted_iff s).mpr ⟨hh, ha⟩) h)

end Sys2Proof.Machine
end

