-- ==== Sys2Proof/Proofs/RingLaw.lean ====
section
/-! PROOF of O57. Every ring's fill within its capacity through every command and step (R78, R82, R84). -/

namespace Sys2Proof.Machine

/-! ## What the law reads of a ring -/

/-- The fill of an armed ring within its capacity, and the capacity within R78's. -/
def RingDesc.fits (d : RingDesc) : Prop := d.armed = true → d.fill ≤ d.capacity ∧ d.capacity ≤ 512

/-- A ring with space for a record. -/
def RingDesc.hasRoom (d : RingDesc) : Prop := d.armed = true ∧ d.fill < d.capacity

/-- A section of an arming request gives every ring a capacity within R78's. -/
def capacitiesFit (b : Bytes) : Prop := ∀ r : RingId, ringCapacity b r.val ≤ 512

theorem ringLaw_iff (s : State) : ringLaw s ↔ (∀ r, (s.ring r).fits) ∧ (∀ r, s.ringInFlight r = true → (s.ring r).hasRoom)
    ∧ ∀ a, s.de.arming = some a → capacitiesFit a.bytes := Iff.rfl

/-- What the law reads of a ring. -/
def RingDesc.bounds (d : RingDesc) : Bool × Nat × Half × Half := (d.armed, d.capacity, d.w, d.rd)

theorem bounds_fits {d e : RingDesc} (h : e.bounds = d.bounds) : (e.fits ↔ d.fits) ∧ (e.hasRoom ↔ d.hasRoom) := by
  simp only [RingDesc.bounds, Prod.mk.injEq] at h
  obtain ⟨armed, capacity, w, rd⟩ := h
  simp only [RingDesc.fits, RingDesc.hasRoom, RingDesc.fill, armed, capacity, w, rd, and_self]

/-- What the law reads is as it was, but that no other record is in flight. -/
structure RingsKept (s t : State) : Prop where
  ring : ∀ r : RingId, (t.ring r).bounds = (s.ring r).bounds
  flight : ∀ r : RingId, t.ringInFlight r = true → s.ringInFlight r = true
  arming : t.de.arming = s.de.arming

theorem RingsKept.ringLaw {s t : State} (h : RingsKept s t) (hs : ringLaw s) : ringLaw t := by
  obtain ⟨fits, room, arming⟩ := (ringLaw_iff s).mp hs
  refine (ringLaw_iff t).mpr ⟨fun r => (bounds_fits (h.ring r)).1.mpr (fits r), fun r hr => ?_, ?_⟩
  · exact (bounds_fits (h.ring r)).2.mpr (room r (h.flight r hr))
  · rw [h.arming]; exact arming

theorem ringsKept_of_frame {s t : State}
    (h : t.de.rings = s.de.rings ∧ t.de.flight = s.de.flight ∧ t.de.arming = s.de.arming) : RingsKept s t :=
  ⟨fun r => by simp only [State.ring, h.1], fun r hr => by rwa [ringInFlight_congr h.2.1] at hr, h.2.2⟩

theorem RingsKept.refl (s : State) : RingsKept s s := ringsKept_of_frame ⟨rfl, rfl, rfl⟩

theorem RingsKept.trans {s t u : State} (h : RingsKept s t) (h' : RingsKept t u) : RingsKept s u :=
  ⟨fun r => (h'.ring r).trans (h.ring r), fun r hr => h.flight r (h'.flight r hr), h'.arming.trans h.arming⟩

theorem modRing_ringsKept (s : State) (r : RingId) {f : RingDesc → RingDesc} (h : ∀ d, (f d).bounds = d.bounds) :
    RingsKept s (s.modRing r f) :=
  ⟨fun k => modAt_view s.de.rings r k f RingDesc.bounds h, fun _ hk => hk, rfl⟩

theorem endFlight_ringsKept (s : State) : RingsKept s s.endFlight :=
  ⟨fun _ => rfl, fun _ h => absurd h (no_ringInFlight (endFlight_flight s) _), rfl⟩

/-- With nothing in flight only the rings and the arming request are of interest. -/
theorem ringLaw_of_changed {s t : State} {r : RingId} (hs : ringLaw s) (fits : (t.ring r).fits)
    (other : ∀ k : RingId, k ≠ r → t.ring k = s.ring k) (flight : ∀ k, t.ringInFlight k = true → (t.ring k).hasRoom)
    (arming : t.de.arming = s.de.arming) : ringLaw t := by
  refine (ringLaw_iff t).mpr ⟨fun k => ?_, flight, by rw [arming]; exact ((ringLaw_iff s).mp hs).2.2⟩
  by_cases hk : k = r
  · rw [hk]; exact fits
  · rw [other k hk]; exact ((ringLaw_iff s).mp hs).1 k

/-! ## W advances, Rd is captured (R82, R84) -/

/-- One record more in a ring that has room. -/
theorem fits_advance {d : RingDesc} (hd : d.fits) (h : d.hasRoom) : ({ d with w := d.w + 1 } : RingDesc).fits := by
  obtain ⟨armed, room⟩ := h
  obtain ⟨-, small⟩ := hd armed
  refine fun _ => ⟨?_, small⟩
  have room : (d.w - d.rd).toNat < d.capacity := room
  show (d.w + 1 - d.rd).toNat ≤ d.capacity
  bv_omega

/-- Software takes records that the ring holds. -/
theorem fill_capture {d : RingDesc} {newRd : Half} (h : d.advance newRd ≤ d.fill) :
    ({ d with rd := newRd } : RingDesc).fill ≤ d.fill := by
  have h : (newRd - d.rd).toNat ≤ (d.w - d.rd).toNat := h
  show (d.w - newRd).toNat ≤ (d.w - d.rd).toNat
  bv_omega

theorem captureRd_ringLaw {s : State} (hs : ringLaw s) (r : RingId) (newRd : Half) : ringLaw (s.captureRd r newRd) := by
  have consumed (t : State) (n : Nat) : RingsKept t (t.consumed n) := ringsKept_of_frame (by simp)
  have marked (t : State) : RingsKept t t.markPart := ringsKept_of_frame (by simp)
  obtain ⟨fits, room, -⟩ := (ringLaw_iff s).mp hs
  simp only [State.captureRd]
  split
  · exact hs
  · split
    · rename_i within
      have fill := fill_capture within
      have read : ringLaw (s.modRing r fun x => { x with rd := newRd }) := by
        refine ringLaw_of_changed (r := r) hs ?_ (fun k hk => modRing_other _ _ _ _ hk) (fun k hk => ?_) rfl
        · rw [modRing_ring]
          exact fun armed => ⟨Nat.le_trans fill (fits r armed).1, (fits r armed).2⟩
        · have hroom := room k hk
          by_cases hkr : k = r
          · subst hkr
            rw [modRing_ring]
            exact ⟨hroom.1, Nat.lt_of_le_of_lt fill hroom.2⟩
          · rw [modRing_other _ _ _ _ hkr]; exact hroom
      split
      · exact ((marked _).trans (consumed _ _)).ringLaw read
      · exact (marked _).ringLaw read
    · exact (ringsKept_of_frame (by simp)).ringLaw hs

theorem advanceW_ringLaw {s : State} {r : RingId} (hs : ringLaw s) (h : (s.ring r).hasRoom) :
    ringLaw (s.endFlight.advanceW r) := by
  refine ringLaw_of_changed (r := r) hs ?_ (fun k hk => modRing_other _ _ _ _ hk)
    (fun k hk => absurd hk (no_ringInFlight rfl k)) rfl
  rw [State.advanceW, modRing_ring]
  exact fits_advance (((ringLaw_iff s).mp hs).1 r) h

theorem served_bounds (d : RingDesc) : d.served.bounds = d.bounds := by
  simp only [RingDesc.served]
  split
  · rfl
  · split <;> rfl

theorem deliver_ringLaw {s : State} {r : RingId} (hs : ringLaw s) (hf : s.ringInFlight r = true) :
    ringLaw (s.deliver r) := by
  have advanced := advanceW_ringLaw hs (((ringLaw_iff s).mp hs).2.1 r hf)
  simp only [State.deliver]
  split
  · rename_i l hl
    have told (c : Prop) [Decidable c] (t : State) (n : Nat) :
        RingsKept t (((if c then t.raise .batch (.line l) n else t).markLine l).markPart) :=
      ringsKept_of_frame (by split <;> simp)
    have left (t : State) (f : Staging → Staging) : RingsKept t (t.modStaging l f) := ringsKept_of_frame (by simp)
    rw [ringLine_profile hl] at advanced
    simp only [State.profileDelivered]
    exact (((modRing_ringsKept _ _ served_bounds).trans (left _ _)).trans (told _ _ _)).ringLaw advanced
  · exact (ringsKept_of_frame (by simp)).ringLaw advanced

/-! ## Faults and other completions -/

theorem faultRing_ringsKept (s : State) (r : RingId) : RingsKept s (s.faultRing r) :=
  modRing_ringsKept s r fun _ => rfl

theorem recordFault_ringsKept (s : State) (r : RingId) (d : Nat) : RingsKept s (s.recordFault r d) := by
  have told (t : State) (l : LineId) :
      RingsKept t ((((t.modStaging l (·.loseHead)).raise .deliveryFault (.line l) d).markLine l).markPart) :=
    ringsKept_of_frame (by simp)
  have returned (t : State) : RingsKept t t.entryReturned := ringsKept_of_frame (by simp)
  have faulted := (endFlight_ringsKept s).trans (faultRing_ringsKept _ r)
  simp only [State.recordFault]
  split
  · exact faulted.trans (told _ _)
  · exact faulted.trans (returned _)

theorem freePort_ringsKept (s : State) : RingsKept s s.freePort := ringsKept_of_frame (by simp)
theorem releaseHeld_ringsKept (s : State) : RingsKept s s.releaseHeld := ringsKept_of_frame (by simp)

theorem endRecordWord_ringsKept (s : State) (err : Bool) : RingsKept s (s.endRecordWord err) := by
  simp only [State.endRecordWord]
  split
  · rename_i r slot words done _ hf
    split
    · exact ((freePort_ringsKept s).trans (recordFault_ringsKept _ r 1)).trans (releaseHeld_ringsKept _)
    · refine ⟨fun _ => rfl, fun k h => ?_, rfl⟩
      simpa [State.ringInFlight, Flight.step, hf] using h
  · exact .refl s

theorem endWWord_ringLaw {s : State} (hs : ringLaw s) (err : Bool) : ringLaw (s.endWWord err) := by
  simp only [State.endWWord]
  split
  · rename_i r slot words done _ hf
    split
    · exact (((freePort_ringsKept s).trans (recordFault_ringsKept _ r 2)).trans (releaseHeld_ringsKept _)).ringLaw hs
    · exact (releaseHeld_ringsKept _).ringLaw
        (deliver_ringLaw ((freePort_ringsKept s).ringLaw hs) (ringInFlight_iff.mpr ⟨_, _, _, hf⟩))
  · exact hs

theorem endPageWord_ringsKept (s : State) (err : Bool) : RingsKept s (s.endPageWord err) := by
  have ended (t : State) (p : PageId) : RingsKept t (t.pageEnded p) := ringsKept_of_frame (by simp)
  have told (t : State) (p : PageId) : RingsKept t ((t.modPage p fun _ => { dirty := true, faulted := true }).raise
      .deliveryFault .part (pageFaultDetail p)) := ringsKept_of_frame (by simp)
  have marked (t : State) : RingsKept t t.markPart := ringsKept_of_frame (by simp)
  have faulted (t : State) (p : PageId) : RingsKept t (t.pageFault p) := by
    simp only [State.pageFault]
    split
    · exact ((endFlight_ringsKept t).trans (told _ p)).trans (ended _ p)
    · exact (((endFlight_ringsKept t).trans (told _ p)).trans (marked _)).trans (ended _ p)
  simp only [State.endPageWord]
  split
  · split
    · exact ((freePort_ringsKept s).trans (faulted _ _)).trans (releaseHeld_ringsKept _)
    · split
      · exact ⟨fun _ => rfl, fun r hr => by simp [State.ringInFlight, Flight.step] at hr, rfl⟩
      · exact (((freePort_ringsKept s).trans (endFlight_ringsKept _)).trans (ended _ _)).trans (releaseHeld_ringsKept _)
  · exact .refl s

theorem endIndexReset_ringsKept (s : State) (err : Bool) : RingsKept s (s.endIndexReset err) := by
  have told (t : State) (l : LineId) :
      RingsKept t ((((t.raise .deliveryFault (.line l) 2).markLine l).markPart)) := ringsKept_of_frame (by simp)
  have withdrawn (t : State) : RingsKept t t.returnWaitingOffer.markPart := ringsKept_of_frame (by simp)
  have faulted (t : State) (r : RingId) : RingsKept t (t.indexResetFault r) := by
    simp only [State.indexResetFault]
    split
    · exact (faultRing_ringsKept t r).trans (told _ _)
    · exact (faultRing_ringsKept t r).trans (withdrawn _)
  simp only [State.endIndexReset]
  split
  · rename_i r overtaken _ _
    have cleared : RingsKept s (s.freePort.modRing r fun d => { d with resetOut := false }) :=
      (freePort_ringsKept s).trans (modRing_ringsKept _ r fun _ => rfl)
    split
    · exact freePort_ringsKept s
    · split
      · exact (cleared.trans (faulted _ _)).trans (releaseHeld_ringsKept _)
      · exact cleared.trans (releaseHeld_ringsKept _)
  · exact .refl s

theorem endLoadRead_ringsKept (s : State) (err : Bool) (data : Word) : RingsKept s (s.endLoadRead err data) := by
  have read (t : State) (off : Nat) : RingsKept t (t.loadRead off err data) := by
    simp only [State.loadRead, State.loadAbandoned, State.loadDone, State.markLoadStatus]
    split
    · exact .refl t
    · split
      · split <;> exact ringsKept_of_frame (by simp)
      · split
        · split <;> exact ringsKept_of_frame (by simp)
        · exact ringsKept_of_frame (by simp)
  simp only [State.endLoadRead]
  split
  · exact (freePort_ringsKept s).trans (read _ _)
  · exact .refl s

/-! ## Commands (R148, R156) -/

/-- Each test of a section that passes validation is passed (R151). -/
theorem firstFailure_none {ts : List FieldTest} (h : firstFailure ts = none) {x : FieldTest} (hx : x ∈ ts) :
    x.2 = true := by
  simp only [firstFailure, Option.map_eq_none_iff, List.find?_eq_none, Bool.not_eq_true', Bool.not_eq_false] at h
  simpa using h x hx

/-- A delivery section that passes validation has capacities of R78 (R151). -/
theorem capacitiesFit_of_valid {b : Bytes} (h : firstFailure (deliveryTests b) = none) : capacitiesFit b := fun r => by
  have mem : (16 * r.val + 6, (ringCapacities r.val).contains (ringCapacity b r.val)) ∈ deliveryTests b := by
    simp only [deliveryTests, List.mem_append, List.mem_flatMap, List.mem_range]
    exact .inl (.inl ⟨r.val, r.isLt, by simp [ringTests]⟩)
  have passed := firstFailure_none h mem
  simp only [List.contains_iff_mem] at passed
  have small : ∀ n ∈ ringCapacities r.val, n ≤ 512 := by
    simp only [ringCapacities]
    split <;> decide
  exact small _ passed

theorem commitDelivery_ringLaw {s : State} (hs : ringLaw s) (tag : Byte) : ringLaw (s.commitDelivery tag).1 := by
  simp only [State.commitDelivery]
  split
  · exact hs
  · rename_i valid
    obtain ⟨fits, room, -⟩ := (ringLaw_iff s).mp hs
    refine (ringLaw_iff _).mpr ⟨fits, room, fun a ha => ?_⟩
    cases ha
    exact capacitiesFit_of_valid valid

/-- Of the commands COMMIT_DELIVERY alone hands an arming request over (R156). -/
theorem runCommand_arming (s : State) (tag code operand : Byte) (h : code.toNat ≠ 4) :
    (s.runCommand tag code operand).1.de.arming = s.de.arming := by
  simp only [State.runCommand]
  split
  case h_4 hc => exact absurd hc h
  case h_10 => simp [State.clearTotal]
  all_goals simp

theorem runCommand_ringLaw {s : State} (hs : ringLaw s) (tag code operand : Byte) :
    ringLaw (s.runCommand tag code operand).1 := by
  by_cases h : code.toNat = 4
  · simp only [State.runCommand, h]
    exact commitDelivery_ringLaw hs tag
  · exact (ringsKept_of_frame (by simp [runCommand_arming s tag code operand h])).ringLaw hs

theorem handOver_ringLaw {s : State} (hs : ringLaw s) (r : Request) : ringLaw (s.handOver r) := by
  have recorded (t : State) (tag code : Byte) (x : Reply) : RingsKept t (t.setRecord tag code x) :=
    ringsKept_of_frame (by simp)
  simp only [State.handOver]
  split
  · exact hs
  · split
    · exact (ringsKept_of_frame (by simp)).ringLaw hs
    · exact hs
  · simp only [State.takeCommandWrite, State.takeCommand, State.takePartial]
    split
    · split
      · exact (recorded _ _ _ _).ringLaw hs
      · exact (recorded _ _ _ _).ringLaw (runCommand_ringLaw hs _ _ _)
    · exact (recorded _ _ _ _).ringLaw hs
  · split
    · exact captureRd_ringLaw hs _ _
    · exact hs

theorem completeHost_ringLaw {s : State} (hs : ringLaw s) (err : Bool) (data : Word) :
    ringLaw (s.completeHost err data) := by
  have ends (t : State) (r : Request) (d : Option Word) (c : Prop) [Decidable c] :
      RingsKept t (if c then t.freePort.completeUp err d else (t.freePort.completeUp err d).afterFreshRead r) := by
    split <;> exact ringsKept_of_frame (by simp)
  simp only [State.completeHost]
  split
  · split
    · refine (ends _ _ _ _).ringLaw ?_
      split
      · exact handOver_ringLaw hs _
      · exact hs
    · exact hs
  · exact hs

/-! ## Every row -/

theorem guarded_ringLaw {c : Prop} [Decidable c] {s t : State} (hs : ringLaw s) (h : RingsKept s t) :
    ringLaw (if c then t else s) := guarded_keeps hs (h.ringLaw hs)

theorem releaseBrst_ringsKept (s : State) : RingsKept s s.releaseBrst := by
  simp only [State.releaseBrst, State.countReset]
  split
  · split <;> exact ringsKept_of_frame (by simp)
  · exact .refl s

theorem effectOf_ringLaw (c : Instr) {s : State} (hs : ringLaw s) : ringLaw (effectOf c s) := by
  cases c with
  | silenceTimerExpiry l => exact guarded_ringLaw hs (ringsKept_of_frame (by simp))
  | windowExpiry w => exact guarded_ringLaw hs (ringsKept_of_frame (by simp))
  | hostRequestTaken addr write be data => exact guarded_ringLaw hs (ringsKept_of_frame (by simp))
  | hostForwardedCompletion | capturedWrite | rdCapture | activitySummaryRead | commitLine | commitCal | commitWindows
  | commitDelivery | load | start | stop | halt | restart | clearTotal | freeze | unknownCommand | partialCommandWrite =>
    exact effectOf_completes_keeps hs (completeHost_ringLaw hs) rfl
  | indexResetWriteComplete err => exact (endIndexReset_ringsKept s err).ringLaw hs
  | recordWordComplete err => exact (endRecordWord_ringsKept s err).ringLaw hs
  | wWordWriteComplete err => exact endWWord_ringLaw hs err
  | pageWordComplete err => exact (endPageWord_ringsKept s err).ringLaw hs
  | loadReadComplete err data => exact (endLoadRead_ringsKept s err data).ringLaw hs
  | linkWaitIdleExit l => exact guarded_ringLaw hs (ringsKept_of_frame (by simp))
  | busResetRelease => exact (releaseBrst_ringsKept s).ringLaw hs
  | _ => exact (ringsKept_of_frame (by simp [effectOf, State.advanceMs, State.advanceLines])).ringLaw hs

/-! ## Every step -/

/-- R82: what lets a ring take a record. -/
theorem canTake_iff {d : RingDesc} : d.canTake = true ↔
    d.armed = true ∧ d.faulted = false ∧ d.resetOut = false ∧ d.fill < d.capacity := by
  simp only [RingDesc.canTake, RingDesc.space, Bool.and_eq_true, Bool.not_eq_true', decide_eq_true_eq, Nat.sub_pos_iff_lt,
    and_assoc]

theorem canTake_hasRoom {d : RingDesc} (h : d.canTake = true) : d.hasRoom := by
  obtain ⟨armed, -, -, room⟩ := canTake_iff.mp h
  exact ⟨armed, room⟩

/-- A notice entry is begun where the notice ring can take it (R82). -/
theorem deNext_notice_canTake {s : State} {e : Entry} (h : s.deNext = some (.notice e)) :
    (s.ring noticeRing).canTake = true := by
  have begins := nextBeginning_of_deNext h rfl
  have next : s.nextNotice = some e := by
    simp only [State.nextBeginning] at begins
    (repeat' split at begins) <;> cases begins
    assumption
  simp only [State.nextNotice] at next
  split at next
  · assumption
  · cases next

/-- Of the rings nothing has changed, and a record in flight has room. -/
theorem ringLaw_of_flight {s t : State} (hs : ringLaw s) (rings : t.de.rings = s.de.rings)
    (arming : t.de.arming = s.de.arming) (flight : ∀ r, t.ringInFlight r = true → (s.ring r).hasRoom) : ringLaw t := by
  have ring (r : RingId) : t.ring r = s.ring r := by rw [State.ring, State.ring, rings]
  obtain ⟨fits, -, caps⟩ := (ringLaw_iff s).mp hs
  exact (ringLaw_iff t).mpr ⟨fun r => by rw [ring]; exact fits r, fun r hr => by rw [ring]; exact flight r hr,
    by rw [arming]; exact caps⟩

theorem beginWork_ringLaw {s : State} {w : DeWork} (hw : s.deNext = some w) (hs : ringLaw s) :
    ringLaw (s.beginWork w) := by
  obtain ⟨-, -, -, -, h⟩ := beginWork_spec hw rfl
  have kept (de : (s.beginWork w).de.rings = s.de.rings ∧ (s.beginWork w).de.flight = s.de.flight
      ∧ (s.beginWork w).de.arming = s.de.arming) : ringLaw (s.beginWork w) := (ringsKept_of_frame de).ringLaw hs
  cases w with
  | fresh w => exact kept (by simp [h.1])
  | flightWord => exact kept (by simp [h.2.2.1])
  | indexReset r => exact kept (by simp [h.2.2.1])
  | commandStatus => exact kept (by simp [h.2.2.1])
  | loadRead off => exact kept (by simp [h.2.2.1])
  | notice e =>
    obtain ⟨⟨de, -⟩, -⟩ := h
    refine ringLaw_of_flight hs (by rw [de]) (by rw [de]) fun r inFlight => ?_
    rw [← ringInFlight_record (by rw [de]) inFlight]
    exact canTake_hasRoom (deNext_notice_canTake hw)
  | profile l g =>
    obtain ⟨⟨de, -⟩, -⟩ := h
    refine ringLaw_of_flight hs (by rw [de]) (by rw [de]) fun r inFlight => ?_
    rw [← ringInFlight_record (by rw [de]) inFlight]
    exact canTake_hasRoom (deNext_profile hw).1
  | page x =>
    obtain ⟨de, -⟩ := h
    refine ringLaw_of_flight hs (by rw [de]) (by rw [de]) fun r inFlight => ?_
    have flight : (s.beginWork (.page x)).de.flight = some (.page x (s.pageSnapshot x (s.firstPartWrite x)) 0) := by
      rw [de]
    simp [State.ringInFlight, flight] at inFlight

theorem takeArming_ring {s : State} {a : Arming} (ha : s.de.arming = some a) (hf : s.de.flight = none) (r : RingId) :
    s.takeArming.ring r = armRing a.bytes r (s.ring r) := by
  have rings : s.takeArming.de.rings = Vector.ofFn fun r : RingId => armRing a.bytes r s.de.rings[r] := by
    simp only [State.takeArming, ha, hf, Option.isSome_none, Bool.false_eq_true, if_false]
    (repeat' split) <;> simp [State.armingApplied, De.arm]
  simp [State.ring, rings]

/-- What an arming makes of a ring fits, where the section's capacities do (R80). -/
theorem armRing_fits {b : Bytes} {r : RingId} {d : RingDesc} (hb : capacitiesFit b) (hd : d.fits) :
    (armRing b r d).fits := by
  simp only [armRing]
  split
  · exact fun h => by cases h
  · split
    · exact hd
    · have empty : (armReset b r).fill = 0 := by simp [RingDesc.fill, armReset]
      exact fun _ => ⟨by rw [empty]; exact Nat.zero_le _, hb r⟩

theorem takeArming_ringLaw {s : State} (hd : s.armingDue = true) (hs : ringLaw s) : ringLaw s.takeArming := by
  obtain ⟨ha, hf⟩ := armingDue_iff.mp hd
  obtain ⟨a, ha⟩ := Option.ne_none_iff_exists'.mp ha
  obtain ⟨noArming, noFlight⟩ := takeArming_waits hd
  obtain ⟨fits, -, caps⟩ := (ringLaw_iff s).mp hs
  refine (ringLaw_iff _).mpr ⟨fun r => ?_, fun r hr => absurd hr (no_ringInFlight noFlight r), fun b hb => ?_⟩
  · rw [takeArming_ring ha hf]; exact armRing_fits (caps a ha) (fits r)
  · rw [noArming] at hb; cases hb

theorem powerOn_ringLaw (p : Pins) (base : Byte) (free : Nat) (rest : List Instr) :
    ringLaw (State.powerOn p base free rest) := by
  have unarmed (r : RingId) : (State.powerOn p base free rest).ring r = .unarmed := by
    rw [State.ring, show (State.powerOn p base free rest).de.rings = Vector.replicate 5 .unarmed from rfl,
      Fin.getElem_fin, Vector.getElem_replicate]
  refine (ringLaw_iff _).mpr ⟨fun r h => ?_, fun r hr => absurd hr (no_ringInFlight rfl r), fun a ha => by cases ha⟩
  rw [unarmed] at h
  cases h

theorem ringLaw_stepLaw : StepLaw ringLaw where
  pins _ _ _ _ hs := hs
  marked _ _ ht := ht
  awaited _ _ hs := hs
  arming _ _ hd hs := takeArming_ringLaw hd hs
  host s n _ _ _ hs := (ringsKept_of_frame (by simp)).ringLaw hs
  begun _ _ _ _ hw hs := beginWork_ringLaw hw hs
  effect c _ _ _ hu := effectOf_ringLaw c hu
  powerOn := powerOn_ringLaw
  pending _ _ hs := hs
  tick _ hs := hs

/-- Settles O57: W advances where a record began with room for it, and Rd passes over no more than the fill. -/
theorem stepKeepsRingLaw : Obligations.StepKeepsRingLaw := fun _ _ hs h => ringLaw_stepLaw.step hs h

end Sys2Proof.Machine
end

