-- ==== Sys2Proof/Proofs/Switches.lean ====
section
/-! SUPPORT for O58. The switches of a line and its gaps through the Line Sequencer: but for the end of a phase and of
ALL_OFF_HOLD, an operation leaves the switches or turns all four off (R4 to R6, R16, R18). -/

namespace Sys2Proof.Machine

/-! ## What the laws read of a line -/

/-- The switches stand as phase, state and stage give them. -/
def Sequencer.stands (q : Sequencer) : Prop :=
  (∀ p, q.phase = some p → q.bridge = p.bridge)
    ∧ (q.phase = none → ¬(q.state = .shutdown ∧ q.stage = .clamped) → q.bridge = Bridge.allOff)
    ∧ (q.state = .off ∨ q.state = .shutdown → q.phase = none)

/-- The gaps of the line's live and pending sections and of its cycle in progress are of at least 2 ticks. -/
def gapsAt (s : State) (l : LineId) : Prop :=
  2 ≤ gapTicks (s.liveLine l) ∧ (∀ p, (s.copies l).pendingLine = some p → 2 ≤ gapTicks p.bytes)
    ∧ ∀ c, (s.ls l).lengths = some c → 2 ≤ c.gap

theorem bridgeLaw_iff (s : State) : bridgeLaw s ↔ ∀ l, (s.ls l).stands := Iff.rfl
theorem gapLaw_iff (s : State) : gapLaw s ↔ ∀ l, gapsAt s l := Iff.rfl

theorem stands_congr {q r : Sequencer}
    (h : r.state = q.state ∧ r.phase = q.phase ∧ r.stage = q.stage ∧ r.bridge = q.bridge) : r.stands ↔ q.stands := by
  obtain ⟨state, phase, stage, bridge⟩ := h
  simp only [Sequencer.stands, state, phase, stage, bridge]

/-- With no phase and all switches off a sequencer stands. -/
theorem stands_of_off {q : Sequencer} (phase : q.phase = none) (bridge : q.bridge = Bridge.allOff) : q.stands :=
  ⟨fun p h => (by rw [phase] at h; cases h), fun _ _ => bridge, fun _ => phase⟩

/-- In a phase, with the switches of the phase, a driven line stands. -/
theorem stands_of_phase {q : Sequencer} {p : Phase} (phase : q.phase = some p) (bridge : q.bridge = p.bridge)
    (driven : q.state.driven = true) : q.stands := by
  refine ⟨fun x h => ?_, fun h => ?_, fun h => ?_⟩
  · rw [phase] at h
    cases h
    exact bridge
  · rw [phase] at h
    cases h
  · rcases h with h | h <;> rw [h] at driven <;> cases driven

/-- A driven line that goes from one driven state to another stands as it did. -/
theorem stands_of_driven {q r : Sequencer} (hq : q.state.driven = true) (hr : r.state.driven = true)
    (h : r.phase = q.phase ∧ r.bridge = q.bridge) (hs : q.stands) : r.stands := by
  obtain ⟨inPhase, noPhase, -⟩ := hs
  have drivenStates {x : LineState} (hx : x.driven = true) : x ≠ .shutdown ∧ x ≠ .off :=
    ⟨fun e => (by rw [e] at hx; cases hx), fun e => (by rw [e] at hx; cases hx)⟩
  refine ⟨fun p hp => ?_, fun hp _ => ?_, fun ho => ?_⟩
  · rw [h.2]; exact inPhase p (h.1 ▸ hp)
  · rw [h.2]; exact noPhase (h.1 ▸ hp) fun c => (drivenStates hq).1 c.1
  · exact absurd ho (by simp [drivenStates hr])

/-! ## Operations that leave the switches or turn all off -/

/-- At line `l` the switches are as they were or all off, and the laws hold after where they held before. -/
structure RestsAt (l : LineId) (s t : State) : Prop where
  bridge : (t.ls l).bridge = (s.ls l).bridge ∨ (t.ls l).bridge = Bridge.allOff
  stands : (s.ls l).stands → (t.ls l).stands
  gaps : gapsAt s l → gapsAt t l

/-- At line `l` all switches are off and stand so, whatever they were. -/
structure SettlesAt (l : LineId) (s t : State) : Prop where
  bridge : (t.ls l).bridge = Bridge.allOff
  stands : (t.ls l).stands
  gaps : gapsAt s l → gapsAt t l

variable {l : LineId} {s t u : State}

theorem SettlesAt.rests (h : SettlesAt l s t) : RestsAt l s t := ⟨.inr h.bridge, fun _ => h.stands, h.gaps⟩

theorem RestsAt.refl (l : LineId) (s : State) : RestsAt l s s := ⟨.inl rfl, id, id⟩

theorem RestsAt.trans (h : RestsAt l s t) (h' : RestsAt l t u) : RestsAt l s u :=
  ⟨h'.bridge.elim (fun e => e ▸ h.bridge) .inr, h'.stands ∘ h.stands, h'.gaps ∘ h.gaps⟩

theorem SettlesAt.trans (h : SettlesAt l s t) (h' : RestsAt l t u) : SettlesAt l s u :=
  ⟨h'.bridge.elim (fun e => e.trans h.bridge) id, h'.stands h.stands, h'.gaps ∘ h.gaps⟩

theorem restsAt_of_frame (h : t.lines[l.val].ls = s.lines[l.val].ls
    ∧ t.cu.lines[l.val].liveLine = s.cu.lines[l.val].liveLine
    ∧ t.cu.lines[l.val].pendingLine = s.cu.lines[l.val].pendingLine) : RestsAt l s t := by
  obtain ⟨ls, live, pending⟩ := h
  have ls : t.ls l = s.ls l := ls
  have live : t.liveLine l = s.liveLine l := live
  have pending : (t.copies l).pendingLine = (s.copies l).pendingLine := pending
  exact ⟨.inl (by rw [ls]), by rw [ls]; exact id, by simp only [gapsAt, ls, live, pending]; exact id⟩

/-- An update of the sequencer that leaves its cycle lengths. -/
theorem modLs_restsAt (s : State) (l : LineId) (f : Sequencer → Sequencer)
    (bridge : (f (s.ls l)).bridge = (s.ls l).bridge ∨ (f (s.ls l)).bridge = Bridge.allOff)
    (stands : (s.ls l).stands → (f (s.ls l)).stands) (lengths : (f (s.ls l)).lengths = (s.ls l).lengths) :
    RestsAt l s (s.modLs l f) := by
  refine ⟨by rwa [modLs_ls], by rwa [modLs_ls], fun h => ?_⟩
  rw [gapsAt, modLs_ls, lengths]
  exact h

/-- An update of the sequencer that leaves state, phase, stage, switches and cycle lengths. -/
theorem modLs_restsAt_of_kept (s : State) (l : LineId) (f : Sequencer → Sequencer)
    (h : ∀ q, ((f q).state = q.state ∧ (f q).phase = q.phase ∧ (f q).stage = q.stage ∧ (f q).bridge = q.bridge)
      ∧ (f q).lengths = q.lengths := by exact fun _ => ⟨⟨rfl, rfl, rfl, rfl⟩, rfl⟩) : RestsAt l s (s.modLs l f) :=
  modLs_restsAt s l f (.inl (h _).1.2.2.2) (stands_congr (h _).1).mpr (h _).2

/-- From one driven state to another. -/
theorem modLs_restsAt_of_driven (s : State) (l : LineId) (x : LineState) (hs : (s.ls l).state.driven = true)
    (hx : x.driven = true) : RestsAt l s (s.modLs l fun q => { q with state := x }) :=
  modLs_restsAt s l _ (.inl rfl) (stands_of_driven hs hx ⟨rfl, rfl⟩) rfl

/-! ## Settings that become live (R18, R26, R153) -/

theorem reexamTimer_restsAt (s : State) (l : LineId) : RestsAt l s (s.reexamTimer l) :=
  modLs_restsAt_of_kept s l _

theorem refreshCauses_restsAt (s : State) (l : LineId) : RestsAt l s (s.refreshCauses l) :=
  modLs_restsAt_of_kept s l _

/-- The clamp change of R18 turns all switches off. -/
theorem changeClamp_restsAt (h : (s.ls l).state = .shutdown) : RestsAt l s (s.modLs l (·.changeClamp)) := by
  cases hg : (s.ls l).stage with
  | allOffHold =>
    have same : (s.ls l).changeClamp = s.ls l := by simp only [Sequencer.changeClamp, hg]
    exact modLs_restsAt s l _ (.inl (by rw [same])) (by rw [same]; exact id) (by rw [same])
  | clamped =>
    have changed : (s.ls l).changeClamp = { s.ls l with stage := .allOffHold, holdTicks := 0, bridge := .allOff } := by
      simp only [Sequencer.changeClamp, hg]
    refine modLs_restsAt s l _ (.inr (by rw [changed])) (fun hs => ?_) (by rw [changed])
    rw [changed]
    exact stands_of_off (hs.2.2 (.inr h)) rfl

theorem lsApply_restsAt (s : State) (l : LineId) (old : Bytes) : RestsAt l s (s.lsApply l old) := by
  simp only [State.lsApply]
  split
  · rename_i h
    refine ((refreshCauses_restsAt s l).trans ?_).trans (reexamTimer_restsAt _ l)
    split
    · exact .refl l _
    · exact changeClamp_restsAt (by simpa [State.refreshCauses] using h)
  · exact .refl l s

/-- A section made live has a gap of at least 2 ticks, and with it the line. -/
theorem applyLine_restsAt {new : Bytes} (tag : Byte) (h : gapsAt s l → 2 ≤ gapTicks new) :
    RestsAt l s (s.applyLine l new tag) := by
  simp only [State.applyLine]
  refine .trans (t := s.modCopies l fun c => { c with liveLine := new, pendingLine := none, lineTag := tag }) ?_ ?_
  · refine ⟨.inl rfl, id, fun hg => ?_⟩
    obtain ⟨-, -, lengths⟩ := id hg
    refine ⟨?_, fun p hp => ?_, lengths⟩
    · simpa [State.liveLine, State.copies] using h hg
    · simp [State.copies] at hp
  · refine (lsApply_restsAt _ l (s.liveLine l)).trans ?_
    exact restsAt_of_frame (by simp)

theorem transferLine_restsAt (s : State) (l : LineId) : RestsAt l s (s.transferLine l) := by
  simp only [State.transferLine]
  split
  · exact .refl l s
  · rename_i p hp
    have applied : RestsAt l s (s.applyLine l p.bytes p.tag) := applyLine_restsAt p.tag fun h => h.2.1 p hp
    exact applied.trans (restsAt_of_frame (by simp))

theorem transfer_restsAt (s : State) (l : LineId) : RestsAt l s (s.transfer l) :=
  (transferLine_restsAt s l).trans (restsAt_of_frame (by simp [State.transfer]))

/-! ## Shutdown, cycle start, entry to PRIMING and to OFF (R7, R10, R11, R16) -/

/-- After a transfer the gaps of the line are those of sections that had them before. -/
theorem gapsAt_transferred (ht : transferred s t l)
    (lengths : ∀ c, (t.ls l).lengths = some c → (s.ls l).lengths = some c ∨ c.gap = gapTicks (t.liveLine l)) :
    gapsAt s l → gapsAt t l := fun ⟨live, pending, cycle⟩ => by
  obtain ⟨moved, kept, -, -, ⟨nonePending, -⟩, -⟩ := ht
  have nowLive : 2 ≤ gapTicks (t.liveLine l) := by
    cases hp : (s.copies l).pendingLine with
    | none => rw [(kept hp).1]; exact live
    | some p => rw [(moved p hp).1]; exact pending p hp
  refine ⟨nowLive, fun p hp => (by rw [nonePending] at hp; cases hp), fun c hc => ?_⟩
  rcases lengths c hc with h | h
  · exact cycle c h
  · rw [h]; exact nowLive

theorem shutdownEntry_settlesAt (s : State) (l : LineId) (c : Cause) : SettlesAt l s (s.shutdownEntry l c) := by
  obtain ⟨⟨⟨ls, -, -, -, -, -, -, -, -, moved⟩, -⟩, -⟩ := shutdownEntry_spec (s := s) (l := l) (c := c) rfl
  generalize s.shutdownEntry l c = t at ls moved
  exact ⟨by rw [ls], stands_of_off (by rw [ls]) (by rw [ls]),
    gapsAt_transferred moved fun c hc => .inl (by rwa [ls] at hc)⟩

theorem cycleStart_settlesAt (h : (s.ls l).state.driven = true) : SettlesAt l s (s.cycleStart l) := by
  have notShut : (s.ls l).state ≠ .shutdown := fun e => by rw [e] at h; cases h
  obtain ⟨⟨-, -, -, -, -, moved⟩, -, -, -, ls, -⟩ := cycleStart_spec (s := s) (l := l) rfl notShut
  generalize s.cycleStart l = t at ls moved
  refine ⟨by rw [ls], stands_of_phase (p := .leadGap) (by rw [ls]) (by rw [ls]; rfl) (by rw [ls]; exact h),
    gapsAt_transferred moved fun c hc => .inr ?_⟩
  rw [ls] at hc
  cases hc
  rfl

theorem enterPriming_settlesAt (s : State) (l : LineId) : SettlesAt l s (s.enterPriming l) := by
  obtain ⟨⟨-, ⟨-, -, -, -, -, moved⟩, -⟩, -, -, ls, -⟩ := prime_spec (s := s) (l := l) rfl
  generalize s.enterPriming l = t at ls moved
  refine ⟨by rw [ls], stands_of_phase (p := .leadGap) (by rw [ls]) (by rw [ls]; rfl) (by rw [ls]; rfl),
    gapsAt_transferred moved fun c hc => .inr ?_⟩
  rw [ls] at hc
  cases hc
  rfl

theorem off_settlesAt (s : State) (l : LineId) : SettlesAt l s (s.modLs l (·.off)) := by
  refine ⟨by rw [modLs_ls]; rfl, ?_, fun h => ?_⟩
  · rw [modLs_ls]
    exact stands_of_off rfl rfl
  · rw [gapsAt, modLs_ls]
    exact h

theorem enterOff_settlesAt (s : State) (l : LineId) : SettlesAt l s (s.enterOff l) := by
  have off : SettlesAt l s ((s.modLs l (·.off)).modSru l (·.rest)) :=
    (off_settlesAt s l).trans (restsAt_of_frame (by simp))
  have reported (v : State) : RestsAt l v (v.reportLineState l) := restsAt_of_frame (by simp)
  exact (off.trans (transfer_restsAt _ l)).trans (reported _)

theorem actSources_restsAt (s : State) (l : LineId) : RestsAt l s (s.actSources l) := by
  simp only [State.actSources]
  split
  · split
    · exact .refl l s
    · exact (shutdownEntry_settlesAt s l _).rests
    · exact (shutdownEntry_settlesAt s l _).rests
    · exact (restsAt_of_frame (by simp) : RestsAt l s s.usedFree).trans (shutdownEntry_settlesAt _ l _).rests
  · exact .refl l s

/-! ## The end of a cycle (R9 to R11) -/

theorem produce_restsAt (s : State) (l : LineId) : RestsAt l s (s.produce l) := by
  simp only [State.produce]
  split
  · exact .refl l s
  · refine .trans ?_ (modLs_restsAt_of_kept _ l _)
    exact restsAt_of_frame (by simp)

theorem closeCycle_restsAt (s : State) (l : LineId) : RestsAt l s (s.closeCycle l) := by
  simp only [State.closeCycle]
  split
  · exact produce_restsAt s l
  · exact restsAt_of_frame (by simp)

theorem afterCycle_settlesAt (h : (s.ls l).state.driven = true) : SettlesAt l s (s.afterCycle l) := by
  simp only [State.afterCycle]
  split
  · exact enterOff_settlesAt s l
  · have running : RestsAt l s ((s.modLs l fun q => { q with state := .running }).reportLineState l) :=
      (modLs_restsAt_of_driven s l .running h rfl).trans (restsAt_of_frame (by simp))
    have started : SettlesAt l _
        (((s.modLs l fun q => { q with state := .running }).reportLineState l).cycleStart l) :=
      cycleStart_settlesAt (by simp [State.ls, LineState.driven])
    exact SettlesAt.trans ⟨started.bridge, started.stands, started.gaps ∘ running.gaps⟩ (actSources_restsAt _ l)
  · exact (cycleStart_settlesAt h).trans (actSources_restsAt _ l)
  · rename_i e; rw [e] at h; cases h
  · rename_i e; rw [e] at h; cases h

/-! ## SHUTDOWN, pins, timers (R13, R15, R17, R20) -/

theorem primed_restsAt (s : State) (l : LineId) (d : Nat) :
    RestsAt l s (((s.enterPriming l).raise .lineRestarted (.line l) d).actSources l) :=
  ((enterPriming_settlesAt s l).rests.trans (restsAt_of_frame (by simp))).trans (actSources_restsAt _ l)

theorem autoRestart_restsAt (s : State) (l : LineId) : RestsAt l s (s.autoRestart l) := by
  simp only [State.autoRestart]
  split
  · exact primed_restsAt s l 0
  · exact .refl l s

/-- The causes present change, with the restart delay. -/
theorem newCauses_restsAt (s : State) (l : LineId) (f : Sequencer → Causes) :
    RestsAt l s ((s.modLs l fun q => { q with causes := f q }).reexamTimer l) :=
  (modLs_restsAt_of_kept s l _).trans (reexamTimer_restsAt _ l)

theorem coilHiChanged_restsAt (s : State) (l : LineId) : RestsAt l s (s.coilHiChanged l) := by
  simp only [State.coilHiChanged]
  split
  · exact newCauses_restsAt s l _
  · split
    · exact (shutdownEntry_settlesAt s l _).rests
    · exact .refl l s

theorem newPins_restsAt (s : State) (l : LineId) (p : Pins) : RestsAt l s { s with pins := p } :=
  restsAt_of_frame ⟨rfl, rfl, rfl⟩

theorem setCoilHi_restsAt (s : State) (l : LineId) (level : Bool) : RestsAt l s (s.setCoilHi l level) := by
  simp only [State.setCoilHi]
  split
  · exact .refl l s
  · exact (newPins_restsAt s l _).trans (coilHiChanged_restsAt _ l)

theorem tripChanged_restsAt (s : State) (l : LineId) : RestsAt l s (s.tripChanged l) := by
  simp only [State.tripChanged]
  split
  · exact newCauses_restsAt s l _
  · split
    · exact (shutdownEntry_settlesAt s l _).rests
    · exact .refl l s

theorem setTripLevel_restsAt (s : State) (l : LineId) (level : Bool) : RestsAt l s (s.setTripLevel l level) :=
  (modLs_restsAt_of_kept s l _).trans (tripChanged_restsAt _ l)

theorem completeDebounce_restsAt (s : State) (l : LineId) : RestsAt l s (s.completeDebounce l) := by
  simp only [State.completeDebounce]
  split
  · exact setTripLevel_restsAt s l _
  · exact .refl l s

theorem completeDue_restsAt (s : State) (l : LineId) : RestsAt l s (s.completeDue l) := by
  simp only [State.completeDue]
  split
  · split
    · exact setTripLevel_restsAt s l _
    · exact .refl l s
  · exact .refl l s

theorem followTrip_restsAt (s : State) (l : LineId) (level : Bool) : RestsAt l s (s.followTrip l level) := by
  simp only [State.followTrip]
  split
  · exact modLs_restsAt_of_kept s l _
  · split
    · exact setTripLevel_restsAt s l level
    · exact modLs_restsAt_of_kept s l _

theorem setTrip_restsAt (s : State) (l : LineId) (level : Bool) : RestsAt l s (s.setTrip l level) := by
  simp only [State.setTrip]
  split
  · exact .refl l s
  · exact ((completeDue_restsAt s l).trans (newPins_restsAt _ l _)).trans (followTrip_restsAt _ l level)

/-! ## Commits and line commands (R21 to R24, R152) -/

/-- A line section that passes validation has a gap of at least 2 ticks (R4, R151). -/
theorem gapTicks_of_valid {b : Bytes} (h : firstFailure (lineTests b) = none) : 2 ≤ gapTicks b := by
  have passed := firstFailure_none h (x := (0x04, inRange 2 (gapTicks b) 500)) (by simp [lineTests])
  simp only [inRange, Bool.and_eq_true, decide_eq_true_eq] at passed
  exact passed.1

theorem commitLine_restsAt (s : State) (tag : Byte) (l : LineId) : RestsAt l s (s.commitLine tag l).1 := by
  simp only [State.commitLine]
  split
  · exact .refl l s
  · rename_i valid
    have gap := gapTicks_of_valid valid
    split
    · exact applyLine_restsAt tag fun _ => gap
    · refine ⟨.inl rfl, id, fun ⟨live, _, lengths⟩ => ⟨?_, fun p hp => ?_, lengths⟩⟩
      · simpa [State.liveLine, State.copies, State.markLine] using live
      · simp [State.copies, State.markLine] at hp
        rw [← hp]
        exact gap

theorem startLine_restsAt (s : State) (l : LineId) : RestsAt l s (s.startLine l).1 := by
  simp only [State.startLine]
  split
  case h_1 => exact (enterPriming_settlesAt s l).rests.trans (actSources_restsAt _ l)
  case h_2 h =>
    exact (modLs_restsAt_of_driven s l .running (by rw [h]; rfl) rfl).trans (restsAt_of_frame (by simp))
  all_goals exact .refl l s

theorem stopLine_restsAt (s : State) (l : LineId) : RestsAt l s (s.stopLine l).1 := by
  simp only [State.stopLine]
  split
  case h_1 h =>
    exact (modLs_restsAt_of_driven s l .stopping (by rw [h]; rfl) rfl).trans (restsAt_of_frame (by simp))
  case h_2 => exact (restsAt_of_frame (by simp) : RestsAt l s _).trans (enterOff_settlesAt _ l).rests
  case h_3 =>
    exact (modLs_restsAt_of_kept s l _).trans (enterOff_settlesAt _ l).rests
  all_goals exact .refl l s

theorem haltLine_restsAt (s : State) (l : LineId) : RestsAt l s (s.haltLine l).1 := by
  simp only [State.haltLine]
  split
  case h_4 => exact newCauses_restsAt s l _
  case h_5 => exact .refl l s
  all_goals exact (shutdownEntry_settlesAt s l _).rests

theorem restartLine_restsAt (s : State) (l : LineId) : RestsAt l s (s.restartLine l).1 := by
  simp only [State.restartLine]
  split
  · split
    · exact .refl l s
    · split
      · exact .refl l s
      · refine .trans (t := s.modLs l fun q =>
          { q with causes := { q.causes with software := false }, attempts := 0, lockout := false })
          (modLs_restsAt_of_kept s l _) ?_
        generalize s.modLs l _ = u
        exact primed_restsAt u l 1
  all_goals exact .refl l s

end Sys2Proof.Machine
end

