-- ==== Sys2Proof/Proofs/SwitchRows.lean ====
section
/-! SUPPORT for O58. The switches of a line and its gaps through every row: those that turn a switch on are the end of a gap
and of ALL_OFF_HOLD (R4 to R6, R18). -/

namespace Sys2Proof.Machine

variable {l : LineId} {s t u : State}

/-! ## What turns switches on (R5, R6, R18) -/

/-- No leg has its two switches driven together. -/
def Bridge.safe (b : Bridge) : Prop := (b.lu = .off ∨ b.ll = .off) ∧ (b.ru = .off ∨ b.rl = .off)

theorem legsSafe_iff (s : State) : legsSafe s ↔ ∀ l, (s.ls l).bridge.safe := Iff.rfl

theorem allOff_safe : Bridge.allOff.safe := ⟨.inl rfl, .inl rfl⟩

theorem phase_bridge_safe (p : Phase) : p.bridge.safe := by
  cases p with
  | leadGap => exact allOff_safe
  | midGap => exact allOff_safe
  | pSettle => exact ⟨.inr rfl, .inl rfl⟩
  | pWindow => exact ⟨.inr rfl, .inl rfl⟩
  | nSettle => exact ⟨.inl rfl, .inr rfl⟩
  | nWindow => exact ⟨.inl rfl, .inr rfl⟩

theorem clampBridge_safe (code : Nat) : (clampBridge code).safe := by
  simp only [clampBridge]
  split
  · exact allOff_safe
  · split
    · exact ⟨.inl rfl, .inl rfl⟩
    · exact ⟨.inr rfl, .inr rfl⟩

/-- The row ends a gap phase or the ALL_OFF_HOLD of line `l`, its sequencer standing as `q`. -/
def turnsOn (l : LineId) (c : Instr) (q : Sequencer) : Prop :=
  ((∃ b, c = .phaseEnd l b) ∧ (q.phase = some .leadGap ∨ q.phase = some .midGap))
    ∨ (c = .shutdownHoldEnd l ∧ q.state = .shutdown ∧ q.stage = .allOffHold)

/-- A gap phase and ALL_OFF_HOLD stand with all switches off. -/
theorem turnsOn_allOff {c : Instr} {q : Sequencer} (hq : q.stands) (h : turnsOn l c q) : q.bridge = Bridge.allOff := by
  obtain ⟨inPhase, noPhase, idle⟩ := hq
  rcases h with ⟨-, h | h⟩ | ⟨-, state, stage⟩
  · exact inPhase _ h
  · exact inPhase _ h
  · exact noPhase (idle (.inr state)) fun x => by rw [stage] at x; cases x.2

/-- At line `l` a row has kept the laws, and turned switches on where it ends a gap or a hold, if at all. -/
structure TurnsAt (c : Instr) (l : LineId) (s t : State) : Prop where
  legs : (s.ls l).bridge.safe → (t.ls l).bridge.safe
  stands : (s.ls l).stands → (t.ls l).stands
  gaps : gapsAt s l → gapsAt t l
  turn : (s.ls l).stands →
    (t.ls l).bridge = (s.ls l).bridge ∨ (t.ls l).bridge = Bridge.allOff ∨ turnsOn l c (s.ls l)

theorem RestsAt.turns (c : Instr) (h : RestsAt l s t) : TurnsAt c l s t where
  legs hs := by
    rcases h.bridge with e | e
    · rw [e]; exact hs
    · rw [e]; exact allOff_safe
  stands := h.stands
  gaps := h.gaps
  turn _ := h.bridge.imp id .inl

theorem TurnsAt.trans {c : Instr} (h : TurnsAt c l s t) (h' : RestsAt l t u) : TurnsAt c l s u where
  legs hs := (h'.turns c).legs (h.legs hs)
  stands := h'.stands ∘ h.stands
  gaps := h'.gaps ∘ h.gaps
  turn hs := by
    rcases h'.bridge with e | e
    · rw [e]; exact h.turn hs
    · exact .inr (.inl e)

/-- What leaves the sequencer comes before a row. -/
theorem RestsAt.before {c : Instr} (h : RestsAt l s t) (ls : t.ls l = s.ls l) (h' : TurnsAt c l t u) :
    TurnsAt c l s u := by
  obtain ⟨legs, stands, gaps, turn⟩ := h'
  rw [ls] at legs stands turn
  exact ⟨legs, stands, gaps ∘ h.gaps, turn⟩

/-! ## The end of a phase and of the hold (R3, R5, R18) -/

/-- A line that stands in a phase is driven. -/
theorem driven_of_phase {q : Sequencer} {p : Phase} (hq : q.stands) (hp : q.phase = some p) : q.state.driven = true := by
  obtain ⟨-, -, idle⟩ := hq
  have phased : q.phase ≠ none := by rw [hp]; exact Option.some_ne_none p
  cases h : q.state with
  | off => exact absurd (idle (.inl h)) phased
  | shutdown => exact absurd (idle (.inr h)) phased
  | priming => rfl
  | running => rfl
  | stopping => rfl

theorem enterPhase_turnsAt {c : Instr} {p : Phase} (q : Phase) (hp : (s.ls l).phase = some p)
    (h : q.bridge = p.bridge ∨ q.bridge = Bridge.allOff ∨ turnsOn l c (s.ls l)) :
    TurnsAt c l s (s.modLs l (·.enterPhase q)) where
  legs _ := by rw [modLs_ls]; exact phase_bridge_safe q
  stands hs := by
    rw [modLs_ls]
    have driven : (s.ls l).state.driven = true := driven_of_phase hs hp
    exact stands_of_phase (p := q) rfl rfl driven
  gaps hg := by rw [gapsAt, modLs_ls]; exact hg
  turn hs := by
    have bridge : ((s.modLs l (·.enterPhase q)).ls l).bridge = q.bridge := by rw [modLs_ls]; rfl
    rw [bridge, hs.1 p hp]
    exact h

/-- The end of the cycle leaves all switches off. -/
theorem endCycle_turnsAt {c : Instr} (hp : (s.ls l).phase = some .nWindow) :
    TurnsAt c l s (((s.modLs l fun q => { q with bridge := .allOff }).closeCycle l).afterCycle l) := by
  have closed := closeCycle_restsAt (s.modLs l fun q => { q with bridge := .allOff }) l
  have offBefore : ((s.modLs l fun q => { q with bridge := .allOff }).ls l).bridge = Bridge.allOff := by rw [modLs_ls]
  have state : (((s.modLs l fun q => { q with bridge := .allOff }).closeCycle l).ls l).state = (s.ls l).state := by
    simp only [State.closeCycle, State.produce]
    (repeat' split) <;> simp [State.ls]
  have gapsBefore (hg : gapsAt s l) : gapsAt ((s.modLs l fun q => { q with bridge := .allOff }).closeCycle l) l :=
    closed.gaps (by rw [gapsAt, modLs_ls]; exact hg)
  have off : (((s.modLs l fun q => { q with bridge := .allOff }).closeCycle l).ls l).bridge = Bridge.allOff :=
    closed.bridge.elim (fun e => e.trans offBefore) id
  generalize (s.modLs l fun q => { q with bridge := .allOff }).closeCycle l = u at state gapsBefore off
  cases hd : (s.ls l).state.driven with
  | true =>
    have ended : SettlesAt l u (u.afterCycle l) := afterCycle_settlesAt (by rw [state]; exact hd)
    exact ⟨fun _ => by rw [ended.bridge]; exact allOff_safe, fun _ => ended.stands, fun hg => ended.gaps (gapsBefore hg),
      fun _ => .inr (.inl ended.bridge)⟩
  | false =>
    have same : u.afterCycle l = u := by
      simp only [State.afterCycle, state]
      split
      case h_4 => rfl
      case h_5 => rfl
      all_goals (rename_i e; rw [e] at hd; cases hd)
    rw [same]
    exact ⟨fun _ => by rw [off]; exact allOff_safe, fun hs => (by rw [driven_of_phase hs hp] at hd; cases hd), gapsBefore,
      fun _ => .inr (.inl off)⟩

theorem endPhase_turnsAt (s : State) (l : LineId) (coilLo b : Bool) :
    TurnsAt (.phaseEnd l b) l s (s.endPhase l coilLo) := by
  have sampled (v : State) (f : Sru → Sru) : RestsAt l v (v.modSru l f) := restsAt_of_frame (by simp)
  simp only [State.endPhase]
  split
  case h_1 => exact (RestsAt.refl l s).turns _
  case h_2 hp => exact enterPhase_turnsAt .pSettle hp (.inr (.inr (.inl ⟨⟨b, rfl⟩, .inl hp⟩)))
  case h_3 hp =>
    split
    · exact (shutdownEntry_settlesAt s l _).rests.turns _
    · exact (enterPhase_turnsAt .pWindow hp (.inl rfl)).trans (sampled _ _)
  case h_4 hp =>
    exact (sampled s (·.closeP)).before (by simp)
      (enterPhase_turnsAt .midGap (p := .pWindow) (by rw [modSru_ls]; exact hp) (.inr (.inl rfl)))
  case h_5 hp => exact enterPhase_turnsAt .nSettle hp (.inr (.inr (.inl ⟨⟨b, rfl⟩, .inr hp⟩)))
  case h_6 hp =>
    split
    · exact (shutdownEntry_settlesAt s l _).rests.turns _
    · exact (enterPhase_turnsAt .nWindow hp (.inl rfl)).trans (sampled _ _)
  case h_7 hp => exact endCycle_turnsAt hp

theorem endHold_turnsAt (s : State) (l : LineId) : TurnsAt (.shutdownHoldEnd l) l s (s.endHold l) := by
  simp only [State.endHold]
  split
  · rename_i h
    refine ⟨fun _ => ?_, fun hs => ?_, fun hg => ?_, fun _ => .inr (.inr (.inr ⟨rfl, h⟩))⟩
    · rw [modLs_ls]; exact clampBridge_safe _
    · obtain ⟨-, -, idle⟩ := hs
      have phase := idle (.inr h.1)
      rw [modLs_ls]
      exact ⟨fun p hp => (by rw [phase] at hp; cases hp), fun _ hn => absurd ⟨h.1, rfl⟩ hn, fun _ => phase⟩
    · rw [gapsAt, modLs_ls]; exact hg
  · exact (RestsAt.refl l s).turns _

/-! ## Host accesses (R119 to R124, R148) -/

/-- An operation of line `l` that leaves the other lines rests at every line, when it does at `l`. -/
theorem restsAt_of_line {k : LineId} (h : RestsAt l s t)
    (others : k ≠ l → t.lines[k.val] = s.lines[k.val] ∧ t.cu.lines[k.val] = s.cu.lines[k.val]) : RestsAt k s t := by
  by_cases hk : k = l
  · rw [hk]; exact h
  · obtain ⟨lines, copies⟩ := others hk
    exact restsAt_of_frame ⟨by rw [lines], by rw [copies], by rw [copies]⟩

/-- FREEZE leaves the line sections (R158). -/
theorem freeze_restsAt (l : LineId) (s : State) : RestsAt l s s.freeze.1 := by
  simp only [State.freeze]
  split
  · exact .refl l s
  · exact restsAt_of_frame (by simp [LineCopies.freeze])

theorem runCommand_restsAt (l : LineId) (s : State) (tag code operand : Byte) :
    RestsAt l s (s.runCommand tag code operand).1 := by
  simp only [State.runCommand]
  split
  case h_1 => exact restsAt_of_line (commitLine_restsAt s tag _) (by simp +contextual)
  case h_6 => exact restsAt_of_line (startLine_restsAt s _) (by simp +contextual)
  case h_7 => exact restsAt_of_line (stopLine_restsAt s _) (by simp +contextual)
  case h_8 => exact restsAt_of_line (haltLine_restsAt s _) (by simp +contextual)
  case h_9 => exact restsAt_of_line (restartLine_restsAt s _) (by simp +contextual)
  case h_10 => exact restsAt_of_frame (by simp [State.clearTotal])
  case h_11 => exact freeze_restsAt l s
  all_goals exact restsAt_of_frame (by simp)

theorem handOver_restsAt (l : LineId) (s : State) (r : Request) : RestsAt l s (s.handOver r) := by
  have recorded (t : State) (tag code : Byte) (x : Reply) : RestsAt l t (t.setRecord tag code x) :=
    restsAt_of_frame (by simp)
  simp only [State.handOver]
  split
  · exact .refl l s
  · split
    · exact restsAt_of_frame (by simp)
    · exact .refl l s
  · simp only [State.takeCommandWrite, State.takeCommand, State.takePartial]
    split
    · split
      · exact recorded _ _ _ _
      · exact (runCommand_restsAt l s _ _ _).trans (recorded _ _ _ _)
    · exact recorded _ _ _ _
  · split
    · exact restsAt_of_frame (by simp)
    · exact .refl l s

theorem completeHost_restsAt (l : LineId) (s : State) (err : Bool) (data : Word) :
    RestsAt l s (s.completeHost err data) := by
  have ends (t : State) (r : Request) (d : Option Word) (c : Prop) [Decidable c] :
      RestsAt l t (if c then t.freePort.completeUp err d else (t.freePort.completeUp err d).afterFreshRead r) := by
    split <;> exact restsAt_of_frame (by simp)
  simp only [State.completeHost]
  split
  · split
    · refine RestsAt.trans ?_ (ends _ _ _ _)
      split
      · exact handOver_restsAt l s _
      · exact .refl l s
    · exact .refl l s
  · exact .refl l s

/-! ## Every row -/

theorem guarded_restsAt {c : Prop} [Decidable c] (h : RestsAt l s t) : RestsAt l s (if c then t else s) := by
  split
  · exact h
  · exact .refl l s

theorem endPageWord_restsAt (l : LineId) (s : State) (err : Bool) : RestsAt l s (s.endPageWord err) := by
  simp only [State.endPageWord]
  split
  · split
    · exact restsAt_of_frame (by simp)
    · split <;> exact restsAt_of_frame (by simp)
  · exact .refl l s

theorem endLoadRead_restsAt (l : LineId) (s : State) (err : Bool) (data : Word) :
    RestsAt l s (s.endLoadRead err data) := by
  simp only [State.endLoadRead]
  split
  · exact restsAt_of_frame (by simp)
  · exact .refl l s

theorem advanceLines_restsAt (l : LineId) (s : State) : RestsAt l s s.advanceLines := by
  have ls : s.advanceLines.ls l = (s.ls l).advanceMs := by simp [State.advanceLines, State.ls]
  refine ⟨.inl (by rw [ls]; rfl), ?_, ?_⟩
  · rw [ls]; exact (stands_congr ⟨rfl, rfl, rfl, rfl⟩).mpr
  · simp only [gapsAt, ls]; exact id

theorem advanceMs_restsAt (l : LineId) (s : State) : RestsAt l s s.advanceMs := by
  have windows (u : State) : RestsAt l u u.advanceWindows := restsAt_of_frame (by simp)
  refine .trans (t := ({ s with clock := { s.clock with sinceMs := 0 } } : State).modNu fun n => { n with ms := n.ms + 1 })
    (restsAt_of_frame ⟨rfl, rfl, rfl⟩) ?_
  exact (advanceLines_restsAt l _).trans (windows _)

theorem effectOf_turnsAt (l : LineId) (c : Instr) (s : State) : TurnsAt c l s (effectOf c s) := by
  have line {k : LineId} {t : State} (h : RestsAt k s t)
      (others : l ≠ k → t.lines[l.val] = s.lines[l.val] ∧ t.cu.lines[l.val] = s.cu.lines[l.val]) : TurnsAt c l s t :=
    (restsAt_of_line h others).turns c
  cases c with
  | phaseEnd k coilLo =>
    by_cases hk : l = k
    · subst hk
      exact (newPins_restsAt s l (s.pins.withCoilLo l coilLo)).before rfl (endPhase_turnsAt _ l coilLo coilLo)
    · exact (restsAt_of_frame (by simp [effectOf, hk])).turns _
  | shutdownHoldEnd k =>
    by_cases hk : l = k
    · subst hk
      exact endHold_turnsAt s l
    · exact (restsAt_of_frame (by simp [effectOf, hk])).turns _
  | coilHiAssert k => exact line (setCoilHi_restsAt s k true) (by simp +contextual [effectOf])
  | coilHiDeassert k => exact line (setCoilHi_restsAt s k false) (by simp +contextual [effectOf])
  | tripPinChange k level => exact line (setTrip_restsAt s k level) (by simp +contextual [effectOf])
  | tripDebounceComplete k => exact line (completeDebounce_restsAt s k) (by simp +contextual [effectOf])
  | restartDelayExpiry k => exact line (autoRestart_restsAt s k) (by simp +contextual [effectOf])
  | millisecondAdvance => exact (advanceMs_restsAt l s).turns _
  | silenceTimerExpiry k => exact (guarded_restsAt (restsAt_of_frame (by simp))).turns _
  | windowExpiry w => exact (guarded_restsAt (restsAt_of_frame (by simp))).turns _
  | hostRequestTaken addr write be data => exact (guarded_restsAt (restsAt_of_frame (by simp))).turns _
  | hostForwardedCompletion | capturedWrite | rdCapture | activitySummaryRead | commitLine | commitCal | commitWindows
  | commitDelivery | load | start | stop | halt | restart | clearTotal | freeze | unknownCommand | partialCommandWrite =>
    exact RestsAt.turns _ (effectOf_completes_keeps (.refl l s) (completeHost_restsAt l s) rfl)
  | pageWordComplete err => exact (endPageWord_restsAt l s err).turns _
  | loadReadComplete err data => exact (endLoadRead_restsAt l s err data).turns _
  | linkWaitIdleExit k => exact (guarded_restsAt (restsAt_of_frame (by simp))).turns _
  | _ => exact (restsAt_of_frame (by simp [effectOf])).turns _

end Sys2Proof.Machine
end

