-- ==== Sys2Proof/Proofs/Bounds.lean ====
section
/-! SUPPORT for O58. The lengths of the staging queues, the passed-over count and the words of a page in flight through
every step (R77, R87, R130). -/

namespace Sys2Proof.Machine

variable {s t u : State}

/-! ## What keeps the bounds -/

/-- The bounds hold after where they held before: queues no longer than 4, no other passed-over count but 0, the same
patience and arming request, a page in flight with a word left. -/
structure BoundsKept (s t : State) : Prop where
  queues : ∀ l : LineId, (s.staging l).queue.length ≤ 4 → (t.staging l).queue.length ≤ 4
  passed : t.mp.passed = s.mp.passed ∨ t.mp.passed = 0
  live : t.cu.liveDelivery = s.cu.liveDelivery
  arming : t.de.arming = s.de.arming
  flight : flightLaw s → flightLaw t

theorem BoundsKept.bounded (h : BoundsKept s t) (hs : boundedCounts s) : boundedCounts t := by
  obtain ⟨queues, passed, live, arming, flight⟩ := hs
  refine ⟨fun l => h.queues l (queues l), ?_, ?_, ?_, h.flight flight⟩
  · rcases h.passed with e | e
    · rw [e]; exact passed
    · rw [e]; exact Nat.zero_le _
  · rw [State.liveDelivery, h.live]; exact live
  · rw [h.arming]; exact arming

theorem BoundsKept.refl (s : State) : BoundsKept s s := ⟨fun _ => id, .inl rfl, rfl, rfl, id⟩

theorem BoundsKept.trans (h : BoundsKept s t) (h' : BoundsKept t u) : BoundsKept s u :=
  ⟨fun l => h'.queues l ∘ h.queues l, h'.passed.elim (fun e => e ▸ h.passed) .inr, h'.live.trans h.live,
    h'.arming.trans h.arming, h'.flight ∘ h.flight⟩

theorem flightLaw_congr (h : t.de.flight = s.de.flight) : flightLaw t ↔ flightLaw s := by
  simp only [flightLaw, h]

theorem flightLaw_of_none (h : s.de.flight = none) : flightLaw s := fun p words done hf => by
  rw [h] at hf; cases hf

theorem flightLaw_of_record {r : RingId} {slot done : Nat} {words : List Word}
    (h : s.de.flight = some (.record r slot words done)) : flightLaw s := fun p _ _ hf => by
  rw [h] at hf; cases hf

theorem boundsKept_of_frame (h : t.de.staging = s.de.staging ∧ t.mp.passed = s.mp.passed
    ∧ t.cu.liveDelivery = s.cu.liveDelivery ∧ t.de.arming = s.de.arming ∧ t.de.flight = s.de.flight) :
    BoundsKept s t := by
  obtain ⟨staging, passed, live, arming, flight⟩ := h
  exact ⟨fun l => by simp only [State.staging, staging, imp_self], .inl passed, live, arming,
    (flightLaw_congr flight).mpr⟩

theorem modStaging_boundsKept (s : State) (l : LineId) (f : Staging → Staging)
    (h : ∀ g, (f g).queue.length ≤ g.queue.length) : BoundsKept s (s.modStaging l f) := by
  refine ⟨fun k hk => ?_, .inl rfl, rfl, rfl, id⟩
  by_cases e : k = l
  · rw [e, modStaging_staging]
    exact Nat.le_trans (h _) (e ▸ hk)
  · rw [modStaging_other _ _ _ _ e]
    exact hk

/-! ## The passed-over count (R130) -/

@[simp] theorem freePort_passed (s : State) : s.freePort.mp.passed = s.mp.passed := rfl

@[simp] theorem completeUp_passed (s : State) (err : Bool) (d : Option Word) :
    (s.completeUp err d).mp.passed = s.mp.passed := rfl

@[simp] theorem placeRequest_passed (s : State) (a : Access) : (s.placeRequest a).mp.passed = s.mp.passed := by
  simp only [State.placeRequest]
  split
  · rfl
  · split <;> rfl

@[simp] theorem takeRequest_passed (s : State) (a : Access) : (s.takeRequest a).mp.passed = s.mp.passed := by
  simp only [State.takeRequest]
  split <;> simp

@[simp] theorem assertBrst_passed (s : State) : s.assertBrst.mp.passed = s.mp.passed := by
  simp only [State.assertBrst]
  split <;> simp

@[simp] theorem completeDiscarded_passed (s : State) : s.completeDiscarded.mp.passed = s.mp.passed := by
  simp only [State.completeDiscarded]
  split <;> rfl

@[simp] theorem releaseFresh_passed (s : State) (w : FreshWord) (v : Word) (err : Bool) :
    (s.releaseFresh w v err).mp.passed = s.mp.passed := by
  simp only [State.releaseFresh]
  split
  · split <;> rfl
  · rfl

@[simp] theorem endStatus_passed (s : State) (err : Bool) : (s.endStatus err).mp.passed = s.mp.passed := by
  simp only [State.endStatus]
  split
  · split <;> simp
  · rfl

@[simp] theorem endRefresh_passed (s : State) (err : Bool) : (s.endRefresh err).mp.passed = s.mp.passed := by
  simp only [State.endRefresh]
  split
  · split <;> simp
  · rfl

/-! ## A profile joins its queue (R75, R76) -/

theorem joined_length {g : Staging} (h : g.queue.length ≤ 4) (b : Bool) (x : Profile) :
    (g.joined b x).queue.length ≤ 4 := by
  rw [Staging.joined, place_length]
  split
  · rename_i full
    have shorter := dropOldest_length b full
    show (dropOldest b g.queue).length + 1 ≤ 4
    omega
  · omega

theorem produce_boundsKept (s : State) (l : LineId) : BoundsKept s (s.produce l) := by
  refine ⟨fun k hk => ?_, .inl (by simp), by simp, by simp, (flightLaw_congr (by simp)).mpr⟩
  simp only [State.produce]
  split
  · exact hk
  · rename_i c hc
    generalize (s.sru l).formProfile c l _ = x
    obtain ⟨⟨y, here⟩, there⟩ := takeProfile_staging ((s.modSru l fun u => u.afterProfile c).markLine l) l x
    have staging : ((((s.modSru l fun u => u.afterProfile c).markLine l).takeProfile l x).modLs l fun q =>
        { q with profileSincePriming := true, attempts := 0 }).staging k
          = (((s.modSru l fun u => u.afterProfile c).markLine l).takeProfile l x).staging k := by simp [State.staging]
    rw [staging]
    by_cases e : k = l
    · subst e
      rw [here]
      exact joined_length hk _ y
    · rw [there k e]
      exact hk

theorem endPhase_boundsKept (s : State) (l : LineId) (coilLo : Bool) : BoundsKept s (s.endPhase l coilLo) := by
  by_cases h : (s.ls l).phase = some .nWindow
  · rw [endPhase_nWindow coilLo h]
    have off : BoundsKept s (s.modLs l fun q => { q with bridge := .allOff }) := boundsKept_of_frame (by simp)
    have after (t : State) : BoundsKept t (t.afterCycle l) := boundsKept_of_frame (by simp)
    refine BoundsKept.trans (off.trans ?_) (after _)
    simp only [State.closeCycle]
    split
    · exact produce_boundsKept _ l
    · exact boundsKept_of_frame (by simp)
  · simp only [State.endPhase]
    split
    case h_3 => split <;> exact boundsKept_of_frame (by simp)
    case h_6 => split <;> exact boundsKept_of_frame (by simp)
    case h_7 hp => exact absurd hp h
    all_goals exact boundsKept_of_frame (by simp)

/-! ## The end of a record and of a page word (R82, R87, R92) -/

theorem loseHead_length (g : Staging) : g.loseHead.queue.length ≤ g.queue.length := by
  simp only [Staging.loseHead]
  split
  · exact Nat.le_refl _
  · rename_i hq; simp [hq]
  · rename_i hq; simp [hq]

theorem endFlight_boundsKept (s : State) : BoundsKept s s.endFlight :=
  ⟨fun _ => id, .inl rfl, rfl, rfl, fun _ => flightLaw_of_none (endFlight_flight s)⟩

theorem freePort_boundsKept (s : State) : BoundsKept s s.freePort := boundsKept_of_frame (by simp)
theorem releaseHeld_boundsKept (s : State) : BoundsKept s s.releaseHeld := boundsKept_of_frame (by simp)

theorem recordFault_boundsKept (s : State) (r : RingId) (d : Nat) : BoundsKept s (s.recordFault r d) := by
  have faulted : BoundsKept s.endFlight (s.endFlight.faultRing r) := boundsKept_of_frame (by simp)
  have told (t : State) (l : LineId) : BoundsKept t (((t.raise .deliveryFault (.line l) d).markLine l).markPart) :=
    boundsKept_of_frame (by simp)
  have returned (t : State) : BoundsKept t t.entryReturned := boundsKept_of_frame (by simp)
  simp only [State.recordFault]
  split
  · exact (((endFlight_boundsKept s).trans faulted).trans (modStaging_boundsKept _ _ _ loseHead_length)).trans (told _ _)
  · exact ((endFlight_boundsKept s).trans faulted).trans (returned _)

theorem deliver_boundsKept (s : State) (r : RingId) : BoundsKept s (s.deliver r) := by
  have advanced : BoundsKept s.endFlight (s.endFlight.advanceW r) := boundsKept_of_frame (by simp)
  have served (t : State) (q : RingId) (f : RingDesc → RingDesc) : BoundsKept t (t.modRing q f) :=
    boundsKept_of_frame (by simp)
  have told (c : Prop) [Decidable c] (t : State) (l : LineId) (n : Nat) :
      BoundsKept t (((if c then t.raise .batch (.line l) n else t).markLine l).markPart) := by
    split <;> exact boundsKept_of_frame (by simp)
  have left (t : State) (l : LineId) : BoundsKept t
      (t.modStaging l fun g => { g with queue := g.queue.drop 1, delivered := g.delivered + 1 }) :=
    modStaging_boundsKept t l _ fun g => by simp
  simp only [State.deliver]
  split
  · simp only [State.profileDelivered]
    exact ((((endFlight_boundsKept s).trans (served _ _ _)).trans (served _ _ _)).trans (left _ _)).trans (told _ _ _ _)
  · have entry (t : State) : BoundsKept t t.entryDelivered := boundsKept_of_frame (by simp)
    exact ((endFlight_boundsKept s).trans advanced).trans (entry _)

theorem endRecordWord_boundsKept (s : State) (err : Bool) : BoundsKept s (s.endRecordWord err) := by
  simp only [State.endRecordWord]
  split
  · rename_i r slot words done _ hf
    split
    · exact ((freePort_boundsKept s).trans (recordFault_boundsKept _ r 1)).trans (releaseHeld_boundsKept _)
    · exact ⟨fun _ => id, .inl rfl, rfl, rfl, fun _ => flightLaw_of_record (r := r) (slot := slot) (words := words)
        (done := done + 1) rfl⟩
  · exact .refl s

theorem endWWord_boundsKept (s : State) (err : Bool) : BoundsKept s (s.endWWord err) := by
  simp only [State.endWWord]
  split
  · split
    · exact ((freePort_boundsKept s).trans (recordFault_boundsKept _ _ 2)).trans (releaseHeld_boundsKept _)
    · exact ((freePort_boundsKept s).trans (deliver_boundsKept _ _)).trans (releaseHeld_boundsKept _)
  · exact .refl s

theorem pageFault_boundsKept (s : State) (p : PageId) : BoundsKept s (s.pageFault p) := by
  have ended (t : State) : BoundsKept t (t.pageEnded p) := boundsKept_of_frame (by simp)
  have told (t : State) : BoundsKept t ((t.modPage p fun _ => { dirty := true, faulted := true }).raise
      .deliveryFault .part (pageFaultDetail p)) := boundsKept_of_frame (by simp)
  have marked (t : State) : BoundsKept t t.markPart := boundsKept_of_frame (by simp)
  simp only [State.pageFault]
  split
  · exact ((endFlight_boundsKept s).trans (told _)).trans (ended _)
  · exact (((endFlight_boundsKept s).trans (told _)).trans (marked _)).trans (ended _)

theorem endPageWord_boundsKept (s : State) (err : Bool) : BoundsKept s (s.endPageWord err) := by
  have ended (t : State) (p : PageId) : BoundsKept t (t.pageEnded p) := boundsKept_of_frame (by simp)
  simp only [State.endPageWord]
  split
  · split
    · exact ((freePort_boundsKept s).trans (pageFault_boundsKept _ _)).trans (releaseHeld_boundsKept _)
    · split
      · rename_i more
        refine ⟨fun _ => id, .inl rfl, rfl, rfl, fun _ p w d hf => ?_⟩
        cases hf
        exact more
      · exact (((freePort_boundsKept s).trans (endFlight_boundsKept _)).trans (ended _ _)).trans (releaseHeld_boundsKept _)
  · exact .refl s

/-! ## Host accesses (R119 to R124, R148) -/

/-- A delivery section that passes validation has a patience within its range (R130, R151). -/
theorem patience_of_valid {b : Bytes} (h : firstFailure (deliveryTests b) = none) : patience b ≤ 64 := by
  have passed := firstFailure_none h (x := (0x51, inRange 1 (patience b) 64)) (by simp [deliveryTests])
  simp only [inRange, Bool.and_eq_true, decide_eq_true_eq] at passed
  exact passed.2

theorem commitDelivery_bounded (hs : boundedCounts s) (tag : Byte) : boundedCounts (s.commitDelivery tag).1 := by
  simp only [State.commitDelivery]
  split
  · exact hs
  · rename_i valid
    obtain ⟨queues, passed, live, -, flight⟩ := hs
    refine ⟨queues, passed, live, fun a ha => ?_, flight⟩
    cases ha
    exact patience_of_valid valid

theorem runCommand_bounded (hs : boundedCounts s) (tag code operand : Byte) :
    boundedCounts (s.runCommand tag code operand).1 := by
  by_cases h : code.toNat = 4
  · simp only [State.runCommand, h]
    exact commitDelivery_bounded hs tag
  · refine BoundsKept.bounded (s := s) ?_ hs
    have arming := runCommand_arming s tag code operand h
    simp only [State.runCommand] at arming ⊢
    split at arming
    case h_10 => exact boundsKept_of_frame (by simp [State.clearTotal])
    all_goals exact boundsKept_of_frame (by simp [arming])

theorem handOver_bounded (hs : boundedCounts s) (r : Request) : boundedCounts (s.handOver r) := by
  have recorded (t : State) (tag code : Byte) (x : Reply) : BoundsKept t (t.setRecord tag code x) :=
    boundsKept_of_frame (by simp)
  have captured (q : RingId) (d : Half) : BoundsKept s (s.captureRd q d) := by
    simp only [State.captureRd]
    split
    · exact .refl s
    · split
      · split <;> exact boundsKept_of_frame (by simp)
      · exact boundsKept_of_frame (by simp)
  simp only [State.handOver]
  split
  · exact hs
  · split
    · exact (boundsKept_of_frame (by simp)).bounded hs
    · exact hs
  · simp only [State.takeCommandWrite, State.takeCommand, State.takePartial]
    split
    · split
      · exact (recorded _ _ _ _).bounded hs
      · exact (recorded _ _ _ _).bounded (runCommand_bounded hs _ _ _)
    · exact (recorded _ _ _ _).bounded hs
  · split
    · exact (captured _ _).bounded hs
    · exact hs

theorem completeHost_bounded (hs : boundedCounts s) (err : Bool) (data : Word) :
    boundedCounts (s.completeHost err data) := by
  have ends (t : State) (r : Request) (d : Option Word) (c : Prop) [Decidable c] :
      BoundsKept t (if c then t.freePort.completeUp err d else (t.freePort.completeUp err d).afterFreshRead r) := by
    split <;> exact boundsKept_of_frame (by simp)
  simp only [State.completeHost]
  split
  · split
    · refine (ends _ _ _ _).bounded ?_
      split
      · exact handOver_bounded hs _
      · exact hs
    · exact hs
  · exact hs

/-! ## Every row -/

theorem guarded_bounded {c : Prop} [Decidable c] (hs : boundedCounts s) (h : BoundsKept s t) :
    boundedCounts (if c then t else s) := guarded_keeps hs (h.bounded hs)

theorem endIndexReset_boundsKept (s : State) (err : Bool) : BoundsKept s (s.endIndexReset err) := by
  have faulted (t : State) (r : RingId) : BoundsKept t (t.indexResetFault r) := by
    simp only [State.indexResetFault]
    split <;> exact boundsKept_of_frame (by simp)
  simp only [State.endIndexReset]
  split
  · rename_i r overtaken _ _
    have cleared : BoundsKept s (s.freePort.modRing r fun d => { d with resetOut := false }) :=
      boundsKept_of_frame (by simp)
    split
    · exact freePort_boundsKept s
    · split
      · exact (cleared.trans (faulted _ _)).trans (releaseHeld_boundsKept _)
      · exact cleared.trans (releaseHeld_boundsKept _)
  · exact .refl s

theorem endLoadRead_boundsKept (s : State) (err : Bool) (data : Word) : BoundsKept s (s.endLoadRead err data) := by
  simp only [State.endLoadRead]
  split
  · exact boundsKept_of_frame (by simp)
  · exact .refl s

theorem releaseBrst_boundsKept (s : State) : BoundsKept s s.releaseBrst := by
  simp only [State.releaseBrst, State.countReset]
  split
  · split <;> exact boundsKept_of_frame (by simp)
  · exact .refl s

theorem effectOf_bounded (c : Instr) (hs : boundedCounts s) : boundedCounts (effectOf c s) := by
  cases c with
  | phaseEnd l coilLo =>
    exact (endPhase_boundsKept _ l coilLo).bounded
      ((boundsKept_of_frame (s := s) (t := { s with pins := s.pins.withCoilLo l coilLo }) (by simp)).bounded hs)
  | silenceTimerExpiry l => exact guarded_bounded hs (boundsKept_of_frame (by simp))
  | windowExpiry w => exact guarded_bounded hs (boundsKept_of_frame (by simp))
  | hostRequestTaken addr write be data => exact guarded_bounded hs (boundsKept_of_frame (by simp))
  | hostForwardedCompletion | capturedWrite | rdCapture | activitySummaryRead | commitLine | commitCal | commitWindows
  | commitDelivery | load | start | stop | halt | restart | clearTotal | freeze | unknownCommand | partialCommandWrite =>
    exact effectOf_completes_keeps hs (completeHost_bounded hs) rfl
  | indexResetWriteComplete err => exact (endIndexReset_boundsKept s err).bounded hs
  | recordWordComplete err => exact (endRecordWord_boundsKept s err).bounded hs
  | wWordWriteComplete err => exact (endWWord_boundsKept s err).bounded hs
  | pageWordComplete err => exact (endPageWord_boundsKept s err).bounded hs
  | loadReadComplete err data => exact (endLoadRead_boundsKept s err data).bounded hs
  | linkWaitIdleExit l => exact guarded_bounded hs (boundsKept_of_frame (by simp))
  | busResetRelease => exact (releaseBrst_boundsKept s).bounded hs
  | _ => exact (boundsKept_of_frame (by simp [effectOf, State.advanceMs, State.advanceLines])).bounded hs

/-! ## Every step -/

/-- A page that begins has words to be written (R87). -/
theorem beginWork_bounded {w : DeWork} (hw : s.deNext = some w) (hs : boundedCounts s) :
    boundedCounts (s.beginWork w) := by
  obtain ⟨mp, -, cu, -, h⟩ := beginWork_spec hw rfl
  have passed : (s.beginWork w).mp.passed = 0 := by rw [mp]
  have kept (de : (s.beginWork w).de.staging = s.de.staging ∧ (s.beginWork w).de.arming = s.de.arming)
      (flight : flightLaw s → flightLaw (s.beginWork w)) : boundedCounts (s.beginWork w) :=
    BoundsKept.bounded ⟨fun l => by simp only [State.staging, de.1, imp_self], .inr passed, by rw [cu], de.2, flight⟩ hs
  have same (flight : (s.beginWork w).de.flight = s.de.flight) : flightLaw s → flightLaw (s.beginWork w) :=
    (flightLaw_congr flight).mpr
  cases w with
  | fresh w => exact kept (by simp [h.1]) (same (by simp [h.1]))
  | flightWord => exact kept (by simp [h.2.2.1]) (same (by simp [h.2.2.1]))
  | indexReset r => exact kept (by simp [h.2.2.1]) (same (by simp [h.2.2.1]))
  | commandStatus => exact kept (by simp [h.2.2.1]) (same (by simp [h.2.2.1]))
  | loadRead off => exact kept (by simp [h.2.2.1]) (same (by simp [h.2.2.1]))
  | notice e =>
    obtain ⟨⟨de, -⟩, -⟩ := h
    exact kept (by rw [de]; exact ⟨rfl, rfl⟩) fun _ => flightLaw_of_record (by rw [de])
  | profile l g =>
    obtain ⟨⟨de, -⟩, -⟩ := h
    exact kept (by rw [de]; exact ⟨rfl, rfl⟩) fun _ => flightLaw_of_record (by rw [de])
  | page x =>
    obtain ⟨de, -, -, words, -⟩ := h
    refine kept (by rw [de]; exact ⟨rfl, rfl⟩) fun _ p ws done hf => ?_
    rw [de] at hf
    cases hf
    exact List.length_pos_iff.mpr words

/-- Of the Memory Path and the Command Unit what an arming changes (R79, R156). -/
theorem takeArming_kept {a : Arming} (ha : s.de.arming = some a) (hf : s.de.flight = none) :
    s.takeArming.mp = { s.mp with request := s.takeArming.mp.request, port := s.takeArming.mp.port
                                  completion := s.takeArming.mp.completion }
      ∧ s.takeArming.cu = { s.cu with liveDelivery := a.bytes, deliveryTag := a.tag, record := s.takeArming.cu.record
                                      owner := s.takeArming.cu.owner } := by
  have arms : armsBy s a (s.markChanged s.takeArming) := takeArming_spec ha hf
  obtain ⟨-, cu, -, -, -, -, -, -, -, -, -, -, -, -, -, -, -, -, mp, -⟩ := arms
  exact ⟨mp, cu⟩

theorem takeArming_bounded (hd : s.armingDue = true) (hs : boundedCounts s) : boundedCounts s.takeArming := by
  obtain ⟨ha, hf⟩ := armingDue_iff.mp hd
  obtain ⟨a, ha⟩ := Option.ne_none_iff_exists'.mp ha
  obtain ⟨noArming, noFlight⟩ := takeArming_waits hd
  obtain ⟨queues, passed, -, arming, -⟩ := hs
  obtain ⟨mp, cu⟩ := takeArming_kept ha hf
  have staging (l : LineId) : s.takeArming.staging l = s.staging l := by
    rw [State.staging, takeArming_staging, State.staging]
  refine ⟨fun l => by rw [staging]; exact queues l, ?_, ?_, fun b hb => ?_, flightLaw_of_none noFlight⟩
  · rw [show s.takeArming.mp = _ from mp]; exact passed
  · rw [State.liveDelivery, show s.takeArming.cu = _ from cu]; exact arming a ha
  · rw [noArming] at hb; cases hb

theorem grantHost_bounded {n : Nat} (hn : passedNext s n) (hs : boundedCounts s) : boundedCounts (s.grantHost n) := by
  obtain ⟨queues, passed, live, arming, flight⟩ := hs
  have count : n ≤ 64 := by
    rcases hn with rfl | ⟨rfl, below⟩
    · exact passed
    · omega
  refine ⟨queues, ?_, live, arming, flight⟩
  simp only [State.grantHost, State.modMp]
  split
  · exact count
  · exact passed

theorem powerOn_bounded (p : Pins) (base : Byte) (free : Nat) (rest : List Instr) :
    boundedCounts (State.powerOn p base free rest) := by
  have staging (l : LineId) : (State.powerOn p base free rest).staging l = .reset := by
    rw [State.staging, show (State.powerOn p base free rest).de.staging = Vector.replicate 4 .reset from rfl,
      Fin.getElem_fin, Vector.getElem_replicate]
  refine ⟨fun l => by rw [staging]; exact Nat.zero_le _, Nat.zero_le _, ?_, fun a ha => (by cases ha),
    flightLaw_of_none rfl⟩
  show patience defaultDelivery ≤ 64
  decide +kernel

theorem bounded_stepLaw : StepLaw boundedCounts where
  pins _ _ _ _ hs := hs
  marked _ _ ht := ht
  awaited _ _ hs := hs
  arming _ _ hd hs := takeArming_bounded hd hs
  host _ _ _ _ hn hs := grantHost_bounded hn hs
  begun _ _ _ _ hw hs := beginWork_bounded hw hs
  effect c _ _ _ hu := effectOf_bounded c hu
  powerOn := powerOn_bounded
  pending _ _ hs := hs
  tick _ hs := hs

end Sys2Proof.Machine
end

