-- ==== Sys2Proof/Proofs/LegsAndBounds.lean ====
section
/-! PROOF of O58. The switches, gaps, bounds and the due arming through every command and step (R4 to R6, R77, R79, R87,
R130). -/

namespace Sys2Proof.Machine

variable {l : LineId} {s t u : State}

/-! ## Laws about the lines and their copies -/

/-- What reads the lines and the copies of the Command Unit, and besides these the freeze, alone: only the effect of a row
changes it. -/
theorem grantLaw_of_lines {P : State → Prop}
    (h : ∀ s t : State, t.lines = s.lines → t.cu.lines = s.cu.lines → t.cu.frozen = s.cu.frozen → P s → P t) :
    GrantLaw P where
  pins s _ _ _ hs := h s _ rfl rfl rfl hs
  marked _ t ht := h t _ rfl rfl rfl ht
  awaited s _ hs := h s _ rfl rfl rfl hs
  arming s _ hd hs := by
    obtain ⟨ha, hf⟩ := armingDue_iff.mp hd
    obtain ⟨a, ha⟩ := Option.ne_none_iff_exists'.mp ha
    obtain ⟨-, cu⟩ := takeArming_kept ha hf
    exact h s _ (by simp) (by rw [cu]) (by rw [cu]) hs
  host s _ _ _ _ hs := h s _ (by simp) (by simp) (by simp) hs
  begun s w _ _ _ hs := h s _ (by simp) (by simp) (by simp) hs

theorem tick_ls (s : State) (l : LineId) : s.tick.ls l = (s.ls l).tick := by simp [State.ls, State.tick, Line.tick]

theorem tick_restsAt (s : State) (l : LineId) : RestsAt l s s.tick := by
  have ls := tick_ls s l
  refine ⟨.inl (by rw [ls]; rfl), ?_, ?_⟩
  · rw [ls]; exact (stands_congr ⟨rfl, rfl, rfl, rfl⟩).mpr
  · intro h
    obtain ⟨live, pending, lengths⟩ := h
    exact ⟨live, pending, by rw [ls]; exact lengths⟩

theorem powerOn_ls (p : Pins) (base : Byte) (free : Nat) (rest : List Instr) (l : LineId) :
    (State.powerOn p base free rest).ls l = .reset p.trip[l] := by
  simp [State.ls, State.powerOn, Line.reset]

theorem powerOn_gaps (p : Pins) (base : Byte) (free : Nat) (rest : List Instr) (l : LineId) :
    gapsAt (State.powerOn p base free rest) l := by
  have copies : (State.powerOn p base free rest).copies l = .reset := by
    rw [State.copies, show (State.powerOn p base free rest).cu.lines = Vector.replicate 4 .reset from rfl,
      Fin.getElem_fin, Vector.getElem_replicate]
  have default : 2 ≤ gapTicks defaultLine := by decide +kernel
  refine ⟨by rw [State.liveLine, copies]; exact default, fun q hq => ?_, fun c hc => ?_⟩
  · rw [copies] at hq; cases hq
  · rw [powerOn_ls] at hc; cases hc

theorem legsSafe_stepLaw : StepLaw legsSafe where
  toGrantLaw := grantLaw_of_lines fun s t lines _ _ hs l => by
    rw [State.ls, lines]; exact hs l
  effect c u _ _ hu l := (effectOf_turnsAt l c u).legs (hu l)
  powerOn p base free rest l := by rw [powerOn_ls]; exact allOff_safe
  pending _ _ hs := hs
  tick s hs l := ((tick_restsAt s l).turns .armingTakesEffect).legs (hs l)

theorem bridgeLaw_stepLaw : StepLaw bridgeLaw where
  toGrantLaw := grantLaw_of_lines fun s t lines _ _ hs l => by
    rw [State.ls, lines]; exact hs l
  effect c u _ _ hu l := (effectOf_turnsAt l c u).stands (hu l)
  powerOn p base free rest l := by rw [powerOn_ls]; exact stands_of_off rfl rfl
  pending _ _ hs := hs
  tick s hs l := (tick_restsAt s l).stands (hs l)

theorem gapLaw_stepLaw : StepLaw gapLaw where
  toGrantLaw := grantLaw_of_lines fun s t lines copies _ hs l => by
    rw [State.liveLine, State.copies, State.ls, lines, copies]; exact hs l
  effect c u _ _ hu l := (effectOf_turnsAt l c u).gaps (hu l)
  powerOn := powerOn_gaps
  pending _ _ hs := hs
  tick s hs l := (tick_restsAt s l).gaps (hs l)

/-! ## A due arming finds the port FREE (R79, R118) -/

theorem armingLaw_of_free (h : t.mp.port = .free) : armingLaw t := fun _ => h

theorem armingLaw_of_notDue (h : noArmingDue t) : armingLaw t := fun due => absurd h due

theorem armingLaw_of_kept (hu : noArmingDue u) (h : t.de.arming = u.de.arming ∧ t.de.flight = u.de.flight) :
    armingLaw t := armingLaw_of_notDue (by simpa only [noArmingDue, h] using hu)

/-- The completion of an access frees the port, or does nothing (R118). -/
theorem completeHost_port (s : State) (err : Bool) (data : Word) :
    (s.completeHost err data).mp.port = .free ∨ s.completeHost err data = s := by
  have ends (t : State) (r : Request) (d : Option Word) (c : Prop) [Decidable c] :
      (if c then t.freePort.completeUp err d else (t.freePort.completeUp err d).afterFreshRead r).mp.port = .free := by
    split
    · rfl
    · simp [State.completeUp, State.freePort, State.modMp]
  simp only [State.completeHost]
  split
  · split
    · exact .inl (ends _ _ _ _)
    · exact .inr rfl
  · exact .inr rfl

theorem completeHost_armingLaw (hu : noArmingDue u) (err : Bool) (data : Word) : armingLaw (u.completeHost err data) := by
  rcases completeHost_port u err data with h | h
  · exact armingLaw_of_free h
  · rw [h]; exact armingLaw_of_notDue hu

theorem endRecordWord_armingLaw (hu : noArmingDue u) (err : Bool) : armingLaw (u.endRecordWord err) := by
  simp only [State.endRecordWord]
  split
  · split
    · exact armingLaw_of_free (by simp [State.freePort, State.modMp])
    · exact armingLaw_of_free rfl
  · exact armingLaw_of_notDue hu

theorem endWWord_armingLaw (hu : noArmingDue u) (err : Bool) : armingLaw (u.endWWord err) := by
  simp only [State.endWWord]
  split
  · split <;> exact armingLaw_of_free (by simp [State.freePort, State.modMp])
  · exact armingLaw_of_notDue hu

theorem endPageWord_armingLaw (hu : noArmingDue u) (err : Bool) : armingLaw (u.endPageWord err) := by
  simp only [State.endPageWord]
  split
  · split
    · exact armingLaw_of_free (by simp [State.freePort, State.modMp])
    · split
      · exact armingLaw_of_free rfl
      · exact armingLaw_of_free (by simp [State.freePort, State.modMp])
  · exact armingLaw_of_notDue hu

theorem endLoadRead_armingLaw (hu : noArmingDue u) (err : Bool) (data : Word) : armingLaw (u.endLoadRead err data) := by
  simp only [State.endLoadRead]
  split
  · exact armingLaw_of_kept hu (by simp)
  · exact armingLaw_of_notDue hu

theorem releaseBrst_armingLaw (hu : noArmingDue u) : armingLaw u.releaseBrst := by
  simp only [State.releaseBrst, State.countReset]
  split
  · split <;> exact armingLaw_of_kept hu (by simp)
  · exact armingLaw_of_notDue hu

theorem endIndexReset_armingLaw (hu : noArmingDue u) (err : Bool) : armingLaw (u.endIndexReset err) := by
  simp only [State.endIndexReset]
  split
  · split
    · exact armingLaw_of_free rfl
    · split
      · exact armingLaw_of_free (by simp [State.freePort, State.modMp])
      · exact armingLaw_of_free (by simp [State.freePort, State.modMp])
  · exact armingLaw_of_notDue hu

theorem guarded_armingLaw {c : Prop} [Decidable c] (hu : noArmingDue u) (h : armingLaw t) :
    armingLaw (if c then t else u) := guarded_keeps (armingLaw_of_notDue hu) h

theorem effectOf_armingLaw (c : Instr) (hu : noArmingDue u) : armingLaw (effectOf c u) := by
  cases c with
  | silenceTimerExpiry l => exact guarded_armingLaw hu (armingLaw_of_kept hu (by simp))
  | windowExpiry w => exact guarded_armingLaw hu (armingLaw_of_kept hu (by simp))
  | hostRequestTaken addr write be data => exact guarded_armingLaw hu (armingLaw_of_kept hu (by simp))
  | hostForwardedCompletion | capturedWrite | rdCapture | activitySummaryRead | commitLine | commitCal | commitWindows
  | commitDelivery | load | start | stop | halt | restart | clearTotal | freeze | unknownCommand | partialCommandWrite =>
    exact effectOf_completes_keeps (armingLaw_of_notDue hu) (completeHost_armingLaw hu) rfl
  | indexResetWriteComplete err => exact endIndexReset_armingLaw hu err
  | recordWordComplete err => exact endRecordWord_armingLaw hu err
  | wWordWriteComplete err => exact endWWord_armingLaw hu err
  | pageWordComplete err => exact endPageWord_armingLaw hu err
  | loadReadComplete err data => exact endLoadRead_armingLaw hu err data
  | linkWaitIdleExit l => exact guarded_armingLaw hu (armingLaw_of_kept hu (by simp))
  | busResetRelease => exact releaseBrst_armingLaw hu
  | _ => exact armingLaw_of_kept hu (by simp [effectOf, State.advanceMs, State.advanceLines])

theorem armingLaw_stepLaw : StepLaw armingLaw where
  pins _ _ _ _ hs := hs
  marked _ _ ht := ht
  awaited _ _ hs := hs
  arming _ _ hd _ := armingLaw_of_notDue (.inl (takeArming_waits hd).1)
  host _ n hd hf hn _ := armingLaw_of_notDue (noArmingDue_grantLaw.host _ n hd hf hn hd)
  begun _ w hd hf hw _ := armingLaw_of_notDue (noArmingDue_grantLaw.begun _ w hd hf hw hd)
  effect c _ _ hd _ := effectOf_armingLaw c hd
  powerOn _ _ _ _ := armingLaw_of_free rfl
  pending _ _ hs := hs
  tick _ hs := hs

/-! ## Switches turned on -/

/-- A command turns a switch of a line on only where it ends a gap phase or the ALL_OFF_HOLD of the line. -/
theorem exec_turn {c : Instr} (hs : (s.ls l).stands) (h : exec c s = .next t) :
    (t.ls l).bridge = (s.ls l).bridge ∨ (t.ls l).bridge = Bridge.allOff ∨ turnsOn l c (s.ls l) := by
  rcases notPowerOn_or c with hc | rfl | ⟨g, v, rfl⟩
  · have before : GrantLaw fun u => u.ls l = s.ls l :=
      grantLaw_of_lines fun _ _ lines _ _ hu => by rw [State.ls, lines]; exact hu
    have after : GrantLaw fun u => (u.ls l).bridge = (s.ls l).bridge ∨ (u.ls l).bridge = Bridge.allOff
        ∨ turnsOn l c (s.ls l) :=
      grantLaw_of_lines fun _ _ lines _ _ hu => by rw [State.ls, lines]; exact hu
    refine exec_leads before after (fun u hu => .inl (by rw [hu])) hc (fun u _ _ hu => ?_) rfl h
    have turned := (effectOf_turnsAt l c u).turn
    rw [hu] at turned
    exact turned hs
  · cases h
    exact .inr (.inl (by rw [powerOn_ls]; rfl))
  · simp only [exec, execPowerOnResetRelease] at h
    cases h
    split
    · exact .inr (.inl (by rw [powerOn_ls]; rfl))
    · exact .inl rfl

/-- What the part does by itself turns a switch of a line on only where it ends a gap phase or the ALL_OFF_HOLD that is
due. -/
theorem idle_turn (hs : (s.ls l).stands) (h : idle s = .next t) :
    (t.ls l).bridge = (s.ls l).bridge ∨ (t.ls l).bridge = Bridge.allOff
      ∨ ∃ c, s.dueEvent = some c ∧ turnsOn l c (s.ls l) := by
  simp only [idle] at h
  split at h
  · cases h; exact .inl rfl
  · split at h
    · rename_i c hc
      exact (exec_turn hs h).imp id (Or.imp id fun e => ⟨c, hc, e⟩)
    · split at h
      · cases h
        exact .inl (by simp [State.ls])
      · cases h
        exact .inl (by rw [tick_ls]; rfl)

theorem step_turn (hs : (s.ls l).stands) (h : step s = .next t) :
    (t.ls l).bridge = (s.ls l).bridge ∨ (t.ls l).bridge = Bridge.allOff ∨ (s.ls l).bridge = Bridge.allOff := by
  simp only [step] at h
  split at h
  · rename_i c rest _
    exact (exec_turn (s := { s with pending := rest }) hs h).imp id (Or.imp id (turnsOn_allOff hs))
  · exact (idle_turn hs h).imp id (Or.imp id fun ⟨_, _, e⟩ => turnsOn_allOff hs e)

/-- The row that ends a phase or a hold is due for its own line. -/
theorem due_turnsOn {c : Instr} (hc : ownEventDue s c) (h : turnsOn l c (s.ls l)) :
    (phaseEnds s l ∧ ((s.ls l).phase = some .leadGap ∨ (s.ls l).phase = some .midGap)) ∨ holdEnds s l := by
  have notStart {w : DeWork} : startRow w ≠ some c := by
    rcases h with ⟨⟨b, rfl⟩, -⟩ | ⟨rfl, -⟩ <;> cases w <;> simp [startRow]
  rcases hc with ⟨-, e⟩ | ⟨-, -, w, -, e⟩ | ⟨-, -, -, e⟩ | ⟨-, -, -, k, e, -⟩
  · rcases h with ⟨⟨b, rfl⟩, -⟩ | ⟨rfl, -⟩ <;> cases e
  · exact absurd e notStart
  · rcases h with ⟨⟨b, rfl⟩, -⟩ | ⟨rfl, -⟩ <;> cases e
  · rcases h with ⟨⟨b, rfl⟩, gap⟩ | ⟨rfl, -⟩
    · rcases e with ⟨-, e⟩ | ⟨-, -, e⟩ | ⟨-, -, -, e⟩ | ⟨-, -, -, -, e⟩ | ⟨-, -, -, -, ends, e⟩ <;> cases e
      exact .inl ⟨ends, gap⟩
    · rcases e with ⟨-, e⟩ | ⟨-, -, e⟩ | ⟨-, -, ends, e⟩ | ⟨-, -, -, -, e⟩ | ⟨-, -, -, -, -, e⟩ <;> cases e
      exact .inr ends

/-- Where the part by itself ends a gap or a hold, the switches have been off for 2 ticks (R6, R16). -/
theorem restedTwo_of_due {c : Instr} (hs : (s.ls l).stands) (hg : gapsAt s l) (hc : ownEventDue s c)
    (h : turnsOn l c (s.ls l)) : restedTwo s l := by
  refine ⟨turnsOn_allOff hs h, ?_⟩
  rcases due_turnsOn hc h with ⟨⟨p, n, c, hp, timer, lengths, ends⟩, gap⟩ | ⟨state, stage, held⟩
  · have long : 2 ≤ n := by
      have gapLength : 2 ≤ ticksOf c p := by
        rcases gap with e | e <;> (rw [hp] at e; cases e; exact hg.2.2 c lengths)
      exact Nat.le_trans gapLength ends
    exact .inl ⟨gap, n, timer, long⟩
  · exact .inr ⟨state, stage, held⟩

/-- Settles O58: a switch is turned on only at the end of a gap or of ALL_OFF_HOLD, which all else of a step leaves. -/
theorem stepKeepsLegsSafeAndBounds : Obligations.StepKeepsLegsSafeAndBounds := by
  refine ⟨fun _ _ hs h => legsSafe_stepLaw.step hs h, fun _ _ hs h => bounded_stepLaw.step hs h,
    fun _ _ hs h => bridgeLaw_stepLaw.step hs h, fun _ _ hs h => gapLaw_stepLaw.step hs h,
    fun _ _ hs h => armingLaw_stepLaw.step hs h, fun s t l hs h changed => ?_, fun s t l hs hg hp h changed => ?_⟩
  · exact (step_turn (hs l) h).resolve_left changed
  · simp only [step, hp] at h
    rcases (idle_turn (hs l) h).resolve_left changed with off | ⟨c, hc, turned⟩
    · exact .inl off
    · exact .inr (restedTwo_of_due (hs l) (hg l) ((dueEvent_iff s c).mp hc) turned)

end Sys2Proof.Machine
end

