-- ==== Sys2Proof/Proofs/FreezeLasts.lean ====
section
/-! PROOF of O59. The freeze and the live calibrations through every command (R158). -/

namespace Sys2Proof.Machine

variable {s t u : State}

/-! ## Calibrations with none pending -/

/-- No calibration of a line is pending. -/
def nonePending (s : State) : Prop := ∀ l : LineId, (s.copies l).pendingCal = none

/-- The freeze and, with no calibration pending, the live calibrations are as they were, and none is pending. -/
structure CalsKept (s t : State) : Prop where
  frozen : t.cu.frozen = s.cu.frozen
  cals : nonePending s → nonePending t ∧ ∀ l : LineId, t.liveCal l = s.liveCal l

theorem CalsKept.refl (s : State) : CalsKept s s := ⟨rfl, fun h => ⟨h, fun _ => rfl⟩⟩

theorem CalsKept.trans (h : CalsKept s t) (h' : CalsKept t u) : CalsKept s u := by
  refine ⟨h'.frozen.trans h.frozen, fun hs => ?_⟩
  obtain ⟨noneT, liveT⟩ := h.cals hs
  obtain ⟨noneU, liveU⟩ := h'.cals noneT
  exact ⟨noneU, fun l => (liveU l).trans (liveT l)⟩

theorem calsKept_of_frame (h : t.cu.frozen = s.cu.frozen
    ∧ (∀ l : LineId, t.cu.lines[l.val].pendingCal = s.cu.lines[l.val].pendingCal)
    ∧ ∀ l : LineId, t.cu.lines[l.val].liveCal = s.cu.lines[l.val].liveCal) : CalsKept s t := by
  obtain ⟨frozen, pending, live⟩ := h
  exact ⟨frozen, fun hs => ⟨fun l => (pending l).trans (hs l), live⟩⟩

/-! ## The Line Sequencer (R8, R153) -/

/-- A transfer of a line with no calibration pending moves none. -/
theorem transfer_calsKept (s : State) (l : LineId) : CalsKept s (s.transfer l) := by
  obtain ⟨⟨-, -, -, kept, ⟨-, none⟩, -, -, others, -⟩, -⟩ := transfer_spec (s := s) (l := l) rfl
  refine ⟨by simp, fun hs => ⟨fun k => ?_, fun k => ?_⟩⟩
  · by_cases hk : k = l
    · rw [hk]; exact none
    · rw [others k hk]; exact hs k
  · by_cases hk : k = l
    · rw [hk]; exact (kept (hs l)).1
    · rw [State.liveCal, others k hk, State.liveCal]

theorem shutdownEntry_calsKept (s : State) (l : LineId) (c : Cause) : CalsKept s (s.shutdownEntry l c) := by
  have after (v : State) : CalsKept v ((((v.countAttempt l).reexamTimer l).modSru l (·.rest)).reportLineState l) :=
    calsKept_of_frame (by simp)
  refine .trans (.trans ?_ (transfer_calsKept _ l)) (after _)
  exact calsKept_of_frame (by simp)

theorem cycleStart_calsKept (s : State) (l : LineId) : CalsKept s (s.cycleStart l) :=
  (transfer_calsKept s l).trans (calsKept_of_frame (by simp [State.cycleStart]))

theorem enterPriming_calsKept (s : State) (l : LineId) : CalsKept s (s.enterPriming l) := by
  simp only [State.enterPriming]
  exact .trans (calsKept_of_frame (by simp)) (cycleStart_calsKept _ l)

theorem enterOff_calsKept (s : State) (l : LineId) : CalsKept s (s.enterOff l) := by
  have after (v : State) : CalsKept v (v.reportLineState l) := calsKept_of_frame (by simp)
  refine .trans (.trans ?_ (transfer_calsKept _ l)) (after _)
  exact calsKept_of_frame (by simp)

theorem actSources_calsKept (s : State) (l : LineId) : CalsKept s (s.actSources l) := by
  simp only [State.actSources]
  split
  · split
    · exact .refl s
    · exact shutdownEntry_calsKept s l _
    · exact shutdownEntry_calsKept s l _
    · exact .trans (calsKept_of_frame (by simp)) (shutdownEntry_calsKept s.usedFree l _)
  · exact .refl s

theorem afterCycle_calsKept (s : State) (l : LineId) : CalsKept s (s.afterCycle l) := by
  have running : CalsKept s ((s.modLs l fun q => { q with state := .running }).reportLineState l) :=
    calsKept_of_frame (by simp)
  simp only [State.afterCycle]
  split
  · exact enterOff_calsKept s l
  · exact (running.trans (cycleStart_calsKept _ l)).trans (actSources_calsKept _ l)
  · exact (cycleStart_calsKept s l).trans (actSources_calsKept _ l)
  · exact .refl s
  · exact .refl s

theorem endPhase_calsKept (s : State) (l : LineId) (coilLo : Bool) : CalsKept s (s.endPhase l coilLo) := by
  have opened {c : Prop} [Decidable c] {v : State} (h : CalsKept s v) :
      CalsKept s (if c then s.shutdownEntry l .openCoil else v) := by
    split
    · exact shutdownEntry_calsKept s l _
    · exact h
  simp only [State.endPhase]
  split
  case h_3 => exact opened (calsKept_of_frame (by simp))
  case h_6 => exact opened (calsKept_of_frame (by simp))
  case h_7 => exact .trans (calsKept_of_frame (by simp)) (afterCycle_calsKept _ l)
  all_goals exact calsKept_of_frame (by simp)

theorem primed_calsKept (s : State) (l : LineId) (d : Nat) :
    CalsKept s (((s.enterPriming l).raise .lineRestarted (.line l) d).actSources l) :=
  ((enterPriming_calsKept s l).trans (calsKept_of_frame (by simp))).trans (actSources_calsKept _ l)

theorem autoRestart_calsKept (s : State) (l : LineId) : CalsKept s (s.autoRestart l) := by
  simp only [State.autoRestart]
  split
  · exact primed_calsKept s l 0
  · exact .refl s

theorem coilHiChanged_calsKept (s : State) (l : LineId) : CalsKept s (s.coilHiChanged l) := by
  simp only [State.coilHiChanged]
  split
  · exact calsKept_of_frame (by simp)
  · split
    · exact shutdownEntry_calsKept s l _
    · exact .refl s

theorem newPins_calsKept (s : State) (p : Pins) : CalsKept s { s with pins := p } :=
  calsKept_of_frame ⟨rfl, fun _ => rfl, fun _ => rfl⟩

theorem setCoilHi_calsKept (s : State) (l : LineId) (level : Bool) : CalsKept s (s.setCoilHi l level) := by
  simp only [State.setCoilHi]
  split
  · exact .refl s
  · exact (newPins_calsKept s _).trans (coilHiChanged_calsKept _ l)

theorem tripChanged_calsKept (s : State) (l : LineId) : CalsKept s (s.tripChanged l) := by
  simp only [State.tripChanged]
  split
  · exact calsKept_of_frame (by simp)
  · split
    · exact shutdownEntry_calsKept s l _
    · exact .refl s

theorem setTripLevel_calsKept (s : State) (l : LineId) (level : Bool) : CalsKept s (s.setTripLevel l level) :=
  .trans (calsKept_of_frame (by simp)) (tripChanged_calsKept (s.modLs l fun q => { q with tripLevel := level, debounce := none }) l)

theorem completeDebounce_calsKept (s : State) (l : LineId) : CalsKept s (s.completeDebounce l) := by
  simp only [State.completeDebounce]
  split
  · exact setTripLevel_calsKept s l _
  · exact .refl s

theorem completeDue_calsKept (s : State) (l : LineId) : CalsKept s (s.completeDue l) := by
  simp only [State.completeDue]
  split
  · split
    · exact setTripLevel_calsKept s l _
    · exact .refl s
  · exact .refl s

theorem followTrip_calsKept (s : State) (l : LineId) (level : Bool) : CalsKept s (s.followTrip l level) := by
  simp only [State.followTrip]
  split
  · exact calsKept_of_frame (by simp)
  · split
    · exact setTripLevel_calsKept s l level
    · exact calsKept_of_frame (by simp)

theorem setTrip_calsKept (s : State) (l : LineId) (level : Bool) : CalsKept s (s.setTrip l level) := by
  simp only [State.setTrip]
  split
  · exact .refl s
  · exact ((completeDue_calsKept s l).trans (newPins_calsKept _ _)).trans (followTrip_calsKept _ l level)

/-! ## Commands (R148, R158) -/

theorem applyLine_calsKept (s : State) (l : LineId) (new : Bytes) (tag : Byte) : CalsKept s (s.applyLine l new tag) :=
  calsKept_of_frame (by simp)

theorem commitLine_calsKept (s : State) (tag : Byte) (l : LineId) : CalsKept s (s.commitLine tag l).1 := by
  simp only [State.commitLine]
  split
  · exact .refl s
  · split
    · exact applyLine_calsKept s l _ tag
    · exact calsKept_of_frame (by simp)

theorem startLine_calsKept (s : State) (l : LineId) : CalsKept s (s.startLine l).1 := by
  simp only [State.startLine]
  split
  case h_1 => exact (enterPriming_calsKept s l).trans (actSources_calsKept _ l)
  case h_2 => exact calsKept_of_frame (by simp)
  all_goals exact .refl s

theorem stopLine_calsKept (s : State) (l : LineId) : CalsKept s (s.stopLine l).1 := by
  simp only [State.stopLine]
  split
  case h_1 => exact calsKept_of_frame (by simp)
  case h_2 => exact .trans (calsKept_of_frame (by simp)) (enterOff_calsKept (s.modSru l (·.abandon)) l)
  case h_3 => exact .trans (calsKept_of_frame (by simp)) (enterOff_calsKept (s.modLs l _) l)
  all_goals exact .refl s

theorem haltLine_calsKept (s : State) (l : LineId) : CalsKept s (s.haltLine l).1 := by
  simp only [State.haltLine]
  split
  case h_4 => exact calsKept_of_frame (by simp)
  case h_5 => exact .refl s
  all_goals exact shutdownEntry_calsKept s l _

theorem restartLine_calsKept (s : State) (l : LineId) : CalsKept s (s.restartLine l).1 := by
  simp only [State.restartLine]
  split
  · split
    · exact .refl s
    · split
      · exact .refl s
      · refine .trans (t := s.modLs l fun q =>
          { q with causes := { q.causes with software := false }, attempts := 0, lockout := false })
          (calsKept_of_frame (by simp)) ?_
        generalize s.modLs l _ = u
        exact primed_calsKept u l 1
  all_goals exact .refl s

/-- Once the freeze is set every command but COMMIT_CAL, which is refused, leaves the calibrations. -/
theorem runCommand_calsKept {code : Byte} (h : code.toNat ≠ 2) (hs : s.cu.frozen = true) (tag operand : Byte) :
    CalsKept s (s.runCommand tag code operand).1 := by
  simp only [State.runCommand]
  split
  case h_1 => exact commitLine_calsKept s tag _
  case h_2 hc => exact absurd hc h
  case h_6 => exact startLine_calsKept s _
  case h_7 => exact stopLine_calsKept s _
  case h_8 => exact haltLine_calsKept s _
  case h_9 => exact restartLine_calsKept s _
  case h_10 => exact calsKept_of_frame (by simp [State.clearTotal])
  case h_11 =>
    simp only [State.freeze, hs, if_true]
    exact .refl s
  all_goals exact calsKept_of_frame (by simp)

theorem takeCommand_calsKept (hs : s.cu.frozen = true) (tag code operand : Byte) :
    CalsKept s (s.takeCommand tag code operand) := by
  have recorded (t : State) (x : Reply) : CalsKept t (t.setRecord tag code x) := calsKept_of_frame (by simp)
  simp only [State.takeCommand]
  split
  · exact recorded _ _
  · rename_i notRefused
    have notCal : code.toNat ≠ 2 := fun h => by
      have touches : touchesCalibration code operand = true := by simp [touchesCalibration, h]
      simp only [State.refusal, touches, hs, Bool.and_self, if_true] at notRefused
      (repeat' split at notRefused) <;> cases notRefused
    exact (runCommand_calsKept notCal hs tag operand).trans (recorded _ _)

theorem handOver_calsKept (hs : s.cu.frozen = true) (r : Request) : CalsKept s (s.handOver r) := by
  simp only [State.handOver]
  split
  · exact .refl s
  · split
    · exact calsKept_of_frame (by simp)
    · exact .refl s
  · simp only [State.takeCommandWrite, State.takePartial]
    split
    · exact takeCommand_calsKept hs _ _ _
    · exact calsKept_of_frame (by simp)
  · split
    · exact calsKept_of_frame (by simp)
    · exact .refl s

theorem completeHost_calsKept (hs : s.cu.frozen = true) (err : Bool) (data : Word) :
    CalsKept s (s.completeHost err data) := by
  have ends (t : State) (r : Request) (d : Option Word) (c : Prop) [Decidable c] :
      CalsKept t (if c then t.freePort.completeUp err d else (t.freePort.completeUp err d).afterFreshRead r) := by
    split <;> exact calsKept_of_frame (by simp)
  simp only [State.completeHost]
  split
  · split
    · refine CalsKept.trans ?_ (ends _ _ _ _)
      split
      · exact handOver_calsKept hs _
      · exact .refl s
    · exact .refl s
  · exact .refl s

/-! ## Every row -/

theorem guarded_calsKept {c : Prop} [Decidable c] (h : CalsKept s t) : CalsKept s (if c then t else s) :=
  guarded_keeps (.refl s) h

theorem endPageWord_calsKept (s : State) (err : Bool) : CalsKept s (s.endPageWord err) := by
  simp only [State.endPageWord]
  split
  · split
    · exact calsKept_of_frame (by simp)
    · split <;> exact calsKept_of_frame (by simp)
  · exact .refl s

theorem endLoadRead_calsKept (s : State) (err : Bool) (data : Word) : CalsKept s (s.endLoadRead err data) := by
  simp only [State.endLoadRead]
  split
  · exact calsKept_of_frame (by simp)
  · exact .refl s

theorem effectOf_calsKept (c : Instr) (hs : s.cu.frozen = true) : CalsKept s (effectOf c s) := by
  cases c with
  | phaseEnd l coilLo => exact (newPins_calsKept s _).trans (endPhase_calsKept _ l coilLo)
  | coilHiAssert l => exact setCoilHi_calsKept s l true
  | coilHiDeassert l => exact setCoilHi_calsKept s l false
  | tripPinChange l level => exact setTrip_calsKept s l level
  | tripDebounceComplete l => exact completeDebounce_calsKept s l
  | restartDelayExpiry l => exact autoRestart_calsKept s l
  | silenceTimerExpiry l => exact guarded_calsKept (calsKept_of_frame (by simp))
  | windowExpiry w => exact guarded_calsKept (calsKept_of_frame (by simp))
  | hostRequestTaken addr write be data => exact guarded_calsKept (calsKept_of_frame (by simp))
  | hostForwardedCompletion | capturedWrite | rdCapture | activitySummaryRead | commitLine | commitCal | commitWindows
  | commitDelivery | load | start | stop | halt | restart | clearTotal | freeze | unknownCommand | partialCommandWrite =>
    exact effectOf_completes_keeps (.refl s) (completeHost_calsKept hs) rfl
  | pageWordComplete err => exact endPageWord_calsKept s err
  | loadReadComplete err data => exact endLoadRead_calsKept s err data
  | linkWaitIdleExit l => exact guarded_calsKept (calsKept_of_frame (by simp))
  | _ => exact calsKept_of_frame (by simp [effectOf, State.advanceMs, State.advanceLines])

/-- The freeze set with no calibration pending, and the live calibrations those of `s`. -/
def frozenAs (s u : State) : Prop := frozenLaw u ∧ ∀ l : LineId, u.liveCal l = s.liveCal l

theorem frozenAs_grantLaw (s : State) : GrantLaw (frozenAs s) :=
  grantLaw_of_lines fun u v _ copies frozen ⟨⟨isFrozen, noneLeft⟩, live⟩ => by
    refine ⟨⟨by rw [frozen]; exact isFrozen, fun l => ?_⟩, fun l => ?_⟩
    · rw [State.copies, copies]; exact noneLeft l
    · rw [State.liveCal, State.copies, copies]; exact live l

/-- Settles O59: with the freeze set COMMIT_CAL is refused, and no other row makes a calibration pending or live. -/
theorem freezeLasts : Obligations.FreezeLasts := fun c s t hc hs h =>
  exec_leads (frozenAs_grantLaw s) (frozenAs_grantLaw s) (fun _ hu => hu) hc
    (fun u _ _ ⟨⟨frozen, noneBefore⟩, live⟩ => by
      obtain ⟨kept, cals⟩ := effectOf_calsKept c frozen
      obtain ⟨noneAfter, liveAfter⟩ := cals noneBefore
      exact ⟨⟨kept.trans frozen, noneAfter⟩, fun l => (liveAfter l).trans (live l)⟩)
    ⟨hs, fun _ => rfl⟩ h

end Sys2Proof.Machine
end

