-- ==== Sys2Proof/Proofs/ResetAndFront.lean ====
section
/-! PROOF of O1 and O51. The command at the front of the queue, and the laws right after reset. -/

namespace Sys2Proof.Machine

/-- Settles O1: the step is defined so. -/
theorem stepRunsFrontCommand : Obligations.StepRunsFrontCommand := fun _ _ => rfl

/-- Settles O51: reset is the release of power-on reset with no pin asserted, after which each law holds. -/
theorem resetSatisfiesLaws : Obligations.ResetSatisfiesLaws := by
  have account := (accounted_iff _).mp (powerOn_accounted Pins.reset 0 0 [])
  obtain ⟨headOfQueue, account⟩ := account
  exact ⟨attnLaw_stepLaw.powerOn _ _ _ _, powerOn_lalmLaw _ _ _ _, powerOn_attendanceLaw _ _ _ _,
    onePerPair_stepLaw.powerOn _ _ _ _, headOfQueue, account, powerOn_ringLaw _ _ _ _, legsSafe_stepLaw.powerOn _ _ _ _,
    powerOn_bounded _ _ _ _, bridgeLaw_stepLaw.powerOn _ _ _ _, powerOn_gaps _ _ _ _, armingLaw_stepLaw.powerOn _ _ _ _,
    rfl⟩

end Sys2Proof.Machine
end

