-- ==== Sys2Proof/Proofs/QueueAndResets.lean ====
section
/-! PROOF of O2 to O5. What comes before a command, the step on an empty queue, the edges of power-on reset. -/

namespace Sys2Proof.Machine

variable {s t u : State}

/-! ## No command stops the part or touches the queue (log 1) -/

theorem exec_next (c : Instr) (s : State) : ∃ t, exec c s = .next t := by
  rcases notPowerOn_or c with hc | rfl | ⟨g, v, rfl⟩
  · rcases exec_shape c s hc with ⟨p, -, e⟩ | e | ⟨-, e⟩ | ⟨-, f, -, e⟩ | ⟨-, -, e⟩
    · rw [e, State.actPins]
      split <;> exact ⟨_, rfl⟩
    all_goals exact ⟨_, e⟩
  · exact ⟨_, rfl⟩
  · exact ⟨_, rfl⟩

theorem effectOf_pending (c : Instr) (s : State) : (effectOf c s).pending = s.pending := by
  cases c with
  | hostForwardedCompletion | capturedWrite | rdCapture | activitySummaryRead | commitLine | commitCal | commitWindows
  | commitDelivery | load | start | stop | halt | restart | clearTotal | freeze | unknownCommand | partialCommandWrite =>
    exact effectOf_completes_keeps (P := fun u => u.pending = s.pending) rfl (fun _ _ => by simp) rfl
  | hostRequestTaken | silenceTimerExpiry | windowExpiry | linkWaitIdleExit =>
    exact guarded_keeps (P := fun u => u.pending = s.pending) rfl (by simp)
  | _ => simp [effectOf, State.advanceMs]

theorem exec_pending {c : Instr} (h : exec c s = .next t) : t.pending = s.pending := by
  rcases notPowerOn_or c with hc | rfl | ⟨g, v, rfl⟩
  · have law : GrantLaw fun u => u.pending = s.pending :=
      { pins := fun _ _ _ _ h => h
        marked := fun _ _ h => h
        awaited := fun _ _ h => h
        arming := fun _ _ _ h => by simpa using h
        host := fun _ _ _ _ _ h => by simpa using h
        begun := fun _ _ _ _ _ h => by simpa using h }
    exact exec_leads law law (fun _ hu => hu) hc (fun u _ _ hu => (effectOf_pending c u).trans hu) rfl h
  · cases h; rfl
  · simp only [exec, execPowerOnResetRelease] at h
    cases h
    split <;> rfl

/-! ## What took place at once before a command (R79, R130) -/

/-- A row but those of a grant and of a due arming acts as after the arming and the grant that came first. -/
theorem exec_claimed {c : Instr} (ha : awake s) (hl : flightLaw s) (hc : notPowerOn c) (hg : ¬grantRow c)
    (harm : c = .armingTakesEffect → noArmingDue s) : exec c s = exec c s.claimed := by
  have acts {v : State} (hv : awake v) (harm : c = .armingTakesEffect → noArmingDue v) :
      exec c v = v.act (effectOf c) ∨ ∃ addr write be data, c = .hostRequestTaken addr write be data := by
    rcases exec_awake c hv hc with e | ⟨e, -⟩ | ⟨e, -⟩ | ⟨due, e, -⟩
    · exact .inl e
    · exact .inr e
    · exact absurd e hg
    · exact absurd (harm e) (armingDue_not.mp due)
  rcases acts ha harm with e | ⟨addr, write, be, data, rfl⟩
  · rcases acts (claimed_awake ha) fun _ => claimed_noArmingDue s with e' | ⟨addr, write, be, data, rfl⟩
    · rw [e, e', act_claimed ha hl]
    · exact actClaim_claimed ha hl (effectOf (.hostRequestTaken addr write be data))
  · exact actClaim_claimed ha hl (effectOf (.hostRequestTaken addr write be data))

theorem actStart_armed (ha : awake s) (f : State → State) : s.actStart f = s.armed.actStart f := by
  rw [actStart_awake ha, actStart_awake (armed_awake ha), armed_rest (armed_noArmingDue s)]

/-- Settles O2: each row is an action that answers a next state, on what the arming and the grant before it left. -/
theorem everyCommandAnswersNext : Obligations.EveryCommandAnswersNext := by
  refine ⟨fun c s => ?_, fun c s ha hl hc hg harm => ?_, fun c s ha hg => ?_⟩
  · obtain ⟨t, h⟩ := exec_next c s
    exact ⟨t, h, exec_pending h⟩
  · exact ⟨s.claimed, claimed_spec s, claimed_rests hl, claimed_awake ha, exec_claimed ha hl hc hg harm⟩
  · refine ⟨s.armed, armed_spec s, armed_noArmingDue s, armed_awake ha, ?_⟩
    rcases hg with rfl | rfl | rfl | rfl | rfl | rfl <;> exact actStart_armed ha _

/-! ## The empty queue (log 2) -/

theorem step_empty (h : s.pending = []) : step s = idle s := by simp only [step, h]

theorem idle_awake (h : awake s) : idle s = match s.dueEvent with
    | some c => exec c s
    | none => if s.grantDue then .next s.arbitrate else .next s.tick := by
  simp only [idle, show s.pins.por = false from h, Bool.false_eq_true, if_false] <;> rfl

/-- Settles O3: the event due, the grant due and the tick are the three branches of the idle step. -/
theorem emptyQueueStep : Obligations.EmptyQueueStep := by
  intro s hp
  rw [step_empty hp]
  refine ⟨fun por => by simp only [idle, por, if_true], fun ha c hc => ?_, fun ha hn hg => ?_, fun ha hn hg => ?_⟩
  · rw [idle_awake ha, (dueEvent_iff s c).mpr hc]
  · rw [idle_awake ha, (dueEvent_none s).mpr hn]
    dsimp only
    rw [if_pos ((grantDue_iff s).mpr hg)]
    exact ⟨_, rfl, arbitrate_spec hg.1 rfl⟩
  · rw [idle_awake ha, (dueEvent_none s).mpr hn]
    dsimp only
    rw [if_neg fun h => hg ((grantDue_iff s).mp h)]
    refine ⟨s.tick, rfl, rfl, rfl, fun l => ?_, rfl, rfl, rfl, rfl, rfl, rfl⟩
    have line : s.tick.lines[l] = s.lines[l].tick := by simp [State.tick]
    simp only [State.ls, State.sru, State.gzu, line]
    exact ⟨rfl, rfl, rfl, rfl, rfl, rfl, rfl, rfl⟩

/-! ## Power-on reset (R27, R133) -/

/-- Settles O4: the assertion sets every block to its reset value, and under PORn a row reaches the pins alone. -/
theorem powerOnResetHoldsThePart : Obligations.PowerOnResetHoldsThePart := by
  refine ⟨fun s => ⟨_, rfl, rfl, rfl, rfl, rfl, rfl, fun l => ?_⟩, fun c s hp hc => ?_⟩
  · rw [powerOn_ls]
    refine ⟨rfl, rfl, ?_⟩
    simp [State.gzu, State.powerOn, Line.reset, Gzu.reset]
  · obtain ⟨p, hpp, e⟩ := exec_por c hp hc
    exact ⟨_, e, hpp, rfl, rfl, rfl, rfl, rfl, rfl, rfl, rfl⟩

/-! ### The blocks at PORn release (R28, R52, R74, R147, R164) -/

section
variable (p : Pins) (base : Byte) (free : Nat) (rest : List Instr)

theorem powerOn_sru (l : LineId) : (State.powerOn p base free rest).sru l = .reset := by
  simp [State.sru, State.powerOn, Line.reset]

theorem powerOn_gzu (l : LineId) : (State.powerOn p base free rest).gzu l = .reset := by
  simp [State.gzu, State.powerOn, Line.reset]

theorem powerOn_staging (l : LineId) : (State.powerOn p base free rest).staging l = .reset := by
  rw [State.staging, show (State.powerOn p base free rest).de.staging = Vector.replicate 4 .reset from rfl,
    Fin.getElem_fin, Vector.getElem_replicate]

theorem powerOn_ring (r : RingId) : (State.powerOn p base free rest).ring r = .unarmed := by
  rw [State.ring, show (State.powerOn p base free rest).de.rings = Vector.replicate 5 .unarmed from rfl,
    Fin.getElem_fin, Vector.getElem_replicate]

theorem powerOn_page (x : PageId) : (State.powerOn p base free rest).page x = { dirty := true, faulted := false } := by
  rw [State.page, show (State.powerOn p base free rest).de.pages
      = Vector.replicate 5 { dirty := true, faulted := false } from rfl, Fin.getElem_fin, Vector.getElem_replicate]

theorem powerOn_window (w : WindowId) : (State.powerOn p base free rest).window w = .reset := by
  rw [State.window, show (State.powerOn p base free rest).wu.windows = Vector.replicate 8 .reset from rfl,
    Fin.getElem_fin, Vector.getElem_replicate]

theorem powerOn_copies (l : LineId) : (State.powerOn p base free rest).copies l = .reset := by
  rw [State.copies, show (State.powerOn p base free rest).cu.lines = Vector.replicate 4 .reset from rfl,
    Fin.getElem_fin, Vector.getElem_replicate]

end

theorem replicate_get {α : Type} {n : Nat} (x : α) (k : Fin n) : (Vector.replicate n x)[k] = x := by simp

theorem emptyAcc_band (k : Fin 6) : WindowAcc.empty.bands[k] = { seen := 0, accepted := 0, rejected := 0, sum := 0 } :=
  replicate_get _ k

/-- The default threshold, patience and levels of Table 10-5. -/
theorem defaultDelivery_levels : attentionThreshold defaultDelivery = 4 ∧ patience defaultDelivery = 8
    ∧ (List.range 20).map (fun c => kindLevel defaultDelivery (c + 1))
      = [6, 3, 7, 3, 7, 5, 2, 4, 1, 4, 5, 2, 3, 4, 2, 2, 6, 7, 3, 3] := by decide +kernel

theorem exec_release {s : State} (h : s.pins.por = true) (g : Byte) (trips : BitVec 4) :
    exec (.powerOnResetRelease g trips) s = .next (State.powerOn
      { s.pins with por := false, trip := Vector.ofFn fun l : LineId => trips.getLsbD l.val } g s.free s.pending) := by
  simp only [exec, execPowerOnResetRelease, h, if_true]

/-- Settles O5: the release is the power-on state with the straps and trip pins sampled. -/
theorem powerOnReleaseSetsInitialState : Obligations.PowerOnReleaseSetsInitialState := by
  refine ⟨fun g trips s h => ⟨_, exec_release h g trips, rfl, rfl, rfl, rfl, rfl, fun l => ⟨?_, ?_, ?_⟩⟩,
    fun g trips s h => ⟨_, exec_release h g trips, ⟨?_, ?_, ?_, rfl, rfl, rfl, rfl, rfl⟩, ⟨rfl, rfl, rfl, rfl, rfl⟩,
      ⟨rfl, rfl, rfl, rfl, rfl, rfl, rfl⟩, ⟨?_, rfl, ?_⟩,
      rfl, rfl, rfl, rfl, rfl, rfl, rfl, rfl, rfl, rfl, rfl, rfl, rfl, rfl, ?_, defaultDelivery_levels⟩⟩
  · rw [powerOn_ls]
    exact ⟨rfl, rfl, rfl, rfl, rfl, rfl, rfl, rfl, rfl, rfl, rfl, rfl, rfl, by simp [Sequencer.reset], rfl⟩
  · rw [powerOn_sru]
    exact ⟨rfl, rfl, rfl, rfl, rfl, rfl, rfl, rfl, rfl, fun k => ⟨emptyAcc_band k, emptyAcc_band k⟩, rfl,
      fun k => replicate_get _ k, rfl, rfl, rfl, rfl, rfl, rfl, rfl, rfl, rfl⟩
  · rw [powerOn_gzu]
    exact ⟨rfl, fun k => replicate_get _ k, fun z => replicate_get _ z, rfl, rfl, rfl⟩
  · exact fun l => powerOn_staging _ _ _ _ l
  · exact fun r => by rw [powerOn_ring]; exact ⟨rfl, rfl, rfl⟩
  · exact fun p => powerOn_page _ _ _ _ p
  · exact fun w => powerOn_window _ _ _ _ w
  · exact fun c => replicate_get _ c
  · exact fun l => powerOn_copies _ _ _ _ l

end Sys2Proof.Machine
end

