-- ==== Sys2Proof/Proofs/WindowsAndResets.lean ====
section
/-! PROOF of O6, O7 and O19. Bus reset, the millisecond counter, the expiry of watch windows (R99, R131, R132, R168,
R171). -/

namespace Sys2Proof.Machine

variable {s t u : State}

/-! ## What an action leaves of the Delivery Engine -/

/-- Of the Delivery Engine at most dirty marks of pages differ, by its parts. -/
theorem deKept_of_parts (h : t.de.staging = s.de.staging ∧ t.de.rings = s.de.rings ∧ t.de.statusDirty = s.de.statusDirty
    ∧ t.de.fresh = s.de.fresh ∧ t.de.arming = s.de.arming ∧ t.de.flight = s.de.flight ∧ t.de.lastPage = s.de.lastPage)
    (faulted : ∀ p : PageId, t.de.pages[p.val].faulted = s.de.pages[p.val].faulted) : deKept s t := by
  obtain ⟨h1, h2, h3, h4, h5, h6, h7⟩ := h
  refine ⟨?_, faulted⟩
  rw [De.mk.injEq]
  exact ⟨h1, h2, rfl, h3, h4, h5, h6, h7⟩

/-- An action that frees no port marks changed pages and does nothing more (R130, log 26). -/
theorem act_taken (ha : awake s) (r : atRest s) (f : State → State)
    (hp : s.mp.port ≠ .free → (f s).mp.port ≠ .free) : s.act f = .next (s.markChanged (f s)) := by
  rw [act_rest ha r, State.grantFreed]
  split
  · rename_i h
    rw [arbitrate_taken (s := s.markChanged (f s)) (hp h.1)]
  · rfl

/-! ## Bus reset (R113, R131, R132) -/

theorem assertBrst_acts (h : s.pins.brst = false) : s.assertBrst =
    { s with
      pins := { s.pins with brst := true }
      mp := { s.mp with request := none, port := s.mp.port.discard, inReset := true, resetCounted := true
                        completion := none }
      nu := { s.nu with attn := false } } := by
  simp [State.assertBrst, h, State.modMp, State.modNu, State.reevalAttn]

theorem discard_free {p : Port} : p.discard = .free ↔ p = .free := by
  cases p <;> simp [Port.discard]

/-- The state of a bus reset's release before it is counted. -/
def State.released (s : State) : State :=
  ({ s with pins := { s.pins with brst := false } }.modMp fun m => { m with inReset := false }).reevalAttn

theorem releaseBrst_acts (h : s.pins.brst = true) : s.releaseBrst = s.released.countReset := by
  simp only [State.releaseBrst, h, if_true, State.released]

/-- The counted bus reset: its count, its notice, and ATTN from its terms. -/
theorem countReset_spec (hu : attnFollows u) :
    (u.mp.resetCounted = true → u.countReset.mp.resets = satInc u.mp.resets ∧ isDirty u.countReset partPage
      ∧ raisedIn u u.countReset .busReset .part 0)
    ∧ (u.mp.resetCounted = false → u.countReset = u) ∧ attnFollows u.countReset := by
  let v := (u.modMp fun m => { m with resets := satInc m.resets }).markPart
  have marked : isDirty v partPage := markPart_isDirty _
  have follows : attnFollows v := attnFollows_congr hu rfl rfl rfl rfl
  cases hc : u.mp.resetCounted with
  | true =>
    have counts : u.countReset = v.raise .busReset .part 0 := by simp only [State.countReset, hc, if_true, v]
    rw [counts]
    refine ⟨fun _ => ⟨by simp [v], ?_, raise_records v .busReset .part 0⟩, fun x => (by cases x), raise_follows _ _ _ follows⟩
    simpa [isDirty, State.page] using marked
  | false =>
    have same : u.countReset = u := by simp only [State.countReset, hc, Bool.false_eq_true, if_false]
    exact ⟨fun x => (by cases x), fun _ => same, by rw [same]; exact hu⟩

/-- Settles O6: the assertion rewrites pins, path and ATTN; the release re-evaluates ATTN and counts the reset. -/
theorem busResetActs : Obligations.BusResetActs := by
  refine ⟨fun s ha r h => ?_, fun s ha r h => ?_⟩
  · have acts := assertBrst_acts h
    refine ⟨_, (actPins_awake ha _ _).trans (act_taken ha r _ fun hp => ?_), ?_⟩
    · rw [acts]
      exact fun e => hp (discard_free.mp e)
    · rw [acts]
      exact ⟨rfl, rfl, rfl, rfl, rfl, rfl, rfl, fun k a e => congrArg Port.discard e, fun k a e => congrArg Port.discard e,
        fun e => congrArg Port.discard e, rfl, rfl, rfl, rfl, deKept_markChanged rfl, rfl⟩
  · have acts := releaseBrst_acts h
    obtain ⟨counted, notCounted, follows⟩ := countReset_spec (u := s.released) (reevalAttn_follows _)
    have frame (v : State) : v.countReset.pins = v.pins ∧ v.countReset.mp.inReset = v.mp.inReset
        ∧ v.countReset.mp.request = v.mp.request ∧ v.countReset.mp.port = v.mp.port ∧ v.countReset.mp.passed = v.mp.passed
        ∧ v.countReset.lines = v.lines ∧ v.countReset.cu = v.cu ∧ v.countReset.wu = v.wu
        ∧ v.countReset.clock = v.clock := by
      simp only [State.countReset]
      split <;> simp
    obtain ⟨pins, inReset, request, port, passed, lines, cu, wu, clock⟩ := frame s.released
    have de : deKept s s.released.countReset := by
      simp only [State.countReset]
      split
      · exact deKept_trans (deKept_markPage partPage (deKept_eq rfl)) (by simp; rfl)
      · exact deKept_eq rfl
    generalize hv : s.released.countReset = v at *
    refine ⟨_, (actPins_awake ha _ _).trans (act_kept ha r _ (by rw [acts, port]; rfl)), ?_⟩
    rw [acts]
    refine ⟨pins, inReset, request, port, passed, fun hc => ?_, fun hc => ?_, ?_, lines, cu, wu, deKept_of de, clock⟩
    · obtain ⟨resets, dirty, raised⟩ := counted hc
      exact ⟨resets, markChanged_isDirty dirty, raised⟩
    · have same : v = s.released := notCounted hc
      rw [same]
      exact ⟨rfl, rfl⟩
    · have brst : v.pins.brst = false := by rw [pins]; rfl
      have attn : v.nu.attn = v.attnTerms := by simpa [attnFollows, brst] using follows
      exact attn

/-! ## Windows expire (R168) -/

theorem expireWindow_window (s : State) (w v : WindowId) :
    (s.expireWindow w).window v = if v = w then { s.window v with state := .expired, timer := none } else s.window v := by
  have raised (t : State) (k : Kind) (src : Source) (d : Nat) : (t.raise k src d).window v = t.window v := by
    simp [State.window]
  rw [State.expireWindow, raised]
  split
  · rename_i h
    rw [h, modWindow_window]
  · rename_i h
    rw [modWindow_other _ _ _ _ h]

/-- The expiry of several windows, before the attendance is re-derived. -/
def State.expired (s : State) (ws : List WindowId) : State := ws.foldl (fun t w => t.expireWindow w) s

@[simp] theorem expired_frame (s : State) (ws : List WindowId) :
    (s.expired ws).lines = s.lines ∧ (s.expired ws).cu = s.cu ∧ (s.expired ws).de = s.de ∧ (s.expired ws).mp = s.mp
      ∧ (s.expired ws).wu.attendance = s.wu.attendance ∧ (s.expired ws).wu.base = s.wu.base
      ∧ (s.expired ws).wu.ownedHits = s.wu.ownedHits ∧ (s.expired ws).nu.ms = s.nu.ms
      ∧ (s.expired ws).pins = s.pins ∧ (s.expired ws).clock = s.clock := by
  induction ws generalizing s with
  | nil => exact ⟨rfl, rfl, rfl, rfl, rfl, rfl, rfl, rfl, rfl, rfl⟩
  | cons w ws ih =>
    have base : (s.expireWindow w).wu.base = s.wu.base := by simp [State.expireWindow]
    simpa [State.expired, base] using ih (s.expireWindow w)

theorem expired_window {ws : List WindowId} (hn : ws.Nodup) (s : State) (v : WindowId) :
    (s.expired ws).window v = if v ∈ ws then { s.window v with state := .expired, timer := none } else s.window v := by
  induction ws generalizing s with
  | nil => rfl
  | cons w ws ih =>
    obtain ⟨fresh, hn⟩ := List.nodup_cons.mp hn
    rw [show s.expired (w :: ws) = (s.expireWindow w).expired ws from rfl, ih hn, expireWindow_window]
    by_cases h : v = w
    · subst h; simp [fresh]
    · simp [h]

/-- Other notices than WINDOW_EXPIRED are not raised. -/
theorem expired_notRaised (s : State) (ws : List WindowId) {k : Kind} (hk : k ≠ .windowExpired) :
    notRaised s (s.expired ws) k := by
  induction ws generalizing s with
  | nil => exact notRaised_refl s k
  | cons w ws ih =>
    have first : notRaised s (s.expireWindow w) k :=
      notRaised_trans (notRaised_of rfl rfl) (raise_notRaised _ _ k _ _ (Ne.symm hk))
    exact notRaised_trans first (ih _)

/-- Of several windows the last is told of last. -/
theorem expired_records {ws : List WindowId} (sorted : ws.Pairwise (· < ·)) {w : WindowId} (hw : w ∈ ws)
    (last : ∀ v ∈ ws, ¬w < v) (s : State) (hl : s.levelOf .windowExpired ≠ 0) :
    records (s.expired ws).nu .windowExpired .part (BitVec.ofNat 16 w.val) s.nu.ms := by
  induction ws generalizing s with
  | nil => cases hw
  | cons x ws ih =>
    obtain ⟨below, sorted⟩ := List.pairwise_cons.mp sorted
    have level : (s.expireWindow x).levelOf .windowExpired = s.levelOf .windowExpired := by
      simp [State.levelOf, State.liveDelivery]
    have ms : (s.expireWindow x).nu.ms = s.nu.ms := by simp
    rcases List.mem_cons.mp hw with rfl | hw
    · cases ws with
      | nil => exact raise_records (s.modWindow w _) .windowExpired .part w.val hl
      | cons y ws => exact absurd (below y (List.mem_cons_self ..)) (last y (List.mem_cons_of_mem _ (List.mem_cons_self ..)))
    · have told := ih sorted hw (fun v hv => last v (List.mem_cons_of_mem _ hv)) (s.expireWindow x) (by rw [level]; exact hl)
      rw [ms] at told
      exact told

theorem expireAll_eq (s : State) (ws : List WindowId) : s.expireAll ws = (s.expired ws).rederiveAttendance
    (lowestWindow (ws.filter fun w => (s.windowDef w).enable && (s.windowDef w).unattendedAction)) := rfl

theorem rederiveAttendance_notRaised (s : State) (d : Nat) {k : Kind} (hu : k ≠ .unattended) (ha : k ≠ .attended) :
    notRaised s (s.rederiveAttendance d) k := by
  have told (a : Attendance) (x : Kind) (hx : x ≠ k) : notRaised s
      (((s.modWu fun u => { u with attendance := a }).raise x .part d).reportAttendanceAll).markPart k :=
    notRaised_trans (raise_notRaised (s.modWu fun u => { u with attendance := a }) x k .part d hx)
      (notRaised_of (by simp) (by simp))
  simp only [State.rederiveAttendance]
  split
  · exact told _ _ (Ne.symm hu)
  · exact told _ _ (Ne.symm ha)
  · exact notRaised_refl s k
  · exact notRaised_refl s k

theorem rederiveAttendance_kept (s : State) (d : Nat) :
    (s.rederiveAttendance d).wu.base = s.wu.base ∧ (s.rederiveAttendance d).mp = s.mp
      ∧ (s.rederiveAttendance d).clock = s.clock ∧ (s.rederiveAttendance d).nu.ms = s.nu.ms
      ∧ (∀ l : LineId, (s.rederiveAttendance d).ls l = s.ls l ∧ (s.rederiveAttendance d).sru l = s.sru l)
      ∧ deKept s (s.rederiveAttendance d) := by
  refine ⟨?_, by simp, by simp, by simp, fun l => ⟨by simp [State.ls], by simp [State.sru]⟩,
    deKept_of_parts (by simp) (by simp)⟩
  simp only [State.rederiveAttendance]
  split <;> simp

/-- What the expiry of windows in ascending order does (R168, R171, R172). -/
structure Expires (ws : List WindowId) (s t : State) : Prop where
  windows : ∀ v : WindowId,
    t.window v = if v ∈ ws then { s.window v with state := .expired, timer := none } else s.window v
  told : ∀ w ∈ ws, (∀ v ∈ ws, ¬w < v) → raisedIn s t .windowExpired .part (BitVec.ofNat 16 w.val)
  follows : attendanceFollows s t
  unattended : s.wu.attendance = .attended → t.wu.attendance = .unattended →
    raisedIn s t .unattended .part (BitVec.ofNat 16
      (lowestWindow (ws.filter fun w => (s.windowDef w).enable && (s.windowDef w).unattendedAction)))
  quiet : ws = [] → t.wu.attendance = s.wu.attendance → t = s
  wu : t.wu = { s.wu with windows := t.wu.windows, attendance := t.wu.attendance }
  rest : t.cu = s.cu ∧ t.mp = s.mp ∧ t.clock = s.clock ∧ t.nu.ms = s.nu.ms
  lines : ∀ l : LineId, t.ls l = s.ls l ∧ t.sru l = s.sru l
  de : deKept s t

theorem expireAll_expires (s : State) {ws : List WindowId} (sorted : ws.Pairwise (· < ·)) :
    Expires ws s (s.expireAll ws) := by
  rw [expireAll_eq]
  generalize hd : lowestWindow _ = d
  obtain ⟨lines, cu, de, mp, attendance, base, ownedHits, ms, -, clock⟩ := expired_frame s ws
  have windows := expired_window (sorted.imp Fin.ne_of_lt) s
  obtain ⟨base', mp', clock', ms', lines', de'⟩ := rederiveAttendance_kept (s.expired ws) d
  obtain ⟨follows, sameWindows, sameHits, cu', unattended, -, same⟩ :=
    rederiveAttendance_spec (s := s.expired ws) (d := d) rfl
  have level (k : Kind) : (s.expired ws).levelOf k = s.levelOf k := by simp [State.levelOf, State.liveDelivery]
  have quietNotices (k : Kind) (hk : k ≠ .windowExpired) := expired_notRaised s ws hk
  have told : ∀ w ∈ ws, (∀ v ∈ ws, ¬w < v) → s.levelOf .windowExpired ≠ 0 →
      records (s.expired ws).nu .windowExpired .part (BitVec.ofNat 16 w.val) s.nu.ms :=
    fun w hw last hl => expired_records sorted hw last s hl
  have kept : ∀ {x : Half}, records (s.expired ws).nu .windowExpired .part x s.nu.ms →
      records ((s.expired ws).rederiveAttendance d).nu .windowExpired .part x s.nu.ms :=
    fun h => records_of_notRaised (rederiveAttendance_notRaised _ d (by decide) (by decide)) h
  have noneExpired : ws = [] → s.expired ws = s := fun h => by rw [h]; rfl
  generalize s.expired ws = u at *
  generalize u.rederiveAttendance d = t at *
  refine ⟨fun v => ?_, fun w hw last hl => kept (told w hw last hl), ?_, fun h h' hl => ?_, fun h h' => ?_, ?_,
    ⟨cu'.trans cu, mp'.trans mp, clock'.trans clock, ms'.trans ms⟩, fun l => ?_, ?_⟩
  · rw [← windows v, State.window, sameWindows, State.window]
  · obtain ⟨derived, changed, unchanged⟩ := follows
    rw [attendance] at changed unchanged
    refine ⟨derived, changed, fun h => ?_⟩
    obtain ⟨noUnattended, noAttended, gzu⟩ := unchanged h
    exact ⟨notRaised_trans (quietNotices _ (by decide)) noUnattended,
      notRaised_trans (quietNotices _ (by decide)) noAttended, fun l => by rw [gzu l, State.gzu, lines, State.gzu]⟩
  · have raised := unattended (attendance.trans h) h' (by rw [level]; exact hl)
    rw [ms, ← hd] at raised
    exact raised
  · rw [← noneExpired h]
    exact same (h'.trans attendance.symm)
  · rw [Wu.mk.injEq]
    exact ⟨rfl, rfl, sameHits.trans ownedHits, base'.trans base⟩
  · obtain ⟨ls, sru⟩ := lines' l
    exact ⟨by rw [ls, State.ls, lines, State.ls], by rw [sru, State.sru, lines, State.sru]⟩
  · obtain ⟨de1, de2⟩ := de'
    rw [de] at de1
    exact ⟨de1, fun p => (de2 p).trans (by rw [State.page, de, State.page])⟩

theorem attendanceFollows_markChanged (h : attendanceFollows s t) : attendanceFollows s (s.markChanged t) := by
  obtain ⟨derived, changed, unchanged⟩ := h
  exact ⟨derived, fun x => ⟨markChanged_isDirty (changed x).1, (changed x).2⟩, unchanged⟩

/-- Settles O19: the window expires by itself, and the attendance is re-derived. -/
theorem windowExpiryActs : Obligations.WindowExpiryActs := by
  intro w s ha r timer law
  have acts : effectOf (.windowExpiry w) s = s.expireAll [w] := if_pos timer
  have e := expireAll_expires s (ws := [w]) (List.pairwise_singleton _ _)
  generalize hv : s.expireAll [w] = v at *
  obtain ⟨cu, mp, -, -⟩ := e.rest
  have here : v.window w = { s.window w with state := .expired, timer := none } := by simpa using e.windows w
  refine ⟨_, act_kept ha r (effectOf (.windowExpiry w)) (by rw [acts, mp]), ?_⟩
  rw [acts]
  refine ⟨here, fun x hx => by simpa [hx] using e.windows x, fun enable action => ?_, attendanceFollows_markChanged e.follows,
    e.told w (by simp) (by simp), e.lines, cu, mp, deKept_of e.de, e.wu⟩
  have sameDef : v.windowDef w = s.windowDef w := by simp only [State.windowDef, cu]
  have holds : holdsPart v w := ⟨by rw [sameDef]; exact enable, by rw [sameDef]; exact action, by rw [here]⟩
  obtain ⟨derived, changed, unchanged⟩ := e.follows
  have unattended : v.wu.attendance = .unattended := derived.mpr ⟨w, holds⟩
  refine ⟨unattended, fun l => ?_, fun was => ?_⟩
  · by_cases same : v.wu.attendance = s.wu.attendance
    · have copy : (v.gzu l).attCopy = s.wu.attendance := by
        rw [(unchanged same).2.2 l]; exact lalmLaw_attCopy law l
      exact copy.trans (same.symm.trans unattended)
    · exact ((changed same).2 l).trans unattended
  · have raised : raisedIn s v .unattended .part (BitVec.ofNat 16 w.val) := by
      simpa [lowestWindow, enable, action] using e.unattended was unattended
    exact raised

/-! ## The millisecond counter (R99, R168) -/

theorem lastMs_iff (s : State) (w : WindowId) : (s.window w).lastMs = true ↔ lastMillisecond s w := by
  simp only [Window.lastMs, lastMillisecond]
  cases (s.window w).timer <;> simp

/-- The state in which the windows then expire: the counter, the lines and the window timers have moved by one. -/
def State.counted (s : State) : State :=
  (({ s with clock := { s.clock with sinceMs := 0 } }.modNu fun n => { n with ms := n.ms + 1 }).advanceLines).modWu
    fun u => { u with windows := u.windows.map Window.countDown }

/-- The windows whose timer reaches 0. -/
def State.dueWindows (s : State) : List WindowId := (List.finRange 8).filter fun w => (s.window w).lastMs

theorem advanceMs_eq (s : State) : s.advanceMs = s.counted.expireAll s.dueWindows := rfl

theorem mem_dueWindows {s : State} {w : WindowId} : w ∈ s.dueWindows ↔ lastMillisecond s w := by
  simp [State.dueWindows, lastMs_iff]

theorem dueWindows_sorted (s : State) : s.dueWindows.Pairwise (· < ·) := (List.pairwise_lt_finRange 8).filter _

theorem counted_window (s : State) (w : WindowId) :
    s.counted.window w = { s.window w with timer := (s.window w).timer.map (· - 1) } := by
  simp [State.counted, State.window, State.modWu, Window.countDown, State.advanceLines, State.modNu]

theorem counted_lines (s : State) (l : LineId) :
    s.counted.ls l = (s.ls l).advanceMs ∧ s.counted.sru l = s.sru l ∧ s.counted.gzu l = s.gzu l := by
  have line : s.counted.lines[l] = { ls := (s.ls l).advanceMs, sru := s.sru l, gzu := s.gzu l } := by
    simp [State.counted, State.advanceLines, State.modWu, State.modNu, State.ls, State.sru, State.gzu]
  refine ⟨?_, ?_, ?_⟩
  · rw [State.ls, line]
  · rw [State.sru, line]
  · rw [State.gzu, line]

/-- Settles O7: the counter and the timers move by one, and the windows whose timer has run out expire. -/
theorem millisecondAdvances : Obligations.MillisecondAdvances := by
  intro s ha r
  have e := expireAll_expires s.counted (dueWindows_sorted s)
  have acts : effectOf .millisecondAdvance s = s.counted.expireAll s.dueWindows := rfl
  generalize hv : s.counted.expireAll s.dueWindows = v at *
  obtain ⟨cu, mp, clock, ms⟩ := e.rest
  refine ⟨_, act_kept ha r (effectOf .millisecondAdvance) (by rw [acts, mp]; rfl), ?_⟩
  rw [acts]
  refine ⟨ms, clock, fun l => ?_, fun w => ⟨fun h => ?_, fun h => ?_⟩, fun w h last hl => ?_, ?_, fun w was h lowest hl => ?_,
    fun none same => ?_, ?_, cu, mp, ?_⟩
  · obtain ⟨ls, sru⟩ := e.lines l
    obtain ⟨ls', sru', -⟩ := counted_lines s l
    exact ⟨ls.trans ls', sru.trans sru'⟩
  · refine (e.windows w).trans ?_
    rw [if_pos (mem_dueWindows.mpr h), counted_window]
  · refine (e.windows w).trans ?_
    rw [if_neg fun m => h (mem_dueWindows.mp m), counted_window]
  · exact e.told w (mem_dueWindows.mpr h) (fun v hv below => last v below (mem_dueWindows.mp hv)) hl
  · obtain ⟨derived, changed, unchanged⟩ := e.follows
    refine ⟨derived, fun h => ?_, fun h => ?_⟩
    · obtain ⟨dirty, copies⟩ := changed h
      exact ⟨markChanged_isDirty dirty, copies⟩
    · obtain ⟨noUnattended, noAttended, gzu⟩ := unchanged h
      exact ⟨noUnattended, noAttended, fun l => (gzu l).trans (counted_lines s l).2.2⟩
  · obtain ⟨due, enable, action⟩ := h
    have sameDef (x : WindowId) : v.windowDef x = s.windowDef x := by
      simp only [State.windowDef, cu]
      rfl
    have expired : (v.window w).state = .expired := by rw [e.windows w, if_pos (mem_dueWindows.mpr due)]
    have unattended : v.wu.attendance = .unattended :=
      e.follows.1.mpr ⟨w, by rw [sameDef]; exact enable, by rw [sameDef]; exact action, expired⟩
    have first : lowestWindow (s.dueWindows.filter fun x => (s.windowDef x).enable && (s.windowDef x).unattendedAction)
        = w.val := by
      rw [State.dueWindows, List.filter_filter]
      refine lowestWindow_filter ?_ fun x below hx => lowest x below ?_
      · simp [enable, action, (lastMs_iff s w).mpr due]
      · simpa [expiresUnattended, lastMs_iff, and_comm, and_assoc, and_left_comm] using hx
    have raised := e.unattended was unattended
    rw [show s.counted.windowDef = s.windowDef from rfl, first] at raised
    exact raised hl
  · have noneDue : s.dueWindows = [] := List.eq_nil_iff_forall_not_mem.mpr fun w hw => none w (mem_dueWindows.mp hw)
    have still := e.quiet noneDue same
    rw [still]
    rfl
  · exact e.wu
  · exact deKept_of e.de

end Sys2Proof.Machine
end

