-- ==== Sys2Proof/Proofs/LineRows.lean ====
section
/-! PROOF. The rows of a line that move its sequencer or its receiver (spec/01 R3, R5, R14, R18; spec/02 R29, R33). -/

namespace Sys2Proof.Machine
open Sys2Proof

variable {s t : State} {l : LineId}

/-! ## Updates of one line -/

theorem otherLinesKept_modLine (s : State) (l : LineId) (f : Line → Line) : otherLinesKept l s (s.modLine l f) :=
  fun k h => modLine_other s l k f h

theorem otherLinesKept_trans {u : State} (h : otherLinesKept l s t) (h' : otherLinesKept l t u) : otherLinesKept l s u :=
  fun k hk => (h' k hk).trans (h k hk)

/-- `t` is `s` with at most line `l` changed. -/
structure LineOnly (l : LineId) (s t : State) : Prop where
  others : otherLinesKept l s t
  cu : t.cu = s.cu
  de : t.de = s.de
  nu : t.nu = s.nu
  mp : t.mp = s.mp
  wu : t.wu = s.wu
  outside : outsideKept s t

theorem lineOnly_modLine (l : LineId) (s : State) (f : Line → Line) : LineOnly l s (s.modLine l f) :=
  ⟨otherLinesKept_modLine s l f, rfl, rfl, rfl, rfl, rfl, rfl, rfl, rfl, rfl⟩

theorem lineOnly_trans {u : State} (h : LineOnly l s t) (h' : LineOnly l t u) : LineOnly l s u :=
  ⟨otherLinesKept_trans h.others h'.others, h'.cu.trans h.cu, h'.de.trans h.de, h'.nu.trans h.nu, h'.mp.trans h.mp,
    h'.wu.trans h.wu, h'.outside.1.trans h.outside.1, h'.outside.2.1.trans h.outside.2.1,
    h'.outside.2.2.1.trans h.outside.2.2.1, h'.outside.2.2.2.trans h.outside.2.2.2⟩

/-! ## Phases (R3, R5) -/

/-- What the end of a phase, but of N_WINDOW, does to the SRU (R35, R38). -/
def sruAtEnd (priming : Bool) (u : Sru) : Phase → Sru
  | .pSettle => u.openP priming
  | .pWindow => u.closeP
  | .nSettle => u.openN priming
  | .leadGap | .midGap | .nWindow => u

/-- The state in which a phase then ends: the level of COIL_LOn is recorded (log 14). -/
def State.coilLoSeen (s : State) (l : LineId) (level : Bool) : State := { s with pins := s.pins.withCoilLo l level }

theorem effectOf_phaseEnd (l : LineId) (coilLo : Bool) (s : State) :
    effectOf (.phaseEnd l coilLo) s = (s.coilLoSeen l coilLo).endPhase l coilLo := rfl

/-- A phase that another follows ends, and no OPEN_COIL acts: the line alone changes. -/
theorem endPhase_enters {p q : Phase} {coilLo : Bool} (hp : (s.ls l).phase = some p) (hq : phaseAfter p = some q)
    (no : ¬(isSettle p ∧ coilLo = true ∧ openCoilEnable (s.liveLine l) = true)) :
    LineOnly l s (s.endPhase l coilLo) ∧ (s.endPhase l coilLo).ls l = (s.ls l).enterPhase q
      ∧ (s.endPhase l coilLo).sru l = sruAtEnd ((s.ls l).state == .priming) (s.sru l) p
      ∧ (s.endPhase l coilLo).gzu l = s.gzu l := by
  have one (f : Line → Line) := lineOnly_modLine l s f
  have two (f g : Line → Line) := lineOnly_trans (one f) (lineOnly_modLine l (s.modLine l f) g)
  cases p with
  | leadGap | midGap =>
    cases hq
    simp only [State.endPhase, hp]
    exact ⟨one _, by simp, by simp [sruAtEnd], by simp⟩
  | pSettle | nSettle =>
    cases hq
    have quiet : s.openCoilActs l coilLo = false := by
      simpa [isSettle, State.openCoilActs] using no
    simp only [State.endPhase, hp, quiet]
    exact ⟨two _ _, by simp, by simp [sruAtEnd], by simp⟩
  | pWindow =>
    cases hq
    simp only [State.endPhase, hp]
    exact ⟨two _ _, by simp, by simp [sruAtEnd], by simp⟩
  | nWindow => cases hq

/-- Settles O8, by the table of the phases and what each end does to the SRU. -/
theorem phaseEndEntersNextPhase : Obligations.PhaseEndEntersNextPhase := by
  intro l coilLo s p q ha r hp hq no
  obtain ⟨only, ls, sru, gzu⟩ := endPhase_enters (s := s.coilLoSeen l coilLo) hp hq no
  have answer := act_kept ha r (effectOf (.phaseEnd l coilLo)) (congrArg Mp.port only.mp)
  rw [effectOf_phaseEnd] at answer
  generalize (s.coilLoSeen l coilLo).endPhase l coilLo = v at *
  refine ⟨_, answer, by simp only [markChanged_ls, ls]; rfl, ?_, ?_, ?_, ?_, ?_, ?_, ?_, gzu, only.others, only.cu,
    deKept_markChanged only.de, only.nu, only.mp, only.wu⟩
  all_goals simp only [markChanged_ls, markChanged_sru, ls, sru]
  · rintro (rfl | rfl) <;> rfl
  · rintro (rfl | rfl) <;> rfl
  · rintro (rfl | rfl) <;> rfl
  · rintro rfl
    cases p <;> cases hq
    exact ⟨rfl, rfl, fun k => by simp [sruAtEnd, Sru.openP, WindowAcc.empty, Accum.empty]⟩
  · rintro rfl
    cases p <;> cases hq
    exact ⟨rfl, rfl, fun k => by simp [sruAtEnd, Sru.openN, WindowAcc.empty, Accum.empty]⟩
  · rintro (rfl | rfl) <;> cases p <;> cases hq <;> rfl
  · rintro rfl
    cases p <;> cases hq
    refine ⟨?_, fun c hc => ⟨halfResults c (s.sru l).accP, ?_, fun k => ?_⟩⟩
    · simp only [sruAtEnd, Sru.closeP]
      split <;> rfl
    · have params : ((s.coilLoSeen l coilLo).sru l).params = some c := hc
      simp only [sruAtEnd, Sru.closeP, params]
      rfl
    · simp [halfResults]

/-! ## Shutdown entry (R16) -/

theorem shutdownEntry_others (s : State) (l : LineId) (c : Cause) : otherLinesKept l s (s.shutdownEntry l c) := by
  obtain ⟨-, -, -, -, -, -, -, -, -, -, -, -, -, -, -, others, -⟩ := shutdownEntry_parts s l c
  exact others

theorem deKeptButStatus_markChanged (h : deKeptButStatus s t) (b : State) : deKeptButStatus s (b.markChanged t) := by
  obtain ⟨de, faulted⟩ := h
  refine ⟨?_, fun p => ?_⟩
  · simp only [State.markChanged]
    rw [de]
  · rw [markChanged_page]
    exact faulted p

theorem hasShutDown_markChanged {c : Cause} (h : hasShutDown s t l c) (b : State) : hasShutDown s (b.markChanged t) l c := by
  obtain ⟨shut, sru, gzu, zones, de⟩ := h
  exact ⟨shut, sru, gzu, zones, deKeptButStatus_markChanged de b⟩

/-- Settles O9: the sample of COIL_LO at the end of a settle phase is a shutdown entry. -/
theorem openCoilShutsLineDown : Obligations.OpenCoilShutsLineDown := by
  intro l s p ha r hp settle enable
  have acts : effectOf (.phaseEnd l true) s = (s.coilLoSeen l true).shutdownEntry l .openCoil := by
    have phase : ((s.coilLoSeen l true).ls l).phase = some p := hp
    have live : openCoilEnable ((s.coilLoSeen l true).liveLine l) = true := enable
    rw [effectOf_phaseEnd]
    rcases settle with rfl | rfl <;> simp [State.endPhase, phase, State.openCoilActs, live]
  have others := shutdownEntry_others (s.coilLoSeen l true) l .openCoil
  have port : ((s.coilLoSeen l true).shutdownEntry l .openCoil).mp = s.mp := by simp; rfl
  have wu : ((s.coilLoSeen l true).shutdownEntry l .openCoil).wu = s.wu := by simp; rfl
  obtain ⟨shut, record, trip, -⟩ := shutdownEntry_spec (rfl : (s.coilLoSeen l true).shutdownEntry l .openCoil = _)
  have answer := act_kept ha r (effectOf (.phaseEnd l true)) (by rw [acts, port])
  rw [acts] at answer
  generalize (s.coilLoSeen l true).shutdownEntry l .openCoil = v at *
  exact ⟨_, answer, hasShutDown_markChanged shut s, trip, record, others, port, wu⟩

/-- Settles O13: at the end of the hold the switches take the live shutdown state. -/
theorem holdEndClampsBridge : Obligations.HoldEndClampsBridge := by
  intro l s ha r shut hold
  have acts : s.endHold l = s.modLs l fun q =>
      { q with stage := .clamped, holdTicks := 0, bridge := clampBridge (shutdownStateCode (s.liveLine l)) } :=
    if_pos ⟨shut, hold⟩
  have only : LineOnly l s (s.endHold l) := by rw [acts]; exact lineOnly_modLine l s _
  have ls : (s.endHold l).ls l = { s.ls l with
      stage := .clamped, holdTicks := 0, bridge := clampBridge (shutdownStateCode (s.liveLine l)) } := by simp [acts]
  have sru : (s.endHold l).sru l = s.sru l := by simp [acts]
  have gzu : (s.endHold l).gzu l = s.gzu l := by simp [acts]
  have answer : exec (.shutdownHoldEnd l) s = _ := act_kept ha r (·.endHold l) (by rw [only.mp])
  generalize s.endHold l = v at *
  refine ⟨_, answer, by simp only [markChanged_ls, ls], ?_, ?_, ?_, sru, gzu, only.others, only.cu,
    deKept_markChanged only.de, only.nu, only.mp, only.wu, only.outside⟩
  all_goals
    simp only [markChanged_ls, ls]
    intro code
  · simp [clampBridge, code, Bridge.allOff]
  · simp [clampBridge, code]
  · simp [clampBridge, code]

/-! ## SHUTDOWN: the causes present and the restart delay (R13, R17, R20) -/

theorem causes_isEmpty_iff (c : Causes) : c.isEmpty = true ↔ c = { coilHi := false, trip := false, software := false } := by
  obtain ⟨coilHi, trip, software⟩ := c
  simp [Causes.isEmpty, and_assoc]

/-- The restart delay timer as its conditions give it for a line in SHUTDOWN with these causes present (R20). -/
def timerWith (s : State) (l : LineId) (c : Causes) : Option Nat :=
  if restartAuto (s.liveLine l) = true ∧ (s.ls l).lockout = false ∧ c = { coilHi := false, trip := false, software := false }
  then some ((s.ls l).restartTimer.getD (restartDelayMs (s.liveLine l))) else none

theorem timerWith_present {c : Causes} (h : c ≠ { coilHi := false, trip := false, software := false }) :
    timerWith s l c = none := if_neg fun ⟨_, _, e⟩ => h e

/-- The conditions with COIL_HI absent, one cause at a time. -/
theorem timerWith_coilHi_absent {c : Causes} (h : c.coilHi = false) : timerWith s l c =
    if restartAuto (s.liveLine l) = true ∧ (s.ls l).lockout = false ∧ c.trip = false ∧ c.software = false
    then some ((s.ls l).restartTimer.getD (restartDelayMs (s.liveLine l))) else none := by
  obtain ⟨coilHi, trip, software⟩ := c
  obtain rfl : coilHi = false := h
  simp [timerWith]

/-- In SHUTDOWN the causes change and the timer is examined again: the sequencer alone changes. -/
theorem causesChange {s : State} {l : LineId} {c : Causes} (h : (s.ls l).state = .shutdown) :
    let v := (s.modLs l fun q => { q with causes := c }).reexamTimer l
    LineOnly l s v ∧ v.ls l = { s.ls l with causes := c, restartTimer := timerWith s l c } ∧ v.sru l = s.sru l
      ∧ v.gzu l = s.gzu l := by
  intro v
  refine ⟨lineOnly_trans (lineOnly_modLine l s _) (lineOnly_modLine l _ _), ?_, by simp [v, State.reexamTimer],
    by simp [v, State.reexamTimer]⟩
  have conditions : (s.modLs l fun q => { q with causes := c }).restartConditions l = true
      ↔ restartAuto (s.liveLine l) = true ∧ (s.ls l).lockout = false ∧ c = { coilHi := false, trip := false, software := false } := by
    simp [State.restartConditions, h, ← causes_isEmpty_iff, and_assoc, State.liveLine, State.copies]
  simp only [v, State.reexamTimer, modLs_ls, conditions]
  rfl

/-! ## COIL_HI (R13, R17) -/

/-- COIL_HIn has this level. -/
def State.coilHiSeen (s : State) (l : LineId) (level : Bool) : State :=
  { s with pins := { s.pins with coilHi := modAt s.pins.coilHi l fun _ => level } }

theorem coilHiSeen_pin (s : State) (l : LineId) (level : Bool) : (s.coilHiSeen l level).pins.coilHi[l] = level := by
  simp [State.coilHiSeen]

theorem coilHiSeen_holds (s : State) (l : LineId) (level : Bool) :
    (s.coilHiSeen l level).coilHiHolds l = (coilHiEnable (s.liveLine l) && level) := by
  simp only [State.coilHiHolds, coilHiSeen_pin]
  rfl

theorem setCoilHi_edge {level : Bool} (h : s.pins.coilHi[l] ≠ level) :
    s.setCoilHi l level = (s.coilHiSeen l level).coilHiChanged l := if_neg h

theorem coilHiChanged_shutdown (h : (s.ls l).state = .shutdown) : s.coilHiChanged l =
    (s.modLs l fun q => { q with causes := { (s.ls l).causes with coilHi := s.coilHiHolds l } }).reexamTimer l := by
  rw [State.coilHiChanged, if_pos h]
  rfl

theorem coilHiChanged_driven (h : (s.ls l).state.driven = true) : s.coilHiChanged l =
    if s.coilHiHolds l = true then s.shutdownEntry l .coilHi else s := by
  have notShut : (s.ls l).state ≠ .shutdown := fun e => by rw [e] at h; cases h
  rw [State.coilHiChanged, if_neg notShut]
  simp [h]

theorem coilHiChanged_off (h : (s.ls l).state = .off) : s.coilHiChanged l = s := by
  simp [State.coilHiChanged, h, LineState.driven]

theorem not_notShutdown (h : (s.ls l).state.driven = true) : (s.ls l).state ≠ .shutdown := fun e => by
  rw [e] at h
  cases h

/-- An edge of COIL_HI in SHUTDOWN: the cause follows the pin where its enable is set, and the timer is examined. -/
theorem coilHi_shutdown {level : Bool} (shut : (s.ls l).state = .shutdown) (edge : s.pins.coilHi[l] ≠ level) :
    let v := s.setCoilHi l level
    let c : Causes := { (s.ls l).causes with coilHi := coilHiEnable (s.liveLine l) && level }
    LineOnly l (s.coilHiSeen l level) v ∧ v.ls l = { s.ls l with causes := c, restartTimer := timerWith s l c }
      ∧ v.sru l = s.sru l ∧ v.gzu l = s.gzu l := by
  have acts : s.setCoilHi l level = _ :=
    (setCoilHi_edge edge).trans (coilHiChanged_shutdown (s := s.coilHiSeen l level) shut)
  rw [acts, coilHiSeen_holds]
  exact causesChange (s := s.coilHiSeen l level) shut

/-- Settles O14, by the state of the line and the enable of the source. -/
theorem coilHiEdgesAct : Obligations.CoilHiEdgesAct := by
  refine ⟨fun l s ha r low => ?_, fun l s ha r high => ?_⟩
  · have edge : s.pins.coilHi[l] ≠ true := by simp [low]
    have answer (v : State) (acts : s.setCoilHi l true = v) (mp : v.mp = s.mp) :
        exec (.coilHiAssert l) s = .next (s.markChanged v) := by
      subst acts
      exact actPins_kept ha r _ (·.setCoilHi l true) (congrArg Mp.port mp)
    have pin := coilHiSeen_pin s l true
    have holds := coilHiSeen_holds s l true
    refine ⟨fun h => ?_, fun driven enable => ?_, fun shut enable => ?_, fun shut disabled absent => ?_⟩
    · have acts : s.setCoilHi l true = s.coilHiSeen l true := by
        rw [setCoilHi_edge edge]
        rcases h with off | ⟨driven, disabled⟩
        · exact coilHiChanged_off off
        · rw [coilHiChanged_driven (s := s.coilHiSeen l true) driven, holds, disabled]
          rfl
      exact ⟨_, answer _ acts rfl, pin, rfl, rfl, deKept_markChanged rfl, rfl, rfl, rfl⟩
    · have acts : s.setCoilHi l true = (s.coilHiSeen l true).shutdownEntry l .coilHi := by
        rw [setCoilHi_edge edge, coilHiChanged_driven (s := s.coilHiSeen l true) driven, holds, enable]
        rfl
      have others := shutdownEntry_others (s.coilHiSeen l true) l .coilHi
      obtain ⟨mp, wu, pins, -⟩ := shutdownEntry_frame (s.coilHiSeen l true) l .coilHi
      obtain ⟨down, record, trip, -⟩ := shutdownEntry_spec (rfl : (s.coilHiSeen l true).shutdownEntry l .coilHi = _)
      generalize (s.coilHiSeen l true).shutdownEntry l .coilHi = v at *
      exact ⟨_, answer v acts mp, by rw [markChanged_pins, pins]; exact pin, hasShutDown_markChanged down s, trip, record,
        others, mp, wu⟩
    · obtain ⟨only, ls, sru, gzu⟩ := coilHi_shutdown shut edge
      generalize hv : s.setCoilHi l true = v at *
      refine ⟨_, answer v rfl only.mp, by rw [markChanged_pins, only.outside.1]; exact pin, ?_, sru, gzu, only.others, only.cu,
        deKept_markChanged only.de, only.nu, only.mp, only.wu⟩
      rw [markChanged_ls, ls, timerWith_present (by simp [enable]), enable]
      rfl
    · obtain ⟨only, ls, sru, gzu⟩ := coilHi_shutdown shut edge
      generalize hv : s.setCoilHi l true = v at *
      have causes : ({ (s.ls l).causes with coilHi := coilHiEnable (s.liveLine l) && true } : Causes) = (s.ls l).causes := by
        rw [disabled, ← absent]
        cases (s.ls l).causes
        simp_all
      rw [causes] at ls
      refine ⟨_, answer v rfl only.mp, by rw [markChanged_pins, only.outside.1]; exact pin, ?_, ?_,
        ⟨sru, gzu, only.cu, deKept_markChanged only.de⟩, only.others, only.nu, only.mp, only.wu⟩
      · rw [markChanged_ls, ls]
      · rw [markChanged_ls, ls]
        exact timerWith_coilHi_absent absent
  · have edge : s.pins.coilHi[l] ≠ false := by simp [high]
    have answer (v : State) (acts : s.setCoilHi l false = v) (mp : v.mp = s.mp) :
        exec (.coilHiDeassert l) s = .next (s.markChanged v) := by
      subst acts
      exact actPins_kept ha r _ (·.setCoilHi l false) (congrArg Mp.port mp)
    have pin := coilHiSeen_pin s l false
    by_cases shut : (s.ls l).state = .shutdown
    · obtain ⟨only, ls, sru, gzu⟩ := coilHi_shutdown shut edge
      generalize hv : s.setCoilHi l false = v at *
      rw [Bool.and_false] at ls
      refine ⟨_, answer v rfl only.mp, by rw [markChanged_pins, only.outside.1]; exact pin, fun _ => ⟨?_, ?_⟩,
        fun h => absurd shut h, sru, gzu, only.others, only.cu, deKept_markChanged only.de, only.nu, only.mp, only.wu⟩
      · rw [markChanged_ls, ls]
      · rw [markChanged_ls, ls]
        exact timerWith_coilHi_absent rfl
    · have acts : s.setCoilHi l false = s.coilHiSeen l false := by
        have quiet := coilHiSeen_holds s l false
        rw [Bool.and_false] at quiet
        refine (setCoilHi_edge edge).trans ((if_neg shut).trans ?_)
        simp [quiet]
      exact ⟨_, answer _ acts rfl, pin, fun h => absurd h shut, fun _ => rfl, rfl, rfl, fun _ _ => rfl, rfl,
        deKept_markChanged rfl, rfl, rfl, rfl⟩

/-! ## The sample link (R29, R33) -/

theorem receiverIdle_only (s : State) (l : LineId) : LineOnly l s (s.receiverIdle l) := lineOnly_modLine l s _

/-- Settles O18: a silence episode begins; the receiver becomes IDLE. -/
theorem silenceAndLinkEvents : Obligations.SilenceAndLinkEvents := by
  refine ⟨fun l s ha r runs noEpisode => ?_, fun l s ha r waits => ?_⟩
  · have acts : effectOf (.silenceTimerExpiry l) s = s.silenceBegins l :=
      if_pos (by simp [Sru.silenceRuns, runs, noEpisode])
    have answer := act_kept ha r (effectOf (.silenceTimerExpiry l)) (by rw [acts]; simp)
    rw [acts] at answer
    have told : raisedIn s (s.silenceBegins l) .sampleLoss (.line l) 0 :=
      raisedIn_of (p := fun _ => False)
        (t := s.modSru l fun u => { u with silence := none, episode := true, silences := satInc u.silences })
        (keepsRecords_of rfl rfl) rfl (keepsRecords_of rfl rfl) id rfl
    have others : otherLinesKept l s (s.silenceBegins l) := fun k hk => by
      simp [State.silenceBegins, modSru_lines_other _ _ _ _ hk]
    have de : deKept s (s.silenceBegins l) := by
      refine deKept_markPage (linePage l) (deKept_eq ?_)
      simp
    have dirty : isDirty (s.silenceBegins l) (linePage l) := markPage_isDirty _ _
    have sru : (s.silenceBegins l).sru l
        = { s.sru l with silence := none, episode := true, silences := satInc (s.sru l).silences } := by
      simp [State.silenceBegins, State.sru]
    refine ⟨_, answer, sru, markChanged_isDirty dirty, told, ?_, ?_, others, ?_, deKept_of de, ?_, ?_⟩
    · simp [State.silenceBegins, State.ls]
    · simp [State.silenceBegins, State.gzu]
    all_goals simp
  · have acts : effectOf (.linkWaitIdleExit l) s = s.receiverIdle l := if_pos waits
    have answer := act_kept ha r (effectOf (.linkWaitIdleExit l)) (by rw [acts]; rfl)
    rw [acts] at answer
    have only := receiverIdle_only s l
    refine ⟨_, answer, ?_, ?_, ?_, only.others, only.cu, deKept_markChanged only.de, only.nu, only.mp, only.wu⟩
    all_goals simp [State.receiverIdle]

end Sys2Proof.Machine
end

