-- ==== Sys2Proof/Proofs/Starts.lean ====
section
/-! PROOF of O16. A line starts a cycle, and a source that holds then acts on it at once (spec/01 R7, R10, R12, R13, R15,
R20). -/

namespace Sys2Proof.Machine
open Sys2Proof

variable {s t u v : State} {l : LineId} {p p' : Kind → Prop}

/-! ## What an action on one line leaves as it was -/

theorem deKeptButStatus_refl (s : State) : deKeptButStatus s s := ⟨rfl, fun _ => rfl⟩

theorem deKeptButStatus_trans (h : deKeptButStatus s t) (h' : deKeptButStatus t u) : deKeptButStatus s u := by
  obtain ⟨de, faulted⟩ := h
  obtain ⟨de', faulted'⟩ := h'
  exact ⟨by rw [de', de], fun p => (faulted' p).trans (faulted p)⟩

/-- From `s` to `t` line `l` may have moved, with its copies, the record and the notices: what is outside of it. -/
structure LineFrame (l : LineId) (s t : State) : Prop where
  de : deKeptButStatus s t
  others : otherLinesKept l s t
  mp : t.mp = s.mp
  wu : t.wu = s.wu
  clock : t.clock = s.clock
  coilHi : t.pins.coilHi = s.pins.coilHi

theorem lineFrame_trans (h : LineFrame l s t) (h' : LineFrame l t u) : LineFrame l s u :=
  ⟨deKeptButStatus_trans h.de h'.de, otherLinesKept_trans h.others h'.others, h'.mp.trans h.mp, h'.wu.trans h.wu,
    h'.clock.trans h.clock, h'.coilHi.trans h.coilHi⟩

theorem lineFrame_modLine (l : LineId) (s : State) (f : Line → Line) : LineFrame l s (s.modLine l f) :=
  ⟨deKeptButStatus_refl s, otherLinesKept_modLine s l f, rfl, rfl, rfl, rfl⟩

theorem lineFrame_raise (l : LineId) (s : State) (k : Kind) (src : Source) (d : Nat) : LineFrame l s (s.raise k src d) :=
  ⟨⟨by simp, fun q => by simp [State.page]⟩, fun k _ => by simp, by simp, by simp, by simp, by simp⟩

theorem lineFrame_reportLineState (l : LineId) (s : State) : LineFrame l s (s.reportLineState l) :=
  ⟨⟨by rw [De.mk.injEq]; simp, fun q => by simp [State.page]⟩, fun k hk => by simp [hk], by simp, by simp, by simp, by simp⟩

theorem lineFrame_cycleStart (l : LineId) (s : State) : LineFrame l s (s.cycleStart l) :=
  ⟨⟨by rw [De.mk.injEq]; simp, fun q => by simp [State.page]⟩, fun k hk => by simp [hk], by simp, by simp, by simp, by simp⟩

theorem lineFrame_enterPriming (l : LineId) (s : State) : LineFrame l s (s.enterPriming l) :=
  ⟨⟨by rw [De.mk.injEq]; simp, fun q => by simp [State.page]⟩, fun k hk => by simp [hk], by simp, by simp, by simp, by simp⟩

theorem lineFrame_enterOff (l : LineId) (s : State) : LineFrame l s (s.enterOff l) :=
  ⟨⟨by rw [De.mk.injEq]; simp, fun q => by simp [State.page]⟩, fun k hk => by simp [hk], by simp, by simp, by simp, by simp⟩

theorem lineFrame_actSources (l : LineId) (s : State) : LineFrame l s (s.actSources l) :=
  ⟨⟨by rw [De.mk.injEq]; simp, fun q => by simp [State.page]⟩, fun k hk => by simp [hk], by simp, by simp, by simp, by simp⟩

/-! ## Sources after a transfer -/

theorem transferred_live (h : transferred s u l) : u.liveLine l = lineAfter s l := by
  obtain ⟨moved, kept, -⟩ := h
  simp only [lineAfter]
  cases hp : (s.copies l).pendingLine with
  | none => exact (kept hp).1
  | some p => exact (moved p hp).1

/-- No source would act on the line now. -/
def quietNow (s : State) (l : LineId) : Prop := s.coilHiHolds l = false ∧ s.tripHolds l = false

theorem quietLine_iff (h : transferred s u l) (pins : u.pins.coilHi = s.pins.coilHi) (trip : tripKept s u l) :
    quietLine s l ↔ quietNow u l := by
  simp only [quietLine, quietNow, State.coilHiHolds, State.tripHolds, State.tripActive, transferred_live h, pins, trip.1]
  simp

theorem actSources_quiet (h : quietNow s l) : s.actSources l = s := by
  obtain ⟨coilHi, trip⟩ := h
  simp [State.actSources, coilHi, trip]

/-- This source holds now. -/
def holdsNow (s : State) (l : LineId) (c : Cause) : Prop :=
  (c = .coilHi ∧ s.coilHiHolds l = true) ∨ (c = .trip ∧ s.tripHolds l = true)

/-- The kinds a shutdown entry raises when no copy waits to become live. -/
def shutdownKind (k : Kind) : Prop := k = .lineShutdown ∨ k = .restartLockout

theorem transfer_nothing (n : nothingPending s l) : s.transfer l = s := by
  obtain ⟨line, cal⟩ := n
  simp only [State.transfer, State.transferLine, line, State.transferCal, cal]

/-- A shutdown entry with nothing pending raises no notice of a transfer. -/
theorem shutdownEntry_quiet (n : nothingPending s l) (c : Cause) : keepsRecords shutdownKind s (s.shutdownEntry l c) := by
  simp only [State.shutdownEntry]
  generalize hs1 : (s.modLs l fun q => q.shutdown c (s.coilHiHolds l) (s.tripHolds l)).modSru l (·.abandon) = s1
  have first : keepsRecords shutdownKind s s1 := by
    subst hs1
    exact keepsRecords_of rfl rfl
  have cu1 : s1.cu = s.cu := by
    subst hs1
    rfl
  have second : keepsRecords shutdownKind s1 (s1.raise .lineShutdown (.line l) c.code) :=
    keepsRecords_raise _ _ _ _ (.inl rfl)
  have cu2 : (s1.raise .lineShutdown (.line l) c.code).cu = s.cu := by simp [cu1]
  have n2 : nothingPending (s1.raise .lineShutdown (.line l) c.code) l := by
    simp only [nothingPending, State.copies, cu2]
    exact n
  generalize s1.raise .lineShutdown (.line l) c.code = s2 at *
  rw [transfer_nothing n2]
  obtain ⟨-, -, third, -⟩ := countAttempt_spec (rfl : s2.countAttempt l = _)
  generalize s2.countAttempt l = s3 at *
  have last : keepsRecords shutdownKind s3 (((s3.reexamTimer l).modSru l (·.rest)).reportLineState l) :=
    keepsRecords_of (by simp) (by simp [State.liveDelivery])
  exact keepsRecords_trans first (keepsRecords_trans second
    (keepsRecords_trans (keepsRecords_mono (fun _ h => .inr h) third) last))

/-- A source that holds on a driven line shuts it down; where both hold, either one (log 9). -/
theorem actSources_shuts (n : nothingPending s l) (driven : (s.ls l).state.driven = true) (noisy : ¬quietNow s l) :
    ∃ c, holdsNow s l c ∧ hasShutDown s (s.actSources l) l c ∧ recordFollows s (s.actSources l) l
      ∧ tripKept s (s.actSources l) l ∧ keepsRecords shutdownKind s (s.actSources l) := by
  have entry (w : State) (n : nothingPending w l) (c : Cause) : hasShutDown w (w.shutdownEntry l c) l c
      ∧ recordFollows w (w.shutdownEntry l c) l ∧ tripKept w (w.shutdownEntry l c) l
      ∧ keepsRecords shutdownKind w (w.shutdownEntry l c) := by
    obtain ⟨down, record, trip, -⟩ := shutdownEntry_spec (rfl : w.shutdownEntry l c = _)
    exact ⟨down, record, trip, shutdownEntry_quiet n c⟩
  simp only [State.actSources, driven, if_true]
  cases hc : s.coilHiHolds l <;> cases ht : s.tripHolds l
  case false.false => exact absurd ⟨hc, ht⟩ noisy
  case true.false => exact ⟨.coilHi, .inl ⟨rfl, hc⟩, entry s n _⟩
  case false.true => exact ⟨.trip, .inr ⟨rfl, ht⟩, entry s n _⟩
  case true.true =>
    refine ⟨_, ?_, entry s.usedFree n _⟩
    split
    · exact .inl ⟨rfl, hc⟩
    · exact .inr ⟨rfl, ht⟩

/-! ## A second transfer in one action -/

/-- With nothing pending a transfer keeps the live copies and the record. -/
theorem transferred_nothing (n : nothingPending s l) (h : transferred s t l) :
    t.liveLine l = s.liveLine l ∧ t.liveCal l = s.liveCal l := by
  obtain ⟨-, line, -, cal, -⟩ := h
  exact ⟨(line n.1).1, (cal n.2).1⟩

theorem transferred_pending (h : transferred s t l) : nothingPending t l := by
  obtain ⟨-, -, -, -, n, -⟩ := h
  exact n

theorem recordFollows_after (n : nothingPending u l) (h : recordFollows s u l) (h' : recordFollows u t l) :
    recordFollows s t l := by
  obtain ⟨record, owner, status⟩ := h'.2 fun e => by
    rcases e with ⟨line, -⟩ | ⟨cal, -⟩
    · exact line n.1
    · exact cal n.2
  simp only [recordFollows, record, owner, status] at *
  exact h

theorem paramsFixed_of (sru : (t.sru l).params = (u.sru l).params) (line : t.liveLine l = u.liveLine l)
    (cal : t.liveCal l = u.liveCal l) (h : paramsFixed s u l) : paramsFixed s t l := by
  simp only [paramsFixed, sru, line, cal] at *
  exact h

/-- What a shutdown entry keeps of the sequencer that it finds. -/
def sameEntry (a b : Sequencer) : Prop :=
  a.lengths = b.lengths ∧ a.producing = b.producing ∧ a.profileSincePriming = b.profileSincePriming
    ∧ a.attempts = b.attempts ∧ a.lockout = b.lockout ∧ a.restartTimer = b.restartTimer

theorem shutDownFrom_congr {a b : Sequencer} {c : Cause} (h : sameEntry a b) (down : shutDownFrom a s t l c) :
    shutDownFrom b s t l c := by
  obtain ⟨lengths, producing, since, attempts, lockout, timer⟩ := h
  simp only [shutDownFrom, attemptsAfter, reachesLimit, timerAfter, lengths, producing, since, attempts, lockout,
    timer] at down
  exact down

/-! ## A start and the source that acts on it -/

/-- A line that has started a cycle, with whatever notices `p`, is shut down by a source that holds. -/
theorem shutAtStart_of {q : Sequencer} (params : paramsFixed s u l) (moved : transferred s u l) (trip : tripKept s u l)
    (kept : keepsRecords p s u) (same : sameEntry (u.ls l) { q with lengths := some (liveLengths u l) })
    (driven : (u.ls l).state.driven = true) (noisy : ¬quietNow u l) : shutAtStart q s (u.actSources l) l := by
  obtain ⟨c, holds, ⟨down, sru, -⟩, -, trip', kept'⟩ :=
    actSources_shuts (transferred_pending moved) driven noisy
  obtain ⟨-, -, pins, -⟩ := actSources_frame u l
  generalize u.actSources l = t at *
  have moved' : transferred u t l := by
    obtain ⟨-, -, -, -, -, -, -, -, -, moved'⟩ := down
    exact moved'
  obtain ⟨line, cal⟩ := transferred_nothing (transferred_pending moved) moved'
  refine ⟨paramsFixed_of (by rw [sru]) line cal params, ⟨trip'.1.trans trip.1, trip'.2.trans trip.2⟩, c, ?_, ?_⟩
  · simpa [sourceHolds, holdsNow, State.coilHiHolds, State.tripHolds, State.tripActive, line, pins, trip'.1] using holds
  · have lengths : liveLengths t l = liveLengths u l := by simp only [liveLengths, line]
    rw [lengths]
    exact shutDownFrom_congr same (shutDownFrom_after moved kept down kept' (by rintro (h | h) <;> cases h))

/-- What is true of the record and the zones after a start stays so when a source then acts. -/
theorem actSources_follows (driven : (u.ls l).state.driven = true) (moved : transferred s u l) :
    (recordFollows s u l → recordFollows s (u.actSources l) l)
      ∧ (zonesFollow s u l → zonesFollow s (u.actSources l) l)
      ∧ keepsRecords shutdownKind u (u.actSources l) := by
  by_cases quiet : quietNow u l
  · rw [actSources_quiet quiet]
    exact ⟨id, id, keepsRecords_refl _ _⟩
  · obtain ⟨c, -, ⟨down, -, -, zones, -⟩, record, -, kept⟩ :=
      actSources_shuts (transferred_pending moved) driven quiet
    have n := transferred_pending moved
    obtain ⟨-, -, -, -, -, -, -, -, -, moved'⟩ := down
    exact ⟨fun h => recordFollows_after n h record,
      fun h => zonesFollow_trans h zones (transferred_nothing n moved').1, kept⟩

/-- What of the SRU, the GZU and the staging queue a start has made stays so when a source then acts. -/
theorem actSources_line (n : nothingPending u l) (driven : (u.ls l).state.driven = true) (noisy : ¬quietNow u l) :
    (u.actSources l).sru l = { u.sru l with
        accP := WindowAcc.empty, accN := WindowAcc.empty, halvesP := none, silence := none, episode := false }
      ∧ ((u.actSources l).gzu l).grid = (u.gzu l).grid ∧ ((u.actSources l).gzu l).still = (u.gzu l).still
      ∧ (u.actSources l).staging l = u.staging l := by
  obtain ⟨c, -, ⟨⟨-, -, -, accP, accN, -⟩, sru, gzu, -, ⟨de, -⟩⟩, -⟩ :=
    actSources_shuts n driven noisy
  refine ⟨?_, ?_, ?_, ?_⟩
  · rw [sru, accP, accN]
  · rw [gzu]
  · rw [gzu]
  · simp only [State.staging]
    rw [de]

/-- A source that acts leaves the grid, the still counts and the staging queues. -/
theorem actSources_grid (n : nothingPending u l) (driven : (u.ls l).state.driven = true) :
    ((u.actSources l).gzu l).grid = (u.gzu l).grid ∧ ((u.actSources l).gzu l).still = (u.gzu l).still := by
  by_cases quiet : quietNow u l
  · rw [actSources_quiet quiet]
    exact ⟨rfl, rfl⟩
  · obtain ⟨-, grid, still, -⟩ := actSources_line n driven quiet
    exact ⟨grid, still⟩

/-! ## A cycle start within a longer action (R7) -/

theorem recordFollows_from (cu : v.cu = s.cu) (status : v.de.statusDirty = s.de.statusDirty) (h : recordFollows v u l) :
    recordFollows s u l := recordFollows_of h cu rfl status rfl

/-- A cycle start of `v`, which this action has made of `s` without a transfer. -/
theorem cycleStart_from (cu : v.cu = s.cu) (clock : v.clock = s.clock) (status : v.de.statusDirty = s.de.statusDirty)
    (kept : keepsRecords p s v) (h : (v.ls l).state ≠ .shutdown) :
    atCycleStart s (v.cycleStart l) l ∧ recordFollows s (v.cycleStart l) l ∧ zonesFollow v (v.cycleStart l) l
      ∧ transferred v (v.cycleStart l) l ∧ keepsRecords transferKind v (v.cycleStart l)
      ∧ (v.cycleStart l).ls l = { v.ls l with
          phase := some .leadGap, phaseTimer := some 0, bridge := Bridge.allOff
          lengths := some (liveLengths (v.cycleStart l) l), producing := (v.ls l).state == .running }
      ∧ (v.cycleStart l).sru l = { v.sru l with params := ((v.cycleStart l).sru l).params }
      ∧ (v.cycleStart l).gzu l = { v.gzu l with
          zones := ((v.cycleStart l).gzu l).zones, lalm := ((v.cycleStart l).gzu l).lalm } := by
  obtain ⟨⟨phase, timer, bridge, lengths, params, moved⟩, record, zones, kept', ls, sru, gzu, -⟩ :=
    cycleStart_spec (rfl : v.cycleStart l = _) h
  refine ⟨⟨phase, timer, bridge, lengths, ?_, ?_⟩, recordFollows_from cu status record, zones, moved, kept', ls, sru, gzu⟩
  · simp only [paramsFixed, clock] at params
    exact params
  · exact transferred_of moved cu rfl (keepsRecords_mono (fun _ _ => trivial) kept) (keepsRecords_refl (fun _ => False) _) id

/-! ## PRIMING (R10) -/

/-- An entry to PRIMING seen from another state, and after a notice of no transfer. -/
theorem hasPrimed_of (sru : u.sru l = s.sru l) (gzu : u.gzu l = s.gzu l) (cu : u.cu = s.cu) (clock : u.clock = s.clock)
    (before : keepsRecords (fun _ => False) s u) (lines : t.lines = v.lines) (cu' : t.cu = v.cu)
    (after : keepsRecords p v t) (config : ¬p .configApplied) (clear : ¬p .zoneClear) (h : hasPrimed u v l) :
    hasPrimed s t l := by
  obtain ⟨state, ⟨phase, timer, bridge, lengths, params, moved⟩, producing, since, restart, offsets, silence, episode, seq,
    grid, still, zones, copy⟩ := h
  have ls : t.ls l = v.ls l := by simp only [State.ls, lines]
  have sru' : t.sru l = v.sru l := by simp only [State.sru, lines]
  have gzu' : t.gzu l = v.gzu l := by simp only [State.gzu, lines]
  have line : t.liveLine l = v.liveLine l := by simp only [State.liveLine, State.copies, cu']
  have cal : t.liveCal l = v.liveCal l := by simp only [State.liveCal, State.copies, cu']
  have params' : paramsFixed s t l := by
    simp only [paramsFixed, sru', line, cal, ← clock]
    exact params
  have lengths' : (t.ls l).lengths = some (liveLengths t l) := by
    simp only [liveLengths, ls, line]
    exact lengths
  rw [sru] at offsets seq
  rw [← ls] at state phase timer bridge producing since restart
  rw [← sru'] at offsets silence episode seq
  rw [← gzu'] at grid still copy
  exact ⟨state, ⟨phase, timer, bridge, lengths', params',
    transferred_of moved cu cu' (keepsRecords_mono (fun _ h => h.elim) before) after config⟩, producing, since, restart,
    offsets, silence, episode, seq, grid, still,
    zonesFollow_of zones (by simp only [State.liveLine, State.copies, cu]) line (by rw [gzu]) (by rw [gzu']) before after id clear,
    copy⟩

/-- The line has entered PRIMING, its LS standing as `q` before, and no source has acted yet. -/
structure PrimedFrom (s u : State) (l : LineId) (q : Sequencer) : Prop where
  primed : hasPrimed s u l
  record : recordFollows s u l
  kept : keepsRecords (fun k => transferKind k ∨ k = .lineRestarted) s u
  ls : u.ls l = { q with
    state := .priming, phase := some .leadGap, phaseTimer := some 0, bridge := Bridge.allOff
    lengths := some (liveLengths u l), producing := false, stage := .clamped, holdTicks := 0
    profileSincePriming := false, restartTimer := none }
  trip : tripKept s u l
  pins : u.pins = s.pins
  staging : u.staging l = s.staging l

theorem primedFrom_prime (s : State) (l : LineId) : PrimedFrom s (s.enterPriming l) l (s.ls l) := by
  obtain ⟨primed, record, kept, ls, staging⟩ := prime_spec (rfl : s.enterPriming l = _)
  exact ⟨primed, record, keepsRecords_mono (fun _ h => .inl h) kept, ls, by rw [tripKept, ls]; exact ⟨rfl, rfl⟩, by simp,
    staging⟩

theorem primedFrom_raise {q : Sequencer} (h : PrimedFrom s u l q) (src : Source) (d : Nat) :
    PrimedFrom s (u.raise .lineRestarted src d) l q := by
  have raised : keepsRecords (· = .lineRestarted) u (u.raise .lineRestarted src d) := keepsRecords_raise u _ _ _ rfl
  have cu : (u.raise .lineRestarted src d).cu = u.cu := by simp
  have lines : (u.raise .lineRestarted src d).lines = u.lines := by simp
  have de : (u.raise .lineRestarted src d).de = u.de := by simp
  have pins : (u.raise .lineRestarted src d).pins = u.pins := by simp
  generalize u.raise .lineRestarted src d = v at *
  have ls : v.ls l = u.ls l := by simp only [State.ls, lines]
  refine ⟨hasPrimed_of rfl rfl rfl rfl (keepsRecords_refl _ _) lines cu raised (by decide) (by decide) h.primed,
    recordFollows_of h.record rfl cu rfl (by rw [de]),
    keepsRecords_trans h.kept (keepsRecords_mono (fun _ e => .inr e) raised), ?_, ?_, pins.trans h.pins, ?_⟩
  · rw [ls, h.ls]
    simp only [liveLengths, State.liveLine, State.copies, cu]
  · rw [tripKept, ls]
    exact h.trip
  · simp only [State.staging, de]
    exact h.staging

theorem primedFrom_driven {q : Sequencer} (h : PrimedFrom s u l q) : (u.ls l).state.driven = true := by
  rw [h.ls]
  rfl

theorem primedFrom_moved {q : Sequencer} (h : PrimedFrom s u l q) : transferred s u l := by
  obtain ⟨-, ⟨-, -, -, -, -, moved⟩, -⟩ := h.primed
  exact moved

/-- Where no source holds, the line stays in PRIMING. -/
theorem primedFrom_quiet {q : Sequencer} (h : PrimedFrom s u l q) (quiet : quietLine s l) : u.actSources l = u :=
  actSources_quiet ((quietLine_iff (primedFrom_moved h) (by rw [h.pins]) h.trip).mp quiet)

/-- Where one holds, it shuts the line down. -/
theorem primedFrom_noisy {q : Sequencer} (h : PrimedFrom s u l q) (noisy : ¬quietLine s l) :
    shutAtPriming q s (u.actSources l) l ∧ recordFollows s (u.actSources l) l
      ∧ keepsRecords shutdownKind u (u.actSources l) := by
  have moved := primedFrom_moved h
  have driven := primedFrom_driven h
  have noisy' : ¬quietNow u l := fun e => noisy ((quietLine_iff moved (by rw [h.pins]) h.trip).mpr e)
  obtain ⟨-, ⟨-, -, -, -, params, -⟩, -, -, -, offsets, -, -, seq, grid, still, zones, -⟩ := h.primed
  have shut : shutAtStart { q with profileSincePriming := false, producing := false, restartTimer := none } s
      (u.actSources l) l := by
    refine shutAtStart_of params moved h.trip h.kept ?_ driven noisy'
    rw [h.ls]
    exact ⟨rfl, rfl, rfl, rfl, rfl, rfl⟩
  obtain ⟨record, zones', kept⟩ := actSources_follows driven moved
  obtain ⟨sru, grid', still', staging⟩ := actSources_line (transferred_pending moved) driven noisy'
  refine ⟨⟨shut, ?_, ?_, grid'.trans grid, ?_, zones' zones, staging.trans h.staging⟩, record h.record, kept⟩
  · rw [sru]
    exact offsets
  · rw [sru]
    exact seq
  · rw [still']
    exact still

/-- Settles O16: the line enters PRIMING, and a source that holds shuts it down. -/
theorem restartDelayExpiryPrimes : Obligations.RestartDelayExpiryPrimes := by
  have primed (s : State) (l : LineId) := primedFrom_raise (primedFrom_prime s l) (.line l) 0
  have told (s : State) (l : LineId) {v : State} (kept : keepsRecords shutdownKind ((s.enterPriming l).raise .lineRestarted (.line l) 0) v) :
      raisedIn s v .lineRestarted (.line l) 0 :=
    raisedIn_of (keepsRecords_mono (fun _ _ => trivial) (primedFrom_prime s l).kept) rfl kept (by rintro (h | h) <;> cases h) rfl
  have acts {s : State} {l : LineId} (shut : (s.ls l).state = .shutdown) (timer : (s.ls l).restartTimer.isSome = true) :
      s.autoRestart l = ((s.enterPriming l).raise .lineRestarted (.line l) 0).actSources l := if_pos ⟨shut, timer⟩
  have frame {s : State} {l : LineId} (shut : (s.ls l).state = .shutdown) (timer : (s.ls l).restartTimer.isSome = true) :
      LineFrame l s (s.autoRestart l) := by
    rw [acts shut timer]
    exact lineFrame_trans (lineFrame_enterPriming l s)
      (lineFrame_trans (lineFrame_raise l _ .lineRestarted (.line l) 0) (lineFrame_actSources l _))
  have answer {s : State} {l : LineId} (ha : awake s) (r : atRest s) :
      exec (.restartDelayExpiry l) s = .next (s.markChanged (s.autoRestart l)) :=
    act_kept ha r (·.autoRestart l) (by simp)
  refine ⟨fun l s ha r shut timer quiet => ?_, fun l s ha r shut timer noisy => ?_⟩
  · obtain ⟨de, others, mp, wu, -, -⟩ := frame shut timer
    have h := primed s l
    have acts' := (acts shut timer).trans (primedFrom_quiet h quiet)
    have restarted := told s l (keepsRecords_refl _ _)
    refine ⟨_, answer ha r, ?_⟩
    rw [← acts'] at h restarted
    generalize s.autoRestart l = v at *
    refine ⟨h.primed, ?_, ?_, restarted, h.record, deKeptButStatus_markChanged de s, others, mp, wu⟩
    · rw [markChanged_ls, h.ls]
    · rw [markChanged_ls, h.ls]
  · obtain ⟨de, others, mp, wu, -, -⟩ := frame shut timer
    obtain ⟨shutDown, record, kept⟩ := primedFrom_noisy (primed s l) noisy
    have restarted := told s l kept
    refine ⟨_, answer ha r, ?_⟩
    rw [← acts shut timer] at shutDown record restarted
    generalize s.autoRestart l = v at *
    exact ⟨shutDown, restarted, record, deKeptButStatus_markChanged de s, others, mp, wu⟩

end Sys2Proof.Machine
end

