-- ==== Sys2Proof/Proofs/Profiles.lean ====
section
/-! SUPPORT. A profile at the end of a producing cycle: the staging queue it joins and what the GZU makes of it (spec/03
R53 to R57, R64; spec/04 R75, R76). -/

namespace Sys2Proof.Machine
open Sys2Proof

variable {s t u v b w : State} {l : LineId} {p p' : Kind → Prop}

/-! ## The staging queue (R75, R76) -/

theorem stagingJoin_notice (s : State) (l : LineId) (x : Profile) :
    keepsRecords (· = .profileDrop) s (s.stagingJoin l x)
      ∧ (4 ≤ (s.staging l).queue.length →
          raisedIn s (s.stagingJoin l x) .profileDrop (.line l) (((s.staging l).dropped + 1).setWidth 16)) := by
  have after (v : State) : keepsRecords (fun _ => False) v ((v.modStaging l fun g => g.place x).markLine l) :=
    keepsRecords_of rfl rfl
  by_cases full : 4 ≤ (s.staging l).queue.length
  · have acts : s.stagingJoin l x = ((s.dropStaged l).modStaging l fun g => g.place x).markLine l := by
      simp only [State.stagingJoin, if_pos full]
    rw [acts]
    generalize hv : s.modStaging l (fun g =>
      { g with queue := dropOldest (s.ringInFlight (profileRing l)) g.queue, dropped := g.dropped + 1 }) = v
    have drop : s.dropStaged l = v.raise .profileDrop (.line l) ((v.staging l).dropped.toNat % 65536) := by
      rw [← hv]
      rfl
    have before {p : Kind → Prop} : keepsRecords p s v := by
      rw [← hv]
      exact keepsRecords_of rfl rfl
    have count : (v.staging l).dropped = (s.staging l).dropped + 1 := by
      rw [← hv]
      simp
    have raised := keepsRecords_raise (p := (· = .profileDrop)) v .profileDrop (.line l) ((v.staging l).dropped.toNat % 65536) rfl
    refine ⟨?_, fun _ => raisedIn_of before drop (after _) id ?_⟩
    · rw [drop]
      exact keepsRecords_trans before (keepsRecords_trans raised (keepsRecords_mono (fun _ h => h.elim) (after _)))
    · rw [count]
      apply BitVec.eq_of_toNat_eq
      simp
  · have acts : s.stagingJoin l x = (s.modStaging l fun g => g.place x).markLine l := by
      simp only [State.stagingJoin, if_neg full]
    rw [acts]
    exact ⟨keepsRecords_mono (fun _ h => h.elim) (after s), fun h => absurd h full⟩

/-- The profile that joins the tail is the last of the queue. -/
theorem joinsQueue_of {x : Profile} (here : t.staging l = (s.staging l).joined (s.ringInFlight (profileRing l)) x)
    (told : 4 ≤ (s.staging l).queue.length →
      raisedIn s t .profileDrop (.line l) (((s.staging l).dropped + 1).setWidth 16)) :
    ∃ g, joinsQueue s t l g ∧ (t.staging l).queue.getLast? = some g ∧ g.profile = x := by
  simp only [joinsQueue, here]
  generalize s.staging l = q at *
  generalize s.ringInFlight (profileRing l) = flying at *
  obtain ⟨queue, carried, delivered, dropped, faulted⟩ := q
  simp only at *
  match queue with
  | [] => exact ⟨⟨x, carried⟩, by simp [Staging.joined, Staging.place], by simp [Staging.joined, Staging.place], rfl⟩
  | [a] => exact ⟨⟨x, 0⟩, by simp [Staging.joined, Staging.place], by simp [Staging.joined, Staging.place], rfl⟩
  | [a, b] => exact ⟨⟨x, 0⟩, by simp [Staging.joined, Staging.place], by simp [Staging.joined, Staging.place], rfl⟩
  | [a, b, c] => exact ⟨⟨x, 0⟩, by simp [Staging.joined, Staging.place], by simp [Staging.joined, Staging.place], rfl⟩
  | a :: b :: c :: d :: rest =>
    refine ⟨⟨x, 0⟩, ⟨fun h => (by cases h), fun _ => rfl, fun _ h => absurd h (by simp), fun full => ⟨?_, ?_, told full⟩⟩, ?_, rfl⟩
    · rintro e y more ⟨⟩ rfl
      simp [Staging.joined, Staging.place, dropOldest, passOn]
    · rintro h e y more ⟨⟩ rfl
      simp [Staging.joined, Staging.place, dropOldest, passOn]
    · cases flying <;> simp [Staging.joined, Staging.place, dropOldest, List.getLast?_cons]

/-! ## The grid, the still counts and the zones (R53 to R57, R64, R66) -/

/-- A zone trips at the evaluation of the profile. -/
def tripsAt (s t : State) (l : LineId) (z : Fin 4) : Prop :=
  (zoneDef (s.liveLine l) z.val).enable = true ∧ (zoneVerdict s t l z).2 = .trip

/-- A zone clears at the evaluation of the profile. -/
def clearsAt (s t : State) (l : LineId) (z : Fin 4) : Prop :=
  (zoneDef (s.liveLine l) z.val).enable = true ∧ (zoneVerdict s t l z).2 = .clear

/-- The kinds the evaluation raises. -/
def evaluationKind (s t : State) (l : LineId) (k : Kind) : Prop :=
  (k = .zoneTrip ∧ ∃ z : Fin 4, tripsAt s t l z) ∨ (k = .zoneClear ∧ ∃ z : Fin 4, clearsAt s t l z)

/-- `w` is `s` after the profile `x` at the GZU, but for its place in the queue. -/
structure Evaluated (s w : State) (l : LineId) (x : Profile) : Prop where
  grid : (w.gzu l).grid = appendColumn (s.gzu l).grid (columnOf x)
  still : ∀ k : Fin 6, (w.gzu l).still[k] = nextStill (stillThreshold (s.liveLine l)) (s.gzu l).still[k] x.bands[k]
  zones : ∀ z : Fin 4, (w.gzu l).zones[z] = zoneAfter s w l z
  cu : w.cu = s.cu
  rest : w.gzu l = { s.gzu l with
    grid := (w.gzu l).grid, still := (w.gzu l).still, zones := (w.gzu l).zones, lalm := (w.gzu l).lalm }
  kept : keepsRecords (evaluationKind s w l) s w
  trips : ∀ z : Fin 4, tripsAt s w l z → (∀ y : Fin 4, z < y → ¬tripsAt s w l y) →
    raisedIn s w .zoneTrip (.line l) (BitVec.ofNat 16 z.val)
  clears : ∀ z : Fin 4, clearsAt s w l z → (∀ y : Fin 4, z < y → ¬clearsAt s w l y) →
    raisedIn s w .zoneClear (.line l) (BitVec.ofNat 16 z.val)

/-- The column and the still counts, then the evaluation of the zones, then LALM (R53). -/
def State.evaluated (s : State) (l : LineId) (x : Profile) : State :=
  (((List.finRange 4).foldl (fun t z => t.evalZone l z)
    (s.modGzu l fun g => g.takeColumn (stillThreshold (s.liveLine l)) x)).reevalLalm l).markLine l

theorem takeProfile_eq (s : State) (l : LineId) (x : Profile) : s.takeProfile l x =
    (s.evaluated l x).stagingJoin l { x with zones := ((s.evaluated l x).gzu l).zones.map (·.state) } := rfl

theorem evaluated_de (s : State) (l : LineId) (x : Profile) : (s.evaluated l x).de = (s.markLine l).de := by
  have fold := evalZones_de (s.modGzu l fun g => g.takeColumn (stillThreshold (s.liveLine l)) x) l (List.finRange 4)
  simp only [State.evaluated, State.markLine, State.markPage, State.modPage, State.modDe]
  generalize List.foldl _ _ _ = v at *
  simp [fold]

theorem evaluated_spec (s : State) (l : LineId) (x : Profile) : Evaluated s (s.evaluated l x) l x := by
  simp only [State.evaluated]
  generalize hb : s.modGzu l (fun g => g.takeColumn (stillThreshold (s.liveLine l)) x) = b
  have gzu : b.gzu l = (s.gzu l).takeColumn (stillThreshold (s.liveLine l)) x := by rw [← hb, modGzu_gzu]
  have cu : b.cu = s.cu := by rw [← hb]; rfl
  have nu : b.nu = s.nu := by rw [← hb]; rfl
  clear hb
  obtain ⟨rest, cu', zones, kept, trips, clears⟩ := foldEval l (List.finRange 4) (List.pairwise_lt_finRange 4) b
  generalize (List.finRange 4).foldl (fun t z => t.evalZone l z) b = e at *
  have last : keepsRecords (fun _ => False) e ((e.reevalLalm l).markLine l) :=
    keepsRecords_of (by simp) (by simp [State.liveDelivery])
  have gzu' : ((e.reevalLalm l).markLine l).gzu l = { e.gzu l with lalm := (((e.reevalLalm l).markLine l).gzu l).lalm } := by
    simp [State.reevalLalm, State.gzu, State.markLine]
  have cu'' : ((e.reevalLalm l).markLine l).cu = e.cu := by simp
  generalize (e.reevalLalm l).markLine l = w at *
  have line : b.liveLine l = s.liveLine l := by simp only [State.liveLine, State.copies, cu]
  have cal : b.liveCal l = s.liveCal l := by simp only [State.liveCal, State.copies, cu]
  have first : keepsRecords (fun _ => False) s b := keepsRecords_of nu (by simp only [State.liveDelivery, cu])
  have grid : (w.gzu l).grid = (b.gzu l).grid := by rw [gzu', rest]
  have still : (w.gzu l).still = (b.gzu l).still := by rw [gzu', rest]
  have before : (b.gzu l).zones = (s.gzu l).zones := by rw [gzu]; rfl
  have verdict (z : Fin 4) : verdictIn b l z = zoneVerdict s w l z := by
    simp only [verdictIn, zoneVerdict, line, cal, before, grid, still]
  have reports (z : Fin 4) (e : ZoneEvent) : reportsIn b l z e
      ↔ (zoneDef (s.liveLine l) z.val).enable = true ∧ (zoneVerdict s w l z).2 = e := by
    simp only [reportsIn, verdict, line]
  have during : keepsRecords (evaluationKind s w l) b e := by
    refine keepsRecords_mono (fun k h => ?_) kept
    rcases h with ⟨hk, z, -, h⟩ | ⟨hk, z, -, h⟩
    · exact .inl ⟨hk, z, (reports z _).mp h⟩
    · exact .inr ⟨hk, z, (reports z _).mp h⟩
  have weaken {k : Kind → Prop} {a c : State} (h : keepsRecords (fun _ => False) a c) : keepsRecords k a c :=
    keepsRecords_mono (fun _ h => h.elim) h
  have cuKept : w.cu = s.cu := cu''.trans (cu'.trans cu)
  refine ⟨by rw [grid, gzu]; rfl, fun k => ?_, fun z => ?_, cuKept, ?_, keepsRecords_trans (weaken first) (keepsRecords_trans during (weaken last)),
    fun z h top => ?_, fun z h top => ?_⟩
  · simp only [still, gzu, Gzu.takeColumn]
    simp
  · rw [show (w.gzu l).zones = (e.gzu l).zones by rw [gzu'], zones z]
    simp only [List.mem_finRange, true_and, line, zoneAfter, verdict, before]
  · rw [gzu', rest, gzu]
    rfl
  · exact raisedIn_between first (trips z (List.mem_finRange z) ((reports z _).mpr h)
      fun y _ hy h' => top y hy ((reports y _).mp h')) last id
  · exact raisedIn_between first (clears z (List.mem_finRange z) ((reports z _).mpr h)
      fun y _ hy h' => top y hy ((reports y _).mp h')) last id

/-- The evaluation does not see what the SRU has become. -/
theorem evaluated_of {x : Profile} (gzu : b.gzu l = s.gzu l) (cu : b.cu = s.cu) (nu : b.nu = s.nu)
    (h : Evaluated b w l x) : Evaluated s w l x := by
  have line : b.liveLine l = s.liveLine l := by simp only [State.liveLine, State.copies, cu]
  have cal : b.liveCal l = s.liveCal l := by simp only [State.liveCal, State.copies, cu]
  have level (k : Kind) : b.levelOf k = s.levelOf k := by simp only [State.levelOf, State.liveDelivery, cu]
  obtain ⟨grid, still, zones, cu', rest, kept, trips, clears⟩ := h
  simp only [evaluationKind, keepsRecords, notRaised, raisedIn, tripsAt, clearsAt, zoneAfter, zoneVerdict, gzu, line, cal, nu,
    level] at grid still zones rest kept trips clears
  exact ⟨grid, still, zones, cu'.trans cu, rest, kept, trips, clears⟩

theorem satAdd_toNat {m : Nat} (x : BitVec m) (n : Nat) : (satAdd x n).toNat = min (2 ^ m - 1) (x.toNat + n) := by
  have := x.isLt
  simp only [satAdd]
  split
  · rw [BitVec.toNat_add, BitVec.toNat_ofNat, Nat.add_mod_mod, Nat.mod_eq_of_lt (by omega)]
    omega
  · rw [BitVec.toNat_allOnes]
    omega

/-- The still counts of a profile whose bands have a velocity exactly where their quality is valid (R57). -/
theorem stillFollows_nextStill (n : Nat) (r : BandResult) (old : BitVec 8) : stillFollows n r old (nextStill n old r) := by
  refine ⟨fun x valid vel => ⟨fun slow => ?_, fun fast => ?_⟩, fun invalid => ?_⟩
  · simp only [nextStill, vel, valid, if_true, slow]
    exact satAdd_toNat old 1
  · simp only [nextStill, vel, valid, if_true]
    exact if_neg (by omega)
  · simp only [nextStill, invalid]
    cases r.velocity <;> rfl

/-- The GZU has taken the profile, and a transfer has followed. -/
theorem profileTaken_of {x : Profile} {g : Staged} (h : Evaluated s w l x) (kept : keepsRecords p w t)
    (trip : ¬p .zoneTrip) (grid : (t.gzu l).grid = (w.gzu l).grid) (still : (t.gzu l).still = (w.gzu l).still)
    (follow : zonesFollow w t l) (states : ∀ z : Fin 4, g.profile.zones[z] = (w.gzu l).zones[z].state) :
    profileTaken s t l x g := by
  have line : w.liveLine l = s.liveLine l := by simp only [State.liveLine, State.copies, h.cu]
  have after (z : Fin 4) : zoneAfter s t l z = zoneAfter s w l z := by simp only [zoneAfter, zoneVerdict, grid, still]
  have trips (z : Fin 4) : tripsAt s t l z ↔ tripsAt s w l z := by simp only [tripsAt, zoneVerdict, grid, still]
  have clears (z : Fin 4) : clearsAt s t l z ↔ clearsAt s w l z := by simp only [clearsAt, zoneVerdict, grid, still]
  have none : keepsRecords (fun _ => False) t t := keepsRecords_refl _ _
  have resets (z : Fin 4) (r : ZoneRec) : zoneIsReset w t l z r ↔ zoneIsReset s t l z r := by
    simp only [zoneIsReset, line]
  obtain ⟨⟨zones, told⟩, quiet⟩ := follow
  dsimp only at zones told
  have quietReset : (∀ z : Fin 4, ¬zoneIsReset s t l z (zoneAfter s t l z)) → notRaised w t .zoneClear := fun h' =>
    quiet fun z hz => h' z (by rw [after, ← h.zones]; exact (resets z _).mp hz)
  refine ⟨grid.trans h.grid, fun k => ?_, fun z => ?_, ⟨fun z => ?_, fun z hz top => ?_⟩, fun z hz top => ?_, fun quietTrip => ?_,
    fun z hz top noReset => ?_, fun quietClear noReset => ?_⟩
  · rw [still, h.still k]
    exact stillFollows_nextStill _ _ _
  · rw [states z, h.zones z, after z]
  · rw [zones z, line, after z, h.zones z]
  · refine raisedIn_between h.kept (told z ?_ fun y hy hr => ?_) none id
    · rw [resets, h.zones z, ← after z]
      exact hz
    · rw [resets, h.zones y, ← after y] at hr
      exact top y hy hr
  · exact raisedIn_between (keepsRecords_refl (fun _ => False) s)
      (h.trips z ((trips z).mp hz) fun y hy hr => top y hy ((trips y).mpr hr)) kept trip
  · refine notRaised_trans (h.kept.2.2 _ ?_) (kept.2.2 _ trip)
    rintro (⟨-, z, hz⟩ | ⟨e, -⟩)
    · exact quietTrip z ((trips z).mpr hz)
    · cases e
  · intro level
    exact records_of_notRaised (quietReset noReset)
      (h.clears z ((clears z).mp hz) (fun y hy hr => top y hy ((clears y).mpr hr)) level)
  · refine notRaised_trans (h.kept.2.2 _ ?_) (quietReset noReset)
    rintro (⟨e, -⟩ | ⟨-, z, hz⟩)
    · cases e
    · exact quietClear z ((clears z).mpr hz)

/-! ## What a cycle end produces (R9, R45, R53, R75) -/

/-- The profile that the cycle of the parameters `c` makes. -/
def cycleProfile (s : State) (l : LineId) (c : CycleParams) : Profile :=
  (s.sru l).formProfile c l ((s.ls l).state == .stopping)

/-- `w` is `s` after the profile of its cycle, `g` in the queue. -/
structure Produced (s w : State) (l : LineId) (c : CycleParams) (g : Staged) : Prop where
  ls : w.ls l = { s.ls l with profileSincePriming := true, attempts := 0 }
  sru : w.sru l = (s.sru l).afterProfile c
  cu : w.cu = s.cu
  others : otherLinesKept l s w
  profile : g.profile = { cycleProfile s l c with zones := g.profile.zones }
  joins : joinsQueue s w l g
  last : (w.staging l).queue.getLast? = some g
  otherQueues : ∀ k : LineId, k ≠ l → w.staging k = s.staging k
  taken : ∃ e, Evaluated s e l (cycleProfile s l c) ∧ keepsRecords (· = .profileDrop) e w ∧ w.gzu l = e.gzu l
    ∧ ∀ z : Fin 4, g.profile.zones[z] = (w.gzu l).zones[z].state
  copies : (w.gzu l).lineCopy = (s.gzu l).lineCopy
  dirty : isDirty w (linePage l)
  de : deKeptButStatus { s with de := { s.de with staging := w.de.staging } } w
  status : w.de.statusDirty = s.de.statusDirty

theorem joinsQueue_congr {g : Staged} (staging : b.staging l = s.staging l)
    (flight : b.ringInFlight (profileRing l) = s.ringInFlight (profileRing l)) (kept : keepsRecords p s b)
    (h : joinsQueue b t l g) : joinsQueue s t l g := by
  obtain ⟨ms, level, -⟩ := kept
  simp only [joinsQueue, staging, flight, raisedIn, level, ms] at h
  exact h

theorem joinsQueue_after {g : Staged} (staging : t.staging l = u.staging l) (kept : keepsRecords p u t)
    (drop : ¬p .profileDrop) (h : joinsQueue s u l g) : joinsQueue s t l g := by
  obtain ⟨empty, before, room, full⟩ := h
  simp only [joinsQueue, staging]
  exact ⟨empty, before, room, fun h => ⟨(full h).1, (full h).2.1, fun level => keepsRecords_records kept drop ((full h).2.2 level)⟩⟩

theorem produced_produce {c : CycleParams} (hc : (s.sru l).params = some c) : ∃ g, Produced s (s.produce l) l c g := by
  have acts : s.produce l = (((s.modSru l fun u => u.afterProfile c).markLine l).takeProfile l (cycleProfile s l c)).modLs l
      fun q => { q with profileSincePriming := true, attempts := 0 } := by
    simp only [State.produce, hc, cycleProfile]
  generalize hb : (s.modSru l fun u => u.afterProfile c).markLine l = b at acts
  have bLs : b.ls l = s.ls l := by rw [← hb]; simp [State.ls]
  have bSru : b.sru l = (s.sru l).afterProfile c := by rw [← hb]; simp [State.sru]
  have bGzu : b.gzu l = s.gzu l := by rw [← hb]; simp [State.gzu]
  have bOthers : otherLinesKept l s b := by rw [← hb]; exact otherLinesKept_modLine s l _
  have bCu : b.cu = s.cu := by rw [← hb]; rfl
  have bNu : b.nu = s.nu := by rw [← hb]; rfl
  have bDe : b.de = (s.markLine l).de := by rw [← hb]; rfl
  clear hb
  have evaluated := evaluated_of bGzu bCu bNu (evaluated_spec b l (cycleProfile s l c))
  have eDe : (b.evaluated l (cycleProfile s l c)).de = ((s.markLine l).markLine l).de := by
    rw [evaluated_de]
    simp only [State.markLine, State.markPage, State.modPage, State.modDe] at bDe ⊢
    rw [bDe]
  have take := takeProfile_eq b l (cycleProfile s l c)
  generalize b.evaluated l (cycleProfile s l c) = e at *
  generalize hx : ({ cycleProfile s l c with zones := (e.gzu l).zones.map (·.state) } : Profile) = x at *
  obtain ⟨lsKept, sruKept, -, -, -, -, -, -, -, -, -, otherLines⟩ := takeProfile_parts b l (cycleProfile s l c)
  rw [take] at lsKept sruKept otherLines acts
  have eStaging (k : LineId) : e.staging k = s.staging k := by simp [State.staging, eDe]
  have eFlight : e.ringInFlight (profileRing l) = s.ringInFlight (profileRing l) := by simp [State.ringInFlight, eDe]
  obtain ⟨drop, told⟩ := stagingJoin_notice e l x
  obtain ⟨here, there⟩ := stagingJoin_staging e l x
  obtain ⟨lines, cu, -⟩ := stagingJoin_frame e l x
  obtain ⟨rings, status, fresh, arming, flight, lastPage, faulted, -⟩ := stagingJoin_parts e l x
  have dirty : isDirty (e.stagingJoin l x) (linePage l) := markPage_isDirty _ _
  obtain ⟨g, joins, last, profile⟩ := joinsQueue_of here told
  generalize e.stagingJoin l x = j at *
  have eKept : keepsRecords (evaluationKind s e l) s e := evaluated.kept
  have after : keepsRecords (· = .profileDrop) e (s.produce l) := by
    rw [acts]
    exact keepsRecords_trans drop (keepsRecords_of rfl rfl)
  have pGzu : (s.produce l).gzu l = e.gzu l := by
    rw [acts, modLs_gzu]
    simp only [State.gzu, lines]
  have pStaging (k : LineId) : (s.produce l).staging k = j.staging k := by
    rw [acts]
    rfl
  refine ⟨g, ?_, ?_, ?_, ?_, ?_, ?_, ?_, ?_, ⟨e, evaluated, after, pGzu, ?_⟩, ?_, ?_, ?_, ?_⟩
  · rw [acts, modLs_ls, State.ls, show j.lines[l].ls = b.lines[l].ls from lsKept l, ← bLs]
    rfl
  · rw [acts, modLs_sru, State.sru, show j.lines[l].sru = b.lines[l].sru from sruKept l, ← bSru]
    rfl
  · rw [acts]
    exact cu.trans evaluated.cu
  · intro k hk
    rw [acts]
    exact (modLs_lines_other _ _ _ _ hk).trans ((otherLines k hk).trans (bOthers k hk))
  · rw [profile, ← hx]
  · have : joinsQueue s j l g := joinsQueue_congr (eStaging l) eFlight eKept joins
    exact joinsQueue_after (p := fun _ => False) (pStaging l) (by rw [acts]; exact keepsRecords_of rfl rfl) id this
  · rw [pStaging l]
    exact last
  · intro k hk
    rw [pStaging k, there k hk, eStaging k]
  · intro z
    rw [pGzu, profile, ← hx]
    simp
  · rw [pGzu, evaluated.rest]
  · rw [acts]
    exact dirty
  · rw [acts]
    refine ⟨?_, fun q => ?_⟩
    · rw [De.mk.injEq]
      simp [rings, fresh, arming, flight, lastPage, eDe]
    · have := faulted q
      simp only [State.page]
      exact this.trans (by rw [eDe]; simp [State.markLine])
  · rw [acts]
    simp [status, eDe]

end Sys2Proof.Machine
end

