-- ==== Sys2Proof/Proofs/CycleEnds.lean ====
section
/-! PROOF of O10, O11 and O12. The end of a cycle: PRIMING ends RUNNING, a RUNNING cycle yields its profile, STOPPING ends
OFF (spec/01 R9, R11; spec/03 R53). -/

namespace Sys2Proof.Machine
open Sys2Proof

variable {s t u v w : State} {l : LineId} {p : Kind → Prop}

/-- The LS reports its line state to the GZU, which examines LALM (R25, R69). -/
theorem reportLineState_line (s : State) (l : LineId) :
    (s.reportLineState l).ls l = s.ls l ∧ (s.reportLineState l).sru l = s.sru l
      ∧ (s.reportLineState l).gzu l
        = { s.gzu l with lineCopy := (s.ls l).state, lalm := ((s.reportLineState l).gzu l).lalm } := by
  refine ⟨by simp [State.ls], by simp [State.sru], ?_⟩
  simp [State.reportLineState, State.reevalLalm, State.gzu, State.markLine, State.ls]

/-! ## Entry to OFF (R8, R11, R22) -/

/-- Everything an entry to OFF does to its line. -/
theorem enterOff_spec (s : State) (l : LineId) :
    transferred s (s.enterOff l) l ∧ recordFollows s (s.enterOff l) l ∧ zonesFollow s (s.enterOff l) l
      ∧ keepsRecords transferKind s (s.enterOff l) ∧ (s.enterOff l).ls l = (s.ls l).off
      ∧ (s.enterOff l).sru l = (s.sru l).rest
      ∧ (s.enterOff l).gzu l = { s.gzu l with
          zones := ((s.enterOff l).gzu l).zones, lineCopy := .off, lalm := ((s.enterOff l).gzu l).lalm } := by
  simp only [State.enterOff]
  generalize hb : (s.modLs l (·.off)).modSru l (·.rest) = b
  have bLs : b.ls l = (s.ls l).off := by rw [← hb]; simp
  have bSru : b.sru l = (s.sru l).rest := by rw [← hb]; simp
  have bGzu : b.gzu l = s.gzu l := by rw [← hb]; simp
  have bCu : b.cu = s.cu := by rw [← hb]; rfl
  have bDe : b.de = s.de := by rw [← hb]; rfl
  have first : keepsRecords (fun _ => False) s b := by rw [← hb]; exact keepsRecords_of rfl rfl
  clear hb
  obtain ⟨moved, record, zones, kept, gzu⟩ := transfer_spec (rfl : b.transfer l = _)
  have ls := transfer_driven (rfl : b.transfer l = _) (by rw [bLs]; simp [Sequencer.off])
  have sru : (b.transfer l).sru l = b.sru l := by simp [State.sru]
  generalize b.transfer l = c at *
  have last : keepsRecords (fun _ => False) c (c.reportLineState l) := keepsRecords_of (by simp) (by simp [State.liveDelivery])
  have cu : (c.reportLineState l).cu = c.cu := by simp
  have status : (c.reportLineState l).de.statusDirty = c.de.statusDirty := by simp
  obtain ⟨eLs, eSru, eGzu⟩ := reportLineState_line c l
  generalize c.reportLineState l = t at *
  have live : b.liveLine l = s.liveLine l := by simp only [State.liveLine, State.copies, bCu]
  have live' : t.liveLine l = c.liveLine l := by simp only [State.liveLine, State.copies, cu]
  refine ⟨transferred_of moved bCu cu (keepsRecords_mono (fun _ h => h.elim) first) last id,
    recordFollows_of record bCu cu (by rw [bDe]) status,
    zonesFollow_of zones live live' (by rw [bGzu]) (by rw [eGzu]) first last id id,
    keepsRecords_trans (keepsRecords_mono (fun _ h => h.elim) first)
      (keepsRecords_trans kept (keepsRecords_mono (fun _ h => h.elim) last)), ?_, ?_, ?_⟩
  · rw [eLs, ls, bLs]
  · rw [eSru, sru, bSru]
  · rw [eGzu, ls, bLs, gzu, bGzu]
    rfl

theorem isOff_enterOff (s : State) (l : LineId) : isOff (s.enterOff l) l := by
  obtain ⟨-, -, -, -, ls, sru, gzu⟩ := enterOff_spec s l
  have copy : ((s.enterOff l).gzu l).lineCopy = .off := by rw [gzu]
  exact ⟨by rw [ls]; rfl, by rw [ls]; rfl, by rw [ls]; rfl, by rw [ls]; rfl, by rw [ls]; rfl, by rw [ls]; rfl,
    by rw [sru]; rfl, copy⟩

/-! ## The last phase ends (R9) -/

/-- The state at the end of N_WINDOW before the cycle is closed: COIL_LOn recorded, all switches off. -/
def State.windowsDone (s : State) (l : LineId) (coilLo : Bool) : State :=
  (s.coilLoSeen l coilLo).modLs l fun q => { q with bridge := .allOff }

theorem endPhase_cycle {coilLo : Bool} (hp : (s.ls l).phase = some .nWindow) :
    effectOf (.phaseEnd l coilLo) s = ((s.windowsDone l coilLo).closeCycle l).afterCycle l := by
  have phase : ((s.coilLoSeen l coilLo).ls l).phase = some .nWindow := hp
  simp only [effectOf_phaseEnd, State.endPhase, phase]
  rfl

theorem windowsDone_ls (s : State) (l : LineId) (coilLo : Bool) :
    (s.windowsDone l coilLo).ls l = { s.ls l with bridge := .allOff } := by
  simp only [State.windowsDone, modLs_ls]
  rfl

theorem windowsDone_sru (s : State) (l : LineId) (coilLo : Bool) : (s.windowsDone l coilLo).sru l = s.sru l := by
  simp only [State.windowsDone, modLs_sru]
  rfl

theorem windowsDone_gzu (s : State) (l : LineId) (coilLo : Bool) : (s.windowsDone l coilLo).gzu l = s.gzu l := by
  simp only [State.windowsDone, modLs_gzu]
  rfl

theorem windowsDone_frame (s : State) (l : LineId) (coilLo : Bool) : LineFrame l s (s.windowsDone l coilLo) :=
  ⟨deKeptButStatus_refl s, fun k hk => modLs_lines_other (s.coilLoSeen l coilLo) l k _ hk, rfl, rfl, rfl, rfl⟩

/-! ## The PRIMING cycle (R10) -/

/-- The line after the PRIMING cycle, before its first producing cycle starts. -/
def State.primingDone (s : State) (l : LineId) (coilLo : Bool) : State :=
  (((s.windowsDone l coilLo).modSru l fun u => { u with halvesP := none }).modLs l
    fun q => { q with state := .running }).reportLineState l

theorem priming_acts {coilLo : Bool} (hp : (s.ls l).phase = some .nWindow) (priming : (s.ls l).state = .priming) :
    effectOf (.phaseEnd l coilLo) s = ((s.primingDone l coilLo).cycleStart l).actSources l := by
  have yields : ((s.windowsDone l coilLo).ls l).yields = false := by
    rw [windowsDone_ls]
    simp [Sequencer.yields, priming]
  have state : (((s.windowsDone l coilLo).modSru l fun u => { u with halvesP := none }).ls l).state = .priming := by
    rw [modSru_ls, windowsDone_ls]
    exact priming
  rw [endPhase_cycle hp, State.closeCycle, yields]
  simp only [Bool.false_eq_true, if_false, State.afterCycle, state]
  rfl

theorem primingDone_line (s : State) (l : LineId) (coilLo : Bool) :
    (s.primingDone l coilLo).ls l = { s.ls l with bridge := .allOff, state := .running }
      ∧ (s.primingDone l coilLo).sru l = { s.sru l with halvesP := none }
      ∧ (s.primingDone l coilLo).gzu l
        = { s.gzu l with lineCopy := .running, lalm := ((s.primingDone l coilLo).gzu l).lalm } := by
  simp only [State.primingDone]
  generalize hb : ((s.windowsDone l coilLo).modSru l fun u => { u with halvesP := none }).modLs l
    (fun q => { q with state := .running }) = b
  obtain ⟨ls, sru, gzu⟩ := reportLineState_line b l
  have bLs : b.ls l = { s.ls l with bridge := .allOff, state := .running } := by
    rw [← hb, modLs_ls, modSru_ls, windowsDone_ls]
  have bSru : b.sru l = { s.sru l with halvesP := none } := by rw [← hb, modLs_sru, modSru_sru, windowsDone_sru]
  have bGzu : b.gzu l = s.gzu l := by rw [← hb, modLs_gzu, modSru_gzu, windowsDone_gzu]
  exact ⟨ls.trans bLs, sru.trans bSru, by rw [gzu, bLs, bGzu]⟩

theorem primingDone_frame (s : State) (l : LineId) (coilLo : Bool) : LineFrame l s (s.primingDone l coilLo) :=
  lineFrame_trans (windowsDone_frame s l coilLo) (lineFrame_trans (lineFrame_modLine l _ _)
    (lineFrame_trans (lineFrame_modLine l _ _) (lineFrame_reportLineState l _)))

theorem primingDone_rest (s : State) (l : LineId) (coilLo : Bool) :
    (s.primingDone l coilLo).cu = s.cu ∧ (s.primingDone l coilLo).nu = s.nu
      ∧ (s.primingDone l coilLo).de.statusDirty = s.de.statusDirty := by
  simp only [State.primingDone]
  refine ⟨?_, ?_, ?_⟩ <;> simp <;> rfl

theorem cycleStart_nu (n : nothingPending s l) : (s.cycleStart l).nu = s.nu := by
  simp only [State.cycleStart, transfer_nothing n, modSru_nu, modLs_nu]

/-- Settles O10: the line is RUNNING, starts its first producing cycle, and a source that holds shuts it down. -/
theorem primingCycleEndsRunning : Obligations.PrimingCycleEndsRunning := by
  have acts (l : LineId) (coilLo : Bool) (s : State) (ha : awake s) (r : atRest s) (hp : (s.ls l).phase = some .nWindow)
      (priming : (s.ls l).state = .priming) : ∃ u t, t = u.actSources l ∧ exec (.phaseEnd l coilLo) s = .next (s.markChanged t)
        ∧ LineFrame l s t ∧ atCycleStart s u l ∧ recordFollows s u l ∧ zonesFollow s u l ∧ keepsRecords transferKind s u
        ∧ u.ls l = { s.ls l with
            state := .running, phase := some .leadGap, phaseTimer := some 0, bridge := Bridge.allOff
            lengths := some (liveLengths u l), producing := true }
        ∧ u.sru l = { s.sru l with halvesP := none, params := (u.sru l).params }
        ∧ (u.gzu l).grid = (s.gzu l).grid ∧ (u.gzu l).lineCopy = .running
        ∧ (nothingPending s l → u.nu = s.nu) ∧ u.pins.coilHi = s.pins.coilHi := by
    obtain ⟨ls, sru, gzu⟩ := primingDone_line s l coilLo
    obtain ⟨cu, nu, status⟩ := primingDone_rest s l coilLo
    have frame := primingDone_frame s l coilLo
    have effect := priming_acts (coilLo := coilLo) hp priming
    generalize s.primingDone l coilLo = v at *
    have kept : keepsRecords (fun _ => False) s v := keepsRecords_of nu (by simp only [State.liveDelivery, cu])
    obtain ⟨start, record, zones, -, kept', ls', sru', gzu'⟩ :=
      cycleStart_from cu frame.clock status kept (by rw [ls]; simp)
    have frame' := lineFrame_trans frame (lineFrame_cycleStart l v)
    have still : nothingPending s l → (v.cycleStart l).nu = s.nu := fun n =>
      (cycleStart_nu (by simp only [nothingPending, State.copies, cu]; exact n)).trans nu
    generalize v.cycleStart l = u at *
    have frame'' := lineFrame_trans frame' (lineFrame_actSources l u)
    have live : v.liveLine l = s.liveLine l := by simp only [State.liveLine, State.copies, cu]
    refine ⟨u, _, rfl, ?_, frame'', start, record,
      zonesFollow_of zones live rfl (by rw [gzu]) rfl kept (keepsRecords_refl (fun _ => False) _) id id,
      keepsRecords_trans (keepsRecords_mono (fun _ h => h.elim) kept) kept', ?_, ?_, ?_, ?_, still, frame'.coilHi⟩
    · rw [← effect]
      exact act_kept ha r (effectOf (.phaseEnd l coilLo)) (by rw [effect, frame''.mp])
    · rw [ls', ls]
      rfl
    · rw [sru', sru]
    · rw [gzu', gzu]
    · rw [gzu', gzu]
  refine ⟨fun l coilLo s ha r hp priming quiet => ?_, fun l coilLo s ha r hp priming noisy => ?_⟩
  all_goals
    obtain ⟨u, t, ht, answer, frame, start, record, zones, kept, ls, sru, grid, copy, still, coilHi⟩ := acts l coilLo s ha r hp priming
    have trip : tripKept s u l := by rw [tripKept, ls]; exact ⟨rfl, rfl⟩
    have driven : (u.ls l).state.driven = true := by rw [ls]; rfl
    obtain ⟨-, -, -, -, params, moved⟩ := id start
    have quietNow_iff := quietLine_iff moved coilHi trip
    have staging (k : LineId) : t.staging k = s.staging k := by
      simp only [State.staging]
      rw [frame.de.1]
  · obtain rfl : t = u := ht.trans (actSources_quiet (quietNow_iff.mp quiet))
    exact ⟨_, answer, by rw [markChanged_ls, ls], start, by rw [markChanged_ls, ls], by rw [markChanged_ls, ls],
      by rw [markChanged_ls, ls], by rw [markChanged_sru, sru], by rw [markChanged_sru, sru], grid, zones, copy, staging l,
      record, still, deKeptButStatus_markChanged frame.de s, frame.others, frame.mp, frame.wu⟩
  · have noisy' : ¬quietNow u l := fun e => noisy (quietNow_iff.mpr e)
    obtain ⟨record', zones', -⟩ := actSources_follows driven moved
    obtain ⟨sru', -⟩ := actSources_line (transferred_pending moved) driven noisy'
    have shut : shutAtStart { s.ls l with producing := true } s (u.actSources l) l := by
      refine shutAtStart_of params moved trip kept ?_ driven noisy'
      rw [ls]
      exact ⟨rfl, rfl, rfl, rfl, rfl, rfl⟩
    rw [← ht] at record' zones' sru' shut
    refine ⟨_, answer, shut, ?_, staging l, zones' zones, record' record, deKeptButStatus_markChanged frame.de s,
      frame.others, frame.mp, frame.wu⟩
    rw [markChanged_sru, sru', sru]

/-! ## A cycle that yields a profile (R9, R45, R53) -/

theorem windowsDone_cycleProfile (s : State) (l : LineId) (coilLo : Bool) (c : CycleParams) :
    cycleProfile (s.windowsDone l coilLo) l c = cycleProfile s l c := by
  simp only [cycleProfile, windowsDone_sru, windowsDone_ls]

/-- The line after the profile of its cycle, as its start or its entry to OFF finds it. -/
structure Yielded (s w : State) (l : LineId) (c : CycleParams) (g : Staged) : Prop where
  ls : w.ls l = { s.ls l with bridge := .allOff, profileSincePriming := true, attempts := 0 }
  sru : w.sru l = (s.sru l).afterProfile c
  cu : w.cu = s.cu
  others : otherLinesKept l s w
  profile : g.profile = { cycleProfile s l c with zones := g.profile.zones }
  joins : joinsQueue s w l g
  last : (w.staging l).queue.getLast? = some g
  otherQueues : ∀ k : LineId, k ≠ l → w.staging k = s.staging k
  taken : ∃ e, Evaluated s e l (cycleProfile s l c) ∧ keepsRecords (· = .profileDrop) e w ∧ w.gzu l = e.gzu l
    ∧ ∀ z : Fin 4, g.profile.zones[z] = (w.gzu l).zones[z].state
  dirty : isDirty w (linePage l)
  de : deKeptButStatus { s with de := { s.de with staging := w.de.staging } } w
  status : w.de.statusDirty = s.de.statusDirty
  mp : w.mp = s.mp
  wu : w.wu = s.wu
  clock : w.clock = s.clock
  coilHi : w.pins.coilHi = s.pins.coilHi

theorem yielded_produce {c : CycleParams} (coilLo : Bool) (hc : (s.sru l).params = some c) :
    ∃ g, Yielded s ((s.windowsDone l coilLo).produce l) l c g := by
  obtain ⟨g, h⟩ := produced_produce (s := s.windowsDone l coilLo) (l := l) (c := c) (by rw [windowsDone_sru]; exact hc)
  have frame := produce_frame (s.windowsDone l coilLo) l
  generalize (s.windowsDone l coilLo).produce l = w at *
  obtain ⟨-, mp, wu, pins, clock, -, -⟩ := frame
  obtain ⟨ls, sru, cu, others, profile, joins, last, otherQueues, taken, -, dirty, de, status⟩ := h
  rw [windowsDone_cycleProfile] at profile taken
  obtain ⟨e, evaluated, rest⟩ := taken
  refine ⟨g, ?_, ?_, cu, ?_, profile, ?_, last, otherQueues, ⟨e, ?_, rest⟩, dirty, de, status, mp, wu, clock, ?_⟩
  · rw [ls, windowsDone_ls]
  · rw [sru, windowsDone_sru]
  · exact otherLinesKept_trans (windowsDone_frame s l coilLo).others others
  · exact joinsQueue_congr (b := s.windowsDone l coilLo) rfl rfl (keepsRecords_refl (fun _ => False) s) joins
  · exact evaluated_of (windowsDone_gzu s l coilLo) rfl rfl evaluated
  · rw [pins]
    rfl

/-- A transfer follows the profile: what the statements say of the queue and the GZU. -/
theorem yielded_taken {c : CycleParams} {g : Staged} (h : Yielded s w l c g) (kept : keepsRecords p w t)
    (trip : ¬p .zoneTrip) (drop : ¬p .profileDrop) (staging : t.staging l = w.staging l)
    (grid : (t.gzu l).grid = (w.gzu l).grid) (still : (t.gzu l).still = (w.gzu l).still) (zones : zonesFollow w t l) :
    joinsQueue s t l g ∧ (t.staging l).queue.getLast? = some g ∧ profileTaken s t l (cycleProfile s l c) g := by
  obtain ⟨e, evaluated, kept', gzu, states⟩ := h.taken
  refine ⟨joinsQueue_after staging kept drop h.joins, by rw [staging]; exact h.last, ?_⟩
  have line : w.liveLine l = e.liveLine l := by simp only [State.liveLine, State.copies, h.cu, evaluated.cu]
  rw [gzu] at grid still
  refine profileTaken_of (p := fun k => k = .profileDrop ∨ p k) evaluated
    (keepsRecords_trans (keepsRecords_mono (fun _ e => .inl e) kept') (keepsRecords_mono (fun _ e => .inr e) kept)) ?_ grid still
    (zonesFollow_of zones line rfl (by rw [gzu]) rfl kept' (keepsRecords_refl (fun _ => False) _) (by decide) id)
    fun z => by rw [states z, gzu]
  rintro (e | e)
  · cases e
  · exact trip e

/-- What happens after the profile is within the frame of the line, so that only the queue differs besides. -/
theorem yielded_de {c : CycleParams} {g : Staged} (h : Yielded s w l c g) (frame : LineFrame l w t) :
    deKeptButStatus { s with de := { s.de with staging := t.de.staging } } t
      ∧ (∀ k : LineId, k ≠ l → t.staging k = s.staging k) ∧ t.staging l = w.staging l := by
  have queues : t.de.staging = w.de.staging := by
    rw [frame.de.1]
  refine ⟨?_, fun k hk => ?_, ?_⟩
  · rw [queues]
    exact deKeptButStatus_trans h.de frame.de
  · rw [State.staging, queues]
    exact h.otherQueues k hk
  · simp only [State.staging, queues]

theorem yields_of {q : Sequencer} (state : q.state = .running ∨ q.state = .stopping) (producing : q.producing = true) :
    q.yields = true := by
  rcases state with e | e <;> simp [Sequencer.yields, producing, e]

theorem yielding_acts {coilLo : Bool} (hp : (s.ls l).phase = some .nWindow)
    (state : (s.ls l).state = .running ∨ (s.ls l).state = .stopping) (producing : (s.ls l).producing = true) :
    effectOf (.phaseEnd l coilLo) s = ((s.windowsDone l coilLo).produce l).afterCycle l := by
  have yields : ((s.windowsDone l coilLo).ls l).yields = true := by
    rw [windowsDone_ls]
    exact yields_of state producing
  rw [endPhase_cycle hp, State.closeCycle, if_pos yields]

theorem transferKind_trip : ¬transferKind .zoneTrip := by
  rintro (h | h) <;> cases h

theorem transferKind_drop : ¬transferKind .profileDrop := by
  rintro (h | h) <;> cases h

/-- Whatever the profile has raised, it has kept the level table and the counter. -/
theorem yielded_kept {c : CycleParams} {g : Staged} (h : Yielded s w l c g) : keepsRecords (fun _ => True) s w := by
  obtain ⟨e, evaluated, kept, -⟩ := h.taken
  exact keepsRecords_trans (keepsRecords_mono (fun _ _ => trivial) evaluated.kept)
    (keepsRecords_mono (fun _ _ => trivial) kept)

/-- Settles O12: the STOPPING-final profile, then entry to OFF. -/
theorem stoppingCycleEndsOff : Obligations.StoppingCycleEndsOff := by
  intro l coilLo s c ha r hp stopping producing hc
  have acts := yielding_acts (coilLo := coilLo) hp (.inr stopping) producing
  obtain ⟨g, h⟩ := yielded_produce coilLo hc
  generalize (s.windowsDone l coilLo).produce l = w at *
  have acts' : effectOf (.phaseEnd l coilLo) s = w.enterOff l := by
    rw [acts, State.afterCycle, h.ls, stopping]
  obtain ⟨moved, record, zones, kept, -, sru, gzu⟩ := enterOff_spec w l
  have off := isOff_enterOff w l
  have frame := lineFrame_enterOff l w
  generalize w.enterOff l = t at *
  have answer := act_kept ha r (effectOf (.phaseEnd l coilLo)) (by rw [acts', frame.mp, h.mp])
  rw [acts'] at answer
  obtain ⟨de, otherQueues, queue⟩ := yielded_de h frame
  obtain ⟨joins, last, taken⟩ := yielded_taken h kept transferKind_trip transferKind_drop queue (by rw [gzu]) (by rw [gzu]) zones
  have moved' : transferred s t l :=
    transferred_of moved h.cu rfl (yielded_kept h) (keepsRecords_refl (fun _ => False) t) id
  have final : cycleProfile s l c = (s.sru l).formProfile c l true := by simp [cycleProfile, stopping]
  rw [final] at taken
  have profile := h.profile
  rw [final] at profile
  rw [h.sru] at sru
  refine ⟨_, answer, off, ?_, ?_, deKeptButStatus_markChanged de s, otherQueues,
    ⟨g, joins, last, profile, by rw [profile]; rfl, by rw [profile]; rfl, taken⟩, (transferred_pending moved').1,
    (transferred_pending moved').2, moved', recordFollows_from h.cu h.status record, otherLinesKept_trans h.others frame.others,
    frame.mp.trans h.mp, frame.wu.trans h.wu⟩
  · rw [markChanged_sru, sru]
    rfl
  · rw [markChanged_sru, sru]
    rfl

/-! ## Pages marked dirty stay marked -/

/-- A page that is dirty stays dirty. -/
def keepsDirty (s t : State) : Prop := ∀ q : PageId, isDirty s q → isDirty t q

theorem keepsDirty_trans (h : keepsDirty s t) (h' : keepsDirty t u) : keepsDirty s u := fun q hq => h' q (h q hq)

theorem keepsDirty_de (h : t.de.pages = s.de.pages) : keepsDirty s t := fun q hq => by
  simpa only [isDirty, State.page, h] using hq

theorem keepsDirty_markPage (s : State) (q : PageId) : keepsDirty s (s.markPage q) := fun x hx => by
  by_cases e : x = q
  · rw [e]
    exact markPage_isDirty s q
  · simpa only [isDirty, State.markPage, modPage_other _ _ _ _ e] using hx

theorem keepsDirty_applyLine (s : State) (l : LineId) (new : Bytes) (tag : Byte) : keepsDirty s (s.applyLine l new tag) :=
  keepsDirty_trans (keepsDirty_de (by simp)) (keepsDirty_markPage _ (linePage l))

theorem keepsDirty_applyCal (s : State) (l : LineId) (new : Bytes) (tag : Byte) : keepsDirty s (s.applyCal l new tag) :=
  keepsDirty_trans (keepsDirty_de (by simp)) (keepsDirty_markPage _ (linePage l))

theorem keepsDirty_appliedTo (s : State) (o : Owner) : keepsDirty s (s.appliedTo o) := by
  simp only [State.appliedTo]
  split
  · exact keepsDirty_trans (keepsDirty_de (by simp)) (keepsDirty_markPage _ partPage)
  · exact fun _ h => h

theorem keepsDirty_transfer (s : State) (l : LineId) : keepsDirty s (s.transfer l) := by
  have line : keepsDirty s (s.transferLine l) := by
    simp only [State.transferLine]
    split
    · exact fun _ h => h
    · exact keepsDirty_trans (keepsDirty_applyLine s l _ _) (keepsDirty_appliedTo _ _)
  have cal (v : State) : keepsDirty v (v.transferCal l) := by
    simp only [State.transferCal]
    split
    · exact fun _ h => h
    · exact keepsDirty_trans (keepsDirty_applyCal v l _ _) (keepsDirty_appliedTo _ _)
  exact keepsDirty_trans line (cal _)

theorem keepsDirty_cycleStart (s : State) (l : LineId) : keepsDirty s (s.cycleStart l) :=
  keepsDirty_trans (keepsDirty_transfer s l) (keepsDirty_de rfl)

theorem keepsDirty_shutdownEntry (s : State) (l : LineId) (c : Cause) : keepsDirty s (s.shutdownEntry l c) := by
  simp only [State.shutdownEntry]
  generalize hb : ((s.modLs l fun q => q.shutdown c (s.coilHiHolds l) (s.tripHolds l)).modSru l (·.abandon)).raise
    .lineShutdown (.line l) c.code = b
  have first : keepsDirty s b := by
    rw [← hb]
    exact keepsDirty_de (by simp)
  have rest (v : State) : keepsDirty v ((((v.countAttempt l).reexamTimer l).modSru l (·.rest)).reportLineState l) :=
    keepsDirty_trans (keepsDirty_de (by simp)) (keepsDirty_markPage _ (linePage l))
  exact keepsDirty_trans first (keepsDirty_trans (keepsDirty_transfer b l) (rest _))

theorem keepsDirty_actSources (s : State) (l : LineId) : keepsDirty s (s.actSources l) := by
  have used (c : Cause) : keepsDirty s (s.usedFree.shutdownEntry l c) := keepsDirty_shutdownEntry s.usedFree l c
  simp only [State.actSources]
  split
  · split
    · exact fun _ h => h
    · exact keepsDirty_shutdownEntry s l .coilHi
    · exact keepsDirty_shutdownEntry s l .trip
    · exact used _
  · exact fun _ h => h

/-- Settles O11: the profile, the next cycle, and a source that holds shuts the line down. -/
theorem runningCycleYieldsProfile : Obligations.RunningCycleYieldsProfile := by
  intro l coilLo s c ha r hp running producing hc
  have acts := yielding_acts (coilLo := coilLo) hp (.inl running) producing
  obtain ⟨g, h⟩ := yielded_produce coilLo hc
  generalize (s.windowsDone l coilLo).produce l = w at *
  have acts' : effectOf (.phaseEnd l coilLo) s = (w.cycleStart l).actSources l := by
    rw [acts, State.afterCycle, h.ls, running]
  obtain ⟨start, record, zones, movedW, kept, ls, sru, gzu⟩ :=
    cycleStart_from h.cu h.clock h.status (yielded_kept h) (by rw [h.ls, running]; simp)
  have frame' := lineFrame_cycleStart l w
  have uDirty := keepsDirty_cycleStart w l
  generalize w.cycleStart l = u at *
  have frame := lineFrame_trans frame' (lineFrame_actSources l u)
  have answer := act_kept ha r (effectOf (.phaseEnd l coilLo)) (by rw [acts', frame.mp, h.mp])
  rw [acts'] at answer
  have uLs : u.ls l = { s.ls l with
      state := .running, phase := some .leadGap, phaseTimer := some 0, bridge := Bridge.allOff
      lengths := some (liveLengths u l), producing := true, profileSincePriming := true, attempts := 0 } := by
    rw [ls, h.ls, ← running]
    simp [running]
  have trip : tripKept s u l := by rw [tripKept, uLs]; exact ⟨rfl, rfl⟩
  have driven : (u.ls l).state.driven = true := by rw [uLs]; rfl
  obtain ⟨-, -, -, -, params, moved⟩ := id start
  have quietNow_iff := quietLine_iff moved (frame'.coilHi.trans h.coilHi) trip
  obtain ⟨grid, still⟩ := actSources_grid (transferred_pending moved) driven
  obtain ⟨record', -, kept'⟩ := actSources_follows driven moved
  obtain ⟨-, zones', -⟩ := actSources_follows driven movedW
  have shut (noisy : ¬quietLine s l) : shutAtStart
      { s.ls l with producing := true, profileSincePriming := true, attempts := 0 } s (u.actSources l) l := by
    refine shutAtStart_of params moved trip (keepsRecords_trans (yielded_kept h) (keepsRecords_mono (fun _ _ => trivial) kept)) ?_
      driven fun e => noisy (quietNow_iff.mpr e)
    rw [uLs]
    exact ⟨rfl, rfl, rfl, rfl, rfl, rfl⟩
  have sruShut (noisy : ¬quietLine s l) : (u.actSources l).sru l = _ :=
    (actSources_line (transferred_pending moved) driven fun e => noisy (quietNow_iff.mpr e)).1
  have quiet (q : quietLine s l) : u.actSources l = u := actSources_quiet (quietNow_iff.mp q)
  have uSru : u.sru l = { (s.sru l).afterProfile c with params := (u.sru l).params } := by rw [sru, h.sru]
  generalize ht : u.actSources l = t at *
  have final : cycleProfile s l c = (s.sru l).formProfile c l false := by rw [cycleProfile, running]; rfl
  obtain ⟨de, otherQueues, queue⟩ := yielded_de h frame
  have keptAll : keepsRecords (fun k => transferKind k ∨ shutdownKind k) w t :=
    keepsRecords_trans (keepsRecords_mono (fun _ e => .inl e) kept) (keepsRecords_mono (fun _ e => .inr e) kept')
  obtain ⟨joins, last, taken⟩ := yielded_taken h keptAll (by rintro ((e | e) | e | e) <;> cases e)
    (by rintro ((e | e) | e | e) <;> cases e) queue (grid.trans (by rw [gzu])) (still.trans (by rw [gzu])) (zones' zones)
  have profile := h.profile
  rw [final] at taken profile
  have tSru : (t.sru l).sequence = (s.sru l).sequence + 1 ∧ (t.sru l).halvesP = none := by
    by_cases q : quietLine s l
    · rw [quiet q, uSru]
      exact ⟨rfl, rfl⟩
    · rw [sruShut q, uSru]
      exact ⟨rfl, rfl⟩
  have dirty : isDirty t (linePage l) := by
    rw [← ht]
    exact keepsDirty_actSources u l _ (uDirty _ h.dirty)
  refine ⟨_, answer, fun q => ?_, fun q => ⟨shut q, ?_⟩, tSru.1, tSru.2, deKeptButStatus_markChanged de s, otherQueues,
    ⟨g, joins, last, profile, by rw [profile]; rfl, by rw [profile]; rfl, taken⟩, record' record, markChanged_isDirty dirty,
    otherLinesKept_trans h.others frame.others, frame.mp.trans h.mp, frame.wu.trans h.wu⟩
  · have same := quiet q
    refine ⟨?_, ?_, ?_, ?_, ?_, ?_⟩
    · rw [markChanged_ls, same, uLs]
    · rw [same]
      exact start
    · rw [markChanged_ls, same, uLs]
    · rw [markChanged_ls, same, uLs]
    · rw [markChanged_ls, same, uLs]
    · rw [markChanged_sru, same]
      exact uSru
  · rw [markChanged_sru, sruShut q, uSru]
    rfl

end Sys2Proof.Machine
end

