-- ==== Sys2Proof/Proofs/Trips.lean ====
section
/-! PROOF of O15. TRIPn and its debounce (spec/01 R15, R17, R20). -/

namespace Sys2Proof.Machine
open Sys2Proof

variable {s t u v w : State} {l : LineId}

/-! ## The debounced level changes -/

/-- The debounced level is `level`, and no debounce is in progress. -/
def State.levelSeen (s : State) (l : LineId) (level : Bool) : State :=
  s.modLs l fun q => { q with tripLevel := level, debounce := none }

theorem levelSeen_ls (s : State) (l : LineId) (level : Bool) :
    (s.levelSeen l level).ls l = { s.ls l with tripLevel := level, debounce := none } := modLs_ls ..

theorem setTripLevel_eq (s : State) (l : LineId) (level : Bool) :
    s.setTripLevel l level = (s.levelSeen l level).tripChanged l := rfl

theorem levelSeen_holds (s : State) (l : LineId) (level : Bool) : (s.levelSeen l level).tripHolds l
    = (tripEnable (s.liveLine l) && level == tripActiveHigh (s.liveLine l)) := by
  simp only [State.tripHolds, State.tripActive, levelSeen_ls]
  rfl

theorem tripActsAt_iff (s : State) (l : LineId) (level : Bool) :
    tripActsAt s l level ↔ (s.levelSeen l level).tripHolds l = true := by
  rw [levelSeen_holds]
  simp [tripActsAt]

theorem levelSeen_only (s : State) (l : LineId) (level : Bool) : LineOnly l s (s.levelSeen l level) := lineOnly_modLine l s _

/-- In OFF, and on a driven line where TRIP does not act, the level is only tracked. -/
theorem setTripLevel_tracks {level : Bool}
    (h : (s.ls l).state = .off ∨ ((s.ls l).state.driven = true ∧ ¬tripActsAt s l level)) :
    s.setTripLevel l level = s.levelSeen l level := by
  rw [setTripLevel_eq, State.tripChanged, levelSeen_ls]
  rcases h with off | ⟨driven, quiet⟩
  · simp [off, LineState.driven]
  · rw [tripActsAt_iff] at quiet
    rw [if_neg (not_notShutdown driven)]
    simp [quiet]

/-- On a driven line where TRIP acts, it shuts the line down. -/
theorem setTripLevel_shuts {level : Bool} (driven : (s.ls l).state.driven = true) (acts : tripActsAt s l level) :
    s.setTripLevel l level = (s.levelSeen l level).shutdownEntry l .trip := by
  rw [tripActsAt_iff] at acts
  rw [setTripLevel_eq, State.tripChanged, levelSeen_ls, if_neg (not_notShutdown driven)]
  simp [driven, acts]

/-- In SHUTDOWN the cause follows the level, and the restart delay is examined. -/
theorem setTripLevel_joins (s : State) (level : Bool) (shut : (s.ls l).state = .shutdown) :
    LineOnly l s (s.setTripLevel l level) ∧ tripJoins s (s.setTripLevel l level) l level
      ∧ (s.setTripLevel l level).sru l = s.sru l ∧ (s.setTripLevel l level).gzu l = s.gzu l := by
  have shut' : ((s.levelSeen l level).ls l).state = .shutdown := by
    rw [levelSeen_ls]
    exact shut
  have acts : s.setTripLevel l level = ((s.levelSeen l level).modLs l fun q =>
      { q with causes := { ((s.levelSeen l level).ls l).causes with trip := (s.levelSeen l level).tripHolds l } }).reexamTimer l := by
    rw [setTripLevel_eq, State.tripChanged, if_pos shut']
    rfl
  obtain ⟨only, ls, sru, gzu⟩ := causesChange (s := s.levelSeen l level)
    (c := { ((s.levelSeen l level).ls l).causes with trip := (s.levelSeen l level).tripHolds l }) shut'
  rw [← acts] at only ls sru gzu
  rw [levelSeen_holds, levelSeen_ls] at ls
  have timer (c : Causes) : timerWith (s.levelSeen l level) l c = timerWith s l c := by
    simp only [timerWith, levelSeen_ls]
    rfl
  rw [timer] at ls
  refine ⟨lineOnly_trans (levelSeen_only s l level) only, ⟨?_, ?_, ?_⟩, sru.trans (modLs_sru ..), gzu.trans (modLs_gzu ..)⟩
  · rw [ls]
  · rw [ls]
  · rw [ls]
    rfl

/-- A shutdown entry seen from before the debounced level changed. -/
theorem hasShutDown_levelSeen {level : Bool} {c : Cause} (h : hasShutDown (s.levelSeen l level) t l c) :
    hasShutDown s t l c := by
  obtain ⟨down, sru, gzu, zones, de⟩ := h
  have none : keepsRecords (fun _ => False) t t := keepsRecords_refl _ _
  have same : sameEntry ((s.levelSeen l level).ls l) (s.ls l) := by
    rw [levelSeen_ls]
    exact ⟨rfl, rfl, rfl, rfl, rfl, rfl⟩
  have sru0 : (s.levelSeen l level).sru l = s.sru l := modLs_sru ..
  have gzu0 : (s.levelSeen l level).gzu l = s.gzu l := modLs_gzu ..
  rw [sru0] at sru
  rw [gzu0] at gzu
  exact ⟨shutDownFrom_congr same down, sru, gzu,
    zonesFollow_of zones rfl rfl (by rw [gzu0]) rfl (keepsRecords_of (p := fun _ => False) rfl rfl) none id id, de⟩

/-! ## The pin (R15) -/

/-- TRIPn has this level. -/
def State.tripSeen (s : State) (l : LineId) (level : Bool) : State :=
  { s with pins := { s.pins with trip := modAt s.pins.trip l fun _ => level } }

theorem tripSeen_pin (s : State) (l : LineId) (level : Bool) : (s.tripSeen l level).pins.trip[l] = level := by
  simp [State.tripSeen]

/-- A change of the pin while no debounce is at its end. -/
theorem setTrip_edge {level : Bool} (edge : s.pins.trip[l] = !level)
    (notDue : ∀ d, (s.ls l).debounce = some d → 0 < d.remaining) :
    s.setTrip l level = (s.tripSeen l level).followTrip l level := by
  have early : s.completeDue l = s := by
    simp only [State.completeDue]
    cases hd : (s.ls l).debounce with
    | none => rfl
    | some d => exact if_neg (Nat.ne_of_gt (notDue d hd))
  have change : s.pins.trip[l] ≠ level := by
    rw [edge]
    cases level <;> decide
  rw [State.setTrip, if_neg change, early]
  rfl

/-- A new debounced level at which TRIP acts is a shutdown entry. -/
theorem setTripLevel_shutDown {level : Bool} (driven : (s.ls l).state.driven = true) (acts : tripActsAt s l level) :
    hasShutDown s (s.setTripLevel l level) l .trip ∧ recordFollows s (s.setTripLevel l level) l
      ∧ ((s.setTripLevel l level).ls l).tripLevel = level ∧ ((s.setTripLevel l level).ls l).debounce = none := by
  obtain ⟨down, record, ⟨level', debounce⟩, -⟩ :=
    shutdownEntry_spec (rfl : (s.levelSeen l level).shutdownEntry l .trip = _)
  rw [setTripLevel_shuts driven acts]
  rw [levelSeen_ls] at level' debounce
  exact ⟨hasShutDown_levelSeen down, record, level', debounce⟩

theorem setTripLevel_others (s : State) (l : LineId) (level : Bool) : otherLinesKept l s (s.setTripLevel l level) := by
  obtain ⟨-, -, -, -, -, -, -, -, -, -, -, -, -, -, -, others, -⟩ := setTripLevel_parts s l level
  exact others

theorem onlySequencer_markChanged (only : LineOnly l s t) (sru : t.sru l = s.sru l) (gzu : t.gzu l = s.gzu l) :
    onlySequencer s (s.markChanged t) l := ⟨sru, gzu, only.cu, deKept_markChanged only.de⟩

theorem driven_or (q : LineState) : q = .off ∨ q = .shutdown ∨ q.driven = true := by
  cases q <;> simp [LineState.driven]

theorem setTripLevel_level (s : State) (l : LineId) (level : Bool) :
    ((s.setTripLevel l level).ls l).tripLevel = level ∧ ((s.setTripLevel l level).ls l).debounce = none := by
  have tracked (h : s.setTripLevel l level = s.levelSeen l level) :
      ((s.setTripLevel l level).ls l).tripLevel = level ∧ ((s.setTripLevel l level).ls l).debounce = none := by
    rw [h, levelSeen_ls]
    exact ⟨rfl, rfl⟩
  rcases driven_or (s.ls l).state with off | shut | driven
  · exact tracked (setTripLevel_tracks (.inl off))
  · obtain ⟨-, ⟨ls, -⟩, -⟩ := setTripLevel_joins s level shut
    rw [ls]
    exact ⟨rfl, rfl⟩
  · by_cases acts : tripActsAt s l level
    · obtain ⟨-, -, level', debounce⟩ := setTripLevel_shutDown driven acts
      exact ⟨level', debounce⟩
    · exact tracked (setTripLevel_tracks (.inr ⟨driven, acts⟩))

/-- Settles O15: the pin against the debounced level, then the debounced level by the state of the line. -/
theorem tripIsDebounced : Obligations.TripIsDebounced := by
  refine ⟨fun l v s ha r edge notDue => ⟨fun later => ?_, fun away zero => ?_⟩, fun l s d ha r hd => ?_⟩
  · have step (d : Option Debounce)
        (acts : (s.tripSeen l v).followTrip l v = (s.tripSeen l v).modLs l fun q => { q with debounce := d }) :
        ∃ t, exec (.tripPinChange l v) s = .next t ∧ t.pins.trip[l] = v ∧ t.ls l = { s.ls l with debounce := d }
          ∧ t.sru l = s.sru l ∧ t.gzu l = s.gzu l ∧ otherLinesKept l s t ∧ t.cu = s.cu ∧ deKept s t ∧ t.nu = s.nu
          ∧ t.mp = s.mp ∧ t.wu = s.wu := by
      have acts' := (setTrip_edge edge notDue).trans acts
      have only : LineOnly l (s.tripSeen l v) ((s.tripSeen l v).modLs l fun q => { q with debounce := d }) :=
        lineOnly_modLine l _ _
      have ls : ((s.tripSeen l v).modLs l fun q => { q with debounce := d }).ls l = { s.ls l with debounce := d } := modLs_ls ..
      have sru : ((s.tripSeen l v).modLs l fun q => { q with debounce := d }).sru l = s.sru l := modLs_sru ..
      have gzu : ((s.tripSeen l v).modLs l fun q => { q with debounce := d }).gzu l = s.gzu l := modLs_gzu ..
      generalize ((s.tripSeen l v).modLs l fun q => { q with debounce := d }) = w at *
      have answer := actPins_kept ha r { s.pins with trip := modAt s.pins.trip l fun _ => v } (·.setTrip l v)
        (by rw [acts', only.mp]; rfl)
      rw [acts'] at answer
      refine ⟨_, answer, ?_, ls, sru, gzu, only.others, only.cu, deKept_markChanged only.de, only.nu, only.mp, only.wu⟩
      rw [markChanged_pins, only.outside.1]
      exact tripSeen_pin s l v
    by_cases back : v = (s.ls l).tripLevel
    · obtain ⟨t, answer, pin, ls, rest⟩ := step none (if_pos back)
      exact ⟨t, answer, pin, fun _ => ls, fun h => absurd back h, rest⟩
    · have long : tripDebounceMs ((s.tripSeen l v).liveLine l) ≠ 0 := later.resolve_left back
      obtain ⟨t, answer, pin, ls, rest⟩ := step _ ((if_neg back).trans (if_neg long))
      exact ⟨t, answer, pin, fun h => absurd h back, fun _ => ls, rest⟩
  · have acts : s.setTrip l v = (s.tripSeen l v).setTripLevel l v :=
      (setTrip_edge edge notDue).trans ((if_neg away).trans (if_pos zero))
    have others := setTripLevel_others (s.tripSeen l v) l v
    have mp : ((s.tripSeen l v).setTripLevel l v).mp = s.mp := by simp; rfl
    have wu : ((s.tripSeen l v).setTripLevel l v).wu = s.wu := by simp; rfl
    have pins : ((s.tripSeen l v).setTripLevel l v).pins.trip[l] = v := by
      simp [State.tripSeen]
    have answer : exec (.tripPinChange l v) s = .next (s.markChanged ((s.tripSeen l v).setTripLevel l v)) := by
      rw [← acts] at mp ⊢
      exact actPins_kept ha r _ (·.setTrip l v) (by rw [mp])
    obtain ⟨level, debounce⟩ := setTripLevel_level (s.tripSeen l v) l v
    have tracked (quiet : (s.ls l).state = .off ∨ ((s.ls l).state.driven = true ∧ ¬tripActsAt s l v)) :
        ((s.tripSeen l v).setTripLevel l v).ls l = { s.ls l with tripLevel := v, debounce := none }
          ∧ onlySequencer s (s.markChanged ((s.tripSeen l v).setTripLevel l v)) l
          ∧ ((s.tripSeen l v).setTripLevel l v).nu = s.nu := by
      have only := levelSeen_only (s.tripSeen l v) l v
      have ls := levelSeen_ls (s.tripSeen l v) l v
      have sru : ((s.tripSeen l v).levelSeen l v).sru l = s.sru l := modLs_sru ..
      have gzu : ((s.tripSeen l v).levelSeen l v).gzu l = s.gzu l := modLs_gzu ..
      rw [setTripLevel_tracks (s := s.tripSeen l v) quiet]
      exact ⟨ls, ⟨sru, gzu, only.cu, deKept_markChanged only.de⟩, only.nu⟩
    refine ⟨_, answer, pins, level, debounce, fun off => tracked (.inl off), fun driven trips => ?_,
      fun driven quiet => tracked (.inr ⟨driven, quiet⟩), fun shut => ?_, others, mp, wu⟩
    · obtain ⟨down, record, -⟩ := setTripLevel_shutDown (s := s.tripSeen l v) driven trips
      exact ⟨hasShutDown_markChanged down s, record⟩
    · obtain ⟨only, joins, sru, gzu⟩ := setTripLevel_joins (s.tripSeen l v) v shut
      exact ⟨joins, ⟨sru, gzu, only.cu, deKept_markChanged only.de⟩, only.nu⟩
  · have acts : s.completeDebounce l = s.setTripLevel l d.target := by simp only [State.completeDebounce, hd]
    have others := setTripLevel_others s l d.target
    have mp : (s.setTripLevel l d.target).mp = s.mp := by simp
    have wu : (s.setTripLevel l d.target).wu = s.wu := by simp
    have answer : exec (.tripDebounceComplete l) s = .next (s.markChanged (s.setTripLevel l d.target)) := by
      rw [← acts] at mp ⊢
      exact act_kept ha r (·.completeDebounce l) (by rw [mp])
    refine ⟨fun driven trips => ?_, fun shut => ?_, fun quiet => ?_⟩
    · obtain ⟨down, record, level, debounce⟩ := setTripLevel_shutDown driven trips
      exact ⟨_, answer, hasShutDown_markChanged down s, level, debounce, record, others, mp, wu⟩
    · obtain ⟨only, joins, sru, gzu⟩ := setTripLevel_joins s d.target shut
      exact ⟨_, answer, joins, onlySequencer_markChanged only sru gzu, others, only.nu, mp, wu⟩
    · have only := levelSeen_only s l d.target
      rw [setTripLevel_tracks quiet] at answer
      exact ⟨_, answer, levelSeen_ls s l d.target, onlySequencer_markChanged only (modLs_sru ..) (modLs_gzu ..), only.others,
        only.nu, only.mp, only.wu⟩

end Sys2Proof.Machine
end

