-- ==== Sys2Proof/Proofs/Samples.lean ====
section
/-! PROOF of O17. A frame at the SRU: its check, the frames missing before it, and the judgement of its samples (spec/02
R29 to R33, R36, R37). -/

namespace Sys2Proof.Machine
open Sys2Proof

variable {s t u v w : State} {l : LineId}

/-! ## What a frame leaves as it was -/

theorem deKept_comp (h : deKept s t) (h' : deKept t u) : deKept s u := by
  obtain ⟨de, faulted⟩ := h
  obtain ⟨de', faulted'⟩ := h'
  exact ⟨by rw [de', de], fun p => (faulted' p).trans (faulted p)⟩

/-- From `s` to `t` of line `l` at most the SRU differs, and nothing outside but notices and dirty marks. -/
structure SampleOnly (l : LineId) (s t : State) : Prop where
  ls : t.ls l = s.ls l
  gzu : t.gzu l = s.gzu l
  others : otherLinesKept l s t
  cu : t.cu = s.cu
  de : deKept s t
  mp : t.mp = s.mp
  wu : t.wu = s.wu

theorem sampleOnly_trans (h : SampleOnly l s t) (h' : SampleOnly l t u) : SampleOnly l s u :=
  ⟨h'.ls.trans h.ls, h'.gzu.trans h.gzu, otherLinesKept_trans h.others h'.others, h'.cu.trans h.cu, deKept_comp h.de h'.de,
    h'.mp.trans h.mp, h'.wu.trans h.wu⟩

theorem sampleOnly_modSru (l : LineId) (s : State) (f : Sru → Sru) : SampleOnly l s (s.modSru l f) :=
  ⟨modSru_ls .., modSru_gzu .., otherLinesKept_modLine s l _, rfl, deKept_eq rfl, rfl, rfl⟩

theorem sampleOnly_mark (s : State) (l : LineId) : SampleOnly l s (s.markLine l) :=
  ⟨rfl, rfl, fun _ _ => rfl, rfl, deKept_markPage _ (deKept_eq rfl), rfl, rfl⟩

theorem sampleOnly_raise (l : LineId) (s : State) (k : Kind) (src : Source) (d : Nat) : SampleOnly l s (s.raise k src d) :=
  ⟨by simp [State.ls], by simp [State.gzu], fun k _ => by simp, by simp, deKept_eq (by simp), by simp, by simp⟩

/-! ## Frames missing (R32) -/

theorem framesMissing_some : ∀ e seq : BitVec 4, framesMissing (some e) seq = (seq - e - 1).toNat := by decide

theorem missing_zero_iff : ∀ e seq : BitVec 4, (seq - e - 1).toNat = 0 ↔ seq = e + 1 := by decide

theorem satAdd_zero {m : Nat} (x : BitVec m) : satAdd x 0 = x := by
  apply BitVec.eq_of_toNat_eq
  rw [satAdd_toNat]
  have := x.isLt
  omega

theorem trackSequence_spec (s : State) (l : LineId) (seq : BitVec 4) :
    SampleOnly l s (s.trackSequence l seq) ∧ gapsCounted s (s.trackSequence l seq) l seq
      ∧ (s.trackSequence l seq).sru l = { s.sru l with
          expect := some seq, frameGaps := satAdd (s.sru l).frameGaps (framesMissing (s.sru l).expect seq) } := by
  have first := sampleOnly_modSru l s fun u =>
    { u with expect := some seq, frameGaps := satAdd u.frameGaps (framesMissing (s.sru l).expect seq) }
  have sru := modSru_sru s l fun u =>
    { u with expect := some seq, frameGaps := satAdd u.frameGaps (framesMissing (s.sru l).expect seq) }
  have kept : keepsRecords (fun _ => False) s (s.modSru l fun u =>
    { u with expect := some seq, frameGaps := satAdd u.frameGaps (framesMissing (s.sru l).expect seq) }) := keepsRecords_of rfl rfl
  have nu : (s.modSru l fun u =>
    { u with expect := some seq, frameGaps := satAdd u.frameGaps (framesMissing (s.sru l).expect seq) }).nu = s.nu := rfl
  simp only [State.trackSequence]
  generalize (s.modSru l fun u =>
    { u with expect := some seq, frameGaps := satAdd u.frameGaps (framesMissing (s.sru l).expect seq) }) = v at *
  by_cases zero : framesMissing (s.sru l).expect seq = 0
  · rw [if_pos zero]
    refine ⟨first, ⟨fun start => ⟨?_, nu⟩, fun e he => ⟨?_, fun _ => nu, fun away => ?_⟩⟩, sru⟩
    · rw [sru, zero, satAdd_zero]
    · rw [sru, he, framesMissing_some]
    · rw [he, framesMissing_some, missing_zero_iff] at zero
      exact absurd zero away
  · rw [if_neg zero]
    have sru' : ((v.raise .frameGap (.line l) (framesMissing (s.sru l).expect seq)).markLine l).sru l = v.sru l := by
      simp [State.sru]
    have told : raisedIn s ((v.raise .frameGap (.line l) (framesMissing (s.sru l).expect seq)).markLine l) .frameGap (.line l)
        (BitVec.ofNat 16 (framesMissing (s.sru l).expect seq)) :=
      raisedIn_of (p := fun _ => False) (keepsRecords_mono (fun _ h => h.elim) kept) rfl (keepsRecords_of rfl rfl) id rfl
    have dirty : isDirty ((v.raise .frameGap (.line l) (framesMissing (s.sru l).expect seq)).markLine l) (linePage l) :=
      markPage_isDirty _ _
    refine ⟨sampleOnly_trans first (sampleOnly_trans (sampleOnly_raise l v _ _ _) (sampleOnly_mark _ l)),
      ⟨fun start => ?_, fun e he => ⟨?_, fun next => ?_, fun _ => ⟨?_, dirty⟩⟩⟩, sru'.trans sru⟩
    · rw [start] at zero
      exact absurd rfl zero
    · rw [sru', sru, he, framesMissing_some]
    · rw [he, framesMissing_some, missing_zero_iff] at zero
      exact absurd next zero
    · have detail : BitVec.ofNat 16 (framesMissing (s.sru l).expect seq) = (seq - e - 1).setWidth 16 := by
        rw [he, framesMissing_some]
        apply BitVec.eq_of_toNat_eq
        simp
      rw [← detail]
      exact told

/-! ## The window that is open (R35, R36, R37) -/

theorem windowOpen_iff (w : WindowAcc) : w.open = true ↔ w.muted = false ∧ ∀ k : Fin 6, w.bands[k].seen < 65535 := by
  simp [WindowAcc.open, Vector.all_eq_true, Fin.forall_iff]

/-- The judgement of the samples of a frame by the open window (R36, R37). -/
def judgedSru (p : Option Phase) (c : CycleParams) (f : Frame) (u : Sru) : Sru :=
  if p = some .pWindow then { u with accP := u.accP.take c.spikeLimit f } else { u with accN := u.accN.take c.spikeLimit f }

theorem accumulate_open {c : CycleParams} (h : accumulates s l) (hc : (s.sru l).params = some c) (f : Frame) :
    s.accumulate l f = s.modSru l (judgedSru (s.ls l).phase c f) := by
  obtain ⟨state, phase, muted, seen⟩ := h
  have isOpen := (windowOpen_iff _).mpr ⟨muted, seen⟩
  rcases phase with phase | phase
  · simp only [openWindow, phase, if_true] at isOpen
    rcases state with state | state <;> simp only [State.accumulate, state, phase, hc, isOpen, if_true] <;> rfl
  · simp only [openWindow, phase] at isOpen
    rcases state with state | state <;> simp only [State.accumulate, state, phase, hc] <;> exact if_pos isOpen

/-- Where no window accumulates, the window of the phase is closed. -/
theorem window_closed (h : ¬accumulates s l) (state : (s.ls l).state = .running ∨ (s.ls l).state = .stopping)
    (phase : (s.ls l).phase = some .pWindow ∨ (s.ls l).phase = some .nWindow) : ¬(openWindow s s l).open = true := fun e =>
  h ⟨state, phase, (windowOpen_iff _).mp e⟩

theorem accumulate_closed (h : ¬accumulates s l) (f : Frame) : s.accumulate l f = s := by
  have closedP (state : (s.ls l).state = .running ∨ (s.ls l).state = .stopping) (phase : (s.ls l).phase = some .pWindow) :
      ¬(s.sru l).accP.open = true := by
    have := window_closed h state (.inl phase)
    rwa [openWindow, if_pos phase] at this
  have closedN (state : (s.ls l).state = .running ∨ (s.ls l).state = .stopping) (phase : (s.ls l).phase = some .nWindow) :
      ¬(s.sru l).accN.open = true := by
    have := window_closed h state (.inr phase)
    rwa [openWindow, phase, if_neg (by decide)] at this
  simp only [State.accumulate]
  split
  case h_1 state phase params => exact if_neg (closedP (.inl state) phase)
  case h_2 state phase params => exact if_neg (closedP (.inr state) phase)
  case h_3 state phase params => exact if_neg (closedN (.inl state) phase)
  case h_4 state phase params => exact if_neg (closedN (.inr state) phase)
  case h_5 => rfl

theorem judge_spec (a : Accum) (limit : Nat) (overrange : Bool) (x : Int) :
    let b := a.judge limit overrange x
    let far := ((limit * a.accepted : Nat) : Int) < ((x * a.accepted - a.sum).natAbs : Int)
    b.seen = a.seen + 1
      ∧ ((overrange = true ∨ (8 ≤ a.accepted ∧ far)) → b.rejected = a.rejected + 1 ∧ b.accepted = a.accepted ∧ b.sum = a.sum)
      ∧ ((overrange = false ∧ (a.accepted < 8 ∨ ¬far)) →
          b.rejected = a.rejected ∧ b.accepted = a.accepted + 1 ∧ b.sum = a.sum + x) := by
  intro b far
  cases overrange with
  | true => exact ⟨rfl, fun _ => ⟨rfl, rfl, rfl⟩, fun h => by cases h.1⟩
  | false =>
    by_cases few : a.accepted < 8
    · have judged : b = a.accept x := by simp [b, Accum.judge, few]
      rw [judged]
      refine ⟨rfl, fun h => ?_, fun _ => ⟨rfl, rfl, rfl⟩⟩
      rcases h with h | ⟨h, -⟩
      · cases h
      · omega
    · have spike : isSpike limit a x = true ↔ far := by simp only [isSpike, decide_eq_true_eq, far]
      by_cases isFar : far
      · have judged : b = a.reject := by simp [b, Accum.judge, few, spike.mpr isFar]
        rw [judged]
        exact ⟨rfl, fun _ => ⟨rfl, rfl, rfl⟩, fun h => absurd isFar (h.2.resolve_left few)⟩
      · have judged : b = a.accept x := by
          have near : isSpike limit a x = false := Bool.eq_false_iff.mpr fun h => isFar (spike.mp h)
          simp [b, Accum.judge, few, near]
        rw [judged]
        refine ⟨rfl, fun h => ?_, fun _ => ⟨rfl, rfl, rfl⟩⟩
        rcases h with h | ⟨-, h⟩
        · cases h
        · exact absurd h isFar

/-! ## Frame arrival (R29, R30, R33) -/

theorem frameEnds_waiting {bits : List Bool} (h : (s.sru l).rx = .waitIdle) : s.frameEnds l bits = s.receiverIdle l := by
  simp only [State.frameEnds, h]

theorem frameEnds_taken {bits : List Bool} (h : (s.sru l).rx ≠ .waitIdle) : s.frameEnds l bits
    = (s.receiverIdle l).takeFrame l (frameBits (s.sru l) bits).1 (frameBits (s.sru l) bits).2 := by
  simp only [State.frameEnds, frameBits]
  cases hx : (s.sru l).rx with
  | waitIdle => exact absurd hx h
  | idle => simp
  | receiving => simp

/-- The receiver is IDLE, and nothing else of the line has moved. -/
theorem receiverIdle_spec (s : State) (l : LineId) :
    SampleOnly l s (s.receiverIdle l) ∧ (s.receiverIdle l).sru l = { s.sru l with rx := .idle, rxBits := [], rxCount := 0 }
      ∧ (s.receiverIdle l).nu = s.nu := ⟨sampleOnly_modSru l s _, modSru_sru .., rfl⟩

theorem frameHeard_spec (s : State) (l : LineId) :
    SampleOnly l s (s.frameHeard l) ∧ (s.frameHeard l).nu = s.nu
      ∧ ((s.ls l).state.driven = true → (s.frameHeard l).sru l = { s.sru l with silence := some 0, episode := false })
      ∧ ((s.ls l).state.driven = false → s.frameHeard l = s) := by
  simp only [State.frameHeard]
  split
  next driven =>
    exact ⟨sampleOnly_modSru l s _, rfl, fun _ => modSru_sru .., fun h => by rw [driven] at h; cases h⟩
  next notDriven =>
    exact ⟨⟨rfl, rfl, fun _ _ => rfl, rfl, deKept_eq rfl, rfl, rfl⟩, rfl, fun h => absurd h notDriven, fun _ => rfl⟩

theorem gapsCounted_of {seq : BitVec 4} (expect : (u.sru l).expect = (s.sru l).expect)
    (gaps : (u.sru l).frameGaps = (s.sru l).frameGaps) (cu : u.cu = s.cu) (nu : u.nu = s.nu)
    (gaps' : (t.sru l).frameGaps = (v.sru l).frameGaps) (nu' : t.nu = v.nu) (pages : keepsDirty v t)
    (h : gapsCounted u v l seq) : gapsCounted s t l seq := by
  have level (k : Kind) : u.levelOf k = s.levelOf k := by simp only [State.levelOf, State.liveDelivery, cu]
  simp only [gapsCounted, expect, gaps, nu, raisedIn, level] at h
  obtain ⟨start, next⟩ := h
  simp only [gapsCounted, gaps', nu', raisedIn]
  refine ⟨start, fun e he => ?_⟩
  obtain ⟨count, same, away⟩ := next e he
  exact ⟨count, same, fun h => ⟨(away h).1, pages _ (away h).2⟩⟩

/-- A good frame before its samples are judged: the expectation follows, and on a driven line the silence timer starts
again. -/
theorem frame_tracked (s : State) (l : LineId) (seq : BitVec 4) :
    let v := ((s.receiverIdle l).trackSequence l seq).frameHeard l
    SampleOnly l s v ∧ gapsCounted s v l seq
      ∧ v.sru l = { s.sru l with
          rx := .idle, rxBits := [], rxCount := 0, expect := some seq, frameGaps := (v.sru l).frameGaps
          silence := if (s.ls l).state.driven = true then some 0 else (s.sru l).silence
          episode := if (s.ls l).state.driven = true then false else (s.sru l).episode } := by
  obtain ⟨idle, sru, nu⟩ := receiverIdle_spec s l
  generalize s.receiverIdle l = a at *
  obtain ⟨track, gaps, sru'⟩ := trackSequence_spec a l seq
  generalize a.trackSequence l seq = b at *
  obtain ⟨heard, nu', driven, rest⟩ := frameHeard_spec b l
  have bLs : b.ls l = s.ls l := track.ls.trans idle.ls
  rw [bLs] at driven rest
  have pages : keepsDirty b (b.frameHeard l) := keepsDirty_de (by simp)
  intro v
  have gaps' : ((b.frameHeard l).sru l).frameGaps = (b.sru l).frameGaps := by
    cases hd : (s.ls l).state.driven with
    | true => rw [driven hd]
    | false => rw [rest hd]
  refine ⟨sampleOnly_trans idle (sampleOnly_trans track heard),
    gapsCounted_of (by rw [sru]) (by rw [sru]) idle.cu nu gaps' nu' pages gaps, ?_⟩
  cases hd : (s.ls l).state.driven with
  | true =>
    simp only [v]
    rw [driven hd, sru', sru]
    simp
  | false =>
    simp only [v]
    rw [rest hd, sru', sru]
    simp

theorem accumulates_iff (ls : v.ls l = s.ls l) (accP : (v.sru l).accP = (s.sru l).accP)
    (accN : (v.sru l).accN = (s.sru l).accN) : accumulates v l ↔ accumulates s l := by
  simp only [accumulates, openWindow, ls, accP, accN]

theorem gapsCounted_markChanged {seq : BitVec 4} (h : gapsCounted s v l seq) : gapsCounted s (s.markChanged v) l seq :=
  gapsCounted_of (u := s) (v := v) rfl rfl rfl rfl rfl rfl (fun _ => markChanged_isDirty) h

/-- The accumulators of the open window after the judgement. -/
theorem judgedSru_spec (phase : Option Phase) (c : CycleParams) (f : Frame) (u : Sru) :
    judgedSru phase c f u = { u with accP := (judgedSru phase c f u).accP, accN := (judgedSru phase c f u).accN }
      ∧ (phase = some .pWindow → (judgedSru phase c f u).accN = u.accN
          ∧ (judgedSru phase c f u).accP = u.accP.take c.spikeLimit f)
      ∧ (phase ≠ some .pWindow → (judgedSru phase c f u).accP = u.accP
          ∧ (judgedSru phase c f u).accN = u.accN.take c.spikeLimit f) := by
  simp only [judgedSru]
  split
  next h => exact ⟨rfl, fun _ => ⟨rfl, rfl⟩, fun h' => absurd h h'⟩
  next h => exact ⟨rfl, fun h' => absurd h' h, fun _ => ⟨rfl, rfl⟩⟩

theorem driven_of_accumulates (h : accumulates s l) : (s.ls l).state.driven = true := by
  rcases h.1 with e | e <;> rw [e] <;> rfl

/-- Settles O17: the check, the receiver, the frames missing, and the judgement in the open window. -/
theorem frameArrivalIsJudged : Obligations.FrameArrivalIsJudged := by
  have answer {s v : State} {l : LineId} {bits : List Bool} (ha : awake s) (r : atRest s) (acts : s.frameEnds l bits = v)
      (mp : v.mp = s.mp) : exec (.frameArrival l bits) s = .next (s.markChanged v) := by
    subst acts
    exact act_kept ha r (·.frameEnds l bits) (by rw [mp])
  refine ⟨fun bits count h => goodFrame_length h, fun bits f h => goodFrame_iff h f, fun l bits s ha r => ⟨fun waits => ?_,
    fun takes bad => ?_⟩, fun l bits s f ha r takes good => ⟨fun c acc hc => ?_, fun closed => ?_⟩⟩
  · obtain ⟨only, sru, nu⟩ := receiverIdle_spec s l
    exact ⟨_, answer ha r (frameEnds_waiting waits) only.mp, sru, only.ls, only.gzu, only.others, only.cu, deKept_of only.de,
      nu, only.mp, only.wu⟩
  · have acts : s.frameEnds l bits = (s.receiverIdle l).frameError l := by rw [frameEnds_taken takes, State.takeFrame, bad]
    obtain ⟨idle, sru, nu⟩ := receiverIdle_spec s l
    generalize s.receiverIdle l = a at *
    have only : SampleOnly l s (a.frameError l) :=
      sampleOnly_trans idle (sampleOnly_trans (sampleOnly_modSru l a _) (sampleOnly_mark _ l))
    have dirty : isDirty (a.frameError l) (linePage l) := markPage_isDirty _ _
    have sru' : (a.frameError l).sru l = { a.sru l with frameErrors := satInc (a.sru l).frameErrors } := by
      simp [State.frameError, State.sru]
    refine ⟨_, answer ha r acts only.mp, ?_, markChanged_isDirty dirty, only.ls, only.gzu, only.others, only.cu, deKept_of only.de,
      nu, only.mp, only.wu⟩
    rw [markChanged_sru, sru', sru]
  · have acts : s.frameEnds l bits
        = (((s.receiverIdle l).trackSequence l f.seq).frameHeard l).accumulate l f := by
      rw [frameEnds_taken takes, State.takeFrame, good]
    obtain ⟨only, gaps, sru⟩ := frame_tracked s l f.seq
    generalize ((s.receiverIdle l).trackSequence l f.seq).frameHeard l = v at *
    rw [if_pos (driven_of_accumulates acc), if_pos (driven_of_accumulates acc)] at sru
    have accP : (v.sru l).accP = (s.sru l).accP := by rw [sru]
    have accN : (v.sru l).accN = (s.sru l).accN := by rw [sru]
    have accV := (accumulates_iff only.ls accP accN).mpr acc
    have params : (v.sru l).params = some c := by rw [sru]; exact hc
    rw [accumulate_open accV params f, only.ls] at acts
    obtain ⟨-, phase, muted, -⟩ := acc
    have only' := sampleOnly_trans only (sampleOnly_modSru l v (judgedSru (s.ls l).phase c f))
    have sru' := modSru_sru v l (judgedSru (s.ls l).phase c f)
    have gaps' : gapsCounted s (v.modSru l (judgedSru (s.ls l).phase c f)) l f.seq := by
      refine gapsCounted_of (u := s) (v := v) rfl rfl rfl rfl ?_ rfl (keepsDirty_de rfl) gaps
      rw [sru', (judgedSru_spec _ c f _).1]
    generalize v.modSru l (judgedSru (s.ls l).phase c f) = t at *
    obtain ⟨rest, inP, inN⟩ := judgedSru_spec (s.ls l).phase c f (v.sru l)
    rw [accP, accN] at inP inN
    have window : openWindow s t l = (openWindow s s l).take c.spikeLimit f := by
      simp only [openWindow, sru']
      split
      next h => exact (inP h).2
      next h => exact (inN h).2
    refine ⟨_, answer ha r acts only'.mp, gapsCounted_markChanged gaps', ?_, fun h => ?_, fun h => ?_, ?_, fun k => ?_, only'.ls,
      only'.gzu, only'.others, only'.cu, deKept_of only'.de, only'.mp, only'.wu⟩
    · rw [markChanged_sru, sru', rest, sru]
    · rw [markChanged_sru, sru']
      exact (inP h).1
    · rw [markChanged_sru, sru']
      exact (inN (by rw [h]; decide)).1
    · exact (congrArg WindowAcc.muted window).trans muted
    · have band : (openWindow s t l).bands[k] = (openWindow s s l).bands[k].judge c.spikeLimit f.overrange[k] f.samples[k] := by
        rw [window]
        simp [WindowAcc.take]
      have judged := judge_spec (openWindow s s l).bands[k] c.spikeLimit f.overrange[k] f.samples[k]
      rw [← band] at judged
      exact judged
  · have acts : s.frameEnds l bits
        = (((s.receiverIdle l).trackSequence l f.seq).frameHeard l).accumulate l f := by
      rw [frameEnds_taken takes, State.takeFrame, good]
    obtain ⟨only, gaps, sru⟩ := frame_tracked s l f.seq
    generalize ((s.receiverIdle l).trackSequence l f.seq).frameHeard l = v at *
    have accP : (v.sru l).accP = (s.sru l).accP := by rw [sru]
    have accN : (v.sru l).accN = (s.sru l).accN := by rw [sru]
    rw [accumulate_closed (fun h => closed ((accumulates_iff only.ls accP accN).mp h)) f] at acts
    refine ⟨_, answer ha r acts only.mp, gapsCounted_markChanged gaps, ?_, fun driven => ?_, fun idle => ?_, only.ls, only.gzu,
      only.others, only.cu, deKept_of only.de, only.mp, only.wu⟩
    · rw [markChanged_sru, sru]
    · rw [markChanged_sru, sru, driven]
      exact ⟨rfl, rfl⟩
    · rw [markChanged_sru, sru, idle]
      exact ⟨rfl, rfl⟩

end Sys2Proof.Machine
end

