-- ==== Sys2Proof/Proofs/Commands.lean ====
section
/-! PROOF of O26. The completion of a command word: what is answered, and what a refused command leaves (spec/08 R148,
R150). -/

namespace Sys2Proof.Machine
open Sys2Proof

variable {s t u v w : State} {l : LineId} {tag code operand : Byte} {rep : Reply}

/-! ## The command row -/

/-- The state after a command has been answered, the command itself having made `v` of `s`. -/
def State.replied (s v : State) (tag code : Byte) (rep : Reply) : State :=
  s.markChanged (((v.setRecord tag code rep).freePort).completeUp false none)

/-- A command on the port is a host access that is kept. -/
theorem commandOnPort_spec (h : s.commandOnPort tag code operand = true) :
    (∃ a, s.mp.port = .host true a)
      ∧ s.commandStep tag code operand = ((s.takeCommand tag code operand).freePort).completeUp false none := by
  rw [State.commandStep, if_pos h]
  simp only [State.commandOnPort] at h
  split at h
  next a r port request =>
    simp only [Bool.and_eq_true, beq_iff_eq] at h
    obtain ⟨⟨⟨⟨⟨⟨stage, write⟩, target⟩, full⟩, rfl⟩, rfl⟩, rfl⟩ := h
    refine ⟨⟨a, port⟩, ?_⟩
    simp [State.completeHost, port, request, stage, write, State.handOver, target, State.takeCommandWrite, full]
  next => cases h

/-- A row that is the completion of a command word answers it, and hands the port on. -/
theorem command_replies {c : Instr} (row : exec c s = s.act (·.commandStep tag code operand)) (ha : awake s) (r : atRest s)
    (h : s.commandOnPort tag code operand = true) (took : s.takeCommand tag code operand = v.setRecord tag code rep) :
    ∃ t', exec c s = .next t' ∧ handsOn (s.replied v tag code rep) t' := by
  obtain ⟨⟨a, port⟩, acts⟩ := commandOnPort_spec h
  rw [took] at acts
  obtain ⟨t', answer, hands⟩ := act_handsOn ha r.1 (·.commandStep tag code operand) port (by rw [acts]; rfl)
  rw [acts] at hands
  exact ⟨t', row.trans answer, hands⟩

/-- What the last-command record, the command status and the port are then. -/
theorem replied_answers (mp : v.mp = s.mp) (taken : v.cu.record.taken = s.cu.record.taken) :
    answers s (s.replied v tag code rep) tag code rep.result rep.detail rep.owner := by
  have dirty : isDirty (((v.setRecord tag code rep).freePort).completeUp false none) partPage := markPage_isDirty _ _
  refine ⟨?_, rfl, rfl, markChanged_isDirty dirty, ?_⟩
  · rw [← taken]
    rfl
  · rw [← mp]
    rfl

theorem replied_cu (s v : State) (tag code : Byte) (rep : Reply) : (s.replied v tag code rep).cu
    = { v.cu with record := (s.replied v tag code rep).cu.record, owner := rep.owner } := rfl

/-- Of the DE the answer itself touches dirty marks alone. -/
theorem replied_deKept (v : State) : deKeptButStatus v (s.replied v tag code rep) := by
  refine ⟨rfl, fun p => ?_⟩
  simp [State.replied, State.page, State.completeUp, State.freePort]

theorem replied_deKeptButStatus (h : deKeptButStatus s v) : deKeptButStatus s (s.replied v tag code rep) :=
  deKeptButStatus_trans h (replied_deKept v)

theorem replied_cuKept (h : v.cu = s.cu) : cuKeptButRecord s (s.replied v tag code rep) := by
  rw [cuKeptButRecord, ← h]
  rfl

/-- A command that changes nothing of the part has its answer alone. -/
theorem replied_onlyAnswered (s : State) (tag code : Byte) (rep : Reply) : onlyAnswered s (s.replied s tag code rep) :=
  ⟨rfl, replied_cuKept rfl, replied_deKeptButStatus (deKeptButStatus_refl s), rfl, rfl, rfl, rfl, rfl, rfl⟩

/-! ## Refusals (R148, R150) -/

theorem takeCommand_refused (h : s.refusal code operand = some rep) :
    s.takeCommand tag code operand = s.setRecord tag code rep := by
  simp only [State.takeCommand, h]

theorem takeCommand_runs (h : s.refusal code operand = none) : s.takeCommand tag code operand
    = (s.runCommand tag code operand).1.setRecord tag code (s.runCommand tag code operand).2 := by
  simp only [State.takeCommand, h]

/-- A refused command is answered, and only that. -/
theorem refused_answers {c : Instr} (row : exec c s = s.act (·.commandStep tag code operand)) (ha : awake s) (r : atRest s)
    (h : s.commandOnPort tag code operand = true) (took : s.takeCommand tag code operand = s.setRecord tag code rep) :
    ∃ t t', exec c s = .next t' ∧ handsOn t t' ∧ answers s t tag code rep.result rep.detail rep.owner ∧ onlyAnswered s t := by
  obtain ⟨t', answer, hands⟩ := command_replies row ha r h took
  exact ⟨_, t', answer, hands, replied_answers rfl rfl, replied_onlyAnswered s tag code rep⟩

theorem knownCode_iff (code : Byte) : knownCode code = true ↔ 1 ≤ code.toNat ∧ code.toNat ≤ 11 := by
  simp [knownCode]

/-- Each row of the command table is the completion of a command word with its code. -/
theorem exec_commandRow (tag code operand : Byte) (s : State) :
    exec (commandRow tag code operand) s = s.act (·.commandStep tag code operand) := by
  have is (n : Nat) (h : code.toNat = n) (small : n < 256) : code = BitVec.ofNat 8 n :=
    BitVec.eq_of_toNat_eq (by rw [h, BitVec.toNat_ofNat, Nat.mod_eq_of_lt small])
  simp only [commandRow]
  split
  case h_1 h => obtain rfl := is 1 h (by decide); rfl
  case h_2 h => obtain rfl := is 2 h (by decide); rfl
  case h_3 h => obtain rfl := is 3 h (by decide); rfl
  case h_4 h => obtain rfl := is 4 h (by decide); rfl
  case h_5 h => obtain rfl := is 5 h (by decide); rfl
  case h_6 h => obtain rfl := is 6 h (by decide); rfl
  case h_7 h => obtain rfl := is 7 h (by decide); rfl
  case h_8 h => obtain rfl := is 8 h (by decide); rfl
  case h_9 h => obtain rfl := is 9 h (by decide); rfl
  case h_10 h => obtain rfl := is 10 h (by decide); rfl
  case h_11 h => obtain rfl := is 11 h (by decide); rfl
  case h_12 n1 n2 n3 n4 n5 n6 n7 n8 n9 n10 n11 =>
    have unknown : knownCode code = false := by
      rw [Bool.eq_false_iff, ne_eq, knownCode_iff]
      rintro ⟨low, high⟩
      generalize code.toNat = n at *
      have listed : n = 1 ∨ n = 2 ∨ n = 3 ∨ n = 4 ∨ n = 5 ∨ n = 6 ∨ n = 7 ∨ n = 8 ∨ n = 9 ∨ n = 10 ∨ n = 11 := by omega
      rcases listed with h | h | h | h | h | h | h | h | h | h | h <;> contradiction
    have acts : effectOf (.unknownCommand tag code operand) = (·.commandStep tag code operand) := by
      funext u
      simp [effectOf, unknown]
    rw [← acts]
    rfl

theorem refusal_known (idle : s.cu.state = .idle) (known : knownCode code = true) : s.refusal code operand =
    if operandOut code operand then some (reply .refusedRange 0)
    else if touchesCalibration code operand && s.cu.frozen then some (reply .refusedFrozen 0) else none := by
  simp [State.refusal, idle, known]

theorem operandOut_of (h : operandRefused code operand) : knownCode code = true ∧ operandOut code operand = true := by
  simp only [knownCode_iff, operandOut]
  rcases h with ⟨five, big⟩ | ⟨which, big⟩
  · simp [five, big]
  · have five : code.toNat ≠ 5 := by omega
    have others : ¬(code.toNat = 3 ∨ code.toNat = 4 ∨ code.toNat = 11) := by omega
    simp only [five, others, if_false, decide_eq_true_eq]
    omega

theorem takePartial_eq (s : State) (be : BitVec 4) (data : Word) : s.takePartial be data
    = s.setRecord (if be.getLsbD 0 = true then wordByte data 0 else 0) (if be.getLsbD 1 = true then wordByte data 1 else 0)
        (reply .refusedUnknown 0x0100) := rfl

/-- A write on the port is a host access that is kept; the request in hand is that write. -/
theorem writeOnPort_spec {target : CaptureTarget} {be : BitVec 4} {data : Word} (h : s.writeOnPort target be data = true) :
    ∃ a r, s.mp.port = .host true a ∧ s.mp.request = some r ∧ r.stage = .onPort ∧ r.access.write = true ∧ r.target = target
      ∧ r.access.be = be ∧ r.access.data = data := by
  simp only [State.writeOnPort] at h
  split at h
  next a r port request =>
    simp only [Bool.and_eq_true, beq_iff_eq] at h
    obtain ⟨⟨⟨⟨stage, write⟩, target⟩, be⟩, data⟩ := h
    exact ⟨a, r, port, request, stage, write, target, be, data⟩
  next => cases h

/-- A write that ends with OK: its block takes it, and its completion goes upstream. -/
theorem completeHost_write {a : Access} {r : Request} (port : s.mp.port = .host true a) (request : s.mp.request = some r)
    (stage : r.stage = .onPort) (write : r.access.write = true) (data : Word) :
    s.completeHost false data = ((s.handOver r).freePort).completeUp false none := by
  simp [State.completeHost, port, request, stage, write]

/-- Settles O26: the checks of R148 in order, and the partial write. -/
theorem refusedCommandChangesRecordOnly : Obligations.RefusedCommandChangesRecordOnly := by
  refine ⟨fun tag code operand s ha r h busy => ?_, fun tag code operand s h unknown => ?_,
    fun tag code operand s h out => ?_, fun tag code operand s h frozen cal => ?_, fun be data s ha r partialBe h => ?_⟩
  · exact refused_answers (rep := reply .refusedBusy s.cu.state.code) (exec_commandRow ..) ha r h
      (takeCommand_refused (if_pos busy))
  · obtain ⟨ha, r, h, idle⟩ := h
    have notKnown : knownCode code = false := by
      rw [Bool.eq_false_iff, ne_eq, knownCode_iff]
      omega
    exact refused_answers (rep := reply .refusedUnknown code.toNat) (exec_commandRow ..) ha r h
      (takeCommand_refused (by simp [State.refusal, idle, notKnown]))
  · obtain ⟨ha, r, h, idle⟩ := h
    obtain ⟨known, range⟩ := operandOut_of out
    exact refused_answers (rep := reply .refusedRange 0) (exec_commandRow ..) ha r h
      (takeCommand_refused (by rw [refusal_known idle known, if_pos range]))
  · obtain ⟨ha, r, h, idle⟩ := h
    have known : knownCode code = true := by
      rw [knownCode_iff]
      omega
    have range : ¬operandOut code operand = true := by
      simp only [operandOut]
      rcases cal with ⟨which, small⟩ | ⟨five, -, small⟩
      · have five : code.toNat ≠ 5 := by omega
        have others : ¬(code.toNat = 3 ∨ code.toNat = 4 ∨ code.toNat = 11) := by omega
        simp only [five, others, if_false, decide_eq_true_eq]
        omega
      · simp only [five, if_true, decide_eq_true_eq]
        omega
    have touches : touchesCalibration code operand = true := by
      simp only [touchesCalibration, Bool.or_eq_true, Bool.and_eq_true, beq_iff_eq, decide_eq_true_eq]
      omega
    refine refused_answers (rep := reply .refusedFrozen 0) (exec_commandRow ..) ha r h (takeCommand_refused ?_)
    rw [refusal_known idle known, if_neg range, touches, frozen]
    rfl
  · obtain ⟨a, q, port, request, stage, write, target, rfl, rfl⟩ := writeOnPort_spec h
    have notFull : fullWord q.access.be = false := by
      simpa [fullWord] using partialBe
    have acts : s.partialStep q.access.be q.access.data = ((s.takePartial q.access.be q.access.data).freePort).completeUp false none := by
      rw [State.partialStep, if_pos ⟨h, by rw [notFull]; rfl⟩, completeHost_write port request stage write, State.handOver,
        target]
      simp [State.takeCommandWrite, notFull]
    obtain ⟨t', answer, hands⟩ := act_handsOn ha r.1 (·.partialStep q.access.be q.access.data) port (by rw [acts]; rfl)
    rw [acts, takePartial_eq] at hands
    exact ⟨_, t', answer, hands, replied_answers (v := s) rfl rfl, replied_onlyAnswered s _ _ _⟩

end Sys2Proof.Machine
end

