-- ==== Sys2Proof/Proofs/LineCommands.lean ====
section
/-! PROOF of O32 to O36. The commands that name a line: START, STOP, HALT, RESTART, CLEAR_TOTAL (spec/01 R21 to R24,
spec/02 R49). -/

namespace Sys2Proof.Machine
open Sys2Proof

variable {s t u v w : State} {l : LineId} {tag code operand : Byte} {rep : Reply}

/-! ## A command past the checks of R148 -/

/-- The command passes the checks of R148. -/
def notRefused (s : State) (code operand : Byte) : Prop :=
  knownCode code = true ∧ operandOut code operand = false ∧ (touchesCalibration code operand && s.cu.frozen) = false

theorem refusal_none (idle : s.cu.state = .idle) (h : notRefused s code operand) : s.refusal code operand = none := by
  obtain ⟨known, range, frozen⟩ := h
  rw [refusal_known idle known, range, frozen]
  rfl

/-- A command past the checks is answered with its own reply, after what it has done. -/
theorem accepted_replies {c : Instr} (row : exec c s = s.act (·.commandStep tag code operand))
    (ready : commandReady s tag code operand) (pass : notRefused s code operand)
    (ran : s.runCommand tag code operand = (v, rep)) (mp : v.mp = s.mp) (taken : v.cu.record.taken = s.cu.record.taken) :
    ∃ t', exec c s = .next t' ∧ handsOn (s.replied v tag code rep) t'
      ∧ answers s (s.replied v tag code rep) tag code rep.result rep.detail rep.owner := by
  obtain ⟨ha, r, onPort, idle⟩ := ready
  have took : s.takeCommand tag code operand = v.setRecord tag code rep := by
    rw [takeCommand_runs (refusal_none idle pass), ran]
  obtain ⟨t', answer, hands⟩ := command_replies row ha r onPort took
  exact ⟨t', answer, hands, replied_answers mp taken⟩

theorem operandLine_eq (h : operand.toNat = l.val) : operandLine operand = l := by
  rw [operandLine, h]
  exact Fin.ofNat_val_eq_self l

theorem operandOut_line (h : operand.toNat = l.val) (known : code.toNat ≠ 5) : operandOut code operand = false := by
  have := l.isLt
  simp only [operandOut, if_neg known]
  split
  · rfl
  · simp only [decide_eq_false_iff_not]
    omega

theorem touches_line {c : Nat} (h : code.toNat = c) (no : c ≠ 2 ∧ c ≠ 10 ∧ c ≠ 5) : touchesCalibration code operand = false := by
  simp [touchesCalibration, h, no]

/-- START, STOP, HALT and RESTART of a line pass the checks. -/
theorem lineCommand_notRefused (s : State) (h : operand.toNat = l.val) (line : 6 ≤ code.toNat ∧ code.toNat ≤ 9) :
    notRefused s code operand :=
  ⟨by rw [knownCode_iff]; omega, operandOut_line h (by omega), by rw [touches_line rfl (by omega)]; rfl⟩

/-! ## What was so before the answer is so after it -/

theorem deKept_butStatus (h : deKept s t) : deKeptButStatus s t := by
  obtain ⟨de, faulted⟩ := h
  exact ⟨by rw [de], faulted⟩

theorem isDirty_markPage {p : PageId} (h : isDirty v p) (q : PageId) : isDirty (v.markPage q) p := by
  by_cases same : p = q
  · rw [same]
    exact markPage_isDirty v q
  · rw [isDirty, State.markPage, modPage_other _ _ _ _ same]
    exact h

/-- The answer keeps every page marked. -/
theorem replied_isDirty {p : PageId} (h : isDirty v p) : isDirty (s.replied v tag code rep) p := by
  have marked : isDirty (v.setRecord tag code rep) p := isDirty_markPage (v := (v.modCu _).markStatus) h partPage
  exact markChanged_isDirty marked

theorem transferred_replied (h : transferred s v l) : transferred s (s.replied v tag code rep) l := by
  obtain ⟨line, noLine, cal, noCal, none, stagedLine, stagedCal, others, cu⟩ := h
  refine ⟨line, noLine, cal, noCal, none, stagedLine, stagedCal, others, ?_⟩
  rw [replied_cu]
  generalize v.cu = c at *
  rw [cu]

theorem hasPrimed_replied (h : hasPrimed s v l) : hasPrimed s (s.replied v tag code rep) l := by
  obtain ⟨state, ⟨phase, timer, bridge, lengths, params, moved⟩, rest⟩ := h
  exact ⟨state, ⟨phase, timer, bridge, lengths, params, transferred_replied moved⟩, rest⟩

theorem shutDownFrom_replied {q : Sequencer} {c : Cause} (h : shutDownFrom q s v l c) :
    shutDownFrom q s (s.replied v tag code rep) l c := by
  obtain ⟨ls, down, limit, accP, accN, halves, silence, episode, copy, moved⟩ := h
  exact ⟨ls, down, limit, accP, accN, halves, silence, episode, copy, transferred_replied moved⟩

theorem shutAtPriming_replied {q : Sequencer} (h : shutAtPriming q s v l) : shutAtPriming q s (s.replied v tag code rep) l := by
  obtain ⟨⟨params, trip, c, holds, down⟩, rest⟩ := h
  exact ⟨⟨params, trip, c, holds, shutDownFrom_replied down⟩, rest⟩

theorem hasShutDown_replied {c : Cause} (h : hasShutDown s v l c) : hasShutDown s (s.replied v tag code rep) l c := by
  obtain ⟨down, sru, gzu, zones, de⟩ := h
  exact ⟨shutDownFrom_replied down, sru, gzu, zones, replied_deKeptButStatus de⟩

theorem recordFollows_taken (h : recordFollows s v l) : v.cu.record.taken = s.cu.record.taken := by
  obtain ⟨applied, kept⟩ := h
  by_cases moved : ((s.copies l).pendingLine ≠ none ∧ s.cu.owner = .pendingLine l)
      ∨ ((s.copies l).pendingCal ≠ none ∧ s.cu.owner = .pendingCal l)
  · rw [(applied moved).1]
  · rw [(kept moved).1]

/-! ## The answers of a line command (R157) -/

/-- A line command is answered with the answer of its action on the line. -/
theorem lineCommand_replies {c : Instr} {a : State × Answer} (row : exec c s = s.act (·.commandStep tag code operand))
    (ready : commandReady s tag code operand) (h : operand.toNat = l.val) (line : 6 ≤ code.toNat ∧ code.toNat ≤ 9)
    (ran : s.runCommand tag code operand = answered a) (mp : a.1.mp = s.mp) (taken : a.1.cu.record.taken = s.cu.record.taken) :
    ∃ t', exec c s = .next t' ∧ handsOn (s.replied a.1 tag code (answered a).2) t'
      ∧ answers s (s.replied a.1 tag code (answered a).2) tag code a.2.result a.2.detail .none :=
  accepted_replies (v := a.1) (rep := (answered a).2) row ready (lineCommand_notRefused s h line) ran mp taken

/-- A line command that leaves the line as it was has its answer alone. -/
theorem lineCommand_kept {c : Instr} {a : Answer} (row : exec c s = s.act (·.commandStep tag code operand))
    (ready : commandReady s tag code operand) (h : operand.toNat = l.val) (line : 6 ≤ code.toNat ∧ code.toNat ≤ 9)
    (ran : s.runCommand tag code operand = answered (s, a)) :
    ∃ t t', exec c s = .next t' ∧ handsOn t t' ∧ answers s t tag code a.result a.detail .none ∧ t.lines = s.lines
      ∧ cuKeptButRecord s t ∧ deKeptButStatus s t ∧ t.nu = s.nu ∧ t.wu = s.wu := by
  obtain ⟨t', answer, hands, told⟩ := lineCommand_replies row ready h line ran rfl rfl
  exact ⟨_, t', answer, hands, told, rfl, replied_cuKept rfl, replied_deKeptButStatus (deKeptButStatus_refl s), rfl, rfl⟩

/-- The line changes its state and reports it; nothing else of the part is touched. -/
def State.lineMoved (s : State) (l : LineId) (q : LineState) : State :=
  (s.modLs l fun x => { x with state := q }).reportLineState l

theorem lineMoved_spec (s : State) (l : LineId) (q : LineState) :
    LineFrame l s (s.lineMoved l q) ∧ (s.lineMoved l q).cu = s.cu ∧ (s.lineMoved l q).nu = s.nu
      ∧ (s.lineMoved l q).ls l = { s.ls l with state := q } ∧ (s.lineMoved l q).sru l = s.sru l
      ∧ ((s.lineMoved l q).gzu l).lineCopy = q := by
  have moved : (s.modLs l fun x => { x with state := q }).ls l = { s.ls l with state := q } := modLs_ls ..
  obtain ⟨ls, sru, gzu⟩ := reportLineState_line (s.modLs l fun x => { x with state := q }) l
  refine ⟨lineFrame_trans (lineFrame_modLine l s _) (lineFrame_reportLineState l _), by simp [State.lineMoved],
    by simp [State.lineMoved], ls.trans moved, sru.trans (modLs_sru ..), ?_⟩
  rw [State.lineMoved, gzu, moved]

/-- A line command that moves a driven line between RUNNING and STOPPING (R21, R22). -/
theorem lineMoved_replied {c : Instr} {q : LineState} (row : exec c s = s.act (·.commandStep tag code operand))
    (ready : commandReady s tag code operand) (h : operand.toNat = l.val) (line : 6 ≤ code.toNat ∧ code.toNat ≤ 9)
    (ran : s.runCommand tag code operand = answered (s.lineMoved l q, accepted)) :
    ∃ t t', exec c s = .next t' ∧ handsOn t t' ∧ answers s t tag code .accepted 0 .none
      ∧ (t.ls l) = { s.ls l with state := q } ∧ (t.sru l) = (s.sru l) ∧ (t.gzu l).lineCopy = q
      ∧ otherLinesKept l s t ∧ deKeptButStatus s t ∧ cuKeptButRecord s t ∧ t.nu = s.nu ∧ t.wu = s.wu := by
  obtain ⟨frame, cu, nu, ls, sru, gzu⟩ := lineMoved_spec s l q
  generalize s.lineMoved l q = v at *
  obtain ⟨t', answer, hands, told⟩ := lineCommand_replies row ready h line ran frame.mp (by rw [cu])
  exact ⟨_, t', answer, hands, told, ls, sru, gzu, frame.others, replied_deKeptButStatus frame.de, replied_cuKept cu, nu,
    frame.wu⟩

/-! ## START (R21) -/

theorem runCommand_start (s : State) (tag : Byte) (h : operand.toNat = l.val) :
    s.runCommand tag 6 operand = answered (s.startLine l) := by
  rw [← operandLine_eq h]
  rfl

theorem enterPriming_nu (n : nothingPending s l) : (s.enterPriming l).nu = s.nu := by
  have keeps (x : State) (h : x.cu = s.cu) : nothingPending x l := by
    simp only [nothingPending, State.copies, h]
    exact n
  simp only [State.enterPriming]
  simp [cycleStart_nu (keeps _ _)]

/-- Settles O32: a START of each line state. -/
theorem startByLineState : Obligations.StartByLineState := by
  intro tag operand l s ready h
  have ran := runCommand_start s tag h
  have primes (off : (s.ls l).state = .off) : s.startLine l = ((s.enterPriming l).actSources l, accepted) := by
    simp only [State.startLine, off]
  refine ⟨fun off quiet => ?_, fun off noisy => ?_, fun stopping => ?_, fun other => ?_⟩
  · have primed := primedFrom_prime s l
    have frame := lineFrame_enterPriming l s
    have nu : nothingPending s l → _ := enterPriming_nu
    rw [primes off, primedFrom_quiet primed quiet] at ran
    generalize s.enterPriming l = v at *
    obtain ⟨t', answer, hands, told⟩ :=
      lineCommand_replies (c := .start tag operand) rfl ready h (by decide) ran frame.mp (recordFollows_taken primed.record)
    exact ⟨_, t', answer, hands, told, hasPrimed_replied primed.primed, nu, frame.others, replied_deKeptButStatus frame.de,
      frame.wu⟩
  · obtain ⟨down, record, -⟩ := primedFrom_noisy (primedFrom_prime s l) noisy
    have frame := lineFrame_trans (lineFrame_enterPriming l s) (lineFrame_actSources l _)
    rw [primes off] at ran
    generalize (s.enterPriming l).actSources l = v at *
    obtain ⟨t', answer, hands, told⟩ :=
      lineCommand_replies (c := .start tag operand) rfl ready h (by decide) ran frame.mp (recordFollows_taken record)
    exact ⟨_, t', answer, hands, told, shutAtPriming_replied down, frame.others, replied_deKeptButStatus frame.de, frame.wu⟩
  · have acts : s.startLine l = (s.lineMoved l .running, accepted) := by
      simp only [State.startLine, stopping]
      rfl
    rw [acts] at ran
    exact lineMoved_replied rfl ready h (by decide) ran
  · have acts : s.startLine l = (s, s.refusedState l) := by
      rcases other with e | e | e <;> simp only [State.startLine, e]
    rw [acts] at ran
    exact lineCommand_kept rfl ready h (by decide) ran

/-! ## STOP (R22) -/

theorem runCommand_stop (s : State) (tag : Byte) (h : operand.toNat = l.val) :
    s.runCommand tag 7 operand = answered (s.stopLine l) := by
  rw [← operandLine_eq h]
  rfl

/-- A line command that takes the line to OFF, after a change `f` of the line alone. -/
theorem stopped_replied {c : Instr} {f : Line → Line} (row : exec c s = s.act (·.commandStep tag code operand))
    (ready : commandReady s tag code operand) (h : operand.toNat = l.val) (line : 6 ≤ code.toNat ∧ code.toNat ≤ 9)
    (gzu : (f s.lines[l]).gzu.zones = s.lines[l].gzu.zones)
    (ran : s.runCommand tag code operand = answered ((s.modLine l f).enterOff l, accepted)) :
    ∃ t t', exec c s = .next t' ∧ handsOn t t' ∧ answers s t tag code .accepted 0 .none ∧ isOff t l
      ∧ t.ls l = (f s.lines[l]).ls.off ∧ t.sru l = (f s.lines[l]).sru.rest
      ∧ transferred s t l ∧ zonesFollow s t l ∧ otherLinesKept l s t ∧ deKeptButStatus s t ∧ t.wu = s.wu := by
  have frame := lineFrame_trans (lineFrame_modLine l s f) (lineFrame_enterOff l _)
  have line' : (s.modLine l f).lines[l] = f s.lines[l] := by simp [State.modLine]
  have off := isOff_enterOff (s.modLine l f) l
  obtain ⟨moved, record, zones, -, ls, sru, -⟩ := enterOff_spec (s.modLine l f) l
  generalize (s.modLine l f).enterOff l = v at *
  obtain ⟨t', answer, hands, told⟩ := lineCommand_replies row ready h line ran frame.mp (recordFollows_taken record)
  have still : keepsRecords (fun _ => False) s (s.modLine l f) := keepsRecords_of rfl rfl
  have none : keepsRecords (fun _ => False) v v := keepsRecords_refl _ _
  refine ⟨_, t', answer, hands, told, off, ls.trans ?_, sru.trans ?_,
    transferred_replied (transferred_of moved rfl rfl (keepsRecords_mono (fun _ e => e.elim) still) none id),
    zonesFollow_of zones rfl rfl ?_ rfl still none id id, frame.others, replied_deKeptButStatus frame.de, frame.wu⟩
  · rw [State.ls, line']
  · rw [State.sru, line']
  · rw [State.gzu, line']
    exact gzu

/-- Settles O33: a STOP of each line state. -/
theorem stopByLineState : Obligations.StopByLineState := by
  intro tag operand l s ready h
  have ran := runCommand_stop s tag h
  refine ⟨fun running => ?_, fun priming => ?_, fun shut => ?_, fun other => ?_⟩
  · have acts : s.stopLine l = (s.lineMoved l .stopping, accepted) := by
      simp only [State.stopLine, running]
      rfl
    rw [acts] at ran
    obtain ⟨t, t', answer, hands, told, ls, sru, gzu, others, de, -, nu, wu⟩ :=
      lineMoved_replied (c := .stop tag operand) rfl ready h (by decide) ran
    exact ⟨t, t', answer, hands, told, ls, sru, gzu, others, de, nu, wu⟩
  · have acts : s.stopLine l = ((s.modLine l fun x => { x with sru := x.sru.abandon }).enterOff l, accepted) := by
      simp only [State.stopLine, priming]
      rfl
    rw [acts] at ran
    obtain ⟨t, t', answer, hands, told, off, ls, sru, moved, zones, others, de, wu⟩ :=
      stopped_replied (c := .stop tag operand) rfl ready h (by decide) rfl ran
    refine ⟨t, t', answer, hands, told, off, ?_, ?_, ?_, ?_, ?_, moved, zones, others, de, wu⟩
    · rw [ls]
      rfl
    all_goals
      rw [sru]
      rfl
  · have acts : s.stopLine l = ((s.modLine l fun x =>
        { x with ls := { x.ls with causes := .empty, recorded := none, lockout := false } }).enterOff l, accepted) := by
      simp only [State.stopLine, shut]
      rfl
    rw [acts] at ran
    obtain ⟨t, t', answer, hands, told, off, ls, sru, moved, zones, others, de, wu⟩ :=
      stopped_replied (c := .stop tag operand) rfl ready h (by decide) rfl ran
    refine ⟨t, t', answer, hands, told, off, ?_, ?_, ?_, moved, zones, others, de, wu⟩
    all_goals
      rw [ls]
      rfl
  · have acts : s.stopLine l = (s, accepted) := by
      rcases other with e | e <;> simp only [State.stopLine, e]
    rw [acts] at ran
    exact lineCommand_kept rfl ready h (by decide) ran

/-! ## HALT (R23) -/

theorem runCommand_halt (s : State) (tag : Byte) (h : operand.toNat = l.val) :
    s.runCommand tag 8 operand = answered (s.haltLine l) := by
  rw [← operandLine_eq h]
  rfl

/-- After a shutdown entry with cause SOFTWARE a cause is present, so the restart delay does not run. -/
theorem shutDownFrom_software {q : Sequencer} (h : shutDownFrom q s t l .software) :
    (t.ls l).causes.software = true ∧ (t.ls l).restartTimer = none := by
  obtain ⟨ls, -⟩ := h
  have causes : (t.ls l).causes = causesAt t l .software := by rw [ls]
  have present : (t.ls l).causes.software = true := by rw [causes]; rfl
  refine ⟨present, ?_⟩
  have timer : (t.ls l).restartTimer = timerAfter q t l :=
    (congrArg Sequencer.restartTimer ls).trans rfl
  rw [timer, timerAfter]
  refine if_neg fun ⟨_, _, absent⟩ => ?_
  rw [absent] at present
  cases present

/-- Settles O34: a HALT of each line state. -/
theorem haltByLineState : Obligations.HaltByLineState := by
  intro tag operand l s ready h
  have ran := runCommand_halt s tag h
  refine ⟨fun driven => ?_, fun shut => ?_, fun off => ?_⟩
  · have acts : s.haltLine l = (s.shutdownEntry l .software, accepted) := by
      cases hq : (s.ls l).state <;> simp only [State.haltLine, hq]
      all_goals
        rw [hq] at driven
        cases driven
    obtain ⟨down, record, trip, -⟩ := shutdownEntry_spec (rfl : s.shutdownEntry l .software = _)
    have others := shutdownEntry_others s l .software
    obtain ⟨mp, wu, -⟩ := shutdownEntry_frame s l .software
    rw [acts] at ran
    generalize s.shutdownEntry l .software = v at *
    obtain ⟨t', answer, hands, told⟩ :=
      lineCommand_replies (c := .halt tag operand) rfl ready h (by decide) ran mp (recordFollows_taken record)
    have down' := hasShutDown_replied (tag := tag) (code := 8) (rep := (answered (v, accepted)).2) down
    obtain ⟨present, timer⟩ := shutDownFrom_software down'.1
    exact ⟨_, t', answer, hands, told, down', trip, present, timer, others, replied_deKeptButStatus down.2.2.2.2, wu⟩
  · have acts : s.haltLine l = ((s.modLs l fun q =>
        { q with causes := { (s.ls l).causes with software := true } }).reexamTimer l, accepted) := by
      simp only [State.haltLine, shut]
      rfl
    obtain ⟨only, ls, sru, gzu⟩ := causesChange (c := { (s.ls l).causes with software := true }) shut
    rw [acts] at ran
    generalize (s.modLs l fun q => { q with causes := { (s.ls l).causes with software := true } }).reexamTimer l = v at *
    obtain ⟨t', answer, hands, told⟩ :=
      lineCommand_replies (c := .halt tag operand) rfl ready h (by decide) ran only.mp (by rw [only.cu])
    rw [timerWith_present (by simp)] at ls
    refine ⟨_, t', answer, hands, told, ls, sru, gzu, only.others, replied_deKeptButStatus ?_, only.nu, only.wu⟩
    exact ⟨by rw [only.de], fun p => by simp only [State.page, only.de]⟩
  · have acts : s.haltLine l = (s, s.refusedState l) := by simp only [State.haltLine, off]
    have detail : s.refusedState l = { result := .refusedState, detail := 0 } := by
      rw [State.refusedState, off]
      rfl
    rw [acts, detail] at ran
    exact lineCommand_kept rfl ready h (by decide) ran

/-! ## RESTART (R24) -/

theorem runCommand_restart (s : State) (tag : Byte) (h : operand.toNat = l.val) :
    s.runCommand tag 9 operand = answered (s.restartLine l) := by
  rw [← operandLine_eq h]
  rfl

/-- What a RESTART clears before the line enters PRIMING. -/
def State.restartCleared (s : State) (l : LineId) : State :=
  s.modLs l fun q => { q with causes := { q.causes with software := false }, attempts := 0, lockout := false }

theorem restartCleared_ls (s : State) (l : LineId) : (s.restartCleared l).ls l
    = { s.ls l with causes := { (s.ls l).causes with software := false }, attempts := 0, lockout := false } := modLs_ls ..

/-- The line after a RESTART, before a source acts on it. -/
def State.restarted (s : State) (l : LineId) : State :=
  ((s.restartCleared l).enterPriming l).raise .lineRestarted (.line l) 1

theorem restarted_primed (s : State) (l : LineId) : PrimedFrom s (s.restarted l) l ((s.restartCleared l).ls l) := by
  have primed := primedFrom_raise (primedFrom_prime (s.restartCleared l) l) (.line l) 1
  obtain ⟨primed, record, kept, ls, trip, pins, staging⟩ := primed
  have before : keepsRecords (fun _ => False) s (s.restartCleared l) := keepsRecords_of rfl rfl
  have sru : (s.restartCleared l).sru l = s.sru l := modLs_sru ..
  have gzu : (s.restartCleared l).gzu l = s.gzu l := modLs_gzu ..
  have trip' : tripKept s (s.restartCleared l) l := by
    rw [tripKept, restartCleared_ls]
    exact ⟨rfl, rfl⟩
  exact ⟨hasPrimed_of sru gzu rfl rfl before rfl rfl (keepsRecords_refl (fun _ => False) _) id id primed,
    recordFollows_of record rfl rfl rfl rfl, keepsRecords_trans (keepsRecords_mono (fun _ e => e.elim) before) kept, ls,
    ⟨trip.1.trans trip'.1, trip.2.trans trip'.2⟩, pins, staging⟩

theorem restarted_frame (s : State) (l : LineId) : LineFrame l s (s.restarted l) :=
  lineFrame_trans (lineFrame_modLine l s _) (lineFrame_trans (lineFrame_enterPriming l _) (lineFrame_raise l _ _ _ _))

theorem restartLine_acts (shut : (s.ls l).state = .shutdown) (coilHi : (s.ls l).causes.coilHi = false)
    (trip : (s.ls l).causes.trip = false) : s.restartLine l = ((s.restarted l).actSources l, accepted) := by
  simp only [State.restartLine, shut, coilHi, trip]
  rfl

/-- LINE_RESTARTED of a RESTART is recorded, whatever a source then does. -/
theorem restarted_told (kept : keepsRecords shutdownKind (s.restarted l) v) : raisedIn s v .lineRestarted (.line l) 1 := by
  have before : keepsRecords (fun _ => False) s (s.restartCleared l) := keepsRecords_of rfl rfl
  have primed := primedFrom_prime (s.restartCleared l) l
  exact raisedIn_of (u := s.restarted l) (keepsRecords_trans (keepsRecords_mono (fun _ e => e.elim) before)
    (keepsRecords_mono (fun _ _ => trivial) primed.kept)) rfl kept (by rintro (h | h) <;> cases h) rfl

/-- Settles O35: a RESTART of each line state. -/
theorem restartByLineState : Obligations.RestartByLineState := by
  intro tag operand l s ready h
  have ran := runCommand_restart s tag h
  refine ⟨fun shut present => ?_, fun shut coilHi trip quiet => ?_, fun shut coilHi trip noisy => ?_, fun other => ?_⟩
  · have acts : s.restartLine l
        = (s, { result := .refusedState, detail := if (s.ls l).causes.coilHi = true then 1 else 3 }) := by
      simp only [State.restartLine, shut]
      by_cases coilHi : (s.ls l).causes.coilHi = true
      · simp only [coilHi, if_true]
        rfl
      · simp only [if_neg coilHi, if_pos (present.resolve_left coilHi)]
        rfl
    rw [acts] at ran
    exact lineCommand_kept rfl ready h (by decide) ran
  · have primed := restarted_primed s l
    have frame := restarted_frame s l
    have told' := restarted_told (keepsRecords_refl _ (s.restarted l))
    rw [restartLine_acts shut coilHi trip, primedFrom_quiet primed quiet] at ran
    rw [restartCleared_ls] at primed
    generalize s.restarted l = v at *
    obtain ⟨t', answer, hands, told⟩ :=
      lineCommand_replies (c := .restart tag operand) rfl ready h (by decide) ran frame.mp (recordFollows_taken primed.record)
    have ls := primed.ls
    have causes : ({ (s.ls l).causes with software := false } : Causes) = Causes.empty := by
      cases hc : (s.ls l).causes
      simp_all [Causes.empty]
    refine ⟨_, t', answer, hands, told, hasPrimed_replied primed.primed, ?_, ?_, ?_, ?_, told', frame.others,
      replied_deKeptButStatus frame.de, frame.wu⟩
    · have vls : (v.ls l).causes = { (s.ls l).causes with software := false } := by rw [ls]
      exact vls.trans causes
    · have vls : (v.ls l).attempts = 0 := by rw [ls]
      exact vls
    · have vls : (v.ls l).lockout = false := by rw [ls]
      exact vls
    · have vls : (v.ls l).recorded = (s.ls l).recorded := by rw [ls]
      exact vls
  · obtain ⟨down, record, kept⟩ := primedFrom_noisy (restarted_primed s l) noisy
    have frame := lineFrame_trans (restarted_frame s l) (lineFrame_actSources l _)
    have told' := restarted_told kept
    rw [restartLine_acts shut coilHi trip] at ran
    rw [restartCleared_ls] at down
    generalize (s.restarted l).actSources l = v at *
    obtain ⟨t', answer, hands, told⟩ :=
      lineCommand_replies (c := .restart tag operand) rfl ready h (by decide) ran frame.mp (recordFollows_taken record)
    exact ⟨_, t', answer, hands, told, shutAtPriming_replied down, told', frame.others, replied_deKeptButStatus frame.de,
      frame.wu⟩
  · have acts : s.restartLine l = (s, s.refusedState l) := by
      cases hq : (s.ls l).state <;> simp only [State.restartLine, hq]
      exact absurd hq other
    rw [acts] at ran
    exact lineCommand_kept rfl ready h (by decide) ran

/-! ## CLEAR_TOTAL (R49) -/

/-- Settles O36: the totals of the line are cleared, or while the freeze is set the command is refused. -/
theorem clearTotalClearsTotals : Obligations.ClearTotalClearsTotals := by
  intro tag operand l s ready h
  have known : knownCode 10 = true := rfl
  have range : operandOut 10 operand = false := operandOut_line h (by decide)
  have touches : touchesCalibration 10 operand = true := rfl
  refine ⟨fun free => ?_, fun frozen => ?_⟩
  · have ran : s.runCommand tag 10 operand = ((s.modSru l (·.clearTotals)).markLine l, actedReply .accepted .none) := by
      rw [← operandLine_eq h]
      rfl
    have dirty : isDirty ((s.modSru l (·.clearTotals)).markLine l) (linePage l) := markPage_isDirty _ _
    obtain ⟨t', answer, hands, told⟩ := accepted_replies (c := .clearTotal tag operand) rfl ready
      ⟨known, range, by rw [touches, free]; rfl⟩ ran rfl rfl
    have de : deKeptButStatus s ((s.modSru l (·.clearTotals)).markLine l) :=
      deKept_butStatus (deKept_markPage (linePage l) (deKept_eq rfl))
    have sru : ((s.modSru l (·.clearTotals)).markLine l).sru l = (s.sru l).clearTotals := modSru_sru ..
    exact ⟨_, t', answer, hands, told, sru, replied_isDirty dirty, modSru_ls .., modSru_gzu .., otherLinesKept_modLine s l _,
      replied_cuKept rfl, replied_deKeptButStatus de, rfl, rfl⟩
  · obtain ⟨ha, r, onPort, idle⟩ := ready
    exact refused_answers (rep := reply .refusedFrozen 0) rfl ha r onPort
      (takeCommand_refused (by rw [refusal_known idle known, range, touches, frozen]; rfl))

end Sys2Proof.Machine
end

