-- ==== Sys2Proof/Proofs/Commits.lean ====
section
/-! PROOF of O27, O28, O30 and O37. The commits and FREEZE (spec/08 R151 to R158, spec/09 R173). -/

namespace Sys2Proof.Machine
open Sys2Proof

variable {s t u v w : State} {l : LineId} {tag code operand : Byte} {rep : Reply} {off : Nat} {p p' : Kind → Prop}

/-- A command past the checks of R148 that refuses by its own rule has its answer alone. -/
theorem ownRefusal_answers {c : Instr} (row : exec c s = s.act (·.commandStep tag code operand))
    (ready : commandReady s tag code operand) (pass : notRefused s code operand)
    (ran : s.runCommand tag code operand = (s, rep)) :
    ∃ t t', exec c s = .next t' ∧ handsOn t t' ∧ answers s t tag code rep.result rep.detail rep.owner ∧ onlyAnswered s t := by
  obtain ⟨t', answer, hands, told⟩ := accepted_replies row ready pass ran rfl rfl
  exact ⟨_, t', answer, hands, told, replied_onlyAnswered s tag code rep⟩

/-! ## A line section made live by a commit (R26, R152) -/

theorem commitLine_notRefused (s : State) (h : operand.toNat = l.val) : notRefused s 1 operand :=
  ⟨rfl, operandOut_line h (by decide), rfl⟩

theorem runCommand_commitLine (s : State) (tag : Byte) (h : operand.toNat = l.val) :
    s.runCommand tag 1 operand = s.commitLine tag l := by
  rw [← operandLine_eq h]
  rfl

theorem reexamTimer_shutdown (h : (s.ls l).state = .shutdown) :
    (s.reexamTimer l).ls l = { s.ls l with restartTimer := timerWith s l (s.ls l).causes } := by
  have conditions : s.restartConditions l = true ↔ restartAuto (s.liveLine l) = true ∧ (s.ls l).lockout = false
      ∧ (s.ls l).causes = { coilHi := false, trip := false, software := false } := by
    simp [State.restartConditions, h, ← causes_isEmpty_iff, and_assoc]
  simp only [State.reexamTimer, modLs_ls, conditions]
  rfl

/-- The causes present in SHUTDOWN under the settings now live. -/
def causesNow (s : State) (l : LineId) : Causes :=
  { (s.ls l).causes with coilHi := s.coilHiHolds l, trip := s.tripHolds l }

/-- The clamp of R18 under the settings now live, `old` being those before. -/
def clampAfter (s : State) (l : LineId) (old : Bytes) (q : Sequencer) : Sequencer :=
  if shutdownStateCode old = shutdownStateCode (s.liveLine l) then q else q.changeClamp

theorem changeClamp_fields (q : Sequencer) : q.changeClamp = { q with
    stage := q.changeClamp.stage, holdTicks := q.changeClamp.holdTicks, bridge := q.changeClamp.bridge } := by
  simp only [Sequencer.changeClamp]
  split <;> rfl

theorem clampAfter_fields (s : State) (l : LineId) (old : Bytes) (q : Sequencer) : clampAfter s l old q = { q with
    stage := (clampAfter s l old q).stage, holdTicks := (clampAfter s l old q).holdTicks
    bridge := (clampAfter s l old q).bridge } := by
  simp only [clampAfter]
  split
  · rfl
  · exact changeClamp_fields q

/-- The LS of a line in SHUTDOWN after a line section has become live. -/
theorem lsApply_shutdown {old : Bytes} (h : (s.ls l).state = .shutdown) :
    (s.lsApply l old).ls l = { clampAfter s l old (s.ls l) with
      causes := causesNow s l, restartTimer := timerWith s l (causesNow s l) } := by
  simp only [State.lsApply, h, if_true]
  generalize hx : (if shutdownStateCode old = shutdownStateCode (s.liveLine l) then s.refreshCauses l
    else (s.refreshCauses l).modLs l (·.changeClamp)) = x
  have ls : x.ls l = { clampAfter s l old (s.ls l) with causes := causesNow s l } := by
    rw [← hx, clampAfter]
    split
    · exact modLs_ls ..
    · rw [modLs_ls, State.refreshCauses, modLs_ls]
      cases hq : (s.ls l).stage <;> simp only [Sequencer.changeClamp, hq] <;> rfl
  have live : x.liveLine l = s.liveLine l := by
    rw [← hx]
    split <;> rfl
  have fields := clampAfter_fields s l old (s.ls l)
  generalize clampAfter s l old (s.ls l) = q at *
  have state : (x.ls l).state = .shutdown := by
    rw [ls, fields]
    exact h
  rw [reexamTimer_shutdown state, timerWith, live, ls, fields]
  rfl

theorem applyLine_others (s : State) (l : LineId) (new : Bytes) (tag : Byte) :
    LineFrame l s (s.applyLine l new tag) :=
  ⟨⟨by rw [De.mk.injEq]; simp, fun q => by simp [State.page]⟩, fun k hk => by simp [hk], by simp, by simp, by simp, by simp⟩

theorem applyLine_ls (s : State) (l : LineId) (new : Bytes) (tag : Byte) : (s.applyLine l new tag).ls l
    = ((s.modCopies l fun c => { c with liveLine := new, pendingLine := none, lineTag := tag }).lsApply l (s.liveLine l)).ls l := by
  simp [State.applyLine, State.ls]

theorem applyLine_sru (s : State) (l : LineId) (new : Bytes) (tag : Byte) : (s.applyLine l new tag).sru l = s.sru l := by
  simp [State.sru]

/-- Settles O27: the staged line section is refused, live at once, or pending. -/
theorem commitLineMovesSection : Obligations.CommitLineMovesSection := by
  intro tag operand l s ready h
  have pass := commitLine_notRefused s h
  have ran := runCommand_commitLine s tag h
  refine ⟨fun off fails => ?_, fun valid undriven => ?_, fun valid driven => ?_⟩
  · refine ownRefusal_answers (rep := rangeReply off) rfl ready pass (ran.trans ?_)
    simp only [State.commitLine, fails]
  · have acts : s.commitLine tag l = (s.applyLine l (s.copies l).stagedLine tag, actedReply .accepted .none) := by
      simp [State.commitLine, valid, State.appliesAtOnce, undriven]
    have frame := applyLine_others s l (s.copies l).stagedLine tag
    have cu := applyLine_cu s l (s.copies l).stagedLine tag
    have ls := applyLine_ls s l (s.copies l).stagedLine tag
    have sru := applyLine_sru s l (s.copies l).stagedLine tag
    obtain ⟨-, told', -, zones⟩ := applyLine_spec (rfl : s.applyLine l (s.copies l).stagedLine tag = _)
    rw [acts] at ran
    generalize s.applyLine l (s.copies l).stagedLine tag = v at *
    obtain ⟨t', answer, hands, told⟩ := accepted_replies (c := .commitLine tag operand) rfl ready pass ran frame.mp (by rw [cu])
    generalize hb : (s.modCopies l fun c => { c with liveLine := (s.copies l).stagedLine, pendingLine := none, lineTag := tag })
      = b at ls
    have bLs : b.ls l = s.ls l := by rw [← hb]; rfl
    have bLive : b.liveLine l = (s.copies l).stagedLine := by rw [← hb]; simp [State.liveLine, State.copies]
    have bPins : b.pins = s.pins := by rw [← hb]; rfl
    have copies : v.copies l = { s.copies l with liveLine := (s.copies l).stagedLine, pendingLine := none, lineTag := tag } := by
      simp [State.copies, cu]
    refine ⟨_, t', answer, hands, told, copies, fun k hk => ?_, zones, told', fun off => ?_, fun shut => ?_, sru,
      frame.others, replied_deKeptButStatus frame.de, frame.wu⟩
    · have other : v.copies k = s.copies k := by simp [State.copies, cu, modAt_other _ _ _ _ hk]
      exact other
    · rw [lsApply_driven _ _ _ (by rw [bLs, off]; decide), bLs] at ls
      exact ls
    · rw [lsApply_shutdown (by rw [bLs]; exact shut), bLs] at ls
      have causes : causesNow b l = { (s.ls l).causes with
          coilHi := coilHiEnable (s.copies l).stagedLine && s.pins.coilHi[l]
          trip := tripEnable (s.copies l).stagedLine && (s.ls l).tripLevel == tripActiveHigh (s.copies l).stagedLine } := by
        simp only [causesNow, State.coilHiHolds, State.tripHolds, State.tripActive, bLs, bLive, bPins]
      have fields := clampAfter_fields b l (s.liveLine l) (s.ls l)
      have vCauses : (v.ls l).causes = causesNow b l := by rw [ls]
      have timer : (v.ls l).restartTimer = timerWith b l (v.ls l).causes := by rw [ls]
      rw [timerWith, bLive, bLs] at timer
      refine ⟨?_, vCauses.trans causes, timer, fun changes clamped => ?_, fun kept => ?_⟩
      · have parts : v.ls l = { s.ls l with
            causes := (v.ls l).causes, stage := (v.ls l).stage, holdTicks := (v.ls l).holdTicks
            bridge := (v.ls l).bridge, restartTimer := (v.ls l).restartTimer } := by
          rw [ls]
          generalize clampAfter b l (s.liveLine l) (s.ls l) = q at *
          rw [fields]
        exact parts
      · have now : clampAfter b l (s.liveLine l) (s.ls l) = (s.ls l).changeClamp := if_neg (by rw [bLive]; exact changes)
        rw [now] at ls
        have clamp : (v.ls l).stage = .allOffHold ∧ (v.ls l).holdTicks = 0 ∧ (v.ls l).bridge = .allOff := by
          rw [ls]
          simp only [Sequencer.changeClamp, clamped]
          exact ⟨trivial, trivial, trivial⟩
        exact clamp
      · have now : clampAfter b l (s.liveLine l) (s.ls l) = s.ls l := by
          simp only [clampAfter, bLive]
          split
          · rfl
          · rename_i changes
            simp only [Sequencer.changeClamp, kept.resolve_left changes]
        rw [now] at ls
        have same : (v.ls l).stage = (s.ls l).stage ∧ (v.ls l).holdTicks = (s.ls l).holdTicks
            ∧ (v.ls l).bridge = (s.ls l).bridge := by
          rw [ls]
          exact ⟨rfl, rfl, rfl⟩
        exact same
  · have acts : s.commitLine tag l = ((s.modCopies l fun c => { c with
        pendingLine := some { bytes := (s.copies l).stagedLine, tag := tag, taken := s.cu.nextTaken } }).markLine l,
        actedReply .pending (.pendingLine l)) := by
      simp [State.commitLine, valid, State.appliesAtOnce, driven]
    rw [acts] at ran
    obtain ⟨t', answer, hands, told⟩ := accepted_replies (c := .commitLine tag operand) rfl ready pass ran rfl rfl
    refine ⟨_, t', answer, hands, told, modCopies_copies .., fun k hk => modCopies_other _ _ _ _ hk, rfl,
      replied_deKeptButStatus (deKept_butStatus (deKept_markPage (linePage l) (deKept_eq rfl))), rfl, rfl⟩

/-! ## A calibration made live by a commit (R154) -/

/-- Settles O28: the staged calibration is refused, live at once, or pending. -/
theorem commitCalMovesCalibration : Obligations.CommitCalMovesCalibration := by
  intro tag operand l s ready h
  have ran : s.runCommand tag 2 operand = s.commitCal tag l := by
    rw [← operandLine_eq h]
    rfl
  have pass (free : s.cu.frozen = false) : notRefused s 2 operand :=
    ⟨rfl, operandOut_line h (by decide), by rw [free, Bool.and_false]⟩
  refine ⟨fun off free fails => ?_, fun free valid undriven => ?_, fun free valid driven => ?_⟩
  · refine ownRefusal_answers (rep := rangeReply off) rfl ready (pass free) (ran.trans ?_)
    simp only [State.commitCal, fails]
  · have acts : s.commitCal tag l = (s.applyCal l (s.copies l).stagedCal tag, actedReply .accepted .none) := by
      have notDriven : (s.ls l).state.driven = false := by rcases undriven with e | e <;> rw [e] <;> rfl
      simp [State.commitCal, valid, State.appliesAtOnce, notDriven]
    have cu := applyCal_cu s l (s.copies l).stagedCal tag
    obtain ⟨-, told', lines⟩ := applyCal_spec (rfl : s.applyCal l (s.copies l).stagedCal tag = _)
    have mp : (s.applyCal l (s.copies l).stagedCal tag).mp = s.mp := by simp
    have wu : (s.applyCal l (s.copies l).stagedCal tag).wu = s.wu := by simp
    have de : deKept s (s.applyCal l (s.copies l).stagedCal tag) := deKept_of_parts (by simp) (by simp)
    rw [acts] at ran
    generalize s.applyCal l (s.copies l).stagedCal tag = v at *
    obtain ⟨t', answer, hands, told⟩ := accepted_replies (c := .commitCal tag operand) rfl ready (pass free) ran mp (by rw [cu])
    have copies : v.copies l = { s.copies l with liveCal := (s.copies l).stagedCal, pendingCal := none, calTag := tag } := by
      simp [State.copies, cu]
    have others (k : LineId) (hk : k ≠ l) : v.copies k = s.copies k := by simp [State.copies, cu, modAt_other _ _ _ _ hk]
    exact ⟨_, t', answer, hands, told, copies, others, told', lines, replied_deKeptButStatus (deKept_butStatus de), wu⟩
  · have acts : s.commitCal tag l = ((s.modCopies l fun c => { c with
        pendingCal := some { bytes := (s.copies l).stagedCal, tag := tag, taken := s.cu.nextTaken } }).markLine l,
        actedReply .pending (.pendingCal l)) := by
      simp [State.commitCal, valid, State.appliesAtOnce, driven]
    rw [acts] at ran
    obtain ⟨t', answer, hands, told⟩ := accepted_replies (c := .commitCal tag operand) rfl ready (pass free) ran rfl rfl
    exact ⟨_, t', answer, hands, told, modCopies_copies .., fun k hk => modCopies_other _ _ _ _ hk, rfl,
      replied_deKeptButStatus (deKept_butStatus (deKept_markPage (linePage l) (deKept_eq rfl))), rfl, rfl⟩

/-! ## The delivery section (R156) -/

/-- COMMIT_WINDOWS, COMMIT_DELIVERY and FREEZE have no operand to check. -/
theorem partCommand_notRefused (s : State) (operand : Byte) (h : code = 3 ∨ code = 4 ∨ code = 11) :
    notRefused s code operand := by
  rcases h with rfl | rfl | rfl <;> exact ⟨rfl, rfl, rfl⟩

/-- Settles O30: the staged delivery section is refused or handed over. -/
theorem commitDeliveryHandsOver : Obligations.CommitDeliveryHandsOver := by
  refine ⟨fun tag operand s off ready fails => ?_, fun tag operand s ready valid => ?_⟩
  · have ran : s.runCommand tag 4 operand = s.commitDelivery tag := rfl
    refine ownRefusal_answers (rep := rangeReply off) rfl ready (partCommand_notRefused s operand (.inr (.inl rfl))) (ran.trans ?_)
    simp only [State.commitDelivery, fails]
  · have ran : s.runCommand tag 4 operand = (s.modDe fun d =>
        { d with arming := some { bytes := s.cu.stagedDelivery, tag := tag, taken := s.cu.nextTaken } },
        actedReply .accepted .arming) := by
      have acts : s.runCommand tag 4 operand = s.commitDelivery tag := rfl
      rw [acts]
      simp only [State.commitDelivery, valid]
    obtain ⟨t', answer, hands, told⟩ := accepted_replies (c := .commitDelivery tag operand) rfl ready
      (partCommand_notRefused s operand (.inr (.inl rfl))) ran rfl rfl
    exact ⟨_, t', answer, hands, told, rfl, rfl, rfl, replied_cuKept rfl, rfl, rfl, rfl⟩

/-! ## FREEZE (R158) -/

theorem foldMarks_isDirty (c : LineId → Bool) (ls : List LineId) (s : State) {q : PageId}
    (h : isDirty s q ∨ ∃ l ∈ ls, c l = true ∧ q = linePage l) :
    isDirty (ls.foldl (fun t l => if c l then t.markLine l else t) s) q := by
  induction ls generalizing s with
  | nil => exact h.resolve_right fun ⟨l, hl, _⟩ => List.not_mem_nil hl
  | cons k ls ih =>
    refine ih _ ?_
    rcases h with marked | ⟨l, hl, pending, rfl⟩
    · left
      dsimp only
      split
      · exact isDirty_markPage marked _
      · exact marked
    · rcases List.mem_cons.mp hl with rfl | hl
      · left
        dsimp only
        rw [if_pos pending]
        exact markPage_isDirty _ _
      · exact .inr ⟨l, hl, pending, rfl⟩

theorem foldMarks_deKept (c : LineId → Bool) (ls : List LineId) (h : deKept s u) :
    deKept s (ls.foldl (fun t l => if c l then t.markLine l else t) u) := by
  induction ls generalizing u with
  | nil => exact h
  | cons k ls ih =>
    refine ih ?_
    dsimp only
    split
    · exact deKept_markPage _ h
    · exact h

theorem markPendingCals_deKept (s : State) : deKept s s.markPendingCals := foldMarks_deKept _ _ (deKept_eq rfl)

theorem markPendingCals_isDirty (h : (s.copies l).pendingCal.isSome = true) : isDirty s.markPendingCals (linePage l) :=
  foldMarks_isDirty (fun l => (s.copies l).pendingCal.isSome) _ s (.inr ⟨l, List.mem_finRange l, h, rfl⟩)

/-- Settles O37: the freeze becomes set, or was. -/
theorem freezeSetsFreeze : Obligations.FreezeSetsFreeze := by
  intro tag operand s ready
  have pass := partCommand_notRefused s operand (code := 11) (.inr (.inr rfl))
  have acts : s.runCommand tag 11 operand = s.freeze := rfl
  refine ⟨fun free => ?_, fun frozen => ?_⟩
  · let x := s.markPendingCals.modCu fun c => { c with frozen := true, lines := c.lines.map (·.freeze) }
    have ran : s.runCommand tag 11 operand = ((x.raise .freezeSet .part 0).markPart, actedReply .accepted .none) := by
      rw [acts]
      simp [State.freeze, free, x]
    have before : keepsRecords (fun _ => True) s x := keepsRecords_of (by simp [x]) (by simp [x, State.liveDelivery])
    have after : keepsRecords (fun _ => False) (x.raise .freezeSet .part 0) (x.raise .freezeSet .part 0).markPart :=
      keepsRecords_of rfl rfl
    have told' : raisedIn s (x.raise .freezeSet .part 0).markPart .freezeSet .part 0 := raisedIn_of before rfl after id rfl
    have cu : (x.raise .freezeSet .part 0).markPart.cu = { s.cu with frozen := true, lines := s.cu.lines.map (·.freeze) } := by
      simp [x, State.modCu]
    have dirty (l : LineId) (h : (s.copies l).pendingCal.isSome = true) :
        isDirty (x.raise .freezeSet .part 0).markPart (linePage l) := by
      refine isDirty_markPage ?_ partPage
      have marked : isDirty x (linePage l) := markPendingCals_isDirty h
      simpa [isDirty, State.page] using marked
    have lines : (x.raise .freezeSet .part 0).markPart.lines = s.lines := by simp [x]
    have mp : (x.raise .freezeSet .part 0).markPart.mp = s.mp := by simp [x]
    have wu : (x.raise .freezeSet .part 0).markPart.wu = s.wu := by simp [x]
    have de : deKept s (x.raise .freezeSet .part 0).markPart := by
      have raised : (x.raise .freezeSet .part 0).de = x.de := by simp
      exact deKept_markPage partPage (deKept_trans (markPendingCals_deKept s) raised)
    generalize (x.raise .freezeSet .part 0).markPart = v at *
    obtain ⟨t', answer, hands, told⟩ := accepted_replies (c := .freeze tag operand) rfl ready pass ran mp (by rw [cu])
    have frozen : v.cu.frozen = true := by rw [cu]
    have copies (l : LineId) : v.copies l = (s.copies l).freeze := by simp [State.copies, cu]
    refine ⟨_, t', answer, hands, told, frozen, copies, fun l h => replied_isDirty (dirty l h), told', ?_, lines,
      replied_deKeptButStatus (deKept_butStatus de), wu⟩
    rw [replied_cu, cu]
    rfl
  · have ran : s.runCommand tag 11 operand = (s, actedReply .accepted .none) := by
      rw [acts]
      simp [State.freeze, frozen]
    obtain ⟨t, t', answer, hands, told, lines, cu, de, nu, wu, -⟩ :=
      ownRefusal_answers (c := .freeze tag operand) rfl ready pass ran
    exact ⟨t, t', answer, hands, told, lines, cu, de, nu, wu⟩

end Sys2Proof.Machine
end

