-- ==== Sys2Proof/Proofs/WindowCommits.lean ====
section
/-! PROOF of O29. COMMIT_WINDOWS: the window section made live, every window by its old and new definition, and the
attendance (spec/08 R155, spec/09 R172, R173). -/

namespace Sys2Proof.Machine
open Sys2Proof

variable {s t u v w : State} {tag code operand : Byte} {p p' : Kind → Prop}

/-! ## The attendance within a longer action (R171, R172) -/

/-- The kinds a change of the attendance raises. -/
def attendanceKind (k : Kind) : Prop := k = .unattended ∨ k = .attended

theorem rederiveAttendance_records (s : State) (d : Nat) : keepsRecords attendanceKind s (s.rederiveAttendance d) :=
  ⟨by simp, fun k => by simp [State.levelOf, State.liveDelivery], fun _ hk =>
    rederiveAttendance_notRaised s d (fun e => hk (.inl e)) (fun e => hk (.inr e))⟩

/-- The attendance re-derived from `u` to `v`, with other notices before and after. -/
theorem attendanceFollows_of (before : u.wu.attendance = s.wu.attendance) (gzu : ∀ l : LineId, u.gzu l = s.gzu l)
    (k : keepsRecords p s u) (h : attendanceFollows u v) (wu : t.wu = v.wu) (cu : t.cu = v.cu)
    (dirty : isDirty v partPage → isDirty t partPage) (gzu' : ∀ l : LineId, t.gzu l = v.gzu l) (k' : keepsRecords p' v t)
    (hp : ∀ x, attendanceKind x → ¬p x ∧ ¬p' x) : attendanceFollows s t := by
  obtain ⟨derived, changed, unchanged⟩ := h
  have holds (w : WindowId) : holdsPart t w ↔ holdsPart v w := by
    simp only [holdsPart, State.windowDef, State.window, wu, cu]
  refine ⟨?_, fun h => ?_, fun h => ?_⟩
  · simp only [wu, holds]
    exact derived
  · rw [wu, ← before] at h
    obtain ⟨marked, copies⟩ := changed h
    exact ⟨dirty marked, fun l => by rw [gzu' l, wu]; exact copies l⟩
  · rw [wu, ← before] at h
    obtain ⟨noUnattended, noAttended, same⟩ := unchanged h
    have quiet (x : Kind) (hx : attendanceKind x) (middle : notRaised u v x) : notRaised s t x :=
      notRaised_trans (k.2.2 x (hp x hx).1) (notRaised_trans middle (k'.2.2 x (hp x hx).2))
    exact ⟨quiet _ (.inl rfl) noUnattended, quiet _ (.inr rfl) noAttended,
      fun l => ((gzu' l).trans (same l)).trans (gzu l)⟩

/-! ## The windows of a new section (R173) -/

/-- Every window as a new section makes it, before the attendance is re-derived. -/
def State.recommitted (s : State) (old : Bytes) : State :=
  s.modWu fun u =>
    { u with windows := Vector.ofFn fun w : WindowId =>
        commitWindow (Machine.windowDef old w.val) (s.windowDef w) u.windows[w] }

theorem applyWindows_eq (s : State) (old : Bytes) (held : List WindowId) :
    s.applyWindows old held = (s.recommitted old).rederiveAttendance (lowestWindow held) := rfl

/-- The windows of the live section treated by their old and new definitions. -/
structure Recommits (old : Bytes) (held : List WindowId) (s t : State) : Prop where
  windows : ∀ w : WindowId,
    t.window w = commitWindow (Machine.windowDef old w.val) (s.windowDef w) (s.window w)
  follows : attendanceFollows s t
  again : s.wu.attendance = .unattended → t.wu.attendance = .attended →
    raisedIn s t .attended .part (BitVec.ofNat 16 (lowestWindow held))
  kept : keepsRecords attendanceKind s t
  cu : t.cu = s.cu
  mp : t.mp = s.mp
  hits : t.wu.ownedHits = s.wu.ownedHits
  lines : ∀ l : LineId, t.ls l = s.ls l ∧ t.sru l = s.sru l
  de : deKept s t

theorem recommits_applyWindows (s : State) (old : Bytes) (held : List WindowId) :
    Recommits old held s (s.applyWindows old held) := by
  rw [applyWindows_eq]
  obtain ⟨-, mp, -, -, lines, de⟩ := rederiveAttendance_kept (s.recommitted old) (lowestWindow held)
  obtain ⟨follows, windows, hits, cu, -, again, -⟩ :=
    rederiveAttendance_spec (rfl : (s.recommitted old).rederiveAttendance (lowestWindow held) = _)
  have kept := rederiveAttendance_records (s.recommitted old) (lowestWindow held)
  generalize (s.recommitted old).rederiveAttendance (lowestWindow held) = t at *
  refine ⟨fun w => ?_, follows, again, kept, cu, mp, hits, lines, de⟩
  have new : (s.recommitted old).window w
      = commitWindow (Machine.windowDef old w.val) (s.windowDef w) (s.window w) := by
    simp [State.recommitted, State.window, State.modWu]
  rw [← new, State.window, windows]
  rfl

/-- What COMMIT_WINDOWS makes of the part, in either order of the two blocks' notices (R101, R155, R173). -/
structure WindowsCommitted (tag : Byte) (s t : State) : Prop where
  windows : ∀ w : WindowId, t.window w = commitWindow (Machine.windowDef s.cu.liveWindows w.val)
    (Machine.windowDef s.cu.stagedWindows w.val) (s.window w)
  follows : attendanceFollows s t
  again : s.wu.attendance = .unattended → t.wu.attendance = .attended →
    raisedIn s t .attended .part (BitVec.ofNat 16 (lowestWindow s.unattendedWindows))
  told : raisedIn s t .configApplied .part (tag.setWidth 16)
  cu : t.cu = { s.cu with liveWindows := s.cu.stagedWindows, windowTag := tag }
  mp : t.mp = s.mp
  hits : t.wu.ownedHits = s.wu.ownedHits
  lines : ∀ l : LineId, t.ls l = s.ls l ∧ t.sru l = s.sru l
  de : deKept s t

/-- The state in which the window section is live; of the free values any may have been used. -/
def State.sectionLive (s : State) (tag : Byte) (n : Nat) : State := { s.liveWindowsFrom tag with free := n }

/-- CONFIG_APPLIED first, then the windows. -/
theorem windowsCommitted_applied (s : State) (tag : Byte) (n : Nat) :
    WindowsCommitted tag s (((s.sectionLive tag n).raise .configApplied .part tag.toNat).applyWindows s.cu.liveWindows
      s.unattendedWindows) := by
  have live : keepsRecords (fun _ => False) s (s.sectionLive tag n) := keepsRecords_of rfl rfl
  have raised : keepsRecords (· = .configApplied) (s.sectionLive tag n)
      ((s.sectionLive tag n).raise .configApplied .part tag.toNat) := keepsRecords_raise _ _ _ _ rfl
  have frame : ((s.sectionLive tag n).raise .configApplied .part tag.toNat).lines = s.lines
      ∧ ((s.sectionLive tag n).raise .configApplied .part tag.toNat).cu = (s.sectionLive tag n).cu
      ∧ ((s.sectionLive tag n).raise .configApplied .part tag.toNat).de = s.de
      ∧ ((s.sectionLive tag n).raise .configApplied .part tag.toNat).mp = s.mp
      ∧ ((s.sectionLive tag n).raise .configApplied .part tag.toNat).wu = s.wu := by
    simp [State.sectionLive, State.liveWindowsFrom]
  have r := recommits_applyWindows ((s.sectionLive tag n).raise .configApplied .part tag.toNat) s.cu.liveWindows
    s.unattendedWindows
  have told : raisedIn s _ .configApplied .part (tag.setWidth 16) :=
    raisedIn_of (u := (s.sectionLive tag n).raise .configApplied .part tag.toNat)
      (keepsRecords_mono (fun _ h => h.elim) live) rfl r.kept (by rintro (h | h) <;> cases h) (by simp)
  have before : keepsRecords (· = .configApplied) s ((s.sectionLive tag n).raise .configApplied .part tag.toNat) :=
    keepsRecords_trans (keepsRecords_mono (fun _ h => h.elim) live) raised
  obtain ⟨lines, cu, de, mp, wu⟩ := frame
  generalize (s.sectionLive tag n).raise .configApplied .part tag.toNat = u at *
  generalize u.applyWindows s.cu.liveWindows s.unattendedWindows = t at *
  have gzu (l : LineId) : u.gzu l = s.gzu l := by simp only [State.gzu, lines]
  refine ⟨fun w => ?_, ?_, fun h h' => ?_, told, r.cu.trans cu, r.mp.trans mp, r.hits.trans (by rw [wu]), fun l => ?_, ?_⟩
  · rw [r.windows w, State.windowDef, cu, State.window, wu]
    rfl
  · refine attendanceFollows_of (by rw [wu]) gzu before r.follows rfl rfl id (fun _ => rfl)
      (keepsRecords_refl (fun _ => False) t) ?_
    rintro x (rfl | rfl) <;> exact ⟨by decide, id⟩
  · exact raisedIn_between before (r.again (by rw [wu]; exact h) h') (keepsRecords_refl (fun _ => False) t) id
  · obtain ⟨ls, sru⟩ := r.lines l
    exact ⟨ls.trans (by simp only [State.ls, lines]), sru.trans (by simp only [State.sru, lines])⟩
  · obtain ⟨de', faulted⟩ := r.de
    exact ⟨by rw [de', de], fun p => (faulted p).trans (by simp only [State.page, de])⟩

/-- The windows first, then CONFIG_APPLIED. -/
theorem windowsCommitted_worked (s : State) (tag : Byte) (n : Nat) :
    WindowsCommitted tag s (((s.sectionLive tag n).applyWindows s.cu.liveWindows s.unattendedWindows).raise .configApplied
      .part tag.toNat) := by
  have live : keepsRecords (fun _ => False) s (s.sectionLive tag n) := keepsRecords_of rfl rfl
  have r := recommits_applyWindows (s.sectionLive tag n) s.cu.liveWindows s.unattendedWindows
  generalize (s.sectionLive tag n).applyWindows s.cu.liveWindows s.unattendedWindows = u at *
  have frame : (u.raise .configApplied .part tag.toNat).lines = u.lines ∧ (u.raise .configApplied .part tag.toNat).cu = u.cu
      ∧ (u.raise .configApplied .part tag.toNat).de = u.de ∧ (u.raise .configApplied .part tag.toNat).mp = u.mp
      ∧ (u.raise .configApplied .part tag.toNat).wu = u.wu := by
    simp
  have raised : keepsRecords (· = .configApplied) u (u.raise .configApplied .part tag.toNat) := keepsRecords_raise _ _ _ _ rfl
  have before : keepsRecords attendanceKind s u := keepsRecords_trans (keepsRecords_mono (fun _ h => h.elim) live) r.kept
  have told : raisedIn s (u.raise .configApplied .part tag.toNat) .configApplied .part (tag.setWidth 16) :=
    raisedIn_of (keepsRecords_mono (fun _ _ => trivial) before) rfl (keepsRecords_refl (fun _ => False) _) id (by simp)
  obtain ⟨lines, cu, de, mp, wu⟩ := frame
  generalize u.raise .configApplied .part tag.toNat = t at *
  have gzu (l : LineId) : t.gzu l = u.gzu l := by simp only [State.gzu, lines]
  refine ⟨fun w => ?_, ?_, fun h h' => ?_, told, cu.trans r.cu, mp.trans r.mp, by rw [wu]; exact r.hits, fun l => ?_, ?_⟩
  · rw [State.window, wu]
    exact r.windows w
  · refine attendanceFollows_of rfl (fun _ => rfl) live r.follows wu cu (fun h => ?_) gzu raised ?_
    · simp only [isDirty, State.page, de]
      exact h
    · rintro x (rfl | rfl) <;> exact ⟨id, by decide⟩
  · rw [wu] at h'
    exact raisedIn_between live (r.again h h') raised (by decide)
  · obtain ⟨ls, sru⟩ := r.lines l
    exact ⟨Eq.trans (by simp only [State.ls, lines]) ls, Eq.trans (by simp only [State.sru, lines]) sru⟩
  · obtain ⟨de', faulted⟩ := r.de
    exact ⟨by rw [de, de']; rfl, fun p => Eq.trans (by simp only [State.page, de]) (faulted p)⟩

theorem windowsLive_committed (s : State) (tag : Byte) : WindowsCommitted tag s (s.windowsLive tag) := by
  have live : s.liveWindowsFrom tag = s.sectionLive tag s.free := rfl
  have used : (s.sectionLive tag s.free).usedFree = s.sectionLive tag (s.free + 1) := rfl
  simp only [State.windowsLive, live, used]
  split
  · split
    · exact windowsCommitted_applied s tag (s.free + 1)
    · exact windowsCommitted_worked s tag (s.free + 1)
  · exact windowsCommitted_worked s tag s.free

/-! ## What the new section says of each window and of the part -/

theorem commitWindow_enabled (old new : WindowDef) (x : Window) (h : new.enable = true) :
    (commitWindow old new x).state = .watching
      ∧ (commitWindow old new x).timer = if new.timeoutMs = 0 then none else some new.timeoutMs := by
  simp [commitWindow, h, loadTimer]

theorem commitWindow_disabled (old new : WindowDef) (x : Window) (h : new.enable = false) :
    (commitWindow old new x).state = .idle ∧ (commitWindow old new x).timer = none
      ∧ (commitWindow old new x).active = false := by
  simp [commitWindow, h]

theorem commitWindow_same (old new : WindowDef) (x : Window) (h : new = old) :
    (commitWindow old new x).guardHits = x.guardHits
      ∧ (new.enable = true → (commitWindow old new x).active = x.active) := by
  subst h
  simp +contextual [commitWindow]

theorem commitWindow_changed (old new : WindowDef) (x : Window) (h : new ≠ old) :
    (commitWindow old new x).guardHits = 0 ∧ (commitWindow old new x).active = false := by
  simp [commitWindow, Ne.symm h]

/-- No window is EXPIRED after a commit, so none holds the part UNATTENDED. -/
theorem windowsCommitted_attended (h : WindowsCommitted tag s t) : t.wu.attendance = .attended := by
  have none (w : WindowId) : ¬holdsPart t w := by
    rintro ⟨-, -, expired⟩
    rw [h.windows w] at expired
    cases he : (Machine.windowDef s.cu.stagedWindows w.val).enable <;> simp [commitWindow, he] at expired
  cases ha : t.wu.attendance with
  | attended => rfl
  | unattended =>
    obtain ⟨w, holds⟩ := h.follows.1.mp ha
    exact absurd holds (none w)

/-- At a return to ATTENDED the notice names the lowest window that held the part before. -/
theorem windowsCommitted_again (h : WindowsCommitted tag s t) : attendedAgain s t := by
  intro was now w holds lowest
  have told := h.again was now
  have first : lowestWindow s.unattendedWindows = w.val :=
    lowestWindow_filter (holdsUnattended_iff.mpr holds) fun v below hv => lowest v below (holdsUnattended_iff.mp hv)
  rwa [first] at told

/-- Settles O29: the staged window section is refused or live at once. -/
theorem commitWindowsAppliesSection : Obligations.CommitWindowsAppliesSection := by
  refine ⟨fun tag operand s off ready fails => ?_, fun tag operand s ready valid => ?_⟩
  · have ran : s.runCommand tag 3 operand = s.commitWindows tag := rfl
    refine ownRefusal_answers (rep := rangeReply off) rfl ready (partCommand_notRefused s operand (.inl rfl)) (ran.trans ?_)
    simp only [State.commitWindows, fails]
  · have ran : s.runCommand tag 3 operand = ((s.windowsLive tag).markPart, actedReply .accepted .none) := by
      have acts : s.runCommand tag 3 operand = s.commitWindows tag := rfl
      rw [acts]
      simp only [State.commitWindows, valid]
    have h := windowsLive_committed s tag
    generalize s.windowsLive tag = v at *
    obtain ⟨t', answer, hands, told⟩ := accepted_replies (c := .commitWindows tag operand) rfl ready
      (partCommand_notRefused s operand (.inl rfl)) ran h.mp (by rw [markPart_cu, h.cu])
    have liveWindows : v.cu.liveWindows = s.cu.stagedWindows := by rw [h.cu]
    have windowTag : v.cu.windowTag = tag := by rw [h.cu]
    have copies : v.cu.lines = s.cu.lines := by rw [h.cu]
    have window (w : WindowId) := h.windows w
    have de : deKeptButStatus s v.markPart := deKept_butStatus (deKept_markPage partPage h.de)
    obtain ⟨derived, changed, unchanged⟩ := h.follows
    have attended := windowsCommitted_attended h
    have again := windowsCommitted_again h
    refine ⟨_, t', answer, hands, told, liveWindows, windowTag, copies, h.told, fun w => ?_, attended,
      ⟨derived, fun c => ⟨replied_isDirty (markPage_isDirty v partPage), (changed c).2⟩, unchanged⟩,
      again, h.lines, replied_deKeptButStatus de, h.hits⟩
    have same : (s.replied v.markPart tag 3 (actedReply .accepted .none)).window w = _ := window w
    simp only [same]
    exact ⟨commitWindow_enabled _ _ _, commitWindow_disabled _ _ _, commitWindow_same _ _ _, commitWindow_changed _ _ _⟩

end Sys2Proof.Machine
end

