-- ==== Sys2Proof/Proofs/Loads.lean ====
section
/-! PROOF of O31. LOAD: the words to be read and the load buffer (spec/08 R150, R159). -/

namespace Sys2Proof.Machine
open Sys2Proof

variable {s t u v w : State} {tag operand : Byte}

/-! ## A section's place in a buffer -/

/-- The 256 bytes of a buffer from a place on. -/
def slice (buffer : List Byte) (i : Nat) : List Byte := (buffer.drop i).take 256

theorem slice_append_left {a b : List Byte} {i : Nat} (h : i + 256 ≤ a.length) : slice (a ++ b) i = slice a i := by
  rw [slice, List.drop_append_of_le_length (by omega), List.take_append_of_le_length (by rw [List.length_drop]; omega), slice]

theorem slice_append_right {a b : List Byte} {i n : Nat} (h : a.length = n) : slice (a ++ b) (n + i) = slice b i := by
  rw [slice, ← h, List.drop_length_add_append, slice]

theorem slice_whole {a : List Byte} (h : a.length = 256) : slice a 0 = a := by
  rw [slice, List.drop_zero, List.take_of_length_le (by omega)]

/-- Four sections stand one after the other. -/
theorem slice_flatMap {f : LineId → List Byte} (h : ∀ l, (f l).length = 256) (l : LineId) :
    slice ((List.finRange 4).flatMap f) (256 * l.val) = f l := by
  have four : (List.finRange 4).flatMap f = f 0 ++ (f 1 ++ (f 2 ++ f 3)) := by
    rw [show List.finRange 4 = [0, 1, 2, 3] from rfl]
    simp
  rw [four]
  match l with
  | 0 => exact (slice_append_left (i := 0) (Nat.le_of_eq (h 0).symm)).trans (slice_whole (h 0))
  | 1 => exact (slice_append_right (i := 0) (h 0)).trans ((slice_append_left (Nat.le_of_eq (h 1).symm)).trans (slice_whole (h 1)))
  | 2 => exact (slice_append_right (i := 256) (h 0)).trans ((slice_append_right (i := 0) (h 1)).trans
      ((slice_append_left (Nat.le_of_eq (h 2).symm)).trans (slice_whole (h 2))))
  | 3 => exact (slice_append_right (i := 512) (h 0)).trans ((slice_append_right (i := 256) (h 1)).trans
      ((slice_append_right (i := 0) (h 2)).trans (slice_whole (h 3))))

theorem flatMap_length {f : LineId → List Byte} (h : ∀ l, (f l).length = 256) :
    ((List.finRange 4).flatMap f).length = 1024 := by
  rw [show List.finRange 4 = [0, 1, 2, 3] from rfl]
  simp [h]

theorem ofNat_line (l : LineId) : (Fin.ofNat 4 l.val : LineId) = l := Fin.ofNat_val_eq_self l

/-! ## The bytes that a load covers -/

theorem bytes_length (b : Bytes) : b.toList.length = 256 := by simp

/-- The buffer of a load of all sections: delivery, windows, lines and, with the freeze clear, calibrations. -/
theorem stagedBytes_all (c : Cu) (frozen : Bool) {code : Nat} (h : 10 ≤ code) : c.stagedBytes code frozen
    = c.stagedDelivery.toList ++ (c.stagedWindows.toList ++ ((List.finRange 4).flatMap (fun l : LineId => c.lines[l].stagedLine.toList)
      ++ (if frozen then [] else (List.finRange 4).flatMap fun l : LineId => c.lines[l].stagedCal.toList))) := by
  have h3 : ¬code ≤ 3 := by omega
  have h7 : ¬code ≤ 7 := by omega
  have h8 : code ≠ 8 := by omega
  have h9 : code ≠ 9 := by omega
  simp only [Cu.stagedBytes, h3, h7, h8, h9, if_false, List.append_assoc]

theorem stagedBytes_length (c : Cu) (frozen : Bool) (code : Nat) :
    (c.stagedBytes code frozen).length = 4 * (loadOffsets code frozen).length := by
  rw [loadOffsets, List.length_map, List.length_range, loadWords]
  by_cases all : 10 ≤ code
  · have big : ¬code ≤ 9 := by omega
    rw [stagedBytes_all c frozen all, if_neg big]
    have lines := flatMap_length fun l => bytes_length c.lines[l].stagedLine
    have cals := flatMap_length fun l => bytes_length c.lines[l].stagedCal
    rw [List.length_append, List.length_append, List.length_append, lines, bytes_length, bytes_length]
    cases frozen with
    | true => rfl
    | false => rw [if_neg Bool.false_ne_true, cals]; rfl
  · have few : code ≤ 9 := by omega
    rw [if_pos few, Cu.stagedBytes]
    (repeat' split) <;> simp <;> omega

/-- Each section that a load covers stands in its buffer at its place. -/
theorem stagedBytes_slice (s : State) (code : Nat) (frozen : Bool) (sec : SectionId)
    (covers : loadCovers code (s.cu.stagedBytes code frozen).length sec) :
    slice (s.cu.stagedBytes code frozen) (loadPlace code sec) = (stagedOf s sec).toList := by
  have lines := slice_flatMap (f := fun l : LineId => s.cu.lines[l].stagedLine.toList) fun l => bytes_length _
  have linesLength := flatMap_length (f := fun l : LineId => s.cu.lines[l].stagedLine.toList) fun l => bytes_length _
  have cals := slice_flatMap (f := fun l : LineId => s.cu.lines[l].stagedCal.toList) fun l => bytes_length _
  by_cases all : 10 ≤ code
  · have notSmall : ¬code < 10 := by omega
    have unfrozen (l : LineId) (h : sec = .cal l) : frozen = false := by
      subst h
      have big : ¬code ≤ 9 := by omega
      simp only [loadCovers, stagedBytes_length, loadOffsets, List.length_map, List.length_range, loadWords, big,
        if_false] at covers
      cases frozen with
      | false => rfl
      | true =>
        simp only [if_true] at covers
        omega
    rw [stagedBytes_all s.cu frozen all]
    simp only [loadPlace, if_neg notSmall]
    clear covers
    cases sec with
    | delivery => exact (slice_append_left (Nat.le_of_eq (bytes_length _).symm)).trans (slice_whole (bytes_length _))
    | windows =>
      exact (slice_append_right (i := 0) (bytes_length _)).trans
        ((slice_append_left (Nat.le_of_eq (bytes_length _).symm)).trans (slice_whole (bytes_length _)))
    | line l =>
      have inside : 256 * l.val + 256 ≤ 1024 := by omega
      dsimp only
      rw [show 512 + 256 * l.val = 256 + (256 + 256 * l.val) by omega, slice_append_right (bytes_length _),
        slice_append_right (bytes_length _), slice_append_left (by rw [linesLength]; exact inside), lines l]
      rfl
    | cal l =>
      obtain rfl := unfrozen l rfl
      dsimp only
      rw [show 1536 + 256 * l.val = 256 + (256 + (1024 + 256 * l.val)) by omega, slice_append_right (bytes_length _),
        slice_append_right (bytes_length _), slice_append_right linesLength]
      exact cals l
  · have place : loadPlace code sec = 0 := if_pos (by omega)
    rw [place]
    cases sec with
    | delivery =>
      obtain rfl : code = 9 := by simp only [loadCovers] at covers; omega
      exact slice_whole (bytes_length _)
    | windows =>
      obtain rfl : code = 8 := by simp only [loadCovers] at covers; omega
      exact slice_whole (bytes_length _)
    | line l =>
      obtain rfl : code = l.val := by simp only [loadCovers] at covers; omega
      rw [Cu.stagedBytes, if_pos (by omega), ofNat_line]
      exact slice_whole (bytes_length _)
    | cal l =>
      obtain rfl : code = 4 + l.val := by simp only [loadCovers] at covers; omega
      rw [Cu.stagedBytes, if_neg (by omega), if_pos (by omega), Nat.add_sub_cancel_left, ofNat_line]
      exact slice_whole (bytes_length _)

/-- The load that a LOAD of a section code begins. -/
def State.loadBegun (s : State) (code : Nat) : Load :=
  { code := code, start := loadStart code, left := loadOffsets code s.cu.frozen, buffer := s.cu.stagedBytes code s.cu.frozen }

/-- Settles O31: the load, its offsets and its buffer. -/
theorem loadStartsReading : Obligations.LoadStartsReading := by
  intro tag operand s ready small unfrozen
  have touches : (touchesCalibration 5 operand && s.cu.frozen) = false := by
    cases hf : s.cu.frozen <;> simp [touchesCalibration]
    intro four
    exact Nat.lt_of_not_le fun seven => unfrozen ⟨hf, four, seven⟩
  have pass : notRefused s 5 operand := ⟨rfl, by simpa [operandOut] using small, touches⟩
  have ran : s.runCommand tag 5 operand = s.startLoad operand.toNat := rfl
  obtain ⟨t', answer, hands, told⟩ := accepted_replies (c := .load tag operand) rfl ready pass ran rfl rfl
  have words : (loadOffsets operand.toNat s.cu.frozen).length = loadWords operand.toNat s.cu.frozen := by
    simp [loadOffsets]
  refine ⟨_, t', s.loadBegun operand.toNat, answer, hands, told, rfl, rfl, rfl, words, fun i hi => ?_, rfl,
    stagedBytes_length _ _ _, fun sec covers => stagedBytes_slice s operand.toNat s.cu.frozen sec covers, rfl, rfl,
    replied_deKeptButStatus (deKept_butStatus (deKept_markPage partPage (deKept_eq rfl))), rfl, rfl⟩
  have inside : i < loadWords operand.toNat s.cu.frozen := words ▸ hi
  simp only [State.loadBegun, loadOffsets, List.getElem?_map, List.getElem?_range inside]
  rfl

/-! ## The buffer taken into the staged copies (R161) -/

/-- The staged copies of a line after a load of this code and buffer. -/
def LineCopies.taking (c : LineCopies) (x : Load) (l : LineId) : LineCopies :=
  { c with
    stagedLine := if x.code = l.val then sectionAt x.buffer 0
      else if 10 ≤ x.code then sectionAt x.buffer (512 + 256 * l.val) else c.stagedLine
    stagedCal := if x.code = 4 + l.val then sectionAt x.buffer 0
      else if 10 ≤ x.code ∧ 1536 < x.buffer.length then sectionAt x.buffer (1536 + 256 * l.val) else c.stagedCal }

/-- A load of one line section takes its staged copy alone. -/
theorem takeBuffer_line (c : Cu) (x : Load) {k : LineId} (h : x.code = k.val) : c.takeBuffer x
    = { c with lines := modAt c.lines k fun y => { y with stagedLine := sectionAt x.buffer 0 } } := by
  have small : x.code ≤ 3 := by omega
  rw [Cu.takeBuffer]
  simp only [if_pos small]
  rw [h, ofNat_line]

theorem takeBuffer_cal (c : Cu) (x : Load) {k : LineId} (h : x.code = 4 + k.val) : c.takeBuffer x
    = { c with lines := modAt c.lines k fun y => { y with stagedCal := sectionAt x.buffer 0 } } := by
  have big : ¬x.code ≤ 3 := by omega
  have small : x.code ≤ 7 := by omega
  rw [Cu.takeBuffer]
  simp only [if_neg big, if_pos small]
  rw [h, Nat.add_sub_cancel_left, ofNat_line]

theorem modAt_get {α : Type} {n : Nat} (v : Vector α n) (i j : Fin n) (f : α → α) :
    (modAt v i f)[j] = if j = i then f v[j] else v[j] := by
  by_cases h : j = i
  · subst h
    simp
  · rw [if_neg h]
    exact modAt_other v i j f h

theorem taking_line {x : Load} {k : LineId} (h : x.code = k.val) (c : LineCopies) (l : LineId) :
    c.taking x l = if l = k then { c with stagedLine := sectionAt x.buffer 0 } else c := by
  have noCal : x.code ≠ 4 + l.val := by omega
  have few : ¬10 ≤ x.code := by omega
  by_cases same : l = k
  · subst same
    simp only [LineCopies.taking, if_pos h, if_neg noCal, if_true]
    simp [few]
  · have other : x.code ≠ l.val := fun e => same (Fin.ext (e.symm.trans h))
    simp [LineCopies.taking, noCal, few, same, other]

theorem taking_cal {x : Load} {k : LineId} (h : x.code = 4 + k.val) (c : LineCopies) (l : LineId) :
    c.taking x l = if l = k then { c with stagedCal := sectionAt x.buffer 0 } else c := by
  have noLine : x.code ≠ l.val := by omega
  have few : ¬10 ≤ x.code := by omega
  by_cases same : l = k
  · subst same
    simp only [LineCopies.taking, if_pos h, if_neg noLine, if_neg few, if_true]
  · have other : x.code ≠ 4 + l.val := fun e => same (Fin.ext (Nat.add_left_cancel (e.symm.trans h)))
    simp [LineCopies.taking, noLine, few, same, other]

theorem taking_none {x : Load} (h : x.code = 8 ∨ x.code = 9) (c : LineCopies) (l : LineId) : c.taking x l = c := by
  have noLine : x.code ≠ l.val := by omega
  have noCal : x.code ≠ 4 + l.val := by omega
  have few : ¬10 ≤ x.code := by omega
  simp [LineCopies.taking, noLine, noCal, few]

/-- A load of all sections takes every staged copy, the calibrations only where the buffer holds them. -/
theorem takeBuffer_all (c : Cu) (x : Load) (h : 10 ≤ x.code) : c.takeBuffer x
    = { c with
        stagedDelivery := sectionAt x.buffer 0, stagedWindows := sectionAt x.buffer 256
        lines := Vector.ofFn fun l : LineId => c.lines[l].taking x l } := by
  have taking (l : LineId) : c.lines[l].taking x l = { c.lines[l] with
      stagedLine := sectionAt x.buffer (512 + 256 * l.val)
      stagedCal := if x.buffer.length ≤ 1536 then c.lines[l].stagedCal else sectionAt x.buffer (1536 + 256 * l.val) } := by
    have noLine : x.code ≠ l.val := by omega
    have noCal : x.code ≠ 4 + l.val := by omega
    by_cases long : x.buffer.length ≤ 1536
    · simp [LineCopies.taking, noLine, noCal, h, long, Nat.not_lt.mpr long]
    · simp [LineCopies.taking, noLine, noCal, h, long, Nat.lt_of_not_le long]
  have h3 : ¬x.code ≤ 3 := by omega
  have h7 : ¬x.code ≤ 7 := by omega
  have h8 : x.code ≠ 8 := by omega
  have h9 : x.code ≠ 9 := by omega
  simp only [Cu.takeBuffer, h3, h7, h8, h9, if_false, taking]

/-- The staged copies take the buffer, section by section; nothing else of the CU changes. -/
theorem takeBuffer_spec (c : Cu) (x : Load) :
    (∀ l : LineId, (c.takeBuffer x).lines[l] = c.lines[l].taking x l)
      ∧ (c.takeBuffer x).stagedWindows = (if x.code = 8 then sectionAt x.buffer 0
          else if 10 ≤ x.code then sectionAt x.buffer 256 else c.stagedWindows)
      ∧ (c.takeBuffer x).stagedDelivery = (if x.code = 9 ∨ 10 ≤ x.code then sectionAt x.buffer 0 else c.stagedDelivery)
      ∧ c.takeBuffer x = { c with
          lines := (c.takeBuffer x).lines, stagedWindows := (c.takeBuffer x).stagedWindows
          stagedDelivery := (c.takeBuffer x).stagedDelivery } := by
  have few (h : x.code ≤ 7) : x.code ≠ 8 ∧ x.code ≠ 9 ∧ ¬10 ≤ x.code := by omega
  by_cases line : x.code ≤ 3
  · obtain ⟨k, hk⟩ : ∃ k : LineId, x.code = k.val := ⟨⟨x.code, by omega⟩, rfl⟩
    obtain ⟨n8, n9, n10⟩ := few (by omega)
    rw [takeBuffer_line c x hk]
    exact ⟨fun l => by rw [taking_line hk, modAt_get], by simp [n8, n10], by simp [n9, n10], rfl⟩
  by_cases cal : x.code ≤ 7
  · obtain ⟨k, hk⟩ : ∃ k : LineId, x.code = 4 + k.val := ⟨⟨x.code - 4, by omega⟩, by simp only; omega⟩
    obtain ⟨n8, n9, n10⟩ := few cal
    rw [takeBuffer_cal c x hk]
    exact ⟨fun l => by rw [taking_cal hk, modAt_get], by simp [n8, n10], by simp [n9, n10], rfl⟩
  by_cases windows : x.code = 8
  · have acts : c.takeBuffer x = { c with stagedWindows := sectionAt x.buffer 0 } := by simp [Cu.takeBuffer, windows]
    rw [acts]
    exact ⟨fun l => (taking_none (.inl windows) ..).symm, by simp [windows], by simp [windows], rfl⟩
  by_cases delivery : x.code = 9
  · have acts : c.takeBuffer x = { c with stagedDelivery := sectionAt x.buffer 0 } := by simp [Cu.takeBuffer, delivery]
    rw [acts]
    exact ⟨fun l => (taking_none (.inr delivery) ..).symm, by simp [delivery], by simp [delivery], rfl⟩
  · have all : 10 ≤ x.code := by omega
    rw [takeBuffer_all c x all]
    exact ⟨fun l => by simp, by simp [windows, all], by simp [all], rfl⟩

/-- A load's buffer taken by `t` in the place of the staged copies of `s` (R161). -/
theorem loadTaken_of {x : Load} (cu : t.cu.lines = (s.cu.takeBuffer x).lines
    ∧ t.cu.stagedWindows = (s.cu.takeBuffer x).stagedWindows ∧ t.cu.stagedDelivery = (s.cu.takeBuffer x).stagedDelivery
    ∧ t.cu.liveWindows = s.cu.liveWindows ∧ t.cu.liveDelivery = s.cu.liveDelivery) : loadTaken s t x.code x.buffer := by
  obtain ⟨lines, windows, delivery, liveWindows, liveDelivery⟩ := cu
  obtain ⟨takesLines, takesWindows, takesDelivery, -⟩ := takeBuffer_spec s.cu x
  have copies (l : LineId) : t.copies l = (s.copies l).taking x l := by
    rw [State.copies, lines, takesLines]
    rfl
  refine ⟨fun sec => ?_, fun l => by rw [copies]; rfl, liveWindows, liveDelivery⟩
  cases sec with
  | delivery =>
    simp only [loadCovers, stagedOf, delivery, takesDelivery, loadPlace, ite_self]
    exact ⟨fun h => if_pos h, fun h => if_neg h⟩
  | windows =>
    simp only [loadCovers, stagedOf, windows, takesWindows, loadPlace]
    refine ⟨fun h => ?_, fun h => ?_⟩
    · rcases h with one | all
      · simp [one, sectionAt]
      · simp [show x.code ≠ 8 by omega, all, Nat.not_lt.mpr all, sectionAt]
    · simp [show x.code ≠ 8 ∧ ¬10 ≤ x.code by omega]
  | line l =>
    simp only [loadCovers, stagedOf, copies, LineCopies.taking, loadPlace]
    refine ⟨fun h => ?_, fun h => ?_⟩
    · rcases h with one | all
      · simp only [if_pos one, if_pos (show x.code < 10 by omega), sectionAt]
      · simp only [if_neg (show x.code ≠ l.val by omega), if_pos all, if_neg (Nat.not_lt.mpr all), sectionAt]
    · simp only [if_neg (show x.code ≠ l.val by omega), if_neg (show ¬10 ≤ x.code by omega)]
  | cal l =>
    simp only [loadCovers, stagedOf, copies, LineCopies.taking, loadPlace]
    refine ⟨fun h => ?_, fun h => ?_⟩
    · rcases h with one | all
      · simp only [if_pos one, if_pos (show x.code < 10 by omega), sectionAt]
      · simp only [if_neg (show x.code ≠ 4 + l.val by omega), if_pos all, if_neg (Nat.not_lt.mpr all.1), sectionAt]
    · obtain ⟨notOne, notAll⟩ := not_or.mp h
      simp only [if_neg notOne, if_neg notAll]

end Sys2Proof.Machine
end

