-- ==== Sys2Proof/Proofs/Units.lean ====
section
/-! PROOF of O48 and O49. The rules of the units: bands and their means, the zone tests and moves, velocity, flow and
totals (spec/02 R38 to R48, spec/03 R60 to R66). -/

namespace Sys2Proof.Machine
open Sys2Proof

variable {s t : State} {d : ZoneDef}

/-! ## Lists over the six bands -/

theorem toList_finRange {α : Type} {n : Nat} (v : Vector α n) : v.toList = (List.finRange n).map fun k => v[k] := by
  refine List.ext_getElem (by simp) fun i h h' => ?_
  simp

/-- The bands from the lowest to the highest of a zone, out of six. -/
theorem zoneBands_finRange (d : ZoneDef) : zoneBands d (List.finRange 6)
    = (List.finRange 6).filter fun k => decide (d.bandLo ≤ k.val) && decide (k.val ≤ d.bandHi) := by
  have bounded : ∀ lo ≤ 6, ∀ hi ≤ 5, ((List.finRange 6).take (hi + 1)).drop lo
      = (List.finRange 6).filter fun k => decide (lo ≤ k.val) && decide (k.val ≤ hi) := by decide
  have low : ((List.finRange 6).take (d.bandHi + 1)).drop d.bandLo
      = ((List.finRange 6).take (min d.bandHi 5 + 1)).drop (min d.bandLo 6) := by
    have takes : (List.finRange 6).take (d.bandHi + 1) = (List.finRange 6).take (min d.bandHi 5 + 1) := by
      by_cases h : d.bandHi ≤ 5
      · rw [Nat.min_eq_left h]
      · rw [List.take_of_length_le, List.take_of_length_le] <;> simp <;> omega
    rw [takes]
    by_cases h : d.bandLo ≤ 6
    · rw [Nat.min_eq_left h]
    · rw [List.drop_of_length_le, List.drop_of_length_le] <;> simp <;> omega
  rw [zoneBands, low, bounded _ (Nat.min_le_right ..) _ (Nat.min_le_right ..)]
  refine List.filter_congr fun k _ => ?_
  have := k.isLt
  congr 1 <;> rw [decide_eq_decide] <;> omega

theorem zoneBands_map {α β : Type} (d : ZoneDef) (f : α → β) (l : List α) : zoneBands d (l.map f) = (zoneBands d l).map f := by
  simp [zoneBands, List.map_drop, List.map_take]

/-- The bands that contribute, each with its weight and velocity. -/
theorem contributors_map {ι : Type} (ks : List ι) (w : ι → Nat) (b : ι → BandResult) :
    contributors (ks.map w) (ks.map b)
      = (ks.filter fun k => decide (0 < w k) && (b k).quality.valid && (b k).velocity.isSome).map
        fun k => (w k, (b k).velocity.getD 0) := by
  induction ks with
  | nil => rfl
  | cons k ks ih =>
    simp only [contributors, List.map_cons, List.zip_cons_cons, List.filterMap_cons] at ih ⊢
    rw [ih]
    cases hv : (b k).velocity with
    | none => simp [hv]
    | some v => by_cases hw : 0 < w k <;> cases hq : (b k).quality.valid <;> simp [hv, hw, hq]

theorem weightedMean_map {ι : Type} (ks : List ι) (w : ι → Nat) (v : ι → Int) :
    weightedMean (ks.map fun k => (w k, v k)) = if ks = [] then none
      else some (((ks.map fun k => (w k : Int) * v k).sum).tdiv ((ks.map fun k => w k).sum : Nat)) := by
  by_cases h : ks = []
  · subst h
    rfl
  · have full : (ks.map fun k => (w k, v k)).isEmpty = false := by simpa using h
    rw [weightedMean, full, if_neg h]
    simp [Function.comp_def]

/-! ## The zone value and the lag of a column (R60, R63) -/

theorem zoneValue_eq (d : ZoneDef) (w : Nat → Nat) : zoneValue d ((List.range 6).map w) = valueOfColumn d w := by
  funext c
  have weights : (List.range 6).map w = (List.finRange 6).map fun k => w k.val := rfl
  have counted : (zoneBands d (List.finRange 6)).filter (fun k => decide (0 < w k.val) && c.bands[k].quality.valid
      && c.bands[k].velocity.isSome) = countedBands d w c := by
    rw [zoneBands_finRange, List.filter_filter, countedBands]
    refine List.filter_congr fun k _ => ?_
    simp only [Bool.and_comm, Bool.and_assoc, Bool.and_left_comm]
  rw [zoneValue, weights, toList_finRange c.bands, zoneBands_map, zoneBands_map, contributors_map, counted, weightedMean_map,
    valueOfColumn]

theorem columnLag_eq (d : ZoneDef) (w : Nat → Nat) : columnLag d ((List.range 6).map w) = lagOfColumn d w := by
  funext c
  rw [columnLag, zoneValue_eq, lagOfColumn, topVelocity]
  cases c.bands[5].quality.valid <;> cases c.bands[5].velocity <;> cases valueOfColumn d w c <;> rfl

/-! ## The zone tests (R61 to R63) -/

/-- A lookback that the grid does not fill, or of which fewer than half contribute (R61). -/
def tooFew (grid : List Column) (k : Nat) (vs : List Int) : Prop := grid.length < k ∨ 2 * vs.length < k

theorem averageTest_spec (grid : List Column) (k : Nat) (value : Column → Option Int) (test : Int → Int → Bool) :
    let vs := (grid.drop (grid.length - k)).filterMap value
    (tooFew grid k vs → averageTest grid k value test = .notEvaluable)
      ∧ (¬tooFew grid k vs → averageTest grid k value test = if test vs.sum vs.length then .holds else .fails) := by
  simp only [averageTest, newestColumns, tooFew]
  by_cases full : grid.length < k
  · simp [full]
  · rw [if_neg full]
    dsimp only
    generalize (grid.drop (grid.length - k)).filterMap value = vs
    refine ⟨fun few => ?_, fun enough => ?_⟩
    · rw [if_pos]
      have := few.resolve_left full
      omega
    · rw [if_neg]
      have : ¬2 * vs.length < k := fun h => enough (.inr h)
      omega

theorem stillTest_holds (d : ZoneDef) (still : Vector (BitVec 8) 6) : stillTest d still.toList = .holds
    ↔ ∀ k : Fin 6, d.bandLo ≤ k.val → k.val ≤ d.bandHi → d.limit ≤ ((still[k].toNat : Nat) : Int) := by
  rw [stillTest, toList_finRange still, zoneBands_map, zoneBands_finRange]
  simp

theorem stillTest_fails (d : ZoneDef) (still : Vector (BitVec 8) 6) (h : stillTest d still.toList ≠ .holds) :
    stillTest d still.toList = .fails := by
  cases ht : stillTest d still.toList with
  | holds => exact absurd ht h
  | fails => rfl
  | notEvaluable =>
    rw [stillTest] at ht
    split at ht <;> cases ht

/-- One zone evaluated, whether it is enabled or not (R64, R65). -/
theorem evalZone_disabled {l : LineId} {z : Fin 4} (h : (zoneDef (s.liveLine l) z.val).enable = false) :
    s.evalZone l z = s := by
  simp [State.evalZone, h]

theorem evalZone_quiet {l : LineId} {z : Fin 4} (h : (verdictIn s l z).2 = .none) : (s.evalZone l z).nu = s.nu := by
  simp only [State.evalZone]
  split
  · have event : (zoneMove (zoneDef (s.liveLine l) z.val) (s.gzu l).zones[z]
        (zoneTest (zoneDef (s.liveLine l) z.val) ((List.range 6).map (weight (s.liveCal l))) (s.gzu l).grid
          (s.gzu l).still.toList)).2 = .none := h
    rw [event]
    rfl
  · rfl

/-- Settles O48: the moves of a zone, its evaluation, and the three tests. -/
theorem zoneMovesByTable : Obligations.ZoneMovesByTable := by
  refine ⟨fun d n => ⟨fun z => ?_, rfl, rfl, rfl, rfl, rfl, rfl, rfl, rfl⟩, fun s l z => ⟨fun enable => ?_, evalZone_disabled⟩,
    fun d w grid still => ⟨fun below => ?_, fun stand => ?_, fun spread => ?_⟩⟩
  · simp only [zoneMove]
  · obtain ⟨-, -, zones, -, trips, clears⟩ := evalZone_spec (rfl : s.evalZone l z = _)
    exact ⟨(zones z).trans (if_pos ⟨rfl, enable⟩), fun h => trips ⟨enable, h⟩, fun h => clears ⟨enable, h⟩, evalZone_quiet⟩
  · rw [zoneTest, if_pos below, zoneValue_eq]
    obtain ⟨few, enough⟩ := averageTest_spec grid d.lookback (valueOfColumn d w) fun sum n => decide (sum < d.limit * n)
    refine ⟨few, fun h low => ?_, fun h high => ?_⟩
    · rw [enough h, if_pos (by simpa using low)]
    · rw [enough h, if_neg (by simpa using high)]
  · have test : zoneTest d ((List.range 6).map w) grid still.toList = stillTest d still.toList := by
      simp [zoneTest, stand]
    simp only [test]
    refine ⟨(stillTest_holds d still).mpr, fun ⟨k, lo, hi, moved⟩ => stillTest_fails d still fun h => ?_⟩
    exact absurd ((stillTest_holds d still).mp h k lo hi) (Int.not_le.mpr moved)
  · have test : zoneTest d ((List.range 6).map w) grid still.toList
        = averageTest grid d.lookback (lagOfColumn d w) fun sum n => decide (d.limit * n < sum) := by
      simp [zoneTest, spread, columnLag_eq]
    simp only [test]
    obtain ⟨few, enough⟩ := averageTest_spec grid d.lookback (lagOfColumn d w) fun sum n => decide (d.limit * n < sum)
    refine ⟨few, fun h high => ?_, fun h low => ?_⟩
    · rw [enough h, if_pos (by simpa using high)]
    · rw [enough h, if_neg (by simpa using low)]

/-! ## Half results and bands (R38 to R42) -/

theorem halfResult_spec (p : CycleParams) (a : Accum) :
    (a.seen < p.minSamples → halfResult p a = .noData)
      ∧ (p.minSamples ≤ a.seen → a.accepted < p.minSamples → halfResult p a = .spoiled)
      ∧ (p.minSamples ≤ a.seen → p.minSamples ≤ a.accepted → p.rejectLimit * a.seen < a.rejected * 16 →
          halfResult p a = .spoiled)
      ∧ (p.minSamples ≤ a.seen → p.minSamples ≤ a.accepted → a.rejected * 16 ≤ p.rejectLimit * a.seen →
          halfResult p a = .good (a.sum.tdiv a.accepted)) := by
  refine ⟨fun few => if_pos few, fun seen few => ?_, fun seen enough noisy => ?_, fun seen enough quiet => ?_⟩
  · rw [halfResult, if_neg (Nat.not_lt.mpr seen), if_pos few]
  · rw [halfResult, if_neg (Nat.not_lt.mpr seen), if_neg (Nat.not_lt.mpr enough), if_pos noisy]
  · rw [halfResult, if_neg (Nat.not_lt.mpr seen), if_neg (Nat.not_lt.mpr enough), if_neg (Nat.not_lt.mpr quiet)]

theorem velocityOf_spec (gain : Nat) (raw : Int) (q : Quality) :
    let v := (raw * gain).tdiv 65536
    (8000 < v → velocityOf gain raw q = { quality := .clipped, velocity := some 8000 })
      ∧ (v < -8000 → velocityOf gain raw q = { quality := .clipped, velocity := some (-8000) })
      ∧ (-8000 ≤ v → v ≤ 8000 → velocityOf gain raw q = { quality := q, velocity := some v }) := by
  intro v
  refine ⟨fun high => if_pos high, fun low => ?_, fun low high => ?_⟩
  · exact (if_neg (by omega)).trans (if_pos low)
  · exact (if_neg (by omega)).trans (if_neg (by omega))

theorem velocityOf_isSome (gain : Nat) (raw : Int) (q : Quality) : (velocityOf gain raw q).velocity.isSome = true := by
  simp only [velocityOf]
  (repeat' split) <;> rfl

/-- A band without a velocity has a quality that is not valid. -/
theorem combine_none {b : Bool} {o : Offset} {p n : HalfResult} (h : (combine b o p n).1 = none) :
    (combine b o p n).2.valid = false := by
  cases p <;> cases n <;> cases b <;> cases hv : o.valid <;> simp_all [combine, Quality.valid]

/-- Every band of valid quality has a velocity. -/
theorem bandResult_velocity (b : Bool) (gain : Nat) (o : Offset) (p n : HalfResult)
    (valid : (bandResult b gain o p n).quality.valid = true) : (bandResult b gain o p n).velocity.isSome = true := by
  have invalid := combine_none (b := b) (o := o) (p := p) (n := n)
  rw [bandResult] at valid ⊢
  split
  next raw q h => exact velocityOf_isSome gain raw q
  next q h =>
    rw [h] at valid invalid
    exact absurd valid (by simp [invalid rfl])

/-! ## The mean of the bands (R43) -/

/-- The bands of a profile that count towards its mean. -/
def countingBands (p : CycleParams) (bands : Vector BandResult 6) : List (Fin 6) :=
  (List.finRange 6).filter fun k => bands[k].quality.valid && decide (0 < p.weights[k])

/-- The contributors of a profile, where every valid band has a velocity. -/
theorem contributors_bands (p : CycleParams) (bands : Vector BandResult 6)
    (h : ∀ k : Fin 6, bands[k].quality.valid = true → bands[k].velocity.isSome = true) :
    contributors p.weights.toList bands.toList
      = (countingBands p bands).map fun k => (p.weights[k], bands[k].velocity.getD 0) := by
  rw [toList_finRange p.weights, toList_finRange bands, contributors_map, countingBands]
  congr 1
  refine List.filter_congr fun k _ => ?_
  have velocity := h k
  cases hq : bands[k].quality.valid <;> simp_all

theorem profileMean_spec (p : CycleParams) (bands : Vector BandResult 6)
    (h : ∀ k : Fin 6, bands[k].quality.valid = true → bands[k].velocity.isSome = true) :
    let ks := countingBands p bands
    (ks ≠ [] → p.minValidBands ≤ ks.length → profileMean p bands
        = some (((ks.map fun k => ((p.weights[k] : Nat) : Int) * bands[k].velocity.getD 0).sum).tdiv
          ((ks.map fun k => p.weights[k]).sum : Nat)))
      ∧ (ks = [] ∨ ks.length < p.minValidBands → profileMean p bands = none) := by
  intro ks
  simp only [profileMean, contributors_bands p bands h, weightedMean_map, List.length_map]
  refine ⟨fun some enough => ?_, fun few => ?_⟩
  · exact (if_pos enough).trans (if_neg some)
  · split
    · rename_i enough
      exact if_pos (few.resolve_right (Nat.not_lt.mpr enough))
    · rfl

/-! ## Totals (R47, R48) -/

theorem sum_map_pairs {α : Type} (f g : α → Nat) (l : List α) :
    (l.map f).sum + (l.map g).sum = (l.map fun x => f x + g x).sum := by
  induction l with
  | nil => rfl
  | cons x xs ih =>
    simp only [List.map_cons, List.sum_cons]
    omega

theorem sampleTotal_eq (f : Accum → Nat) (p n : WindowAcc) :
    sampleTotal f p n = min 65535 (((List.finRange 6).map fun k => f p.bands[k] + f n.bands[k]).sum) := by
  rw [sampleTotal, toList_finRange p.bands, toList_finRange n.bands, List.map_map, List.map_map, sum_map_pairs]
  rfl

/-- What the totals become by the mean of a profile. -/
theorem addVolume_spec (u : Sru) (p : CycleParams) (mean : Option Int) :
    let volume (m : Int) (rem : Nat) : Nat := m.natAbs * p.area * p.cycleLength + rem
    let v := u.addVolume p mean
    (∀ m, mean = some m → 0 < m →
        v.forward.toNat = min (2 ^ 64 - 1) (u.forward.toNat + volume m u.forwardRem / 1000000)
        ∧ v.forwardRem = volume m u.forwardRem % 1000000 ∧ v.reverse = u.reverse ∧ v.reverseRem = u.reverseRem)
      ∧ (∀ m, mean = some m → m < 0 →
        v.reverse.toNat = min (2 ^ 64 - 1) (u.reverse.toNat + volume m u.reverseRem / 1000000)
        ∧ v.reverseRem = volume m u.reverseRem % 1000000 ∧ v.forward = u.forward ∧ v.forwardRem = u.forwardRem)
      ∧ (mean = some 0 ∨ mean = none → v.forward = u.forward ∧ v.forwardRem = u.forwardRem
        ∧ v.reverse = u.reverse ∧ v.reverseRem = u.reverseRem)
      ∧ (mean = none → v.untotalized = satInc u.untotalized) ∧ (mean ≠ none → v.untotalized = u.untotalized)
      ∧ v = { u with forward := v.forward, forwardRem := v.forwardRem, reverse := v.reverse, reverseRem := v.reverseRem
                     untotalized := v.untotalized } := by
  intro volume v
  cases mean with
  | none => exact ⟨fun m h => (by cases h), fun m h => (by cases h), fun _ => ⟨rfl, rfl, rfl, rfl⟩, fun _ => rfl, fun h => absurd rfl h, rfl⟩
  | some m =>
    rcases Int.lt_trichotomy m 0 with neg | rfl | pos
    · have moved : v = { u with
          reverse := satAdd u.reverse (volume m u.reverseRem / 1000000), reverseRem := volume m u.reverseRem % 1000000 } :=
        (if_neg (by omega)).trans (if_pos neg)
      rw [moved]
      refine ⟨fun m' h pos => ?_, fun m' h _ => ?_, fun h => ?_, fun h => (by cases h), fun _ => rfl, rfl⟩
      · cases h
        omega
      · cases h
        exact ⟨satAdd_toNat .., rfl, rfl, rfl⟩
      · rcases h with h | h <;> cases h
        omega
    · have kept : v = u := by simp [v, Sru.addVolume]
      rw [kept]
      refine ⟨fun m' h pos => ?_, fun m' h neg => ?_, fun _ => ⟨rfl, rfl, rfl, rfl⟩, fun h => (by cases h), fun _ => rfl, rfl⟩
      · cases h
        omega
      · cases h
        omega
    · have moved : v = { u with
          forward := satAdd u.forward (volume m u.forwardRem / 1000000), forwardRem := volume m u.forwardRem % 1000000 } :=
        if_pos pos
      rw [moved]
      refine ⟨fun m' h _ => ?_, fun m' h neg => ?_, fun h => ?_, fun h => (by cases h), fun _ => rfl, rfl⟩
      · cases h
        exact ⟨satAdd_toNat .., rfl, rfl, rfl⟩
      · cases h
        omega
      · rcases h with h | h <;> cases h
        omega

/-! ## Profiles (R45) -/

/-- The bands of the profile that a cycle forms. -/
def Sru.bandsOf (u : Sru) (p : CycleParams) : Vector BandResult 6 :=
  Vector.ofFn fun k : Fin 6 => bandResult p.allowSingle p.gains[k] u.offsets[k] (u.halvesP.getD noHalves)[k]
    (halfResults p u.accN)[k]

theorem bandsOf_velocity (u : Sru) (p : CycleParams) (k : Fin 6) (h : (u.bandsOf p)[k].quality.valid = true) :
    (u.bandsOf p)[k].velocity.isSome = true := by
  simp only [Sru.bandsOf, Fin.getElem_fin, Vector.getElem_ofFn] at h ⊢
  exact bandResult_velocity _ _ _ _ _ h

theorem formProfile_eq (u : Sru) (p : CycleParams) (l : LineId) (b : Bool) :
    (u.formProfile p l b).bands = u.bandsOf p ∧ (u.formProfile p l b).mean = profileMean p (u.bandsOf p)
      ∧ (u.formProfile p l b).flow = profileFlow p (profileMean p (u.bandsOf p)) := ⟨rfl, rfl, rfl⟩

theorem afterProfile_eq (u : Sru) (p : CycleParams) : u.afterProfile p
    = { u.addVolume p (profileMean p (u.bandsOf p)) with
        offsets := (u.afterProfile p).offsets, sequence := u.sequence + 1, halvesP := none } := rfl

theorem halfResults_get (p : CycleParams) (w : WindowAcc) (k : Fin 6) : (halfResults p w)[k] = halfResult p w.bands[k] := by
  simp [halfResults]

/-- Settles O49: half results, velocity, bands, offsets, the profile and the totals. -/
theorem velocityAndFlow : Obligations.VelocityAndFlow := by
  refine ⟨halfResult_spec, velocityOf_spec, fun gain o h mp mn b => ?_, fun o p n => ?_, fun u p l b => ?_, fun u p l b => ?_⟩
  · refine ⟨rfl, fun bad => ⟨fun valid => ?_, fun valid => ?_, fun invalid => ⟨?_, ?_⟩, ?_⟩, rfl, rfl, rfl, rfl, rfl, rfl⟩
    all_goals
      rcases bad with rfl | rfl
      all_goals
        simp [bandResult, combine, *]
  · refine ⟨fun mp mn hp hn => by rw [hp, hn]; rfl, fun bad => ?_⟩
    cases p <;> cases n <;> simp_all [nextOffset]
  · obtain ⟨mean, noMean⟩ := profileMean_spec p (u.bandsOf p) (bandsOf_velocity u p)
    refine ⟨fun k => ?_, mean, noMean, fun m hm => ?_, fun hm => ?_, rfl, rfl, rfl, rfl, rfl, ?_, sampleTotal_eq .., sampleTotal_eq ..⟩
    · have band : (u.bandsOf p)[k] = bandResult p.allowSingle p.gains[k] u.offsets[k] (u.halvesP.getD noHalves)[k]
          (halfResult p u.accN.bands[k]) := by
        rw [← halfResults_get]
        simp [Sru.bandsOf]
      exact band
    · have flow : (u.formProfile p l b).flow = profileFlow p (u.formProfile p l b).mean := rfl
      rw [flow, hm]
      rfl
    · have flow : (u.formProfile p l b).flow = profileFlow p (u.formProfile p l b).mean := rfl
      rw [flow, hm]
      rfl
    · have clipped : (u.formProfile p l b).anyClipped = (u.bandsOf p).any fun x => x.quality == .clipped := rfl
      have bands : (u.formProfile p l b).bands = u.bandsOf p := rfl
      rw [clipped, bands, Vector.any_eq_true]
      simp only [beq_iff_eq]
      exact ⟨fun ⟨i, hi, h⟩ => ⟨⟨i, hi⟩, h⟩, fun ⟨k, h⟩ => ⟨k.val, k.isLt, h⟩⟩
  · obtain ⟨up, down, still, untotalized, totalized, rest⟩ := addVolume_spec u p (profileMean p (u.bandsOf p))
    refine ⟨fun k => ?_, ?_, up, down, still, untotalized, totalized⟩
    · have offset : (u.afterProfile p).offsets[k]
          = nextOffset u.offsets[k] (u.halvesP.getD noHalves)[k] (halfResult p u.accN.bands[k]) := by
        rw [← halfResults_get]
        simp [Sru.afterProfile]
      exact offset
    · rw [afterProfile_eq]
      generalize u.addVolume p (profileMean p (u.bandsOf p)) = v at *
      rw [rest]

end Sys2Proof.Machine
end

