-- ==== Sys2Proof/Proofs/NoticeRules.lean ====
section
/-! PROOF of O50. Where a raised notice is recorded: as the offer, or in the backlog (spec/05 R101, R103, R105, R108). -/

namespace Sys2Proof.Machine
open Sys2Proof

variable {s t : State} {k : Kind} {src : Source} {level : Nat} {detail : Half} {now : Word}

theorem takesRecord_iff {d : RingDesc} : d.canTake = true ↔ takesRecord d := by
  rw [canTake_iff]
  simp [takesRecord, RingDesc.fill]

/-- The offer row of R103. -/
theorem offerFree_iff (s : State) : s.offerFree = true
    ↔ s.nu.offer = none ∧ s.nu.backlog = [] ∧ takesRecord (s.ring noticeRing) := by
  simp [State.offerFree, takesRecord_iff, and_assoc]

/-- What a raised notice makes of the NU, attention aside. -/
theorem raise_offer (h : s.levelOf k ≠ 0) (free : s.offerFree = true) (d : Nat) :
    (s.raise k src d).nu.offer = some { entry := freshEntry k src (s.levelOf k) (BitVec.ofNat 16 d) s.nu.ms, inFlight := false }
      ∧ (s.raise k src d).nu.backlog = s.nu.backlog := by
  simp only [State.raise, if_neg h, State.dispose, if_pos free]
  exact ⟨rfl, rfl⟩

theorem raise_backlog (h : s.levelOf k ≠ 0) (busy : ¬s.offerFree = true) (d : Nat) :
    (s.raise k src d).nu.offer = s.nu.offer
      ∧ (s.raise k src d).nu.backlog = mergeBacklog s.nu.backlog k src (s.levelOf k) (BitVec.ofNat 16 d) s.nu.ms := by
  simp only [State.raise, if_neg h, State.dispose, if_neg busy]
  exact ⟨rfl, rfl⟩

/-- With no entry of the pair the event has an entry of its own. -/
theorem mergeBacklog_fresh {bl : List BacklogEntry} (h : ∀ b ∈ bl, ¬(b.entry.kind = k ∧ b.entry.source = src)) :
    mergeBacklog bl k src level detail now
      = bl ++ [{ entry := freshEntry k src level detail now, inFlight := false, late := none }] := by
  refine if_neg fun found => ?_
  obtain ⟨b, hb, pair⟩ := List.any_eq_true.mp found
  exact h b hb ((isPair_iff b k src).mp pair)

/-- The entry of the pair has the event merged into it. -/
theorem mergeBacklog_pair {bl : List BacklogEntry} {b : BacklogEntry} (hb : b ∈ bl)
    (pair : b.entry.kind = k ∧ b.entry.source = src) : b.merge level detail now ∈ mergeBacklog bl k src level detail now := by
  have is := (isPair_iff b k src).mpr pair
  rw [mergeBacklog, if_pos (List.any_eq_true.mpr ⟨b, hb, is⟩)]
  exact List.mem_map.mpr ⟨b, hb, if_pos is⟩

/-- Every other entry stays. -/
theorem mergeBacklog_kept {bl : List BacklogEntry} {b : BacklogEntry} (hb : b ∈ bl)
    (other : ¬(b.entry.kind = k ∧ b.entry.source = src)) : b ∈ mergeBacklog bl k src level detail now := by
  rw [mergeBacklog]
  split
  · exact List.mem_map.mpr ⟨b, hb, if_neg fun e => other ((isPair_iff b k src).mp e)⟩
  · exact List.mem_append_left _ hb

theorem merge_waiting {b : BacklogEntry} (h : b.inFlight = false) : b.merge level detail now
    = { b with entry := { b.entry with count := min (b.entry.count + 1) 255, last := now, detail := detail, level := level } } := by
  simp [BacklogEntry.merge, h, Entry.merge, satCount]

theorem merge_flying {b : BacklogEntry} (h : b.inFlight = true) :
    b.merge level detail now = { b with late := some (mergeLate b.late level detail now) } := by
  simp [BacklogEntry.merge, h]

/-- Settles O50: level 0, the offer row, and the backlog row. -/
theorem raisedNoticeIsRecorded : Obligations.RaisedNoticeIsRecorded := by
  intro s k src detail
  refine ⟨fun dropped => if_pos dropped, fun told => ⟨raise_records s k src detail told, raise_outstanding .., raise_sequence ..,
    fun asOffer => ?_, fun busy => ?_, fun busy none => ?_, fun busy b hb pair waiting => ?_, fun busy b hb pair flying => ?_,
    fun b hb other => ?_⟩⟩
  · obtain ⟨offer, backlog⟩ := raise_offer (src := src) told ((offerFree_iff s).mpr asOffer) detail
    exact ⟨offer, backlog.trans asOffer.2.1⟩
  · exact (raise_backlog told (mt (offerFree_iff s).mp busy) detail).1
  · exact (raise_backlog told (mt (offerFree_iff s).mp busy) detail).2.trans (mergeBacklog_fresh none)
  · rw [(raise_backlog told (mt (offerFree_iff s).mp busy) detail).2, ← merge_waiting waiting]
    exact mergeBacklog_pair hb pair
  · rw [(raise_backlog told (mt (offerFree_iff s).mp busy) detail).2]
    have merged := mergeBacklog_pair (level := s.levelOf k) (detail := BitVec.ofNat 16 detail) (now := s.nu.ms) hb pair
    rw [merge_flying flying] at merged
    refine ⟨fun noLate => ?_, fun x late => ?_⟩
    · rw [noLate] at merged
      exact merged
    · rw [late] at merged
      exact merged
  · by_cases free : s.offerFree = true
    · rw [(raise_offer told free detail).2]
      exact hb
    · rw [(raise_backlog told free detail).2]
      exact mergeBacklog_kept hb other

end Sys2Proof.Machine
end

