-- ==== Sys2Proof/Proofs/EngineOrder.lean ====
section
/-! SUPPORT. The engine order of R86, item by item, and the rows that begin its work at a FREE port (spec/04 R81, R82, R86
to R91, R104, R106). -/

namespace Sys2Proof.Machine
open Sys2Proof

variable {s t u : State}

/-! ## The first that a test admits -/

theorem find?_finRange {n : Nat} {p : Fin n → Bool} {r : Fin n} :
    (List.finRange n).find? p = some r ↔ p r = true ∧ ∀ q, q < r → ¬p q = true := by
  rw [List.find?_eq_some_iff_getElem]
  refine ⟨fun ⟨hr, i, hi, here, before⟩ => ⟨hr, fun q below => ?_⟩, fun ⟨hr, before⟩ => ⟨hr, r.val, by simp, by simp, fun j hj => ?_⟩⟩
  · have at' : i = r.val := by
      rw [← here]
      simp
    have first := before q.val (by rw [at']; exact below)
    simpa using first
  · have first := before ⟨j, by omega⟩ hj
    simpa using first

/-! ## Items 1 to 4 (R86) -/

theorem deNext_fresh {f : FreshWord} {rest : List FreshWord} (h : s.de.fresh = f :: rest) : s.deNext = some (.fresh f) := by
  simp only [State.deNext, h]

theorem deNext_flight (fresh : s.de.fresh = []) (flight : s.de.flight ≠ none) : s.deNext = some .flightWord := by
  simp only [State.deNext, fresh, Option.isSome_iff_ne_none.mpr flight, if_true]

theorem nextIndexReset_iff {r : RingId} : s.nextIndexReset = some r
    ↔ (s.ring r).resetOut = true ∧ ∀ q : RingId, q < r → (s.ring q).resetOut = false := by
  rw [State.nextIndexReset, find?_finRange]
  simp

theorem nextIndexReset_none (h : ∀ r : RingId, (s.ring r).resetOut = false) : s.nextIndexReset = none := by
  simp [State.nextIndexReset, h]

theorem deNext_indexReset {r : RingId} (h : engineChooses s) (next : s.nextIndexReset = some r) :
    s.deNext = some (.indexReset r) := by
  obtain ⟨fresh, flight⟩ := h
  simp only [State.deNext, fresh, flight, next, Option.isSome_none, Bool.false_eq_true, if_false]

theorem nextBeginning_ne {w : DeWork} (h : w.begins = false) : s.nextBeginning ≠ some w := by
  intro e
  simp only [State.nextBeginning] at e
  (repeat' split at e) <;> cases e <;> cases h

theorem nextIndexReset_of_deNext {r : RingId} (h : s.deNext = some (.indexReset r)) : s.nextIndexReset = some r := by
  have none : s.nextBeginning ≠ some (.indexReset r) := nextBeginning_ne rfl
  simp only [State.deNext] at h
  split at h
  next => cases h
  next =>
    split at h
    next => cases h
    next =>
      split at h
      next next' =>
        cases h
        exact next'
      next =>
        split at h
        next => cases h
        next =>
          split at h
          next => cases h
          next => exact absurd h none

theorem deNext_commandStatus (h : noResetDue s) (dirty : s.de.statusDirty = true) : s.deNext = some .commandStatus := by
  obtain ⟨⟨fresh, flight⟩, resets⟩ := h
  simp only [State.deNext, fresh, flight, nextIndexReset_none resets, dirty, Option.isSome_none, Bool.false_eq_true, if_false,
    if_true]

theorem deNext_status (h : noStatusDue s) : s.deNext = match s.cu.nextLoadRead with
    | some off => some (.loadRead off)
    | none => s.nextBeginning := by
  obtain ⟨⟨⟨fresh, flight⟩, resets⟩, clean⟩ := h
  simp only [State.deNext, fresh, flight, nextIndexReset_none resets, clean, Option.isSome_none, Bool.false_eq_true, if_false]
    <;> rfl

theorem deNext_loadRead {x : Load} {off : Nat} {rest : List Nat} (h : noStatusDue s) (load : s.cu.load = some x)
    (left : x.left = off :: rest) : s.deNext = some (.loadRead off) := by
  simp only [deNext_status h, Cu.nextLoadRead, load, left, List.head?_cons]

/-- Items 5 to 7 are reached. -/
theorem deNext_begins (h : mayBegin s) : s.deNext = s.nextBeginning := by
  obtain ⟨status, done⟩ := h
  have none : s.cu.nextLoadRead = none := by
    cases hl : s.cu.load with
    | none => simp only [Cu.nextLoadRead, hl]
    | some x => simp only [Cu.nextLoadRead, hl, done x hl, List.head?_nil]
  simp only [deNext_status status, none]

/-! ## Item 5: notice entries (R104, R106) -/

theorem firstToDrain_mem {l : List BacklogEntry} {b : BacklogEntry} (h : firstToDrain l = some b) : b ∈ l := by
  induction l generalizing b with
  | nil => cases h
  | cons x l ih =>
    simp only [firstToDrain] at h
    split at h
    next =>
      cases h
      exact List.mem_cons_self
    next c hc =>
      split at h <;> cases h
      · exact List.mem_cons_of_mem _ (ih hc)
      · exact List.mem_cons_self

theorem before_of_drainsBefore {a b : Entry} (h : drainsBefore a b) : a.before b = true := by
  simp only [Entry.before, Bool.or_eq_true, Bool.and_eq_true, decide_eq_true_eq, beq_iff_eq]
  rcases h with level | ⟨level, code | ⟨kind, source⟩⟩
  · exact .inl level
  · exact .inr ⟨level, .inl code⟩
  · exact .inr ⟨level, .inr ⟨by rw [kind], source⟩⟩

theorem not_before_of_drainsBefore {a b : Entry} (h : drainsBefore a b) : b.before a = false := by
  rw [Bool.eq_false_iff]
  simp only [ne_eq, Entry.before, Bool.or_eq_true, Bool.and_eq_true, decide_eq_true_eq, beq_iff_eq]
  rcases h with level | ⟨level, code | ⟨kind, source⟩⟩
  · omega
  · omega
  · have := congrArg Kind.code kind
    omega

/-- The entry that drains before every other is the first to drain. -/
theorem firstToDrain_first {l : List BacklogEntry} {b : BacklogEntry} (hb : b ∈ l)
    (first : ∀ c ∈ l, c = b ∨ drainsBefore b.entry c.entry) : firstToDrain l = some b := by
  induction l with
  | nil => cases hb
  | cons x l ih =>
    have rest := fun c hc => first c (List.mem_cons_of_mem _ hc)
    simp only [firstToDrain]
    by_cases later : b ∈ l
    · rw [ih later rest]
      rcases first x List.mem_cons_self with rfl | drains
      · simp
      · simp [before_of_drainsBefore drains]
    · obtain rfl : b = x := (List.mem_cons.mp hb).resolve_right later
      cases hf : firstToDrain l with
      | none => rfl
      | some c =>
        rcases rest c (firstToDrain_mem hf) with rfl | drains
        · simp
        · simp [not_before_of_drainsBefore drains]

theorem nextNotice_none (h : noNoticeDue s) : s.nextNotice = none := by
  rcases h with full | ⟨offer, flying⟩
  · exact if_neg fun e => full (takesRecord_iff.mp e)
  · have empty : s.nu.backlog.filter (fun b => !b.inFlight) = [] := by
      rw [List.filter_eq_nil_iff]
      intro b hb
      simp [flying b hb]
    simp only [State.nextNotice, Nu.nextEntry, offer, Nu.nextBacklog, empty, firstToDrain, Option.map_none, ite_self]

/-- A notice entry that is due is begun before a profile or a page. -/
theorem deNext_ofNotice {e : Entry} (h : mayBegin s) (arming : s.de.arming = none) (takes : takesRecord (s.ring noticeRing))
    (next : s.nu.nextEntry = some e) : s.deNext = some (.notice e) := by
  have notice : s.nextNotice = some e := (if_pos (takesRecord_iff.mpr takes)).trans next
  simp only [deNext_begins h, State.nextBeginning, arming, Option.isSome_none, Bool.false_eq_true, if_false, notice]

theorem nextEntry_offer {o : Offer} (h : s.nu.offer = some o) : s.nu.nextEntry = some o.entry := by
  simp only [Nu.nextEntry, h]

theorem nextEntry_backlog {b : BacklogEntry} (offer : s.nu.offer = none) (hb : b ∈ s.nu.backlog) (waiting : b.inFlight = false)
    (first : ∀ c ∈ s.nu.backlog, c.inFlight = false → c = b ∨ drainsBefore b.entry c.entry) :
    s.nu.nextEntry = some b.entry := by
  have drains : s.nu.nextBacklog = some b := by
    refine firstToDrain_first (List.mem_filter.mpr ⟨hb, by simp [waiting]⟩) fun c hc => ?_
    obtain ⟨hc, idle⟩ := List.mem_filter.mp hc
    exact first c hc (by simpa using idle)
  simp only [Nu.nextEntry, offer, drains, Option.map_some]

/-! ## Item 6: profiles (R82) -/

theorem lineRecord_some {l : LineId} {g : Staged} (takes : takesRecord (s.ring (profileRing l)))
    (head : (s.staging l).queue.head? = some g) : s.lineRecord l = some (l, g) := by
  simp only [State.lineRecord, if_pos (takesRecord_iff.mpr takes), head, Option.map_some]

theorem lineRecord_none {l : LineId} (h : ¬hasRecord s l) : s.lineRecord l = none := by
  simp only [State.lineRecord]
  split
  next takes =>
    have empty : (s.staging l).queue = [] := by
      refine Classical.byContradiction fun full => ?_
      exact h ⟨full, takesRecord_iff.mp takes⟩
    rw [empty]
    rfl
  next => rfl

/-- A record of a line is of that line, which has one. -/
theorem lineRecord_spec {l : LineId} {x : LineId × Staged} (h : s.lineRecord l = some x) : x.1 = l ∧ hasRecord s l := by
  have has : hasRecord s l := by
    refine Classical.byContradiction fun none => ?_
    rw [lineRecord_none none] at h
    cases h
  refine ⟨?_, has⟩
  simp only [State.lineRecord] at h
  split at h
  · obtain ⟨g, -, rfl⟩ := Option.map_eq_some_iff.mp h
    rfl
  · cases h

theorem nextProfile_none (h : ∀ l : LineId, ¬hasRecord s l) : s.nextProfile = none := by
  have kept (l : LineId) : s.betterRecord none l = none := by simp [State.betterRecord, lineRecord_none (h l)]
  have all (ls : List LineId) : ls.foldl s.betterRecord none = none := by
    induction ls with
    | nil => rfl
    | cons l ls ih => rw [List.foldl_cons, kept, ih]
  exact all _

/-- Line `k`, with a record, comes after line `l` (R86 item 6). -/
def comesAfter (s : State) (l k : LineId) : Prop :=
  (s.ring (profileRing k)).priority < (s.ring (profileRing l)).priority
    ∨ ((s.ring (profileRing k)).priority = (s.ring (profileRing l)).priority ∧ l < k)

/-- The chosen record stays the best among higher lines that come after it. -/
theorem betterRecord_kept {l : LineId} {g : Staged} {ls : List LineId} (after : ∀ k ∈ ls, hasRecord s k → comesAfter s l k) :
    ls.foldl s.betterRecord (some (l, g)) = some (l, g) := by
  induction ls with
  | nil => rfl
  | cons k ls ih =>
    have step : s.betterRecord (some (l, g)) k = some (l, g) := by
      simp only [State.betterRecord]
      split
      next h => cases h
      next h _ => exact h.symm
      next b x hb hx =>
        cases hb
        obtain ⟨rfl, has⟩ := lineRecord_spec hx
        have low := after _ List.mem_cons_self has
        refine if_neg ?_
        dsimp only
        rcases low with low | ⟨same, -⟩ <;> omega
    rw [List.foldl_cons, step]
    exact ih fun k hk => after k (List.mem_cons_of_mem _ hk)

/-- The record that comes first among the lines is chosen, whatever lower line was the best before. -/
theorem foldl_betterRecord {l : LineId} {g : Staged} {ls : List LineId} (sorted : ls.Pairwise (· < ·)) (hl : l ∈ ls)
    (here : s.lineRecord l = some (l, g)) (after : ∀ k, hasRecord s k → k ≠ l → comesAfter s l k)
    {best : Option (LineId × Staged)} (lower : ∀ x, best = some x → x.1 < l ∧ hasRecord s x.1) :
    ls.foldl s.betterRecord best = some (l, g) := by
  induction ls generalizing best with
  | nil => cases hl
  | cons k ls ih =>
    obtain ⟨below, sorted⟩ := List.pairwise_cons.mp sorted
    rw [List.foldl_cons]
    by_cases now : k = l
    · subst now
      have chosen : s.betterRecord best k = some (k, g) := by
        simp only [State.betterRecord, here]
        cases best with
        | none => rfl
        | some x =>
          obtain ⟨low, has⟩ := lower x rfl
          have worse := after x.1 has (Fin.ne_of_lt low)
          refine if_pos ?_
          rcases worse with worse | ⟨-, above⟩
          · exact worse
          · exact absurd low (Fin.lt_asymm above)
      rw [chosen]
      exact betterRecord_kept fun j hj has => after j has fun e => absurd (below j hj) (by rw [e]; exact Fin.lt_irrefl _)
    · have later := (List.mem_cons.mp hl).resolve_left (Ne.symm now)
      refine ih sorted later fun x hx => ?_
      simp only [State.betterRecord] at hx
      split at hx
      next =>
        obtain ⟨rfl, has⟩ := lineRecord_spec hx
        exact ⟨below l later, has⟩
      next b hb hk =>
        cases hx
        exact lower _ rfl
      next b y hy =>
        obtain ⟨rfl, has⟩ := lineRecord_spec hy
        split at hx <;> cases hx
        · exact ⟨below l later, has⟩
        · exact lower _ rfl

theorem deNext_ofProfile {l : LineId} {g : Staged} (h : mayBegin s) (arming : s.de.arming = none) (noNotice : noNoticeDue s)
    (has : hasRecord s l) (head : (s.staging l).queue.head? = some g)
    (after : ∀ k : LineId, hasRecord s k → k ≠ l → comesAfter s l k) : s.deNext = some (.profile l g) := by
  have profile : s.nextProfile = some (l, g) :=
    foldl_betterRecord (List.pairwise_lt_finRange 4) (List.mem_finRange l) (lineRecord_some has.2 head) after fun _ hx => (by cases hx)
  simp only [deNext_begins h, State.nextBeginning, arming, Option.isSome_none, Bool.false_eq_true, if_false,
    nextNotice_none noNotice, profile]

/-! ## Item 7: pages (R87) -/

/-- The page at each place of the rotation stands that far behind the page last begun. -/
theorem pageRotation_distance (last : Option PageId) :
    (∀ p, (pageRotation last)[pageDistance last p]? = some p)
      ∧ ∀ j < 5, ∀ p, (pageRotation last)[j]? = some p → pageDistance last p = j := by
  cases last with
  | none => decide
  | some x =>
    revert x
    decide

theorem deNext_ofPage {p : PageId} (h : mayBegin s) (arming : s.de.arming = none) (noNotice : noNoticeDue s)
    (noProfile : ∀ l : LineId, ¬hasRecord s l) (dirty : (s.page p).dirty = true) (clear : (s.page p).faulted = false)
    (first : ∀ q : PageId, (s.page q).dirty = true → (s.page q).faulted = false →
      pageDistance s.de.lastPage p ≤ pageDistance s.de.lastPage q) : s.deNext = some (.page p) := by
  obtain ⟨place, distance⟩ := pageRotation_distance s.de.lastPage
  have page : s.nextPage = some p := by
    rw [State.nextPage, List.find?_eq_some_iff_getElem]
    refine ⟨by simp [dirty, clear], pageDistance s.de.lastPage p, (List.getElem?_eq_some_iff.mp (place p)).1,
      (List.getElem?_eq_some_iff.mp (place p)).2, fun j hj => ?_⟩
    have inside := (List.getElem?_eq_some_iff.mp (place p)).1
    have short : (pageRotation s.de.lastPage).length = 5 := by
      cases s.de.lastPage <;> rfl
    have here := distance j (by omega) _ (List.getElem?_eq_getElem (by omega))
    generalize (pageRotation s.de.lastPage)[j]'(by omega) = q at *
    refine Classical.byContradiction fun due => ?_
    have due : (s.page q).dirty = true ∧ (s.page q).faulted = false := by simpa using due
    exact absurd (first q due.1 due.2) (by omega)
  simp only [deNext_begins h, State.nextBeginning, arming, Option.isSome_none, Bool.false_eq_true, if_false,
    nextNotice_none noNotice, nextProfile_none noProfile, page]

/-- While an arming request waits nothing is begun. -/
theorem deNext_withheld (h : mayBegin s) (arming : s.de.arming ≠ none) : s.deNext = none := by
  simp only [deNext_begins h, State.nextBeginning, Option.isSome_iff_ne_none.mpr arming, if_true]

/-! ## The rows that begin a work (log 6) -/

/-- A row that begins the engine's next work at a FREE port that is the DE's. -/
theorem start_begins {c : Instr} {f : State → State} {w : DeWork} (row : exec c s = s.actStart f) (ha : awake s)
    (port : enginePort s) (next : s.deNext = some w) (begins : s.deWins = true → f s = s.beginWork w) :
    ∃ t, exec c s = .next t ∧ engineBegins s t w := by
  have due : noArmingDue s := port.2.1
  exact ⟨_, row.trans (actStart_rest ha due f), by
    rw [begins ((deWins_iff s).mpr port)]
    exact beginWork_spec next rfl⟩

end Sys2Proof.Machine
end

