-- ==== Sys2Proof/Proofs/EngineEnds.lean ====
section
/-! PROOF of O38, O39, O40 and O45. Arming, records, index resets and the command status at the engine (spec/04 R79 to
R82, R86, R89, R94). -/

namespace Sys2Proof.Machine
open Sys2Proof

variable {s t u v : State} {c : Instr} {k : DeKind} {a : Access}

/-! ## The end of an access of the DE (R118, R130) -/

/-- With a record or page in flight no arming is due. -/
theorem noArmingDue_flight {x : Flight} (h : s.de.flight = some x) : noArmingDue s := .inr (by rw [h]; simp)

/-- The end of a DE access frees the port, which is granted in the action. -/
theorem deEnd_arbitrates (row : exec c s = s.act (effectOf c)) (ha : awake s) (due : noArmingDue s) (port : s.mp.port = .de k a)
    (acts : effectOf c s = v) (free : v.mp.port = .free) :
    ∃ t', exec c s = .next t' ∧ arbitrated (s.markChanged v) t' := by
  subst acts
  rw [row]
  exact act_frees ha due (effectOf c) (by rw [port]; simp) (by rw [port]; simp) free

/-- The state `v` with another request in hand. -/
def State.withRequest (v : State) (q : Option Request) : State := { v with mp := { v.mp with request := q } }

/-- The end of a DE access after which a HELD read may be covered no more. -/
theorem deEnd_releases (row : exec c s = s.act (effectOf c)) (ha : awake s) (due : noArmingDue s) (port : s.mp.port = .de k a)
    (acts : effectOf c s = v.releaseHeld) (free : v.mp.port = .free) (request : v.mp.request = s.mp.request) :
    ∃ q t', exec c s = .next t' ∧ arbitrated (s.markChanged (v.withRequest q)) t'
      ∧ released s (s.markChanged (v.withRequest q)) := by
  obtain ⟨⟨none, some⟩, same⟩ := releaseHeld_spec (u := v) (t := v.releaseHeld) rfl
  have is : v.releaseHeld = v.withRequest v.releaseHeld.mp.request := same
  obtain ⟨t', answer, granted⟩ := deEnd_arbitrates (v := v.withRequest v.releaseHeld.mp.request) row ha due port
    (acts.trans is) free
  refine ⟨_, t', answer, granted, ?_⟩
  rw [is, request] at none some
  exact ⟨none, some⟩

/-! ## Arming (R79, R80) -/

/-- Settles O38: an arming that is due. -/
theorem armingAppliesSection : Obligations.ArmingAppliesSection := by
  intro s a ha arming flight
  have due : s.armingDue = true := armingDue_iff.mpr ⟨by rw [arming]; simp, flight⟩
  have row : exec .armingTakesEffect s = s.actArming := if_pos due
  exact ⟨_, _, row.trans (actArming_awake ha), settled_arbitrate _, takeArming_spec arming flight⟩

/-! ## Index resets (R81, R92, R93) -/

theorem ringLine_profileRing (l : LineId) : ringLine (profileRing l) = some l := by
  simp [ringLine, profileRing]

theorem ringLine_notice : ringLine noticeRing = none := rfl

/-- The mark of an index reset is cleared, and its port is FREE. -/
def State.resetDone (s : State) (r : RingId) : State := s.freePort.modRing r fun d => { d with resetOut := false }

theorem endIndexReset_acts {r : RingId} (port : s.mp.port = .de (.indexReset r false) a) (err : Bool) :
    s.endIndexReset err
      = (if err then (s.resetDone r).indexResetFault r else s.resetDone r).releaseHeld := by
  simp only [State.endIndexReset, port]
  rfl

/-- Back in the backlog with nothing raised since (R104, R109). -/
theorem offerReturned_of {e : Entry} (h : t.nu.backlog = returnOffer s.nu.backlog e) : offerReturned s t e := by
  refine ⟨fun b hb kind source => ?_, fun none => ?_, fun b hb other => ?_⟩
  · exact (returnOffer_joins h).1 b hb kind source
  · rw [h, returnOffer, if_neg]
    intro found
    obtain ⟨b, hb, pair⟩ := List.any_eq_true.mp found
    exact none b hb ((isPair_iff ..).mp pair)
  · rw [h, returnOffer]
    split
    · exact List.mem_map.mpr ⟨b, hb, if_neg fun pair => other ((isPair_iff ..).mp pair)⟩
    · exact List.mem_append_left _ hb

theorem returnWaitingOffer_offer {o : Offer} (h : s.nu.offer = some o) (waits : o.inFlight = false) :
    s.returnWaitingOffer.nu.offer = none ∧ s.returnWaitingOffer.nu.backlog = returnOffer s.nu.backlog o.entry := by
  simp [State.returnWaitingOffer, State.modNu, h, waits, State.reevalAttn]

theorem returnWaitingOffer_none (h : s.nu.offer = none) :
    s.returnWaitingOffer.nu = { s.nu with attn := s.returnWaitingOffer.nu.attn } := by
  simp [State.returnWaitingOffer, State.modNu, h, State.reevalAttn]

/-- The rings of a state in which one has been changed. -/
theorem ring_of_modRing {r : RingId} {g : RingDesc → RingDesc} (h : t.de.rings = (s.modRing r g).de.rings) :
    t.ring r = g (s.ring r) ∧ ∀ q : RingId, q ≠ r → t.ring q = s.ring q := by
  have same (q : RingId) : t.ring q = (s.modRing r g).ring q := by simp only [State.ring, h]
  exact ⟨(same r).trans (modRing_ring ..), fun q hq => (same q).trans (modRing_other _ _ _ _ hq)⟩

/-- What an index reset that ends with ERR does (R92, R93; log 21). -/
theorem indexResetFault_spec (s : State) (r : RingId) :
    (s.indexResetFault r).de.rings = (s.faultRing r).de.rings ∧ (s.indexResetFault r).de.flight = s.de.flight
      ∧ (∀ l : LineId, r = profileRing l → raisedIn s (s.indexResetFault r) .deliveryFault (.line l) 2)
      ∧ (r = noticeRing → (∀ o, s.nu.offer = some o → o.inFlight = false →
            (s.indexResetFault r).nu.offer = none ∧ (s.indexResetFault r).nu.backlog = returnOffer s.nu.backlog o.entry)
          ∧ (s.nu.offer = none → (s.indexResetFault r).nu = { s.nu with attn := (s.indexResetFault r).nu.attn })) := by
  refine ⟨?_, ?_, fun l hl => ?_, fun hn => ?_⟩
  · simp only [State.indexResetFault]
    split <;> simp
  · simp only [State.indexResetFault]
    split <;> simp
  · subst hl
    simp only [State.indexResetFault, ringLine_profileRing]
    exact raisedIn_of (p := fun _ => False) (t := s.faultRing (profileRing l)) (keepsRecords_of rfl rfl) rfl
      (keepsRecords_of rfl rfl) id rfl
  · subst hn
    simp only [State.indexResetFault, ringLine_notice]
    have same : (s.faultRing noticeRing).nu = s.nu := rfl
    exact ⟨fun o ho waits => returnWaitingOffer_offer (s := s.faultRing noticeRing) ho waits,
      fun none => returnWaitingOffer_none (s := s.faultRing noticeRing) none⟩

/-- Settles O39: the next index reset, its beginning and its three ends. -/
theorem indexResetWritesZero : Obligations.IndexResetWritesZero := by
  refine ⟨fun s r chooses out lowest => deNext_indexReset chooses (nextIndexReset_iff.mpr ⟨out, lowest⟩),
    fun s r ha port next => ?_, fun s r a ha rest port => ?_, fun s r a ha rest port => ?_, fun s r a err ha rest port => ?_⟩
  · obtain ⟨out, lowest⟩ := nextIndexReset_iff.mp (nextIndexReset_of_deNext next)
    exact ⟨out, lowest, start_begins rfl ha port next fun wins => by simp only [State.startIndexReset, next, wins, if_true]⟩
  · have acts : s.endIndexReset false = (s.resetDone r).releaseHeld := endIndexReset_acts port false
    obtain ⟨q, t', answer, granted, releases⟩ :=
      deEnd_releases (c := .indexResetWriteComplete false) rfl ha rest.1 port acts rfl rfl
    obtain ⟨here, others⟩ := ring_of_modRing (s := s.freePort) (t := s.resetDone r) rfl
    exact ⟨_, t', answer, granted, releases, here, others, rfl, rfl, rfl, rfl, rfl, rfl, rfl, rfl, rfl⟩
  · have faulted := indexResetFault_spec (s.resetDone r) r
    have frame : ((s.resetDone r).indexResetFault r).lines = s.lines ∧ ((s.resetDone r).indexResetFault r).cu = s.cu
        ∧ ((s.resetDone r).indexResetFault r).mp = { s.mp with port := .free } ∧ ((s.resetDone r).indexResetFault r).wu = s.wu
        ∧ outsideKept s ((s.resetDone r).indexResetFault r) := by
      simp [outsideKept]
      exact ⟨rfl, rfl, rfl, rfl, rfl, rfl, rfl, rfl⟩
    have acts := endIndexReset_acts port true
    rw [if_pos rfl] at acts
    generalize (s.resetDone r).indexResetFault r = v at *
    obtain ⟨rings, flight, told, returned⟩ := faulted
    obtain ⟨lines, cu, mp, wu, outside⟩ := frame
    obtain ⟨q, t', answer, granted, releases⟩ := deEnd_releases (c := .indexResetWriteComplete true) rfl ha rest.1 port acts
      (by rw [mp]) (by rw [mp])
    obtain ⟨here, others⟩ := ring_of_modRing rings
    obtain ⟨here', others'⟩ := ring_of_modRing (s := s.freePort) (t := s.resetDone r) rfl
    rw [here'] at here
    have ring (x : RingId) (hx : x ≠ r) : v.ring x = s.ring x := (others x hx).trans (others' x hx)
    refine ⟨_, t', answer, granted, releases, here, ring, flight, told, fun hr => ?_, lines, cu, wu, outside⟩
    obtain ⟨waits, none⟩ := returned hr
    exact ⟨fun o ho idle => ⟨(waits o ho idle).1, offerReturned_of (waits o ho idle).2⟩, none⟩
  · have acts : s.endIndexReset err = s.freePort := by simp only [State.endIndexReset, port, if_true]
    obtain ⟨t', answer, granted⟩ := deEnd_arbitrates (c := .indexResetWriteComplete err) rfl ha rest.1 port acts rfl
    exact ⟨_, t', answer, granted, rfl, rfl, rfl, rfl, rfl, rfl, rfl, rfl, rfl, rfl, rfl⟩

/-! ## The command status (R89, R94) -/

/-- Settles O45: the command status word begins and ends. -/
theorem commandStatusIsWritten : Obligations.CommandStatusIsWritten := by
  refine ⟨fun s due dirty => deNext_commandStatus due dirty, fun s ha port next => ?_, fun s a err ha rest port => ?_⟩
  · refine start_begins rfl ha port next fun wins => ?_
    simp [State.startStatus, State.deMay, wins, next]
  · cases err with
    | false =>
      have acts : s.endStatus false = s.freePort := by simp [State.endStatus, port]
      obtain ⟨t', answer, granted⟩ := deEnd_arbitrates (c := .commandStatusWriteComplete false) rfl ha rest.1 port acts rfl
      exact ⟨_, t', answer, granted, rfl, rfl, fun h => (by cases h), fun _ => rfl, rfl, rfl, rfl, rfl, rfl, rfl, rfl, rfl⟩
    | true =>
      have acts : s.endStatus true = s.freePort.raise .deliveryFault .part 32 := by simp [State.endStatus, port]
      have told : raisedIn s (s.freePort.raise .deliveryFault .part 32) .deliveryFault .part 32 :=
        raisedIn_of (p := fun _ => False) (t := s.freePort) (keepsRecords_of rfl rfl) rfl (keepsRecords_refl _ _) id rfl
      have frame := raise_frame s.freePort .deliveryFault .part 32
      generalize s.freePort.raise .deliveryFault .part 32 = v at *
      obtain ⟨lines, cu, de, mp, wu, pins, clock, free, pending⟩ := frame
      obtain ⟨t', answer, granted⟩ := deEnd_arbitrates (c := .commandStatusWriteComplete true) rfl ha rest.1 port acts
        (by rw [mp]; rfl)
      have status : v.de.statusDirty = s.de.statusDirty := by rw [de]; rfl
      have rings : v.de.rings = s.de.rings := by rw [de]; rfl
      exact ⟨_, t', answer, granted, mp, status, fun _ => told, fun h => (by cases h), rings, lines, cu, wu, pins, clock, free,
        pending⟩

/-! ## Record words (R82) -/

/-- The next word of the record goes on the port where nothing comes before it. -/
theorem arbitrated_flight {r : RingId} {slot done : Nat} {words : List Word} (h : arbitrated t u)
    (request : t.mp.request = none) (fresh : t.de.fresh = []) (flight : t.de.flight = some (.record r slot words done)) :
    (∀ w, words[done]? = some w → wordOnPort u .recordWord (slot + 4 * done) w)
      ∧ (words[done]? = none → wordOnPort u .wWord (0x0C00 + 16 * r.val) (((t.ring r).w + 1).setWidth 32)) := by
  obtain ⟨-, -, granted⟩ := h
  obtain ⟨noHost, -⟩ := granted (noArmingDue_flight flight)
  have next := deNext_flight fresh (by rw [flight]; simp)
  obtain ⟨-, -, -, -, ⟨record, -⟩, -, de, -⟩ := (noHost fun r hr => by rw [request] at hr; cases hr).2 _ next
  have same : u.ring r = t.ring r := by simp only [State.ring, de]
  rw [← same]
  exact record r slot words done (by rw [de]; exact flight)

/-- Settles O40: the choice of a record, its beginning, and its words. -/
theorem recordIsWritten : Obligations.RecordIsWritten := by
  refine ⟨fun s fresh flight => deNext_flight fresh flight, fun s may arming takes => ⟨fun o ho => ?_, fun b hb offer idle first => ?_⟩,
    fun s l g may arming noNotice has head after => deNext_ofProfile may arming noNotice has head after,
    fun s l g ha port next => ?_, fun s e ha port next => ?_, fun s r slot done words a ha port flight => ?_⟩
  · exact deNext_ofNotice may arming takes (nextEntry_offer ho)
  · exact deNext_ofNotice may arming takes (nextEntry_backlog offer hb idle first)
  · exact start_begins rfl ha port next fun wins => by simp only [State.startRecord, next, wins, if_true]
  · exact start_begins rfl ha port next fun wins => by simp only [State.startRecord, next, wins, if_true]
  · have acts : s.endRecordWord false
        = s.freePort.modDe fun d => { d with flight := some (.record r slot words (done + 1)) } := by
      simp [State.endRecordWord, port, flight, Flight.step]
    obtain ⟨t', answer, granted⟩ := deEnd_arbitrates (c := .recordWordComplete false) rfl ha (noArmingDue_flight flight) port
      acts rfl
    have next := fun request fresh =>
      arbitrated_flight (r := r) (slot := slot) (done := done + 1) (words := words) granted request fresh rfl
    exact ⟨_, t', answer, granted, rfl, deKept_markChanged rfl, rfl, rfl, rfl, rfl, ⟨rfl, rfl, rfl, rfl⟩, next⟩

end Sys2Proof.Machine
end

