-- ==== Sys2Proof/Proofs/ProfileEnds.lean ====
section
/-! PROOF of O41 and O42. The end of a profile record: delivered, or lost with its ring (spec/04 R82, R85, R92). -/

namespace Sys2Proof.Machine
open Sys2Proof

variable {s t u v : State} {l : LineId} {a : Access} {d : Nat}

/-! ## The staging of a line -/

/-- The staging of a state in which that of one line has been changed. -/
theorem staging_of_modStaging {g : Staging → Staging} (h : t.de.staging = (s.modStaging l g).de.staging) :
    t.staging l = g (s.staging l) ∧ ∀ k : LineId, k ≠ l → t.staging k = s.staging k := by
  have same (k : LineId) : t.staging k = (s.modStaging l g).staging k := by simp only [State.staging, h]
  exact ⟨(same l).trans (modStaging_staging ..), fun k hk => (same k).trans (modStaging_other _ _ _ _ hk)⟩

/-- The head is the only profile: the drops before it are carried, with itself (R92). -/
theorem loseHead_last {g : Staging} {x : Staged} (h : g.queue = [x]) :
    g.loseHead = { g with queue := [], carried := g.carried + (x.before + 1), faulted := g.faulted + 1 } := by
  simp [Staging.loseHead, h, passOn]

/-- The next profile takes over the drops before the head, and the head itself (R92). -/
theorem loseHead_next {g : Staging} {x y : Staged} {more : List Staged} (h : g.queue = x :: y :: more) :
    g.loseHead
      = { g with queue := { y with before := y.before + (x.before + 1) } :: more, faulted := g.faulted + 1 } := by
  simp [Staging.loseHead, h, passOn]

theorem loseHead_counts (g : Staging) : g.loseHead.delivered = g.delivered ∧ g.loseHead.dropped = g.dropped := by
  simp only [Staging.loseHead]
  split <;> exact ⟨rfl, rfl⟩

theorem loseHead_faulted {g : Staging} {x : Staged} {rest : List Staged} (h : g.queue = x :: rest) :
    g.loseHead.faulted = g.faulted + 1 := by
  cases rest with
  | nil => rw [loseHead_last h]
  | cons y more => rw [loseHead_next h]

/-! ## What the end of a profile record leaves -/

/-- The record in flight of line `l` has ended: of the DE its ring has become `g` of it, and its staging `f` of it; the
pages of the line and of the part are dirty. -/
structure ProfileEnded (s v : State) (l : LineId) (g : RingDesc → RingDesc) (f : Staging → Staging) : Prop where
  flight : v.de.flight = none
  ring : v.ring (profileRing l) = g (s.ring (profileRing l))
  rings : ∀ q : RingId, q ≠ profileRing l → v.ring q = s.ring q
  staging : v.staging l = f (s.staging l)
  stagings : ∀ k : LineId, k ≠ l → v.staging k = s.staging k
  line : isDirty v (linePage l)
  part : isDirty v partPage
  lines : v.lines = s.lines
  cu : v.cu = s.cu
  mp : v.mp = s.mp
  wu : v.wu = s.wu
  outside : outsideKept s v

/-- A state whose DE is that of the record ended, but for the marks of its pages. -/
theorem profileEnded_of {g : RingDesc → RingDesc} {f : Staging → Staging}
    (de : v.de = ((s.endFlight.modRing (profileRing l) g).modStaging l f).de) (lines : v.lines = s.lines)
    (cu : v.cu = s.cu) (mp : v.mp = s.mp) (wu : v.wu = s.wu) (outside : outsideKept s v) :
    ProfileEnded s (v.markLine l).markPart l g f := by
  obtain ⟨ring, rings⟩ := ring_of_modRing (s := s.endFlight) (t := v) (r := profileRing l) (g := g) (by rw [de]; rfl)
  obtain ⟨staging, stagings⟩ := staging_of_modStaging (s := s.endFlight) (t := v) (l := l) (g := f) (by rw [de]; rfl)
  exact { flight := (congrArg De.flight de).trans rfl, ring, rings, staging, stagings,
          line := isDirty_markPage (markPage_isDirty v _) _, part := markPage_isDirty _ _, lines, cu, mp, wu, outside }

/-- The delivery of the head profile moves the ring on and the queue up (R82, R85). -/
def State.profileMoves (s : State) (l : LineId) : State :=
  ((s.endFlight.advanceW (profileRing l)).modRing (profileRing l) (·.served)).modStaging l fun g =>
    { g with queue := g.queue.drop 1, delivered := g.delivered + 1 }

/-- A write of a profile record has ended with ERR (R92). -/
theorem recordFault_profile (s : State) (l : LineId) (d : Nat) :
    ProfileEnded s (s.recordFault (profileRing l) d) l (fun x => { x with faulted := true }) Staging.loseHead
      ∧ raisedIn s (s.recordFault (profileRing l) d) .deliveryFault (.line l) (BitVec.ofNat 16 d) := by
  have is : s.recordFault (profileRing l) d
      = ((((s.endFlight.faultRing (profileRing l)).modStaging l (·.loseHead)).raise .deliveryFault (.line l) d).markLine
          l).markPart := by simp only [State.recordFault, ringLine_profileRing]
  rw [is]
  have frame := raise_frame ((s.endFlight.faultRing (profileRing l)).modStaging l (·.loseHead)) .deliveryFault (.line l) d
  have told : raisedIn s (((s.endFlight.faultRing (profileRing l)).modStaging l (·.loseHead)).raise .deliveryFault (.line l) d)
      .deliveryFault (.line l) (BitVec.ofNat 16 d) :=
    raisedIn_of (p := fun _ => False) (t := (s.endFlight.faultRing (profileRing l)).modStaging l (·.loseHead))
      (keepsRecords_of rfl rfl) rfl (keepsRecords_refl _ _) id rfl
  generalize ((s.endFlight.faultRing (profileRing l)).modStaging l (·.loseHead)).raise .deliveryFault (.line l) d = v at *
  obtain ⟨lines, cu, de, mp, wu, pins, clock, free, pending⟩ := frame
  exact ⟨profileEnded_of de lines cu mp wu ⟨pins, clock, free, pending⟩, told⟩

theorem served_w (x : RingDesc) : x.served.w = x.w ∧ x.served.rd = x.rd := by
  simp only [RingDesc.served]
  split
  · exact ⟨rfl, rfl⟩
  · split <;> exact ⟨rfl, rfl⟩

theorem batchDue_iff {x : RingDesc} : x.batchDue = true ↔ 0 < x.batch ∧ x.countdown ≤ 1 := by
  simp [RingDesc.batchDue]

theorem batchDue_not {x : RingDesc} (h : ¬(0 < x.batch ∧ x.countdown ≤ 1)) : x.batchDue = false :=
  Bool.eq_false_iff.mpr fun due => h (batchDue_iff.mp due)

/-- A profile record is delivered (R82, R85). -/
theorem deliver_profile (s : State) (l : LineId) :
    ProfileEnded s (s.deliver (profileRing l)) l (fun x => ({ x with w := x.w + 1 } : RingDesc).served)
        (fun x => { x with queue := x.queue.drop 1, delivered := x.delivered + 1 })
      ∧ ((s.ring (profileRing l)).batchDue = true →
          raisedIn s (s.deliver (profileRing l)) .batch (.line l) ((s.ring (profileRing l)).w + 1))
      ∧ ((s.ring (profileRing l)).batchDue = false → (s.deliver (profileRing l)).nu = s.nu) := by
  have is : s.deliver (profileRing l)
      = (((if (s.ring (profileRing l)).batchDue then (s.profileMoves l).raise .batch (.line l)
          ((s.profileMoves l).ring (profileRing l)).w.toNat else s.profileMoves l).markLine l).markPart) := by
    simp only [State.deliver, ringLine_profileRing]
    rfl
  have moves : (s.profileMoves l).de = ((s.endFlight.modRing (profileRing l) fun x =>
      ({ x with w := x.w + 1 } : RingDesc).served).modStaging l fun x =>
        { x with queue := x.queue.drop 1, delivered := x.delivered + 1 }).de := by
    simp [State.profileMoves, State.advanceW, State.modRing, State.modDe, State.modStaging, modAt]
  have w : ((s.profileMoves l).ring (profileRing l)).w = (s.ring (profileRing l)).w + 1 := by
    have rings : (s.profileMoves l).de.rings = (s.modRing (profileRing l) fun x =>
      ({ x with w := x.w + 1 } : RingDesc).served).de.rings := by rw [moves]; rfl
    rw [(ring_of_modRing rings).1, (served_w _).1]
  rw [is, w]
  cases due : (s.ring (profileRing l)).batchDue with
  | false => exact ⟨profileEnded_of moves rfl rfl rfl rfl ⟨rfl, rfl, rfl, rfl⟩, fun h => (by cases h), fun _ => rfl⟩
  | true =>
    have frame := raise_frame (s.profileMoves l) .batch (.line l) ((s.ring (profileRing l)).w + 1).toNat
    have told : raisedIn s ((s.profileMoves l).raise .batch (.line l) ((s.ring (profileRing l)).w + 1).toNat) .batch (.line l)
        ((s.ring (profileRing l)).w + 1) :=
      raisedIn_of (p := fun _ => False) (t := s.profileMoves l) (keepsRecords_of rfl rfl) rfl (keepsRecords_refl _ _) id
        (by rw [BitVec.ofNat_toNat, BitVec.setWidth_eq])
    rw [if_pos rfl]
    generalize (s.profileMoves l).raise .batch (.line l) ((s.ring (profileRing l)).w + 1).toNat = v at *
    obtain ⟨lines, cu, de, mp, wu, pins, clock, free, pending⟩ := frame
    exact ⟨profileEnded_of (de.trans moves) lines cu mp wu ⟨pins, clock, free, pending⟩, fun _ => told, fun h => (by cases h)⟩

/-! ## The completions of a record (R82) -/

theorem endRecordWord_fault {r : RingId} {slot done : Nat} {words : List Word} (port : s.mp.port = .de .recordWord a)
    (flight : s.de.flight = some (.record r slot words done)) :
    s.endRecordWord true = (s.freePort.recordFault r 1).releaseHeld := by
  simp [State.endRecordWord, port, flight]

theorem endWWord_acts {r : RingId} {slot done : Nat} {words : List Word} (port : s.mp.port = .de .wWord a)
    (flight : s.de.flight = some (.record r slot words done)) (err : Bool) :
    s.endWWord err = (if err then s.freePort.recordFault r 2 else s.freePort.deliver r).releaseHeld := by
  cases err <;> simp [State.endWWord, port, flight]

/-- Settles O41: ERR at a word of a profile record. -/
theorem profileFaultLosesHead : Obligations.ProfileFaultLosesHead := by
  intro s l slot done words a x rest wWord ha port flight queue
  obtain ⟨ended, told⟩ := recordFault_profile s.freePort l (if wWord = true then 2 else 1)
  have acts : effectOf (if wWord = true then .wWordWriteComplete true else .recordWordComplete true) s
      = (s.freePort.recordFault (profileRing l) (if wWord = true then 2 else 1)).releaseHeld := by
    cases wWord with
    | true => exact endWWord_acts port flight true
    | false => exact endRecordWord_fault port flight
  have row : exec (if wWord = true then .wWordWriteComplete true else .recordWordComplete true) s
      = s.act (effectOf (if wWord = true then .wWordWriteComplete true else .recordWordComplete true)) := by
    cases wWord <;> rfl
  generalize s.freePort.recordFault (profileRing l) (if wWord = true then 2 else 1) = v at *
  obtain ⟨q, t', answer, granted, releases⟩ := deEnd_releases row ha (noArmingDue_flight flight) port acts
    (by rw [ended.mp]; rfl) (by rw [ended.mp]; rfl)
  have staging := ended.staging
  have same : s.freePort.staging l = s.staging l := rfl
  rw [same] at staging
  refine ⟨_, t', answer, granted, releases, ended.flight, ended.ring, ?_, ?_, ?_, fun last => ?_, fun y more next => ?_, ?_,
    ended.rings, ended.stagings, markChanged_isDirty ended.line, markChanged_isDirty ended.part, ended.lines, ended.cu,
    ended.wu, ended.outside⟩
  · show (v.staging l).faulted = _
    rw [staging, loseHead_faulted queue]
  · show (v.staging l).delivered = _
    rw [staging, (loseHead_counts _).1]
  · show (v.staging l).dropped = _
    rw [staging, (loseHead_counts _).2]
  · subst last
    show (v.staging l).queue = _ ∧ (v.staging l).carried = _
    rw [staging, loseHead_last queue]
    exact ⟨rfl, rfl⟩
  · subst next
    show (v.staging l).queue = _ ∧ (v.staging l).carried = _
    rw [staging, loseHead_next queue]
    exact ⟨rfl, rfl⟩
  · cases wWord <;> exact told

/-- Settles O42: OK at the W word of a profile record. -/
theorem profileIsDelivered : Obligations.ProfileIsDelivered := by
  intro s l slot done words a ha port flight
  obtain ⟨ended, told, quiet⟩ := deliver_profile s.freePort l
  have acts : s.endWWord false = (s.freePort.deliver (profileRing l)).releaseHeld := endWWord_acts port flight false
  generalize s.freePort.deliver (profileRing l) = v at *
  obtain ⟨q, t', answer, granted, releases⟩ := deEnd_releases (c := .wWordWriteComplete false) rfl ha
    (noArmingDue_flight flight) port acts (by rw [ended.mp]; rfl) (by rw [ended.mp]; rfl)
  have ring : v.ring (profileRing l)
      = ({ s.ring (profileRing l) with w := (s.ring (profileRing l)).w + 1 } : RingDesc).served := ended.ring
  refine ⟨_, t', answer, granted, releases, ended.flight, ?_, ?_, ended.staging, fun kept last => ?_, fun none => ?_,
    fun more kept => ?_, ended.rings, ended.stagings,
    markChanged_isDirty ended.line, markChanged_isDirty ended.part, ended.lines, ended.cu, ended.wu, ended.outside⟩
  · exact (congrArg RingDesc.w ring).trans (served_w _).1
  · exact (congrArg RingDesc.rd ring).trans (served_w _).2
  · refine ⟨(congrArg RingDesc.countdown ring).trans ?_, told (batchDue_iff.mpr ⟨kept, last⟩)⟩
    rw [RingDesc.served, if_neg (Nat.ne_of_gt kept), if_pos last]
  · refine ⟨(congrArg RingDesc.countdown ring).trans ?_, quiet (batchDue_not fun due => ?_)⟩
    · rw [RingDesc.served, if_pos none]
    · exact absurd none (Nat.ne_of_gt due.1)
  · refine ⟨(congrArg RingDesc.countdown ring).trans ?_, quiet (batchDue_not fun due => ?_)⟩
    · rw [RingDesc.served, if_neg (Nat.ne_of_gt kept), if_neg (Nat.not_le.mpr more)]
    · exact Nat.not_le.mpr more due.2

end Sys2Proof.Machine
end

