-- ==== Sys2Proof/Proofs/NoticeEnds.lean ====
section
/-! PROOF of O43. The end of a notice entry's write: delivered, or handed back with its ring FAULTED (spec/04 R82, R93;
spec/05 R107 to R109). -/

namespace Sys2Proof.Machine
open Sys2Proof

variable {s t u v : State} {a : Access} {d level slot done : Nat} {words : List Word} {o : Offer} {b : BacklogEntry}

/-! ## The backlog at the end of a write (R107, R108) -/

theorem filterMap_afterDelivery (bl : List BacklogEntry) : bl.filterMap (·.afterDelivery) = afterDelivered bl := rfl

theorem afterDelivered_of_idle {bl : List BacklogEntry} (h : ∀ b ∈ bl, b.inFlight = false) : afterDelivered bl = bl := by
  rw [← filterMap_afterDelivery]
  induction bl with
  | nil => rfl
  | cons b bl ih =>
    have stays : b.afterDelivery = some b := if_neg (by rw [h b List.mem_cons_self]; exact Bool.false_ne_true)
    rw [List.filterMap_cons_some stays, ih fun c hc => h c (List.mem_cons_of_mem _ hc)]

theorem map_afterFault (bl : List BacklogEntry) : bl.map (·.afterFault) = afterRefused bl := by
  refine List.map_congr_left fun b _ => ?_
  simp only [BacklogEntry.afterFault]
  cases b with
  | mk entry inFlight late =>
    cases late with
    | none => cases inFlight <;> rfl
    | some x => cases inFlight <;> rfl

/-! ## What the end of a notice entry leaves -/

/-- The entry in flight, the offer or a backlog entry, is known by its level. -/
def fliesAt (s : State) (level : Nat) : Prop :=
  s.nu.flightLevel = some level ∧ ∀ o, s.nu.offer = some o → o.inFlight = true

theorem fliesAt_offer (offer : s.nu.offer = some o) (flies : o.inFlight = true) : fliesAt s o.entry.level := by
  refine ⟨by simp [Nu.flightLevel, offer, flies], fun x hx => ?_⟩
  rw [offer] at hx
  cases hx
  exact flies

theorem fliesAt_backlog (h : entryFlies s b) : fliesAt s b.entry.level := by
  obtain ⟨offer, mem, flies, only⟩ := h
  refine ⟨?_, fun x hx => by rw [offer] at hx; cases hx⟩
  cases found : s.nu.backlog.find? (·.inFlight) with
  | none => exact absurd flies (by simpa using List.find?_eq_none.mp found b mem)
  | some c =>
    have is : c = b := only c (List.mem_of_find?_eq_some found) (by simpa using List.find?_some found)
    simp [Nu.flightLevel, offer, found, is]

/-- An entry is delivered (R82, R107). -/
theorem deliver_notice (h : fliesAt s level) :
    noticeDelivered s (s.deliver noticeRing) level ∧ (s.deliver noticeRing).nu.backlog = afterDelivered s.nu.backlog := by
  obtain ⟨flies, gone⟩ := h
  obtain ⟨ring, rings⟩ := ring_of_modRing (s := s.endFlight) (t := s.deliver noticeRing) (r := noticeRing)
    (g := fun x => { x with w := x.w + 1 }) rfl
  refine ⟨⟨rfl, ring, rings, rfl, ?_, rfl, ?_, markPage_isDirty _ _, rfl, rfl, rfl⟩, rfl⟩
  · show s.nu.outstanding ++ s.nu.flightLevel.toList = _
    rw [flies]
    rfl
  · show (match s.nu.offer with | some o => if o.inFlight then none else some o | none => none) = none
    cases offer : s.nu.offer with
    | none => rfl
    | some o => exact if_pos (gone o offer)

theorem entryReturned_offer (offer : s.nu.offer = some o) (flies : o.inFlight = true) :
    s.entryReturned.nu
      = { s.nu with offer := none, backlog := returnOffer s.nu.backlog o.entry, attn := s.entryReturned.nu.attn } := by
  simp [State.entryReturned, State.modNu, State.reevalAttn, offer, flies]

theorem entryReturned_none (offer : s.nu.offer = none) :
    s.entryReturned.nu
      = { s.nu with offer := none, backlog := afterRefused s.nu.backlog, attn := s.entryReturned.nu.attn } := by
  simp [State.entryReturned, State.modNu, State.reevalAttn, offer, map_afterFault]

/-- A FAULTED notice ring asserts ATTN, unless BRST holds it (R112, R113). -/
theorem entryReturned_attn (h : (s.ring noticeRing).faulted = true) : s.entryReturned.nu.attn = !s.pins.brst := by
  have term (u : State) (hu : u.de = s.de) : u.attnTerms = true := by
    simp only [State.attnTerms, State.faultTerm, State.ring, hu, Bool.or_eq_true]
    exact .inr h
  simp [State.entryReturned, State.reevalAttn, State.modNu, term]

/-- An entry in flight is handed back, whose ring is FAULTED (R93, R109). -/
theorem recordFault_notice {bl : List BacklogEntry} {x : Bool}
    (nu : (s.recordFault noticeRing d).nu = { s.nu with offer := none, backlog := bl, attn := x }) :
    noticeRefused s (s.recordFault noticeRing d) := by
  obtain ⟨ring, rings⟩ := ring_of_modRing (s := s.endFlight) (t := s.recordFault noticeRing d) (r := noticeRing)
    (g := fun x => { x with faulted := true }) rfl
  have attn : (s.recordFault noticeRing d).nu.attn = !s.pins.brst :=
    entryReturned_attn (s := s.endFlight.faultRing noticeRing) (by simp [State.faultRing])
  exact ⟨rfl, ring, rings, rfl, by rw [nu], by rw [nu], by rw [nu], attn, markPage_isDirty _ _, rfl, rfl, rfl⟩

theorem recordFault_offer (offer : s.nu.offer = some o) (flies : o.inFlight = true) :
    noticeRefused s (s.recordFault noticeRing d) ∧ offerReturned s (s.recordFault noticeRing d) o.entry := by
  have nu := entryReturned_offer (s := s.endFlight.faultRing noticeRing) offer flies
  exact ⟨recordFault_notice (d := d) nu, offerReturned_of ((congrArg Nu.backlog nu).trans rfl)⟩

theorem recordFault_backlog (offer : s.nu.offer = none) :
    noticeRefused s (s.recordFault noticeRing d)
      ∧ (s.recordFault noticeRing d).nu.backlog = afterRefused s.nu.backlog := by
  have nu := entryReturned_none (s := s.endFlight.faultRing noticeRing) offer
  exact ⟨recordFault_notice (d := d) nu, (congrArg Nu.backlog nu).trans rfl⟩

/-! ## The completions (R82) -/

/-- The W word of a notice entry completes with OK. -/
theorem noticeDelivered_answers (ha : awake s) (port : s.mp.port = .de .wWord a)
    (flight : s.de.flight = some (.record noticeRing slot words done)) (flies : fliesAt s level) :
    ∃ t t', exec (.wWordWriteComplete false) s = .next t' ∧ arbitrated t t' ∧ released s t ∧ noticeDelivered s t level
      ∧ t.nu.backlog = afterDelivered s.nu.backlog := by
  have acts : s.endWWord false = (s.freePort.deliver noticeRing).releaseHeld := endWWord_acts port flight false
  obtain ⟨left, backlog⟩ := deliver_notice (s := s.freePort) flies
  obtain ⟨q, t', answer, granted, releases⟩ :=
    deEnd_releases (c := .wWordWriteComplete false) rfl ha (noArmingDue_flight flight) port acts rfl rfl
  obtain ⟨ends, ring, rings, staging, outstanding, sequence, offer, dirty, lines, cu, wu⟩ := left
  exact ⟨_, t', answer, granted, releases, ⟨ends, ring, rings, staging, outstanding, sequence, offer,
    markChanged_isDirty dirty, lines, cu, wu⟩, backlog⟩

/-- A word of a notice entry completes with ERR. -/
theorem noticeRefused_answers {c : Instr} {k : DeKind} (row : exec c s = s.act (effectOf c)) (ha : awake s)
    (port : s.mp.port = .de k a) (flight : s.de.flight = some (.record noticeRing slot words done))
    (acts : effectOf c s = (s.freePort.recordFault noticeRing d).releaseHeld)
    (left : noticeRefused s (s.freePort.recordFault noticeRing d)) :
    ∃ t t', exec c s = .next t' ∧ arbitrated t t' ∧ released s t ∧ noticeRefused s t
      ∧ t.nu = (s.freePort.recordFault noticeRing d).nu := by
  obtain ⟨q, t', answer, granted, releases⟩ := deEnd_releases row ha (noArmingDue_flight flight) port acts rfl rfl
  obtain ⟨ends, ring, rings, staging, outstanding, sequence, offer, attn, dirty, lines, cu, wu⟩ := left
  exact ⟨_, t', answer, granted, releases, ⟨ends, ring, rings, staging, outstanding, sequence, offer, attn,
    markChanged_isDirty dirty, lines, cu, wu⟩, rfl⟩

/-- The offer in flight is handed back. -/
theorem offerRefused_answers {c : Instr} {k : DeKind} (row : exec c s = s.act (effectOf c)) (ha : awake s)
    (port : s.mp.port = .de k a) (flight : s.de.flight = some (.record noticeRing slot words done))
    (acts : effectOf c s = (s.freePort.recordFault noticeRing d).releaseHeld) (offer : s.nu.offer = some o)
    (flies : o.inFlight = true) :
    ∃ t t', exec c s = .next t' ∧ arbitrated t t' ∧ released s t ∧ noticeRefused s t ∧ offerReturned s t o.entry := by
  obtain ⟨left, back⟩ := recordFault_offer (s := s.freePort) (d := d) offer flies
  obtain ⟨t, t', answer, granted, releases, refused, nu⟩ := noticeRefused_answers row ha port flight acts left
  refine ⟨t, t', answer, granted, releases, refused, ?_⟩
  unfold offerReturned at *
  rw [nu]
  exact back

/-- The backlog entry in flight stays, joined with its late part. -/
theorem backlogRefused_answers {c : Instr} {k : DeKind} (row : exec c s = s.act (effectOf c)) (ha : awake s)
    (port : s.mp.port = .de k a) (flight : s.de.flight = some (.record noticeRing slot words done))
    (acts : effectOf c s = (s.freePort.recordFault noticeRing d).releaseHeld) (offer : s.nu.offer = none) :
    ∃ t t', exec c s = .next t' ∧ arbitrated t t' ∧ released s t ∧ noticeRefused s t
      ∧ t.nu.backlog = afterRefused s.nu.backlog := by
  obtain ⟨left, back⟩ := recordFault_backlog (s := s.freePort) (d := d) offer
  obtain ⟨t, t', answer, granted, releases, refused, nu⟩ := noticeRefused_answers row ha port flight acts left
  exact ⟨t, t', answer, granted, releases, refused, (congrArg Nu.backlog nu).trans back⟩

/-- Settles O43: the ends of the writes of a notice entry. -/
theorem noticeIsDeliveredOrReturned : Obligations.NoticeIsDeliveredOrReturned := by
  refine ⟨fun s slot done words a o ha port flight offer flies => ⟨?_, ?_⟩,
    fun s slot done words a o ha port flight offer flies => ?_,
    fun s slot done words a b ha port flight flies => ⟨?_, ?_⟩,
    fun s slot done words a b ha port flight ⟨offer, _⟩ => ?_⟩
  · obtain ⟨t, t', answer, granted, releases, left, backlog⟩ :=
      noticeDelivered_answers ha port flight (fliesAt_offer offer flies)
    exact ⟨t, t', answer, granted, releases, left, fun idle => backlog.trans (afterDelivered_of_idle idle)⟩
  · exact offerRefused_answers (c := .wWordWriteComplete true) (d := 2) rfl ha port flight (endWWord_acts port flight true)
      offer flies
  · exact offerRefused_answers (c := .recordWordComplete true) (d := 1) rfl ha port flight (endRecordWord_fault port flight)
      offer flies
  · exact noticeDelivered_answers ha port flight (fliesAt_backlog flies)
  · exact backlogRefused_answers (c := .wWordWriteComplete true) (d := 2) rfl ha port flight (endWWord_acts port flight true)
      flies.1
  · exact backlogRefused_answers (c := .recordWordComplete true) (d := 1) rfl ha port flight (endRecordWord_fault port flight)
      offer

end Sys2Proof.Machine
end

