-- ==== Sys2Proof/Proofs/PageEnds.lean ====
section
/-! PROOF of O44. The choice of a status page, its words, and what the end of its write leaves (spec/04 R86, R87, R94;
spec/02 R162). -/

namespace Sys2Proof.Machine
open Sys2Proof

variable {s t u v : State} {a : Access} {p : PageId}

/-! ## The initial writes (R162) -/

/-- Of the DE at most the part page is marked (R162). -/
theorem pageEnded_marks (s : State) (p : PageId) :
    deKept s (s.pageEnded p) ∧ ∀ q, isDirty s q → isDirty (s.pageEnded p) q := by
  simp only [State.pageEnded]
  split
  · split
    · exact ⟨deKept_markPage _ ⟨rfl, fun _ => rfl⟩, fun q h => isDirty_markPage h _⟩
    · exact ⟨⟨rfl, fun _ => rfl⟩, fun _ h => h⟩
  · exact ⟨⟨rfl, fun _ => rfl⟩, fun _ h => h⟩

/-- The initial writes follow, and of the rest at most a mark of the part page differs. -/
structure PageGone (s v : State) (p : PageId) : Prop where
  init : initFollows s v p
  de : deKept s v
  marks : ∀ q, isDirty s q → isDirty v q
  lines : v.lines = s.lines
  nu : v.nu = s.nu
  mp : v.mp = s.mp
  wu : v.wu = s.wu

theorem pageEnded_gone (s : State) (p : PageId) : PageGone s (s.pageEnded p) p := by
  obtain ⟨de, marks⟩ := pageEnded_marks s p
  exact ⟨pageEnded_spec rfl, de, marks, by simp, by simp, by simp, by simp⟩

theorem initFollows_markChanged (h : initFollows s v p) : initFollows s (u.markChanged v) p := by
  obtain ⟨later, more, last⟩ := h
  exact ⟨later, more, fun init left => ⟨(last init left).1, markChanged_isDirty (last init left).2⟩⟩

/-! ## Marks of pages -/

theorem deKept_step (h : deKept s t) (h' : deKept t u) : deKept s u := by
  obtain ⟨de, pages⟩ := h
  obtain ⟨de', pages'⟩ := h'
  exact ⟨by rw [de', de], fun q => (pages' q).trans (pages q)⟩

/-- The marks that an action makes leave the rest of the DE. -/
theorem deKept_markChanges (h : deKept s v) : deKept s (u.markChanged v) := by
  obtain ⟨de, pages⟩ := h
  exact ⟨by simp only [State.markChanged]; rw [de], fun q => by rw [markChanged_page]; exact pages q⟩

theorem pageMark_ext {m : PageMark} (dirty : m.dirty = true) (faulted : m.faulted = true) :
    m = { dirty := true, faulted := true } := by
  cases m
  simp_all

/-! ## The completions of a page word (R87, R94) -/

/-- The page whose write ended with ERR is FAULTED and dirty (R94). -/
def State.pageFaulted (s : State) (p : PageId) : State := s.endFlight.modPage p fun _ => { dirty := true, faulted := true }

/-- The fault is told, and the part page, which shows it, is dirty (R94). -/
def State.pageFaultTold (s : State) (p : PageId) : State :=
  let t := (s.pageFaulted p).raise .deliveryFault .part (pageFaultDetail p)
  if p = partPage then t else t.markPart

theorem pageFaultTold_spec (s : State) (p : PageId) :
    deKept (s.pageFaulted p) (s.pageFaultTold p) ∧ isDirty (s.pageFaultTold p) p ∧ isDirty (s.pageFaultTold p) partPage
      ∧ raisedIn s (s.pageFaultTold p) .deliveryFault .part (if p = partPage then 16 else BitVec.ofNat 16 (17 + p.val))
      ∧ (s.pageFaultTold p).lines = s.lines ∧ (s.pageFaultTold p).cu = s.cu ∧ (s.pageFaultTold p).mp = s.mp
      ∧ (s.pageFaultTold p).wu = s.wu := by
  have told : raisedIn s ((s.pageFaulted p).raise .deliveryFault .part (pageFaultDetail p)) .deliveryFault .part
      (if p = partPage then 16 else BitVec.ofNat 16 (17 + p.val)) :=
    raisedIn_of (p := fun _ => False) (t := s.pageFaulted p) (keepsRecords_of rfl rfl) rfl (keepsRecords_refl _ _) id
      (by simp only [pageFaultDetail]; split <;> rfl)
  have frame := raise_frame (s.pageFaulted p) .deliveryFault .part (pageFaultDetail p)
  simp only [State.pageFaultTold]
  generalize (s.pageFaulted p).raise .deliveryFault .part (pageFaultDetail p) = v at *
  obtain ⟨lines, cu, de, mp, wu, -⟩ := frame
  have dirty : isDirty v p := by simp [isDirty, State.page, de, State.pageFaulted, State.modPage]
  by_cases part : p = partPage
  · rw [if_pos part] at told
    simp only [if_pos part]
    exact ⟨deKept_eq de, dirty, part ▸ dirty, told, lines, cu, mp, wu⟩
  · rw [if_neg part] at told
    simp only [if_neg part]
    exact ⟨deKept_markPage _ (deKept_eq de), isDirty_markPage dirty _, markPage_isDirty _ _, told, lines, cu, mp, wu⟩

theorem pageFault_spec (s : State) (p : PageId) :
    deKept (s.pageFaulted p) (s.pageFault p) ∧ isDirty (s.pageFault p) p ∧ isDirty (s.pageFault p) partPage
      ∧ raisedIn s (s.pageFault p) .deliveryFault .part (if p = partPage then 16 else BitVec.ofNat 16 (17 + p.val))
      ∧ initFollows s (s.pageFault p) p ∧ (s.pageFault p).lines = s.lines ∧ (s.pageFault p).mp = s.mp
      ∧ (s.pageFault p).wu = s.wu := by
  have is : s.pageFault p = (s.pageFaultTold p).pageEnded p := rfl
  have gone := pageEnded_gone (s.pageFaultTold p) p
  obtain ⟨de, dirty, part, told, lines, cu, mp, wu⟩ := pageFaultTold_spec s p
  rw [is]
  refine ⟨deKept_step de gone.de, gone.marks p dirty, gone.marks partPage part, ?_, ?_, gone.lines.trans lines,
    gone.mp.trans mp, gone.wu.trans wu⟩
  · unfold raisedIn at *
    rw [gone.nu]
    exact told
  · have init := gone.init
    unfold initFollows at *
    rw [cu] at init
    exact init

/-- Settles O44: the choice of a page, its beginning, and its words. -/
theorem pageIsWritten : Obligations.PageIsWritten := by
  refine ⟨fun s p may arming noNotice noProfile dirty clear first =>
      deNext_ofPage may arming noNotice noProfile dirty clear first,
    fun s may arming => deNext_withheld may arming, fun s p ha port next => ?_,
    fun s p words done a ha port flight => ⟨fun more => ?_, fun last => ?_, ?_⟩⟩
  · exact start_begins rfl ha port next fun wins => by simp only [State.startPage, next, wins, if_true]
  · have acts : s.endPageWord false = s.freePort.modDe fun d => { d with flight := some (.page p words (done + 1)) } := by
      simp [State.endPageWord, port, flight, more, Flight.step]
    obtain ⟨t', answer, granted⟩ := deEnd_arbitrates (c := .pageWordComplete false) rfl ha (noArmingDue_flight flight) port
      acts rfl
    exact ⟨_, t', answer, granted, rfl, rfl, deKept_markChanged rfl, rfl, rfl, rfl, rfl⟩
  · have acts : s.endPageWord false = ((s.freePort.endFlight).pageEnded p).releaseHeld := by
      simp [State.endPageWord, port, flight, Nat.not_lt.mpr last]
    have gone := pageEnded_gone s.freePort.endFlight p
    generalize s.freePort.endFlight.pageEnded p = v at *
    obtain ⟨init, de, -, lines, nu, mp, wu⟩ := gone
    obtain ⟨q, t', answer, granted, releases⟩ := deEnd_releases (c := .pageWordComplete false) rfl ha
      (noArmingDue_flight flight) port acts (by rw [mp]; rfl) (by rw [mp]; rfl)
    exact ⟨_, t', answer, granted, releases, (congrArg De.flight de.1).trans rfl, deKept_of de,
      initFollows_markChanged init, lines, nu, wu⟩
  · have acts : s.endPageWord true = (s.freePort.pageFault p).releaseHeld := by
      simp [State.endPageWord, port, flight]
    have spec := pageFault_spec s.freePort p
    generalize s.freePort.pageFault p = v at *
    obtain ⟨de, dirty, part, told, init, lines, mp, wu⟩ := spec
    obtain ⟨q, t', answer, granted, releases⟩ := deEnd_releases (c := .pageWordComplete true) rfl ha
      (noArmingDue_flight flight) port acts (by rw [mp]; rfl) (by rw [mp]; rfl)
    have kept : deKept (s.pageFaulted p) (s.markChanged (v.withRequest q)) := deKept_markChanges de
    have faulted (x : PageId) : ((s.pageFaulted p).page x).faulted = if x = p then true else (s.page x).faulted := by
      by_cases hx : x = p
      · subst hx; simp [State.pageFaulted]
      · rw [if_neg hx, State.pageFaulted, modPage_other _ _ _ _ hx]; rfl
    have here : (s.markChanged (v.withRequest q)).page p = { dirty := true, faulted := true } :=
      pageMark_ext (markChanged_isDirty dirty) ((kept.2 p).trans (by rw [faulted, if_pos rfl]))
    exact ⟨_, t', answer, granted, releases, kept.1, here, markChanged_isDirty part,
      fun x hx => (kept.2 x).trans (by rw [faulted, if_neg hx]), told, initFollows_markChanged init, lines, wu⟩

end Sys2Proof.Machine
end

