-- ==== Sys2Proof/Proofs/LoadEnds.lean ====
section
/-! PROOF of O47. The reads of a load and its ends (spec/04 R91; spec/02 R149, R160, R161). -/

namespace Sys2Proof.Machine
open Sys2Proof

variable {s t u v : State} {a : Access} {k : Kind} {d off : Nat} {f : Cu → Cu} {result : CmdResult}

/-! ## The record of a load that ends (R149) -/

theorem mergeBytes_length (held : List Byte) (off : Nat) (be : BitVec 4) (data : Word) :
    (mergeBytes held off be data).length = held.length := by simp [mergeBytes]

theorem loadResult_owner {c : Cu} (h : c.owner = .load) : c.loadResult result d
    = { c with record := { c.record with result := result, detail := BitVec.ofNat 16 d }, owner := .none } := if_pos h

theorem loadResult_kept {c : Cu} (h : c.owner ≠ .load) : c.loadResult result d = c := if_neg h

/-- Of the CU at most the last-command record and its owner differ (R149). -/
theorem loadResult_record (c : Cu) : c.loadResult result d
    = { c with record := (c.loadResult result d).record, owner := (c.loadResult result d).owner } := by
  by_cases h : c.owner = .load
  · rw [loadResult_owner h]
  · rw [loadResult_kept h]

/-- A load has ended at the CU, which has become `f` of it, and the end is told. -/
def State.loadEnded (s : State) (f : Cu → Cu) (k : Kind) (d : Nat) : State :=
  ((s.markLoadStatus.modCu f).raise k .part d).markPart

theorem markLoadStatus_spec (s : State) : deKeptButStatus s s.markLoadStatus ∧ s.markLoadStatus.nu = s.nu
    ∧ s.markLoadStatus.cu = s.cu ∧ s.markLoadStatus.lines = s.lines ∧ s.markLoadStatus.mp = s.mp
    ∧ s.markLoadStatus.wu = s.wu ∧ (s.cu.owner = .load → s.markLoadStatus.de.statusDirty = true)
    ∧ (s.cu.owner ≠ .load → s.markLoadStatus.de.statusDirty = s.de.statusDirty) := by
  by_cases owner : s.cu.owner = .load
  · rw [State.markLoadStatus, if_pos owner]
    exact ⟨⟨rfl, fun _ => rfl⟩, rfl, rfl, rfl, rfl, rfl, fun _ => rfl, fun h => absurd owner h⟩
  · rw [State.markLoadStatus, if_neg owner]
    exact ⟨⟨rfl, fun _ => rfl⟩, rfl, rfl, rfl, rfl, rfl, fun h => absurd h owner, fun _ => rfl⟩

/-- What the end of a load leaves, where the section in force stays. -/
theorem loadEnded_spec (s : State) (k : Kind) (d : Nat) (live : (f s.cu).liveDelivery = s.cu.liveDelivery) :
    (s.loadEnded f k d).cu = f s.cu ∧ deKeptButStatus s (s.loadEnded f k d)
      ∧ (s.cu.owner = .load → (s.loadEnded f k d).de.statusDirty = true)
      ∧ (s.cu.owner ≠ .load → (s.loadEnded f k d).de.statusDirty = s.de.statusDirty)
      ∧ raisedIn s (s.loadEnded f k d) k .part (BitVec.ofNat 16 d) ∧ isDirty (s.loadEnded f k d) partPage
      ∧ (s.loadEnded f k d).lines = s.lines ∧ (s.loadEnded f k d).mp = s.mp ∧ (s.loadEnded f k d).wu = s.wu := by
  obtain ⟨kept, nu, cu, lines, mp, wu, owned, other⟩ := markLoadStatus_spec s
  have frame := raise_frame (s.markLoadStatus.modCu f) k .part d
  have told : raisedIn s ((s.markLoadStatus.modCu f).raise k .part d) k .part (BitVec.ofNat 16 d) :=
    raisedIn_of (p := fun _ => False) (t := s.markLoadStatus.modCu f)
      (keepsRecords_of nu ((congrArg (fun c => (f c).liveDelivery) cu).trans live)) rfl (keepsRecords_refl _ _) id rfl
  simp only [State.loadEnded]
  generalize (s.markLoadStatus.modCu f).raise k .part d = v at *
  obtain ⟨lines', cu', de', mp', wu', -⟩ := frame
  have after : deKept s.markLoadStatus v.markPart := deKept_markPage _ (deKept_eq de')
  have status : v.markPart.de.statusDirty = s.markLoadStatus.de.statusDirty :=
    (congrArg De.statusDirty de' : v.de.statusDirty = _)
  exact ⟨cu'.trans (congrArg f cu), deKeptButStatus_trans kept (deKept_butStatus after), fun h => status.trans (owned h),
    fun h => status.trans (other h), told, markPage_isDirty _ _, lines'.trans lines, mp'.trans mp, wu'.trans wu⟩

/-! ## The two ends of a load (R161) -/

/-- What the CU becomes with the last offset read. -/
def Cu.loaded (x : Load) (c : Cu) : Cu :=
  { (c.takeBuffer x).loadResult .loaded (x.buffer.length / 4) with state := .idle, load := none }

/-- What the CU becomes with a load abandoned. -/
def Cu.unloaded (off : Nat) (c : Cu) : Cu :=
  { c.loadResult .loadFailed off with state := .idle, load := none, loadFaults := satInc c.loadFaults }

theorem loadDone_eq (s : State) (x : Load) : s.loadDone x = s.loadEnded (Cu.loaded x) .loadDone x.code := rfl

theorem loadAbandoned_eq (s : State) (x : Load) (off : Nat) :
    s.loadAbandoned x off = s.loadEnded (Cu.unloaded off) .loadFault x.code := rfl

/-- The copies of a CU whose load is done are those with the buffer taken. -/
theorem loaded_copies (x : Load) (c : Cu) : (c.loaded x).lines = (c.takeBuffer x).lines
    ∧ (c.loaded x).stagedWindows = (c.takeBuffer x).stagedWindows
    ∧ (c.loaded x).stagedDelivery = (c.takeBuffer x).stagedDelivery ∧ (c.loaded x).liveWindows = c.liveWindows
    ∧ (c.loaded x).liveDelivery = c.liveDelivery := by
  obtain ⟨-, -, -, takes⟩ := takeBuffer_spec c x
  simp only [Cu.loaded]
  rw [loadResult_record]
  exact ⟨rfl, rfl, rfl, by rw [takes], by rw [takes]⟩

theorem loaded_record (x : Load) (c : Cu) :
    (c.owner = .load → (c.loaded x).record
        = { c.record with result := .loaded, detail := BitVec.ofNat 16 (x.buffer.length / 4) } ∧ (c.loaded x).owner = .none)
      ∧ (c.owner ≠ .load → (c.loaded x).record = c.record ∧ (c.loaded x).owner = c.owner) := by
  obtain ⟨-, -, -, takes⟩ := takeBuffer_spec c x
  have owner : (c.takeBuffer x).owner = c.owner := by rw [takes]
  have record : (c.takeBuffer x).record = c.record := by rw [takes]
  refine ⟨fun h => ?_, fun h => ?_⟩
  · simp only [Cu.loaded]
    rw [loadResult_owner (owner.trans h), record]
    exact ⟨rfl, rfl⟩
  · simp only [Cu.loaded]
    rw [loadResult_kept (by rw [owner]; exact h)]
    exact ⟨record, owner⟩

theorem unloaded_record (off : Nat) (c : Cu) :
    (c.owner = .load → (c.unloaded off).record = { c.record with result := .loadFailed, detail := BitVec.ofNat 16 off }
        ∧ (c.unloaded off).owner = .none)
      ∧ (c.owner ≠ .load → (c.unloaded off).record = c.record ∧ (c.unloaded off).owner = c.owner) := by
  refine ⟨fun h => ?_, fun h => ?_⟩
  · simp only [Cu.unloaded, loadResult_owner h, and_self]
  · simp only [Cu.unloaded, loadResult_kept h, and_self]

theorem unloaded_keeps (off : Nat) (c : Cu) : c.unloaded off
    = { c with state := .idle, load := none, loadFaults := satInc c.loadFaults,
               record := (c.unloaded off).record, owner := (c.unloaded off).owner } := by
  simp only [Cu.unloaded]
  rw [loadResult_record]

theorem loadRecorded_of {c : Cu} {detail : Half} (cu : v.cu = c)
    (record : (s.cu.owner = .load → c.record = { s.cu.record with result := result, detail := detail } ∧ c.owner = .none)
      ∧ (s.cu.owner ≠ .load → c.record = s.cu.record ∧ c.owner = s.cu.owner))
    (owned : s.cu.owner = .load → v.de.statusDirty = true) (other : s.cu.owner ≠ .load → v.de.statusDirty = s.de.statusDirty) :
    loadRecorded s v result detail := by
  subst cu
  obtain ⟨ours, kept⟩ := record
  exact ⟨fun h => ⟨(ours h).1, (ours h).2, owned h⟩, fun h => ⟨kept h, other h⟩⟩

/-- Settles O47: the reads of a load and the three ends of one. -/
theorem loadReadsItsWords : Obligations.LoadReadsItsWords := by
  refine ⟨fun s x off rest none load left => deNext_loadRead none load left, fun s off ha port next => ?_,
    fun s x off data a ha rest port load => ⟨fun more => ?_, fun last => ?_, ?_⟩⟩
  · exact start_begins rfl ha port next fun wins => by simp only [State.startLoadRead, next, wins, if_true]
  · have acts : s.endLoadRead false data = s.freePort.modCu fun c => { c with load := some (x.take off data) } := by
      simp [State.endLoadRead, State.loadRead, port, load, Load.take, more]
    obtain ⟨t', answer, granted⟩ := deEnd_arbitrates (c := .loadReadComplete false data) rfl ha rest.1 port acts rfl
    exact ⟨_, t', answer, granted, rfl, rfl, rfl, deKept_markChanged rfl, rfl, rfl⟩
  · have acts : s.endLoadRead false data = s.freePort.loadEnded (Cu.loaded (x.take off data)) .loadDone x.code := by
      rw [show x.code = (x.take off data).code from rfl, ← loadDone_eq]
      simp [State.endLoadRead, State.loadRead, port, load, Load.take, last]
    have copies := loaded_copies (x.take off data) s.cu
    obtain ⟨-, -, -, -, live⟩ := loaded_copies (x.take off data) s.cu
    have record := loaded_record (x.take off data) s.cu
    have spec := loadEnded_spec (f := Cu.loaded (x.take off data)) s.freePort .loadDone x.code live
    have words : (x.take off data).buffer.length = x.buffer.length := mergeBytes_length ..
    generalize s.freePort.loadEnded (Cu.loaded (x.take off data)) .loadDone x.code = v at *
    obtain ⟨cu, de, owned, other, told, part, lines, mp, wu⟩ := spec
    obtain ⟨t', answer, granted⟩ := deEnd_arbitrates (c := .loadReadComplete false data) rfl ha rest.1 port acts
      (by rw [mp]; rfl)
    have taken : loadTaken s v x.code (x.take off data).buffer := loadTaken_of (x := x.take off data) (by rw [cu]; exact copies)
    rw [words] at record
    have recorded := loadRecorded_of cu record owned other
    exact ⟨_, t', answer, granted, congrArg Cu.state cu, congrArg Cu.load cu, taken, told, recorded, markChanged_isDirty part,
      deKeptButStatus_markChanged de _, lines, wu⟩
  · have acts : s.endLoadRead true data = s.freePort.loadEnded (Cu.unloaded off) .loadFault x.code := by
      rw [← loadAbandoned_eq]
      simp [State.endLoadRead, State.loadRead, port, load]
    have keeps := unloaded_keeps off s.cu
    have live : (s.cu.unloaded off).liveDelivery = s.cu.liveDelivery := by rw [keeps]
    have record := unloaded_record off s.cu
    have spec := loadEnded_spec (f := Cu.unloaded off) s.freePort .loadFault x.code live
    generalize s.freePort.loadEnded (Cu.unloaded off) .loadFault x.code = v at *
    obtain ⟨cu, de, owned, other, told, part, lines, mp, wu⟩ := spec
    obtain ⟨t', answer, granted⟩ := deEnd_arbitrates (c := .loadReadComplete true data) rfl ha rest.1 port acts
      (by rw [mp]; rfl)
    have recorded := loadRecorded_of cu record owned other
    have same : v.cu = { s.cu with state := .idle, load := none, loadFaults := satInc s.cu.loadFaults,
                                   record := v.cu.record, owner := v.cu.owner } := by
      rw [cu]
      exact keeps
    exact ⟨_, t', answer, granted, mp, same, told, recorded, markChanged_isDirty part,
      deKeptButStatus_markChanged de _, lines, wu⟩

end Sys2Proof.Machine
end

