-- ==== Sys2Proof/Proofs/RefreshEnds.lean ====
section
/-! PROOF of O46. A fresh word is issued, and its completion releases the read that asked for it (spec/04 R74, R90, R94;
spec/06 R127). -/

namespace Sys2Proof.Machine
open Sys2Proof

variable {s t u v : State} {a : Access} {w : FreshWord} {x : Word} {r : Request}

/-- The port is FREE, and an ERR is told (R94). -/
def State.refreshEnded (s : State) (w : FreshWord) (err : Bool) : State :=
  if err then s.freePort.raise .deliveryFault .part (freshFaultDetail w) else s.freePort

/-- The end of a refresh leaves the rest of the part as it was. -/
structure RefreshGone (s v : State) (w : FreshWord) (err : Bool) : Prop where
  told : err = true → raisedIn s v .deliveryFault .part (if w = .milliseconds then 33 else 34)
  quiet : err = false → v.nu = s.nu
  mp : v.mp = { s.mp with port := .free }
  lines : v.lines = s.lines
  cu : v.cu = s.cu
  de : v.de = s.de
  wu : v.wu = s.wu
  outside : outsideKept s v

theorem refreshEnded_gone (s : State) (w : FreshWord) (err : Bool) : RefreshGone s (s.refreshEnded w err) w err := by
  cases err with
  | false =>
    exact ⟨fun h => (by cases h), fun _ => rfl, rfl, rfl, rfl, rfl, rfl, rfl, rfl, rfl, rfl⟩
  | true =>
    have told : raisedIn s (s.freePort.raise .deliveryFault .part (freshFaultDetail w)) .deliveryFault .part
        (if w = .milliseconds then 33 else 34) :=
      raisedIn_of (p := fun _ => False) (t := s.freePort) (keepsRecords_of rfl rfl) rfl (keepsRecords_refl _ _) id
        (by cases w <;> rfl)
    have is : s.refreshEnded w true = s.freePort.raise .deliveryFault .part (freshFaultDetail w) := if_pos rfl
    have frame := raise_frame s.freePort .deliveryFault .part (freshFaultDetail w)
    rw [is]
    obtain ⟨lines, cu, de, mp, wu, pins, clock, free, pending⟩ := frame
    exact ⟨fun _ => told, fun h => (by cases h), mp, lines, cu, de, wu, pins, clock, free, pending⟩

/-! ## The read that asked (R127) -/

/-- The read that asked is WAITING, with the flags that its refresh wrote. -/
theorem releaseFresh_asked {err : Bool} (request : s.mp.request = some r) (stage : r.stage = .refreshing)
    (fresh : r.fresh = some w) (issued : w ∉ s.de.fresh) : s.releaseFresh w x err = s.setRequest (some { r with
      stage := .waiting, refreshed := if err = false ∧ w = .activity then some (x.setWidth 8) else none }) := by
  have flags : refreshedFlags w x err = if err = false ∧ w = .activity then some (x.setWidth 8) else none := by
    cases w <;> cases err <;> rfl
  simp [State.releaseFresh, request, stage, fresh, issued, flags]

/-- No read waits for it. -/
theorem releaseFresh_none {err : Bool}
    (h : ∀ r, s.mp.request = some r → r.stage = .refreshing → r.fresh = some w → w ∈ s.de.fresh) :
    s.releaseFresh w x err = s := by
  simp only [State.releaseFresh]
  cases request : s.mp.request with
  | none => rfl
  | some r =>
    refine if_neg fun ⟨stage, fresh, issued⟩ => ?_
    simp [h r request stage fresh] at issued

/-- A WAITING request below the patience is granted the FREE port (R130). -/
theorem arbitrated_host (h : arbitrated t u) (due : noArmingDue t) (request : t.mp.request = some r)
    (waits : r.stage = .waiting) (below : t.mp.passed < patience t.liveDelivery) : u.mp.port = .host true r.access := by
  obtain ⟨-, -, granted⟩ := h
  obtain ⟨-, host⟩ := granted due
  obtain ⟨alone, passing, -⟩ := host r request waits
  by_cases next : t.deNext = none
  · rw [alone next]
  · rw [passing next below]

/-- Settles O46: the next refresh, its beginning and its end. -/
theorem freshWordIsRefreshed : Obligations.FreshWordIsRefreshed := by
  refine ⟨fun s w rest fresh => deNext_fresh fresh, fun s w ha port next => ?_,
    fun s w x a r err ha rest port request stage fresh issued => ?_, fun s w x a err ha rest port nobody => ?_⟩
  · exact start_begins rfl ha port next fun wins => by simp only [State.startRefresh, next, wins, if_true]
  · have acts : s.endRefresh err = (s.refreshEnded w err).releaseFresh w x err := by
      simp only [State.endRefresh, port]; rfl
    have gone := refreshEnded_gone s w err
    generalize s.refreshEnded w err = v at *
    obtain ⟨told, quiet, mp, lines, cu, de, wu, outside⟩ := gone
    rw [releaseFresh_asked (by rw [mp]; exact request) stage fresh (by rw [de]; exact issued)] at acts
    have mp' (q : Option Request) : (v.setRequest q).mp = { s.mp with port := .free, request := q } := by
      simp [State.setRequest, State.modMp, mp]
    have due : noArmingDue v := by
      unfold noArmingDue
      rw [de]
      exact rest.1
    have patient : patience v.liveDelivery = patience s.liveDelivery := by simp only [State.liveDelivery, cu]
    obtain ⟨t', answer, granted⟩ := deEnd_arbitrates (c := .freshWordRefreshComplete err) rfl ha rest.1 port acts
      (by rw [mp'])
    have host (below : s.mp.passed < patience s.liveDelivery) : t'.mp.port = .host true r.access := by
      have passed : (v.setRequest (some { r with stage := .waiting, refreshed :=
          if err = false ∧ w = .activity then some (x.setWidth 8) else none })).mp.passed < patience v.liveDelivery := by
        rw [mp', patient]
        exact below
      have port' := arbitrated_host granted due (congrArg Mp.request (mp' _)) rfl passed
      exact port'
    exact ⟨_, t', answer, granted, mp' _, told, quiet, lines, cu, deKept_markChanged de, wu, outside, host⟩
  · have acts : s.endRefresh err = (s.refreshEnded w err).releaseFresh w x err := by
      simp only [State.endRefresh, port]; rfl
    have gone := refreshEnded_gone s w err
    generalize s.refreshEnded w err = v at *
    obtain ⟨told, quiet, mp, lines, cu, de, wu, outside⟩ := gone
    rw [releaseFresh_none (by rw [mp, de]; exact nobody)] at acts
    obtain ⟨t', answer, granted⟩ := deEnd_arbitrates (c := .freshWordRefreshComplete err) rfl ha rest.1 port acts (by rw [mp])
    exact ⟨_, t', answer, granted, mp, told, quiet, lines, cu, deKept_markChanged de, wu, outside⟩

end Sys2Proof.Machine
end

