-- ==== Sys2Proof/Proofs/HostEnds.lean ====
section
/-! PROOF of O22. The completion of a host access: passed upstream, and the rows of the accesses that a block takes
(spec/06 R122 to R124, R128, R139; spec/04 R84; spec/09 R160). -/

namespace Sys2Proof.Machine
open Sys2Proof

variable {s t u v : State} {a : Access} {r : Request}

/-! ## Completions (R122) -/

/-- Two rows that do the same to a state at rest answer the same. -/
theorem act_congr {f g : State → State} (rest : atRest s) (h : f s = g s) : s.act f = s.act g := by
  simp only [State.act, claimed_atRest rest, h]

/-- The completion goes upstream as memory gave it, and no block takes anything. -/
theorem completeHost_passes {err : Bool} (port : s.mp.port = .host true a) (request : s.mp.request = some r)
    (stage : r.stage = .onPort) (data : Word) (taken : err = false → r.access.write = true → s.handOver r = s)
    (fresh : err = false → r.access.write = false → r.refreshed = none) :
    s.completeHost err data = s.freePort.completeUp err (if r.access.write = true then none else some data) := by
  cases err with
  | true => simp [State.completeHost, port, request, stage]
  | false =>
    cases write : r.access.write with
    | true => simp [State.completeHost, port, request, stage, write, taken rfl write]
    | false => simp [State.completeHost, port, request, stage, write, State.afterFreshRead, fresh rfl write]

/-- A write that no block captures, a partial write of an Rd word among them, is handed to nobody. -/
theorem handOver_nobody (h : r.target = .none ∨ ∃ q, r.target = .readIndex q ∧ r.access.be ≠ 0xF#4) : s.handOver r = s := by
  rcases h with none | ⟨q, target, partly⟩
  · simp only [State.handOver, none]
  · have notFull : ¬fullWord r.access.be = true := by simpa [fullWord] using partly
    simp only [State.handOver, target]
    exact if_neg notFull

/-- The completion of a fresh read of the activity summary word that is on the port. -/
theorem activityOnPort_spec (h : s.activityOnPort = true) : ∃ a r, s.mp.port = .host true a ∧ s.mp.request = some r
    ∧ r.stage = .onPort ∧ r.access.write = false ∧ r.fresh = some .activity := by
  simp only [State.activityOnPort] at h
  split at h
  next a r port request =>
    simp only [Bool.and_eq_true, beq_iff_eq, Bool.not_eq_true'] at h
    obtain ⟨⟨stage, write⟩, fresh⟩ := h
    exact ⟨a, r, port, request, stage, write, fresh⟩
  next => cases h

/-- The answer to a write does not show the data. -/
theorem completeHost_anyData (port : s.mp.port = .host true a) (request : s.mp.request = some r) (stage : r.stage = .onPort)
    (write : r.access.write = true) (x y : Word) : s.completeHost false x = s.completeHost false y := by
  rw [completeHost_write port request stage write, completeHost_write port request stage write]

theorem writeOnPort_anyData {target : CaptureTarget} {be : BitVec 4} {data : Word} (h : s.writeOnPort target be data = true)
    (x y : Word) : s.completeHost false x = s.completeHost false y := by
  obtain ⟨a, r, port, request, stage, write, -⟩ := writeOnPort_spec h
  exact completeHost_anyData port request stage write x y

theorem commandOnPort_anyData {tag code operand : Byte} (h : s.commandOnPort tag code operand = true) (x y : Word) :
    s.completeHost false x = s.completeHost false y := by
  simp only [State.commandOnPort] at h
  split at h
  next a r port request =>
    simp only [Bool.and_eq_true, beq_iff_eq] at h
    obtain ⟨⟨⟨⟨⟨⟨stage, write⟩, -⟩, -⟩, -⟩, -⟩, -⟩ := h
    exact completeHost_anyData port request stage write x y
  next => cases h

/-- Settles O22: completions passed upstream, discarded ones, and the rows of the captures. -/
theorem hostCompletionPassesUpstream : Obligations.HostCompletionPassesUpstream := by
  refine ⟨fun err data s a r ha rest port request stage nobody => ?_, fun err data s a ha rest port => ?_,
    fun off be data x s r sec rest request offset h => ?_, fun q data x s rest h => ?_, fun data s rest h => ?_,
    fun tag code operand x s rest h => ?_, fun be data x s rest partialBe h => ?_⟩
  · have acts : s.completeHost err data
        = s.freePort.completeUp err (if r.access.write = true then none else some data) := by
      refine completeHost_passes port request stage data (fun ok write => handOver_nobody ?_) (fun ok read => ?_)
      · rcases nobody with failed | ⟨read, -⟩ | ⟨-, none⟩
        · rw [ok] at failed; cases failed
        · rw [write] at read; cases read
        · exact none
      · rcases nobody with failed | ⟨-, quiet⟩ | ⟨write, -⟩
        · rw [ok] at failed; cases failed
        · exact quiet
        · rw [write] at read; cases read
    obtain ⟨t', answer, hands⟩ := act_handsOn ha rest.1 (·.completeHost err data) port (by rw [acts]; rfl)
    rw [acts] at hands
    exact ⟨_, t', answer, hands, rfl, rfl, rfl, deKept_markChanged rfl, rfl, rfl, rfl, rfl, rfl, rfl⟩
  · have acts : s.completeDiscarded = s.freePort := by simp only [State.completeDiscarded, port]
    obtain ⟨t', answer, granted⟩ := act_frees ha rest.1 (·.completeDiscarded) (by rw [port]; simp) (by rw [port]; simp)
      (by rw [acts]; rfl)
    rw [acts] at granted
    exact ⟨_, t', answer, granted, rfl, rfl, rfl, deKept_markChanged rfl, rfl, rfl, rfl, rfl, rfl, rfl⟩
  · obtain ⟨a, r', -, request', -, -, target, -⟩ := writeOnPort_spec h
    rw [request] at request'
    cases request'
    have acts : s.capturedStep off be data = s.completeHost false 0 := by
      simp only [State.capturedStep, request, target]
      exact if_pos ⟨h, offset⟩
    exact act_congr (f := (·.completeHost false x)) (g := (·.capturedStep off be data)) rest
      ((writeOnPort_anyData h x 0).trans acts.symm)
  · have acts : s.rdStep q data = s.completeHost false 0 := if_pos h
    exact act_congr (f := (·.completeHost false x)) (g := (·.rdStep q data)) rest ((writeOnPort_anyData h x 0).trans acts.symm)
  · have acts : s.activityStep data = s.completeHost false data := if_pos h
    exact act_congr (f := (·.completeHost false data)) (g := (·.activityStep data)) rest acts.symm
  · have acts : s.commandStep tag code operand = s.completeHost false 0 := if_pos h
    rw [exec_commandRow]
    exact act_congr (f := (·.completeHost false x)) (g := (·.commandStep tag code operand)) rest
      ((commandOnPort_anyData h x 0).trans acts.symm)
  · have partly : (!fullWord be) = true := by simpa [fullWord] using partialBe
    have acts : s.partialStep be data = s.completeHost false 0 := if_pos ⟨h, partly⟩
    exact act_congr (f := (·.completeHost false x)) (g := (·.partialStep be data)) rest
      ((writeOnPort_anyData h x 0).trans acts.symm)

end Sys2Proof.Machine
end

