-- ==== Sys2Proof/Proofs/Captures.lean ====
section
/-! PROOF of O23. What a block captures of a host access that ends with OK (spec/06 R123, R128, R139;
spec/04 R84; spec/09 R160). -/

namespace Sys2Proof.Machine
open Sys2Proof

variable {s t u v : State} {a : Access} {r : Request} {sec : SectionId} {be : BitVec 4} {data : Word} {off : Nat}

/-! ## The end of a captured write (R123) -/

/-- A row that completes a write on the port: its block takes it, and the port is handed on. -/
theorem capture_answers {c : Instr} {f : State → State} (row : exec c s = s.act f) (ha : awake s) (rest : atRest s)
    (port : s.mp.port = .host true a) (acts : f s = v.freePort.completeUp false none) :
    ∃ t', exec c s = .next t' ∧ handsOn (s.markChanged (v.freePort.completeUp false none)) t' := by
  obtain ⟨t', answer, hands⟩ := act_handsOn ha rest.1 f port (by rw [acts]; rfl)
  rw [acts] at hands
  exact ⟨t', row.trans answer, hands⟩

/-- What the port is then. -/
theorem captured_mp (mp : v.mp = s.mp) (data : Option Word) : (s.markChanged (v.freePort.completeUp false data)).mp
    = { s.mp with request := none, port := .free, completion := some { err := false, data := data } } := by
  rw [← mp]
  rfl

/-! ## The staged copies (R139, R160) -/

theorem start_eq (sec : SectionId) : sec.start = sectionOffset sec := by cases sec <;> rfl

/-- The byte of a word that a write with byte enables leaves, seen through `f`. -/
theorem merged_byte {α : Type} (f : Byte → α) (i off : Nat) (be : BitVec 4) (data : Word) (held : Byte) :
    f (if off ≤ i ∧ i < off + 4 then mergeByte be data (i - off) held else held)
      = if off ≤ i ∧ i < off + 4 ∧ be.getLsbD (i - off) = true then f (wordByte data (i - off)) else f held := by
  by_cases place : off ≤ i ∧ i < off + 4
  · by_cases enabled : be.getLsbD (i - off) = true
    · simp [place, enabled, mergeByte]
    · simp [place, enabled, mergeByte]
  · rw [if_neg place, if_neg]
    rintro ⟨low, high, -⟩
    exact place ⟨low, high⟩

/-- A byte whose enable is asserted is replaced, every other byte stays (R139). -/
theorem mergeSection_get (held : Bytes) (off : Nat) (be : BitVec 4) (data : Word) (i : Fin 256) :
    (mergeSection held off be data)[i] = if off ≤ i.val ∧ i.val < off + 4 ∧ be.getLsbD (i.val - off) = true
      then wordByte data (i.val - off) else held[i] := by
  have byte : (mergeSection held off be data)[i]
      = if off ≤ i.val ∧ i.val < off + 4 then mergeByte be data (i.val - off) held[i] else held[i] := by
    simp [mergeSection]
  exact byte.trans (merged_byte id ..)

theorem mergeBytes_get (held : List Byte) (off : Nat) (be : BitVec 4) (data : Word) {i : Nat} (h : i < held.length) :
    (mergeBytes held off be data)[i]? = if off ≤ i ∧ i < off + 4 ∧ be.getLsbD (i - off) = true
      then some (wordByte data (i - off)) else held[i]? := by
  have byte : (mergeBytes held off be data)[i]?
      = some (if off ≤ i ∧ i < off + 4 then mergeByte be data (i - off) held[i] else held[i]) := by
    simp [mergeBytes, h]
  rw [byte, merged_byte some, List.getElem?_eq_getElem h]

/-- The write replaces bytes of its own section's copy alone. -/
theorem capture_staged (s : State) (sec q : SectionId) (off : Nat) (be : BitVec 4) (data : Word) :
    stagedOf (s.capture sec off be data) q
      = if q = sec then mergeSection (stagedOf s sec) (off - sectionOffset sec) be data else stagedOf s q := by
  by_cases same : q = sec
  · subst same
    rw [if_pos rfl, ← start_eq]
    cases q with
    | delivery => rfl
    | windows => rfl
    | line l => exact congrArg LineCopies.stagedLine (modAt_same ..)
    | cal l => exact congrArg LineCopies.stagedCal (modAt_same ..)
  · rw [if_neg same]
    cases sec with
    | delivery => cases q with
      | delivery => exact absurd rfl same
      | windows | line | cal => rfl
    | windows => cases q with
      | windows => exact absurd rfl same
      | delivery | line | cal => rfl
    | line k => cases q with
      | delivery | windows => rfl
      | line l =>
        have other : l ≠ k := fun e => same (e ▸ rfl)
        exact congrArg LineCopies.stagedLine (modAt_other _ _ _ _ other)
      | cal l => exact modAt_view s.cu.lines k l _ LineCopies.stagedCal fun _ => rfl
    | cal k => cases q with
      | delivery | windows => rfl
      | line l => exact modAt_view s.cu.lines k l _ LineCopies.stagedLine fun _ => rfl
      | cal l =>
        have other : l ≠ k := fun e => same (e ▸ rfl)
        exact congrArg LineCopies.stagedCal (modAt_other _ _ _ _ other)

/-- No live or pending copy changes. -/
theorem capture_copies (s : State) (sec : SectionId) (off : Nat) (be : BitVec 4) (data : Word) (l : LineId) :
    (s.capture sec off be data).copies l = { s.copies l with
      stagedLine := ((s.capture sec off be data).copies l).stagedLine
      stagedCal := ((s.capture sec off be data).copies l).stagedCal } := by
  cases sec with
  | delivery => rfl
  | windows => rfl
  | line k =>
    simp only [State.capture, State.modCu, Cu.mergeStaged, State.copies, modAt_get]
    split <;> rfl
  | cal k =>
    simp only [State.capture, State.modCu, Cu.mergeStaged, State.copies, modAt_get]
    split <;> rfl

theorem capture_cu (s : State) (sec : SectionId) (off : Nat) (be : BitVec 4) (data : Word) :
    (s.capture sec off be data).cu = { s.cu with
        lines := (s.capture sec off be data).cu.lines, stagedWindows := (s.capture sec off be data).cu.stagedWindows
        stagedDelivery := (s.capture sec off be data).cu.stagedDelivery, load := (s.capture sec off be data).cu.load }
      ∧ (s.capture sec off be data).cu.load = s.cu.load.map fun x => x.capture off be data := by
  cases sec <;> exact ⟨rfl, rfl⟩

/-- The same bytes of the buffer of a load are replaced where the buffer holds the word (R160). -/
theorem loadCapture_spec (x : Load) (off : Nat) (be : BitVec 4) (data : Word) :
    x.capture off be data = { x with buffer := (x.capture off be data).buffer }
      ∧ (x.capture off be data).buffer.length = x.buffer.length
      ∧ ∀ i, i < x.buffer.length → (x.capture off be data).buffer[i]? =
          if off ≤ x.start + i ∧ x.start + i < off + 4 ∧ x.start ≤ off ∧ be.getLsbD (x.start + i - off) = true
          then some (wordByte data (x.start + i - off)) else x.buffer[i]? := by
  by_cases holds : x.start ≤ off
  · have merges : x.capture off be data = { x with buffer := mergeBytes x.buffer (off - x.start) be data } := if_pos holds
    rw [merges]
    refine ⟨rfl, mergeBytes_length .., fun i hi => ?_⟩
    have place : i - (off - x.start) = x.start + i - off := by omega
    rw [mergeBytes_get _ _ _ _ hi, place]
    refine ite_congr (propext ⟨?_, ?_⟩) (fun _ => rfl) (fun _ => rfl)
    · rintro ⟨low, high, enabled⟩
      exact ⟨by omega, by omega, holds, enabled⟩
    · rintro ⟨low, high, -, enabled⟩
      exact ⟨by omega, by omega, enabled⟩
  · have kept : x.capture off be data = x := if_neg holds
    rw [kept]
    refine ⟨rfl, rfl, fun i _ => (if_neg ?_).symm⟩
    rintro ⟨-, -, low, -⟩
    exact holds low

/-- Settles O23: the bytes of a captured write. -/
theorem capturedWriteMerges : Obligations.CapturedWriteMerges := by
  intro off be data s r sec ha rest request offset aligned h low high
  obtain ⟨a, r', port, request', stage, write, target, rfl, rfl⟩ := writeOnPort_spec h
  rw [request] at request'
  cases request'
  have whole : off.toNat / 4 * 4 = off.toNat := by omega
  have acts : s.capturedStep off r.access.be r.access.data
      = (s.capture sec off.toNat r.access.be r.access.data).freePort.completeUp false none := by
    have hands : s.handOver r = s.capture sec off.toNat r.access.be r.access.data := by
      simp only [State.handOver, target, offset, whole]
    rw [← hands, ← completeHost_write port request stage write 0]
    simp only [State.capturedStep, request, target]
    exact if_pos ⟨h, offset⟩
  obtain ⟨t', answer, hands⟩ := capture_answers (c := .capturedWrite off r.access.be r.access.data)
    (f := (·.capturedStep off r.access.be r.access.data)) rfl ha rest port acts
  have frame := capture_frame s sec off.toNat r.access.be r.access.data
  have staged (q : SectionId) := capture_staged s sec q off.toNat r.access.be r.access.data
  have copies := capture_copies s sec off.toNat r.access.be r.access.data
  have cu := capture_cu s sec off.toNat r.access.be r.access.data
  generalize s.capture sec off.toNat r.access.be r.access.data = v at *
  obtain ⟨lines, de, nu, mp, wu, outside⟩ := frame
  obtain ⟨cu, load⟩ := cu
  refine ⟨_, t', answer, hands, fun i => ?_, fun q other => ?_, copies, cu, fun none => ?_, fun x some => ?_,
    captured_mp mp _, lines, deKept_markChanged de, nu, wu, outside⟩
  · show (stagedOf v sec)[i] = _
    rw [staged sec, if_pos rfl]
    exact mergeSection_get ..
  · exact (staged q).trans (if_neg other)
  · show v.cu.load = _
    rw [load, none]
    rfl
  · refine ⟨x.capture off.toNat r.access.be r.access.data, ?_, loadCapture_spec ..⟩
    show v.cu.load = _
    rw [load, some]
    rfl

end Sys2Proof.Machine
end

