-- ==== Sys2Proof/Proofs/RdCaptures.lean ====
section
/-! PROOF of O24 and O25. Read indexes captured, and activity flags cleared by the read that reported them (spec/04 R84;
spec/07 R128; spec/02 R183). -/

namespace Sys2Proof.Machine
open Sys2Proof

variable {s t u v : State} {q : RingId} {n : Half}

/-! ## Read indexes (R84, R183) -/

theorem captureRd_unarmed (h : (s.ring q).armed = false) : s.captureRd q n = s := by
  simp [State.captureRd, h]

theorem captureRd_refused (armed : (s.ring q).armed = true) (beyond : (s.ring q).fill < (s.ring q).advance n) :
    s.captureRd q n = s.raise .ringIndex (ringSource q) q.val := by
  simp [State.captureRd, armed, Nat.not_le.mpr beyond]

theorem captureRd_accepted (armed : (s.ring q).armed = true) (fits : (s.ring q).advance n ≤ (s.ring q).fill) :
    s.captureRd q n = if q = noticeRing then ((s.modRing q fun x => { x with rd := n }).markPart).consumed ((s.ring q).advance n)
      else (s.modRing q fun x => { x with rd := n }).markPart := by
  simp [State.captureRd, armed, fits]

/-- What an accepted read index makes of the part: of the DE the ring's index and the mark of the part page, of the
notices the outstanding list of the notice ring. -/
theorem accepted_spec (armed : (s.ring q).armed = true) (fits : (s.ring q).advance n ≤ (s.ring q).fill) :
    (s.captureRd q n).de = (s.modRing q fun x => { x with rd := n }).markPart.de
      ∧ (s.captureRd q n).nu.outstanding = if q = noticeRing then s.nu.outstanding.drop ((s.ring q).advance n)
          else s.nu.outstanding := by
  rw [captureRd_accepted armed fits]
  by_cases notice : q = noticeRing
  · rw [if_pos notice, if_pos notice]
    exact ⟨rfl, rfl⟩
  · rw [if_neg notice, if_neg notice]
    exact ⟨rfl, rfl⟩

/-- What a captured read index makes of its ring and of the notices (R84, R183). -/
structure RdChecked (s v : State) (q : RingId) (n : Half) : Prop where
  accepted : (s.ring q).armed = true → (s.ring q).advance n ≤ (s.ring q).fill →
    v.ring q = { s.ring q with rd := n } ∧ isDirty v partPage
      ∧ v.nu.outstanding = if q = noticeRing then s.nu.outstanding.drop ((s.ring q).advance n) else s.nu.outstanding
  refused : (s.ring q).armed = true → (s.ring q).fill < (s.ring q).advance n →
    v.ring q = s.ring q ∧ raisedIn s v .ringIndex (ringSource q) (BitVec.ofNat 16 q.val)
  unarmed : (s.ring q).armed = false → v.ring q = s.ring q ∧ v.nu = s.nu
  others : ∀ x : RingId, x ≠ q → v.ring x = s.ring x
  de : deKept { s with de := { s.de with rings := v.de.rings } } v

theorem captureRd_checked (s : State) (q : RingId) (n : Half) : RdChecked s (s.captureRd q n) q n := by
  cases armed : (s.ring q).armed with
  | false =>
    rw [captureRd_unarmed armed]
    exact ⟨fun h => (by rw [armed] at h; cases h), fun h => (by rw [armed] at h; cases h), fun _ => ⟨rfl, rfl⟩, fun _ _ => rfl,
      rfl, fun _ => rfl⟩
  | true =>
    by_cases fits : (s.ring q).advance n ≤ (s.ring q).fill
    · obtain ⟨de, outstanding⟩ := accepted_spec armed fits
      generalize s.captureRd q n = v at *
      obtain ⟨ring, others⟩ := ring_of_modRing (s := s) (t := v) (r := q) (g := fun x => { x with rd := n }) (by rw [de]; rfl)
      have dirty : isDirty v partPage := by
        rw [isDirty, State.page, de]
        exact markPage_isDirty (s.modRing q fun x => { x with rd := n }) partPage
      have kept : deKept { s with de := { s.de with rings := v.de.rings } } v :=
        deKept_trans (t := (s.modRing q fun x => { x with rd := n }).markPart) (by
          rw [de]
          exact deKept_markPage partPage ⟨rfl, fun _ => rfl⟩) de
      exact ⟨fun _ _ => ⟨ring, dirty, outstanding⟩, fun _ h => absurd fits (Nat.not_le.mpr h),
        fun h => (by rw [armed] at h; cases h), others, kept⟩
    · rw [captureRd_refused armed (Nat.not_le.mp fits)]
      have told : raisedIn s (s.raise .ringIndex (ringSource q) q.val) .ringIndex (ringSource q) (BitVec.ofNat 16 q.val) :=
        raisedIn_of (p := fun _ => False) (keepsRecords_refl _ s) rfl (keepsRecords_refl _ _) id rfl
      obtain ⟨lines, cu, de, -⟩ := raise_frame s .ringIndex (ringSource q) q.val
      generalize s.raise .ringIndex (ringSource q) q.val = v at *
      have rings (x : RingId) : v.ring x = s.ring x := by simp only [State.ring, de]
      exact ⟨fun _ h => absurd h fits, fun _ _ => ⟨rings q, told⟩, fun h => (by rw [armed] at h; cases h),
        fun x _ => rings x, by rw [de], fun p => by simp only [State.page, de]⟩

/-- Settles O24: the check of a captured read index. -/
theorem rdCaptureIsChecked : Obligations.RdCaptureIsChecked := by
  intro q data s ha rest h
  obtain ⟨a, r, port, request, stage, write, target, full, rfl⟩ := writeOnPort_spec h
  have acts : s.rdStep q r.access.data
      = (s.captureRd q (r.access.data.setWidth 16)).freePort.completeUp false none := by
    have hands : s.handOver r = s.captureRd q (r.access.data.setWidth 16) := by
      simp only [State.handOver, target]
      exact if_pos (by rw [full]; rfl)
    rw [← hands, ← completeHost_write port request stage write 0]
    exact if_pos h
  obtain ⟨t', answer, hands⟩ := capture_answers (c := .rdCapture q r.access.data) (f := (·.rdStep q r.access.data)) rfl ha
    rest port acts
  obtain ⟨lines, cu, mp, wu, outside⟩ := captureRd_frame s q (r.access.data.setWidth 16)
  have checked := captureRd_checked s q (r.access.data.setWidth 16)
  generalize s.captureRd q (r.access.data.setWidth 16) = v at *
  refine ⟨_, t', answer, hands, captured_mp mp _, fun armed fits => ?_, checked.refused, checked.unarmed, checked.others,
    deKept_markChanges checked.de, lines, cu, wu, outside⟩
  obtain ⟨ring, dirty, outstanding⟩ := checked.accepted armed fits
  exact ⟨ring, markChanged_isDirty dirty, outstanding⟩

/-! ## Activity flags (R128) -/

/-- A flag that the value reported is cleared unless its window was matched since (R128). -/
theorem clearReported_window (s : State) (x : Byte) (w : WindowId) : (s.clearReported x).window w
    = { s.window w with active := (s.window w).active && !(x.getLsbD w.val && !(s.window w).matched) } := by
  have here : (s.clearReported x).window w
      = if x.getLsbD w.val && !(s.window w).matched then { s.window w with active := false } else s.window w := by
    simp [State.window, State.clearReported, State.modWu]
  rw [here]
  cases x.getLsbD w.val && !(s.window w).matched with
  | false => simp
  | true => simp

/-- Settles O25: the flags that a read of the activity summary word clears. -/
theorem activityReadClearsFlags : Obligations.ActivityReadClearsFlags := by
  intro data s r ha rest h request
  obtain ⟨a, r', port, request', stage, read, -⟩ := activityOnPort_spec h
  rw [request] at request'
  cases request'
  have acts : s.activityStep data = (s.afterFreshRead r).freePort.completeUp false (some data) := by
    have completes : s.activityStep data = s.completeHost false data := if_pos h
    rw [completes]
    simp [State.completeHost, port, request, stage, read, State.afterFreshRead]
    cases r.refreshed <;> rfl
  obtain ⟨t', answer, hands⟩ := act_handsOn ha rest.1 (·.activityStep data) port (by rw [acts]; rfl)
  rw [acts] at hands
  obtain ⟨lines, cu, de, nu, mp, outside⟩ := afterFreshRead_frame s r
  have cleared (x : Byte) (hx : r.refreshed = some x) : s.afterFreshRead r = s.clearReported x := by
    simp only [State.afterFreshRead, hx]
  have kept (hx : r.refreshed = none) : s.afterFreshRead r = s := by
    simp only [State.afterFreshRead, hx]
  have wu : (s.afterFreshRead r).wu = { s.wu with windows := (s.afterFreshRead r).wu.windows } := by
    cases flags : r.refreshed with
    | none => rw [kept flags]
    | some x => rw [cleared x flags]; rfl
  refine ⟨_, t', answer, hands, captured_mp mp _, fun x hx w => ?_, fun none => ?_, wu, lines, cu, deKept_markChanged de, nu,
    outside⟩
  · show (s.afterFreshRead r).window w = _
    rw [cleared x hx]
    exact clearReported_window s x w
  · show (s.afterFreshRead r).wu.windows = _
    rw [kept none]

end Sys2Proof.Machine
end

