-- ==== Sys2Proof/Proofs/HostClaims.lean ====
section
/-! SUPPORT. A request that is taken: what the claim granted before it leaves, and what matching it to the windows does
(spec/06 R119, R130; spec/07 R166, R171, R172). -/

namespace Sys2Proof.Machine
open Sys2Proof

variable {s t u v b : State} {addr : Addr} {write : Bool}

/-! ## The claim that is granted first (R130) -/

/-- Nothing that a request is judged by differs. -/
structure Spared (s b : State) : Prop where
  lines : b.lines = s.lines
  cu : b.cu = s.cu
  rings : b.de.rings = s.de.rings
  base : b.wu.base = s.wu.base
  hits : b.wu.ownedHits = s.wu.ownedHits
  guards : ∀ w : WindowId, (b.window w).guardHits = (s.window w).guardHits
  request : b.mp.request = s.mp.request
  inReset : b.mp.inReset = s.mp.inReset

theorem spared_refl (s : State) : Spared s s := ⟨rfl, rfl, rfl, rfl, rfl, fun _ => rfl, rfl, rfl⟩

/-- A state whose lines, CU and windows are as they were. -/
theorem spared_of (lines : b.lines = s.lines) (cu : b.cu = s.cu) (rings : b.de.rings = s.de.rings) (wu : b.wu = s.wu)
    (request : b.mp.request = s.mp.request) (inReset : b.mp.inReset = s.mp.inReset) : Spared s b :=
  ⟨lines, cu, rings, by rw [wu], by rw [wu], fun w => by simp only [State.window, wu], request, inReset⟩

/-- With no request in hand the beginning of a work of the engine spares all that. -/
theorem engineBegins_spared {work : DeWork} (h : engineBegins s b work) (none : s.mp.request = none) : Spared s b := by
  obtain ⟨mp, lines, cu, -, begun⟩ := h
  have inReset : b.mp.inReset = s.mp.inReset := by rw [mp]
  have still (h : retested s b) : b.mp.request = s.mp.request := (h.1 none).trans none.symm
  cases work with
  | fresh f =>
    obtain ⟨de, request, nu, x, -, ms, activity⟩ := begun
    cases f with
    | milliseconds => exact spared_of lines cu (by rw [de]) (ms rfl).2 request inReset
    | activity =>
      obtain ⟨-, -, wu, windows⟩ := activity rfl
      exact ⟨lines, cu, by rw [de], by rw [wu], by rw [wu], fun w => by rw [windows w], request, inReset⟩
  | flightWord =>
    obtain ⟨-, request, de, -, wu⟩ := begun
    exact spared_of lines cu (by rw [de]) wu request inReset
  | indexReset r =>
    obtain ⟨-, request, de, -, wu⟩ := begun
    exact spared_of lines cu (by rw [de]) wu request inReset
  | commandStatus =>
    obtain ⟨-, request, de, -, wu⟩ := begun
    exact spared_of lines cu (by rw [de]) wu request inReset
  | loadRead off =>
    obtain ⟨-, request, de, -, wu⟩ := begun
    exact spared_of lines cu (by rw [de]) wu request inReset
  | notice e =>
    obtain ⟨⟨de, -, -, again⟩, wu, -⟩ := begun
    exact spared_of lines cu (by rw [de]) wu (still again) inReset
  | profile l g =>
    obtain ⟨⟨de, -, -, again⟩, -, wu⟩ := begun
    exact spared_of lines cu (by rw [de]) wu (still again) inReset
  | page p =>
    obtain ⟨de, -, -, -, -, again, -, wu⟩ := begun
    exact spared_of lines cu (by rw [de]) wu (still again) inReset

/-- With no request in hand and no arming due, the claim granted before a request spares what the request is judged by. -/
theorem claimed_spared (due : noArmingDue s) (none : s.mp.request = none) : Spared s s.claimed := by
  obtain ⟨a, ⟨rests, -⟩, granted, taken⟩ := claimed_spec s
  rw [rests due] at granted taken
  by_cases free : s.mp.port = .free ∧ s.awaited = false
  · obtain ⟨-, -, grant⟩ := granted free.1 free.2
    obtain ⟨idle, begins⟩ := (grant due).1 fun r hr => by rw [none] at hr; cases hr
    cases next : s.deNext with
    | none =>
      rw [idle next]
      exact spared_refl s
    | some work => exact engineBegins_spared (begins work next) none
  · rw [taken (by
      by_cases port : s.mp.port = .free
      · exact .inr (by simpa [port] using free)
      · exact .inl port)]
    exact spared_refl s

/-! ## What a request is judged by (R134 to R137, R165, R170) -/

theorem liesAt_base (h : b.wu.base = s.wu.base) (off : Nat) : liesAt b addr off ↔ liesAt s addr off := by
  simp only [liesAt, h]

theorem freshAt_base (h : b.wu.base = s.wu.base) (f : FreshWord) : freshAt b addr f ↔ freshAt s addr f :=
  exists_congr fun off => and_congr_left' (liesAt_base h off)

theorem capturedAs_base (h : b.wu.base = s.wu.base) (x : CaptureTarget) : capturedAs b addr x ↔ capturedAs s addr x :=
  exists_congr fun off => and_congr_left' (liesAt_base h off)

theorem suppressed_spared (h : Spared s b) : suppressed b addr ↔ suppressed s addr :=
  suppressed_congr h.rings h.base (by rw [h.cu]) (by rw [h.cu]) addr

/-- Where a write is captured is what its target names (R137). -/
theorem targetOf_captured {x : CaptureTarget} (h : capturedAs s addr x) : s.targetOf addr = x := by
  refine (targetOf_iff ?_).mpr h
  rintro rfl
  obtain ⟨off, -, ⟨sec, is, -⟩ | ⟨is, -⟩ | ⟨r, is, -⟩⟩ := h <;> cases is

theorem targetOf_nobody (h : ∀ x, ¬capturedAs s addr x) : s.targetOf addr = .none :=
  Decidable.not_not.mp fun some => h _ ((targetOf_iff some).mp rfl)

theorem freshOf_nobody (h : ∀ f, ¬freshAt s addr f) : s.freshOf addr = none :=
  Option.eq_none_iff_forall_ne_some.mpr fun f is => h f (freshOf_iff.mp is)

/-! ## Matching (R166, R171, R172) -/

/-- The windows that the request matches, before the attendance is re-derived. -/
def State.windowsHit (s : State) (addr : Nat) (write : Bool) : State :=
  ((List.finRange 8).filter fun w => s.matchesWindow addr write w).foldl
    (fun t w => t.modWindow w (matchWindow (s.windowDef w).timeoutMs)) s

/-- Of the part only the windows differ. -/
theorem windowsHit_eq (s : State) (addr : Nat) (write : Bool) :
    s.windowsHit addr write = { s with wu := { s.wu with windows := (s.windowsHit addr write).wu.windows } } :=
  (foldWindows (fun w => matchWindow (s.windowDef w).timeoutMs) _ ((List.nodup_finRange 8).filter _) s).2

/-- What matching a request leaves besides the windows and the attendance. -/
structure Matches (addr : Addr) (write : Bool) (u v : State) : Prop where
  windows : windowsMatched u v addr write
  guards : ∀ w : WindowId, (v.window w).guardHits = (u.window w).guardHits
  follows : attendanceFollows u v
  again : attendedAgain u v
  records : keepsRecords attendanceKind u v
  quiet : v.wu.attendance = u.wu.attendance → v.nu = u.nu
  hits : v.wu.ownedHits = u.wu.ownedHits
  base : v.wu.base = u.wu.base
  cu : v.cu = u.cu
  mp : v.mp = u.mp
  lines : ∀ l : LineId, v.ls l = u.ls l ∧ v.sru l = u.sru l
  de : deKept u v

theorem matchAll_matches (u : State) (addr : Addr) (write : Bool) : Matches addr write u (u.matchAll addr.toNat write) := by
  obtain ⟨windows, guards, follows, again⟩ := matchAll_spec (rfl : u.matchAll addr.toNat write = _)
  have is : u.matchAll addr.toNat write
      = (u.windowsHit addr.toNat write).rederiveAttendance (lowestWindow u.unattendedWindows) := rfl
  have hit := windowsHit_eq u addr.toNat write
  have records := rederiveAttendance_records (u.windowsHit addr.toNat write) (lowestWindow u.unattendedWindows)
  obtain ⟨-, -, hits, cu, -, -, same⟩ :=
    rederiveAttendance_spec (s := u.windowsHit addr.toNat write) (d := lowestWindow u.unattendedWindows) rfl
  obtain ⟨base, mp, -, -, lines, de⟩ := rederiveAttendance_kept (u.windowsHit addr.toNat write) (lowestWindow u.unattendedWindows)
  rw [← is] at records hits base cu same mp lines de
  generalize u.windowsHit addr.toNat write = x at *
  generalize u.matchAll addr.toNat write = v at *
  generalize x.wu.windows = ws at hit
  subst hit
  exact ⟨windows, guards, follows, again, keepsRecords_trans (keepsRecords_of rfl rfl) records,
    fun h => by rw [same h], hits, base, cu, mp, lines, de⟩

end Sys2Proof.Machine
end

