-- ==== Sys2Proof/Proofs/HostRequests.lean ====
section
/-! PROOF of O21. A host request that is not suppressed is placed in its stage (spec/06 R119, R120, R125, R127;
spec/07 R137, R138, R166, R170). -/

namespace Sys2Proof.Machine
open Sys2Proof

variable {s t u v b : State} {addr : Addr} {write : Bool} {a : Access} {be : BitVec 4} {data : Word}

/-! ## Matching within the taking of a request -/

/-- From `b` to `u` at most the counts of suppressed writes differ, and their notices. -/
structure Reported (b u : State) : Prop where
  windows : ∀ w : WindowId, u.window w = { b.window w with guardHits := (u.window w).guardHits }
  attendance : u.wu.attendance = b.wu.attendance
  cu : u.cu = b.cu
  lines : u.lines = b.lines
  de : u.de = b.de
  records : keepsRecords (· = .guardHit) b u

theorem Reported.state (r : Reported b u) (w : WindowId) : (u.window w).state = (b.window w).state := by rw [r.windows w]

theorem Reported.defs (r : Reported b u) (w : WindowId) : u.windowDef w = b.windowDef w := by
  simp only [State.windowDef, r.cu]

theorem Reported.holds (r : Reported b u) (w : WindowId) : holdsPart u w ↔ holdsPart b w := by
  simp only [holdsPart, r.defs w, r.state w]

theorem Reported.matched (r : Reported b u) (w : WindowId) : matchedBy u addr write w ↔ matchedBy b addr write w := by
  simp only [matchedBy, r.defs w]

/-- The windows and the attendance after a request was matched, seen from before its suppression was reported. -/
theorem matches_reported (h : Matches addr write u v) (r : Reported b u) (lines : t.lines = v.lines) (cu : t.cu = v.cu)
    (wu : t.wu = v.wu) (nu : t.nu = v.nu) (dirty : isDirty v partPage → isDirty t partPage) :
    windowsMatched b t addr write ∧ attendanceFollows b t ∧ attendedAgain b t
      ∧ ∀ l : LineId, t.ls l = b.ls l ∧ t.sru l = b.sru l := by
  have window (w : WindowId) : t.window w = v.window w := by simp only [State.window, wu]
  have later : keepsRecords (fun _ => False) v t := keepsRecords_of nu (by simp only [State.liveDelivery, cu])
  refine ⟨fun w => ?_, ?_, fun before after w holds lowest => ?_, fun l => ?_⟩
  · obtain ⟨hit, kept⟩ := h.windows w
    rw [window w]
    refine ⟨fun m => ?_, fun m => ?_⟩
    · rw [hit ((r.matched w).mpr m), r.state w, r.defs w]
    · rw [kept fun x => m ((r.matched w).mp x), r.windows w]
  · refine attendanceFollows_of r.attendance (fun l => by simp only [State.gzu, r.lines]) r.records h.follows wu cu dirty
      (fun l => by simp only [State.gzu, lines]) later ?_
    rintro k (rfl | rfl) <;> exact ⟨by decide, id⟩
  · have told := h.again (r.attendance.trans before) (by rw [← wu]; exact after) w ((r.holds w).mpr holds)
      fun k hk x => lowest k hk ((r.holds k).mp x)
    exact raisedIn_between r.records told later id
  · obtain ⟨ls, sru⟩ := h.lines l
    simp only [State.ls, State.sru, lines] at ls sru ⊢
    rw [ls, sru, r.lines]
    exact ⟨rfl, rfl⟩

/-- A request is taken in the state in which the claim before it has been granted (R119, R130). -/
theorem hostRequestTaken_answers (ha : awake s) (taken : s.claimed.takesRequests = true) :
    exec (.hostRequestTaken addr write be data) s = .next
      (s.claimed.markChanged (s.claimed.takeRequest { addr := addr, write := write, be := be, data := data })).arbitrate := by
  refine (actClaim_awake ha _).trans ?_
  simp only [taken, if_true]

theorem takesRequests_claimed (due : noArmingDue s) (none : s.mp.request = none) (normal : s.mp.inReset = false) :
    s.claimed.takesRequests = true := by
  have spared := claimed_spared due none
  simp [State.takesRequests, spared.request, spared.inReset, none, normal]

/-! ## Placing (R119, R120, R125, R127) -/

/-- A request of this access that is not suppressed has been placed in its stage. -/
structure Placed (v t : State) (a : Access) (r : Request) : Prop where
  mp : t.mp = { v.mp with request := some r }
  access : r.access = a
  refreshed : r.refreshed = none
  writes : a.write = true → r.stage = .waiting ∧ r.fresh = none ∧ r.target = v.targetOf a.addr ∧ t.de = v.de
  reads : a.write = false → r.target = .none
  asks : a.write = false → ∀ f, v.freshOf a.addr = some f → r.stage = .refreshing ∧ r.fresh = some f
    ∧ t.de = { v.de with fresh := if v.de.fresh.contains f then v.de.fresh else v.de.fresh ++ [f] }
  waits : a.write = false → v.freshOf a.addr = none → r.fresh = none
    ∧ r.stage = (if v.holdTest a.addr then .held else .waiting) ∧ t.de = v.de
  lines : t.lines = v.lines
  cu : t.cu = v.cu
  nu : t.nu = v.nu
  wu : t.wu = v.wu

theorem placeRequest_placed (v : State) (a : Access) : ∃ r, Placed v (v.placeRequest a) a r := by
  cases write : a.write with
  | true =>
    have is : v.placeRequest a = v.setRequest (some { access := a, target := v.targetOf a.addr, fresh := none,
                                                      stage := .waiting, refreshed := none }) := by
      rw [State.placeRequest, if_pos write]
    rw [is]
    exact ⟨_, rfl, rfl, rfl, fun _ => ⟨rfl, rfl, rfl, rfl⟩, fun h => (by cases write.symm.trans h),
      fun h => (by cases write.symm.trans h), fun h => (by cases write.symm.trans h), rfl, rfl, rfl, rfl⟩
  | false =>
    cases fresh : v.freshOf a.addr with
    | some f =>
      have is : v.placeRequest a = (v.setRequest (some { access := a, target := .none, fresh := some f,
                                                         stage := .refreshing, refreshed := none })).askRefresh f := by
        simp only [State.placeRequest, write, fresh, Bool.false_eq_true, if_false]
      rw [is]
      refine ⟨_, rfl, rfl, rfl, fun h => (by cases write.symm.trans h), fun _ => rfl, fun _ g hg => ?_,
        fun _ h => (by cases fresh.symm.trans h), rfl, rfl, rfl, rfl⟩
      cases fresh.symm.trans hg
      exact ⟨rfl, rfl, rfl⟩
    | none =>
      have is : v.placeRequest a = v.setRequest (some { access := a, target := .none, fresh := none,
                                                        stage := if v.holdTest a.addr then .held else .waiting,
                                                        refreshed := none }) := by
        simp only [State.placeRequest, write, fresh, Bool.false_eq_true, if_false]
      rw [is]
      exact ⟨_, rfl, rfl, rfl, fun h => (by cases write.symm.trans h), fun _ => rfl,
        fun _ f hf => (by cases fresh.symm.trans hf), fun _ _ => ⟨rfl, rfl, rfl⟩, rfl, rfl, rfl, rfl⟩

theorem Placed.keepsDe {r : Request} (h : Placed v t a r) : t.de = { v.de with fresh := t.de.fresh } := by
  cases write : a.write with
  | true =>
    obtain ⟨-, -, -, de⟩ := h.writes write
    rw [de]
  | false =>
    cases fresh : v.freshOf a.addr with
    | none => rw [(h.waits write fresh).2.2]
    | some f => rw [(h.asks write f fresh).2.2]

theorem Placed.keepsPages {r : Request} (h : Placed v t a r) (p : PageId) : t.page p = v.page p := by
  simp only [State.page]
  rw [h.keepsDe]

theorem Placed.keepsDirty {r : Request} {p : PageId} (h : Placed v t a r) (dirty : isDirty v p) : isDirty t p := by
  rw [isDirty, h.keepsPages]
  exact dirty

/-- The state in which the port answers to the host no completion any more (R119). -/
def State.unanswered (s : State) : State := s.modMp fun m => { m with completion := none }

theorem reported_unanswered (b : State) : Reported b b.unanswered :=
  ⟨fun _ => rfl, rfl, rfl, rfl, rfl, keepsRecords_of rfl rfl⟩

theorem takeRequest_placed (h : ¬(a.write = true ∧ b.suppresses a.addr = true)) :
    b.takeRequest a = (b.unanswered.matchAll a.addr.toNat a.write).placeRequest a := if_neg h

/-- Settles O21: the path of a request that is not suppressed. -/
theorem hostRequestTakesItsPath : Obligations.HostRequestTakesItsPath := by
  intro addr write be data s ha due idle normal free
  have spared := claimed_spared due idle
  have taken := hostRequestTaken_answers (addr := addr) (write := write) (be := be) (data := data) ha
    (takesRequests_claimed due idle normal)
  have first := claimed_spec s
  generalize s.claimed = b at *
  have path : ¬(write = true ∧ b.suppresses addr = true) := fun ⟨w, hit⟩ =>
    free w ((suppressed_spared spared).mp (suppresses_iff.mp hit))
  rw [takeRequest_placed path] at taken
  have m := matchAll_matches b.unanswered addr write
  dsimp only at taken
  generalize b.unanswered.matchAll addr.toNat write = v at *
  obtain ⟨r, placed⟩ := placeRequest_placed v { addr := addr, write := write, be := be, data := data }
  generalize v.placeRequest { addr := addr, write := write, be := be, data := data } = t at *
  have base : v.wu.base = s.wu.base := m.base.trans spared.base
  obtain ⟨de, faulted⟩ := m.de
  have held : v.holdTest addr = true ↔ covered b addr :=
    holdTest_iff.trans (covered_congr (by rw [de]) (by rw [de]) m.base addr)
  obtain ⟨windows, follows, again, lines⟩ := matches_reported (t := b.markChanged t) m (reported_unanswered b) placed.lines
    placed.cu placed.wu placed.nu fun dirty => markChanged_isDirty (placed.keepsDirty dirty)
  have mp : t.mp = { b.mp with request := some r, completion := none } := by
    rw [placed.mp, m.mp]
    rfl
  have fresh : v.de.fresh = b.de.fresh := (congrArg De.fresh de).trans rfl
  have written (w : write = true) : t.de.fresh = b.de.fresh := by
    obtain ⟨-, -, -, same⟩ := placed.writes w
    rw [same, fresh]
  have nobody (r : write = false) (f : ∀ f, ¬freshAt s addr f) : v.freshOf addr = .none :=
    freshOf_nobody fun x hx => f x ((freshAt_base base x).mp hx)
  refine ⟨b, b.markChanged t, _, r, taken, first, settled_arbitrate _, mp, placed.access, placed.refreshed, fun w => ?_,
    fun w => ⟨placed.reads w, fun f at_ => ?_, fun away => ?_⟩, ?_, ?_, windows, fun w => ?_, follows, again, fun same => ?_,
    ?_, ?_, fun l => ?_⟩
  · obtain ⟨stage, asks, target, -⟩ := placed.writes w
    exact ⟨stage, asks, fun x hx => target.trans (targetOf_captured ((capturedAs_base base x).mpr hx)),
      fun none => target.trans (targetOf_nobody fun x hx => none x ((capturedAs_base base x).mp hx))⟩
  · obtain ⟨stage, asks, after⟩ := placed.asks w f (freshOf_iff.mpr ((freshAt_base base f).mpr at_))
    have list : t.de.fresh = if b.de.fresh.contains f then b.de.fresh else b.de.fresh ++ [f] := by rw [after, ← fresh]
    exact ⟨stage, asks, fun mem => list.trans (if_pos (by simpa using mem)), fun new => list.trans (if_neg (by simpa using new))⟩
  · obtain ⟨asks, stage, -⟩ := placed.waits w (nobody w away)
    exact ⟨asks, fun c => stage.trans (if_pos (held.mpr c)), fun c => stage.trans (if_neg fun h => c (held.mp h))⟩
  · rintro (w | away)
    · exact written w
    · cases dir : write with
      | true => exact written dir
      | false =>
        have after := (placed.waits dir (nobody dir away)).2.2
        show t.de.fresh = b.de.fresh
        rw [after, fresh]
  · refine deKept_markChanges (s := { b with de := { b.de with fresh := t.de.fresh } }) ⟨?_, fun p => ?_⟩
    · rw [placed.keepsDe, de]
      rfl
    · rw [placed.keepsPages]
      exact faulted p
  · show (t.window w).guardHits = _
    rw [State.window, placed.wu]
    exact (m.guards w).trans (spared.guards w)
  · have kept : v.nu = b.nu := m.quiet (by rw [← placed.wu]; exact same)
    exact placed.nu.trans kept
  · exact (congrArg Wu.ownedHits placed.wu).trans (m.hits.trans spared.hits)
  · exact placed.cu.trans (m.cu.trans spared.cu)
  · obtain ⟨ls, sru⟩ := lines l
    exact ⟨ls.trans (by simp only [State.ls, spared.lines]), sru.trans (by simp only [State.sru, spared.lines])⟩

end Sys2Proof.Machine
end

