-- ==== Sys2Proof/Proofs/Suppressions.lean ====
section
/-! PROOF of O20. A write that is suppressed: completed at once, its causes counted and reported (spec/06 R120; spec/07
R137, R138, R170). -/

namespace Sys2Proof.Machine
open Sys2Proof

variable {s t u v b c c' : State} {addr : Addr} {a : Access} {be : BitVec 4} {data : Word}

/-! ## The report of a suppression (R138, R170) -/

theorem reportOwned_records (s : State) (code : Nat) : keepsRecords (· = .guardHit) s (s.reportOwned code) := by
  have counted : keepsRecords (· = .guardHit) s
      (s.modWu fun u => { u with ownedHits := modAt u.ownedHits (Fin.ofNat 6 (code - 8)) satInc }) := keepsRecords_of rfl rfl
  exact keepsRecords_trans counted (keepsRecords_raise _ _ _ _ rfl)

theorem reportGuard_records (s : State) (w : WindowId) : keepsRecords (· = .guardHit) s (s.reportGuard w) := by
  have counted : keepsRecords (· = .guardHit) s (s.modWindow w fun x => { x with guardHits := satInc x.guardHits }) :=
    keepsRecords_of rfl rfl
  exact keepsRecords_trans counted (keepsRecords_raise _ _ _ _ rfl)

theorem reportGuards_records (ws : List WindowId) (s : State) :
    keepsRecords (· = .guardHit) s (ws.foldl (fun t w => t.reportGuard w) s) := by
  induction ws generalizing s with
  | nil => exact keepsRecords_refl _ s
  | cons w ws ih => exact keepsRecords_trans (reportGuard_records s w) (ih _)

/-- The report raises GUARD_HIT alone. -/
theorem reportSuppression_records (s : State) (addr : Addr) : keepsRecords (· = .guardHit) s (s.reportSuppression addr) := by
  simp only [State.reportSuppression]
  cases s.ownedCause addr with
  | none => exact reportGuards_records _ s
  | some c => exact keepsRecords_trans (reportOwned_records s c) (reportGuards_records _ _)

/-- From the state before a request the report changes the counts and their notices alone. -/
theorem reportSuppression_reported (b : State) (addr : Addr) : Reported b (b.unanswered.reportSuppression addr) := by
  obtain ⟨-, wu, windows, -⟩ := reportSuppression_spec b.unanswered addr
  obtain ⟨lines, cu, de, -⟩ := reportSuppression_frame b.unanswered addr
  have records := reportSuppression_records b.unanswered addr
  generalize b.unanswered.reportSuppression addr = u at *
  exact ⟨windows, (congrArg Wu.attendance wu).trans rfl, cu, lines, de,
    keepsRecords_trans (keepsRecords_of rfl rfl) records⟩

/-- A report stands after an update that keeps the counts and raises no GUARD_HIT, and the causes may be judged in any
state that gives the same. -/
theorem suppressionReported_kept {p : Kind → Prop} (h : suppressionReported c s t addr)
    (owned : ∀ x, ownedHit c' addr x ↔ ownedHit c addr x) (guarded : ∀ w, guardedBy c' addr w ↔ guardedBy c addr w)
    (hits : u.wu.ownedHits = t.wu.ownedHits) (guards : ∀ w : WindowId, (u.window w).guardHits = (t.window w).guardHits)
    (records : keepsRecords p t u) (hp : ¬p .guardHit) : suppressionReported c' s u addr := by
  obtain ⟨fields, windows, last, alone⟩ := h
  have told (d : Nat) (h : t.levelOf .guardHit ≠ 0 → Sys2Proof.records t.nu .guardHit .part (BitVec.ofNat 16 d) s.nu.ms)
      (level : u.levelOf .guardHit ≠ 0) : Sys2Proof.records u.nu .guardHit .part (BitVec.ofNat 16 d) s.nu.ms :=
    keepsRecords_records records hp (h (by rw [← records.2.1]; exact level))
  refine ⟨fun x => ?_, fun w => ?_, fun w hit highest => ?_, fun none x hit => ?_⟩
  · rw [owned, hits]
    exact fields x
  · rw [guarded, guards]
    exact windows w
  · exact told _ (last w ((guarded w).mp hit) fun v above h => highest v above ((guarded v).mpr h))
  · exact told _ (alone (fun v h => none v ((guarded v).mpr h)) x ((owned _).mp hit))

theorem takeRequest_suppressed (h : a.write = true ∧ b.suppresses a.addr = true) : b.takeRequest a
    = ((b.unanswered.reportSuppression a.addr).matchAll a.addr.toNat a.write).completeUp false none := if_pos h

/-- Settles O20: the taking of a write that is suppressed. -/
theorem suppressedWriteCompletes : Obligations.SuppressedWriteCompletes := by
  intro addr be data s ha due idle normal hit
  have spared := claimed_spared due idle
  have taken := hostRequestTaken_answers (addr := addr) (write := true) (be := be) (data := data) ha
    (takesRequests_claimed due idle normal)
  have first := claimed_spec s
  generalize s.claimed = b at *
  rw [takeRequest_suppressed ⟨rfl, suppresses_iff.mpr ((suppressed_spared spared).mpr hit)⟩] at taken
  have reported := reportSuppression_reported b addr
  have report := (reportSuppression_spec b.unanswered addr).1
  obtain ⟨-, -, -, port, -⟩ := reportSuppression_frame b.unanswered addr
  have m := matchAll_matches (b.unanswered.reportSuppression addr) addr true
  dsimp only at taken
  generalize b.unanswered.reportSuppression addr = u at *
  generalize u.matchAll addr.toNat true = v at *
  obtain ⟨windows, follows, again, lines⟩ := matches_reported (t := b.markChanged (v.completeUp false none)) m reported rfl
    rfl rfl rfl markChanged_isDirty
  have told : suppressionReported s b.unanswered v addr :=
    suppressionReported_kept report (fun x => (ownedHit_congr spared.rings spared.base (by rw [spared.cu]) addr x).symm)
      (fun w => (guardedBy_congr (congrArg Cu.liveWindows spared.cu) addr w).symm) m.hits m.guards m.records (by rintro (h | h) <;> cases h)
  have mp : (v.completeUp false none).mp = { b.mp with completion := some { err := false, data := none } } := by
    have empty : b.mp.request = none := spared.request.trans idle
    simp only [State.completeUp, State.modMp, m.mp, port, State.unanswered, empty]
  refine ⟨b, b.markChanged (v.completeUp false none), _, taken, first, settled_arbitrate _, mp,
    m.cu.trans (reported.cu.trans spared.cu), told, windows, follows, again, ?_, fun l => ?_⟩
  · exact deKept_markChanges (deKept_step (deKept_eq reported.de) m.de)
  · obtain ⟨ls, sru⟩ := lines l
    exact ⟨ls.trans (by simp only [State.ls, spared.lines]), sru.trans (by simp only [State.sru, spared.lines])⟩

end Sys2Proof.Machine
end
